-- ==== Sys2Proof/Word.lean ====
section
/-! DEFINITION. The word types of the OVL-GM1 and the plainest facts about its group width
(spec/00_scope.md R1, spec/01_device.md R12, spec/02_execution_model.md R31). -/

namespace Sys2Proof

/-- Eight bits, the smallest addressable unit (08 R171). -/
abbrev Byte := BitVec 8
/-- One 32-bit register of one lane, or one uniform 32-bit register (02 Table 2.3). -/
abbrev Word := BitVec 32
/-- A 64-bit value, held in an even-aligned register pair (02 R30). -/
abbrev DWord := BitVec 64
/-- A set of lanes: bit l stands for lane l (02 R31). -/
abbrev Mask := BitVec 32
/-- A virtual address: 57 bits (01 Table 1.1). -/
abbrev VAddr := BitVec 57
/-- A block priority, 0 to 4095 (02 R22). -/
abbrev Prio := BitVec 12
/-- A buffer record, 256 bits (09 R201). -/
abbrev Rec := BitVec 256

/-- The group width W of this part (01 R12). -/
def laneCount : Nat := 32

/-- The lanes of a group, in ascending order. -/
def lanes : List Nat := List.range 32

/-- The mask of all lanes. -/
def allLanes : Mask := 0xFFFFFFFF#32

/-- A sparse map: (key, value) pairs with strictly rising keys. A key that is not listed reads as the
default that its reader names. -/
abbrev Sp (α : Type) := List (Nat × α)

end Sys2Proof
end

