-- ==== Sys2Proof/Config.lean ====
section
/-! DEFINITION. What an implementation fixes and the spec leaves open: constants without a body, so
that nothing can be proved of their values. Each is named in the assumption log. -/

namespace Sys2Proof.Config

open Sys2Proof

/-- The fixed hash from a physical line number to its home slice (01 R13); log entry 6. -/
opaque homeSlice : Nat → Fin 64

/-- The fixed hash from an ASID and a 128 KiB page to the slice that holds its shared TLB (14 R349); log entry
6. -/
opaque tlbSlice : Nat → Nat → Fin 64

/-- A byte of a frame whose bytes decrypt under a key that did not write them (14 R352): the draw, and the
offset within the frame; log entry 59. -/
opaque garbled : Nat → Nat → Byte

/-- The port whose link leads to a peer, by the wiring of the domain (11 R254, R256); log entry 6. -/
opaque linkPort : Nat → Fin 18

/-- Bits that the noise source delivers at the n-th draw (05 R131); log entry 7. -/
opaque noiseBits : Nat → BitVec 64

/-- The fixed function of an approximate FP32 transcendental: opcode, `%NBV`, input code (04 R90). It
is used only where its value lies within the bound of Table 4.7; log entry 8. -/
opaque approxFp32 : Nat → Nat → Nat → Nat

/-- The reduction order of a collective under NBV 2 without CANON, fixed by the placement (11 R268):
from the element, COUNT and the roster, the merges i, j, i', j', … each of which takes the value of rank
j into that of rank i; log entry 9. -/
opaque collOrder : List Nat → List Nat

/-- SHA-384 (14 R364); log entry 10. -/
opaque sha384 : List Byte → BitVec 384

/-- Whether an image verifies under the vendor's keys (14 R364, R365); log entry 10. -/
opaque imageVerifies : BitVec 64 → Nat → List Byte → Bool

/-- The device's signatures of an attestation report (14 R366): which signature, the key of the boot, the leaf
that the LMS key uses, and the bytes covered; log entry 10. -/
opaque signature : Nat → BitVec 256 → Nat → List Byte → List Byte

/-- The certificate that the identity keys give an attestation key at boot (14 R366); log entry 10. -/
opaque certify : BitVec 256 → BitVec 256 → List Byte

end Sys2Proof.Config
end

