-- ==== Sys2Proof/Machine/Store.lean ====
section
/-! DEFINITION. Sparse maps with rising keys: reading, inserting, removing, and the canonical write
that never lists the value an unlisted key reads as (MEMORY in this form is canonical). -/

namespace Sys2Proof

/-- The value listed under a key. -/
def Sp.get? {α : Type} : Sp α → Nat → Option α
  | [], _ => none
  | (k, v) :: r, x => if k = x then some v else Sp.get? r x

/-- The value under a key, `d` where none is listed. -/
def Sp.get {α : Type} (d : α) (m : Sp α) (x : Nat) : α := (Sp.get? m x).getD d

/-- Insert or replace, keeping the keys rising. -/
def Sp.put {α : Type} : Sp α → Nat → α → Sp α
  | [], x, v => [(x, v)]
  | (k, w) :: r, x, v =>
    if x < k then (x, v) :: (k, w) :: r
    else if x = k then (x, v) :: r
    else (k, w) :: Sp.put r x v

/-- Remove a key. -/
def Sp.del {α : Type} : Sp α → Nat → Sp α
  | [], _ => []
  | (k, w) :: r, x => if k = x then Sp.del r x else (k, w) :: Sp.del r x

/-- The canonical write: writing the default removes the key. -/
def Sp.set {α : Type} [DecidableEq α] (d : α) (m : Sp α) (x : Nat) (v : α) : Sp α :=
  if v = d then Sp.del m x else Sp.put m x v

/-- Whether a key is listed. -/
def Sp.has {α : Type} (m : Sp α) (x : Nat) : Bool := (Sp.get? m x).isSome

/-- Read `n` consecutive keys. -/
def Sp.read {α : Type} (d : α) (m : Sp α) (x n : Nat) : List α :=
  (List.range n).map fun i => Sp.get d m (x + i)

/-- Write a list to consecutive keys, canonically. -/
def Sp.write {α : Type} [DecidableEq α] (d : α) (m : Sp α) (x : Nat) : List α → Sp α
  | [] => m
  | v :: r => Sp.write d (Sp.set d m x v) (x + 1) r

/-- The entries whose keys lie in [lo, lo + n). -/
def Sp.slice {α : Type} (m : Sp α) (lo n : Nat) : Sp α :=
  m.filter fun kv => lo ≤ kv.1 && kv.1 < lo + n

/-- The entries whose keys lie outside [lo, lo + n). -/
def Sp.cut {α : Type} (m : Sp α) (lo n : Nat) : Sp α :=
  m.filter fun kv => !(lo ≤ kv.1 && kv.1 < lo + n)

/-- Bytes of units that carry a clear mark until they are written (14 R353): a unit that is not listed as filled
reads as zero. -/
def clearRead (filled : Sp Bool) (unit : Nat) (m : Sp Byte) (x n : Nat) : List Byte :=
  (List.range n).map fun i => if Sp.get false filled ((x + i) / unit) then Sp.get 0#8 m (x + i) else 0#8

/-- Units that n bytes cover. -/
def unitsOf (unit x n : Nat) : List Nat :=
  if n = 0 then [] else (List.range ((x + n - 1) / unit + 1 - x / unit)).map (x / unit + ·)

/-- A write to a cleared unit first fills its other bytes with zero, then clears the mark (14 R353). -/
def clearFill (filled : Sp Bool) (unit : Nat) (m : Sp Byte) (x : Nat) (bs : List Byte) : Sp Byte × Sp Bool :=
  let us := (unitsOf unit x bs.length).filter fun u => !Sp.get false filled u
  (Sp.write 0#8 (us.foldl (fun m u => Sp.cut m (u * unit) unit) m) x bs,
    us.foldl (fun f u => Sp.set false f u true) filled)

/-- The keys rise strictly. -/
def Sp.sorted {α : Type} : Sp α → Bool
  | [] => true
  | [_] => true
  | (a, _) :: (b, w) :: r => decide (a < b) && Sp.sorted ((b, w) :: r)

/-- The canonical form: keys rise strictly and no entry equals the default. -/
def Sp.wf {α : Type} [DecidableEq α] (d : α) (m : Sp α) : Bool :=
  Sp.sorted m && m.all fun kv => decide (kv.2 ≠ d)

end Sys2Proof
end

