-- ==== Sys2Proof/Machine/Bits.lean ====
section
/-! DEFINITION. Bit fields, lane masks and byte order (00 R1: bit 0 is the least significant,
multi-byte values are little-endian). -/

namespace Sys2Proof.Machine

open Sys2Proof

/-- The null record (02 R30; 09 R202): PEER local, R and W set so that an access fails only by its bounds (DEDUCED,
log entry 27), every other field zero. -/
def nullRec : Rec := BitVec.ofNat 256 (0x7FF * 2 ^ 237 + 2 ^ 233 + 2 ^ 232)

/-- Field [lo + n - 1 : lo] of a number. -/
def field (x lo n : Nat) : Nat := (x >>> lo) % 2 ^ n

/-- The lanes of a mask, ascending. -/
def maskLanes (m : Mask) : List Nat := lanes.filter fun l => m.getLsbD l

/-- The mask of one lane. -/
def laneBit (l : Nat) : Mask := 1#32 <<< l

/-- The mask of the lanes where `f` holds. -/
def maskWhere (f : Nat → Bool) : Mask :=
  lanes.foldl (fun m l => if f l then m ||| laneBit l else m) 0#32

/-- The mask of a list of lanes. -/
def maskOf (ls : List Nat) : Mask := ls.foldl (fun m l => m ||| laneBit l) 0#32

/-- The lowest lane of a mask, 32 when it is empty. -/
def lowestLane (m : Mask) : Nat := ((maskLanes m).head?).getD 32

/-- Number of lanes of a mask. -/
def maskCount (m : Mask) : Nat := (maskLanes m).length

/-- `n` bytes of a number, least significant first. -/
def toBytes : Nat → Nat → List Byte
  | 0, _ => []
  | n + 1, x => BitVec.ofNat 8 x :: toBytes n (x / 256)

/-- The number that bytes spell, least significant first. -/
def ofBytes : List Byte → Nat
  | [] => 0
  | b :: r => b.toNat + 256 * ofBytes r

/-- A number read as a two's-complement value of `n` bits. -/
def signed (n x : Nat) : Int :=
  if x % 2 ^ n < 2 ^ (n - 1) then (x % 2 ^ n : Nat) else ((x % 2 ^ n : Nat) : Int) - 2 ^ n

/-- An integer reduced modulo 2^n. -/
def wrapNat (n : Nat) (x : Int) : Nat := (x % (2 ^ n : Int)).toNat

/-- Round up to a multiple of `k`. -/
def roundUp (x k : Nat) : Nat := (x + k - 1) / k * k

/-- Position of the highest one bit plus one; 0 for 0. -/
def bitLen (x : Nat) : Nat := if x = 0 then 0 else Nat.log2 x + 1

/-- Replace element `i` of a list. -/
def setAt {α : Type} : List α → Nat → α → List α
  | [], _, _ => []
  | _ :: r, 0, v => v :: r
  | a :: r, i + 1, v => a :: setAt r i v

/-- Least of a list of numbers, `d` for an empty one. -/
def minOf (d : Nat) : List Nat → Nat
  | [] => d
  | a :: r => r.foldl min a

/-- Greatest of a list of numbers, 0 for an empty one. -/
def maxOf (l : List Nat) : Nat := l.foldl max 0

/-- The first element for which `f` answers. -/
def firstSome {α β : Type} (f : α → Option β) : List α → Option β
  | [] => none
  | a :: r => match f a with
    | some b => some b
    | none => firstSome f r

/-- Insert before the first element that does not go before it. -/
def insertBy {α : Type} (before : α → α → Bool) (x : α) : List α → List α
  | [] => [x]
  | y :: r => if before y x then y :: insertBy before x r else x :: y :: r

/-- Sort by a key, smallest first; elements of one key keep their order. -/
def sortByKey {α : Type} (key : α → Nat) (l : List α) : List α :=
  l.foldr (fun x acc => insertBy (fun y z => decide (key y < key z)) x acc) []

/-- Round num/den to an integer, ties to even. -/
def rneDiv (num den : Nat) : Nat :=
  let q := num / den
  let r := num % den
  if 2 * r > den ∨ (2 * r = den ∧ q % 2 = 1) then q + 1 else q

end Sys2Proof.Machine
end

