-- ==== Sys2Proof/Machine/Flags.lean ====
section
/-! DEFINITION. The flags of `%FLG` (02 Table 2.5) as an 8-bit set in the register's own layout, the
mode bits of `%MODE` (02 Table 2.6), and the IEEE trap test (02 R36, 04 R85). -/

namespace Sys2Proof.Machine

open Sys2Proof

/-- A set of flags, laid out as bits [7:0] of `%FLG`. -/
abbrev Flags := BitVec 8

def flagInx : Flags := 0x01#8
def flagUfl : Flags := 0x02#8
def flagOfl : Flags := 0x04#8
def flagDvz : Flags := 0x08#8
def flagInv : Flags := 0x10#8
def flagSat : Flags := 0x20#8
def flagOob : Flags := 0x40#8
def flagFmt : Flags := 0x80#8

/-- `f` when the condition holds, no flag otherwise. -/
def flagIf (c : Bool) (f : Flags) : Flags := if c then f else 0#8

/-- The RSVD bits of `%FLG` read zero (02 R35, 00 R2). -/
def flgMask : Word := 0x000000FF#32

/-- `%MODE` bits that exist (02 Table 2.6). -/
def modeMask : Word := 0x000007FF#32

def modeExact (m : Word) : Bool := m.getLsbD 0
def modeFtz   (m : Word) : Bool := m.getLsbD 1
def modeRm    (m : Word) : Nat := field m.toNat 2 3
def modeApxd  (m : Word) : Bool := m.getLsbD 10

/-- The trap-enable bits of `%MODE` as the set of flags they enable (02 Table 2.6). -/
def modeTraps (m : Word) : Flags :=
  flagIf (m.getLsbD 5) flagInx ||| flagIf (m.getLsbD 6) flagUfl ||| flagIf (m.getLsbD 7) flagOfl |||
  flagIf (m.getLsbD 8) flagDvz ||| flagIf (m.getLsbD 9) flagInv

/-- The conditions of a lane that meet an enabled trap (02 R36, 04 R85). -/
def trapped (mode : Word) (fl : Flags) : Flags := fl &&& modeTraps mode

/-- Rounding modes (03 Table 3.6b). -/
inductive Rm where
  | rne | rtz | rdn | rup | rna
  deriving DecidableEq, Repr

/-- The rounding mode of an RM code; code 5 takes `%MODE.RM` (03 R50). Codes 6 and 7 are illegal
and never reach here. -/
def rmOf (mode : Word) (code : Nat) : Rm :=
  match (if code = 5 then modeRm mode else code) with
  | 1 => .rtz
  | 2 => .rdn
  | 3 => .rup
  | 4 => .rna
  | _ => .rne

end Sys2Proof.Machine
end

