-- ==== Sys2Proof/Machine/Fp.lean ====
section
/-! DEFINITION. Floating-point formats (04 Table 4.1), exact values, the one rounding of every result
(04 R78 to R82), and the arithmetic of the vector floating-point family (05 R111 to R117). -/

namespace Sys2Proof.Machine

open Sys2Proof

/-- A floating-point format: exponent bits, fraction bits, and whether it has infinities (04 R73). -/
structure Fmt where
  eb : Nat
  fb : Nat
  inf : Bool
  deriving DecidableEq, Repr

def fp64 : Fmt := ⟨11, 52, true⟩
def fp32 : Fmt := ⟨8, 23, true⟩
def fp16 : Fmt := ⟨5, 10, true⟩
def bf16 : Fmt := ⟨8, 7, true⟩
def e5m2 : Fmt := ⟨5, 2, true⟩
def e4m3 : Fmt := ⟨4, 3, false⟩

def Fmt.width (f : Fmt) : Nat := 1 + f.eb + f.fb
def Fmt.bias (f : Fmt) : Nat := 2 ^ (f.eb - 1) - 1
def Fmt.emaxCode (f : Fmt) : Nat := 2 ^ f.eb - 1
/-- Exponent of the smallest normal. -/
def Fmt.emin (f : Fmt) : Int := 1 - (f.bias : Int)
/-- The sign bit in place. -/
def Fmt.signBit (f : Fmt) (neg : Bool) : Nat := if neg then 2 ^ (f.eb + f.fb) else 0
/-- The code of the largest finite magnitude (04 Table 4.1). -/
def Fmt.maxCode (f : Fmt) : Nat :=
  if f.inf then f.emaxCode * 2 ^ f.fb - 1 else f.emaxCode * 2 ^ f.fb + (2 ^ f.fb - 2)
/-- The canonical NaN (04 R81, Table 4.1). -/
def Fmt.nanCode (f : Fmt) : Nat :=
  if f.inf then f.emaxCode * 2 ^ f.fb + 2 ^ (f.fb - 1) else f.emaxCode * 2 ^ f.fb + (2 ^ f.fb - 1)
/-- The code of an infinity. -/
def Fmt.infCode (f : Fmt) (neg : Bool) : Nat := f.signBit neg + f.emaxCode * 2 ^ f.fb

/-- A decoded value: a NaN, an infinity, or (-1)^neg · m · 2^e exactly. -/
inductive FVal where
  | nan (signalling : Bool)
  | inf (neg : Bool)
  | fin (neg : Bool) (m : Nat) (e : Int)
  deriving DecidableEq, Repr

/-- Decode a code (04 R73). -/
def fdecode (f : Fmt) (x : Nat) : FVal :=
  let neg := field x (f.eb + f.fb) 1 == 1
  let ex := field x f.fb f.eb
  let fr := field x 0 f.fb
  if ex = 0 then .fin neg fr (f.emin - f.fb)
  else if f.inf then
    if ex = f.emaxCode then
      if fr = 0 then .inf neg else .nan (decide (fr < 2 ^ (f.fb - 1)))
    else .fin neg (2 ^ f.fb + fr) ((ex : Int) - f.bias - f.fb)
  else if ex = f.emaxCode ∧ fr = 2 ^ f.fb - 1 then .nan false
  else .fin neg (2 ^ f.fb + fr) ((ex : Int) - f.bias - f.fb)

/-- A code is a subnormal. -/
def isSubnormal (f : Fmt) (x : Nat) : Bool :=
  field x f.fb f.eb == 0 && field x 0 f.fb != 0

/-- An input under FTZ: a subnormal reads as zero of its sign and no flag is set (04 R82). -/
def ftzIn (f : Fmt) (ftz : Bool) (x : Nat) : Nat :=
  if ftz && isSubnormal f x then f.signBit (field x (f.eb + f.fb) 1 == 1) else x

/-- Whether a magnitude n + rem/2^sh (with a sticky tail) rounds up (04 R78). -/
def roundsUp (rm : Rm) (neg : Bool) (n rem half : Nat) (sticky : Bool) : Bool :=
  let inexact := rem != 0 || sticky
  let above := decide (rem > half) || (rem == half && sticky)
  let tie := rem == half && !sticky
  match rm with
  | .rne => above || (tie && half != 0 && n % 2 == 1)
  | .rna => above || (tie && half != 0)
  | .rtz => false
  | .rdn => inexact && neg
  | .rup => inexact && !neg

/-- Round m · 2^e (plus a sticky tail below m's last bit) to a multiple of 2^q: the multiple and
whether it is inexact. -/
def roundTo (rm : Rm) (neg : Bool) (m : Nat) (e q : Int) (sticky : Bool) : Nat × Bool :=
  if q ≤ e then
    let n := m * 2 ^ (e - q).toNat
    (if roundsUp rm neg n 0 1 sticky then n + 1 else n, sticky)
  else
    let sh := (q - e).toNat
    let n := m / 2 ^ sh
    let rem := m % 2 ^ sh
    (if roundsUp rm neg n rem (2 ^ (sh - 1)) sticky then n + 1 else n, rem != 0 || sticky)

/-- The code of an overflowed result (04 R78). -/
def overflowCode (f : Fmt) (rm : Rm) (neg : Bool) : Nat :=
  let big := f.signBit neg + f.maxCode
  let inf := if f.inf then f.infCode neg else f.nanCode
  match rm with
  | .rne => inf
  | .rna => inf
  | .rtz => big
  | .rdn => if neg then inf else big
  | .rup => if neg then big else inf

/-- Round an exact nonzero magnitude m · 2^e, with a sticky tail, to a format: code and flags
(04 R78; tininess after rounding; OFL and UFL of 04 Table 4.5). -/
def roundMag (f : Fmt) (rm : Rm) (neg : Bool) (m : Nat) (e : Int) (sticky : Bool) : Nat × Flags :=
  let top : Int := (bitLen m : Int) - 1 + e
  let q := max (top - f.fb) (f.emin - f.fb)
  let r := roundTo rm neg m e q sticky
  let n := r.1
  -- the same rounding with an unbounded exponent
  let u := roundTo rm neg m e (top - f.fb) sticky
  let utop : Int := (bitLen u.1 : Int) - 1 + (top - f.fb)
  let tiny := decide (utop < f.emin)
  -- n lies in [0, 2^(fb+1)]; its code follows from the quantum
  let code :=
    if n < 2 ^ f.fb then n
    else
      let ex : Int := q + f.fb + f.bias
      if n = 2 ^ (f.fb + 1) then (ex.toNat + 1) * 2 ^ f.fb else ex.toNat * 2 ^ f.fb + (n - 2 ^ f.fb)
  if code > f.maxCode then (overflowCode f rm neg, flagOfl ||| flagInx)
  else (f.signBit neg + code, flagIf r.2 flagInx ||| flagIf (tiny && r.2) flagUfl)

/-- Flush a subnormal result under FTZ (04 R82). -/
def ftzOut (f : Fmt) (ftz : Bool) (r : Nat × Flags) : Nat × Flags :=
  if ftz && isSubnormal f r.1 then
    (f.signBit (field r.1 (f.eb + f.fb) 1 == 1), r.2 ||| flagUfl ||| flagInx)
  else r

/-- Round an exact value with sign (04 R78, R81). Zero keeps the sign given. -/
def roundFin (f : Fmt) (rm : Rm) (neg : Bool) (m : Nat) (e : Int) : Nat × Flags :=
  if m = 0 then (f.signBit neg, 0#8) else roundMag f rm neg m e false

def FVal.isNan : FVal → Bool
  | .nan _ => true
  | _ => false

def FVal.isSNan : FVal → Bool
  | .nan s => s
  | _ => false

def FVal.isInf : FVal → Bool
  | .inf _ => true
  | _ => false

def FVal.neg : FVal → Bool
  | .nan _ => false
  | .inf n => n
  | .fin n _ _ => n

def FVal.isZero : FVal → Bool
  | .fin _ m _ => m == 0
  | _ => false

def FVal.negate : FVal → FVal
  | .nan s => .nan s
  | .inf n => .inf (!n)
  | .fin n m e => .fin (!n) m e

/-- Round a decoded value into a format; NaN becomes the canonical NaN. -/
def roundVal (f : Fmt) (rm : Rm) : FVal → Nat × Flags
  | .nan s => (f.nanCode, flagIf s flagInv)
  | .inf n => (if f.inf then f.infCode n else f.nanCode, 0#8)
  | .fin n m e => roundFin f rm n m e

/-- The least exponent of a list of finite terms. -/
def minExp : List FVal → Int → Int
  | [], d => d
  | .fin _ _ e :: r, d => minExp r (if e < d then e else d)
  | _ :: r, d => minExp r d

/-- The exact sum of the finite terms, in units of 2^q with q at or below every exponent. -/
def sumAt (q : Int) : List FVal → Int
  | [] => 0
  | .fin n m e :: r =>
    let v : Int := (m * 2 ^ (e - q).toNat : Nat)
    (if n then -v else v) + sumAt q r
  | _ :: r => sumAt q r

/-- The sign of an exact zero sum: all terms zeros of one sign give that zero, otherwise +0, and -0
under RDN (04 R81). -/
def zeroSumNeg (rm : Rm) (ts : List FVal) : Bool :=
  if ts.all (fun t => t.isZero && t.neg) then true
  else if ts.all (fun t => t.isZero && !t.neg) then false
  else rm == .rdn

/-- Whether the terms hold infinities of each sign. -/
def infSigns (ts : List FVal) : Bool × Bool :=
  (ts.any (fun t => t == .inf false), ts.any (fun t => t == .inf true))

/-- The exact sum of terms, rounded once: any NaN gives the canonical NaN, infinities of both signs
give NaN and INV, one infinity gives itself (04 R78, R81, R87). -/
def sumRound (f : Fmt) (rm : Rm) (ts : List FVal) : Nat × Flags :=
  if ts.any FVal.isNan then (f.nanCode, flagIf (ts.any FVal.isSNan) flagInv)
  else match infSigns ts with
    | (true, true) => (f.nanCode, flagInv)
    | (true, false) => (f.infCode false, 0#8)
    | (false, true) => (f.infCode true, 0#8)
    | (false, false) =>
      let q := minExp ts 0
      let t := sumAt q ts
      if t = 0 then (f.signBit (zeroSumNeg rm ts), 0#8)
      else roundMag f rm (decide (t < 0)) t.natAbs q false

/-- The exact product of two values, and INV for 0 × ∞ (04 R81). -/
def mulVal (a b : FVal) : FVal × Flags :=
  match a, b with
  | .nan s, .nan t => (.nan false, flagIf (s || t) flagInv)
  | .nan s, _ => (.nan false, flagIf s flagInv)
  | _, .nan t => (.nan false, flagIf t flagInv)
  | .inf x, .inf y => (.inf (x != y), 0#8)
  | .inf x, .fin y m _ => if m = 0 then (.nan false, flagInv) else (.inf (x != y), 0#8)
  | .fin x m _, .inf y => if m = 0 then (.nan false, flagInv) else (.inf (x != y), 0#8)
  | .fin x m e, .fin y n g => (.fin (x != y) (m * n) (e + g), 0#8)

/-! ### The vector operations on codes -/

/-- a + b (05 R111). -/
def fpAdd (f : Fmt) (rm : Rm) (ftz : Bool) (a b : Nat) : Nat × Flags :=
  ftzOut f ftz (sumRound f rm [fdecode f (ftzIn f ftz a), fdecode f (ftzIn f ftz b)])

/-- a − b (05 R111). -/
def fpSub (f : Fmt) (rm : Rm) (ftz : Bool) (a b : Nat) : Nat × Flags :=
  ftzOut f ftz (sumRound f rm [fdecode f (ftzIn f ftz a), (fdecode f (ftzIn f ftz b)).negate])

/-- a × b (05 R111). -/
def fpMul (f : Fmt) (rm : Rm) (ftz : Bool) (a b : Nat) : Nat × Flags :=
  let p := mulVal (fdecode f (ftzIn f ftz a)) (fdecode f (ftzIn f ftz b))
  let r := roundVal f rm p.1
  ftzOut f ftz (r.1, r.2 ||| p.2)

/-- a × b + c with one rounding (05 R111); the product is one exact term (04 R81). -/
def fpFma (f : Fmt) (rm : Rm) (ftz : Bool) (a b c : Nat) : Nat × Flags :=
  let p := mulVal (fdecode f (ftzIn f ftz a)) (fdecode f (ftzIn f ftz b))
  let r := sumRound f rm [p.1, fdecode f (ftzIn f ftz c)]
  ftzOut f ftz (r.1, r.2 ||| p.2)

/-- Compare two finite or infinite values; zeros compare equal. -/
def cmpVal (a b : FVal) : Ordering :=
  let rank : FVal → Int × Nat × Int
    | .inf n => if n then (-2, 0, 0) else (2, 0, 0)
    | .fin n m e => if m = 0 then (0, 0, 0) else if n then (-1, m, e) else (1, m, e)
    | .nan _ => (0, 0, 0)
  let ra := rank a
  let rb := rank b
  if ra.1 < rb.1 then .lt
  else if rb.1 < ra.1 then .gt
  else if ra.1 = 1 ∨ ra.1 = -1 then
    let q := if ra.2.2 < rb.2.2 then ra.2.2 else rb.2.2
    let x := ra.2.1 * 2 ^ (ra.2.2 - q).toNat
    let y := rb.2.1 * 2 ^ (rb.2.2 - q).toNat
    if x = y then .eq else if (decide (x < y)) == decide (ra.1 = 1) then .lt else .gt
  else .eq

/-- Whether code a orders strictly below code b, with −0 below +0 (04 R81). -/
def fpBelow (a b : FVal) : Bool :=
  match cmpVal a b with
  | .lt => true
  | .gt => false
  | .eq => a.isZero && b.isZero && a.neg && !b.neg

/-- minimumNumber or maximumNumber (04 R81). -/
def fpMinMax (f : Fmt) (wantMax ftz : Bool) (a b : Nat) : Nat × Flags :=
  let a' := ftzIn f ftz a
  let b' := ftzIn f ftz b
  let x := fdecode f a'
  let y := fdecode f b'
  let inv := flagIf (x.isSNan || y.isSNan) flagInv
  let r :=
    if x.isNan && y.isNan then f.nanCode
    else if x.isNan then b'
    else if y.isNan then a'
    else if fpBelow x y then (if wantMax then b' else a')
    else (if wantMax then a' else b')
  (r, inv)

/-- `FSETP` conditions (05 Table 5.3) and INV (05 R112). -/
def fpCmp (f : Fmt) (cond : Nat) (ftz : Bool) (a b : Nat) : Bool × Flags :=
  let x := fdecode f (ftzIn f ftz a)
  let y := fdecode f (ftzIn f ftz b)
  let un := x.isNan || y.isNan
  let sn := x.isSNan || y.isSNan
  let c := cmpVal x y
  let r := match cond with
    | 0 => !un && c == .eq
    | 1 => un || c != .eq
    | 2 => !un && c == .lt
    | 3 => !un && c != .gt
    | 4 => !un && c == .gt
    | 5 => !un && c != .lt
    | 6 => !un
    | _ => un
  let inv := if 2 ≤ cond ∧ cond ≤ 5 then un else sn
  (r, flagIf inv flagInv)

/-- `FCLASS` (05 Table 5.6). -/
def fpClass (f : Fmt) (a : Nat) : Nat :=
  let sub := isSubnormal f a
  match fdecode f a with
  | .nan s => if s then 0x100 else 0x200
  | .inf n => if n then 0x001 else 0x080
  | .fin n m _ =>
    if m = 0 then (if n then 0x008 else 0x010)
    else if sub then (if n then 0x004 else 0x020)
    else (if n then 0x002 else 0x040)

/-- `FRND`: the integral value that RM selects; never INX (05 R113). -/
def fpRnd (f : Fmt) (rm : Rm) (ftz : Bool) (a : Nat) : Nat × Flags :=
  let a' := ftzIn f ftz a
  match fdecode f a' with
  | .nan s => (f.nanCode, flagIf s flagInv)
  | .inf _ => (a', 0#8)
  | .fin n m e =>
    if m = 0 then (a', 0#8)
    else
      let r := roundTo rm n m e 0 false
      if e ≥ 0 then (a', 0#8)
      else ((roundFin f .rne n r.1 0).1, 0#8)

/-- An exact quotient m/n · 2^e with `k` quotient bits beyond and a sticky tail. -/
def divBits (m n k : Nat) : Nat × Bool := ((m * 2 ^ k) / n, (m * 2 ^ k) % n != 0)

/-- a / b (05 R115). -/
def fpDiv (f : Fmt) (rm : Rm) (ftz : Bool) (a b : Nat) : Nat × Flags :=
  match fdecode f (ftzIn f ftz a), fdecode f (ftzIn f ftz b) with
  | .nan s, y => (f.nanCode, flagIf (s || y.isSNan) flagInv)
  | _, .nan t => (f.nanCode, flagIf t flagInv)
  | .inf _, .inf _ => (f.nanCode, flagInv)
  | .inf x, .fin y _ _ => (f.infCode (x != y), 0#8)
  | .fin x _ _, .inf y => (f.signBit (x != y), 0#8)
  | .fin x m e, .fin y n g =>
    if n = 0 then
      if m = 0 then (f.nanCode, flagInv) else (f.infCode (x != y), flagDvz)
    else if m = 0 then (f.signBit (x != y), 0#8)
    else
      let k := f.fb + 4 + bitLen n
      let d := divBits m n k
      ftzOut f ftz (roundMag f rm (x != y) d.1 (e - g - k) d.2)

/-- √(m · 2^e) with e even: integer root and sticky. -/
def sqrtBits (m : Nat) : Nat × Bool := (Nat.sqrt m, Nat.sqrt m * Nat.sqrt m != m)

/-- m and e scaled so that e is even and the root has at least `k` bits. -/
def sqrtScale (m : Nat) (e : Int) (k : Nat) : Nat × Int :=
  let sh := 2 * k + (if (e % 2) = 0 then 0 else 1)
  (m * 2 ^ sh, e - sh)

/-- √a (05 R115). -/
def fpSqrt (f : Fmt) (rm : Rm) (ftz : Bool) (a : Nat) : Nat × Flags :=
  let a' := ftzIn f ftz a
  match fdecode f a' with
  | .nan s => (f.nanCode, flagIf s flagInv)
  | .inf n => if n then (f.nanCode, flagInv) else (f.infCode false, 0#8)
  | .fin n m e =>
    if m = 0 then (a', 0#8)
    else if n then (f.nanCode, flagInv)
    else
      let sc := sqrtScale m e (f.fb + 4)
      let r := sqrtBits sc.1
      ftzOut f ftz (roundMag f rm false r.1 (sc.2 / 2) r.2)

/-- a × 2^b with one rounding (05 R117). -/
def fpScale (f : Fmt) (rm : Rm) (ftz : Bool) (a : Nat) (b : Int) : Nat × Flags :=
  let a' := ftzIn f ftz a
  match fdecode f a' with
  | .nan s => (f.nanCode, flagIf s flagInv)
  | .inf _ => (a', 0#8)
  | .fin n m e =>
    if m = 0 then (a', 0#8)
    else
      -- an exponent far outside the format rounds as the nearest one that is already far outside
      let b' := max (-8192) (min 8192 b)
      ftzOut f ftz (roundMag f rm n m (e + b') false)

/-! ### Conversions (04 R79, R80; 05 R114) -/

/-- The result of rounding to a narrow format: an overflow with SAT is the largest finite (04 R79). -/
def narrowFix (f : Fmt) (sat n : Bool) (r : Nat × Flags) : Nat × Flags :=
  if r.2 &&& flagOfl != 0#8 then
    if sat then (f.signBit n + f.maxCode, r.2)
    else if f.inf then (f.infCode n, r.2) else (f.nanCode, r.2 ||| flagInv)
  else r


/-- Conversion to FP16, BF16, E5M2 or E4M3: RNE, with SAT (04 R79). -/
def cvtNarrow (f : Fmt) (sat : Bool) (x : FVal) : Nat × Flags :=
  match x with
  | .nan s => (f.nanCode, flagIf s flagInv)
  | .inf n =>
    if f.inf then (f.infCode n, 0#8)
    else if sat then (f.signBit n + f.maxCode, 0#8) else (f.nanCode, flagInv)
  | .fin n m e => narrowFix f sat n (roundFin f .rne n m e)

/-- Conversion to an integer of `n` bits: out of range gives the limit and INV, NaN gives 0 and INV,
an inexact in-range result sets INX (04 R80). -/
def cvtToInt (n : Nat) (sgn : Bool) (rm : Rm) (x : FVal) : Nat × Flags :=
  let lo : Int := if sgn then -(2 ^ (n - 1) : Int) else 0
  let hi : Int := if sgn then 2 ^ (n - 1) - 1 else 2 ^ n - 1
  match x with
  | .nan _ => (0, flagInv)
  | .inf neg => (wrapNat n (if neg then lo else hi), flagInv)
  | .fin neg m e =>
    -- beyond 2^80 every target is out of range, so the exponent may be held there
    let r := if m ≠ 0 ∧ (bitLen m : Int) + e > 80 then (2 ^ 80, false) else roundTo rm neg m e 0 false
    let v : Int := if neg then -(r.1 : Int) else r.1
    if v < lo then (wrapNat n lo, flagInv)
    else if v > hi then (wrapNat n hi, flagInv)
    else (wrapNat n v, flagIf r.2 flagInx)

/-- Conversion from an integer (04 R80): rounded like any other result. -/
def cvtFromInt (f : Fmt) (rm : Rm) (v : Int) : Nat × Flags :=
  roundFin f rm (decide (v < 0)) v.natAbs 0

end Sys2Proof.Machine
end

