-- ==== Sys2Proof/Syntax.lean ====
section
/-! DEFINITION. The abstract syntax: operand codes, types, modifiers and the one inductive `Instr`
with a constructor for every row of spec/opcode_table.json. Instruction words carry one of the
operand shapes of spec/03_encoding.md; the rows that name device steps carry the data of the step. -/

namespace Sys2Proof

/-- The guard of an instruction whose GE bit is 1 (03 R43): it acts in a lane where the predicate
differs from `neg` (the GS bit). -/
structure Guard where
  neg  : Bool
  pred : BitVec 4
  deriving DecidableEq, Repr

/-- The operand codes of 03 Table 3.4; the reserved codes 0xF6 to 0xFF have no operand. -/
inductive Opnd where
  | v (r : Fin 192)
  | s (r : Fin 48)
  | zero
  | litLo
  | litHi
  | lit64
  | lane
  | gw
  deriving DecidableEq, Repr

/-- The field value 0x00, which an entry that does not use the field demands (03 R46). -/
def Opnd.blank : Opnd := .v 0

/-- The type codes of 03 R51; code 15 has no type. -/
inductive Ty where
  | i32 | ui32 | i64 | ui64 | b32 | i16x2 | i8x4 | f32 | f64 | f16x2 | bf16x2
  | e4m3x4 | e5m2x4 | i4x | i4x8
  deriving DecidableEq, Repr

/-- The cross-lane modes of 03 Table 3.7. -/
inductive XMode where
  | own | sld | slu | xor | bc | rot | wsld | wxor
  deriving DecidableEq, Repr

/-- The fill codes of 03 Table 3.8. -/
inductive Fill where
  | zero | own | imm | clamp
  deriving DecidableEq, Repr

/-- The fields of an extended form (03 R41, R42), operand codes and type already read. -/
structure XForm where
  guard : Option Guard
  lit   : Option (BitVec 64)
  a : Opnd
  b : Opnd
  c : Opnd
  d : Opnd
  ty   : Ty
  mod  : BitVec 8
  la   : BitVec 4
  aux  : BitVec 6
  fill : Fill
  xm   : XMode
  xk   : BitVec 5
  imm  : BitVec 16
  deriving DecidableEq, Repr

/-- A base form without operands (03 Table 3.5). -/
structure Base0 where
  guard : Option Guard
  deriving DecidableEq, Repr

/-- A two-field base form: destination (and first source) A, source B (03 R47, R48). -/
structure Base2 where
  guard : Option Guard
  a : Opnd
  b : Opnd
  deriving DecidableEq, Repr

/-- The base form of `MOVI`: B is an 8-bit immediate (03 R47). -/
structure BaseImm where
  guard : Option Guard
  a   : Opnd
  imm : BitVec 8
  deriving DecidableEq, Repr

/-- The short branch: A:B is a signed word offset (03 R49). -/
structure ShortBra where
  guard : Option Guard
  off : BitVec 16
  deriving DecidableEq, Repr

/-- The extended `BRA` and `CALL`: priority in second-word bits [31:20], offset in D:C:IMM16,
and the first word's A and B, which these entries leave blank (03 R49). -/
structure FarBra where
  guard : Option Guard
  lit  : Option (BitVec 64)
  prio : Prio
  off  : BitVec 32
  deriving DecidableEq, Repr

/-- The parts of a stream's strip store (13 R322): source ring, output ring, halo area. -/
inductive StripPart where
  | source
  | output
  | halo
  deriving DecidableEq, Repr

/-- What an uncorrectable error struck (15 R389): a memory line by physical line number, a
scratchpad sector of a team, a strip-store sector of a stream's ring, or one lane of one register. -/
inductive PoisonAt where
  | line (line : Nat)
  | sector (team sector : Nat)
  | strip (stream : Nat) (part : StripPart) (sector : Nat)
  | vreg (group reg lane : Nat)
  | sreg (group reg : Nat)
  deriving DecidableEq, Repr

/-- What a debugger does (16 R396): to a halted team, or, for the last two, to any: breakpoint halting on or off (15
R377), and the owner's error log (15 R374). -/
inductive DebugOp where
  | readImage  (group : Nat)
  | writeImage (group : Nat) (bytes : List Byte)
  | readScratch (off size : Nat)
  | writeScratch (off : Nat) (bytes : List Byte)
  | setStep (group : Nat) (on : Bool)
  | getStep (group : Nat)
  | setBkpt (on : Bool)
  | readErrors
  deriving DecidableEq, Repr

/-- The fields of a queue descriptor (12 Table 12.1); `rsvd` says that its RSVD bytes are zero. -/
structure QueueDesc where
  base : Nat
  logsz : Nat
  part : Nat
  asid : Nat
  msix : Nat
  rankprg : Nat
  rstate : Nat
  errw : Nat
  rsvd : Bool
  deriving DecidableEq, Repr

/-- A rectangle of the mesh: its corner, width and height (14 R342). -/
structure Rect where
  x : Nat
  y : Nat
  w : Nat
  h : Nat
  deriving DecidableEq, Repr

/-- What firmware loads for a partition that it gives to an owner (12 R295; 14 R342): the deadline of the launches
that run there, whether their teams are saved first (15 R381), and the partition's settings, domain map entries
(device, ASID) and queues (function, number, descriptor). -/
structure PartLoad where
  owner : Nat
  deadline : BitVec 64
  save : Bool
  lanterns : Nat
  bwCap : Option Nat
  stripShare : Nat
  vigilUs : Nat
  vigilMs : Nat
  samplePeriod : Nat
  domain : List (Nat × Nat)
  queues : List (Nat × Nat × QueueDesc)
  deriving DecidableEq, Repr

/-- What one rank sends at a collective's join (11 R266): the values of its descriptor, roster and NBV that must
agree among the ranks, its source bytes, and which 4-byte units of them are poisoned. -/
structure CollRank where
  rank   : Nat
  kind   : Nat
  rtype  : Nat
  rop    : Nat
  canon  : Bool
  count  : Nat
  root   : Nat
  nranks : Nat
  roster : List Nat
  nbv    : Nat
  bytes  : List Byte
  bad    : List Nat
  deriving DecidableEq, Repr

/-- One sector of an outstanding `ACP`, by its offset in units of 32 bytes (09 R230; 17 R405). -/
structure CopySector where
  op : Nat
  sector : Nat
  deriving DecidableEq, Repr

/-- The check of one team against thermal migration: the threshold that firmware has set, if it enables migration, and
the temperatures, in units of its own, that it has read of cores (12 R294). -/
structure HeatCheck where
  team : Nat
  limit : Option Nat
  temps : List (Nat × Nat)
  deriving DecidableEq, Repr

/-- What the servo finds at a 1PPS edge: how far its time lies ahead of the counter, and the rate word (13 R308). -/
structure Servo where
  ahead : BitVec 64
  rate : BitVec 96
  deriving DecidableEq, Repr

/-- What firmware loads for a new owner: its ASIDs, each with the root of its tree, and its frames (14 R342, R343). -/
structure OwnerLoad where
  owner : Nat
  asids : List (Nat × Nat)
  frames : List Nat
  deriving DecidableEq, Repr

/-- The bytes that a peer writes: by a store, or as one landing of a remote put (08 R195; 11 R259). -/
structure PeerWrite where
  put : Bool
  data : List Byte
  deriving DecidableEq, Repr

/-- A firmware image as the recovery mailbox and the hand-over receive it (14 R364, R365). -/
structure FwImage where
  version  : BitVec 64
  security : Nat
  bytes    : List Byte
  deriving DecidableEq, Repr

/-- One constructor per row of spec/opcode_table.json, in the table's order. -/
inductive Instr where
  -- control (12 R297 to R307)
  | nopBase (x : Base0)
  | nop (x : XForm)
  | braShort (x : ShortBra)
  | bra (x : FarBra)
  | brx (x : XForm)
  | call (x : FarBra)
  | callx (x : XForm)
  | retBase (x : Base0)
  | ret (x : XForm)
  | exitBase (x : Base0)
  | exit (x : XForm)
  | cset (x : XForm)
  | conv (x : XForm)
  | loop (x : XForm)
  | lbrk (x : XForm)
  | yieldBase (x : Base0)
  | yield (x : XForm)
  | sleep (x : XForm)
  | sleepWake (group : Nat)
  | idemb (x : XForm)
  | ideme (x : XForm)
  -- barriers and completion objects (09 R222 to R228)
  | bar (x : XForm)
  | bara (x : XForm)
  | barw (x : XForm)
  | bari (x : XForm)
  | cbar (x : XForm)
  | obji (x : XForm)
  | obja (x : XForm)
  | objw (x : XForm)
  | objt (x : XForm)
  -- integer, address and predicate (05 R97 to R110)
  | movBase (x : Base2)
  | movBaseLit (x : Base2) (lit : BitVec 64)
  | mov (x : XForm)
  | moviBase (x : BaseImm)
  | movi (x : XForm)
  | sel (x : XForm)
  | iaddBase (x : Base2)
  | iaddBaseLit (x : Base2) (lit : BitVec 64)
  | iadd (x : XForm)
  | isubBase (x : Base2)
  | isubBaseLit (x : Base2) (lit : BitVec 64)
  | isub (x : XForm)
  | iaddc (x : XForm)
  | imul (x : XForm)
  | imulh (x : XForm)
  | imad (x : XForm)
  | iminBase (x : Base2)
  | iminBaseLit (x : Base2) (lit : BitVec 64)
  | imin (x : XForm)
  | imaxBase (x : Base2)
  | imaxBaseLit (x : Base2) (lit : BitVec 64)
  | imax (x : XForm)
  | iabs (x : XForm)
  | andBase (x : Base2)
  | andBaseLit (x : Base2) (lit : BitVec 64)
  | and (x : XForm)
  | orBase (x : Base2)
  | orBaseLit (x : Base2) (lit : BitVec 64)
  | or (x : XForm)
  | xorBase (x : Base2)
  | xorBaseLit (x : Base2) (lit : BitVec 64)
  | xor (x : XForm)
  | andn (x : XForm)
  | not (x : XForm)
  | shlBase (x : Base2)
  | shlBaseLit (x : Base2) (lit : BitVec 64)
  | shl (x : XForm)
  | shrBase (x : Base2)
  | shrBaseLit (x : Base2) (lit : BitVec 64)
  | shr (x : XForm)
  | sarBase (x : Base2)
  | sarBaseLit (x : Base2) (lit : BitVec 64)
  | sar (x : XForm)
  | shrr (x : XForm)
  | rot (x : XForm)
  | clz (x : XForm)
  | popc (x : XForm)
  | brev (x : XForm)
  | bfx (x : XForm)
  | bfi (x : XForm)
  | isetp (x : XForm)
  | plop (x : XForm)
  | pmovGet (x : XForm)
  | pmovPut (x : XForm)
  | iadds (x : XForm)
  | isubs (x : XForm)
  | idot2 (x : XForm)
  | idot4 (x : XForm)
  | ipack (x : XForm)
  | iunpk (x : XForm)
  | icvt (x : XForm)
  -- floating point (05 R111 to R117)
  | faddBase (x : Base2)
  | faddBaseLit (x : Base2) (lit : BitVec 64)
  | fadd (x : XForm)
  | fsub (x : XForm)
  | fmulBase (x : Base2)
  | fmulBaseLit (x : Base2) (lit : BitVec 64)
  | fmul (x : XForm)
  | ffma (x : XForm)
  | fminBase (x : Base2)
  | fminBaseLit (x : Base2) (lit : BitVec 64)
  | fmin (x : XForm)
  | fmaxBase (x : Base2)
  | fmaxBaseLit (x : Base2) (lit : BitVec 64)
  | fmax (x : XForm)
  | fsetp (x : XForm)
  | fclass (x : XForm)
  | frnd (x : XForm)
  | fcvt (x : XForm)
  | fdiv (x : XForm)
  | fsqrt (x : XForm)
  | frcp (x : XForm)
  | frsq (x : XForm)
  | fexp2 (x : XForm)
  | flog2 (x : XForm)
  | fsinp (x : XForm)
  | fcosp (x : XForm)
  | ftanh (x : XForm)
  | fscale (x : XForm)
  -- cross-lane (05 R118 to R130)
  | xshf (x : XForm)
  | xsld (x : XForm)
  | xbfl (x : XForm)
  | xbcst (x : XForm)
  | xred (x : XForm)
  | xscan (x : XForm)
  | xvote (x : XForm)
  | xffs (x : XForm)
  | xpld (x : XForm)
  | xpat (x : XForm)
  -- matrix (06 R134 to R151)
  | mzero (x : XForm)
  | mma (x : XForm)
  | mmas (x : XForm)
  | mmai (x : XForm)
  | had (x : XForm)
  | qnt (x : XForm)
  | dqnt (x : XForm)
  | fragt (x : XForm)
  -- refinement (07 R152 to R170)
  | rlrun (x : XForm)
  | rlRunStart (team : Nat)
  | rlControllerGrant (core : Nat)
  | rlCallEnd (team : Nat)
  | rlacc (x : XForm)
  | rlret (x : XForm)
  | rlabt (x : XForm)
  -- memory (09 R201 to R221, 13 R341)
  | ld (x : XForm)
  | st (x : XForm)
  | sld (x : XForm)
  | ldl (x : XForm)
  | stl (x : XForm)
  | atom (x : XForm)
  | atomu (x : XForm)
  | atoml (x : XForm)
  | flt (x : XForm)
  | bld (x : XForm)
  | bnar (x : XForm)
  | phase (x : XForm)
  | fence (x : XForm)
  | pfch (x : XForm)
  -- async (09 R229 to R235, 10, 11)
  | acp (x : XForm)
  | acpLanded (at_ : CopySector)
  | await (x : XForm)
  | tcp (x : XForm)
  | tst (x : XForm)
  | tcpg (x : XForm)
  | tensorCopyDone (op : Nat)
  | engineLineRelease (op line : Nat)
  | bread (x : XForm)
  | burstReady (read burst : Nat)
  | handlerBirth (core : Nat)
  | rput (x : XForm)
  | rget (x : XForm)
  | remoteCopyDone (op : Nat)
  | rsig (x : XForm)
  | rsigArrival (op : Option Nat) (port team off : Nat) (count : Word)
  | rsigAck (op : Nat) (applied : Bool)
  | coll (x : XForm)
  | collJoin (op : Nat) (others : List CollRank)
  | collWaitExpiry (op : Nat)
  | collDone (op : Nat)
  -- strip (13 R334 to R340)
  | ecov (x : XForm)
  | sacq (x : XForm)
  | sstr (x : XForm)
  | srdh (x : XForm)
  | srelDone (x : XForm)
  | srelCons (x : XForm)
  | srelConsHalo (x : XForm)
  | srate (x : XForm)
  | sprogStart (x : XForm)
  | sprogDone (x : XForm)
  -- system (05 R131, 14 R356 to R359, 15 R375 to R380)
  | sread (x : XForm)
  | swrite (x : XForm)
  | rand (x : XForm)
  | trap (x : XForm)
  | tretRetry (x : XForm)
  | tretSkip (x : XForm)
  | bkpt (x : XForm)
  | psave (x : XForm)
  | pload (x : XForm)
  | tlbinv (x : XForm)
  | fwcallQuery (x : XForm)
  | fwcallPin (x : XForm)
  | fwcallTier (x : XForm)
  | fwcallDomain (x : XForm)
  | fwcallAttest (x : XForm)
  | fwcallQueue (x : XForm)
  | fwcallUnknown (x : XForm)
  -- front end (12 R272 to R288)
  | queueDoorbellWrite (fn off : Nat) (w : Word)
  | pktNop (queue : Nat)
  | pktLaunch (queue : Nat)
  | pktGang (queue : Nat)
  | gangCommit (gang : Nat)
  | gangDeadline (gang : Nat)
  | pktTimed (queue : Nat)
  | pktStreamCreate (queue : Nat)
  | pktStreamAlter (queue : Nat)
  | pktStreamDestroy (queue : Nat)
  | pktWaitmem (queue : Nat)
  | waitmemPoll (queue : Nat)
  | waitmemTimeout (queue : Nat)
  | pktSignal (queue : Nat)
  | pktIndirect (queue : Nat)
  | pktCopy (queue : Nat)
  | copyPacketDone (op : Nat)
  | pktFence (queue : Nat)
  | launchDispatch (part : Nat)
  | teamPlace (launch : Nat)
  | launchStartTime (launch : Nat)
  | launchComplete (launch : Nat)
  -- issue, chunks, lanterns, migration, rebinding, Vigil (12 R289 to R296)
  | issueAging (core sched : Nat)
  | frontierPromotion (group : Nat)
  | evictedLineFetch (group reg : Nat)
  | lanternGrant (group : Nat)
  | lanternIdleReturn (group : Nat)
  | lanternPoolChange (pool : Nat) (reserved : List (Nat × Nat))
  | thermalMigration (heat : HeatCheck)
  | partitionRebind (part : Nat) (rect : Rect) (load : PartLoad)
  | rebindDeadline (part : Nat)
  | vigilNoIssue (launch : Nat)
  | vigilLongWait (group : Nat)
  -- Almanac and sinks (13 R308 to R333)
  | stripRelease (stream : Nat)
  | instanceNextLaunch (inst : Nat)
  | borrowerVacate (stream : Nat)
  | borrowerKill (stream : Nat)
  | almanacEvaluation (inst : Nat)
  | stripDeadline (inst : Nat)
  | displayScanStart (stream : Nat)
  | displayScanEnd (stream : Nat)
  | encoderSlotTime (stream : Nat)
  | encoderRowCoded (stream : Nat)
  | encoderStall (stream : Nat)
  | encoderResume (stream : Nat)
  | ppsEdge (offset : Int) (servo : Servo)
  | ptmTimestamp (host : BitVec 64)
  -- faults, recovery, errors (14 R350, R351; 15)
  | faultService (core : Nat) (supplied : Bool)
  | tierMigration (asid va frame tier : Nat)
  | trapEntry (group : Nat)
  | asyncFailureReport
  | teamVacate (team : Nat)
  | teamRestore (team core : Nat)
  | teamDiscardRestart (team core : Nat)
  | rngHealthFailure (core : Nat)
  | randBitsReady (core : Nat)
  | timingErrorReplay (core sched : Nat)
  | eccCorrected (unit : Nat)
  | eccUncorrectable (hit : PoisonAt)
  | cxlPoison (line : Nat)
  | ioLoadCompletion (read : Nat) (good : Bool) (data : List Byte)
  | ioCompletionTimeout (read : Nat)
  -- host and mailbox (08 R196; 12 R272; 14 R361, R362, R364; 16)
  | bar2Read (fn off size : Nat)
  | bar2Write (fn off : Nat) (data : List Byte)
  | configRequest (fn : Nat)
  | mbxQueueConfig (fn queue : Nat) (desc : QueueDesc)
  | mbxOwnerCreate (fn : Nat) (load : OwnerLoad)
  | mbxAdminMark (fn queue : Nat)
  | mbxIoWindowGrant (fn part base size : Nat)
  | mbxBar2Asid (fn asid : Nat)
  | mbxFwService (fn service : Nat) (args : List Word)
  | mbxTraceRing (fn part base size : Nat)
  | mbxStopTeam (fn team : Nat)
  | mbxResumeTeam (fn team : Nat)
  | mbxDebugAccess (fn team : Nat) (op : DebugOp)
  | mbxReadHistogram (fn part : Nat)
  | sampleRecord (core sched : Nat)
  -- firmware life cycle (14 R364, R365)
  | recoveryImage (fn : Nat) (image : FwImage)
  | fundamentalReset (image : FwImage)
  | fwHandoverStage (image : FwImage)
  | fwHandoverCommit
  -- peers and link (08 R190, R195; 11 R256, R260; 14 R354)
  | peerLoad (peer owner va size : Nat)
  | peerStore (peer core owner va : Nat) (write : PeerWrite)
  | peerRemoteCommit (peer core : Nat)
  | peerAtom (peer core owner va size : Nat) (op : BitVec 3) (ty : Ty) (arg swap : BitVec 64)
  | linkFlitError (port : Nat)
  | peerUnreachable (peer : Nat)
  | longLatencyResult (group lock : Nat)
  | gangStartTime (gang : Nat)
  | collStartTime (op : Nat)
  | linkTraining (port : Nat) (key : BitVec 256)
  deriving DecidableEq, Repr

end Sys2Proof
end

