-- ==== Sys2Proof/Machine/AtomOp.lean ====
section
/-! DEFINITION. The arithmetic of atomics (09 R214). -/

namespace Sys2Proof.Machine

open Sys2Proof

/-- Bytes of an atomic operand of a type. -/
def atomSize : Ty → Nat
  | .i64 => 8
  | .ui64 => 8
  | .f64 => 8
  | _ => 4

/-- The lesser or greater of two integers by the signedness of a type. -/
def atomLess (ty : Ty) (a b : Nat) : Bool :=
  match ty with
  | .i32 => decide (signed 32 a < signed 32 b)
  | .i64 => decide (signed 64 a < signed 64 b)
  | _ => decide (a < b)

/-- The new value of a location (09 Table 9.5): `v` is the operand and `swap` the D value of `.cas`. -/
def atomNew (op : BitVec 3) (ty : Ty) (old v swap : Nat) : Nat :=
  let f := ty == .f32
  match op.toNat with
  | 0 => if f then (fpAdd fp32 .rne false old v).1 else (old + v) % 2 ^ (8 * atomSize ty)
  | 1 => if f then (fpMinMax fp32 false false old v).1 else if atomLess ty v old then v else old
  | 2 => if f then (fpMinMax fp32 true false old v).1 else if atomLess ty old v then v else old
  | 3 => old &&& v
  | 4 => old ||| v
  | 5 => old ^^^ v
  | 6 => v
  | _ => if old = v then swap else old

end Sys2Proof.Machine
end

