-- ==== Sys2Proof/Machine/State.lean ====
section
/-! DEFINITION. The state of the machine as plain data, with the rule that names each piece and its
value at reset, the reasons a step can stop, and `State.reset`. The bracket that closes a field's
docstring gives width, spec file and rule, and reset value. -/

namespace Sys2Proof.Machine

open Sys2Proof

/-- Reasons the machine stops without a next state. The device turns every fault of a program into a
trap, a kill or a report, which are next states, so only one reason is left. -/
inductive Fault where
  /-- A scheduler was told to issue for a group slot that holds no lanes: raised by `State.issue`
  only, and by no state in which candidates hold lanes. Safe: no hardware step corresponds to it. -/
  | noCurrentGroup
  deriving DecidableEq, Repr

/-- Reasons an instruction has no meaning in this model. -/
inductive Refusal where
  /-- Not modelled (rejected by name): raised by arms of `exec` that have no meaning. Safe. -/
  | notModelled (mnemonic : String)
  deriving DecidableEq, Repr

/-! ### Group state -/

/-- A return-stack entry: the next PC and priority a call pushed (12 R299). -/
structure RetEntry where
  pc   : VAddr
  prio : Prio
  deriving DecidableEq, Repr

/-- A frontier entry (02 R23). -/
structure Entry where
  /-- PC of the entry's next instruction [57; 02 R23; reset: entry of the launch] -/
  pc   : VAddr
  /-- block priority [12; 02 R22; reset: PRIO of the entry table] -/
  prio : Prio
  /-- lanes of the entry [32; 02 R23; reset: all lanes] -/
  mask : Mask
  /-- marked as trap mode [1; 15 R373; reset: false] -/
  trap : Bool := false
  /-- issues for which the entry has been passed over [count; 12 R290; reset: 0] -/
  passed : Nat := 0
  deriving DecidableEq, Repr

/-- A running hardware loop (12 R303). -/
structure LoopCtx where
  /-- loop counter number 0 to 2 [2; 12 R303] -/
  ctr  : Nat
  /-- address of the body's first word [57; 12 R303] -/
  top  : VAddr
  /-- address after the body [57; 12 R303] -/
  stop : VAddr
  /-- the loop's priority [12; 12 R303] -/
  prio : Prio
  /-- the loop's lane set [32; 12 R303] -/
  set  : Mask
  /-- lanes parked at the loop's tail [32; 12 R303] -/
  tail : Mask
  /-- lanes of `tail` that are in trap mode meanwhile [32; 12 R420] -/
  away : Mask := 0
  /-- lanes of `tail` that parked there in trap mode [32; 12 R303, 15 R373] -/
  trapTail : Mask := 0
  /-- PC of the last instruction at which lanes parked at the tail [57; 12 R420] -/
  tailPc : VAddr := 0
  deriving DecidableEq, Repr

/-- Lanes parked at one `CONV` (12 R302). -/
structure ConvPark where
  /-- lanes parked [32; 12 R302] -/
  mask : Mask
  /-- lanes of `mask` that are in trap mode meanwhile [32; 12 R420] -/
  away : Mask
  /-- convergence mask register named [3; 12 R302] -/
  k    : Nat
  /-- PC of the `CONV` [57; 12 R302] -/
  pc   : VAddr
  /-- resume PC [57; 12 R302] -/
  next : VAddr
  /-- resume priority [12; 12 R302] -/
  prio : Prio
  /-- device time of the park [64; 12 R296] -/
  since : BitVec 64
  deriving DecidableEq, Repr

/-- Lanes parked at one `RLRUN` (07 R157). -/
structure RlPark where
  /-- call lanes [32; 07 R157] -/
  mask : Mask
  /-- lanes of `mask` that are in trap mode meanwhile [32; 12 R420] -/
  away : Mask
  /-- PC of the `RLRUN` [57; 07 R158] -/
  pc   : VAddr
  /-- PC after the `RLRUN` [57; 07 R158] -/
  next : VAddr
  /-- priority held at the `RLRUN` [12; 07 R158] -/
  prio : Prio
  /-- destination of the `RLRUN` [operand; 07 R167] -/
  dst  : Opnd
  /-- command block address named [32; 07 R167] -/
  addr : Nat
  /-- the lanes wait for the team's next run, not the running one [1; 07 R157] -/
  later : Bool
  /-- counters of the loops that held its lanes at the `RLRUN` [2 each; 07 R158] -/
  loops : List Nat
  /-- device time of the park [64; 12 R296] -/
  since : BitVec 64
  deriving DecidableEq, Repr

/-- The fault record (15 Table 15.2). -/
structure FaultRec where
  /-- CAUSE [7:0] [8; 15 R369] -/
  cause : BitVec 8
  /-- MIXED [1; 15 R370] -/
  mixed : Bool
  /-- ASYNC [1; 15 R386] -/
  async : Bool
  /-- DONE [1; 15 R369] -/
  done  : Bool
  /-- OP of the instruction [8; 15 R369] -/
  op    : BitVec 8
  /-- MASK [32; 15 R369] -/
  mask  : Mask
  /-- PC [57; 15 R369] -/
  pc    : VAddr
  /-- VLINE [64; 15 R369] -/
  vline : BitVec 64
  /-- PRIO [12; 15 R369] -/
  prio  : Prio
  /-- RECIDX with its valid bit [6; 15 R369] -/
  recIdx : Option (BitVec 5)
  /-- AUX [32; 15 R369] -/
  aux   : Word
  deriving DecidableEq, Repr

/-- A sub-group with a fault record, and the positions its lanes keep when DONE is set (02 R25,
15 R378, R379). -/
structure Sub where
  /-- the record [32 bytes; 15 R369] -/
  frec  : FaultRec
  /-- saved positions [entries; 15 R378] -/
  saved : List Entry
  deriving DecidableEq, Repr

/-- Lanes parked in the core's fault queue without a record (14 R350). -/
structure Recov where
  /-- lanes [32; 14 R350] -/
  mask : Mask
  /-- faulting PC [57; 02 R25] -/
  pc   : VAddr
  /-- priority held at the fault [12; 02 R25] -/
  prio : Prio
  /-- trap-mode lanes [1; 15 R374] -/
  trap : Bool
  /-- OP of the instruction [8; 15 R369] -/
  op   : BitVec 8
  /-- ASID of the page [16; 14 R350] -/
  asid : Nat
  /-- 128 KiB virtual page number [40; 14 R350] -/
  page : Nat
  /-- faulting line address [64; 15 R368] -/
  vline : BitVec 64
  /-- record register used [6; 15 R369] -/
  recIdx : Option (BitVec 5)
  /-- cause and AUX that the lanes take when they would next issue [12 R420] -/
  owe : Option (BitVec 8 × Word) := none
  /-- its page stands in the queue; false while the full queue has no entry for it [1; 14 R350] -/
  queued : Bool := true
  deriving DecidableEq, Repr

/-- Waits that hold a whole group (03 R57, 09 R223, R227, R230; 12 R305; 13 R326). -/
inductive Wait where
  | sleep (till : BitVec 64)
  | barrier (id phase : Nat) (acq : Bool)
  | cbar (phase : Nat)
  | object (off : Nat) (value : BitVec 2) (acq : Bool)
  | tag (n : Nat)
  | ring (stream : Nat) (out : Bool) (dst : Opnd)
  deriving DecidableEq, Repr

/-- Parks after which the instruction is issued again (09 R211, R230, R236; 05 R132; 06 R139;
12 R292; 13 R328, R329). -/
inductive Park where
  | sectors (at_ : List (Nat × Nat))
  | reading (at_ : List (Nat × Nat))
  | tagFull (n : Nat)
  | noise (bits : Nat)
  | lantern
  | chunks
  | evicted (reg : Nat)
  | strip (stream : Nat) (halo : Bool)
  | owned (lines : List Nat)
  | io
  | flags
  | device (wait : Option (Nat × Nat))
  deriving DecidableEq, Repr

/-- A lookahead window (03 R56): for each lane that holds it the instructions left; a window held by
the group has the one key 32. -/
structure Window where
  /-- instructions left per lane, or under key 32 for the group [4 each; 03 R56] -/
  left : Sp Nat
  /-- destinations, coded as 03 R58 codes them [16 each; 03 R56] -/
  regs : List (BitVec 16)
  deriving DecidableEq, Repr

/-- What an interlock waits for. -/
inductive LockKind where
  | result
  | read (id : Nat)
  | coll (op : Nat)
  | io (id : Nat)
  | run
  deriving DecidableEq, Repr

/-- An interlock on the destinations of a long-latency instruction (03 R56). -/
structure Lock where
  /-- name of the interlock [count; 03 R56] -/
  id   : Nat
  /-- lanes concerned [32; 03 R56] -/
  mask : Mask
  /-- registers, coded as 03 R58 codes them [16 each; 03 R56] -/
  regs : List (BitVec 16)
  /-- what releases it [03 R56] -/
  kind : LockKind
  deriving DecidableEq, Repr

/-- The restart record that `IDEMB` writes, and the region it opens (12 R306). -/
structure Region where
  /-- PC of the `IDEMB` [57; 12 R306] -/
  pc   : VAddr
  /-- lanes' priority [12; 12 R306] -/
  prio : Prio
  /-- lanes' mask [32; 12 R306] -/
  mask : Mask
  /-- saved vector registers [32 each; 12 R306] -/
  v : Sp Word
  /-- saved poison marks of vector registers [1 each; 15 R389] -/
  vBad : Sp Bool
  /-- saved scalar registers [32 each; 12 R306] -/
  s : Sp Word
  /-- saved poison marks of scalar registers [1 each; 15 R389] -/
  sBad : Sp Bool
  /-- saved predicates [32 each; 12 R306] -/
  p : Sp Mask
  /-- saved buffer records [256 each; 12 R306] -/
  b : Sp Rec
  /-- saved loop counters [32 each; 12 R306] -/
  lc : Sp Word
  /-- saved loop state [12 R306] -/
  loops : List LoopCtx
  /-- saved return stacks [12 R306] -/
  rets : Sp (List RetEntry)
  /-- saved convergence masks [32 each; 12 R306] -/
  k : Sp Mask
  /-- saved `%FLG` [32; 12 R306] -/
  flg : Word
  /-- saved `%MODE` [32; 12 R306] -/
  mode : Word
  /-- saved `%NBV` [32; 12 R306] -/
  nbv : Word
  deriving DecidableEq, Repr

/-- The burst registers of a handler group (02 Table 2.4, 10 R242). -/
structure BurstRegs where
  /-- the read the burst belongs to [count; 10 R242] -/
  read : Nat
  /-- `%BX` [32; 02 R34; zero outside a handler] -/
  bx : Word
  /-- `%BY` [32; 02 R34; zero outside a handler] -/
  by_ : Word
  /-- `%BZ` [32; 02 R34; zero outside a handler] -/
  bz : Word
  /-- `%BIDX` [32; 02 R34; zero outside a handler] -/
  bidx : Word
  /-- `%BN` [32; 02 R34; zero outside a handler] -/
  bn : Word
  /-- `%BSTAT` [32; 10 Table 10.2; zero outside a handler] -/
  bstat : Word
  deriving DecidableEq, Repr

/-- Issue classes (12 R289), highest first. -/
inductive IssueClass where
  | timed | handler | background
  deriving DecidableEq, Repr

/-- A group, declared or handler (02 R18, R28, R29). The default is an empty slot. -/
structure Group where
  /-- the slot holds a group that has not ended [1; 02 R26; reset false] -/
  live : Bool := false
  /-- team of the group [count; 02 R18; reset 0] -/
  team : Nat := 0
  /-- `%GID` [6; 02 Table 2.4; reset 0] -/
  gid : Nat := 0
  /-- place in the order of starts [count; 12 R289; reset 0] -/
  started : Nat := 0
  /-- issue class [2; 12 R289; reset background] -/
  cls : IssueClass := .background
  /-- declared vector registers [8; 02 R30; reset 0] -/
  nv : Nat := 0
  /-- declared scalar registers [6; 02 R30; reset 0] -/
  ns : Nat := 0
  /-- declared buffer records [6; 02 R30; reset 0] -/
  nb : Nat := 0
  /-- `v0`-`v191`, key 32·register + lane [192 x 32 x 32; 02 Table 2.3; reset 0] -/
  v : Sp Word := []
  /-- poison marks of vector registers [1 each; 15 R389; reset clear] -/
  vBad : Sp Bool := []
  /-- `s0`-`s47` [48 x 32; 02 Table 2.3; reset 0] -/
  s : Sp Word := []
  /-- poison marks of scalar registers [1 each; 15 R389; reset clear] -/
  sBad : Sp Bool := []
  /-- `p0`-`p15` as lane masks [16 x 32; 02 Table 2.3; reset 0] -/
  p : Sp Mask := []
  /-- `b0`-`b31` [32 x 256; 02 Table 2.3, 09 R201; reset null record] -/
  b : Sp Rec := []
  /-- `lc0`-`lc2` [3 x 32; 02 Table 2.3; reset 0] -/
  lc : Sp Word := []
  /-- `k0`-`k7` [8 x 32; 02 Table 2.3; reset 0] -/
  k : Sp Mask := []
  /-- `t0`-`t7` [8 x 16; 02 Table 2.3; reset 0] -/
  t : Sp (BitVec 16) := []
  /-- `%FLG` [32; 02 Table 2.5; reset 0] -/
  flg : Word := 0
  /-- `%MODE` [32; 02 Table 2.6; reset: mode word of the launch] -/
  mode : Word := 0
  /-- `%NBV` [32; 02 Table 2.7; reset: `%NBV` of the launch] -/
  nbv : Word := 0
  /-- `%STEP` bit 0 [1; 02 Table 2.4; reset DESIGN CHOICE 0, log entry 1] -/
  step : Bool := false
  /-- last device-time snapshot, ns above fraction [96; 02 R33; reset 0] -/
  snap : BitVec 96 := 0
  /-- frontier, sorted by priority then PC [02 R23; reset empty] -/
  frontier : List Entry := []
  /-- return stack of each lane, top first [16 entries; 12 R299; reset empty] -/
  rets : Sp (List RetEntry) := []
  /-- running loops, innermost first [3 deep; 12 R303; reset none] -/
  loops : List LoopCtx := []
  /-- lanes parked at `CONV` [12 R302; reset none] -/
  conv : List ConvPark := []
  /-- sub-groups with records that wait to enter trap mode [15 R373; reset none] -/
  subs : List Sub := []
  /-- the sub-group in trap mode [15 R373; reset none] -/
  trap : Option Sub := none
  /-- lanes in the fault queue [14 R350; reset none] -/
  recov : List Recov := []
  /-- wait that holds the group [03 R57; reset none] -/
  wait : Option Wait := none
  /-- PC of the instruction that holds the group [57; 12 R420; reset 0] -/
  waitPc : VAddr := 0
  /-- OP of the instruction that holds the group [8; 12 R420; reset 0] -/
  waitOp : BitVec 8 := 0
  /-- position that the lanes of that instruction have reached [57; 12 R420; reset 0] -/
  waitNext : VAddr := 0
  /-- their priority [12; 12 R420; reset 0] -/
  waitPrio : Prio := 0
  /-- wait of the trap-mode lanes, while `wait` stays [15 R373; reset none] -/
  tWait : Option Wait := none
  /-- park after which the instruction issues again [09 R211; reset none] -/
  park : Option Park := none
  /-- such a park of the trap-mode lanes [15 R373; reset none] -/
  tPark : Option Park := none
  /-- device time at which the present wait or park began [64; 12 R296; reset 0] -/
  waitFrom : BitVec 64 := 0
  /-- lanes parked at `RLRUN` [07 R157; reset none] -/
  rl : List RlPark := []
  /-- the group has arrived at the team's next run [1; 07 R157; reset false] -/
  rlArrived : Bool := false
  /-- order of the arrival [count; 07 R164; reset 0] -/
  rlOrder : Nat := 0
  /-- lanes now inside a call of the run [32; 07 R158; reset 0] -/
  rlIn : Mask := 0
  /-- call lanes that have left the run [32; 07 R158; reset 0] -/
  rlGone : Mask := 0
  /-- return-stack depth of each call lane at its `RLRUN` [5 each; 07 R158; reset 0] -/
  rlDepth : Sp Nat := []
  /-- phase of the last arrival at each named barrier, plus one; 0 none [09 R223; reset 0] -/
  barAt : Sp Nat := []
  /-- open idempotent region with its restart record [12 R306; reset none] -/
  region : Option Region := none
  /-- open lookahead windows [03 R56; reset none] -/
  windows : List Window := []
  /-- interlocks [03 R56; reset none] -/
  locks : List Lock := []
  /-- lanes that have exited or been killed [32; 12 R300; reset 0] -/
  gone : Mask := 0
  /-- cycles of its class for which the eligible group was passed over [12 R289; reset 0] -/
  aging : Nat := 0
  /-- outstanding asynchronous operations [15 R385; reset 0] -/
  outstanding : Nat := 0
  /-- the group has ended and drains [1; 15 R385; reset false] -/
  draining : Bool := false
  /-- holds a lantern [1; 12 R293; reset false] -/
  lantern : Bool := false
  /-- order of the lantern request [12 R293; reset 0] -/
  lanternAsk : Nat := 0
  /-- scheduler cycles since its last matrix instruction [12 R293; reset 0] -/
  lanternIdle : Nat := 0
  /-- registers whose lines are evicted [12 R292; reset none] -/
  evicted : List Nat := []
  /-- cycle of the last read or write of each register line [12 R292; reset 0] -/
  lineUse : Sp Nat := []
  /-- cycle of the group's last issue [12 R292, R296; reset 0] -/
  lastIssue : Nat := 0
  /-- burst registers of a handler group [02 R34; reset none] -/
  burst : Option BurstRegs := none
  /-- a lane entered a trap handler or was killed [1; 10 R247; reset false] -/
  viaTrap : Bool := false
  /-- cause of the group's first delivered record [8; 10 R251; reset 0] -/
  firstCause : BitVec 8 := 0
  /-- 128 KiB pages that firmware could not supply to a `PSAVE` or `PLOAD` [15 R380; reset none] -/
  noPage : List Nat := []
  /-- position of the entry that is promoted for one issue [57 and 12; 12 R290; reset none] -/
  promote : Option (VAddr × Prio) := none
  /-- in replay, PC of an instruction that met an uncorrectable error of memory outside a load [57; 16 R403; reset
  none] -/
  errAt : Option VAddr := none
  /-- level the group's last `SRATE.lvl` returned [3; 13 R320; reset none] -/
  lastLvl : Option Nat := none
  deriving DecidableEq, Repr

/-! ### Team, cluster and launch state -/

/-- A named barrier (09 R222). -/
structure Bar where
  /-- expected count [6; 09 R222; reset: declared group count] -/
  expected : Nat := 0
  /-- the expected count is the team default [1; 09 R222; reset true] -/
  dflt : Bool := true
  /-- groups arrived in the phase, bit per `%GID` [32; 09 R222; reset 0] -/
  arrived : BitVec 32 := 0
  /-- phase count [09 R222; reset 0] -/
  phase : Nat := 0
  deriving DecidableEq, Repr

/-- The refinement run of a team: the controller's 1,024 bytes (07 R164). -/
structure RlRun where
  /-- command block address [32; 07 R152] -/
  addr : Nat
  /-- snapshot of the control fields, 192 bytes [07 R164] -/
  block : Sp Byte
  /-- current level [2; 07 R156] -/
  level : Nat
  /-- completed iterations [32; 07 R156] -/
  iter : Nat
  /-- stagnation run [8; 07 R156] -/
  stag : Nat
  /-- escalations [8; 07 R156] -/
  escs : Nat
  /-- previous norm [64; 07 R156] -/
  prev : Option DWord
  /-- current norm [64; 07 R156] -/
  norm : DWord
  /-- STEP code of the step under way [3; 07 R152] -/
  step : Nat
  /-- exact accumulator in units of 2^-2148 [4352; 07 R165] -/
  acc : Nat
  /-- NaN mark [1; 07 R165] -/
  accNan : Bool
  /-- infinity mark [1; 07 R165] -/
  accInf : Bool
  /-- reason of the accepted `RLABT` [32; 07 R170] -/
  abort : Option Word
  /-- fault mark [1; 07 R163] -/
  faulted : Bool
  deriving DecidableEq, Repr

/-- Where a team is in its life (15 R381, R382). -/
inductive TeamLife where
  | none | placed | resident | saved | discarded | ended
  deriving DecidableEq, Repr

/-- A signal or credit held for a saved team (15 R382). -/
structure Held where
  off : Nat
  count : Word
  /-- the operation of this device that it comes from -/
  op : Option Nat
  /-- an engine's credit, not a signal -/
  engine : Bool
  deriving DecidableEq, Repr

/-- A team (02 R18, R21). The default is an empty entry. -/
structure Team where
  /-- life [15 R381; reset none] -/
  life : TeamLife := .none
  /-- launch of the team [02 R18; reset 0] -/
  launch : Nat := 0
  /-- `%CLX` [4; 02 R21; reset 0] -/
  clx : Nat := 0
  /-- `%CLY` [4; 02 R21; reset 0] -/
  cly : Nat := 0
  /-- `%CLZ` [24; 02 R21; reset 0] -/
  clz : Nat := 0
  /-- `%TEAM` [32; 02 R21; reset 0] -/
  number : Nat := 0
  /-- core the team stands on [8; 02 R18, `%CORE`; reset 0] -/
  core : Nat := 0
  /-- groups by `%GID`: global group numbers [02 R18; reset none] -/
  groups : Sp Nat := []
  /-- declared groups G [6; 02 R18; reset 0] -/
  ngroups : Nat := 0
  /-- handler slots [5; 02 R18; reset 0] -/
  nhandlers : Nat := 0
  /-- scratchpad size S in bytes [20; 09 R209; reset 0] -/
  ssize : Nat := 0
  /-- scratchpad bytes [8 each; 09 R209; reset 0] -/
  scratch : Sp Byte := []
  /-- scratchpad sectors whose clear mark a write has cleared [1 each; 14 R353; reset none] -/
  scrFilled : Sp Bool := []
  /-- poisoned scratchpad sectors [1 each; 15 R389; reset clear] -/
  scrBad : Sp Bool := []
  /-- objects whose present phase has received an engine's credits, by offset [1 each; 08 R194; reset none] -/
  engNow : Sp Bool := []
  /-- completed phases that such credits satisfied, by 4·offset + PHASE [1 each; 08 R194; reset none] -/
  engDone : Sp Bool := []
  /-- presence: outstanding operations that write each sector [09 R210; reset 0, present] -/
  absent : Sp Nat := []
  /-- sectors that an outstanding `TST` has yet to read [09 R236; reset 0] -/
  tstBusy : Sp Nat := []
  /-- fault areas, by offset from FA [8 each; 15 R371; reset 0] -/
  faultArea : Sp Byte := []
  /-- fault areas whose clear mark a write has cleared, by slot [1 each; 14 R353; reset none] -/
  areaFilled : Sp Bool := []
  /-- named barriers in use [11; 09 R222; reset 0] -/
  nbars : Nat := 0
  /-- named barriers [09 R222; reset: default count, no arrival, phase 0] -/
  bars : Sp Bar := []
  /-- groups arrived at the cluster barrier [32; 09 R225; reset 0] -/
  cbar : BitVec 32 := 0
  /-- pattern tables in use [7; 05 R127; reset 0] -/
  npats : Nat := 0
  /-- pattern table bytes, key 256·table + byte [8 each; 05 R127; reset 0] -/
  pats : Sp Byte := []
  /-- pattern tables whose clear mark an `XPLD` has cleared [1 each; 14 R353; reset none] -/
  patFilled : Sp Bool := []
  /-- the team's refinement run [07 R164; reset none] -/
  run : Option RlRun := none
  /-- halted by the debugger [1; 16 R396; reset false] -/
  halted : Bool := false
  /-- attached with breakpoint halting on [1; 15 R377; reset DESIGN CHOICE false, log entry 1] -/
  bkptHalt : Bool := false
  /-- the declared groups have stopped issuing for a vacate [1; 15 R381; reset false] -/
  stopping : Bool := false
  /-- the team stands on slots lent by these copies of a stream [13 R317; reset none] -/
  lent : Option (Nat × List Nat) := none
  /-- AUX of a strip miss that its groups take when the debugger resumes it [16 R397; reset none] -/
  owesMiss : Option Word := none
  /-- temperature of the core that it left for its heat [12 R294; reset none] -/
  leftHot : Option Nat := none
  /-- device time of the last placement [64; 12 R294; reset 0] -/
  placedAt : BitVec 64 := 0
  /-- signals and credits held while saved [15 R382; reset none] -/
  held : List Held := []
  /-- event sequence number of the log [32; 16 R400; reset 0] -/
  logSeq : Nat := 0
  /-- offset of the log block being written, 0 none [64; 16 R401; reset 0] -/
  logBlock : Nat := 0
  /-- bytes used in that block [13; 16 R401; reset 0] -/
  logUsed : Nat := 0
  /-- in replay, the SEQ after the last entry consumed, by `%GID` [32; 16 R402; reset 0] -/
  logPos : Sp Nat := []
  /-- in replay, what remained of the log when the team ended has been judged [1; 16 R403; reset false] -/
  logDone : Bool := false
  /-- reads that the team has issued [16 R400; reset 0] -/
  breads : Nat := 0
  /-- teams arrived at `SREL`: groups by slot key [13 R327; reset 0] -/
  srel : Sp (BitVec 32) := []
  deriving DecidableEq, Repr

/-- A cluster of a launch (02 R20, 09 R225). -/
structure Cluster where
  /-- teams that have arrived at the cluster barrier [12; 09 R225; reset 0] -/
  arrived : BitVec 16 := 0
  /-- completed `CBAR` phases [16 R393; reset 0] -/
  phase : Nat := 0
  deriving DecidableEq, Repr

/-- The launch record (12 Table 12.4). -/
structure LaunchRec where
  entry : Nat := 0
  grid : Nat := 0
  groups : Nat := 0
  handlers : Nat := 0
  cx : Nat := 0
  cy : Nat := 0
  nv : Nat := 0
  ns : Nat := 0
  nb : Nat := 0
  scratch : Nat := 0
  bars : Nat := 0
  pats : Nat := 0
  mode : Word := 0
  rectab : Nat := 0
  reccnt : Nat := 0
  nbv : Nat := 0
  cls : Nat := 0
  classS : Bool := false
  param : Nat := 0
  savemax : Nat := 0
  port : Nat := 0
  start : Nat := 0
  compl : Nat := 0
  spill : Nat := 0
  spillsz : Nat := 0
  vigilUs : Nat := 0
  vigilMs : Nat := 0
  htab : Nat := 0
  traph : BitVec 64 := 0
  logMode : Nat := 0
  haltMm : Bool := false
  logbuf : Nat := 0
  rsvd : Bool := false
  deriving DecidableEq, Repr

/-- A handler entry of the entry table (12 Table 12.4a). -/
structure HandlerEnt where
  pc : VAddr
  prio : Prio
  nv : Nat
  deriving DecidableEq, Repr

/-- Where a launch is in its life (12 R278 to R284). -/
inductive LaunchLife where
  | none | queued | placing | running | finished
  deriving DecidableEq, Repr

/-- A launch (12 R279). The default is an empty entry. -/
structure Launch where
  /-- life [12 R279; reset none] -/
  life : LaunchLife := .none
  /-- the record [128 bytes; 12 R279; reset zero] -/
  r : LaunchRec := {}
  /-- handlers of the entry table [12 R280; reset none] -/
  handlers : Sp HandlerEnt := []
  /-- scalar start values of the parameter map [12 R280; reset none] -/
  sInit : Sp Word := []
  /-- record start values of the record map [12 R280; reset none] -/
  bInit : Sp Rec := []
  /-- starting priority [12; 12 R280; reset 2048] -/
  prio : Prio := 2048
  /-- packet of the launch [12 R273; reset none] -/
  packet : Option Nat := none
  /-- TAG [32; 12 R273; reset 0] -/
  tag : Word := 0
  /-- partition [4; 12 R272; reset 0] -/
  part : Nat := 0
  /-- owner [10; 14 R342; reset 0] -/
  owner : Nat := 0
  /-- ASID [16; 12 R272; reset 0] -/
  asid : Nat := 0
  /-- the queue is administrative [1; 14 R359; reset false] -/
  admin : Bool := false
  /-- completion record address [12 R279; reset 0] -/
  compl : Nat := 0
  /-- clusters placed so far [12 R278; reset 0] -/
  placed : Nat := 0
  /-- clusters that have ended [12 R279; reset 0] -/
  clustersDone : Nat := 0
  /-- gang of the launch [12 R285; reset none] -/
  gang : Option Nat := none
  /-- instance of the launch [13 R313; reset none] -/
  inst : Option Nat := none
  /-- FAULTS: records delivered [32; 12 Table 12.6; reset 0] -/
  faults : Nat := 0
  /-- IMPLB: implicit boundaries [32; 12 Table 12.6; reset 0] -/
  implb : Nat := 0
  /-- ERR [1; 12 Table 12.6; reset false] -/
  err : Bool := false
  /-- ASYNCF [1; 12 Table 12.6; reset false] -/
  asyncf : Bool := false
  /-- VIGIL [1; 12 Table 12.6; reset false] -/
  vigil : Bool := false
  /-- KILLED [1; 12 Table 12.6; reset false] -/
  killed : Bool := false
  /-- STATUS [7:0] [8; 12 Table 12.6; reset 0] -/
  cause : BitVec 8 := 0
  /-- outstanding asynchronous operations [12 R279; reset 0] -/
  outstanding : Nat := 0
  /-- device time of the last issue of any group [64; 12 R296; reset 0] -/
  lastIssue : BitVec 64 := 0
  /-- the start boundary has been taken on these cores [12 R279; reset none] -/
  started : Sp Bool := []
  deriving DecidableEq, Repr

/-! ### Core state -/

/-- A partial result in an update-only line (08 R188). -/
structure Upd where
  /-- physical address of the location [08 R188] -/
  addr : Nat
  /-- size in bytes, 4 or 8 [08 R188] -/
  size : Nat
  /-- MOD[7:5] operation code [3; 09 Table 9.5] -/
  op   : BitVec 3
  /-- operation type [09 R214] -/
  ty   : Ty
  /-- partial result [64; 08 R188] -/
  val  : BitVec 64
  /-- groups that updated it [08 R188] -/
  by_  : List Nat
  /-- owner tag of the line [10; 14 R353] -/
  owner : Nat
  deriving DecidableEq, Repr

/-- A leaf as a translation holds it (14 Table 14.2). -/
structure Leaf where
  /-- physical address of the first byte that the translation covers -/
  frame : Nat
  level : Nat
  /-- bits of address that it covers: a page of its level, or 22 for a 4 MiB group [14 R347] -/
  span : Nat
  r : Bool
  w : Bool
  x : Bool
  home : BitVec 2
  sk : Bool
  tier : BitVec 2
  aux : Nat
  mig : Bool
  /-- physical address of the entry, and whether D is known to be set [14 R346] -/
  entry : Nat
  dirty : Bool
  deriving DecidableEq, Repr

/-- An L1 line (08 R185). -/
structure L1Line where
  /-- the copy's bytes, key 0 to 127 [128 x 8; 08 R185] -/
  data : Sp Byte
  /-- poisoned copy [1; 15 R389] -/
  bad : Bool
  /-- SK page: kept at a boundary [1; 08 R176] -/
  sk : Bool
  /-- owner tag [10; 14 R353] -/
  owner : Nat
  deriving DecidableEq, Repr

/-- A core (01 R11). The default is an idle core. -/
structure Core where
  /-- L1 lines by physical line number [08 R185; reset none] -/
  l1 : Sp L1Line := []
  /-- pending overlay bytes by physical address [08 R181; reset none] -/
  overlay : Sp Byte := []
  /-- overlay lines that carry poison [15 R389; reset none] -/
  overBad : Sp Bool := []
  /-- owner tag of each overlay line [10; 14 R353; reset none] -/
  overOwner : Sp Nat := []
  /-- home of each overlay line: a slice, or 64 and above for the SRAM of a core [08 R175, R187; reset none] -/
  overHome : Sp Nat := []
  /-- overlay bytes at peer homes, by peer [08 R195; reset none] -/
  remote : Sp (Sp Byte) := []
  /-- update-only lines [08 R188; reset none] -/
  upd : List Upd := []
  /-- instruction cache: lines by physical line number [128 bytes each; 03 R62; reset none] -/
  icache : Sp (List Byte) := []
  /-- TLB of 2,048 entries, key by size, ASID and 128 KiB page [14 R349; reset none] -/
  tlb : Sp Leaf := []
  /-- pages that this core has dropped alone and translates anew: ASID, and first page and count or all
  [14 R357; reset none] -/
  anew : List (Nat × Option (Nat × Nat)) := []
  /-- faults for which the full queue had no room: group, ASID, page, in order of first fault [14 R350;
  reset none] -/
  faultLater : List (Nat × Nat × Nat) := []
  /-- fault queue entries (ASID, page), oldest first [256; 14 R350; reset none] -/
  faultQ : List (Nat × Nat) := []
  /-- team whose run holds the refinement controller [07 R164; reset none] -/
  rlHolder : Option Nat := none
  /-- conditioned random bits available [05 R132; reset 0] -/
  noise : Nat := 0
  /-- the noise source has failed [1; 05 R132; reset false] -/
  noiseFailed : Bool := false
  /-- ready bursts that wait for their birth, in the order in which they became ready: read and burst [10 R243;
  reset none] -/
  burstBuf : List (Nat × Nat) := []
  /-- buffer entries reserved for bursts that are being read [64 with those that wait; 10 R244; reset none] -/
  burstAsked : List (Nat × Nat) := []
  /-- team that received the last buffer entry [10 R244; reset 0] -/
  burstTurn : Nat := 0
  /-- implicit boundaries counted [08 R187; reset 0] -/
  implb : Nat := 0
  /-- temperature that firmware last read [12 R294; reset DESIGN CHOICE 0, log entry 70] -/
  temp : Nat := 0
  /-- the debugger or trace uses records in time order: last record time [16 R394; reset 0] -/
  lastTrace : BitVec 64 := 0
  deriving DecidableEq, Repr

/-- A scheduler, key 4·core + scheduler (12 R289). -/
structure Sched where
  /-- H0 to H16 [17 x 64; 16 R398; reset 0] -/
  hist : Sp Nat := []
  /-- stall counters by reason, EMPTY under 0 [16 x 64; 16 R398; reset 0] -/
  stalls : Sp Nat := []
  /-- runs in guard margin [1; 04 R92; reset false] -/
  guard : Bool := false
  /-- the last instruction met a timing error [1; 04 R92; reset false] -/
  replayed : Bool := false
  /-- timing replays counted [04 R92; reset 0] -/
  replays : Nat := 0
  /-- cycle in which a sample record fell due that is not yet written, 0 none [16 R395; reset 0] -/
  sampled : Nat := 0
  /-- group that issued last [16 R395; reset none] -/
  last : Option Nat := none
  /-- cycle of that issue [16 R395; reset 0] -/
  lastAt : Nat := 0
  /-- group that aging makes the scheduler take next [12 R289; reset none] -/
  due : Option Nat := none
  deriving DecidableEq, Repr

/-! ### Asynchronous operations -/

/-- One lane's copy of an `ACP` (09 R229): destination offset, bytes, poison. -/
structure AcpLane where
  dst : Nat
  bytes : List Byte
  bad : Bool
  deriving DecidableEq, Repr

/-- An axis of a tensor tile (09 Table 9.10a). -/
structure Axis where
  step : Int
  span : Nat
  take : Nat
  edge : Nat
  origin : Int
  deriving DecidableEq, Repr

/-- A tensor copy as its descriptor fixed it at issue (09 R232, R233). -/
structure Tile where
  /-- scratchpad offset T -/
  off : Nat
  rowPitch : Nat
  /-- element width in bits -/
  bits : Nat
  axes : List Axis
  /-- axis-1 coordinate of each gathered row, by lane -/
  rows : Option (Sp Int)
  /-- tensor record -/
  rec_ : Rec
  deriving DecidableEq, Repr

/-- A collective as its descriptor fixed it at issue (11 R264). -/
structure CollOp where
  kind : Nat
  rtype : Nat
  rop : Nat
  canon : Bool
  rank : Nat
  nranks : Nat
  root : Nat
  count : Nat
  src : Nat
  dst : Nat
  roster : List Nat
  start : Nat
  wait : Nat
  cid : Nat
  nbv : Nat
  /-- descriptor bytes as exchanged -/
  joined : Option (List CollRank)
  late : Bool
  mismatch : Bool
  absent : Bool
  lost : Bool
  moved : Bool
  deriving DecidableEq, Repr

/-- What an outstanding operation does (09 R229, R234; 11 R258, R261, R263; 12 R274). -/
inductive OpKind where
  | none
  | acp (tag : Nat) (copies : List AcpLane)
  | tcp (tile : Tile)
  | tst (tile : Tile)
  | rput (peer : Nat) (dst src n dstExt srcExt : Nat)
  | rget (peer : Nat) (dst src n dstExt srcExt : Nat)
  | rsig (peer port team off : Nat) (count : Word)
  | coll (c : CollOp)
  | copyPkt (queue index src dst n : Nat)
  /-- a peer's remote put: bytes at physical addresses here (08 R195; 11 R258) -/
  | inPut (bytes : List (Nat × Byte))
  deriving DecidableEq, Repr

/-- An outstanding asynchronous operation. The default is an unused entry. -/
structure AsyncOp where
  /-- what it does -/
  kind : OpKind := .none
  /-- issuing group -/
  group : Nat := 0
  /-- team of the issuing group -/
  team : Nat := 0
  /-- launch of the issuing group -/
  launch : Nat := 0
  /-- core it was issued on -/
  core : Nat := 0
  /-- `%GID` of the issuing group -/
  gid : Nat := 0
  /-- OP of the instruction -/
  op : BitVec 8 := 0
  /-- completion object offset -/
  obj : Option Nat := none
  /-- `.stat` -/
  stat : Bool := false
  /-- bytes to credit -/
  credit : Nat := 0
  /-- destination lines owned and not yet released (08 R191) -/
  lines : List Nat := []
  /-- destination scalar register -/
  dst : Opnd := .zero
  /-- device time of the issue -/
  at_ : BitVec 64 := 0
  /-- failed bytes so far, and their offsets (09 R235) -/
  bad : Nat := 0
  badBytes : List Nat := []
  /-- tile byte offset of the first failed byte -/
  badAt : Nat := 0xFFFFFFFF
  /-- cause of the first failure -/
  badCause : BitVec 8 := 0
  /-- 128 KiB pages that firmware could not supply (09 R235) -/
  noPage : List Nat := []
  /-- destination lines released before the operation ended (08 R191) -/
  freed : List Nat := []
  /-- PC of the instruction (16 R401) -/
  pc : VAddr := 0
  /-- scratchpad sectors that have landed (09 R230, R234) -/
  landed : List Nat := []
  /-- scratchpad ranges on which copies issued later have landed meanwhile (09 Table 9.11) -/
  written : List (Nat × Nat) := []
  /-- 128 KiB pages for which it waits in a fault queue (09 R235; 14 R365) -/
  waits : List Nat := []
  /-- 128 KiB pages whose translations gave the lines that it owns (14 R357) -/
  pages : List Nat := []
  deriving DecidableEq, Repr

/-- One burst of a read (10 R240, R241). -/
structure Burst where
  /-- its data, 256 bytes -/
  data : List Byte
  /-- poisoned lines: low, high -/
  badLo : Bool
  badHi : Bool
  /-- `%BSTAT` -/
  stat : Word
  deriving DecidableEq, Repr

/-- A bulk read (10 R239). The default is an unused entry. -/
structure BulkRead where
  /-- the read is outstanding -/
  live : Bool := false
  group : Nat := 0
  team : Nat := 0
  launch : Nat := 0
  core : Nat := 0
  gid : Nat := 0
  dst : Opnd := .zero
  /-- start X, Y, Z -/
  x0 : Nat := 0
  y0 : Nat := 0
  z0 : Nat := 0
  /-- extents and plane pitch -/
  nx : Nat := 0
  ny : Nat := 0
  nz : Nat := 0
  zp : Nat := 0
  rec_ : Rec := 0
  handler : Nat := 0
  args : List Word := []
  /-- state copied from the issuing group (02 R28) -/
  mode : Word := 0
  nbv : Word := 0
  recs : Sp Rec := []
  /-- bursts read and waiting, by index -/
  ready : Sp Burst := []
  /-- bursts requested so far, in the order of their index [10 R244] -/
  asked : Nat := 0
  /-- bursts born -/
  born : Nat := 0
  /-- handlers retired -/
  retired : Nat := 0
  /-- bursts of the read, N -/
  count : Nat := 0
  /-- handlers retired by `EXIT` without a trap handler -/
  deliv : Nat := 0
  /-- bursts with DATA 1 or 2 -/
  bad : Nat := 0
  oob : Bool := false
  trapd : Bool := false
  /-- lowest-indexed failed burst and its CAUSE -/
  failIdx : Nat := 0xFFFFFFFF
  failCause : BitVec 8 := 0
  poisoned : Bool := false
  /-- first cause delivered by a handler that trapped or was killed -/
  trapCause : BitVec 8 := 0
  /-- status word once written (15 R385) -/
  status : Option Word := none
  /-- its number among the team's reads, which the log names (16 R400) -/
  seq : Nat := 0
  /-- 128 KiB pages that firmware could not supply (10 R249) -/
  noPage : List Nat := []
  /-- 128 KiB pages for which it waits in the fault queue (10 R249; 14 R365) -/
  waits : List Nat := []
  deriving DecidableEq, Repr

/-- An I/O-window load in flight (08 R197). -/
structure IoRead where
  group : Nat
  /-- owner, and function whose requester ID it bears (14 R362) -/
  owner : Nat
  fn : Nat
  regs : List (Nat × Nat)
  uniform : Bool
  /-- lanes that load -/
  mask : Mask
  size : Nat
  code : BitVec 3
  addr : Nat
  /-- PC of the load (16 R401) -/
  pc : VAddr
  deriving DecidableEq, Repr

/-- An I/O-window store that left the endpoint (08 R197). -/
structure IoWrite where
  owner : Nat
  /-- function whose requester ID it bears (14 R362) -/
  fn : Nat
  addr : Nat
  bytes : List Byte
  deriving DecidableEq, Repr

/-- An asynchronous failure waiting to be reported (15 R386). -/
structure AsyncFail where
  group : Nat
  team : Nat
  launch : Nat
  gid : Nat
  op : BitVec 8
  cause : BitVec 8
  deriving DecidableEq, Repr

/-! ### Front end, Almanac, firmware -/

/-- A packet read from a queue (12 R273). -/
structure Packet where
  /-- device number of its queue; 4,096 and above for none -/
  queue : Nat
  /-- ring index, or the index of the INDIRECT packet it came from -/
  index : Nat
  bytes : List Byte
  rank : Nat := 0
  arrival : Nat := 0
  /-- INDIRECT packet this one belongs to -/
  parent : Option Nat := none
  deriving DecidableEq, Repr

/-- A WAITMEM that holds its queue (12 R274). -/
structure WaitMem where
  packet : Nat
  addr : Nat
  value : BitVec 64
  mask : BitVec 64
  cond : Nat
  /-- device time at which it times out, 0 none -/
  till : BitVec 64
  deriving DecidableEq, Repr

/-- A command queue (12 R272). The default is an unconfigured queue. -/
structure Queue where
  /-- configured [1; 12 R272; reset false] -/
  on : Bool := false
  /-- function and the queue's number in it [14 R361; reset 0] -/
  fn : Nat := 0
  num : Nat := 0
  /-- owner that configured it [10; 14 R361; reset 0] -/
  owner : Nat := 0
  /-- the descriptor [12 Table 12.1; reset zero] -/
  d : QueueDesc := ⟨0, 0, 0, 0, 0, 0, 0, 0, true⟩
  /-- read index [32; 12 R272; reset 0] -/
  rd : Word := 0
  /-- write index [32; 12 R272; reset 0] -/
  wr : Word := 0
  /-- error reason, 0 none [8; 12 R275; reset 0] -/
  err : Nat := 0
  /-- marked administrative [1; 14 R361; reset false] -/
  admin : Bool := false
  /-- stopped by a rebind [1; 12 R295; reset false] -/
  stopped : Bool := false
  /-- packets passed to the rank queue [12 R277; reset 0] -/
  arrivals : Nat := 0
  /-- WAITMEM in progress [12 R274; reset none] -/
  wait : Option WaitMem := none
  /-- INDIRECT buffer being read: packet, next address, packets left [12 R276; reset none] -/
  ind : Option (Nat × Nat × Nat) := none
  /-- the checked rank program [12 R277; reset none] -/
  prog : List Instr := []
  deriving DecidableEq, Repr

/-- A gang (12 R285). -/
structure Gang where
  live : Bool := false
  packet : Nat := 0
  /-- launch of each part -/
  parts : List Nat := []
  deadlineUs : Nat := 0
  start : Nat := 0
  /-- device time at which it reached the head of its partitions -/
  headAt : Option (BitVec 64) := none
  /-- its placement deadline has passed: nothing else is placed on its partitions [12 R287] -/
  forced : Bool := false
  /-- start time Tg once committed -/
  tg : Option (BitVec 64) := none
  deriving DecidableEq, Repr

/-- A partition (14 R342). -/
structure Partition where
  /-- bound to an owner [1; 14 R342; reset false] -/
  on : Bool := false
  owner : Nat := 0
  /-- rectangle [14 R342] -/
  x : Nat := 0
  y : Nat := 0
  w : Nat := 0
  h : Nat := 0
  /-- default Vigil limits, µs and ms; 0 none [12 R296] -/
  vigilUs : Nat := 0
  vigilMs : Nat := 0
  /-- timed bandwidth cap in GB/s; none means no cap [13 R316] -/
  bwCap : Option Nat := none
  /-- share of the strip store in bytes [13 R316] -/
  stripShare : Nat := 0
  /-- reserved lanterns [12 R293] -/
  lanterns : Nat := 0
  /-- rebind under way: what is loaded when the partition changes hands [12 R295] -/
  rebind : Option PartLoad := none
  /-- trace ring: base, size, records written, records lost since the last [16 R394] -/
  traceBase : Nat := 0
  traceSize : Nat := 0
  traceCount : Nat := 0
  traceLost : Nat := 0
  traceAsid : Nat := 0
  /-- sampling period P, 0 off [16 R395] -/
  samplePeriod : Nat := 0
  /-- cycle at which the eligibility histogram was cleared [16 R398] -/
  histFrom : Nat := 0
  /-- a debugger is attached [16 R403] -/
  debugger : Bool := false
  /-- granted I/O ranges (base, size) [64; 14 R362] -/
  ioRanges : List (Nat × Nat) := []
  deriving DecidableEq, Repr

/-- Slot states of a strip ring (13 Table 13.6). -/
inductive SlotLife where
  | free | acquired | written | consuming | released | missed
  deriving DecidableEq, Repr

/-- A slot of a strip ring (13 R325). -/
structure Slot where
  life : SlotLife := .free
  /-- global strip held -/
  g : Nat := 0
  /-- instance and launch that acquired it -/
  inst : Nat := 0
  launch : Nat := 0
  /-- launch that is consuming it -/
  consumer : Nat := 0
  /-- it has held a strip -/
  used : Bool := false
  deriving DecidableEq, Repr

/-- The stream descriptor (13 Table 13.2). -/
structure StreamDesc where
  sink : Nat := 0
  index : Nat := 0
  dbg : Bool := false
  linit : Nat := 0
  h : Nat := 0
  ns : Nat := 0
  no : Nat := 0
  halo : Nat := 0
  margin : Nat := 0
  outw : Nat := 0
  outh : Nat := 0
  rndw : Nat := 0
  rndh : Nat := 0
  t0 : Nat := 0
  pline : Nat := 0
  pframe : Nat := 0
  sfmt : Nat := 0
  ofmt : Nat := 0
  fill : Word := 0
  breq : Nat := 0
  guard : Nat := 0
  vc : Nat := 0
  dw : Nat := 0
  bw : Nat := 0
  tmpl : Nat := 0
  pslot : Nat := 0
  deriving DecidableEq, Repr

/-- One launch of a procession template (13 Table 13.3), with its record as admission read it. -/
structure TmplLaunch where
  lrec : Nat
  r : LaunchRec
  wcet : List Nat
  tiles : Nat
  lant : Nat
  deriving DecidableEq, Repr

/-- A sink's use of a strip: what a display head scanned or an encoder coded (13 R330, R332). -/
structure SinkOut where
  g : Nat
  /-- concealed by FILL, by the earlier strip, or taken whole -/
  concealed : Bool
  fill : Bool
  bytes : List Byte
  deriving DecidableEq, Repr

/-- Where a copy of a template puts one cluster of one launch (13 R316): the core of its corner. -/
structure Spot where
  launch : Nat
  clz : Nat
  core : Nat
  deriving DecidableEq, Repr

/-- A stream context (13 R310). The default is an unused id. -/
structure Stream where
  /-- exists [1; 13 R310; reset false] -/
  on : Bool := false
  /-- being destroyed [1; 13 R310; reset false] -/
  closing : Bool := false
  d : StreamDesc := {}
  tmpl : List TmplLaunch := []
  part : Nat := 0
  owner : Nat := 0
  asid : Nat := 0
  /-- admitted budget B in ns [32; 13 R316] -/
  budget : Nat := 0
  /-- the later of its admission and the first lock [64; 13 R315] -/
  admitted : BitVec 64 := 0
  /-- where each of the Q copies is placed [13 R316] -/
  reserved : List (List Spot) := []
  /-- TAG of the packet that created it [32; 12 R273] -/
  tag : Word := 0
  /-- next strip to release [13 R315] -/
  nextG : Nat := 0
  /-- instances made since creation [13 Table 13.8] -/
  count : Nat := 0
  /-- level at which the latest ended instance of highest g ended, and its slack test [13 R320] -/
  endG : Option Nat := none
  endLevel : Nat := 0
  endEarly : Bool := false
  /-- source and output slots [13 R325] -/
  src : Sp Slot := []
  out : Sp Slot := []
  /-- strip store: source ring, output ring and halo bytes [13 R322] -/
  srcData : Sp Byte := []
  outData : Sp Byte := []
  haloData : Sp Byte := []
  /-- 4 KiB units of the rings and the halo whose clear mark a write has cleared [14 R353; reset none] -/
  srcFilled : Sp Bool := []
  outFilled : Sp Bool := []
  haloFilled : Sp Bool := []
  /-- poisoned 32-byte sectors of the rings [15 R389] -/
  srcBad : Sp Bool := []
  outBad : Sp Bool := []
  haloBad : Sp Bool := []
  /-- strip the halo is tagged with [13 R328] -/
  haloTag : Option Nat := none
  /-- strips marked missed before their slot was acquired [13 R332] -/
  missed : List Nat := []
  /-- next strip the sink takes [13 R330] -/
  sinkNext : Nat := 0
  /-- strips the encoder has taken and not yet coded, with the device time from which their coding counts: a stall
  moves it [13 R330, R331] -/
  coding : List (Nat × BitVec 64) := []
  /-- the strip being scanned -/
  scanning : Option Nat := none
  /-- encoder stalled since [13 R331] -/
  stalled : Option (BitVec 64) := none
  /-- total stall in ns [13 R309] -/
  stallNs : Nat := 0
  /-- what the sink emitted [13 R330, R332] -/
  sinkOut : List SinkOut := []
  /-- DBG, LINIT and FILL that the next release takes over [13 R310] -/
  alter : Option (Bool × Nat × Word) := none
  /-- packet of a pending destroy, and where its result goes -/
  destroyPkt : Option (Nat × Nat × Nat) := none
  /-- misses logged: strip and device time [13 R333] -/
  missLog : List (Nat × BitVec 64) := []
  deriving DecidableEq, Repr

/-- A procession instance (13 R313). The default is an unused entry. -/
structure Inst where
  live : Bool := false
  stream : Nat := 0
  g : Nat := 0
  /-- count since creation, for serving -/
  seq : Nat := 0
  /-- the reserved copy that it uses [13 R316] -/
  copy : Nat := 0
  /-- S in ns -/
  s : Nat := 0
  /-- F in ns: of a serving stream, and of a strip that an encoder session has taken [13 R312, R315] -/
  f : Nat := 0
  /-- level [13 R320] -/
  level : Nat := 0
  /-- running launch number, from 0 -/
  cur : Nat := 0
  /-- launch entry that runs -/
  launch : Nat := 0
  /-- started tiles of the running launch that are not finished: their levels, oldest first -/
  open_ : List Nat := []
  started : Nat := 0
  done : Nat := 0
  /-- tiles done since the last evaluation, and its time [13 R321] -/
  sinceEval : Nat := 0
  evalAt : BitVec 64 := 0
  missedAt : Bool := false
  /-- F has arrived and the strip has been judged [13 R332] -/
  judged : Bool := false
  /-- it has released its source slot [13 R336] -/
  srcDone : Bool := false
  /-- packet and PARAM override of a TIMED packet -/
  packet : Option Nat := none
  param : Nat := 0
  compl : Nat := 0
  /-- what its completion record will show [12 Table 12.6] -/
  faults : Nat := 0
  implb : Nat := 0
  err : Bool := false
  asyncf : Bool := false
  vigil : Bool := false
  killed : Bool := false
  cause : BitVec 8 := 0
  deriving DecidableEq, Repr

/-- An inbound request that waits at its home (08 R196; 11 R255, R262). -/
inductive Request where
  | bar2Read (fn off size : Nat)
  | bar2Write (fn off : Nat) (data : List Byte)
  | peerLoad (peer owner va size : Nat)
  | peerStore (peer core owner va : Nat) (write : PeerWrite)
  | peerCommit (peer core : Nat)
  | peerAtom (peer core owner va size : Nat) (op : BitVec 3) (ty : Ty) (arg swap : BitVec 64)
  | signal (port team off : Nat) (count : Word)
  deriving DecidableEq, Repr

/-- Firmware life (14 R364). -/
inductive FwLife where
  | reset | recovery | running
  deriving DecidableEq, Repr

/-- A launch error-log record (15 R374): owner and record. -/
structure LogRec where
  owner : Nat
  frec : FaultRec
  deriving DecidableEq, Repr

/-- An owner's memory key (14 R352). -/
structure OwnerKey where
  gen : Nat
  bits : BitVec 512
  deriving DecidableEq, Repr

/-- Firmware's own state (14 R342 to R367). -/
structure Firmware where
  /-- life [14 R364; reset: boot ROM] -/
  life : FwLife := .reset
  /-- measurement M [384; 14 R364; reset 0] -/
  meas : BitVec 384 := 0
  /-- version of the running image [64; 14 R366; reset 0] -/
  version : BitVec 64 := 0
  /-- staged image: version and Hs [14 R365; reset none] -/
  staged : Option (BitVec 64 × BitVec 384) := none
  /-- security version fuse counter [14 R364; reset DESIGN CHOICE 0, log entry 1] -/
  fuse : Nat := 0
  /-- device serial number fuses [64; 14 R366; reset DESIGN CHOICE 0, log entry 1] -/
  serial : BitVec 64 := 0
  /-- reports signed by this boot's LMS key: the number of its next leaf [14 R366; reset 0] -/
  reports : Nat := 0
  /-- identity keys in fuses [14 R364, R366; reset DESIGN CHOICE 0, log entry 1] -/
  identity : BitVec 256 := 0
  /-- attestation keys of the current boot [14 R366; reset 0] -/
  attKey : BitVec 256 := 0
  /-- their certificate by the identity keys [14 R366; reset none] -/
  cert : List Byte := []
  /-- the arithmetic clock of background cores is lowered [1; 14 R367; reset false] -/
  slow : Bool := false
  /-- shortfalls of the power limit reported through the mailbox [14 R367; reset 0] -/
  shortfalls : Nat := 0
  /-- thermal migration: the threshold, none while it is off [12 R294; reset none] -/
  hotLimit : Option Nat := none
  /-- noise sources reported as failed, by core [05 R132; reset none] -/
  noiseLost : List Nat := []
  /-- device id in the domain [11; 11 R254; reset DESIGN CHOICE 0, log entry 1] -/
  deviceId : Nat := 0
  /-- domain map: owner, device, ASID [11 R254; reset none] -/
  domain : List (Nat × Nat × Nat) := []
  /-- unreachable peers [11 R260; reset none] -/
  lost : List Nat := []
  /-- owner of each function [14 R360; reset none] -/
  fnOwner : Sp Nat := []
  /-- ASID of each function's BAR 2 window [14 R361; reset none] -/
  bar2 : Sp Nat := []
  /-- owners created [14 R361; reset none] -/
  owners : List Nat := []
  /-- root table address and owner of each ASID [14 R344; reset none] -/
  asids : Sp (Nat × Nat) := []
  /-- frame table: owner of each 128 KiB frame [14 R343; reset 0] -/
  frames : Sp Nat := []
  /-- tier in which each frame lies; HBM where none is listed [14 R351; reset 0] -/
  tierOf : Sp Nat := []
  /-- owner keys: generation and AES-256-XTS key by owner, which is its slot [1,024 x 512; 14 R352; reset none] -/
  keys : Sp OwnerKey := []
  /-- number of the last key generation [model's own; log entry 59; reset 0] -/
  keyGen : Nat := 0
  /-- lantern pool: enabled, size [12 R293; reset disabled] -/
  lanternsOn : Bool := false
  pool : Nat := 0
  /-- error log [15 R374; reset none] -/
  errLog : List LogRec := []
  /-- MSI-X vectors raised, by function, oldest first [12 R275; 14 R360; reset none] -/
  msix : List (Nat × Nat) := []
  /-- corrected ECC counters by unit [15 R388; reset 0] -/
  ecc : Sp Nat := []
  /-- link flit retries by port [11 R256; reset 0] -/
  flits : Sp Nat := []
  /-- link coding tables reset to their initial state, per port [11 R256; reset true] -/
  coding : Sp Bool := []
  /-- bytes of payload carried since the coding table last changed, by port [12; 11 R256; reset 0] -/
  codingFill : Sp Nat := []
  /-- updates of the coding table since its initial state, by port [11 R256; reset 0] -/
  codingStep : Sp Nat := []
  /-- bandwidth counters: payload bytes carried, by port [11 R256; reset 0] -/
  linkBytes : Sp Nat := []
  /-- link keys by port [256; 14 R354; reset none] -/
  linkKeys : Sp (BitVec 256) := []
  /-- doorbell writes and inbound requests that were dropped and logged [14 R361; reset 0] -/
  drops : Nat := 0
  /-- host mailbox command areas, by function [64 x 256 bytes; 14 R361; reset zero] -/
  commands : Sp (List Byte) := []
  /-- host mailbox response areas, by function [64 x 256 bytes; 14 R361; reset zero] -/
  mailbox : Sp (List Byte) := []
  /-- data that a driver service returns beyond its response area, by function [16 R396, R398; log entry 60;
  reset empty] -/
  served : Sp (List Byte) := []
  /-- pages that firmware could not supply to the device's own reads: ASID and page [14 R350; reset none] -/
  denied : List (Nat × Nat) := []
  /-- pages under a queued tier move: ASID, page, count, tier [14 R359; reset none] -/
  moves : List (Nat × Nat × Nat × Nat) := []
  /-- entries pinned to each core by PIN [4 per core; 14 R359; reset none] -/
  pins : Sp (List Nat) := []
  /-- data returned by the last inbound read [08 R196; reset none] -/
  bar2Data : List Byte := []
  /-- the read completed with the poisoned attribute [1; 15 R389; reset false] -/
  bar2Poison : Bool := false
  /-- the last inbound access was refused: Completer Abort, or a fault at the peer [1; 14 R361; reset false] -/
  bar2Abort : Bool := false
  /-- configuration requests answered with Request Retry Status [14 R364; reset 0] -/
  retries : Nat := 0
  deriving DecidableEq, Repr

/-- A page as a peer's translation answers for it (11 R255). -/
structure PeerPage where
  cause : BitVec 8
  r : Bool
  w : Bool
  deriving DecidableEq, Repr

/-- The whole device. -/
structure State where
  /-- device time in ns [64; 13 R308; reset 0] -/
  time : BitVec 64 := 0
  /-- fraction of device time [32; 13 R308; reset 0] -/
  frac : BitVec 32 := 0
  /-- rate word: ns and fraction added each cycle [96; 13 R308; reset DESIGN CHOICE 1 ns, log entry 1] -/
  rate : BitVec 96 := 0x100000000#96
  /-- the servo has reported lock [1; 13 R308; reset false] -/
  locked : Bool := false
  /-- consecutive good 1PPS edges [4; 13 R308; reset 0] -/
  ppsGood : Nat := 0
  /-- offset at the last 1PPS edge in ns [13 R308; reset 0] -/
  offset : Int := 0
  /-- largest offset of the last holdover and of the slew after it [13 R308; reset 0] -/
  offsetMax : Nat := 0
  /-- the offset of a holdover is being removed by slewing [1; 13 R308; reset false] -/
  slewing : Bool := false
  /-- holdover [1; 13 R308; reset false] -/
  holdover : Bool := false
  /-- offset that the last PTM cross-timestamp showed [64; 13 R308; reset 0] -/
  ptm : BitVec 64 := 0
  /-- device time at which the offset returned within 250 ns after a holdover [64; 13 R308; reset 0] -/
  offsetBack : BitVec 64 := 0
  /-- arithmetic-clock cycles since reset [13 R308; reset 0] -/
  cycle : Nat := 0
  /-- group whose instruction is in issue [12 R289; reset 0] -/
  cur : Nat := 0
  /-- groups by global number [02 R18; reset none] -/
  groups : Sp Group := []
  /-- teams [02 R18; reset none] -/
  teams : Sp Team := []
  /-- clusters, key 2^24·launch + `%CLZ` [02 R20; reset none] -/
  clusters : Sp Cluster := []
  /-- launches [12 R279; reset none] -/
  launches : Sp Launch := []
  /-- cores by core number [01 R11; reset idle] -/
  cores : Sp Core := []
  /-- schedulers, key 4·core + scheduler [12 R289; reset idle] -/
  scheds : Sp Sched := []
  /-- physical memory, committed at home [08 R171; reset DESIGN CHOICE every byte 0, log entry 2] -/
  mem : List Host.Cell := []
  /-- poisoned memory lines [1 each; 15 R389; reset none] -/
  memBad : Sp Bool := []
  /-- engine ownership: operation that owns each line [08 R191; reset none] -/
  owned : Sp Nat := []
  /-- inbound accesses held by ownership or absence, oldest first [08 R196; reset none] -/
  heldIn : List Request := []
  /-- model's own: the request in hand is one that was held [1; log entry 5; reset DESIGN CHOICE false] -/
  retrying : Bool := false
  /-- shared TLBs of 8,192 entries by home slice, keyed as a core's [14 R349; reset none] -/
  stlb : Sp (Sp Leaf) := []
  /-- accesses counted at the home slices, by 128 KiB frame [14 R351; reset 0] -/
  accessed : Sp Nat := []
  /-- generation of the memory key under which each frame's bytes stand; 0 none yet [14 R352; reset 0] -/
  memKey : Sp Nat := []
  /-- frames whose bytes decrypt to unrelated ones: the draw of their free bytes, plus one; `mem` holds what
  stands there combined with them [14 R352, log entry 59; reset none] -/
  garble : Sp Nat := []
  /-- time since reset in units of 2^-32 ns [14 R364; reset 0] -/
  up : Nat := 0
  /-- overlays held for peers, key 4096·peer + core [08 R195; reset none] -/
  peerOver : Sp (Sp Byte) := []
  /-- memory of peer devices by peer: committed bytes at their homes [08 R195; reset DESIGN CHOICE 0, log entry 2] -/
  peerMem : Sp (List Host.Cell) := []
  /-- poisoned lines of peer memory that this device's copies wrote, by peer [1 each; 11 R260; reset none] -/
  peerBad : Sp (Sp Bool) := []
  /-- what peers answer to a translation, by peer and page of an ASID: the cause it faults with (0 none), and
  what the page permits [11 R255; reset DESIGN CHOICE none, which permits everything, log entry 33] -/
  peerPages : Sp (Sp PeerPage) := []
  /-- outstanding asynchronous operations [15 R385; reset none] -/
  ops : Sp AsyncOp := []
  /-- coding latency of each encoder session in ns [13 R330; reset DESIGN CHOICE 0, log entry 71] -/
  codeNs : Sp Nat := []
  /-- bulk reads [10 R239; reset none] -/
  reads : Sp BulkRead := []
  /-- I/O-window loads in flight [08 R197; reset none] -/
  ioReads : Sp IoRead := []
  /-- I/O-window stores that left the endpoint, oldest first [08 R197; reset none] -/
  ioOut : List IoWrite := []
  /-- asynchronous failures to report [15 R386; reset none] -/
  fails : List AsyncFail := []
  /-- command queues by device queue number [4,096; 12 R272; reset unconfigured] -/
  queues : Sp Queue := []
  /-- packets read and not complete [12 R273; reset none] -/
  packets : Sp Packet := []
  /-- rank queue: packet numbers in rank order [4,096; 12 R278; reset empty] -/
  rankQ : List Nat := []
  /-- gangs [12 R285; reset none] -/
  gangs : Sp Gang := []
  /-- partitions [16; 14 R342; reset unbound] -/
  parts : Sp Partition := []
  /-- stream contexts [64; 13 R310; reset none] -/
  streams : Sp Stream := []
  /-- procession instances [13 R313; reset none] -/
  insts : Sp Inst := []
  /-- firmware state [14 R342 to R367; reset: boot ROM] -/
  fw : Firmware := {}
  /-- next number for groups, teams, launches, operations, reads, packets [model's own; reset 1] -/
  serial : Nat := 1
  /-- model's own: counter of free values drawn [log entry 3; reset DESIGN CHOICE 0] -/
  free : Nat := 0
  /-- model's own: order choices the spec leaves open, consumed from the front [log entry 4; reset DESIGN CHOICE none] -/
  choices : List Nat := []
  /-- model's own: why a read of the device itself waits: a page of an ASID, or a line that an engine owns [log
  entry 42; reset DESIGN CHOICE none] -/
  devWait : Option (Option (Nat × Nat)) := none
  /-- model's own: events that happen next, in this order [log entry 5; reset DESIGN CHOICE none] -/
  agenda : List Instr := []
  /-- model's own: issues since the last completion event was taken [log entry 5; reset DESIGN CHOICE 0] -/
  patience : Nat := 0
  /-- model's own: completion events taken, by which their kinds take turns [log entry 5; reset DESIGN CHOICE 0] -/
  taken : Nat := 0
  deriving DecidableEq, Repr

/-- The machine right after reset: every field at the value its docstring names. -/
def State.reset : State := {}

end Sys2Proof.Machine
end

