-- ==== Sys2Proof/Machine/Access.lean ====
section
/-! DEFINITION. Access to the pieces of the state, the committed image of memory at its homes (08 R171,
R179), the walk of page tables (14 R344 to R346), what the device itself reads and writes for an owner
(14 R343), and trace records (16 R393, R394). -/

namespace Sys2Proof.Machine

open Sys2Proof

/-! ### Records of the state -/

def State.grp (s : State) (n : Nat) : Group := Sp.get {} s.groups n
def State.setGrp (s : State) (n : Nat) (g : Group) : State := { s with groups := Sp.put s.groups n g }
def State.modGrp (s : State) (n : Nat) (f : Group → Group) : State := s.setGrp n (f (s.grp n))

/-- The group whose instruction is in issue. -/
def State.me (s : State) : Group := s.grp s.cur
def State.modMe (s : State) (f : Group → Group) : State := s.modGrp s.cur f

def State.team (s : State) (n : Nat) : Team := Sp.get {} s.teams n
def State.setTeam (s : State) (n : Nat) (t : Team) : State := { s with teams := Sp.put s.teams n t }
def State.modTeam (s : State) (n : Nat) (f : Team → Team) : State := s.setTeam n (f (s.team n))

def State.launch (s : State) (n : Nat) : Launch := Sp.get {} s.launches n
def State.setLaunch (s : State) (n : Nat) (l : Launch) : State :=
  { s with launches := Sp.put s.launches n l }
def State.modLaunch (s : State) (n : Nat) (f : Launch → Launch) : State := s.setLaunch n (f (s.launch n))

def State.core (s : State) (n : Nat) : Core := Sp.get {} s.cores n
def State.setCore (s : State) (n : Nat) (c : Core) : State := { s with cores := Sp.put s.cores n c }
def State.modCore (s : State) (n : Nat) (f : Core → Core) : State := s.setCore n (f (s.core n))

def State.sched (s : State) (n : Nat) : Sched := Sp.get {} s.scheds n
def State.modSched (s : State) (n : Nat) (f : Sched → Sched) : State :=
  { s with scheds := Sp.put s.scheds n (f (s.sched n)) }

def State.opOf (s : State) (n : Nat) : AsyncOp := Sp.get {} s.ops n
def State.modOp (s : State) (n : Nat) (f : AsyncOp → AsyncOp) : State :=
  { s with ops := Sp.put s.ops n (f (s.opOf n)) }

def State.readOf (s : State) (n : Nat) : BulkRead := Sp.get {} s.reads n
def State.modRead (s : State) (n : Nat) (f : BulkRead → BulkRead) : State :=
  { s with reads := Sp.put s.reads n (f (s.readOf n)) }

def State.stream (s : State) (n : Nat) : Stream := Sp.get {} s.streams n
def State.modStream (s : State) (n : Nat) (f : Stream → Stream) : State :=
  { s with streams := Sp.put s.streams n (f (s.stream n)) }

def State.instance_ (s : State) (n : Nat) : Inst := Sp.get {} s.insts n
def State.modInst (s : State) (n : Nat) (f : Inst → Inst) : State :=
  { s with insts := Sp.put s.insts n (f (s.instance_ n)) }

def State.queue (s : State) (n : Nat) : Queue := Sp.get {} s.queues n
def State.modQueue (s : State) (n : Nat) (f : Queue → Queue) : State :=
  { s with queues := Sp.put s.queues n (f (s.queue n)) }

def State.part (s : State) (n : Nat) : Partition := Sp.get {} s.parts n
def State.modPart (s : State) (n : Nat) (f : Partition → Partition) : State :=
  { s with parts := Sp.put s.parts n (f (s.part n)) }

def State.modFw (s : State) (f : Firmware → Firmware) : State := { s with fw := f s.fw }

/-- The team, launch and core of a group. -/
def State.teamOf (s : State) (n : Nat) : Team := s.team (s.grp n).team
def State.launchOf (s : State) (n : Nat) : Launch := s.launch (s.teamOf n).launch
def State.coreOf (s : State) (n : Nat) : Nat := (s.teamOf n).core

/-- A team stands on its core and has not ended. -/
def Team.standing (t : Team) : Bool := t.life == .placed || t.life == .resident

/-- Physical line number of an address (08 R171). -/
def lineOf (pa : Nat) : Nat := pa / 128

/-- An order choice that the spec leaves open: the next listed choice below `n`, 0 when none is
listed. -/
def State.choose (s : State) (n : Nat) : Nat × State :=
  match s.choices with
  | [] => (0, s)
  | c :: r => (if n = 0 then 0 else c % n, { s with choices := r })

/-- An inbound request waits: a new one behind those that wait already, one that waited keeps its turn (08
R196). -/
def State.holdIn (s : State) (i : Request) : State :=
  { s with heldIn := if s.retrying then i :: s.heldIn else s.heldIn ++ [i] }

/-! ### The home image -/

/-- What the bytes of a frame are combined with in `mem`: zero, or the unrelated bytes to which a frame that
has changed its key decrypts (14 R352). -/
def State.garbleAt (s : State) (pa : Nat) : Byte :=
  match Sp.get 0 s.garble (pa / 2 ^ 17) with
  | 0 => 0#8
  | n + 1 => Config.garbled n (pa % 2 ^ 17)

def State.homeByte (s : State) (pa : Nat) : Byte := Sp.get 0#8 s.mem pa ^^^ s.garbleAt pa
def State.homeBytes (s : State) (pa n : Nat) : List Byte := (List.range n).map fun i => s.homeByte (pa + i)

/-- Put bytes at home. -/
def State.putBytes (s : State) (pa : Nat) : List Byte → State
  | [] => s
  | b :: r => State.putBytes { s with mem := Sp.set 0#8 s.mem pa (b ^^^ s.garbleAt pa) } (pa + 1) r

/-- A home slice counts an access to a line (14 R351). -/
def State.countHome (s : State) (line : Nat) : State :=
  { s with accessed := Sp.put s.accessed (line / 1024) (Sp.get 0 s.accessed (line / 1024) + 1) }

def State.linePoison (s : State) (line : Nat) : Bool := Sp.get false s.memBad line

/-- A committed write at home. Good data over a whole poisoned line clears it (15 R389). -/
def State.commitBytes (s : State) (pa : Nat) (bs : List Byte) : State :=
  { s.putBytes pa bs with
    memBad := if pa % 128 = 0 ∧ bs.length = 128 then Sp.set false s.memBad (lineOf pa) false
      else s.memBad }

def State.poisonLine (s : State) (line : Nat) : State :=
  { s with memBad := Sp.set false s.memBad line true }

/-! ### Frames and memory keys (14 R342, R343, R352) -/

/-- The owner of the frame of an address: 0 for a free frame or one of firmware. -/
def State.ownerOf (s : State) (pa : Nat) : Nat := Sp.get 0 s.fw.frames (pa / 2 ^ 17)

/-- Generation of an owner's key. -/
def State.keyOf (s : State) (owner : Nat) : Nat :=
  match Sp.get? s.fw.keys owner with
  | some k => k.gen
  | none => 0

/-- The bytes of a frame stand under its owner's present key: a frame under another key decrypts to
unrelated bytes from now on. -/
def State.rekey (s : State) (frame : Nat) : State :=
  let k := s.keyOf (Sp.get 0 s.fw.frames frame)
  if Sp.get 0 s.memKey frame = 0 ∨ Sp.get 0 s.memKey frame = k then { s with memKey := Sp.set 0 s.memKey frame k }
  else { s with
    memKey := Sp.set 0 s.memKey frame k
    mem := Sp.cut s.mem (frame * 2 ^ 17) (2 ^ 17)
    garble := Sp.put s.garble frame (s.free + 1)
    free := s.free + 1 }

/-- A frame moves to an owner, or becomes free with what stands in it. -/
def State.giveFrame (s : State) (frame owner : Nat) : State :=
  let old := Sp.get 0 s.fw.frames frame
  let s : State := if old = 0 then s else { s with memKey := Sp.set 0 s.memKey frame (s.keyOf old) }
  let s := s.modFw fun f => { f with frames := Sp.set 0 f.frames frame owner }
  if owner = 0 then s else s.rekey frame

/-- Firmware makes an owner's key from the noise source. -/
def State.makeKey (s : State) (owner : Nat) : State :=
  let bits := (List.range 8).foldl (fun a k => a * 2 ^ 64 + (Config.noiseBits (s.free + k)).toNat) 0
  let s : State := { s with free := s.free + 8 }
  let s := s.modFw fun f => { f with
    keyGen := f.keyGen + 1
    keys := Sp.put f.keys owner ⟨f.keyGen + 1, BitVec.ofNat 512 bits⟩ }
  (s.fw.frames.filter (·.2 == owner)).foldl (fun s kv => s.rekey kv.1) s

/-- The key of an owner without partitions is erased (14 R352). -/
def State.dropKey (s : State) (owner : Nat) : State :=
  if s.parts.any fun kv => kv.2.on && kv.2.owner == owner then s
  else s.modFw fun f => { f with keys := Sp.del f.keys owner }

/-! ### Update-only lines (08 R188, R189) -/

/-- A 32-bit integer or FP32 update applied to an old value. Codes 0 add, 1 min, 2 max, 3 and, 4 or,
5 xor (09 Table 9.5). -/
def applyUpd  (u : Upd) (old : Nat) : Nat :=
  atomNew u.op u.ty old u.val.toNat 0

/-- Merge one partial result into the committed value (08 R188); one that another owner's agent left there
reads as nothing (14 R353). -/
def State.mergeOne  (s : State) (u : Upd) : State :=
  if u.owner ≠ s.ownerOf u.addr then s
  else s.commitBytes u.addr (toBytes u.size (applyUpd u (ofBytes (s.homeBytes u.addr u.size))))

/-- Merge a core's update-only lines that a test selects. -/
def State.mergeCore  (s : State) (c : Nat)
    (sel : Upd → Bool) : State :=
  let us := (s.core c).upd
  let s := s.modCore c fun k => { k with upd := us.filter fun u => !sel u }
  (us.filter sel).foldl (State.mergeOne) s

/-- Cores that hold an update-only line. -/
def State.updCores (s : State) (line : Nat) : List Nat :=
  (s.cores.filter fun kv => kv.2.upd.any fun u => lineOf u.addr == line).map (·.1)

/-- Rotate a list: the order of merges is open where several cores hold the line (08 R188). -/
def rotate {α : Type} (k : Nat) (l : List α) : List α := l.drop k ++ l.take k

/-- A read that reaches the home recalls and merges the update-only lines of the line from every core. -/
def State.recall  (s : State) (line : Nat) : State :=
  match s.updCores line with
  | [] => s
  | [c] => s.mergeCore c fun u => lineOf u.addr == line
  | cs =>
    let k := s.choose cs.length
    (rotate k.1 cs).foldl (fun s c => s.mergeCore c fun u => lineOf u.addr == line) k.2

/-! ### Page tables (14 R344 to R346) -/

/-- How a walk ends. -/
inductive Walk where
  | leaf (lf : Leaf)
  | notPresent
  | bad
  | poison
  deriving DecidableEq, Repr

/-- The size in bits of the page that a leaf at a level maps (14 Table 14.1). -/
def leafBits : Nat → Nat
  | 0 => 17
  | 1 => 28
  | _ => 39

/-- The size in bits of a 4 MiB group (14 R347). -/
def groupBits : Nat := 22

/-- The cores of an owner's ASID: those of the partitions bound to it. -/
def State.coreInAsid (s : State) (asid core : Nat) : Bool :=
  let owner := ((Sp.get? s.fw.asids asid).getD (0, 0)).2
  s.parts.any fun kv =>
    let p := kv.2
    p.on && p.owner == owner && decide (p.x ≤ core % 16) && decide (core % 16 < p.x + p.w) &&
      decide (p.y ≤ core / 16) && decide (core / 16 < p.y + p.h)

/-- The frame of an address belongs to an owner (14 R343). -/
def State.frameOwned (s : State) (owner pa : Nat) : Bool := Sp.get 0 s.fw.frames (pa / 2 ^ 17) == owner

/-- Every frame that a leaf maps belongs to an owner (14 R346). -/
def State.framesOwned (s : State) (owner pa n : Nat) : Bool :=
  let mine := Sp.slice s.fw.frames (pa / 2 ^ 17) (n / 2 ^ 17)
  mine.length == n / 2 ^ 17 && mine.all fun kv => kv.2 == owner

/-- A leaf entry that is malformed (14 R346). CONTIG, which has a meaning at level 0 only, is not looked at on
the other levels (log entry 61). -/
def State.leafBad (s : State) (asid owner level e : Nat) : Bool :=
  let home := field e 5 2
  let aux := field e 52 8
  field e 60 4 != 0 || field e 14 3 != 0 || field e 8 2 == 3 ||
    field e 17 35 % 2 ^ (leafBits level - 17) != 0 ||
    (if home = 1 then !s.coreInAsid asid aux else aux != 0) ||
    !s.framesOwned owner (field e 17 35 * 2 ^ 17) (2 ^ leafBits level)

/-- The leaf of an entry. -/
def mkLeaf (level e entry : Nat) : Leaf :=
  { frame := field e 17 35 * 2 ^ 17
    level := level
    span := leafBits level
    r := field e 2 1 == 1
    w := field e 3 1 == 1
    x := field e 4 1 == 1
    home := BitVec.ofNat 2 (field e 5 2)
    sk := field e 7 1 == 1
    tier := BitVec.ofNat 2 (field e 8 2)
    aux := field e 52 8
    mig := field e 13 1 == 1
    entry := entry
    dirty := field e 12 1 == 1 }

/-- Physical address that a leaf gives a virtual one. -/
def Leaf.pa (lf : Leaf) (va : Nat) : Nat := lf.frame + va % 2 ^ lf.span

/-- Address of the table entry of a virtual address that a leaf covers: a group has one for each of its pages. -/
def Leaf.entryOf (lf : Leaf) (va : Nat) : Nat :=
  if lf.level = 0 then lf.entry + 8 * (va % 2 ^ lf.span / 2 ^ 17) else lf.entry

/-- The 32 leaves of which one at an aligned entry address is the first, when they form a 4 MiB group (14 R347):
all have CONTIG, their frames follow each other from a 4 MiB-aligned one, and A and D apart they are equal. -/
def State.groupAt (s : State) (asid owner entry : Nat) : Option Leaf :=
  let es := (List.range 32).map fun k => ofBytes (s.homeBytes (entry + 8 * k) 8)
  let e0 := es.headD 0
  let plain := fun (e : Nat) => e - field e 17 35 * 2 ^ 17 - field e 11 2 * 2 ^ 11
  if field e0 17 5 = 0 ∧ field e0 10 1 = 1 ∧ field e0 0 2 = 3 ∧ !s.leafBad asid owner 0 e0 ∧
      s.framesOwned owner (field e0 17 35 * 2 ^ 17) (2 ^ groupBits) ∧
      ((List.range 32).zip es).all fun p => field p.2 17 35 == field e0 17 35 + p.1 && plain p.2 == plain e0 then
    some { mkLeaf 0 e0 entry with span := groupBits }
  else none

/-- VA bits that index the table of a level. -/
def levelIndex (va level : Nat) : Nat :=
  match level with
  | 3 => field va 50 7
  | 2 => field va 39 11
  | 1 => field va 28 11
  | _ => field va 17 11

/-- Walk from the table of a level; `fuel` is level + 1. -/
def State.walkFrom (s : State) (asid owner va : Nat) : Nat → Nat → Walk
  | 0, _ => .bad
  | level + 1, table =>
    let at_ := table + 8 * levelIndex va level
    if !s.frameOwned owner at_ then .bad
    else if s.linePoison (lineOf at_) then .poison
    else
      let e := ofBytes (s.homeBytes at_ 8)
      if field e 0 1 = 0 then .notPresent
      else if field e 1 1 = 0 then
        if level = 0 ∨ field e 2 12 ≠ 0 ∨ field e 52 12 ≠ 0 then .bad
        else s.walkFrom asid owner va level (field e 14 38 * 2 ^ 14)
      else if level = 3 ∨ s.leafBad asid owner level e then .bad
      else if level = 0 ∧ field e 10 1 = 1 then
        let first := at_ / 256 * 256
        if (List.range 2).any fun k => s.linePoison (lineOf first + k) then .poison
        else .leaf ((s.groupAt asid owner first).getD (mkLeaf 0 e at_))
      else .leaf (mkLeaf level e at_)

/-- Walk the tables of an ASID (14 R344). -/
def State.walk (s : State) (asid va : Nat) : Walk :=
  match Sp.get? s.fw.asids asid with
  | none => .bad
  | some (root, owner) => s.walkFrom asid owner va 4 root

/-! ### The device's own accesses for an owner (14 R343) -/

/-- Physical address that the device uses for a virtual one under an ASID, if the page allows it. -/
def State.devicePa (s : State) (asid va : Nat) (write : Bool) : Option Nat :=
  match s.walk asid va with
  | .leaf lf =>
    if (if write then lf.w else lf.r) && decide (va < 2 ^ 57) then some (lf.pa va) else none
  | _ => none

/-- Recall update-only lines that hold bytes of a range (08 R188). -/
def State.recallRange (s : State) (asid va n : Nat) : State :=
  if s.cores.all fun kv => kv.2.upd.isEmpty then s
  else ((List.range ((va + n + 127) / 128 - va / 128)).map (va / 128 + ·)).foldl (fun s l =>
    match s.devicePa asid (128 * l) false with
    | some pa => s.recall (lineOf pa)
    | none => s) s

/-- Bits A (11) and D (12) set in an entry by an indivisible OR at its home (14 R346). -/
def State.markEntry (s : State) (entry : Nat) (d : Bool) : State :=
  let e := ofBytes (s.homeBytes entry 8)
  let e' := e ||| (if d then 0x1800 else 0x800)
  if e' = e then s else s.commitBytes entry (toBytes 8 e')

/-- The pages of a byte range. -/
def pagesOf (va n : Nat) : List Nat :=
  if n = 0 then [] else (List.range ((va + n - 1) / 2 ^ 17 + 1 - va / 2 ^ 17)).map (va / 2 ^ 17 + ·)

/-- The device's own access to a range sets A in the entries of its pages, and D where it writes (14 R346). -/
def State.markPages (s : State) (asid va n : Nat) (write : Bool) : State :=
  (pagesOf va n).foldl (fun s p =>
    let va := max va (p * 2 ^ 17)
    match s.devicePa asid va write, s.walk asid va with
    | some _, .leaf lf => s.markEntry (lf.entryOf va) write
    | _, _ => s) s

/-- Why a read of the device itself cannot be performed yet: a page that is not there and that firmware has
not refused (14 R350, 12 R280), or a line that an engine owns (08 R191). -/
def State.deviceHeld (s : State) (asid va n : Nat) : Option (Option (Nat × Nat)) :=
  let page := fun (p : Nat) =>
    match s.walk asid (p * 2 ^ 17) with
    | .notPresent => if s.fw.denied.contains (asid, p) then none else some (some (asid, p))
    | .leaf lf => if lf.mig then some (some (asid, p)) else none
    | _ => none
  let line := fun (l : Nat) =>
    match s.devicePa asid (128 * l) false with
    | some pa => if Sp.has s.owned (lineOf pa) then some none else none
    | none => none
  match (pagesOf va n).findSome? page with
  | some w => some w
  | none => if s.owned.isEmpty then none
    else ((List.range ((va + n + 127) / 128 - va / 128)).map (va / 128 + ·)).findSome? line

/-- Read bytes for the device itself under an ASID, at home; `none` where a byte cannot be read or is
poisoned (12 R275, R281), or where the read must wait, which `devWait` then says. -/
def State.deviceRead (s : State) (asid va n : Nat) : Option (List Byte) × State :=
  match s.deviceHeld asid va n with
  | some w => (none, { s with devWait := some w })
  | none =>
    let s := (s.recallRange asid va n).markPages asid va n false
    let byte := fun (i : Nat) =>
      match s.devicePa asid (va + i) false with
      | some pa => if s.linePoison (lineOf pa) then none else some (s.homeByte pa)
      | none => none
    (((List.range n).map byte).mapM id, s)

/-- Write bytes for the device itself under an ASID, committed at home; bytes that the page tables do
not allow are not written. -/
def State.deviceWrite (s : State) (asid va : Nat) (bs : List Byte) : State :=
  let s := (s.recallRange asid va bs.length).markPages asid va bs.length true
  let pas := (List.range bs.length).map fun i => s.devicePa asid (va + i) true
  (pas.zip bs).foldl (fun s p =>
    match p.1 with
    | some pa => s.commitBytes pa [p.2]
    | none => s) s

/-- What the device does for an owner is done once its reads need not wait: until then only the page that is
missing enters the firmware core's fault queue (12 R280, 14 R350). -/
def State.unlessHeld (s : State) (f : State → State) : State :=
  let t := f { s with devWait := none }
  match t.devWait with
  | none => t
  | some none => s
  | some (some (asid, page)) => s.modCore 0 fun c =>
      if c.faultQ.contains (asid, page) || decide (256 ≤ c.faultQ.length) then c
      else { c with faultQ := c.faultQ ++ [(asid, page)] }

/-- A 32-bit word of code, where a page allows it to be fetched (03 Table 3.11). -/
def State.codeWord (s : State) (asid va : Nat) : Option Nat :=
  match s.walk asid va with
  | .leaf lf =>
    let pa := lf.pa va
    if lf.x && !lf.w && !s.linePoison (lineOf pa) && decide (va < 2 ^ 57) then
      some (ofBytes (s.homeBytes pa 4))
    else none
  | _ => none

/-- Length of the instruction that a word begins (03 R40). -/
def codeLen (w : Nat) : Nat :=
  match w % 4 with
  | 0 => 4
  | 3 => 20
  | _ => 12

/-- Instructions from `at_` up to `stop`; a word that cannot be fetched counts as one instruction. -/
def State.countCode (s : State) (asid : Nat) : Nat → Nat → Nat → Nat
  | 0, _, _ => 0
  | fuel + 1, at_, stop =>
    if stop ≤ at_ then 0
    else 1 + s.countCode asid fuel (at_ + (match s.codeWord asid at_ with
      | some w => codeLen w
      | none => 4)) stop

/-- Whether an `IDEME` stands at an address from `at_` up to and including `upto`; the entry's code ends
at the first word that cannot be fetched (12 R306). -/
def State.idemeIn (s : State) (asid : Nat) : Nat → Nat → Nat → Bool
  | 0, _, _ => false
  | fuel + 1, at_, upto =>
    if upto < at_ then false
    else match s.codeWord asid at_ with
      | none => true
      | some w =>
        (w % 2 == 1 && field w 8 8 == 0x0E) || s.idemeIn asid fuel (at_ + codeLen w) upto

/-! ### Trace records (16 Table 16.1) -/

/-- Key of a cluster. -/
def clusterKey (launch clz : Nat) : Nat := launch * 2 ^ 24 + clz

/-- The phase count that names a team in time (16 R393). -/
def State.phaseCount (s : State) (t : Team) : Nat :=
  (match Sp.get? t.bars 0 with
    | some b => b.phase
    | none => 0) + (Sp.get {} s.clusters (clusterKey t.launch t.clz)).phase

/-- Write a trace record for a team; the oldest is overwritten when the ring is full (16 R394). -/
def State.trace (s : State) (tn gid kind data : Nat) : State :=
  let t := s.team tn
  let l := s.launch t.launch
  let p := s.part l.part
  let n := p.traceSize / 32
  if n = 0 then s
  else
    let r := toBytes 8 s.time.toNat ++ toBytes 4 l.tag.toNat ++ toBytes 4 t.clz ++
      toBytes 1 (t.clx + 16 * t.cly) ++ toBytes 1 gid ++ toBytes 1 kind ++
      toBytes 1 (min 255 p.traceLost) ++ toBytes 4 (s.phaseCount t) ++ toBytes 8 data
    let s := s.deviceWrite p.traceAsid (p.traceBase + 32 * (p.traceCount % n)) r
    s.modPart l.part fun p =>
      { p with traceCount := p.traceCount + 1, traceLost := if n ≤ p.traceCount then 1 else 0 }

end Sys2Proof.Machine
end

