-- ==== Sys2Proof/Machine/Form.lean ====
section
/-! DEFINITION. The encoding form of every instruction: its major opcode (03 Table 3.9) and the form
its words take (03 R40 to R42, R47 to R49), its length, and the extended operand fields that a base
form stands for (03 R47). -/

namespace Sys2Proof

/-- The forms of instruction words. -/
inductive Form where
  | b0 (x : Base0)
  | b2 (x : Base2)
  | b2l (x : Base2) (lit : BitVec 64)
  | bi (x : BaseImm)
  | sb (x : ShortBra)
  | xf (x : XForm)
  | fb (x : FarBra)
  deriving DecidableEq, Repr

/-- Opcode and form of an instruction; a device step has none. -/
def Instr.form : Instr → Option (Nat × Form)
  | .nopBase x => some (0x00, .b0 x)
  | .nop x => some (0x00, .xf x)
  | .braShort x => some (0x01, .sb x)
  | .bra x => some (0x01, .fb x)
  | .brx x => some (0x02, .xf x)
  | .call x => some (0x03, .fb x)
  | .callx x => some (0x04, .xf x)
  | .retBase x => some (0x05, .b0 x)
  | .ret x => some (0x05, .xf x)
  | .exitBase x => some (0x06, .b0 x)
  | .exit x => some (0x06, .xf x)
  | .cset x => some (0x07, .xf x)
  | .conv x => some (0x08, .xf x)
  | .loop x => some (0x09, .xf x)
  | .lbrk x => some (0x0A, .xf x)
  | .yieldBase x => some (0x0B, .b0 x)
  | .yield x => some (0x0B, .xf x)
  | .sleep x => some (0x0C, .xf x)
  | .idemb x => some (0x0D, .xf x)
  | .ideme x => some (0x0E, .xf x)
  | .bar x => some (0x10, .xf x)
  | .bara x => some (0x11, .xf x)
  | .barw x => some (0x12, .xf x)
  | .bari x => some (0x13, .xf x)
  | .cbar x => some (0x14, .xf x)
  | .obji x => some (0x15, .xf x)
  | .obja x => some (0x16, .xf x)
  | .objw x => some (0x17, .xf x)
  | .objt x => some (0x18, .xf x)
  | .movBase x => some (0x20, .b2 x)
  | .movBaseLit x lit => some (0x20, .b2l x lit)
  | .mov x => some (0x20, .xf x)
  | .moviBase x => some (0x21, .bi x)
  | .movi x => some (0x21, .xf x)
  | .sel x => some (0x22, .xf x)
  | .iaddBase x => some (0x23, .b2 x)
  | .iaddBaseLit x lit => some (0x23, .b2l x lit)
  | .iadd x => some (0x23, .xf x)
  | .isubBase x => some (0x24, .b2 x)
  | .isubBaseLit x lit => some (0x24, .b2l x lit)
  | .isub x => some (0x24, .xf x)
  | .iaddc x => some (0x25, .xf x)
  | .imul x => some (0x26, .xf x)
  | .imulh x => some (0x27, .xf x)
  | .imad x => some (0x28, .xf x)
  | .iminBase x => some (0x29, .b2 x)
  | .iminBaseLit x lit => some (0x29, .b2l x lit)
  | .imin x => some (0x29, .xf x)
  | .imaxBase x => some (0x2A, .b2 x)
  | .imaxBaseLit x lit => some (0x2A, .b2l x lit)
  | .imax x => some (0x2A, .xf x)
  | .iabs x => some (0x2B, .xf x)
  | .andBase x => some (0x2C, .b2 x)
  | .andBaseLit x lit => some (0x2C, .b2l x lit)
  | .and x => some (0x2C, .xf x)
  | .orBase x => some (0x2D, .b2 x)
  | .orBaseLit x lit => some (0x2D, .b2l x lit)
  | .or x => some (0x2D, .xf x)
  | .xorBase x => some (0x2E, .b2 x)
  | .xorBaseLit x lit => some (0x2E, .b2l x lit)
  | .xor x => some (0x2E, .xf x)
  | .andn x => some (0x2F, .xf x)
  | .not x => some (0x30, .xf x)
  | .shlBase x => some (0x31, .b2 x)
  | .shlBaseLit x lit => some (0x31, .b2l x lit)
  | .shl x => some (0x31, .xf x)
  | .shrBase x => some (0x32, .b2 x)
  | .shrBaseLit x lit => some (0x32, .b2l x lit)
  | .shr x => some (0x32, .xf x)
  | .sarBase x => some (0x33, .b2 x)
  | .sarBaseLit x lit => some (0x33, .b2l x lit)
  | .sar x => some (0x33, .xf x)
  | .shrr x => some (0x34, .xf x)
  | .rot x => some (0x35, .xf x)
  | .clz x => some (0x36, .xf x)
  | .popc x => some (0x37, .xf x)
  | .brev x => some (0x38, .xf x)
  | .bfx x => some (0x39, .xf x)
  | .bfi x => some (0x3A, .xf x)
  | .isetp x => some (0x3B, .xf x)
  | .plop x => some (0x3C, .xf x)
  | .pmovGet x => some (0x3D, .xf x)
  | .pmovPut x => some (0x3D, .xf x)
  | .iadds x => some (0x3E, .xf x)
  | .isubs x => some (0x3F, .xf x)
  | .idot2 x => some (0x40, .xf x)
  | .idot4 x => some (0x41, .xf x)
  | .ipack x => some (0x42, .xf x)
  | .iunpk x => some (0x43, .xf x)
  | .icvt x => some (0x44, .xf x)
  | .faddBase x => some (0x48, .b2 x)
  | .faddBaseLit x lit => some (0x48, .b2l x lit)
  | .fadd x => some (0x48, .xf x)
  | .fsub x => some (0x49, .xf x)
  | .fmulBase x => some (0x4A, .b2 x)
  | .fmulBaseLit x lit => some (0x4A, .b2l x lit)
  | .fmul x => some (0x4A, .xf x)
  | .ffma x => some (0x4B, .xf x)
  | .fminBase x => some (0x4C, .b2 x)
  | .fminBaseLit x lit => some (0x4C, .b2l x lit)
  | .fmin x => some (0x4C, .xf x)
  | .fmaxBase x => some (0x4D, .b2 x)
  | .fmaxBaseLit x lit => some (0x4D, .b2l x lit)
  | .fmax x => some (0x4D, .xf x)
  | .fsetp x => some (0x4E, .xf x)
  | .fclass x => some (0x4F, .xf x)
  | .frnd x => some (0x50, .xf x)
  | .fcvt x => some (0x51, .xf x)
  | .fdiv x => some (0x52, .xf x)
  | .fsqrt x => some (0x53, .xf x)
  | .frcp x => some (0x54, .xf x)
  | .frsq x => some (0x55, .xf x)
  | .fexp2 x => some (0x56, .xf x)
  | .flog2 x => some (0x57, .xf x)
  | .fsinp x => some (0x58, .xf x)
  | .fcosp x => some (0x59, .xf x)
  | .ftanh x => some (0x5A, .xf x)
  | .fscale x => some (0x5B, .xf x)
  | .xshf x => some (0x60, .xf x)
  | .xsld x => some (0x61, .xf x)
  | .xbfl x => some (0x62, .xf x)
  | .xbcst x => some (0x63, .xf x)
  | .xred x => some (0x64, .xf x)
  | .xscan x => some (0x65, .xf x)
  | .xvote x => some (0x66, .xf x)
  | .xffs x => some (0x67, .xf x)
  | .xpld x => some (0x68, .xf x)
  | .xpat x => some (0x69, .xf x)
  | .mzero x => some (0x70, .xf x)
  | .mma x => some (0x71, .xf x)
  | .mmas x => some (0x72, .xf x)
  | .mmai x => some (0x73, .xf x)
  | .had x => some (0x74, .xf x)
  | .qnt x => some (0x75, .xf x)
  | .dqnt x => some (0x76, .xf x)
  | .fragt x => some (0x77, .xf x)
  | .rlrun x => some (0x78, .xf x)
  | .rlacc x => some (0x79, .xf x)
  | .rlret x => some (0x7A, .xf x)
  | .rlabt x => some (0x7B, .xf x)
  | .ld x => some (0x80, .xf x)
  | .st x => some (0x81, .xf x)
  | .sld x => some (0x84, .xf x)
  | .ldl x => some (0x82, .xf x)
  | .stl x => some (0x83, .xf x)
  | .atom x => some (0x85, .xf x)
  | .atomu x => some (0x86, .xf x)
  | .atoml x => some (0x87, .xf x)
  | .flt x => some (0x88, .xf x)
  | .bld x => some (0x89, .xf x)
  | .bnar x => some (0x8A, .xf x)
  | .phase x => some (0x8B, .xf x)
  | .fence x => some (0x8C, .xf x)
  | .pfch x => some (0x8D, .xf x)
  | .acp x => some (0x90, .xf x)
  | .await x => some (0x91, .xf x)
  | .tcp x => some (0x92, .xf x)
  | .tst x => some (0x93, .xf x)
  | .tcpg x => some (0x94, .xf x)
  | .bread x => some (0x95, .xf x)
  | .rput x => some (0x96, .xf x)
  | .rget x => some (0x97, .xf x)
  | .rsig x => some (0x98, .xf x)
  | .coll x => some (0x99, .xf x)
  | .ecov x => some (0xA0, .xf x)
  | .sacq x => some (0xA1, .xf x)
  | .sstr x => some (0xA2, .xf x)
  | .srdh x => some (0xA3, .xf x)
  | .srelDone x => some (0xA4, .xf x)
  | .srelCons x => some (0xA4, .xf x)
  | .srelConsHalo x => some (0xA4, .xf x)
  | .srate x => some (0xA5, .xf x)
  | .sprogStart x => some (0xA6, .xf x)
  | .sprogDone x => some (0xA6, .xf x)
  | .sread x => some (0xB0, .xf x)
  | .swrite x => some (0xB1, .xf x)
  | .rand x => some (0xB2, .xf x)
  | .trap x => some (0xB3, .xf x)
  | .tretRetry x => some (0xB4, .xf x)
  | .tretSkip x => some (0xB4, .xf x)
  | .bkpt x => some (0xB5, .xf x)
  | .psave x => some (0xB6, .xf x)
  | .pload x => some (0xB7, .xf x)
  | .tlbinv x => some (0xB8, .xf x)
  | .fwcallQuery x => some (0xB9, .xf x)
  | .fwcallPin x => some (0xB9, .xf x)
  | .fwcallTier x => some (0xB9, .xf x)
  | .fwcallDomain x => some (0xB9, .xf x)
  | .fwcallAttest x => some (0xB9, .xf x)
  | .fwcallQueue x => some (0xB9, .xf x)
  | .fwcallUnknown x => some (0xB9, .xf x)
  | .sleepWake _ => none
  | .rlRunStart _ => none
  | .rlControllerGrant _ => none
  | .rlCallEnd _ => none
  | .acpLanded _ => none
  | .tensorCopyDone _ => none
  | .engineLineRelease _ _ => none
  | .burstReady _ _ => none
  | .handlerBirth _ => none
  | .remoteCopyDone _ => none
  | .rsigArrival _ _ _ _ _ => none
  | .rsigAck _ _ => none
  | .collJoin _ _ => none
  | .collWaitExpiry _ => none
  | .collDone _ => none
  | .queueDoorbellWrite _ _ _ => none
  | .pktNop _ => none
  | .pktLaunch _ => none
  | .pktGang _ => none
  | .gangCommit _ => none
  | .gangDeadline _ => none
  | .pktTimed _ => none
  | .pktStreamCreate _ => none
  | .pktStreamAlter _ => none
  | .pktStreamDestroy _ => none
  | .pktWaitmem _ => none
  | .waitmemPoll _ => none
  | .waitmemTimeout _ => none
  | .pktSignal _ => none
  | .pktIndirect _ => none
  | .pktCopy _ => none
  | .copyPacketDone _ => none
  | .pktFence _ => none
  | .launchDispatch _ => none
  | .teamPlace _ => none
  | .launchStartTime _ => none
  | .launchComplete _ => none
  | .issueAging _ _ => none
  | .frontierPromotion _ => none
  | .evictedLineFetch _ _ => none
  | .lanternGrant _ => none
  | .lanternIdleReturn _ => none
  | .lanternPoolChange _ _ => none
  | .thermalMigration _ => none
  | .partitionRebind _ _ _ => none
  | .rebindDeadline _ => none
  | .vigilNoIssue _ => none
  | .vigilLongWait _ => none
  | .stripRelease _ => none
  | .instanceNextLaunch _ => none
  | .borrowerVacate _ => none
  | .borrowerKill _ => none
  | .almanacEvaluation _ => none
  | .stripDeadline _ => none
  | .displayScanStart _ => none
  | .displayScanEnd _ => none
  | .encoderSlotTime _ => none
  | .encoderRowCoded _ => none
  | .encoderStall _ => none
  | .encoderResume _ => none
  | .ppsEdge _ _ => none
  | .ptmTimestamp _ => none
  | .faultService _ _ => none
  | .tierMigration _ _ _ _ => none
  | .trapEntry _ => none
  | .asyncFailureReport => none
  | .teamVacate _ => none
  | .teamRestore _ _ => none
  | .teamDiscardRestart _ _ => none
  | .rngHealthFailure _ => none
  | .randBitsReady _ => none
  | .timingErrorReplay _ _ => none
  | .eccCorrected _ => none
  | .eccUncorrectable _ => none
  | .cxlPoison _ => none
  | .ioLoadCompletion _ _ _ => none
  | .ioCompletionTimeout _ => none
  | .bar2Read _ _ _ => none
  | .bar2Write _ _ _ => none
  | .configRequest _ => none
  | .mbxQueueConfig _ _ _ => none
  | .mbxOwnerCreate _ _ => none
  | .mbxAdminMark _ _ => none
  | .mbxIoWindowGrant _ _ _ _ => none
  | .mbxBar2Asid _ _ => none
  | .mbxFwService _ _ _ => none
  | .mbxTraceRing _ _ _ _ => none
  | .mbxStopTeam _ _ => none
  | .mbxResumeTeam _ _ => none
  | .mbxDebugAccess _ _ _ => none
  | .mbxReadHistogram _ _ => none
  | .sampleRecord _ _ => none
  | .recoveryImage _ _ => none
  | .fundamentalReset _ => none
  | .fwHandoverStage _ => none
  | .fwHandoverCommit => none
  | .peerLoad _ _ _ _ => none
  | .peerStore _ _ _ _ _ => none
  | .peerRemoteCommit _ _ => none
  | .peerAtom _ _ _ _ _ _ _ _ _ => none
  | .linkFlitError _ => none
  | .peerUnreachable _ => none
  | .longLatencyResult _ _ => none
  | .gangStartTime _ => none
  | .collStartTime _ => none
  | .linkTraining _ _ => none

/-- The major opcode, 0 for a device step. -/
def Instr.op (i : Instr) : BitVec 8 :=
  match i.form with
  | some (o, _) => BitVec.ofNat 8 o
  | none => 0#8

/-- Length in bytes (03 R40). -/
def Form.len : Form → Nat
  | .b2l _ _ => 12
  | .xf x => if x.lit.isSome then 20 else 12
  | .fb x => if x.lit.isSome then 20 else 12
  | .b0 _ => 4
  | .b2 _ => 4
  | .bi _ => 4
  | .sb _ => 4

/-- Length in bytes, 0 for a device step. -/
def Instr.len (i : Instr) : Nat :=
  match i.form with
  | some (_, f) => f.len
  | none => 0

/-- The guard of a form (03 R43). -/
def Form.guard : Form → Option Guard
  | .b0 x => x.guard
  | .b2 x => x.guard
  | .b2l x _ => x.guard
  | .bi x => x.guard
  | .sb x => x.guard
  | .xf x => x.guard
  | .fb x => x.guard

/-- The guard of an instruction. -/
def Instr.guard (i : Instr) : Option Guard :=
  match i.form with
  | some (_, f) => f.guard
  | none => none

/-- An extended form whose every field is blank (03 R46). -/
def XForm.blank : XForm :=
  { guard := none, lit := none, a := .blank, b := .blank, c := .blank, d := .blank, ty := .i32,
    mod := 0#8, la := 0#4, aux := 0#6, fill := .zero, xm := .own, xk := 0#5, imm := 0#16 }

/-- The TY that Table 3.5 implies for a base form. -/
def baseTy (op : Nat) : Ty :=
  if op = 0x23 ∨ op = 0x24 ∨ op = 0x29 ∨ op = 0x2A then .i32
  else if op = 0x31 ∨ op = 0x32 ∨ op = 0x33 then .ui32
  else if op = 0x48 ∨ op = 0x4A ∨ op = 0x4C ∨ op = 0x4D then .f32
  else if op = 0x20 ∨ op = 0x21 ∨ op = 0x2C ∨ op = 0x2D ∨ op = 0x2E then .b32
  else .i32

/-- The extended form that a two-field base form behaves as (03 R47). -/
def Base2.lift (op : Nat) (lit : Option (BitVec 64)) (x : Base2) : XForm :=
  if op = 0x20 then { XForm.blank with guard := x.guard, lit := lit, a := x.a, b := x.b, ty := baseTy op }
  else { XForm.blank with guard := x.guard, lit := lit, a := x.a, b := x.a, c := x.b, ty := baseTy op }

/-- The extended `MOVI` that a base `MOVI` behaves as (03 R47). -/
def BaseImm.lift (x : BaseImm) : XForm :=
  { XForm.blank with guard := x.guard, a := x.a, imm := x.imm.signExtend 16, ty := .b32 }

/-- The extended operand fields an instruction behaves as. The branch forms carry no operand. -/
def Form.fields (op : Nat) : Form → XForm
  | .b0 x => { XForm.blank with guard := x.guard }
  | .b2 x => x.lift op none
  | .b2l x l => x.lift op (some l)
  | .bi x => x.lift
  | .sb x => { XForm.blank with guard := x.guard }
  | .xf x => x
  | .fb x => { XForm.blank with guard := x.guard, lit := x.lit }

/-- The extended operand fields of an instruction. -/
def Instr.fields (i : Instr) : XForm :=
  match i.form with
  | some (o, f) => f.fields o
  | none => XForm.blank

end Sys2Proof
end

