-- ==== Sys2Proof/Machine/Shape.lean ====
section
/-! DEFINITION. What each operand field of an instruction is (03 R44 to R54): the roles of the fields
A to D, the registers that AUX and IMM16 name, the types and modifier bits an entry defines. The
legality of an encoding, the registers an instruction touches, its lookahead destinations and its
poison sources all follow from this one description. -/

namespace Sys2Proof

/-- The operand fields. -/
inductive Fld where
  | a | b | c | d
  deriving DecidableEq, Repr

/-- What a field is. `w` is 1 for a 32-bit operand and 2 for a 64-bit one; `n` counts consecutive
registers and `al` is the multiple that the first of them must be. -/
inductive Role where
  /-- any source code of Table 3.4 -/
  | src (w : Nat)
  /-- uniform source: `s` register, literal or 0xF0 (09 R205) -/
  | uni (w : Nat)
  /-- uniform source without the literal's high half: `s` register, code 0xF1 or 0xF0 (15 R375) -/
  | uniLo
  /-- consecutive `v` registers, read -/
  | vec (n al : Nat)
  /-- consecutive `v` registers, or 0xF0 for zero, read -/
  | vecZ (n al : Nat)
  /-- consecutive `s` registers, read -/
  | sreg (n al : Nat)
  /-- `v` pair or `s` pair, read -/
  | pair
  /-- destination: `v`, `s` or 0xF0 -/
  | dst (w : Nat)
  /-- destination: `v` or 0xF0 -/
  | vdst (w : Nat)
  /-- destination: `s` or 0xF0 -/
  | sdst
  /-- consecutive `v` registers, written -/
  | vout (n al : Nat)
  /-- consecutive `s` registers, written -/
  | sout (n al : Nat)
  /-- consecutive `v` registers, read and written -/
  | vio (n al : Nat)
  /-- destination `v`, `s` or 0xF0 of which some bytes are kept -/
  | dstRd
  /-- predicate number, read -/
  | pin
  /-- predicate number, written -/
  | pout
  deriving DecidableEq, Repr

/-- A register named outside the fields A to D, coded as 03 R58 codes it. -/
structure RegUse where
  code : Nat
  rd : Bool
  wr : Bool
  deriving DecidableEq, Repr

/-- Codes of 03 R58. -/
def codeS (n : Nat) : Nat := 0xC0 + n
def codeP (n : Nat) : Nat := 0x100 + n
def codeB (n : Nat) : Nat := 0x200 + n
def codeLc (n : Nat) : Nat := 0x300 + n
def codeK (n : Nat) : Nat := 0x400 + n
def codeT (n : Nat) : Nat := 0x500 + n

def useRd (c : Nat) : RegUse := ⟨c, true, false⟩
def useWr (c : Nat) : RegUse := ⟨c, false, true⟩

/-- The description of one instruction. -/
structure Shape where
  /-- types the entry permits; none means TY must be zero (03 R51) -/
  tys : List Ty := []
  /-- roles of the fields the entry uses; any other field must be blank (03 R46) -/
  slots : List (Fld × Role) := []
  /-- MOD bits the entry defines (03 R50) -/
  mods : BitVec 8 := 0#8
  /-- MOD[2:0] is RM, so codes 6 and 7 are illegal (03 R50) -/
  rm : Bool := false
  /-- AUX holds a value the entry defines; `none` where AUX must be zero -/
  aux : Option Bool := none
  /-- IMM16 holds a value the entry defines; `none` where the entry does not use it -/
  imm : Option Bool := none
  /-- rules of the entry's own about the fields -/
  own : Bool := true
  /-- B may carry the cross-lane modifier (03 R52) -/
  cross : Bool := false
  /-- XM, XK and XF have the entry's own meaning (05 R118), checked in `own` -/
  xfam : Bool := false
  /-- long-latency (03 R55) -/
  long : Bool := false
  /-- a scalar destination demands uniform sources (03 R46) -/
  scal : Bool := false
  /-- registers that AUX names -/
  auxRegs : List RegUse := []
  /-- registers that IMM16 names -/
  immRegs : List RegUse := []
  deriving Repr

/-- Register code of an operand that names a register. -/
def Opnd.code : Opnd → Option Nat
  | .v r => some r.val
  | .s r => some (codeS r.val)
  | _ => none

/-- The number a field holds when it is read as a plain number. -/
def Opnd.num : Opnd → Nat
  | .v r => r.val
  | .s r => 0xC0 + r.val
  | .zero => 0xF0
  | .litLo => 0xF1
  | .litHi => 0xF2
  | .lit64 => 0xF3
  | .lane => 0xF4
  | .gw => 0xF5

def XForm.fld (x : XForm) : Fld → Opnd
  | .a => x.a
  | .b => x.b
  | .c => x.c
  | .d => x.d

/-- `r` starts `n` registers of a file of `m`, at a multiple of `al`. -/
def fits (r n al m : Nat) : Bool := decide (r % al = 0) && decide (r + n ≤ m)

/-- Literal codes (03 R45). -/
def litOk (lit : Bool) (w : Nat) : Opnd → Bool
  | .litLo => lit && w == 1
  | .litHi => lit && w == 1
  | .lit64 => lit && w == 2
  | _ => false

/-- Whether an operand may stand in a role (03 R44, R45; 02 R30). -/
def Role.legal (lit : Bool) (o : Opnd) : Role → Bool
  | .src w => match o with
    | .v r => fits r w w 192
    | .s r => fits r w w 48
    | .zero => true
    | .lane => true
    | .gw => true
    | o => litOk lit w o
  | .uni w => match o with
    | .s r => fits r w w 48
    | .zero => true
    | .v _ => false
    | .lane => false
    | .gw => false
    | o => litOk lit w o
  | .uniLo => match o with
    | .s _ => true
    | .zero => true
    | .litLo => lit
    | _ => false
  | .vec n al => match o with
    | .v r => fits r n al 192
    | _ => false
  | .vecZ n al => match o with
    | .v r => fits r n al 192
    | .zero => true
    | _ => false
  | .sreg n al => match o with
    | .s r => fits r n al 48
    | _ => false
  | .pair => match o with
    | .v r => fits r 2 2 192
    | .s r => fits r 2 2 48
    | _ => false
  | .dst w => match o with
    | .v r => fits r w w 192
    | .s r => fits r w w 48
    | .zero => true
    | _ => false
  | .vdst w => match o with
    | .v r => fits r w w 192
    | .zero => true
    | _ => false
  | .sdst => match o with
    | .s _ => true
    | .zero => true
    | _ => false
  | .vout n al => match o with
    | .v r => fits r n al 192
    | _ => false
  | .sout n al => match o with
    | .s r => fits r n al 48
    | _ => false
  | .vio n al => match o with
    | .v r => fits r n al 192
    | _ => false
  | .dstRd => match o with
    | .v _ => true
    | .s _ => true
    | .zero => true
    | _ => false
  | .pin => match o with
    | .v r => decide (r.val < 16)
    | _ => false
  | .pout => match o with
    | .v r => decide (r.val < 16)
    | _ => false

/-- Consecutive register codes from the one an operand names. -/
def codesFrom (o : Opnd) (n : Nat) : List Nat :=
  match o.code with
  | some c => (List.range n).map (c + ·)
  | none => []

/-- The registers a field names, and whether they are read and written. -/
def Role.regs (o : Opnd) : Role → List RegUse
  | .src w => (codesFrom o w).map useRd
  | .uni w => (codesFrom o w).map useRd
  | .uniLo => (codesFrom o 1).map useRd
  | .vec n _ => (codesFrom o n).map useRd
  | .vecZ n _ => (codesFrom o n).map useRd
  | .sreg n _ => (codesFrom o n).map useRd
  | .pair => (codesFrom o 2).map useRd
  | .dst w => (codesFrom o w).map useWr
  | .vdst w => (codesFrom o w).map useWr
  | .sdst => (codesFrom o 1).map useWr
  | .vout n _ => (codesFrom o n).map useWr
  | .sout n _ => (codesFrom o n).map useWr
  | .vio n _ => (codesFrom o n).map fun c => ⟨c, true, true⟩
  | .dstRd => (codesFrom o 1).map fun c => ⟨c, true, true⟩
  | .pin => [useRd (codeP o.num)]
  | .pout => [useWr (codeP o.num)]

/-- The roles that a field has. -/
def Shape.roles (sh : Shape) (f : Fld) : List Role :=
  (sh.slots.filter fun p => p.1 == f).map (·.2)

/-- A field is legal: blank where the entry does not use it, else as every role demands. -/
def Shape.fldOk (sh : Shape) (x : XForm) (f : Fld) : Bool :=
  match sh.roles f with
  | [] => x.fld f == .blank
  | rs => rs.all (Role.legal x.lit.isSome (x.fld f))

/-- Every register an instruction names, in the order A, B, C, D, AUX, IMM16 (03 R58). -/
def Shape.uses (sh : Shape) (x : XForm) : List RegUse :=
  [Fld.a, .b, .c, .d].flatMap (fun f => (sh.roles f).flatMap (Role.regs (x.fld f))) ++
    sh.auxRegs ++ sh.immRegs

/-- Registers written. -/
def Shape.writes (sh : Shape) (x : XForm) : List Nat :=
  ((sh.uses x).filter (·.wr)).map (·.code)

/-- Whether a role is a source that scalar destinations restrict (03 R46). -/
def Role.isSrc : Role → Bool
  | .src _ => true
  | .vec _ _ => true
  | _ => false

/-- Whether a destination is a scalar register. -/
def Opnd.isS : Opnd → Bool
  | .s _ => true
  | _ => false

/-- A uniform operand (03 R46). -/
def Opnd.uniform : Opnd → Bool
  | .v _ => false
  | .lane => false
  | _ => true

/-! ### The integer, address and predicate family (05 R97 to R110) -/

def tyMove : List Ty := [.b32, .ui64]
def tyInt : List Ty := [.i32, .ui32, .i64, .ui64]
def tyArith : List Ty := [.i32, .ui32, .i64, .ui64, .i16x2, .i8x4]
def tyFloat : List Ty := [.f32, .f64, .f16x2, .bf16x2]

/-- Registers of a value of a type: 2 for the 64-bit types (05 R94). -/
def Ty.regs : Ty → Nat
  | .i64 => 2
  | .ui64 => 2
  | .f64 => 2
  | _ => 1

/-- The type of a TY code that AUX[3:0] holds (05 R110, R114). -/
def Ty.ofCode : Nat → Option Ty
  | 0 => some .i32
  | 1 => some .ui32
  | 2 => some .i64
  | 3 => some .ui64
  | 4 => some .b32
  | 5 => some .i16x2
  | 6 => some .i8x4
  | 7 => some .f32
  | 8 => some .f64
  | 9 => some .f16x2
  | 10 => some .bf16x2
  | 11 => some .e4m3x4
  | 12 => some .e5m2x4
  | 13 => some .i4x
  | 14 => some .i4x8
  | _ => none

/-- The TY code of a type (03 R51). -/
def Ty.code : Ty → Nat
  | .i32 => 0
  | .ui32 => 1
  | .i64 => 2
  | .ui64 => 3
  | .b32 => 4
  | .i16x2 => 5
  | .i8x4 => 6
  | .f32 => 7
  | .f64 => 8
  | .f16x2 => 9
  | .bf16x2 => 10
  | .e4m3x4 => 11
  | .e5m2x4 => 12
  | .i4x => 13
  | .i4x8 => 14

/-- Bits [hi:lo] of a field as a number. -/
def bits {n : Nat} (x : BitVec n) (hi lo : Nat) : Nat := (x.toNat >>> lo) % 2 ^ (hi + 1 - lo)

/-- MOD[7:5]. -/
def XForm.fam (x : XForm) : Nat := bits x.mod 7 5

/-- Sources B, C and D of `n` widths. -/
def srcSlots (w1 w2 w3 : Nat) : List (Fld × Role) :=
  (if w1 = 0 then [] else [(Fld.b, Role.src w1)]) ++ (if w2 = 0 then [] else [(Fld.c, Role.src w2)]) ++
    (if w3 = 0 then [] else [(Fld.d, Role.src w3)])

/-- An integer or floating-point instruction with a register destination (05 R94, R96). -/
def vecShape (tys : List Ty) (wd w1 w2 w3 : Nat) : Shape :=
  { tys := tys, slots := (.a, .dst wd) :: srcSlots w1 w2 w3, cross := true, scal := true }

/-- The combining predicate of `ISETP` and `FSETP`, AUX[5:4] and AUX[3:0] (05 R104). -/
def setpShape (tys : List Ty) (w : Nat) (maxCond : Nat) (x : XForm) : Shape :=
  { tys := tys, slots := (.a, .pout) :: srcSlots w w 0, cross := true, mods := 0xE0#8,
    aux := some (bits x.aux 5 4 != 0 || bits x.aux 3 0 == 0), own := decide (x.fam ≤ maxCond),
    auxRegs := if bits x.aux 5 4 = 0 then [] else [useRd (codeP (bits x.aux 3 0))] }

/-- The predicates whose bits a mask sets. -/
def predUses (mask : Nat) (rd wr : Bool) : List RegUse :=
  ((List.range 16).filter fun i => Nat.testBit mask i).map fun i => ⟨codeP i, rd, wr⟩

/-- The types that `ICVT` and the integer rows of `FCVT` name in AUX[3:0]. -/
def dstTy (x : XForm) : Option Ty := Ty.ofCode (bits x.aux 3 0)

/-- The row of 05 Table 5.7 for a source and a destination type. -/
def fcvtRow (s d : Ty) : Nat :=
  let half := fun t => t == Ty.f16x2 || t == Ty.bf16x2
  let quarter := fun t => t == Ty.e4m3x4 || t == Ty.e5m2x4
  let int := fun t => t == Ty.i32 || t == Ty.ui32 || t == Ty.i64 || t == Ty.ui64
  let flt := fun t => t == Ty.f32 || t == Ty.f64
  if s == .f32 && d == .f64 then 1
  else if s == .f64 && d == .f32 then 2
  else if s == .f32 && half d then 3
  else if s == .f32 && quarter d then 4
  else if half s && quarter d then 5
  else if half s && half d && s != d then 6
  else if half s && d == .f32 then 7
  else if quarter s && d == .f32 then 8
  else if quarter s && half d then 9
  else if flt s && int d then 10
  else if int s && flt d then 11
  else 0

/-- `FCVT` (05 R114): the fields that its row of Table 5.7 uses. -/
def fcvtShape (x : XForm) : Shape :=
  let d := (dstTy x).getD .b32
  let row := fcvtRow x.ty d
  let auxHi := bits x.aux 5 4
  { tys := [.i32, .ui32, .i64, .ui64, .f32, .f64, .f16x2, .bf16x2, .e4m3x4, .e5m2x4],
    slots := (if row = 4 ∨ row = 5 then [(.a, .dstRd)] else [(.a, .dst d.regs)]) ++
      srcSlots x.ty.regs (if row = 3 ∨ row = 4 then 1 else 0) 0,
    mods := if 3 ≤ row ∧ row ≤ 6 then 0x10#8 else 0x07#8,
    rm := !(decide (3 ≤ row ∧ row ≤ 6)),
    aux := some (if row = 8 then true
      else if row = 4 ∨ row = 5 ∨ row = 7 ∨ row = 9 then auxHi ≤ 1 else auxHi == 0),
    own := row != 0, cross := true, scal := true }

/-- The integer family. The source of `PMOV.put` takes every uniform or lane code of a source, also zero, the lane
number and `gw`, which 05 R106 does not list (log entry 78). -/
def intShape (op : Nat) (x : XForm) : Shape :=
  let w := x.ty.regs
  match op with
  | 0x20 => vecShape tyMove w w 0 0
  | 0x21 => { vecShape [.b32, .i64] w 0 0 0 with cross := false, mods := 0x20#8, imm := some true }
  | 0x22 => { vecShape tyMove w w w 0 with
      slots := (.a, .vdst w) :: srcSlots w w 0, aux := some (bits x.aux 5 5 == 0),
      auxRegs := [useRd (codeP (bits x.aux 3 0))] }
  | 0x23 => vecShape tyArith w w w 0
  | 0x24 => vecShape tyArith w w w 0
  | 0x25 => { vecShape [.ui32] 1 1 1 0 with
      slots := (.a, .vdst 1) :: srcSlots 1 1 0, aux := some (bits x.aux 5 4 == 0),
      imm := some (bits x.imm 15 4 == 0), auxRegs := [useRd (codeP (bits x.aux 3 0))],
      immRegs := [useWr (codeP (bits x.imm 3 0))] }
  | 0x26 => vecShape tyInt w w w 0
  | 0x27 => vecShape [.i32, .ui32] 1 1 1 0
  | 0x28 => vecShape tyInt w w w w
  | 0x29 => vecShape tyArith w w w 0
  | 0x2A => vecShape tyArith w w w 0
  | 0x2B => { vecShape [.i32, .i64, .i16x2, .i8x4] w w 0 0 with mods := 0x10#8 }
  | 0x2C => vecShape tyMove w w w 0
  | 0x2D => vecShape tyMove w w w 0
  | 0x2E => vecShape tyMove w w w 0
  | 0x2F => vecShape tyMove w w w 0
  | 0x30 => vecShape tyMove w w 0 0
  | 0x31 => vecShape tyInt w w 1 0
  | 0x32 => vecShape tyInt w w 1 0
  | 0x33 => vecShape tyInt w w 1 0
  | 0x34 => vecShape [.i32, .i64, .i16x2] w w 1 0
  | 0x35 => vecShape tyMove w w 1 0
  | 0x36 => vecShape tyMove 1 w 0 0
  | 0x37 => vecShape tyMove 1 w 0 0
  | 0x38 => vecShape tyMove w w 0 0
  | 0x39 => vecShape [.i32, .ui32] 1 1 1 0
  | 0x3A => vecShape [.b32] 1 1 1 1
  | 0x3B => setpShape tyInt w 5 x
  | 0x3C => { slots := [(.a, .pout), (.b, .pin), (.c, .pin), (.d, .pin)],
              imm := some (bits x.imm 15 8 == 0) }
  | 0x3D => if bits x.mod 5 5 = 0 then
      { slots := [(.a, .vdst 1)], mods := 0x20#8, auxRegs := predUses 0xFFFF true false }
    else
      { slots := [(.b, .src 1)], mods := 0x20#8, imm := some true, cross := true,
        immRegs := predUses x.imm.toNat false true }
  | 0x3E => vecShape [.i32, .ui32, .i16x2, .i8x4] 1 1 1 0
  | 0x3F => vecShape [.i32, .ui32, .i16x2, .i8x4] 1 1 1 0
  | 0x40 => vecShape [.i16x2] 1 1 1 1
  | 0x41 => vecShape [.i8x4] 1 1 1 1
  | 0x42 => { vecShape [.i16x2, .i8x4, .i4x8] 1 1 1 0 with
      mods := 0x30#8, own := bits x.mod 5 5 == 0 || bits x.mod 4 4 == 1 }
  | 0x43 => { vecShape [.i16x2, .i8x4, .i4x8] 1 1 0 0 with
      mods := 0x20#8, aux := some (bits x.aux 5 1 == 0) }
  | _ => { vecShape tyInt ((dstTy x).getD .i32).regs w 0 0 with
      mods := 0x10#8, aux := some (decide (x.aux.toNat < 4)) }

/-! ### The floating-point family (05 R111 to R117) -/

/-- A transcendental: RM and APX, and no approximate `.f64` form (05 R116). -/
def transShape (x : XForm) : Shape :=
  { vecShape [.f32, .f64] x.ty.regs x.ty.regs 0 0 with
    mods := 0x0F#8, rm := true, own := !(x.ty == .f64 && bits x.mod 3 3 == 1), long := true }

/-- The floating-point family. `FCLASS.f64` writes one register, the 32-bit mask of 05 R113, though the list of
exceptions in 05 R94 does not name it (log entry 77). -/
def floatShape (op : Nat) (x : XForm) : Shape :=
  let w := x.ty.regs
  match op with
  | 0x48 => { vecShape tyFloat w w w 0 with mods := 0x07#8, rm := true }
  | 0x49 => { vecShape tyFloat w w w 0 with mods := 0x07#8, rm := true }
  | 0x4A => { vecShape tyFloat w w w 0 with mods := 0x07#8, rm := true }
  | 0x4B => { vecShape tyFloat w w w w with mods := 0x07#8, rm := true }
  | 0x4C => vecShape tyFloat w w w 0
  | 0x4D => vecShape tyFloat w w w 0
  | 0x4E => setpShape [.f32, .f64] w 7 x
  | 0x4F => vecShape [.f32, .f64] 1 w 0 0
  | 0x50 => { vecShape tyFloat w w 0 0 with mods := 0x07#8, rm := true }
  | 0x51 => fcvtShape x
  | 0x52 => { vecShape [.f32, .f64] w w w 0 with mods := 0x07#8, rm := true, long := true }
  | 0x53 => { vecShape [.f32, .f64] w w 0 0 with mods := 0x07#8, rm := true, long := true }
  | 0x5B => { vecShape [.f32, .f64] w w 1 0 with mods := 0x07#8, rm := true }
  | _ => transShape x

/-! ### The cross-lane family (05 R118 to R130) -/

/-- The modifier fields where the entry gives XM and XK no use: XF alone selects the fill, and IMM16
is its value only with XF = 2 (03 R54). -/
def fillImm (x : XForm) : Bool := x.fill == .imm || x.imm == 0#16

/-- The step or index in C under `.r`: an `s` register, a literal or zero (05 R118). -/
def stepSlots (x : XForm) : List (Fld × Role) :=
  if bits x.aux 0 0 = 1 then [(.c, .uni 1)] else []

/-- `XRED` and `XSCAN` (05 R123, R124). -/
def redShape (x : XForm) : Shape :=
  let w := x.ty.regs
  let flt := x.ty == .f32 || x.ty == .f64
  { tys := [.i32, .ui32, .i64, .ui64, .f32, .f64],
    slots := [(.a, .vdst w), (.b, .src w)] ++ stepSlots x,
    mods := if flt && x.fam == 0 then 0xE7#8 else 0xE0#8, rm := flt && x.fam == 0,
    aux := some (decide (x.aux.toNat ≤ 1)), imm := some (fillImm x), xfam := true,
    own := decide (x.fam ≤ (if flt then 2 else 5)) && x.xm == .own &&
      (if bits x.aux 0 0 = 1 then x.xk == 0#5 else decide (x.xk.toNat ≤ 4)) }

/-- An operand with one value for the group: no `v` register and no lane number (03 R46). -/
def Opnd.isUniform : Opnd → Bool
  | .v _ => false
  | .lane => false
  | _ => true

/-- The cross-lane family. The index of `XSHF` takes every code of a source, also zero, the lane number and `gw`,
which 05 R119 does not list (log entry 79). -/
def crossShape (op : Nat) (x : XForm) : Shape :=
  let w := x.ty.regs
  match op with
  | 0x60 => { tys := tyMove, slots := [(.a, .vdst w), (.b, .src w), (.c, .src 1)],
              imm := some (fillImm x), xfam := true, own := x.xm == .own && x.xk == 0#5 }
  | 0x61 => { tys := tyMove, slots := [(.a, .vdst w), (.b, .src w)] ++ stepSlots x,
              aux := some (decide (x.aux.toNat ≤ 1)), imm := some (fillImm x), xfam := true,
              own := x.xm != .own && (if bits x.aux 0 0 = 1 then x.xk == 0#5
                else !((x.xm == .wsld || x.xm == .wxor) && decide (x.xk.toNat > 5))) }
  | 0x62 => { tys := tyMove, slots := [(.a, .vdst w), (.b, .src w), (.c, .src w)],
              imm := some (fillImm x), xfam := true,
              own := x.xm == .own && decide (x.xk.toNat ≤ 4) }
  | 0x63 => { tys := tyMove,
              slots := [(.a, .dst w), (.b, .src w)] ++
                (if bits x.mod 5 5 = 1 then [] else [(.c, .src 1)]),
              mods := 0x20#8, imm := some (fillImm x), xfam := true,
              own := x.xm == .own && x.xk == 0#5 && x.c.isUniform &&
                !(x.fill == .own && (match x.a with | .s _ => true | _ => false)) }
  | 0x64 => redShape x
  | 0x65 => redShape x
  | 0x66 => { slots := [(.a, if x.fam = 3 then .dst 1 else .pout)], mods := 0xE0#8,
              aux := some (bits x.aux 5 5 == 0), own := decide (x.fam ≤ 3),
              auxRegs := [useRd (codeP (bits x.aux 3 0))] }
  | 0x67 => { slots := [(.a, if x.fam = 2 then .vdst 1 else .dst 1)], mods := 0xE0#8,
              aux := some (bits x.aux 5 5 == 0), own := decide (x.fam ≤ 3),
              auxRegs := [useRd (codeP (bits x.aux 3 0))] }
  | 0x68 => { slots := [(.b, .uni 1)], aux := some true, imm := some true,
              own := match x.b with
                | .s _ => true
                | .zero => true
                | _ => false }
  | _ => { slots := [(.a, .vout (bits x.imm 3 0) 1), (.b, .vec (bits x.imm 3 0) 1)],
           aux := some true,
           imm := some (x.imm == 1#16 || x.imm == 2#16 || x.imm == 4#16 || x.imm == 8#16),
           xfam := true, own := x.xm == .own && x.fill == .zero, long := true }

/-! ### The control family (12 R297 to R306) -/

def controlShape (op : Nat) (x : XForm) : Shape :=
  match op with
  | 0x02 => { slots := [(.b, .pair)], imm := some (bits x.imm 15 12 == 0) }
  | 0x04 => { slots := [(.b, .pair)], imm := some (bits x.imm 15 12 == 0) }
  | 0x07 => { slots := if bits x.mod 5 5 = 1 then [] else [(.b, .uni 1)], mods := 0x20#8,
              aux := some (decide (x.aux.toNat < 8)), auxRegs := [useWr (codeK x.aux.toNat)] }
  | 0x08 => { aux := some (decide (x.aux.toNat < 8)), imm := some (bits x.imm 15 12 == 0),
              auxRegs := [useRd (codeK x.aux.toNat)] }
  | 0x09 => { slots := [(.b, .uni 1)], aux := some (decide (x.aux.toNat < 3)),
              imm := some (decide (1 ≤ x.imm.toNat ∧ x.imm.toNat ≤ 1024)),
              auxRegs := [useWr (codeLc x.aux.toNat)] }
  | 0x0C => { slots := [(.b, .uni 2)], mods := 0x20#8 }
  | 0x0D => { imm := some (decide (bits x.imm 7 0 ≤ 192 ∧ bits x.imm 13 8 ≤ 48) &&
                bits x.imm 15 14 == 0) }
  | _ => {}

/-! ### Barriers and completion objects (09 R222 to R227) -/

/-- A scratchpad selector in AUX (09 R205): own, or a sibling by its index. -/
def selAux (x : XForm) : Option Bool :=
  some (bits x.aux 4 4 == 0 && (bits x.aux 5 5 == 1 || x.aux == 0#6))

def barrierShape (op : Nat) (x : XForm) : Shape :=
  match op with
  | 0x10 => { slots := [(.b, .uni 1)], mods := 0x60#8, imm := some true }
  | 0x11 => { slots := [(.b, .uni 1)], mods := 0x20#8, imm := some true }
  | 0x12 => { slots := [(.b, .uni 1)], mods := 0x40#8, imm := some true }
  | 0x13 => { slots := [(.b, .uni 1), (.c, .uni 1)], imm := some true }
  | 0x15 => { slots := [(.b, .uni 1), (.c, .uni 1)], imm := some true }
  | 0x16 => { slots := [(.b, .uni 1), (.c, .uni 1)], mods := 0x20#8, aux := selAux x, imm := some true }
  | 0x17 => { slots := [(.b, .uni 1), (.c, .uni 1)], mods := 0x40#8, imm := some true }
  | 0x18 => { slots := [(.a, .pout), (.b, .uni 1), (.c, .uni 1)], imm := some true }
  | _ => {}

/-! ### The matrix family (06 R134 to R151) -/

/-- Two ranges of registers overlap. -/
def overlap (a n b m : Nat) : Bool := decide (a < b + m) && decide (b < a + n)

/-- A destination range overlaps a source range without being the same range (06 R137). -/
def clash (a n b m : Nat) : Bool := overlap a n b m && !(a == b && n == m)

/-- Elements along K (06 Table 6.1). -/
def kSize : Ty → Nat
  | .f64 => 8
  | .f32 => 16
  | .f16x2 => 32
  | .bf16x2 => 32
  | .i16x2 => 32
  | .i4x => 128
  | .i4x8 => 128
  | _ => 64

/-- A scale pair named by a number: an even `v` register (06 R137). -/
def pairOk (r : Nat) : Bool := fits r 2 2 192

/-- `MMA`, `MMAS`, `MMAI` (06 Tables 6.3, 6.4). -/
def mulShape (tys : List Ty) (scaled : Bool) (x : XForm) : Shape :=
  let nd := if x.ty == .f64 then 64 else 32
  let al := if x.ty == .f64 then 2 else 1
  let sa := bits x.imm 7 0
  let sb := bits x.imm 15 8
  let nb := kSize x.ty / 16
  let a := x.a.num
  { tys := tys, slots := [(.a, .vout nd al), (.b, .vec 16 al), (.c, .vec 16 al), (.d, .vecZ nd al)],
    mods := if scaled then 0x08#8 else 0#8, long := true,
    aux := if scaled then some (decide (bits x.aux 2 0 + nb ≤ 8) && decide (bits x.aux 5 3 + nb ≤ 8))
      else none,
    imm := if scaled then some (pairOk sa && pairOk sb) else none,
    immRegs := if scaled then [sa, sa + 1, sb, sb + 1].map useRd else [],
    own := x.lit.isNone && !overlap a nd x.b.num 16 && !overlap a nd x.c.num 16 &&
      (x.d == .zero || !clash a nd x.d.num nd) &&
      !(scaled && (overlap a nd sa 2 || overlap a nd sb 2)) }

/-- Registers of one quantised block. -/
def quantRegs (ty : Ty) : Nat := if ty == .i4x then 2 else 4

/-- The scale register that a byte position names. -/
def scaleReg (x : XForm) : Nat := x.c.num + (if bits x.aux 2 0 < 4 then 0 else 1)

/-- The matrix family. Of the scale pair of `QNT` only the register that it writes may not overlap its source: 06 R137
does not say whether the other counts (log entry 82). -/
def matrixShape (op : Nat) (x : XForm) : Shape :=
  let a := x.a.num
  let b := x.b.num
  match op with
  | 0x70 => { tys := [.f32, .i32, .f64], long := true, own := x.lit.isNone,
              slots := [(.a, if x.ty == .f64 then .vout 64 2 else .vout 32 1)] }
  | 0x71 => mulShape [.f64, .f32, .f16x2, .bf16x2] false x
  | 0x72 => mulShape [.e4m3x4, .e5m2x4, .i8x4, .i4x] true x
  | 0x73 => mulShape [.i16x2, .i8x4, .i4x8] false x
  | 0x74 => { tys := [.f32, .f16x2, .bf16x2, .e4m3x4, .e5m2x4, .i16x2, .i8x4], long := true,
              slots := [(.a, .vout 16 1), (.b, .vec 16 1)],
              mods := if x.ty == .f32 || x.ty == .i16x2 || x.ty == .i8x4 then 0x60#8 else 0x70#8,
              own := x.lit.isNone && decide (bits x.mod 6 5 ≤ 2) &&
                decide (2 ^ (4 + bits x.mod 6 5) ≤ kSize x.ty) && !clash a 16 b 16 }
  | 0x75 => { tys := [.e4m3x4, .e5m2x4, .i8x4, .i4x], long := true,
              slots := [(.a, .vout (quantRegs x.ty) 1), (.b, .vec 16 1), (.c, .vec 2 2)],
              mods := if x.ty == .i4x then 0x20#8 else 0#8, aux := some (bits x.aux 5 3 == 0),
              auxRegs := [⟨scaleReg x, true, true⟩],
              own := x.lit.isNone && !overlap a (quantRegs x.ty) b 16 &&
                !overlap a (quantRegs x.ty) x.c.num 2 && !overlap (scaleReg x) 1 b 16 }
  | 0x76 => { tys := [.e4m3x4, .e5m2x4, .i8x4, .i4x], long := true,
              slots := [(.a, .vout 16 1), (.b, .vec (quantRegs x.ty) 1), (.c, .vec 2 2)],
              aux := some (bits x.aux 5 3 == 0),
              own := x.lit.isNone && !overlap a 16 b (quantRegs x.ty) && !overlap a 16 x.c.num 2 }
  | _ =>
    let n := if x.ty == .b32 then 32 else if x.ty == .i16x2 then 16 else 8
    { tys := [.b32, .i16x2, .i8x4], long := true, slots := [(.a, .vout n 1), (.b, .vec n 1)],
      own := x.lit.isNone && !clash a n b n }

/-! ### The memory family (09 R201 to R221; 13 R341) -/

/-- Registers of an access size (09 Table 9.4). -/
def memRegs (x : XForm) : Nat :=
  match x.fam with
  | 0 => x.ty.regs
  | 5 => 4
  | 6 => 16
  | _ => 1

/-- A size code is legal (09 R206): for a store, and in a scratchpad access. -/
def sizeOk (x : XForm) (store scr : Bool) : Bool :=
  (x.fam == 0 || x.ty == .b32) && x.fam != 7 && (x.fam != 6 || scr) &&
    !(store && (x.fam == 2 || x.fam == 4))

/-- The record that AUX[4:0] names; AUX[5] is zero. -/
def recAux (x : XForm) : Option Bool := some (bits x.aux 5 5 == 0)
def auxRec (x : XForm) : Nat := bits x.aux 4 0
def immRec (x : XForm) : Nat := bits x.imm 4 0

/-- The destination of a load. -/
def loadRole (n : Nat) : Role := .vout n (if n = 2 then 2 else 1)

/-- The data of a store: up to a pair any source, else a range of registers or zero. -/
def dataRole (o : Opnd) (n : Nat) : Role :=
  if n ≤ 2 then .src n else if o.isS then .sreg n 1 else .vecZ n 1

/-- An access through a record: index B, row C. -/
def recShape (a : List (Fld × Role)) (x : XForm) (ok : Bool) : Shape :=
  { tys := tyMove, slots := a ++ [(.b, .src 1), (.c, .src 1)], mods := 0xE0#8, aux := recAux x,
    imm := some true, own := ok, auxRegs := [useRd (codeB (auxRec x))] }

/-- The types and operations of atomics (09 Table 9.5). -/
def atomOk (x : XForm) (upd : Bool) : Bool :=
  (x.ty != .f32 || x.fam ≤ 2 || x.fam ≥ 6) && (!upd || (decide (x.fam ≤ 5) && (x.ty != .f32 || x.fam == 0)))

def tyAtom : List Ty := [.i32, .ui32, .i64, .ui64, .f32]

def atomSlots (x : XForm) : List (Fld × Role) :=
  let w := x.ty.regs
  [(.b, .src 1), (.c, .src w)] ++ (if x.fam = 7 then [(.d, .src w)] else [])

def memoryShape (op : Nat) (x : XForm) : Shape :=
  let n := memRegs x
  match op with
  | 0x80 => { recShape [(.a, loadRole n)] x (sizeOk x false false) with long := true }
  | 0x81 => recShape [(.a, dataRole x.a n)] x (sizeOk x true false)
  | 0x82 => { tys := tyMove, slots := [(.a, loadRole n), (.b, .src 1)], mods := 0xE0#8, aux := selAux x,
              imm := some true, own := sizeOk x false true, long := true }
  | 0x83 => { tys := tyMove, slots := [(.a, dataRole x.a n), (.b, .src 1)], mods := 0xE0#8,
              aux := selAux x, imm := some true, own := sizeOk x true true }
  | 0x84 => { recShape [] x (sizeOk x false false) with
              slots := [(.a, .sout n (if n = 1 then 1 else 2)), (.b, .uni 1), (.c, .uni 1)], long := true }
  | 0x85 => { recShape [] x (atomOk x false) with
              tys := tyAtom, slots := (.a, .dst x.ty.regs) :: atomSlots x, long := true }
  | 0x86 => { recShape [] x (atomOk x true) with tys := tyAtom, slots := atomSlots x }
  | 0x87 => { tys := tyAtom, slots := (.a, .dst x.ty.regs) :: atomSlots x, mods := 0xE0#8,
              aux := selAux x, imm := some true, own := atomOk x false, long := true }
  | 0x88 => { tys := [.f32], slots := [(.a, .vout 4 1), (.b, .vec 1 1), (.c, .vec 1 1)], mods := 0x60#8,
              aux := recAux x, auxRegs := [useRd (codeB (auxRec x))], long := true }
  | 0x89 => { slots := [(.b, .uni 1)], aux := recAux x, imm := some true,
              auxRegs := [useWr (codeB (auxRec x))], long := true }
  | 0x8A => { slots := [(.a, .uni 1), (.b, .uni 1), (.c, .uni 1), (.d, .uni 1)], aux := recAux x,
              imm := some (bits x.imm 15 8 == 0), auxRegs := [useWr (codeB (auxRec x))],
              immRegs := [useRd (codeB (immRec x))] }
  | 0x8C => { mods := 0xE0#8, own := decide (x.fam ≤ 5) }
  | 0x8D => { tys := [.b32], slots := [(.b, .src 1), (.c, .src 1)], mods := 0x20#8, aux := recAux x,
              imm := some true, auxRegs := [useRd (codeB (auxRec x))] }
  | _ => {}

/-! ### The refinement family (07 R166 to R170) -/

def refineShape (op : Nat) (x : XForm) : Shape :=
  match op with
  | 0x78 => { slots := [(.a, .sdst), (.b, .uni 1)], imm := some true, long := true,
              own := x.lit.isNone && x.la == 0#4 }
  | 0x79 => { tys := [.f32, .f64], slots := [(.b, .vec x.ty.regs x.ty.regs)], long := true,
              own := x.lit.isNone }
  | 0x7A => { long := true, own := x.lit.isNone }
  | 0x7B => { slots := [(.b, .uniLo)], long := true, own := x.lit.isNone || x.b == .litLo }
  | _ => {}

/-! ### Copies (09 R229 to R233) -/

/-- `TCP`, `TST`, `TCPG` (09 Table 9.10b). -/
def tensorShape (gather : Bool) (x : XForm) : Shape :=
  { slots := [(.a, .uni 1), (.b, .uni 1), (.c, .sreg 1 1)] ++
      (if x.mod.getLsbD 6 then [] else [(.d, .uni 1)]),
    mods := 0x60#8, aux := recAux x, long := true,
    imm := some (if gather then bits x.imm 15 13 == 0 && decide (bits x.imm 12 5 < 192)
      else bits x.imm 15 5 == 0),
    auxRegs := [useRd (codeB (auxRec x))],
    immRegs := useRd (codeB (immRec x)) :: (if gather then [useRd (bits x.imm 12 5)] else []) }

/-- `RPUT` and `RGET` (11 Table 11.1): the count is a register or a literal. -/
def remoteShape (x : XForm) : Shape :=
  { slots := [(.a, .uni 1), (.b, .uni 1), (.c, .uni 1)] ++
      (if x.mod.getLsbD 6 then [] else [(.d, .uni 1)]),
    mods := 0x60#8, aux := recAux x, imm := some (bits x.imm 15 5 == 0), long := true,
    own := x.c != .zero, auxRegs := [useRd (codeB (auxRec x))], immRegs := [useRd (codeB (immRec x))] }

/-- The asynchronous family. The tag counter of an `ACP` is no destination that a lookahead window covers: 03 R56 does
not say (log entry 75). -/
def asyncShape (op : Nat) (x : XForm) : Shape :=
  match op with
  | 0x90 => { slots := [(.a, .src 1), (.b, .src 1), (.d, .src 1)] ++
                (if x.mod.getLsbD 5 then [] else [(.c, .src 1)]),
              mods := 0x20#8, aux := recAux x, imm := some (bits x.imm 15 3 == 0), long := true,
              own := x.a.code.isSome, auxRegs := [useRd (codeB (auxRec x))] }
  | 0x91 => { imm := some (bits x.imm 15 3 == 0), long := true }
  | 0x92 => tensorShape false x
  | 0x93 => tensorShape false x
  | 0x94 => tensorShape true x
  | 0x95 => { slots := [(.a, .sout 1 1), (.b, .sreg 3 1), (.c, .sreg 4 1)] ++
                (if bits x.imm 12 9 = 0 then [] else [(.d, .sreg (bits x.imm 12 9) 1)]),
              imm := some (bits x.imm 15 13 == 0 && decide (bits x.imm 12 9 ≤ 8)), long := true,
              own := x.lit.isNone, immRegs := [useRd (codeB (immRec x))] }
  | 0x96 => remoteShape x
  | 0x97 => remoteShape x
  | 0x98 => { slots := [(.b, .uni 1), (.c, .uni 1), (.d, .uni 1)], imm := some (bits x.imm 15 5 == 0),
              long := true, immRegs := [useRd (codeB (immRec x))] }
  | 0x99 => { slots := [(.a, .sout 1 1), (.b, .uni 1)], aux := recAux x, long := true,
              imm := some (bits x.imm 15 10 == 0), auxRegs := [useRd (codeB (auxRec x))],
              immRegs := [useRd (codeB (immRec x)), useRd (codeB (bits x.imm 9 5))] }
  | _ => {}

/-! ### The strip family (13 Table 13.7) -/

/-- A plain register, no literal or special code. -/
def Opnd.isReg (o : Opnd) : Bool := o.code.isSome

def stripShape (op : Nat) (x : XForm) : Shape :=
  let n := memRegs x
  match op with
  | 0xA0 => { slots := [(.a, .vout 1 1), (.b, .sreg 9 1), (.c, .src 1), (.d, .src 1)],
              aux := some (bits x.aux 5 4 == 0 &&
                (if x.aux.getLsbD 3 then bits x.aux 2 0 == 0 else decide (bits x.aux 2 0 ≤ 4))),
              own := x.c.isReg && x.d.isReg }
  | 0xA1 => { slots := [(.a, .sdst)], aux := recAux x, auxRegs := [useRd (codeB (auxRec x))] }
  | 0xA2 => recShape [(.a, dataRole x.a n)] x (sizeOk x true false)
  | 0xA3 => { recShape [(.a, loadRole n)] x (sizeOk x false false) with long := true }
  | 0xA4 => { mods := 0x60#8, aux := recAux x, own := bits x.mod 6 5 != 2,
              auxRegs := [useRd (codeB (auxRec x))] }
  | 0xA5 => { slots := [(.a, .dst 1)], aux := some (decide (x.aux.toNat < 7)), own := x.a != .zero }
  | 0xA6 => { slots := [(.b, .uni 1)], mods := 0x20#8, own := x.b != .zero }
  | _ => {}

/-! ### The system family (05 R131; 14 R356, R358; 15 R375) -/

/-- Special registers (02 Table 2.4). -/
def spKnown (n : Nat) : Bool :=
  [0x00, 0x01, 0x02, 0x03, 0x04, 0x05, 0x06, 0x07, 0x08, 0x09, 0x10, 0x11, 0x12, 0x20, 0x21, 0x22, 0x30, 0x31,
    0x32, 0x33, 0x34, 0x35, 0x40, 0x41].contains n
def spPerLane (n : Nat) : Bool := n == 0x01 || n == 0x03
def spWritable (n : Nat) : Bool := [0x20, 0x21, 0x22, 0x41].contains n

/-- A literal or a register where an entry names the literal code it takes. -/
def litOrS (o : Opnd) (lit : Opnd) : Bool := o.isS || o == lit

/-- LEN is 11 only where B is code 0xF1 (15 R375). -/
def litUsed (x : XForm) : Bool := x.lit.isNone || x.b == .litLo

def systemShape (op : Nat) (x : XForm) : Shape :=
  let all := x.mod.getLsbD 7
  match op with
  | 0xB0 => { slots := [(.a, .dst 1)], own := litUsed x,
              imm := some (spKnown x.imm.toNat && !(spPerLane x.imm.toNat && x.a.isS)) }
  | 0xB1 => { slots := [(.b, .uniLo)], own := litUsed x, imm := some (spWritable x.imm.toNat) }
  | 0xB2 => { tys := [.b32, .ui64], slots := [(.a, .dst x.ty.regs)] }
  | 0xB3 => { slots := [(.b, .uniLo)], own := litUsed x, imm := some (x.b == .zero || x.imm == 0#16) }
  | 0xB4 => { mods := 0x20#8, own := litUsed x }
  | 0xB5 => { imm := some true, own := litUsed x }
  | 0xB6 => { slots := [(.a, .sdst), (.b, .uniLo)], own := litUsed x, aux := recAux x, auxRegs := [useRd (codeB (auxRec x))] }
  | 0xB7 => { slots := [(.a, .sdst), (.b, .uniLo)], own := litUsed x, aux := recAux x, auxRegs := [useRd (codeB (auxRec x))] }
  | 0xB8 => { slots := (if all then [] else [(.b, .uni 2), (.c, .uni 1)]) ++
                (if x.mod.getLsbD 6 then [(.d, .sreg 1 1)] else []),
              mods := 0xE0#8,
              own := all || (litOrS x.b .lit64 && litOrS x.c .litLo && !(x.b == .lit64 && x.c == .litLo)) }
  | 0xB9 => { slots := (.a, .sdst) :: (if x.aux = 0#6 then [] else [(.b, .sreg x.aux.toNat 1)]),
              aux := some (decide (x.aux.toNat ≤ 8)), imm := some true }
  | _ => {}

/-- The description of the instruction with a major opcode. -/
def shapeOf (op : Nat) (x : XForm) : Shape :=
  if op < 0x10 then controlShape op x
  else if op < 0x20 then barrierShape op x
  else if op < 0x48 then intShape op x
  else if op < 0x60 then floatShape op x
  else if op < 0x70 then crossShape op x
  else if op < 0x78 then matrixShape op x
  else if op < 0x80 then refineShape op x
  else if op < 0x90 then memoryShape op x
  else if op < 0xA0 then asyncShape op x
  else if op < 0xB0 then stripShape op x
  else systemShape op x

end Sys2Proof
end

