-- ==== Sys2Proof/Machine/Ops.lean ====
section
/-! DEFINITION. The named operations over the state: reading and writing every kind of register, the
frontier, and TAKING AN EXCEPTION (15 R368 to R374) with the return from it (15 R379). -/

namespace Sys2Proof.Machine

open Sys2Proof

/-! ### Registers (02 Tables 2.3, 2.4; poison marks 15 R389) -/

def Group.vreg (g : Group) (r l : Nat) : Word := Sp.get 0#32 g.v (32 * r + l)
def Group.vPoison (g : Group) (r l : Nat) : Bool := Sp.get false g.vBad (32 * r + l)
/-- Writing a register clears its mark (15 R389). -/
def Group.setV (g : Group) (r l : Nat) (x : Word) : Group :=
  { g with v := Sp.set 0#32 g.v (32 * r + l) x, vBad := Sp.set false g.vBad (32 * r + l) false }
def Group.markV (g : Group) (r l : Nat) : Group :=
  { g with vBad := Sp.set false g.vBad (32 * r + l) true }

def Group.sreg (g : Group) (r : Nat) : Word := Sp.get 0#32 g.s r
def Group.sPoison (g : Group) (r : Nat) : Bool := Sp.get false g.sBad r
def Group.setS (g : Group) (r : Nat) (x : Word) : Group :=
  { g with s := Sp.set 0#32 g.s r x, sBad := Sp.set false g.sBad r false }
def Group.markS (g : Group) (r : Nat) : Group := { g with sBad := Sp.set false g.sBad r true }

def Group.preg (g : Group) (n : Nat) : Mask := Sp.get 0#32 g.p n
def Group.setP (g : Group) (n : Nat) (m : Mask) : Group := { g with p := Sp.set 0#32 g.p n m }
/-- Write a predicate in the lanes of a mask only. -/
def Group.setPIn (g : Group) (n : Nat) (lanesW val : Mask) : Group :=
  g.setP n ((g.preg n &&& ~~~lanesW) ||| (val &&& lanesW))

def Group.breg (g : Group) (n : Nat) : Rec := Sp.get nullRec g.b n
def Group.setB (g : Group) (n : Nat) (x : Rec) : Group := { g with b := Sp.set nullRec g.b n x }
def Group.lcreg (g : Group) (n : Nat) : Word := Sp.get 0#32 g.lc n
def Group.setLc (g : Group) (n : Nat) (x : Word) : Group := { g with lc := Sp.set 0#32 g.lc n x }
def Group.kreg (g : Group) (n : Nat) : Mask := Sp.get 0#32 g.k n
def Group.setK (g : Group) (n : Nat) (x : Mask) : Group := { g with k := Sp.set 0#32 g.k n x }
def Group.treg (g : Group) (n : Nat) : BitVec 16 := Sp.get 0#16 g.t n
def Group.setT (g : Group) (n : Nat) (x : BitVec 16) : Group := { g with t := Sp.set 0#16 g.t n x }

/-- Set sticky flags (02 R35). -/
def Group.raiseFlags (g : Group) (f : Flags) : Group :=
  { g with flg := (g.flg ||| f.setWidth 32) &&& flgMask }

/-- Write a 32-bit or 64-bit value to a destination in one lane; a scalar is written once per call,
and code 0xF0 discards (03 Table 3.4). -/
def Group.writeDst (g : Group) (o : Opnd) (w l : Nat) (x : Nat) : Group :=
  match o with
  | .v r =>
    let g := g.setV r.val l (BitVec.ofNat 32 x)
    if w = 2 then g.setV (r.val + 1) l (BitVec.ofNat 32 (x >>> 32)) else g
  | .s r =>
    let g := g.setS r.val (BitVec.ofNat 32 x)
    if w = 2 then g.setS (r.val + 1) (BitVec.ofNat 32 (x >>> 32)) else g
  | _ => g

/-- Mark a destination poisoned (15 R389). -/
def Group.markDst (g : Group) (o : Opnd) (w l : Nat) : Group :=
  match o with
  | .v r =>
    let g := g.markV r.val l
    if w = 2 then g.markV (r.val + 1) l else g
  | .s r =>
    let g := g.markS r.val
    if w = 2 then g.markS (r.val + 1) else g
  | _ => g

/-! ### The frontier (02 R23, R24) -/

/-- Priority, highest first, then PC, lowest first. -/
def Entry.before (a b : Entry) : Bool :=
  decide (b.prio.toNat < a.prio.toNat) || (a.prio == b.prio && decide (a.pc.toNat < b.pc.toNat))

/-- Insert an entry in its sorted place, joining it with one of the same PC, priority and mode. -/
def insertEntry (e : Entry) : List Entry → List Entry
  | [] => [e]
  | f :: r =>
    if e.pc = f.pc ∧ e.prio = f.prio ∧ e.trap = f.trap then
      { f with mask := f.mask ||| e.mask } :: r
    else if e.before f then e :: f :: r
    else f :: insertEntry e r

/-- Lanes join the frontier; no mask is empty. -/
def Group.addLanes (g : Group) (pc : VAddr) (prio : Prio) (mask : Mask) (trap : Bool) : Group :=
  if mask = 0#32 then g
  else { g with frontier := insertEntry ⟨pc, prio, mask, trap, 0⟩ g.frontier }

/-- Lanes reach a position: those whose innermost loop ends there park at its tail (12 R303); `from_`
is the PC of the instruction they issued last. -/
def Group.arrive (g : Group) (pc : VAddr) (prio : Prio) (mask : Mask) (trap : Bool)
    (from_ : VAddr) : Group :=
  -- each loop takes the lanes whose innermost loop it is, innermost first
  let r := g.loops.foldl (fun (acc : List LoopCtx × Mask × Mask) c =>
    let mine := acc.2.1 &&& c.set
    let park := if c.stop = pc then mine else 0#32
    let inTrap := if trap then c.trapTail ||| park else c.trapTail
    (acc.1 ++ [if park = 0#32 then c
        else { c with tail := c.tail ||| park, trapTail := inTrap, tailPc := from_ }],
      acc.2.1 &&& ~~~mine, acc.2.2 ||| park)) ([], mask, 0#32)
  ({ g with loops := r.1 }).addLanes pc prio (mask &&& ~~~r.2.2) trap

/-- Lanes leave the frontier. -/
def Group.dropLanes (g : Group) (mask : Mask) : Group :=
  { g with frontier := (g.frontier.map fun e => { e with mask := e.mask &&& ~~~mask }).filter (fun e => e.mask != 0#32) }

/-- Union of masks. -/
def orMasks {α : Type} (f : α → Mask) (l : List α) : Mask := l.foldl (fun m a => m ||| f a) 0#32

def Group.frontierMask (g : Group) : Mask := orMasks (·.mask) g.frontier

/-- Lanes in trap mode (15 R373): those of trap-mode entries, those of them in the fault queue, and those
at the tail of a loop of the handler. -/
def Group.trapMask (g : Group) : Mask :=
  orMasks (·.mask) (g.frontier.filter (·.trap)) ||| orMasks (·.mask) (g.recov.filter (·.trap)) |||
    orMasks (·.trapTail) g.loops

/-- Lanes that have left the frontier and will come back. -/
def Group.parkedMask (g : Group) : Mask :=
  orMasks (fun c => c.mask &&& ~~~c.away) g.conv ||| orMasks (fun c => c.mask &&& ~~~c.away &&& ~~~g.rlIn) g.rl |||
    orMasks (fun c => c.tail &&& ~~~c.away) g.loops ||| orMasks (·.frec.mask) g.subs |||
    orMasks (·.mask) g.recov

/-- Lanes that have not exited or been killed. -/
def Group.alive (g : Group) : Mask := g.frontierMask ||| g.parkedMask

/-- The entry passed over longest, ties to the lowest PC, among those passed over 512 times (12 R290). -/
def promoted (l : List Entry) : Option Entry :=
  l.foldl (fun best e =>
    if e.passed < 512 then best
    else match best with
      | none => some e
      | some b =>
        if b.passed < e.passed ∨ (b.passed = e.passed ∧ e.pc.toNat < b.pc.toNat) then some e
        else best) none

/-- The entry a group issues: in trap mode only a trap-mode entry (15 R373), else a promoted entry
(12 R290), else the head. -/
def Group.issueEntry (g : Group) : Option Entry :=
  if g.trap.isSome then (g.frontier.filter (·.trap)).head?
  else match g.promote with
    | some p => match g.frontier.find? fun e => !e.trap && e.pc == p.1 && e.prio == p.2 with
      | some e => some e
      | none => g.frontier.head?
    | none => g.frontier.head?

/-- The wait or park that holds what the group would issue now. -/
def Group.curWait (g : Group) : Option Wait := if g.trap.isSome then g.tWait else g.wait
def Group.curPark (g : Group) : Option Park := if g.trap.isSome then g.tPark else g.park

/-- Hold the group on a wait. -/
def Group.setWait (g : Group) (w : Option Wait) : Group :=
  if g.trap.isSome then { g with tWait := w } else { g with wait := w }

/-- Park the group so that its instruction issues again. -/
def Group.setPark (g : Group) (p : Option Park) : Group :=
  if g.trap.isSome then { g with tPark := p } else { g with park := p }

/-- Where a wait begins: time, PC, OP, the place after it and its priority. A wait in trap mode leaves what is kept of
the wait that it interrupts (12 R420). -/
def Group.waitsAt (g : Group) (t : BitVec 64) (pc : VAddr) (op : BitVec 8) (next : VAddr) (prio : Prio) : Group :=
  if g.trap.isSome then g
  else { g with waitFrom := t, waitPc := pc, waitOp := op, waitNext := next, waitPrio := prio }

/-- A group returns its lantern when it parks on anything but a lantern, exits, is vacated or enters
a trap handler (12 R293). -/
def Group.dropLantern (g : Group) : Group := { g with lantern := false, lanternIdle := 0 }

/-! ### Taking an exception (15 R368 to R374) -/

/-- The slot number that places a group's fault area (15 R371). -/
def faultSlot (t : Team) (g : Group) : Nat := if g.gid < 32 then g.gid else t.ngroups + (g.gid - 32)

/-- FA: the offset at which the fault areas of a team begin (15 R371). -/
def faultBase (t : Team) : Nat := roundUp t.ssize 1024

/-- The 32 bytes of a record (15 Table 15.2). -/
def FaultRec.bytes (r : FaultRec) : List Byte :=
  let cause := r.cause.toNat + (if r.mixed then 0x100 else 0) + (if r.async then 0x200 else 0) +
    (if r.done then 0x400 else 0) + r.op.toNat * 0x10000
  toBytes 4 cause ++ toBytes 4 r.mask.toNat ++ toBytes 8 r.pc.toNat ++ toBytes 8 r.vline.toNat ++
    toBytes 2 r.prio.toNat ++
    toBytes 1 (match r.recIdx with | some x => x.toNat + 0x20 | none => 0) ++ toBytes 1 0 ++
    toBytes 4 r.aux.toNat

/-- Offset of a record within the fault areas: 32 times its lowest lane within the slot's area. -/
def recordOff (t : Team) (g : Group) (m : Mask) : Nat := 1024 * faultSlot t g + 32 * lowestLane m

/-- The scratchpad byte offset that `%FAULT` reads (02 R32, R34; 15 R371). -/
def faultOffset (t : Team) (g : Group) : Word :=
  match g.trap with
  | some u => BitVec.ofNat 32 (faultBase t + recordOff t g u.frec.mask)
  | none => 0xFFFFFFFF#32

/-- The device writes a record (15 R371). -/
def State.writeRecord (s : State) (n : Nat) (r : FaultRec) : State :=
  let g := s.grp n
  s.modTeam g.team fun t =>
    let q := clearFill t.areaFilled 1024 t.faultArea (recordOff t g r.mask) r.bytes
    { t with faultArea := q.1, areaFilled := q.2 }

/-- Bytes of the fault areas. -/
def Team.areaBytes (t : Team) (off n : Nat) : List Byte := clearRead t.areaFilled 1024 t.faultArea off n

/-- A lane that leaves: its parks, its stack, its windows. -/
def Group.removeLanes (g : Group) (m : Mask) : Group :=
  let keep := fun (x : Mask) => x &&& ~~~m
  let ls := maskLanes m
  { g.dropLanes m with
    conv := (g.conv.map fun c => { c with mask := keep c.mask, away := keep c.away }).filter (fun c => c.mask != 0#32)
    rl := (g.rl.map fun c => { c with mask := keep c.mask, away := keep c.away }).filter (fun c => c.mask != 0#32)
    loops := g.loops.map fun c =>
      { c with set := keep c.set, tail := keep c.tail, away := keep c.away, trapTail := keep c.trapTail }
    subs := (g.subs.map fun u => { u with frec := { u.frec with mask := keep u.frec.mask } }).filter (fun u => u.frec.mask != 0#32)
    recov := (g.recov.map fun u => { u with mask := keep u.mask }).filter fun u => u.mask != 0#32
    rets := g.rets.filter fun kv => !ls.contains kv.1
    windows := g.windows.map fun w => { w with left := w.left.filter fun kv => !ls.contains kv.1 }
    rlGone := g.rlGone ||| (g.rlIn &&& m)
    rlIn := keep g.rlIn
    gone := g.gone ||| m }

/-- First nonzero cause stands (12 Table 12.6). -/
def firstCause (old new : BitVec 8) : BitVec 8 := if old = 0#8 then new else old

/-- A killed lane's record: firmware keeps it in the owner's error log; the launch counts it and shows
ERR and the cause (15 R374). -/
def State.logKill (s : State) (n : Nat) (r : FaultRec) : State :=
  let t := (s.grp n).team
  let l := (s.team t).launch
  let s := s.modLaunch l fun x =>
    { x with faults := x.faults + 1, err := true, cause := firstCause x.cause r.cause }
  let s := s.trace t (s.grp n).gid 5 r.pc.toNat
  s.modFw fun f => { f with errLog := f.errLog ++ [⟨(s.launch l).owner, r⟩] }

/-- A group delivers a fault record: the first cause of the group and of the read whose burst it handles stands (10
R251). -/
def State.noteCause (s : State) (n : Nat) (c : BitVec 8) : State :=
  let s := s.modGrp n fun g => { g with viaTrap := true, firstCause := firstCause g.firstCause c }
  match (s.grp n).burst with
  | none => s
  | some b => s.modRead b.read fun r => { r with trapCause := firstCause r.trapCause c }

/-- Lanes that leave a refinement run by a kill, or by `EXIT` in trap mode, mark it as faulted (07
R163): call lanes, in a call or parked between calls. -/
def State.markRun (s : State) (n : Nat) (m : Mask) : State :=
  let g := s.grp n
  let mine := g.rlIn ||| orMasks (·.mask) (g.rl.filter fun c => !c.later)
  if mine &&& m = 0#32 then s
  else s.modTeam g.team fun t => { t with run := t.run.map fun r => { r with faulted := true } }

/-- A kill removes lanes as `EXIT` does and logs their record (15 R374). -/
def State.killLanes (s : State) (n : Nat) (r : FaultRec) : State :=
  let s := s.markRun n r.mask
  ((s.modGrp n fun g => g.removeLanes r.mask).noteCause n r.cause).logKill n r

/-- Whether a launch has a trap handler (15 R372). -/
def Launch.hasHandler (l : Launch) : Bool := l.r.traph != 0#64

/-- Address of the trap handler: ENTRY + 4·OFF with OFF signed (15 Table 15.3, R373). -/
def Launch.handlerPc (l : Launch) : VAddr :=
  BitVec.ofInt 57 ((l.r.entry : Int) + 4 * signed 32 (field l.r.traph.toNat 0 32))

def Launch.handlerPrio (l : Launch) : Prio := BitVec.ofNat 12 (field l.r.traph.toNat 32 12)

/-- A debugger's halt holds a group (16 R396), but for the handlers of a team that drains for a vacate (log entry
83). -/
def Team.frozen (t : Team) (gid : Nat) : Bool := t.halted && !(t.stopping && decide (32 ≤ gid))

/-- The oldest waiting sub-group enters trap mode, if no other is in it and the group is not halted
(15 R373; 16 R396): its lanes become one trap-mode entry at the handler. -/
def State.enterTrap (s : State) (n : Nat) : State :=
  let g := s.grp n
  if g.trap.isSome || (s.team g.team).frozen g.gid then s
  else match g.subs with
    | [] => s
    | u :: rest =>
      let l := s.launchOf n
      let s := s.modGrp n fun g =>
        ({ g.dropLantern with
          subs := rest, trap := some u, tWait := none, tPark := none }).addLanes
            l.handlerPc l.handlerPrio u.frec.mask true
      let s := s.noteCause n u.frec.cause
      (s.modLaunch (s.teamOf n).launch fun l => { l with faults := l.faults + 1 }).trace g.team g.gid 5
        u.frec.pc.toNat

/-- The windows that stay when lanes take a trap: their own end, and a violated window that the group held ends with
the violation, so that a retry runs under ordinary interlock (03 R58; 15 R379). -/
def windowsAfter (ws : List Window) (r : FaultRec) : List Window :=
  ws.map fun w => { w with left := w.left.filter fun kv =>
    if kv.1 = 32 then r.cause != 0x06#8 else !r.mask.getLsbD kv.1 }

/-- Lanes of a record that is a trap: killed without a handler (15 R374), else a parked sub-group
whose record is written at once and which enters trap mode as soon as it may. -/
def State.takeTrap (s : State) (n : Nat) (r : FaultRec) (saved : List Entry) : State :=
  if r.mask = 0#32 then s
  else
    let s := s.modGrp n fun g => { g.dropLanes r.mask with windows := windowsAfter g.windows r }
    if !(s.launchOf n).hasHandler then (s.writeRecord n r).killLanes n r
    else
      let s := s.writeRecord n r
      let s := s.modGrp n fun g => { g with subs := g.subs ++ [⟨r, saved⟩] }
      s.enterTrap n

/-- What faults a lane: cause, AUX, VLINE, record, and the page that firmware may supply. -/
structure Flt where
  cause : BitVec 8
  aux   : Word := 0#32
  vline : BitVec 64 := 0#64
  recIdx : Option (BitVec 5) := none
  page  : Option (Nat × Nat) := none
  /-- an uncorrectable error of memory that the instruction met outside a load (15 R390) -/
  err   : Bool := false
  deriving DecidableEq, Repr

/-- Lanes and what faults them. -/
abbrev Faults := List (Mask × Flt)

def Faults.mask (fs : Faults) : Mask := orMasks (·.1) fs

/-- What faults the lowest lane of a mask. -/
def Faults.at (fs : Faults) (l : Nat) : Option Flt :=
  firstSome (fun p => if p.1.getLsbD l then some p.2 else none) fs

/-- The one record of the lanes of one instruction that trap (15 R370). -/
def oneRecord (fs : Faults) (op : BitVec 8) (pc : VAddr) (prio : Prio) : Option FaultRec :=
  let m := fs.mask
  match fs.at (lowestLane m) with
  | none => none
  | some f =>
    let aux := if f.cause = 0x08#8 then
        (fs.filter (·.2.cause == 0x08#8)).foldl (fun a p => a ||| p.2.aux) 0#32
      else f.aux
    some { cause := f.cause, mixed := fs.any (fun p => p.2.cause != f.cause), async := false,
           done := false, op := op, mask := m, pc := pc, vline := f.vline, prio := prio,
           recIdx := f.recIdx, aux := aux }

/-- The fault queue takes a page: it holds each once, and at most 256 (14 R350). -/
def Core.queuePage (c : Core) (asid page : Nat) : Core :=
  if c.faultQ.contains (asid, page) || decide (256 ≤ c.faultQ.length) then c
  else { c with faultQ := c.faultQ ++ [(asid, page)] }

/-- Park lanes in the core's fault queue (14 R350, 15 R368). While it is full and does not hold their page, they
stay parked with no entry, in order of their first fault. -/
def State.queueFault (s : State) (n : Nat) (r : Recov) : State :=
  let c := s.coreOf n
  let room := (s.core c).faultQ.contains (r.asid, r.page) || decide ((s.core c).faultQ.length < 256)
  let s := s.modGrp n fun g =>
    { g.dropLanes r.mask with
      recov := g.recov ++ [{ r with queued := room }]
      windows := g.windows.map fun w =>
        { w with left := w.left.filter fun kv => !r.mask.getLsbD kv.1 } }
  s.modCore c fun k =>
    if room then k.queuePage r.asid r.page
    else if k.faultLater.contains (n, r.asid, r.page) then k
    else { k with faultLater := k.faultLater ++ [(n, r.asid, r.page)] }

/-- The lanes of one instruction that wait for one page are one set, and what the lowest of them met stands
for it (14 R350, 15 R370). -/
def mergeSoft : Faults → List (Mask × Flt)
  | [] => []
  | p :: r =>
    let q := mergeSoft r
    let same := fun (x : Mask × Flt) => x.2.page == p.2.page
    match q.find? same with
    | none => p :: q
    | some o =>
      (p.1 ||| o.1, if lowestLane p.1 ≤ lowestLane o.1 then p.2 else o.2) :: q.filter fun x => !same x

/-- TAKING AN EXCEPTION. The faulting lanes of one instruction leave the frontier: those whose fault
firmware may service go to the fault queue, the others form one record; in trap mode that is a double
fault and kills (15 R374). -/
def State.except (s : State) (n : Nat) (op : BitVec 8) (pc : VAddr) (prio : Prio) (trap : Bool)
    (fs : Faults) : State :=
  let soft := fs.filter fun p => p.2.page.isSome
  let hard := fs.filter fun p => !p.2.page.isSome
  let s := (mergeSoft soft).foldl (fun s p =>
    match p.2.page with
    | none => s
    | some (asid, page) => s.queueFault n
        { mask := p.1, pc := pc, prio := prio, trap := trap, op := op, asid := asid, page := page,
          vline := p.2.vline, recIdx := p.2.recIdx, owe := none }) s
  let s := if (s.launchOf n).r.logMode = 2 ∧ hard.any fun p => p.2.err then
      s.modGrp n fun g => { g with errAt := some pc } else s
  match oneRecord hard op pc prio with
  | none => s
  | some r => if trap then s.killLanes n r else s.takeTrap n r []

/-! ### Return from an exception (15 R373, R379) -/

/-- Trap mode ends when no lane of it is left; a waiting sub-group then enters (15 R373). -/
def State.trapDone (s : State) (n : Nat) : State :=
  let g := s.grp n
  if g.trap.isSome && g.trapMask == 0#32 then
    (s.modGrp n fun g => { g with trap := none, tWait := none, tPark := none }).enterTrap n
  else s

/-- Where one lane goes at `TRET`: with DONE to its saved position, with ASYNC to PC, else to PC or
past the instruction. -/
def returnPos (u : Sub) (len : Nat) (skip : Bool) (l : Nat) : VAddr × Prio :=
  if u.frec.done then
    match u.saved.find? fun e => e.mask.getLsbD l with
    | some e => (e.pc, e.prio)
    | none => (u.frec.pc, u.frec.prio)
  else if skip && !u.frec.async then (u.frec.pc + BitVec.ofNat 57 len, u.frec.prio)
  else (u.frec.pc, u.frec.prio)

/-- Lanes of a mask that a wait still holds while they are in trap mode (12 R420). -/
def Group.awayMask (g : Group) : Mask :=
  orMasks (·.away) g.conv ||| orMasks (·.away) g.rl ||| orMasks (·.away) g.loops

/-- Lanes return to the waits they are party to (12 R420). -/
def Group.backToWait (g : Group) (m : Mask) : Group :=
  { g with
    conv := g.conv.map fun c => { c with away := c.away &&& ~~~m }
    rl := g.rl.map fun c => { c with away := c.away &&& ~~~m }
    loops := g.loops.map fun c => { c with away := c.away &&& ~~~m } }

/-- Return lanes of the sub-group in trap mode; `len` is the length of the instruction at its PC. -/
def State.returnTrap (s : State) (n : Nat) (m : Mask) (skip : Bool) (len : Nat) : State :=
  match (s.grp n).trap with
  | none => s
  | some u =>
    let s := s.modGrp n fun g =>
      let g := g.dropLanes m
      let wait := if u.frec.done then m &&& g.awayMask else 0#32
      let g := g.backToWait wait
      (maskLanes (m &&& ~~~wait)).foldl (fun g l =>
        let p := returnPos u len skip l
        -- only a lane that goes past its instruction can come to the end of its loop (02 R25; 12 R303)
        if skip && !u.frec.done && !u.frec.async then g.arrive p.1 p.2 (laneBit l) false u.frec.pc
        else g.addLanes p.1 p.2 (laneBit l) false) g
    s.trapDone n

/-- A release that finds a lane in trap mode leaves it the position it would have gone to (12 R420). -/
def Group.noteRelease (g : Group) (m : Mask) (pc : VAddr) (prio : Prio) : Group :=
  let put := fun (u : Sub) =>
    let mm := m &&& u.frec.mask
    if mm = 0#32 then u
    else { u with saved := ⟨pc, prio, mm, false, 0⟩ ::
      (u.saved.map fun e => { e with mask := e.mask &&& ~~~mm }) }
  { g with trap := g.trap.map put, subs := g.subs.map put }

/-- Lanes that a park releases: those in trap mode keep the position, the others join the frontier. -/
def Group.release (g : Group) (mask away : Mask) (pc : VAddr) (prio : Prio) : Group :=
  (g.noteRelease (mask &&& away) pc prio).addLanes pc prio (mask &&& ~~~away) false

end Sys2Proof.Machine
end

