-- ==== Sys2Proof/Machine/Operands.lean ====
section
/-! DEFINITION. Operand values (03 R44 to R46), the cross-lane read (03 R52 to R54) and the poison a
source carries (15 R390). -/

namespace Sys2Proof.Machine

open Sys2Proof

/-- A 32-bit or 64-bit operand value in one lane (03 Table 3.4): registers as they stand, a literal,
zero, the lane index, or W. -/
def opVal (g : Group) (lit : Option (BitVec 64)) (o : Opnd) (w l : Nat) : Nat :=
  let lt := (lit.getD 0#64).toNat
  match o with
  | .v r => (g.vreg r.val l).toNat +
      (if w = 2 then (g.vreg (r.val + 1) l).toNat * 2 ^ 32 else 0)
  | .s r => (g.sreg r.val).toNat + (if w = 2 then (g.sreg (r.val + 1)).toNat * 2 ^ 32 else 0)
  | .zero => 0
  | .litLo => lt % 2 ^ 32
  | .litHi => lt / 2 ^ 32
  | .lit64 => lt
  | .lane => l
  | .gw => laneCount

/-- Whether an operand is poisoned in one lane (15 R390). -/
def opBad (g : Group) (o : Opnd) (w l : Nat) : Bool :=
  match o with
  | .v r => g.vPoison r.val l || (w == 2 && g.vPoison (r.val + 1) l)
  | .s r => g.sPoison r.val || (w == 2 && g.sPoison (r.val + 1))
  | _ => false

/-- W >> k, exactly (03 Table 3.7; 05 R120). -/
def wShift (k : Nat) : Nat := if k < 6 then 32 / 2 ^ k else 0

/-- The lane index of 03 Table 3.7. -/
def xIndex (m : XMode) (k l : Nat) : Int :=
  match m with
  | .own => l
  | .sld => (l : Int) + k
  | .slu => (l : Int) - k
  | .xor => ((l ^^^ k : Nat) : Int)
  | .bc => k
  | .rot => (((l + k) % 32 : Nat) : Int)
  | .wsld => ((l + wShift k : Nat) : Int)
  | .wxor => ((l ^^^ wShift k : Nat) : Int)

/-- A lane index in range and active. -/
def activeAt (act : Mask) (j : Int) : Bool :=
  decide (0 ≤ j) && decide (j < 32) && act.getLsbD j.toNat

/-- The lane nearest to an index. -/
def clampLane (j : Int) : Nat := if j < 0 then 0 else if 31 < j then 31 else j.toNat

/-- Which lane's register a cross-lane read takes: the indexed one, else the one its fill names. -/
def xSource (act : Mask) (fill : Fill) (l : Nat) (j : Int) : Option Nat :=
  if activeAt act j then some j.toNat
  else match fill with
    | .own => some l
    | .clamp => if act.getLsbD (clampLane j) then some (clampLane j) else none
    | .zero => none
    | .imm => none

/-- The cross-lane read of 03 R54, from any per-lane value `f`; an IMM16 fill is sign-extended. -/
def xRead (act : Mask) (fill : Fill) (imm : BitVec 16) (w l : Nat) (j : Int) (f : Nat → Nat) : Nat :=
  match xSource act fill l j with
  | some i => f i
  | none => if fill = .imm then wrapNat (32 * w) imm.toInt else 0

/-- A lane's fault for a poisoned source: AUX is 0x100 plus its operand code (15 Table 15.1). -/
def poisonFlt (o : Opnd) : Flt := { cause := 0x04#8, aux := BitVec.ofNat 32 (0x100 + o.num) }

/-- The first source value B of an integer or floating-point instruction, through its modifier. -/
def firstVal (g : Group) (act : Mask) (x : XForm) (w l : Nat) : Nat :=
  if x.xm = .own then opVal g x.lit x.b w l
  else xRead act x.fill x.imm w l (xIndex x.xm x.xk.toNat l) fun i => opVal g x.lit x.b w i

/-- Whether B is poisoned for the lane that reads it. -/
def firstBad (g : Group) (act : Mask) (x : XForm) (w l : Nat) : Bool :=
  if x.xm = .own then opBad g x.b w l
  else match xSource act x.fill l (xIndex x.xm x.xk.toNat l) with
    | some i => opBad g x.b w i
    | none => false

/-- The value of a uniform operand: the same in every lane. -/
def uniVal (g : Group) (x : XForm) (o : Opnd) (w : Nat) : Nat := opVal g x.lit o w 0

/-- The step of a cross-lane instruction: XK, or C under `.r` (05 R118). -/
def xStep (g : Group) (x : XForm) : Nat :=
  if x.aux.getLsbD 0 then uniVal g x x.c 1 else x.xk.toNat

/-- The lane that `XSHF` indexes (05 R119). -/
def shfIndex (g : Group) (x : XForm) (l : Nat) : Int := signed 32 (opVal g x.lit x.c 1 l)

/-- The lane that `XBCST` names (05 R122). -/
def bcstIndex (g : Group) (act : Mask) (x : XForm) : Int :=
  if x.mod.getLsbD 5 then lowestLane act else signed 32 (uniVal g x x.c 1)

/-- 2^s, capped where it has already left the lane range (05 R123). -/
def stepLanes (s : Nat) : Nat := if s < 6 then 2 ^ s else 64

/-- Width in registers of a source field, 0 where the entry does not use it. -/
def srcWidth (sh : Shape) (f : Fld) : Nat :=
  match sh.roles f with
  | .src w :: _ => w
  | .uni w :: _ => w
  | _ => 0

/-- `XPLD` writes a pattern table and clears its mark (05 R127; 14 R353). -/
def Team.loadPattern (t : Team) (tab : Nat) (bs : List Byte) : Team :=
  let q := clearFill t.patFilled 256 t.pats (256 * tab) bs
  { t with pats := q.1, patFilled := q.2 }

/-- Entry l of a pattern table (05 Table 5.10). -/
def patEntry (t : Team) (tab l : Nat) : Nat := ofBytes (clearRead t.patFilled 256 t.pats (256 * tab + 8 * l) 8)

/-- The source lane and register of the r-th destination of an entry, with n registers and lane step
st (05 R129). -/
def patLane (e r st : Nat) : Nat := (field e 0 5 + r * st) % 32
def patReg (e r n : Nat) : Nat := (field e 8 3 + r) % n

/-- The cross-lane reads of an instruction for one reading lane: each lane whose register it takes, and
that register's codes (03 R54, R58; 05 R118 to R129; 06 R138,
R151). -/
def crossReads (op : Nat) (t : Team) (g : Group) (act : Mask) (x : XForm) (l : Nat) :
    List (Nat × List Nat) :=
  let w := srcWidth (shapeOf op x) .b
  let from_ := fun (o : Opnd) (j : Option Nat) =>
    match j with
    | some j => [(j, codesFrom o w)]
    | none => []
  match op with
  | 0x60 => from_ x.b (xSource act x.fill l (shfIndex g x l))
  | 0x61 => from_ x.b (xSource act x.fill l (xIndex x.xm (xStep g x) l))
  | 0x62 => from_ (if l.testBit x.xk.toNat then x.c else x.b)
      (xSource act x.fill l ((l ^^^ 2 ^ x.xk.toNat : Nat) : Int))
  | 0x63 => from_ x.b (xSource act x.fill l (bcstIndex g act x))
  | 0x64 => from_ x.b (xSource act x.fill l ((l ^^^ stepLanes (xStep g x) : Nat) : Int))
  | 0x65 =>
    let j := (l : Int) - stepLanes (xStep g x)
    if j < 0 then [] else from_ x.b (xSource act x.fill l j)
  | 0x69 =>
    let e := patEntry t x.aux.toNat l
    let n := bits x.imm 3 0
    if e.testBit 7 then []
    else (List.range n).flatMap fun r =>
      if act.getLsbD (patLane e r x.xk.toNat) then
        [(patLane e r x.xk.toNat, [x.b.num + patReg e r n])]
      else []
  | 0x71 => lanes.map fun j => (j, codesFrom x.c 16)
  | 0x72 => lanes.map fun j => (j, codesFrom x.c 16 ++ [bits x.imm 15 8, bits x.imm 15 8 + 1])
  | 0x73 => lanes.map fun j => (j, codesFrom x.c 16)
  | 0x77 => lanes.map fun j => (j, [x.b.num + l / (if x.ty == .b32 then 1 else if x.ty == .i16x2 then 2 else 4)])
  | _ =>
    if x.xm = .own then []
    else from_ x.b (xSource act x.fill l (xIndex x.xm x.xk.toNat l))

end Sys2Proof.Machine
end

