-- ==== Sys2Proof/WellFormed.lean ====
section
/-! DEFINITION. Which instruction terms are well formed: every check of 03 Table 3.11 that the bits of
an instruction decide, as one named predicate each, and the forms whose row of the opcode table fixes
a field. The checks against a group's declared register counts are made at issue. -/

namespace Sys2Proof

/-- TY is one that the entry permits (03 R51). -/
def tyOk (sh : Shape) (x : XForm) : Bool :=
  match sh.tys with
  | [] => x.ty == .i32
  | ts => ts.contains x.ty

/-- No MOD bit outside the entry's, and no RM code above 5 (03 R50). -/
def modOk (sh : Shape) (x : XForm) : Bool :=
  x.mod &&& ~~~sh.mods == 0#8 && !(sh.rm && decide (bits x.mod 2 0 ≥ 6))

/-- AUX holds a value the entry defines. -/
def auxOk (sh : Shape) (x : XForm) : Bool := sh.aux.getD (x.aux == 0#6)

/-- IMM16 holds a value the entry defines, or an IMM16 fill (03 R54). -/
def immOk (sh : Shape) (x : XForm) : Bool :=
  sh.imm.getD (x.imm == 0#16 || (sh.cross && x.xm != .own && x.fill == .imm))

/-- The cross-lane fields keep 03 R52 and R53. -/
def crossOk (sh : Shape) (x : XForm) : Bool :=
  if sh.xfam then true
  else if x.xm == .own then x.xk == 0#5 && x.fill == .zero
  else sh.cross && (match x.b with | .v _ => true | _ => false) &&
    !((x.xm == .wsld || x.xm == .wxor) && decide (x.xk.toNat > 5)) &&
    !(x.fill == .imm && sh.imm.isSome)

/-- LA is zero in an instruction that is not long-latency (03 R55). -/
def laOk (sh : Shape) (x : XForm) : Bool := sh.long || x.la == 0#4

/-- Every operand field holds what its roles allow, and unused ones are blank (03 R44 to R46). -/
def fldsOk (sh : Shape) (x : XForm) : Bool :=
  sh.fldOk x .a && sh.fldOk x .b && sh.fldOk x .c && sh.fldOk x .d

/-- A scalar destination has uniform sources and no cross-lane modifier (03 R46). -/
def scalOk (sh : Shape) (x : XForm) : Bool :=
  if sh.scal && (match x.a with | .s _ => true | _ => false) then
    x.xm == .own && sh.slots.all fun p => !p.2.isSrc || (x.fld p.1).uniform
  else true

/-- The checks of an extended form. -/
def XForm.ok (op : Nat) (x : XForm) : Bool :=
  let sh := shapeOf op x
  tyOk sh x && modOk sh x && auxOk sh x && immOk sh x && crossOk sh x && laOk sh x && fldsOk sh x &&
    scalOk sh x && sh.own

/-- A form is legal (03 R41 to R55, Table 3.11). -/
def Form.ok (op : Nat) : Form → Bool
  | .xf x => x.ok op
  | .b2 x => (x.lift op none).ok op
  | .b2l x l => (x.lift op (some l)).ok op
  | .bi x => x.lift.ok op
  | .b0 _ => true
  | .sb _ => true
  | .fb _ => true

/-- The fields that the rows of one opcode which share it fix: MOD[5] of `PMOV`, `SREL`, `SPROG` and
`TRET`, MOD[6] of `SREL`, IMM16 of `FWCALL`. -/
def Instr.rowOk : Instr → Bool
  | .pmovGet x => bits x.mod 5 5 == 0
  | .pmovPut x => bits x.mod 5 5 == 1
  | .srelDone x => bits x.mod 6 5 == 0
  | .srelCons x => bits x.mod 6 5 == 1
  | .srelConsHalo x => bits x.mod 6 5 == 3
  | .sprogStart x => bits x.mod 5 5 == 0
  | .sprogDone x => bits x.mod 5 5 == 1
  | .tretRetry x => bits x.mod 5 5 == 0
  | .tretSkip x => bits x.mod 5 5 == 1
  | .fwcallQuery x => x.imm == 1#16
  | .fwcallPin x => x.imm == 2#16
  | .fwcallTier x => x.imm == 3#16
  | .fwcallDomain x => x.imm == 4#16
  | .fwcallAttest x => x.imm == 5#16
  | .fwcallQueue x => x.imm == 6#16
  | .fwcallUnknown x => !(decide (1 ≤ x.imm.toNat) && decide (x.imm.toNat ≤ 6))
  | _ => true

/-- A well-formed instruction: one that some words encode. A device step is not one. -/
def Instr.wf (i : Instr) : Bool :=
  match i.form with
  | some (op, f) => f.ok op && i.rowOk
  | none => false

end Sys2Proof
end

