-- ==== Sys2Proof/Machine/Issue.lean ====
section
/-! DEFINITION. One instruction in issue: which lanes are active and act (02 R23, 03 R43), the checks
made before any meaning runs (03 R58, R61; 15 R374), the lanes that fault, and the lane-by-lane run of
an arithmetic meaning (05 R95, R96; 04 R85). -/

namespace Sys2Proof.Machine

open Sys2Proof

/-- An instruction in issue. -/
structure Iss where
  s : State
  /-- group that issues -/
  n : Nat
  op : BitVec 8
  pc : VAddr
  prio : Prio
  /-- next sequential PC -/
  next : VAddr
  /-- the entry is in trap mode -/
  trap : Bool
  /-- active lanes -/
  act : Mask
  /-- lanes that act and have not faulted -/
  run : Mask
  /-- lanes that will go to the next PC -/
  stay : Mask
  /-- lanes that faulted, and why -/
  flts : Faults
  /-- positions that lanes were sent to -/
  moves : List Entry
  /-- positions that lanes reach as if they had gone on: a loop tail there holds them (12 R303) -/
  lands : List Entry := []
  /-- the step bit as it stood at issue (02 R34) -/
  step : Bool
  /-- registers that a lookahead window or an interlock covers after this instruction -/
  dests : List Nat
  /-- lookahead declared (03 R55) -/
  la : Nat
  long : Bool
  /-- what releases the interlock on the destinations -/
  kind : LockKind := .result
  deriving Repr

/-- The group in issue. -/
def Iss.g (i : Iss) : Group := i.s.grp i.n

def Iss.mod (i : Iss) (f : Group → Group) : Iss := { i with s := i.s.modGrp i.n f }

def Iss.modS (i : Iss) (f : State → State) : Iss := { i with s := f i.s }

/-- Fault the lanes of a mask that have not faulted yet (15 R370: a lane takes one cause). -/
def Iss.fault (i : Iss) (m : Mask) (f : Flt) : Iss :=
  let m := m &&& i.act &&& ~~~i.flts.mask
  if m = 0#32 then i
  else { i with run := i.run &&& ~~~m, stay := i.stay &&& ~~~m, flts := i.flts ++ [(m, f)] }

/-- A fault of a uniform instruction faults every active lane (09 R205, 05 R96). -/
def Iss.faultAll (i : Iss) (f : Flt) : Iss := i.fault i.act f

/-- An illegal instruction on the issuing lanes (00 R7). -/
def Iss.illegal (i : Iss) : Iss := i.faultAll { cause := 0x05#8 }

/-- Send lanes to a position (02 R24). -/
def Iss.moveTo (i : Iss) (m : Mask) (pc : VAddr) (prio : Prio) : Iss :=
  if m = 0#32 then i
  else { i with stay := i.stay &&& ~~~m, moves := i.moves ++ [⟨pc, prio, m, i.trap, 0⟩] }

/-- Send lanes to a position where they park if it is the end of their innermost loop (12 R303). -/
def Iss.landAt (i : Iss) (m : Mask) (pc : VAddr) (prio : Prio) : Iss :=
  if m = 0#32 then i
  else { i with stay := i.stay &&& ~~~m, lands := i.lands ++ [⟨pc, prio, m, i.trap, 0⟩] }

/-- Lanes that leave the frontier without a fault: parked, or gone. -/
def Iss.take (i : Iss) (m : Mask) : Iss := { i with stay := i.stay &&& ~~~m }

/-- The registers an instruction names all lie below the declared counts (02 R30). -/
def countsOk (g : Group) (us : List RegUse) : Bool :=
  us.all fun u =>
    if u.code < 0xC0 then decide (u.code < g.nv)
    else if u.code < 0x100 then decide (u.code - 0xC0 < g.ns)
    else if 0x200 ≤ u.code ∧ u.code < 0x300 then decide (u.code - 0x200 < g.nb)
    else true

/-- Instructions before which every lookahead window ends (03 R57): control but for `NOP`, barriers,
`RLRUN`, `PHASE`, `FENCE`, `AWAIT`, `SACQ`, `PSAVE`, `PLOAD`, `TLBINV`, `FWCALL`. -/
def endsWindows (op : Nat) : Bool :=
  (decide (1 ≤ op) && decide (op < 0x20)) ||
    [0x78, 0x8B, 0x8C, 0x91, 0xA1, 0xB6, 0xB7, 0xB8, 0xB9].contains op

/-- Instructions that are illegal in trap mode (15 R374): the barrier family, `CONV`, `CSET`, `IDEMB`,
the refinement family, `BREAD`, `COLL`, `SACQ`, `SREL`, `SPROG`, `SLEEP`. -/
def illegalInTrap (op : Nat) : Bool :=
  (decide (0x10 ≤ op) && decide (op < 0x20)) || (decide (0x78 ≤ op) && decide (op < 0x80)) ||
    [0x07, 0x08, 0x0C, 0x0D, 0x95, 0x99, 0xA1, 0xA4, 0xA6].contains op

/-- Instructions whose acting lanes fault with cause 0x09 in a handler group (10 R245). -/
def bannedInHandler (op : Nat) : Bool :=
  [0x10, 0x11, 0x12, 0x13, 0x14, 0x15, 0x17, 0x78, 0x79, 0x95, 0x90, 0x91, 0x92, 0x93, 0x94, 0x99, 0x0C,
    0xA1].contains op

/-- A handler group (02 R28). -/
def Group.isHandler (g : Group) : Bool := decide (32 ≤ g.gid)

/-- Instructions whose issue closes an idempotent region (12 R306); the calls, loops and I/O-window
stores that close one do so in their own meanings. -/
def closesRegion (op : Nat) : Bool :=
  (decide (0x10 ≤ op) && decide (op < 0x20)) || (decide (0x95 ≤ op) && decide (op ≤ 0x99)) ||
    [0x85, 0x86, 0x87, 0x90, 0x92, 0x93, 0x94, 0x78, 0xA1, 0xA2, 0xA4, 0xA6].contains op

/-- Lanes that a window makes the instruction violate (03 R58). -/
def Window.violators (act : Mask) (uses : List Nat)
    (cross : Nat → List (Nat × List Nat)) (w : Window) : Mask :=
  let hit := fun (cs : List Nat) => cs.any fun c => w.regs.contains (BitVec.ofNat 16 c)
  let held := fun (l : Nat) => decide (0 < Sp.get 0 w.left l)
  if held 32 then (if hit uses then act else 0#32)
  else act &&& maskWhere fun l =>
    (held l && hit uses) || (cross l).any fun c => held c.1 && hit c.2

/-- The violating lanes of an instruction and the register that AUX names. -/
def violation (t : Team) (g : Group) (act : Mask) (op : Nat) (sh : Shape) (x : XForm) : Mask × Word :=
  let us := (sh.uses x).map (·.code)
  let cross := crossReads op t g act x
  let bad := g.windows.filter fun w => w.violators act us cross != 0#32
  (orMasks (Window.violators act us cross) bad,
    BitVec.ofNat 32 ((us.find? fun c => bad.any fun w => w.regs.contains (BitVec.ofNat 16 c)).getD 0))

/-- The lanes a guard lets act (03 R43). -/
def guardMask (g : Group) : Option Guard → Mask
  | none => allLanes
  | some q => if q.neg then ~~~g.preg q.pred.toNat else g.preg q.pred.toNat

/-- The instruction in issue before any check: the active lanes are those of the entry that issues, and the
guard says which of them act (02 R23; 03 R43). -/
def issueOf (ins : Instr) (s : State) : Iss :=
  let g := s.me
  let e := g.issueEntry.getD ⟨0, 0, 0, false, 0⟩
  let sh := shapeOf ins.op.toNat ins.fields
  { s := s, n := s.cur, op := ins.op, pc := e.pc, prio := e.prio,
    next := e.pc + BitVec.ofNat 57 ins.len, trap := e.trap, act := e.mask,
    run := e.mask &&& guardMask g ins.guard, stay := e.mask, flts := [], moves := [],
    step := g.step, dests := sh.writes ins.fields, la := ins.fields.la.toNat, long := sh.long }

/-- The lookahead windows end where the instruction is one that ends them (03 R57). -/
def Iss.clearWindows (i : Iss) : Iss :=
  if endsWindows i.op.toNat && !i.g.windows.isEmpty then i.mod fun g => { g with windows := [] } else i

/-- Every active lane has faulted, so that nothing of the instruction happens (00 R7; 03 R58). -/
def Iss.fails (i : Iss) : Bool := i.run == 0#32 && !i.flts.isEmpty

/-- An open idempotent region ends where the instruction is one that closes it (12 R306). -/
def Iss.clearRegion (i : Iss) : Iss :=
  if closesRegion i.op.toNat && i.g.region.isSome && !i.fails then i.mod fun g => { g with region := none } else i

/-- The lanes that read or write a covered register fault (03 R58). -/
def Iss.checkWindows (i : Iss) (x : XForm) : Iss :=
  let v := violation (i.s.team i.g.team) i.g i.act i.op.toNat (shapeOf i.op.toNat x) x
  if v.1 = 0#32 then i else i.fault v.1 { cause := 0x06#8, aux := v.2 }

/-- The acting lanes of a handler group fault where the instruction is banned there (10 R245); a `BREAD` that acts
faults every active lane (10 R239). -/
def Iss.checkHandler (i : Iss) : Iss :=
  if i.g.isHandler && bannedInHandler i.op.toNat then
    i.fault (if i.op = 0x95#8 ∧ i.run ≠ 0#32 then i.act else i.run) { cause := 0x09#8 }
  else i

/-- Begin the issue of an instruction for the group in issue: active and acting lanes, then the
decoding checks (cause 0x05), trap-mode legality, lookahead violations and the handler rules, in that order. `legal`
holds the checks of cause 0x05 that an entry makes against the state. -/
def begin_ (ins : Instr) (s : State) (legal : Bool := true) : Iss :=
  let i := (issueOf ins s).clearWindows
  if !ins.wf || !countsOk s.me (shapeOf ins.op.toNat ins.fields |>.uses ins.fields) || !legal then i.illegal
  else if i.trap && illegalInTrap ins.op.toNat then i.illegal
  else ((i.checkWindows ins.fields).checkHandler).clearRegion

/-! ### Lane-by-lane meanings -/

/-- Source values of one lane: the fields B, C and D. -/
structure Srcs where
  a : Nat
  b : Nat
  c : Nat
  deriving DecidableEq, Repr

/-- What one lane of an arithmetic instruction produces: the destination's value, flags, and a
predicate result. -/
structure LaneOut where
  val : Nat := 0
  flags : Flags := 0#8
  pred : Bool := false
  deriving DecidableEq, Repr

/-- The first poisoned source of a lane, in the order B, C, D, then a destination that is read
(15 Table 15.1). -/
def badSource (g : Group) (act : Mask) (sh : Shape) (x : XForm) (l : Nat) : Option Opnd :=
  let wb := srcWidth sh .b
  let wc := srcWidth sh .c
  let wd := srcWidth sh .d
  if wb != 0 && firstBad g act x wb l then some x.b
  else if wc != 0 && opBad g x.c wc l then some x.c
  else if wd != 0 && opBad g x.d wd l then some x.d
  else if sh.roles .a == [.dstRd] && opBad g x.a 1 l then some x.a
  else none

/-- The source values of a lane. -/
def laneSrcs (g : Group) (act : Mask) (sh : Shape) (x : XForm) (l : Nat) : Srcs :=
  { a := if srcWidth sh .b = 0 then 0 else firstVal g act x (srcWidth sh .b) l
    b := if srcWidth sh .c = 0 then 0 else opVal g x.lit x.c (srcWidth sh .c) l
    c := if srcWidth sh .d = 0 then 0 else opVal g x.lit x.d (srcWidth sh .d) l }

/-- Run an instruction lane by lane. Every source is read from the state before (05 R95). A poisoned
source faults the lane with cause 0x04; where `traps` holds, a condition with its trap enabled faults
it with cause 0x08, its flag set and its destination unchanged (04 R85). `put` writes a lane. With a
scalar destination the instruction runs once, its lowest acting lane standing for the group, and a
fault is every active lane's (05 R96). -/
def Iss.laneRun (i : Iss) (lanesToRun : Mask) (all : Bool) (bad : Nat → Option Flt)
    (f : Nat → LaneOut) (traps : Bool) (put : Nat → LaneOut → Group → Group) : Iss :=
  (maskLanes lanesToRun).foldl (fun i l =>
    match bad l with
    | some flt => i.fault (if all then i.act else laneBit l) flt
    | none =>
      let o := f l
      let t := if traps then trapped i.g.mode o.flags else 0#8
      let i := i.mod fun g => g.raiseFlags o.flags
      if t = 0#8 then i.mod (put l o)
      else i.fault (if all then i.act else laneBit l) { cause := 0x08#8, aux := o.flags.setWidth 32 })
    i

/-- The lanes an instruction runs for: one for a scalar destination (03 R46). -/
def runLanes (m : Mask) (scalar : Bool) : Mask :=
  if scalar then (if m = 0#32 then 0#32 else laneBit (lowestLane m)) else m

/-- An integer or floating-point instruction with sources B, C, D and destination A. -/
def Iss.arith (i : Iss) (x : XForm) (traps : Bool) (f : Nat → Srcs → LaneOut)
    (put : Nat → LaneOut → Group → Group) (scalar : Bool) : Iss :=
  let g := i.g
  let sh := shapeOf i.op.toNat x
  i.laneRun (runLanes i.run scalar) scalar
    (fun l => (badSource g i.act sh x l).map poisonFlt)
    (fun l => f l (laneSrcs g i.act sh x l)) traps put

end Sys2Proof.Machine
end

