-- ==== Sys2Proof/Machine/Mem.lean ====
section
/-! DEFINITION. Memory as one core sees it: translation (14 R344 to R350), the home image, L1 copies,
pending overlays, update-only lines, phase boundaries (08 R174 to R190), engine ownership (08 R191,
R192) and overlays at peers (08 R195). Addresses here are physical unless a name says otherwise. -/

namespace Sys2Proof.Machine

open Sys2Proof

/-- Whether an engine owns a line (08 R191). -/
def State.isOwned (s : State) (line : Nat) : Bool := Sp.has s.owned line

/-! ### L1 and overlays (08 R181 to R187) -/

/-- A peer's line in the map of owned lines (08 R191): the device's own lines stand there by their number. -/
def State.peerLine (s : State) (peer line : Nat) : Nat :=
  if peer = s.fw.deviceId then line else (peer + 1) * 2 ^ 64 + line

/-- The bytes of a line as a core sees it after a miss: committed, with its own overlay on top. What another
owner's agent left pending reads as zero (14 R353). -/
def State.missByte (s : State) (c pa : Nat) : Byte :=
  match Sp.get? (s.core c).overlay pa with
  | some b => if Sp.get 0 (s.core c).overOwner (lineOf pa) = s.ownerOf pa then b else 0#8
  | none => s.homeByte pa

/-- The image of a line after a miss. -/
def State.missLine (s : State) (c line : Nat) : Sp Byte :=
  (List.range 128).foldl (fun m i => Sp.set 0#8 m i (s.missByte c (128 * line + i))) []

/-- A line is poisoned after a miss: its overlay carries poison, or the home's line does and the overlay does not
cover it (15 R389). -/
def State.missBad (s : State) (c line : Nat) : Bool :=
  (s.linePoison line && decide ((Sp.slice (s.core c).overlay (128 * line) 128).length < 128)) ||
    Sp.get false (s.core c).overBad line

/-- Drop a line from a core's L1. -/
def State.dropL1 (s : State) (c line : Nat) : State :=
  s.modCore c fun k => { k with l1 := Sp.del k.l1 line }

/-- Pending lines of a core at the homes of this device. -/
def Core.pendingLines (k : Core) : List Nat :=
  k.overlay.foldl (fun acc kv => if acc.head? = some (lineOf kv.1) then acc else lineOf kv.1 :: acc) []

/-- Launches with a team on a core. -/
def State.launchesOn (s : State) (c : Nat) : List Nat :=
  ((s.teams.filter fun kv => kv.2.core == c && (kv.2.life == .resident || kv.2.life == .placed)).map
    (·.2.launch)).eraseDups

/-- Whether a boundary on a core must wait: an engine owns a line it would commit (08 R191). -/
def State.boundaryHeld (s : State) (c : Nat) : List Nat :=
  (s.core c).pendingLines.filter s.isOwned

/-- Commit every overlay of a core that no engine holds back (08 R183, R184): each line at its home in one step. -/
def State.commitCore (s : State) (c : Nat) : State :=
  let k := s.core c
  let go := k.overlay.filter fun kv => !s.isOwned (lineOf kv.1)
  let bad := k.overBad.filter fun kv => !s.isOwned kv.1
  let s := (k.pendingLines.filter fun l => !s.isOwned l).foldl (fun s l =>
    let mine := Sp.slice go (128 * l) 128
    let s := mine.foldl (fun s kv => s.putBytes kv.1 [s.missByte c kv.1]) (s.countHome l)
    if mine.length = 128 then { s with memBad := Sp.set false s.memBad l false } else s) s
  let s := bad.foldl (fun s kv => s.poisonLine kv.1) s
  s.modCore c fun k =>
    { k with overlay := k.overlay.filter (fun kv => s.isOwned (lineOf kv.1)),
             overBad := k.overBad.filter fun kv => s.isOwned kv.1
             overOwner := k.overOwner.filter fun kv => s.isOwned kv.1
             overHome := k.overHome.filter fun kv => s.isOwned kv.1 }

/-- Refresh: drop every line of the L1 but those of SK pages, and these too at a launch boundary
(08 R183, R186). A pinning core's own lines are never copies (08 R175). -/
def State.refresh (s : State) (c : Nat) (launch : Bool) : State :=
  s.modCore c fun k => { k with l1 := if launch then [] else k.l1.filter fun kv => kv.2.sk }

/-- A phase boundary: commit, then refresh (08 R183). -/
def State.boundary (s : State) (c : Nat) : State := (s.commitCore c).refresh c false

/-- A launch boundary (08 R186; 04 R92 ends guard margin): the launch fetches only code as it stands now (03
R62). -/
def State.launchBoundary (s : State) (c : Nat) : State :=
  let s := ((s.commitCore c).refresh c true).modCore c fun k => { k with icache := [] }
  (List.range 4).foldl (fun s k =>
    if Sp.has s.scheds (4 * c + k) then
      s.modSched (4 * c + k) fun x => { x with guard := false, replayed := false }
    else s) s

/-- An implicit boundary: an explicit one that is counted (08 R187). -/
def State.implicitBoundary (s : State) (c : Nat) : State :=
  let s := (s.boundary c).modCore c fun k => { k with implb := k.implb + 1 }
  (s.launchesOn c).foldl (fun s l => s.modLaunch l fun x => { x with implb := x.implb + 1 }) s

/-- HOME codes (08 Table 8.1). -/
def homeUncached (h : BitVec 2) : Bool := h == 3#2
def homePinned (h : BitVec 2) : Bool := h == 1#2

/-- The home of a line: the slice of its address, or the SRAM of the core that pins its page (01 R13; 08 R175). -/
def homeOf (lf : Leaf) (line : Nat) : Nat :=
  if homePinned lf.home then 64 + lf.aux else (Config.homeSlice line).val

/-- Whether a store to a line first causes an implicit boundary: a 2,049th pending line, or a 65th at
one home (08 R187). -/
def State.needsBoundary (s : State) (c home line : Nat) : Bool :=
  let k := s.core c
  let ps := k.pendingLines
  if ps.contains line then false
  else if ps.length ≥ 2048 then true
  else if ps.length < 64 then false
  else decide ((ps.filter fun l => Sp.get 0 k.overHome l == home).length ≥ 64)

/-! ### Loads, stores and atomics at a physical address -/

/-- Whether a load finds its line in L1. -/
def State.l1Hit (s : State) (c : Nat) (lf : Leaf) (pa : Nat) : Bool :=
  !homeUncached lf.home && !(homePinned lf.home && lf.aux == c) && Sp.has (s.core c).l1 (lineOf pa)

/-- The line that a load waits for, when it would reach a home that an engine owns (08 R191). -/
def State.loadHeld (s : State) (c : Nat) (lf : Leaf) (pa : Nat) : List Nat :=
  if s.isOwned (lineOf pa) && !s.l1Hit c lf pa then [lineOf pa] else []

/-- Update-only lines of a core. -/
def Core.updLines (k : Core) : List Nat := (k.upd.map fun u => lineOf u.addr).eraseDups

/-- Lines that the L1 of a core can hold: what the scratchpads of its teams leave of 768 KiB (01 R9). -/
def State.l1Room (s : State) (c : Nat) : Nat :=
  (786432 - (s.teams.filter fun kv => kv.2.core == c && kv.2.standing).foldl (fun n kv => n + kv.2.ssize) 0) / 128

/-- A line leaves a core's L1: a copy is dropped, an update-only line merged at its home (08 R185, R188). -/
def State.evictL1 (s : State) (c line : Nat) : State :=
  if (s.core c).updLines.contains line then s.mergeCore c fun u => lineOf u.addr == line
  else s.dropL1 c line

/-- Capacity eviction (08 R185, R188). It must make room where the L1 is full, and is open for any line at
every access: choice k + 1 drops the k-th of the lines held. No line whose merge an engine would hold is taken. -/
def State.maybeEvict (s : State) (c line : Nat) : State :=
  let k := s.core c
  let held := k.l1.map (·.1) ++ k.updLines.filter fun l => !s.isOwned l
  if held.isEmpty then s
  else if s.l1Room c ≤ k.l1.length + k.updLines.length ∧ !held.contains line then
    let n := s.choose held.length
    n.2.evictL1 c (held.getD n.1 0)
  else
    let n := s.choose (held.length + 1)
    if n.1 = 0 then n.2 else n.2.evictL1 c (held.getD (n.1 - 1) 0)

/-- What an L1 copy shows a reader: zero where another owner's agent left it (14 R353). -/
def State.l1Bytes (s : State) (k : L1Line) (pa n : Nat) : List Byte :=
  if k.owner = s.ownerOf pa then Sp.read 0#8 k.data (pa % 128) n else List.replicate n 0#8

/-- A load of `n` bytes within a line (08 R177, R179, R185): the bytes, their poison, the state. A read that
goes to the home leaves no older copy behind (08 R174). -/
def State.loadBytes  (s : State) (c : Nat) (lf : Leaf)
    (pa n : Nat) : List Byte × Bool × State :=
  let line := lineOf pa
  if homeUncached lf.home then
    let s := ((s.recall line).countHome line).dropL1 c line
    (s.homeBytes pa n, s.linePoison line, s)
  else if homePinned lf.home && lf.aux == c then
    let s := (s.recall line).countHome line
    ((List.range n).map fun i => s.missByte c (pa + i), s.missBad c line, s)
  else
    let s := s.maybeEvict c line
    match Sp.get? (s.core c).l1 line with
    | some k => (s.l1Bytes k pa n, k.bad, s)
    | none =>
      let s := (s.recall line).countHome line
      let k : L1Line :=
        { data := s.missLine c line, bad := s.missBad c line, sk := lf.sk, owner := s.ownerOf pa }
      (Sp.read 0#8 k.data (pa % 128) n, k.bad,
        if s.l1Room c = 0 then s else s.modCore c fun x => { x with l1 := Sp.put x.l1 line k })

/-- The lines for which a store must wait before it can be performed: an owned line that is written at
home, that needs a merge, or that an implicit boundary would have to commit. -/
def State.storeHeld (s : State) (c : Nat) (lf : Leaf) (pa : Nat) : List Nat :=
  let line := lineOf pa
  if homeUncached lf.home then (if s.isOwned line then [line] else [])
  else
    (if s.isOwned line && (s.core c).upd.any (fun u => lineOf u.addr == line) then [line] else []) ++
      (if s.needsBoundary c (homeOf lf line) line then s.boundaryHeld c else [])

/-- Bytes of a line that another owner's agent left pending: zero from the first write on (14 R353). -/
def Core.clearLine (k : Core) (line owner : Nat) : Sp Byte :=
  if Sp.get 0 k.overOwner line = owner then k.overlay
  else k.overlay.map fun kv => if lineOf kv.1 = line then (kv.1, 0#8) else kv

/-- A copy of a line takes stored bytes; what another owner's agent left there is zero (14 R353). -/
def L1Line.store (x : L1Line) (owner off : Nat) (bs : List Byte) (bad : Bool) : L1Line :=
  { x with
    data := Sp.write 0#8 (if x.owner = owner then x.data else []) off bs
    owner := owner
    bad := bad || (x.bad && !(off == 0 && bs.length == 128)) }

/-- A plain store within a line (08 R177, R181, R187, R189); `bad` stores poison (15 R380). -/
def State.storeBytes  (s : State) (c : Nat) (lf : Leaf)
    (pa : Nat) (bs : List Byte) (bad : Bool) : State :=
  let line := lineOf pa
  if homeUncached lf.home then
    let s := ((s.recall line).countHome line).dropL1 c line
    let s := s.commitBytes pa bs
    if bad then s.poisonLine line else s
  else
    let s := if (s.core c).upd.any (fun u => lineOf u.addr == line) then
        s.mergeCore c fun u => lineOf u.addr == line else s
    let s := if s.needsBoundary c (homeOf lf line) line then s.implicitBoundary c else s
    let owner := s.ownerOf pa
    s.modCore c fun k =>
      { k with
        overlay := (List.range bs.length).foldl (fun m i => Sp.put m (pa + i) (bs.getD i 0#8)) (k.clearLine line owner)
        overBad := if bad then Sp.set false k.overBad line true
          else if pa % 128 = 0 ∧ bs.length = 128 then Sp.set false k.overBad line false else k.overBad
        overOwner := Sp.put k.overOwner line owner
        overHome := Sp.put k.overHome line (homeOf lf line)
        l1 := match Sp.get? k.l1 line with
          | none => k.l1
          | some x => Sp.put k.l1 line (x.store owner (pa % 128) bs bad) }

/-- Good data of one store that covers whole lines clears their poison in the core's pending lines and copies (15
R389); where a store goes straight to the home it does so there. -/
def State.clearCovered (s : State) (c : Nat) (lines_ : List Nat) : State :=
  lines_.foldl (fun s line =>
    let s := if Sp.has (s.core c).overOwner line then s else { s with memBad := Sp.set false s.memBad line false }
    s.modCore c fun k => { k with
      overBad := Sp.set false k.overBad line false
      l1 := match Sp.get? k.l1 line with
        | none => k.l1
        | some x => Sp.put k.l1 line { x with bad := false } }) s

/-- Whole lines that byte ranges cover together. -/
def coveredLines (ranges : List (Nat × Nat)) : List Nat :=
  ((ranges.map fun r => lineOf r.1).eraseDups).filter fun k =>
    (List.range 128).all fun i => ranges.any fun r => decide (r.1 ≤ 128 * k + i) && decide (128 * k + i < r.1 + r.2)

/-- The lines for which an atomic at home must wait (08 R190, R191). -/
def State.atomHeld (s : State) (c pa : Nat) : List Nat :=
  let line := lineOf pa
  (if s.isOwned line then [line] else []) ++
    (if (s.core c).pendingLines.contains line then s.boundaryHeld c else [])

/-- `ATOM` at home (08 R190): recall, implicit boundary onto the core's own pending line, then one
indivisible read-modify-write, which leaves a poisoned line as it is (09 R215). The core's copy of the line is dropped, so that no later read returns
an earlier value (08 R174, R179). Answers the old value and the poison of the line. -/
def State.atomAt  (s : State) (c pa n : Nat)
    (f : Nat → Nat) : Nat × Bool × State :=
  let line := lineOf pa
  let s := (s.recall line).countHome line
  let s := if (s.core c).pendingLines.contains line then s.implicitBoundary c else s
  let old := ofBytes (s.homeBytes pa n)
  (old, s.linePoison line, (if s.linePoison line then s else s.commitBytes pa (toBytes n (f old))).dropL1 c line)

/-- The lines for which an `ATOMU` must wait. -/
def State.updHeld (s : State) (c : Nat) (lf : Leaf) (pa n : Nat) (op : BitVec 3) (ty : Ty) : List Nat :=
  let line := lineOf pa
  let clash := (s.core c).upd.any fun u =>
    lineOf u.addr == line && !(u.addr == pa && u.size == n && u.op == op && u.ty == ty) &&
      decide (u.addr < pa + n) && decide (pa < u.addr + u.size)
  (if s.isOwned line && (homeUncached lf.home || clash) then [line] else []) ++
    (if !homeUncached lf.home && (s.core c).pendingLines.contains line then s.boundaryHeld c else [])

/-- `ATOMU` of one lane (08 R188, R189). The core's copy of the line is dropped: the next load of it reaches the
home, which merges the update first (08 R179). -/
def State.updAt  (s : State) (c grp : Nat) (lf : Leaf)
    (pa n : Nat) (op : BitVec 3) (ty : Ty) (v : Nat) : State :=
  let line := lineOf pa
  let s := s.dropL1 c line
  if homeUncached lf.home then
    let s := (s.recall line).countHome line
    s.commitBytes pa (toBytes n (atomNew op ty (ofBytes (s.homeBytes pa n)) v 0))
  else
    let s := if (s.core c).pendingLines.contains line then s.implicitBoundary c else s
    let clash := fun (u : Upd) =>
      !(u.addr == pa && u.size == n && u.op == op && u.ty == ty) &&
        decide (u.addr < pa + n) && decide (pa < u.addr + u.size)
    let s := if (s.core c).upd.any clash then
        s.mergeCore c fun u => lineOf u.addr == line else s
    let s := s.maybeEvict c line
    s.modCore c fun k =>
      if k.upd.any fun u => u.addr == pa && u.size == n && u.op == op && u.ty == ty then
        { k with upd := k.upd.map fun u =>
            if u.addr == pa && u.size == n && u.op == op && u.ty == ty then
              { u with val := BitVec.ofNat 64 (atomNew op ty u.val.toNat v 0),
                       by_ := if u.by_.contains grp then u.by_ else u.by_ ++ [grp] }
            else u }
      else { k with upd := k.upd ++ [⟨pa, n, op, ty, BitVec.ofNat 64 v, [grp], s.ownerOf pa⟩] }

/-! ### Engines (08 R191 to R194) -/

/-- At the issue of an engine operation: its destination lines become owned; on the issuing core their
copies are dropped and the overlay bytes the operation will overwrite are discarded (08 R191, R192). -/
def State.claim (s : State) (c op : Nat) (lines_ : List Nat) (bytesAt : List (Nat × Nat)) : State :=
  -- a line that an earlier operation owns stays with it until its release
  let s := { s with owned := lines_.foldl (fun m l => if Sp.has m l then m else Sp.put m l op) s.owned }
  s.modCore c fun k =>
    { k with
      l1 := k.l1.filter fun kv => !lines_.contains kv.1
      overlay := bytesAt.foldl (fun m p => Sp.cut m p.1 p.2) k.overlay
      -- a line without a pending byte left carries nothing more
      overBad := k.overBad.filter fun kv =>
        (bytesAt.foldl (fun m p => Sp.cut m p.1 p.2) k.overlay).any fun b => lineOf b.1 == kv.1 }

/-- Bytes an engine reads for the issuing core, and their poison (08 R193). -/
def State.engineRead  (s : State) (c pa n : Nat) :
    List Byte × Bool × State :=
  let s := (s.recall (lineOf pa)).countHome (lineOf pa)
  ((List.range n).map fun i => s.missByte c (pa + i), s.missBad c (lineOf pa), s)

/-- An engine's write: committed, never phased (08 R191). -/
def State.engineWrite (s : State) (pa : Nat) (bs : List Byte) (bad : Bool) : State :=
  let s := (s.countHome (lineOf pa)).commitBytes pa bs
  if bad then s.poisonLine (lineOf pa) else s

/-- The operation that takes a line over when `op` releases it: the earliest issued of those that name it as
a destination and have not released it. -/
def State.nextOwner (s : State) (op line : Nat) : Option Nat :=
  (s.ops.find? fun kv => kv.1 != op && kv.2.lines.contains line && !kv.2.freed.contains line).map (·.1)

/-- The engine releases a line (08 R191); the next operation that has it as a destination owns it then. -/
def State.releaseLine (s : State) (op line : Nat) : State :=
  if Sp.get? s.owned line = some op then
    match s.nextOwner op line with
    | some k => { s with owned := Sp.put s.owned line k }
    | none => { s with owned := Sp.del s.owned line }
  else s

/-! ### Peers (08 R195) -/

/-- A load of bytes committed at a peer's home; the device's own id names its own homes (11 R254). -/
def State.peerBytes (s : State) (peer pa n : Nat) : List Byte :=
  if peer = s.fw.deviceId then s.homeBytes pa n else Sp.read 0#8 (Sp.get [] s.peerMem peer) pa n

/-- A write at a peer's home. -/
def State.peerCommit (s : State) (peer pa : Nat) (bs : List Byte) : State :=
  if peer = s.fw.deviceId then s.commitBytes pa bs
  else { s with peerMem := Sp.put s.peerMem peer (Sp.write 0#8 (Sp.get [] s.peerMem peer) pa bs) }

/-- Poison of a line at a peer's home. -/
def State.peerPoison (s : State) (peer pa : Nat) : Bool :=
  if peer = s.fw.deviceId then s.linePoison (lineOf pa)
  else Sp.get false (Sp.get [] s.peerBad peer) (lineOf pa)

def State.setPeerPoison (s : State) (peer line : Nat) (bad : Bool) : State :=
  if peer = s.fw.deviceId then { s with memBad := Sp.set false s.memBad line bad }
  else { s with peerBad := Sp.put s.peerBad peer (Sp.set false (Sp.get [] s.peerBad peer) line bad) }

/-- Payload of a link: its coding table changes at every 4 KiB, and its bandwidth is counted (11 R256). The
port that leads to a peer is fixed by the wiring. -/
def State.linkUse (s : State) (peer n : Nat) : State :=
  if peer = s.fw.deviceId then s
  else s.modFw fun f =>
    let p := (Config.linkPort peer).val
    let fill := Sp.get 0 f.codingFill p + n
    { f with
      linkBytes := Sp.put f.linkBytes p (Sp.get 0 f.linkBytes p + n)
      codingFill := Sp.put f.codingFill p (fill % 4096)
      codingStep := Sp.put f.codingStep p (Sp.get 0 f.codingStep p + fill / 4096)
      coding := if 4096 ≤ fill then Sp.put f.coding p false else f.coding }

/-- Lines of a list of overlay bytes. -/
def overLines (o : Sp Byte) : List Nat :=
  o.foldl (fun acc kv => if acc.head? = some (lineOf kv.1) then acc else lineOf kv.1 :: acc) []

/-- Lines at a peer that a commit of a core's overlays there waits for (08 R191 at the peer). -/
def State.peerHeld (s : State) (c peer : Nat) : List Nat :=
  ((overLines (Sp.get [] (s.core c).remote peer)).map (s.peerLine peer)).filter s.isOwned

/-- Lines that a commit of all of a core's remote overlays waits for. -/
def State.peersHeld (s : State) (c : Nat) : List Nat := (s.core c).remote.flatMap fun kv => s.peerHeld c kv.1

/-- Commit overlay bytes of a core at one peer; good data over a whole line clears its poison (15 R389). -/
def State.commitPart (s : State) (c peer : Nat) (sel : Nat → Bool) : State :=
  let o := Sp.get [] (s.core c).remote peer
  let go := o.filter fun kv => sel (lineOf kv.1)
  let s := go.foldl (fun s kv => s.peerCommit peer kv.1 [kv.2]) (s.linkUse peer go.length)
  let s := (overLines go).foldl (fun s ln =>
    if (Sp.slice go (128 * ln) 128).length = 128 then s.setPeerPoison peer ln false else s) s
  let rest := o.filter fun kv => !sel (lineOf kv.1)
  s.modCore c fun k =>
    { k with remote := if rest.isEmpty then Sp.del k.remote peer else Sp.put k.remote peer rest }

/-- Commit a core's overlays at one peer. -/
def State.commitPeer (s : State) (c peer : Nat) : State := s.commitPart c peer fun _ => true

/-- Commit a core's overlays at every peer (fence of scope domain, end of launch). -/
def State.commitPeers (s : State) (c : Nat) : State :=
  (s.core c).remote.foldl (fun s kv => s.commitPeer c kv.1) s

/-- An implicit remote commit is counted with the implicit boundaries (08 R195). -/
def State.countImplicit (s : State) (c : Nat) : State :=
  let s := s.modCore c fun k => { k with implb := k.implb + 1 }
  (s.launchesOn c).foldl (fun s l => s.modLaunch l fun x => { x with implb := x.implb + 1 }) s

/-- What a remote store to a line commits first: nothing, the lines at one peer, or all remote lines (08 R195). -/
inductive RemoteRoom where
  | enough
  | onePeer
  | allPeers
  deriving DecidableEq, Repr

/-- The limits of 08 R195 on pending lines at peers. -/
def State.remoteRoom (s : State) (c peer pa : Nat) : RemoteRoom :=
  let k := s.core c
  let mine := overLines (Sp.get [] k.remote peer)
  let total : Nat := (k.remote.map fun kv => (overLines kv.2).length).foldl (· + ·) 0
  if mine.contains (lineOf pa) then .enough
  else if total ≥ 2048 then .allPeers
  else if mine.length ≥ 64 then .onePeer
  else .enough

/-- Lines that a remote store waits for. -/
def State.peerStoreHeld (s : State) (c peer pa : Nat) : List Nat :=
  match s.remoteRoom c peer pa with
  | .enough => []
  | .onePeer => s.peerHeld c peer
  | .allPeers => s.peersHeld c

/-- A remote store: a pending overlay at the peer's home, with the limits of 08 R195. -/
def State.peerStoreBytes (s : State) (c peer pa : Nat) (bs : List Byte) : State :=
  let s := match s.remoteRoom c peer pa with
    | .enough => s
    | .onePeer => (s.commitPeer c peer).countImplicit c
    | .allPeers => (s.commitPeers c).countImplicit c
  s.modCore c fun k =>
    let o := (List.range bs.length).foldl (fun m i => Sp.put m (pa + i) (bs.getD i 0#8))
      (Sp.get [] k.remote peer)
    { k with remote := Sp.put k.remote peer o }

/-- The core has a pending overlay on the line at the peer's home. -/
def State.pendsAt (s : State) (c peer line : Nat) : Bool :=
  (overLines (Sp.get [] (s.core c).remote peer)).contains line

/-- A remote read-modify-write: the core's own overlay on the line is committed first (08 R195). At this device's
own homes the core keeps no older copy of the line (08 R174). A poisoned line stays as it is (09 R215). -/
def State.peerAtomAt (s : State) (c peer pa n : Nat) (f : Nat → Nat) : Nat × Bool × State :=
  let line := lineOf pa
  let s := if s.pendsAt c peer line then (s.commitPart c peer (· == line)).countImplicit c else s
  let s := s.linkUse peer (2 * n)
  let s := if peer = s.fw.deviceId then (s.countHome line).dropL1 c line else s
  let old := ofBytes (s.peerBytes peer pa n)
  (old, s.peerPoison peer pa, if s.peerPoison peer pa then s else s.peerCommit peer pa (toBytes n (f old)))

/-! ### Translation (14 R344 to R350) -/

/-- What an access needs of a leaf. -/
inductive Access where
  | load | store | atomic | fetch
  deriving DecidableEq, Repr

def Access.writes : Access → Bool
  | .store => true
  | .atomic => true
  | _ => false

/-- The permission check (14 R346; 03 Table 3.11). -/
def Access.allowed (a : Access) (lf : Leaf) : Bool :=
  match a with
  | .load => lf.r
  | .store => lf.w
  | .atomic => lf.r && lf.w
  | .fetch => lf.x && !lf.w

/-- Key of a translation: the bits that it covers, the ASID, and the first 128 KiB page it covers. -/
def tlbKey (span asid va : Nat) : Nat := (span * 2 ^ 16 + asid) * 2 ^ 40 + va / 2 ^ span * 2 ^ (span - 17)

/-- The sizes of translations: the three leaf sizes and the 4 MiB group (14 Table 14.1, R347). -/
def tlbSpans : List Nat := [17, groupBits, 28, 39]

/-- The translation of a page in a TLB. -/
def tlbFind (m : Sp Leaf) (asid va : Nat) : Option Leaf := tlbSpans.findSome? fun b => Sp.get? m (tlbKey b asid va)

/-- Insert a translation into a TLB of a capacity; which entry makes room is open. -/
def tlbPut (s : State) (cap : Nat) (m : Sp Leaf) (k : Nat) (lf : Leaf) : Sp Leaf × State :=
  if m.length < cap || Sp.has m k then (Sp.put m k lf, s)
  else
    let c := s.choose m.length
    (Sp.put (Sp.del m ((m.getD c.1 (0, lf)).1)) k lf, c.2)

/-- A page is in a set of pages of an ASID: a first page and a count, or all. -/
def inPages (p : Nat × Option (Nat × Nat)) (asid va : Nat) : Bool :=
  p.1 == asid && (match p.2 with
    | some (q, n) => decide (q ≤ va / 2 ^ 17) && decide (va / 2 ^ 17 < q + n)
    | none => true)

/-- The leaf that a core uses for a page: its TLB, the shared TLB of the slice that a hash of the page names, or a
walk (14 R349). A page that the core has dropped alone is walked anew (14 R357). -/
def State.lookup (s : State) (c asid va : Nat) : Walk × State :=
  match tlbFind (s.core c).tlb asid va with
  | some lf => (.leaf lf, s)
  | none =>
    let sl := (Config.tlbSlice asid (va / 2 ^ 17)).val
    let shared := Sp.get [] s.stlb sl
    let known := if (s.core c).anew.any fun p => inPages p asid va then none else tlbFind shared asid va
    let r := match known with
      | some lf => Walk.leaf lf
      | none => s.walk asid va
    match r with
    | .leaf lf =>
      if lf.mig then (r, s)
      else
        let k := tlbKey lf.span asid va
        let old := shared.filter fun kv => known.isSome || (tlbSpans.all fun b => kv.1 != tlbKey b asid va)
        let q := tlbPut s 8192 old k lf
        let s := { q.2 with stlb := Sp.put s.stlb sl q.1 }
        let p := tlbPut s 2048 (s.core c).tlb k lf
        (r, p.2.modCore c fun x => { x with tlb := p.1 })
    | r => (r, s)

/-- VLINE of a virtual address (15 Table 15.2). -/
def vlineOf (va : Nat) : BitVec 64 := BitVec.ofNat 64 (va / 128 * 128)

/-- Translate an access: the physical address and leaf, or what faults it. A page under migration and
a page not present may be serviced (14 R350). Sets A, and D on the first write (14 R346). -/
def State.translate (s : State) (c asid va : Nat) (a : Access) : Except Flt (Nat × Leaf) × State :=
  if 2 ^ 57 ≤ va then (.error { cause := 0x02#8, vline := vlineOf (va % 2 ^ 57) }, s)
  else
    match s.lookup c asid va with
    | (.notPresent, s) =>
      (.error { cause := 0x01#8, vline := vlineOf va, page := some (asid, va / 2 ^ 17) }, s)
    | (.bad, s) => (.error { cause := 0x02#8, vline := vlineOf va }, s)
    | (.poison, s) => (.error { cause := 0x04#8, vline := vlineOf va, err := true }, s)
    | (.leaf lf, s) =>
      if lf.mig then
        (.error { cause := 0x01#8, vline := vlineOf va, page := some (asid, va / 2 ^ 17) }, s)
      else if !a.allowed lf then (.error { cause := 0x02#8, vline := vlineOf va }, s)
      else
        let s := s.markEntry (lf.entryOf va) (a.writes && !(lf.dirty && lf.span == leafBits lf.level))
        let s := if a.writes && !lf.dirty && lf.span == leafBits lf.level then
            let k := tlbKey lf.span asid va
            s.modCore c fun x => { x with tlb := if Sp.has x.tlb k then Sp.put x.tlb k { lf with dirty := true } else x.tlb }
          else s
        (.ok (lf.pa va, lf), s)

end Sys2Proof.Machine
end

