-- ==== Sys2Proof/Machine/Record.lean ====
section
/-! DEFINITION. Buffer records (09 R201 to R203, R219; 13 R323) and the exact texel channels of `FLT`
(13 Table 13.12). -/

namespace Sys2Proof.Machine

open Sys2Proof

/-- The fields of a record (09 Table 9.1). -/
structure RecView where
  rsvd : Bool
  kind : Nat
  peer : Nat
  oobTrap : Bool
  w : Bool
  r : Bool
  swizzle : Nat
  format : Nat
  extentY : Nat
  strideY : Nat
  extentX : Nat
  base : Nat
  deriving DecidableEq, Repr

/-- Read the fields; `rsvd` says that every reserved field is zero. -/
def recView (x : Rec) : RecView :=
  let n := x.toNat
  { rsvd := field n 252 4 == 0 && field n 234 2 == 0 && field n 192 28 == 0 && field n 57 7 == 0
    kind := field n 248 4, peer := field n 237 11, oobTrap := field n 236 1 == 1
    w := field n 233 1 == 1, r := field n 232 1 == 1, swizzle := field n 228 3
      + 8 * field n 231 1
    format := field n 220 8, extentY := field n 160 32, strideY := field n 112 48
    extentX := field n 64 48, base := field n 0 57 }

/-- A valid record (09 R202). -/
def recValid (x : Rec) : Bool :=
  let r := recView x
  (r.rsvd && decide (r.kind ≤ 3) &&
    (if r.kind = 3 then decide (r.peer ≤ 1151) else r.peer == 0x7FF) &&
    decide (r.swizzle ≤ 3) && (r.swizzle == 0 || r.strideY % (16 * 2 ^ r.swizzle) == 0) &&
    (decide (r.format ≤ 0x0E) || (decide (0x10 ≤ r.format) && decide (r.format ≤ 0x17))) &&
    (decide (r.extentY ≤ 1) || decide (r.extentX ≤ r.strideY)) &&
    (r.extentX == 0 || r.extentY == 0 ||
      decide (r.base + (r.extentY - 1) * r.strideY + r.extentX ≤ 2 ^ 57)) &&
    -- what a ring's record must hold whatever the stream (13 R323)
    (r.kind != 2 || (r.base / 2 ^ 7 == 0 && r.swizzle == 0)))

/-- The address of byte x of row y (09 R203). -/
def RecView.ea (r : RecView) (x y : Nat) : Nat :=
  let x := if r.swizzle = 0 then x else x ^^^ (y % 2 ^ r.swizzle * 16)
  r.base + y * r.strideY + x

/-- An access of `n` bytes at byte x of row y is in bounds (09 R203). -/
def RecView.inside (r : RecView) (x y : Int) (n : Nat) : Bool :=
  decide (0 ≤ x) && decide (x + n ≤ r.extentX) && decide (0 ≤ y) && decide (y < r.extentY)

/-- The record of 09 R219, before its own checks: narrowed to a window of wx bytes by wy rows. -/
def narrowRec (x : Rec) (x0 y0 wx wy : Nat) (noR noW trap : Bool) : Rec :=
  let r := recView x
  let ex := min wx (r.extentX - x0)
  let ey := min wy (r.extentY - y0)
  let base := if ex = 0 ∨ ey = 0 then 0 else (r.base + y0 * r.strideY + x0) % 2 ^ 57
  let keep := x.toNat / 2 ^ 192 * 2 ^ 192
  let flags := keep - (if noR && r.r then 2 ^ 232 else 0) - (if noW && r.w then 2 ^ 233 else 0) +
    (if trap && !r.oobTrap then 2 ^ 236 else 0)
  BitVec.ofNat 256 (flags + ey * 2 ^ 160 + r.strideY * 2 ^ 112 + ex * 2 ^ 64 + base)

/-! ### Texel formats -/

/-- Bytes of a texel (13 Table 13.12). -/
def texelBytes : Nat → Nat
  | 0x10 => 1
  | 0x11 => 2
  | 0x15 => 8
  | 0x17 => 16
  | _ => 4

/-- The greatest number below 2^41 whose fifth power does not exceed `x`. -/
def fifthRoot (x : Nat) : Nat :=
  (List.range 41).foldl (fun r k => let c := r + 2 ^ (40 - k)
    if c ^ 5 ≤ x then c else r) 0

/-- The sRGB transfer function of c/255, times 2^40, rounded down, and whether that is inexact: above
0.04045 it is ((c/255 + 0.055)/1.055)^2.4, below it c/255/12.92. -/
def srgbBits (c : Nat) : Nat × Bool :=
  if c * 100000 ≤ 4045 * 255 then
    (c * 100 * 2 ^ 40 / (255 * 1292), c * 100 * 2 ^ 40 % (255 * 1292) != 0)
  else
    let a := 1000 * c + 14025
    let b := 269025
    let n := a ^ 12 * 2 ^ 200
    let r := fifthRoot (n / b ^ 12)
    (r, r ^ 5 * b ^ 12 != n)

end Sys2Proof.Machine
end

