-- ==== Sys2Proof/Machine/Scratch.lean ====
section
/-! DEFINITION. The scratchpad of a team: bytes, poison, presence (09 R209 to R211), and completion
objects (09 R226 to R228). -/

namespace Sys2Proof.Machine

open Sys2Proof

/-- 32-byte sectors that an access covers (09 R210). -/
def sectorsOf (off n : Nat) : List Nat :=
  (List.range ((off + max n 1 + 31) / 32 - off / 32)).map (off / 32 + ·)

def Team.scrBytes (t : Team) (off n : Nat) : List Byte := clearRead t.scrFilled 32 t.scratch off n
def Team.scrPoison (t : Team) (off n : Nat) : Bool :=
  (sectorsOf off n).any fun k => Sp.get false t.scrBad k
/-- A sector is absent while an outstanding operation writes it (09 R210). -/
def Team.scrAbsent (t : Team) (off n : Nat) : List Nat :=
  (sectorsOf off n).filter fun k => Sp.get 0 t.absent k != 0

/-- Write bytes; good data over a whole sector clears its poison (15 R389). -/
def Team.scrWrite (t : Team) (off : Nat) (bs : List Byte) (bad : Bool) : Team :=
  let q := clearFill t.scrFilled 32 t.scratch off bs
  { t with
    scratch := q.1
    scrFilled := q.2
    scrBad := (if bs.isEmpty then [] else sectorsOf off bs.length).foldl (fun m k =>
      if bad then Sp.set false m k true
      else if off ≤ 32 * k ∧ 32 * k + 32 ≤ off + bs.length then Sp.set false m k false
      else m) t.scrBad }

/-- Sectors that byte ranges cover together. -/
def coveredSectors (ranges : List (Nat × Nat)) : List Nat :=
  ((ranges.flatMap fun r => sectorsOf r.1 r.2).eraseDups).filter fun k =>
    (List.range 32).all fun i => ranges.any fun r => decide (r.1 ≤ 32 * k + i) && decide (32 * k + i < r.1 + r.2)

/-- Good data of one store that covers whole sectors clears their poison (15 R389). -/
def Team.clearCovered (t : Team) (ranges : List (Nat × Nat)) : Team :=
  if t.scrBad.isEmpty then t
  else { t with scrBad := (coveredSectors ranges).foldl (fun m k => Sp.set false m k false) t.scrBad }

/-- Change the count of outstanding writers of sectors. -/
def Team.bumpAbsent (t : Team) (ks : List Nat) (up : Bool) : Team :=
  { t with absent := ks.foldl (fun m k =>
      let v := Sp.get 0 m k
      Sp.set 0 m k (if up then v + 1 else v - 1)) t.absent }

/-- Change the count of outstanding `TST` readers of sectors (09 R236). -/
def Team.bumpBusy (t : Team) (ks : List Nat) (up : Bool) : Team :=
  { t with tstBusy := ks.foldl (fun m k =>
      let v := Sp.get 0 m k
      Sp.set 0 m k (if up then v + 1 else v - 1)) t.tstBusy }

/-! ### Completion objects (09 Table 9.7) -/

/-- The fields of an object. -/
structure Obj where
  credit : Nat
  quota : Nat
  left : Nat
  quorum : Nat
  phase : Nat
  rsvd : Nat
  deriving DecidableEq, Repr

def Obj.of (x : Nat) : Obj :=
  ⟨field x 0 32, field x 32 32, field x 64 12, field x 76 12, field x 88 2, field x 90 38⟩

def Obj.num (o : Obj) : Nat :=
  o.credit + o.quota * 2 ^ 32 + o.left * 2 ^ 64 + o.quorum * 2 ^ 76 + o.phase * 2 ^ 88 + o.rsvd * 2 ^ 90

/-- Completion, evaluated after each change: at LEFT = 0 and CREDIT = QUOTA the phase advances and the
counters reset in one step (09 R226). -/
def Obj.settle (o : Obj) : Obj :=
  if o.left = 0 ∧ o.credit = o.quota then
    { o with phase := (o.phase + 1) % 4, left := o.quorum, credit := 0, quota := 0 }
  else o

/-- An engine credit or a remote signal (09 R228). -/
def Obj.addCredit (o : Obj) (n : Nat) : Obj := { o with credit := (o.credit + n) % 2 ^ 32 }.settle

/-- An arrival that announces bytes (09 Table 9.8). -/
def Obj.announce (o : Obj) (n : Nat) : Obj :=
  { o with quota := (o.quota + n) % 2 ^ 32, left := o.left - 1 }.settle

def Team.obj (t : Team) (off : Nat) : Obj := Obj.of (ofBytes (t.scrBytes off 16))
def Team.setObj (t : Team) (off : Nat) (o : Obj) : Team := t.scrWrite off (toBytes 16 o.num) false

/-- An object changes; a phase that completes leaves word whether an engine's credits were among those that
satisfied it (08 R194). -/
def Team.changeObj (t : Team) (off : Nat) (o : Obj) (engine : Bool) : Team :=
  let old := t.obj off
  let eng := engine || Sp.get false t.engNow off
  let t := t.setObj off o
  if o.phase = old.phase then { t with engNow := Sp.set false t.engNow off eng }
  else { t with engNow := Sp.set false t.engNow off false
                engDone := Sp.set false t.engDone (4 * off + old.phase) eng }

/-- Credit an object of a team that stands on a core, from an engine or by a remote signal; a saved team holds the
credit (15 R382). -/
def Team.credit (t : Team) (off n : Nat) (op : Option Nat) (engine : Bool) : Team :=
  if t.life = .resident ∨ t.life = .placed then t.changeObj off ((t.obj off).addCredit n) engine
  else { t with held := t.held ++ [⟨off, BitVec.ofNat 32 n, op, engine⟩] }

end Sys2Proof.Machine
end

