-- ==== Sys2Proof/Machine/Ring.lean ====
section
/-! DEFINITION. Strip rings (13 R312, R322 to R332): their geometry, the deadline of a strip, the moves of a
slot, and the arrivals of a launch at `SREL`. -/

namespace Sys2Proof.Machine

open Sys2Proof

/-! ### Geometry and times -/

/-- A strip stream, display or encoder (13 R324). -/
def StreamDesc.isStrip (d : StreamDesc) : Bool := decide (d.sink < 2)
/-- Hr: source lines of a strip. -/
def StreamDesc.hr (d : StreamDesc) : Nat := d.h * d.rndh / d.outh
/-- K: strips of a frame. -/
def StreamDesc.strips (d : StreamDesc) : Nat := d.outh / d.h
def StreamDesc.slots (d : StreamDesc) (out : Bool) : Nat := if out then d.no else d.ns
def StreamDesc.lines (d : StreamDesc) (out : Bool) : Nat := if out then d.h else d.hr
def StreamDesc.fmt (d : StreamDesc) (out : Bool) : Nat := if out then d.ofmt else d.sfmt
/-- Bytes of a line, and the whole 4 KiB units that it occupies. -/
def StreamDesc.lineBytes (d : StreamDesc) (out : Bool) : Nat :=
  if out then d.outw * texelBytes d.ofmt else d.rndw * texelBytes d.sfmt
def StreamDesc.lineUnit (d : StreamDesc) (out : Bool) : Nat := roundUp (d.lineBytes out) 4096
/-- Q: instances outstanding at once (13 R316). -/
def StreamDesc.q (d : StreamDesc) : Nat := min d.ns d.no - 1

/-- Slot of strip g. -/
def StreamDesc.slotOf (d : StreamDesc) (out : Bool) (g : Nat) : Nat := g % d.slots out

/-- Address of byte x of a line of a slot within the ring. -/
def StreamDesc.ringAddr (d : StreamDesc) (out : Bool) (slot line x : Nat) : Nat :=
  (slot * d.lines out + line) * d.lineUnit out + x

/-- Time that an encoder has stalled, a stall under way included (13 R309, R331). -/
def Stream.stallTime (st : Stream) (now : BitVec 64) : Nat :=
  st.stallNs + (match st.stalled with
    | some t => (now - t).toNat
    | none => 0)

/-- F of strip g (13 R312): exact, cut toward −∞. -/
def Stream.deadline (st : Stream) (now : BitVec 64) (g : Nat) : Int :=
  let d := st.d
  let f := g / d.strips
  let k := g % d.strips
  let base : Int := (d.t0 * 2 ^ 32 + f * d.pframe : Nat)
  if d.sink = 0 then (base + ((k * d.h * d.pline : Nat) : Int) - ((d.margin * d.pline : Nat) : Int)) / 2 ^ 32
  else (base + ((k * d.pslot : Nat) : Int)) / 2 ^ 32 + (st.stallTime now : Nat)

/-- F of an instance: an encoder stall moves the F of strips that are not yet taken only (13 R312). -/
def State.instF (s : State) (k : Nat) : Int :=
  let x := s.instance_ k
  let st := s.stream x.stream
  if st.d.isStrip && !(st.d.sink == 1 && decide (x.g < st.sinkNext)) then st.deadline s.time x.g else x.f

/-! ### Slots -/

def Stream.ring (st : Stream) (out : Bool) : Sp Slot := if out then st.out else st.src
def Stream.slot (st : Stream) (out : Bool) (i : Nat) : Slot := Sp.get {} (st.ring out) i
def Stream.setSlot (st : Stream) (out : Bool) (i : Nat) (x : Slot) : Stream :=
  if out then { st with out := Sp.put st.out i x } else { st with src := Sp.put st.src i x }

def Stream.data (st : Stream) (out : Bool) : Sp Byte := if out then st.outData else st.srcData
def Stream.poison (st : Stream) (out : Bool) : Sp Bool := if out then st.outBad else st.srcBad

def Stream.filled (st : Stream) (out : Bool) : Sp Bool := if out then st.outFilled else st.srcFilled

/-- Bytes of a ring; a 4 KiB unit under its clear mark reads as zero (14 R353). -/
def Stream.ringRead (st : Stream) (out : Bool) (at_ n : Nat) : List Byte :=
  clearRead (st.filled out) 4096 (st.data out) at_ n

/-- Bytes into a ring; a partial store leaves a poisoned sector poisoned (15 R389). -/
def Stream.ringWrite (st : Stream) (out : Bool) (at_ : Nat) (bs : List Byte) : Stream :=
  let q := clearFill (st.filled out) 4096 (st.data out) at_ bs
  if out then { st with outData := q.1, outFilled := q.2 } else { st with srcData := q.1, srcFilled := q.2 }

/-- Good data of one store that covers whole sectors of a ring clears their poison (15 R389). -/
def Stream.clearCovered (st : Stream) (out : Bool) (ranges : List (Nat × Nat)) : Stream :=
  let go := fun (m : Sp Bool) => (coveredSectors ranges).foldl (fun m k => Sp.set false m k false) m
  if out then (if st.outBad.isEmpty then st else { st with outBad := go st.outBad })
  else (if st.srcBad.isEmpty then st else { st with srcBad := go st.srcBad })

/-- The last h lines of a source slot become the halo, tagged with the strip (13 R328). -/
def Stream.copyHalo (st : Stream) (i g : Nat) : Stream :=
  let d := st.d
  let from_ := d.ringAddr false i (d.hr - d.halo) 0
  let n := d.halo * d.lineUnit false
  let bytes := ((Sp.slice st.srcData from_ n).map fun kv => (kv.1 - from_, kv.2))
  let bad := ((Sp.slice st.srcBad (from_ / 32) (n / 32)).map fun kv => (kv.1 - from_ / 32, kv.2))
  let fill := ((Sp.slice st.srcFilled (from_ / 4096) (n / 4096)).map fun kv => (kv.1 - from_ / 4096, kv.2))
  { st with haloData := bytes, haloBad := bad, haloFilled := fill, haloTag := some g }

/-- `SREL.done`: ACQUIRED to WRITTEN, MISSED to FREE (13 Table 13.6). -/
def Stream.slotDone (st : Stream) (out : Bool) (i : Nat) : Stream :=
  let x := st.slot out i
  match x.life with
  | .acquired => st.setSlot out i { x with life := .written }
  | .missed => st.setSlot out i { x with life := .free }
  | _ => st

/-- `SREL.cons`: CONSUMING to RELEASED, and at once FREE. -/
def State.slotCons (s : State) (stream i : Nat) (halo : Bool) : State :=
  let x := (s.stream stream).slot false i
  if x.life ≠ .consuming then s
  else
    let s := s.modStream stream fun st =>
      ((if halo then st.copyHalo i x.g else st).setSlot false i { x with life := .free })
    s.modInst x.inst fun k => { k with srcDone := true }

/-- `SACQ` for an instance and launch: the slot number it holds afterwards, none while it must wait (13
R326, R332). -/
def State.takeSlot (s : State) (inst launch : Nat) (out : Bool) : Option (Nat × State) :=
  let k := s.instance_ inst
  let st := s.stream k.stream
  let i := st.d.slotOf out k.g
  let x := st.slot out i
  let held := x.life != .free && x.inst == inst
  if held then some (i, s)
  else if x.life ≠ .free then none
  else
    let life : SlotLife := if out && st.missed.contains k.g then .missed else .acquired
    some (i, s.modStream k.stream fun st => st.setSlot out i
      { life := life, g := k.g, inst := inst, launch := launch, consumer := 0, used := true })

/-- Groups that wait in `SACQ` take the slot when they can; `d` is written then. -/
def State.wakeRings (s : State) (stream : Nat) : State :=
  s.groups.foldl (fun s kv =>
    match (s.grp kv.1).wait with
    | some (.ring st out dst) =>
      if st ≠ stream then s
      else
        let l := ((s.teamOf kv.1)).launch
        match (s.launch l).inst with
        | none => s
        | some k => match s.takeSlot k l out with
          | none => s
          | some (i, s) => s.modGrp kv.1 fun g => { g.writeDst dst 1 0 i with wait := none }
    | _ => s) s

/-! ### Arrivals at SREL -/

/-- Whether a declared group has ended. -/
def State.groupEnded (s : State) (n : Nat) : Bool := !(s.grp n).live

/-- The declared groups of a team that have exited, as bits of `%GID`. -/
def State.exitedGids (s : State) (t : Team) : BitVec 32 :=
  maskOf ((t.groups.filter fun kv => decide (kv.1 < 32) && s.groupEnded kv.2).map (·.1))

/-- Key of an arrival: form 0 `.done`, 1 `.cons`, 2 `.cons.halo`; the ring; the stream. -/
def srelKey (form : Nat) (out : Bool) (stream : Nat) : Nat := form + 4 * (if out then 1 else 0) + 8 * stream

/-- Every team of a launch has arrived under a key (13 R327). -/
def State.srelReady (s : State) (l key : Nat) : Bool :=
  let ts := s.teams.filter fun kv => kv.2.launch == l && kv.2.life != .none
  let all := fun (t : Team) => maskOf (List.range t.ngroups)
  decide ((s.launch l).placed = (s.launch l).r.grid) && ts.all fun kv =>
    let t := kv.2
    decide (t.life = .ended) || (Sp.get 0#32 t.srel key ||| s.exitedGids t) == all t

/-- Slots move whose arrivals are complete. -/
def State.turnRings (s : State) (l : Nat) : State :=
  match (s.launch l).inst with
  | none => s
  | some k =>
    let ts := s.teams.filter fun kv => kv.2.launch == l && kv.2.life != .none
    let keys := (ts.flatMap fun kv => kv.2.srel.map (·.1)).eraseDups
    keys.foldl (fun s key =>
      if !s.srelReady l key then s
      else
        let out := key / 4 % 2 == 1
        let i := (s.stream (key / 8)).d.slotOf out (s.instance_ k).g
        let s := ts.foldl (fun s kv => s.modTeam kv.1 fun t => { t with srel := Sp.del t.srel key }) s
        let s := if key % 4 = 0 then s.modStream (key / 8) fun st => st.slotDone out i
          else s.slotCons (key / 8) i (key % 4 == 2)
        s.wakeRings (key / 8)) s

/-- At a launch's end its slots move as if it had released them (13 R325, R327). -/
def State.ringsAtEnd (s : State) (l : Nat) : State :=
  match (s.launch l).inst with
  | none => s
  | some k =>
    let n := (s.instance_ k).stream
    let st := s.stream n
    let mine := fun (out : Bool) => (st.ring out).filter fun kv => kv.2.launch == l
    let s := (mine false).foldl (fun s kv => s.modStream n fun st => st.slotDone false kv.1) s
    let s := (mine true).foldl (fun s kv => s.modStream n fun st => st.slotDone true kv.1) s
    let s := st.src.foldl (fun s kv =>
      if kv.2.life = .consuming ∧ kv.2.consumer = l then s.slotCons n kv.1 (decide (0 < st.d.halo)) else s) s
    s.wakeRings n

end Sys2Proof.Machine
end

