-- ==== Sys2Proof/Machine/Sync.lean ====
section
/-! DEFINITION. What follows an instruction: loops that repeat or end (12 R303), `CONV` releases (12
R302), barrier phases (09 R222 to R225), the end of groups and teams (02 R26; 10 R243, R247; 15 R385 to
R387), and the completion of an issue with its faults, windows and interlocks. -/

namespace Sys2Proof.Machine

open Sys2Proof

/-! ### Loops and convergence -/

/-- One loop whose whole set has parked at its tail counts down, and repeats or ends (12 R303). -/
def Group.turnLoop (g : Group) (c : LoopCtx) : Group :=
  let rest := g.loops.filter fun d => d.ctr != c.ctr
  if c.set = 0#32 then { g with loops := rest }
  else if c.tail &&& c.set = c.set then
    let n := g.lcreg c.ctr - 1#32
    let g := g.setLc c.ctr n
    if n = 0#32 then
      let g := { g with loops := rest }
      let g := g.noteRelease (c.set &&& c.away) c.stop c.prio
      let g := g.arrive c.stop c.prio (c.set &&& ~~~c.away &&& ~~~c.trapTail) false c.tailPc
      g.arrive c.stop c.prio (c.set &&& c.trapTail) true c.tailPc
    else
      let ls := maskLanes c.set
      -- the implicit return to the top ends windows (03 R57)
      let g : Group := { g with
        loops := g.loops.map fun (d : LoopCtx) =>
          if d.ctr = c.ctr then { d with tail := 0#32, away := 0#32, trapTail := 0#32 } else d
        windows := g.windows.map fun w =>
          { w with left := w.left.filter fun kv => kv.1 != 32 && !ls.contains kv.1 } }
      (g.release (c.set &&& ~~~c.trapTail) c.away c.top c.prio).addLanes c.top c.prio (c.set &&& c.trapTail) true
  else g

def Group.turnLoops (g : Group) : Group := g.loops.foldl Group.turnLoop g

/-- Every lane of k has parked at a `CONV` naming k, exited or been killed (12 R302). -/
def Group.convReady (g : Group) (k : Nat) : Bool :=
  let here := orMasks (·.mask) (g.conv.filter fun c => c.k == k)
  here != 0#32 && (g.kreg k &&& ~~~(here ||| g.gone)) == 0#32

/-- Release the lanes parked at every `CONV` whose mask is complete. -/
def Group.turnConvs (g : Group) : Group :=
  let ready := g.conv.filter fun c => g.convReady c.k
  let g := { g with conv := g.conv.filter fun c => !g.convReady c.k }
  ready.foldl (fun g c =>
    let g := g.noteRelease (c.mask &&& c.away) c.next c.prio
    g.arrive c.next c.prio (c.mask &&& ~~~c.away) false c.pc) g

/-- Loops and convergence to a standstill: each turn can free lanes for at most one more loop level. -/
def Group.turn (g : Group) : Group := (((g.turnLoops).turnConvs).turnLoops).turnLoops

/-! ### Barriers -/

/-- A named barrier of a team: the default count until `BARI` sets one (09 R222). -/
def Team.bar (t : Team) (id : Nat) : Bar := (Sp.get? t.bars id).getD { expected := t.ngroups }
def Team.setBar (t : Team) (id : Nat) (b : Bar) : Team := { t with bars := Sp.put t.bars id b }

def popCount (x : BitVec 32) : Nat := maskCount x

/-- Complete the phase of one barrier when its arrivals equal the expected count (09 R222). -/
def turnBar (exited : BitVec 32) (b : Bar) : Bar :=
  let here := if b.dflt then b.arrived ||| exited else b.arrived
  if b.arrived ≠ 0#32 ∧ popCount here = b.expected then { b with arrived := 0#32, phase := b.phase + 1 }
  else b

def State.turnBars (s : State) (tn : Nat) : State :=
  let ex := s.exitedGids (s.team tn)
  s.modTeam tn fun t => { t with bars := t.bars.map fun kv => (kv.1, turnBar ex kv.2) }

/-- The teams of a team's cluster, by number. -/
def State.siblings (s : State) (t : Team) : List (Nat × Team) :=
  s.teams.filter fun kv => kv.2.launch == t.launch && kv.2.clz == t.clz && kv.2.life != .none

/-- A team's bit within its cluster: its index `%CLY`·X + `%CLX` (09 R205). -/
def State.clusterBit (s : State) (t : Team) : BitVec 16 :=
  (laneBit (t.cly * (s.launch t.launch).r.cx + t.clx)).setWidth 16

/-- A team arrives at the cluster barrier when its last group that has not exited has executed `CBAR`;
a boundary on its core precedes the arrival (09 R225, 08 Table 8.2). -/
def State.cbarTeam (s : State) (tn : Nat) : State :=
  let t := s.team tn
  let all := maskOf (List.range t.ngroups)
  let bit := s.clusterBit t
  let key := clusterKey t.launch t.clz
  let cl := Sp.get {} s.clusters key
  if t.cbar ≠ 0#32 ∧ (t.cbar ||| s.exitedGids t) = all ∧ (cl.arrived &&& bit) = 0#16 ∧
      (s.boundaryHeld t.core).isEmpty then
    let s := s.boundary t.core
    { s with clusters := Sp.put s.clusters key { cl with arrived := cl.arrived ||| bit } }
  else s

/-- The cluster phase completes when every team has arrived; an ended team takes no part. -/
def State.turnCluster (s : State) (tn : Nat) : State :=
  let t := s.team tn
  let sib := s.siblings t
  let s := sib.foldl (fun s kv => s.cbarTeam kv.1) s
  let key := clusterKey t.launch t.clz
  let cl := Sp.get {} s.clusters key
  let waits := fun (u : Team) => !(decide (u.life = .ended)) && !(s.exitedGids u == maskOf (List.range u.ngroups))
  if cl.arrived ≠ 0#16 ∧ sib.all (fun kv => !waits kv.2 ||
      (cl.arrived &&& s.clusterBit kv.2) != 0#16) then
    let s := { s with clusters := Sp.put s.clusters key { arrived := 0#16, phase := cl.phase + 1 } }
    sib.foldl (fun s kv => s.modTeam kv.1 fun u => { u with cbar := 0#32 }) s
  else s

/-! ### The end of reads, groups and teams -/

/-- The status word of a `BREAD` (10 Table 10.3). -/
def BulkRead.statusWord (r : BulkRead) : Word :=
  let err := r.bad != 0 || r.trapd || r.oob
  BitVec.ofNat 32 (2 ^ 31 + (if err then 2 ^ 30 else 0) + (if r.oob then 2 ^ 29 else 0) +
    (if r.trapd then 2 ^ 28 else 0) + min r.bad 4095 * 2 ^ 16 + r.deliv)

/-- The cause that an unread failed `BREAD` reports (10 R251). -/
def BulkRead.reportCause (r : BulkRead) : BitVec 8 :=
  if r.failCause ≠ 0#8 then r.failCause
  else if r.poisoned then 0x04#8
  else if r.trapd then r.trapCause
  else 0x03#8

/-- An operation ends: the counts of its group and launch fall. -/
def State.dropOutstanding (s : State) (grp launch : Nat) : State :=
  let s := s.modGrp grp fun g => { g with outstanding := g.outstanding - 1 }
  s.modLaunch launch fun l => { l with outstanding := l.outstanding - 1 }

/-- Release the interlocks of a kind. -/
def Group.unlock (g : Group) (p : Lock → Bool) : Group :=
  { g with locks := g.locks.filter fun k => !p k }

/-- A declared group that lingers only for its operations has drained (02 R26). -/
def State.drainGroup (s : State) (n : Nat) : State :=
  let g := s.grp n
  if g.draining && g.outstanding == 0 && decide (g.gid < 32) then s.modGrp n fun g => { g with draining := false }
  else s

/-- The last handler of a read has retired: the status word is written and the read ends (10 R247, R251). -/
def State.endRead (s : State) (rn : Nat) : State :=
  let r := s.readOf rn
  if r.live && r.retired == r.count && r.born == r.count then
    let st := r.statusWord
    let g := s.grp r.group
    let s := s.modGrp r.group fun g => (g.writeDst r.dst 1 0 st.toNat).unlock fun k => k.kind == .read rn
    let s := if st.getLsbD 30 && !g.live then
        { s with fails := s.fails ++ [⟨r.group, r.team, r.launch, r.gid, 0x95#8, r.reportCause⟩] }
      else s
    ((s.modRead rn fun r => { r with live := false, status := some st }).dropOutstanding r.group r.launch).drainGroup
      r.group
  else s

/-- A handler retires when it has ended and drained (10 R243, R247). -/
def State.retireHandler (s : State) (n : Nat) : State :=
  let g := s.grp n
  match g.burst with
  | none => s
  | some b =>
    let s := s.modGrp n fun g => { g with burst := none, draining := false }
    let s := s.modTeam g.team fun t => { t with groups := Sp.del t.groups g.gid }
    let s := s.modRead b.read fun r =>
      { r with
        retired := r.retired + 1
        deliv := if g.viaTrap then r.deliv else r.deliv + 1
        trapd := r.trapd || g.viaTrap }
    s.endRead b.read

/-- A group ends when its frontier is empty and it has no parked lanes (02 R26); with operations
outstanding it drains (15 R385). -/
def State.endGroup (s : State) (n : Nat) : State :=
  let g := s.grp n
  let s :=
    if g.live && g.alive == 0#32 then
      s.modGrp n fun g =>
        { g.dropLantern with
          live := false, draining := true, wait := none, park := none, tWait := none,
          tPark := none, trap := none, region := none, windows := [], conv := [], rl := [], loops := [] }
    else s
  let g := s.grp n
  if g.gid < 32 then s.drainGroup n
  else if g.draining && g.outstanding == 0 then s.retireHandler n
  else s

/-- Whether a team's groups and handlers have all ended and drained (15 R387). -/
def State.teamDone (s : State) (t : Team) : Bool :=
  t.groups.all fun kv => let g := s.grp kv.2
    !g.live && !g.draining

/-- A team ends: its core-side resources return; its cluster ends with its last team (12 R279). -/
def State.endTeam (s : State) (tn : Nat) : State :=
  let t := s.team tn
  if (t.life = .resident ∨ t.life = .placed) ∧ !t.groups.isEmpty ∧ s.teamDone t ∧ t.run.isNone then
    let s := (s.trace tn 0xFF 4 0).modTeam tn fun t => { t with life := .ended }
    let s := s.modCore t.core fun c => { c with rlHolder := if c.rlHolder = some tn then none else c.rlHolder }
    if (s.siblings t).all fun kv => kv.2.life == .ended then
      s.modLaunch t.launch fun l => { l with clustersDone := l.clustersDone + 1 }
    else s
  else s

/-! ### Kills of whole teams and launches (12 R295, R296; 16 R403) -/

/-- Every lane of a group is removed as `EXIT` removes it. -/
def State.emptyGroup (s : State) (n : Nat) : State :=
  (s.modGrp n fun g => { (g.removeLanes g.alive) with viaTrap := true }).endGroup n

/-- End the bulk reads that a team has outstanding: no more bursts are born for it. -/
def State.endReads (s : State) (tn : Nat) : State :=
  s.reads.foldl (fun s kv =>
    if kv.2.live && kv.2.team == tn then
      let s := (s.modRead kv.1 fun r => { r with live := false }).dropOutstanding kv.2.group kv.2.launch
      let s := s.modCore kv.2.core fun c =>
        { c with burstBuf := c.burstBuf.filter fun b => b.1 != kv.1
                 burstAsked := c.burstAsked.filter fun b => b.1 != kv.1 }
      s.endGroup kv.2.group
    else s) s

/-- Kill a team wherever it is in its life. -/
def State.killTeam (s : State) (tn : Nat) : State :=
  let s := (s.team tn).groups.foldl (fun s kv => s.emptyGroup kv.2) s
  let s := s.endReads tn
  -- its refinement run is gone at once, and the controller is free for the next team (07 R164)
  let s := s.modTeam tn fun t => { t with run := none, halted := false }
  let s := s.modCore (s.team tn).core fun c => { c with rlHolder := if c.rlHolder = some tn then none else c.rlHolder }
  let t := s.team tn
  if t.life = .saved ∨ t.life = .discarded then
    let s := s.modTeam tn fun t => { t with life := .ended }
    if (s.siblings t).all fun kv => kv.2.life == .ended then
      s.modLaunch t.launch fun l => { l with clustersDone := l.clustersDone + 1 }
    else s
  else s.endTeam tn

/-- Kill a launch: KILLED shows in its completion record, and no more of its clusters are placed. -/
def State.killLaunch (s : State) (l : Nat) : State :=
  let s := s.modLaunch l fun x =>
    { x with
      killed := true
      r := { x.r with grid := x.placed }
      life := if x.life = .placing then .running else x.life }
  (s.teams.filter fun kv => kv.2.launch == l).foldl (fun s kv => s.killTeam kv.1) s

/-! ### After every change -/

/-- A group none of whose lanes can issue is parked, and returns its lantern (12 R293). -/
def Group.restLantern (g : Group) : Group := if g.frontier.isEmpty && g.lantern then g.dropLantern else g

/-- Loops, convergence, the end of trap mode and the end of the group, after a change to its lanes. -/
def State.settleGroup (s : State) (n : Nat) : State :=
  let s := s.modGrp n Group.turn
  let s := s.trapDone n
  let s := s.modGrp n fun g => g.turn.restLantern
  s.endGroup n

/-- Whether a wait is satisfied (09 R222, R225, R227, R230). -/
def State.waitOver (s : State) (n : Nat) : Wait → Bool
  | .barrier id phase _ => ((s.teamOf n).bar id).phase != phase
  | .cbar phase => (Sp.get {} s.clusters (clusterKey (s.teamOf n).launch (s.teamOf n).clz)).phase != phase
  | .object off v _ => ((s.teamOf n).obj off).phase != v.toNat
  | .tag k => (s.grp n).treg k == 0#16
  | _ => false

/-- Whether the wait takes a boundary when it ends: its acquire form does (08 Table 8.2), and an `OBJW` that an
engine's credits satisfied (08 R194). -/
def Wait.acquires (t : Team) : Wait → Bool
  | .barrier _ _ a => a
  | .object off v a => a || Sp.get false t.engDone (4 * off + v.toNat)
  | _ => false

/-- End one wait of a group when it is satisfied; an acquire form takes its boundary first, and waits
on while an engine holds a line that the boundary must commit. -/
def State.wakeOne (s : State) (n : Nat) (w : Option Wait) : Bool × State :=
  match w with
  | none => (false, s)
  | some w =>
    if !s.waitOver n w then (false, s)
    else if !w.acquires (s.teamOf n) then (true, s)
    else if (s.boundaryHeld (s.coreOf n)).isEmpty then (true, s.boundary (s.coreOf n))
    else (false, s)

/-- End the waits of a group that are satisfied, in trap mode the wait it keeps too (12 R420). -/
def State.wakeGroup (s : State) (n : Nat) : State :=
  let g := s.grp n
  let a := s.wakeOne n g.wait
  let s := if a.1 then a.2.modGrp n fun g => { g with wait := none } else s
  let b := s.wakeOne n g.tWait
  if b.1 then b.2.modGrp n fun g => { g with tWait := none } else s

def State.wakeTeam (s : State) (tn : Nat) : State :=
  (s.team tn).groups.foldl (fun s kv => s.wakeGroup kv.2) s

/-- Everything that follows at once from a change to a group. -/
def State.settle (s : State) (n : Nat) : State :=
  let tn := (s.grp n).team
  let s := s.settleGroup n
  let s := s.turnBars tn
  let s := s.turnCluster tn
  let s := s.turnRings (s.team tn).launch
  let s := (s.siblings (s.team tn)).foldl (fun s kv => s.wakeTeam kv.1) s
  s.endTeam tn

/-! ### The end of an issue -/

/-- Count down the windows in the active lanes, and for the group (03 R56). -/
def Window.tick (act : Mask) (w : Window) : Window :=
  { w with left := (w.left.map fun kv =>
      (kv.1, if kv.1 = 32 ∨ act.getLsbD kv.1 then kv.2 - 1 else kv.2)).filter fun kv => kv.2 != 0 }

/-- The windows an instruction opens (03 R56): per lane for `v` registers, per group for the others. -/
def newWindows (la : Nat) (m : Mask) (dests : List Nat) : List Window :=
  let code := fun (l : List Nat) => l.map (BitVec.ofNat 16)
  let v := dests.filter (· < 0xC0)
  let o := dests.filter fun c => !(decide (c < 0xC0))
  if la = 0 ∨ m = 0#32 then []
  else
    (if v.isEmpty then [] else [{ left := (maskLanes m).map fun l => (l, la), regs := code v }]) ++
      (if o.isEmpty then [] else [{ left := [(32, la)], regs := code o }])

/-- Windows, interlocks, promotion counts and positions of the lanes that go on (02 R24, 12 R290). -/
def Iss.advance (i : Iss) : State :=
  let run := i.run
  let s := i.s.modGrp i.n fun g =>
    let multi := !i.trap && decide (1 < g.frontier.length)
    let g := g.dropLanes i.act
    let g := if multi then
        { g with frontier := g.frontier.map fun e => { e with passed := e.passed + 1 } } else g
    let g := i.moves.foldl (fun g e => g.addLanes e.pc e.prio e.mask e.trap) g
    let g := i.lands.foldl (fun g e => g.arrive e.pc e.prio e.mask e.trap i.pc) g
    let g := g.arrive i.next i.prio i.stay i.trap i.pc
    { g with
      promote := if i.trap then g.promote else none
      windows := ((g.windows.map (Window.tick i.act)).filter fun w => !w.left.isEmpty) ++
        (if i.long then newWindows i.la run i.dests else []) }
  if i.long && !i.dests.isEmpty && run != 0#32 then
    let k : Lock := ⟨s.serial, run, i.dests.map (BitVec.ofNat 16), i.kind⟩
    ({ s with serial := s.serial + 1 }).modGrp i.n fun g => { g with locks := g.locks ++ [k] }
  else s

/-- Lanes that a wait or a loop tail holds take part in a trap without leaving the wait (12 R420). -/
def Group.markAway (g : Group) (m : Mask) : Group :=
  { g with
    conv := g.conv.map fun c => { c with away := c.away ||| (c.mask &&& m) }
    rl := g.rl.map fun c => { c with away := c.away ||| (c.mask &&& m &&& ~~~g.rlIn) }
    loops := g.loops.map fun c => { c with away := c.away ||| (c.tail &&& m &&& ~~~c.trapTail) } }

/-- The positions of frontier lanes of a mask, to be saved with a record. -/
def Group.positions (g : Group) (m : Mask) : List Entry :=
  (g.frontier.map fun e => { e with mask := e.mask &&& m, trap := false, passed := 0 }).filter
    fun e => e.mask != 0#32

/-- The step trap after an instruction issued with the step bit set, outside trap mode (15 R378). -/
def Iss.stepTrap (i : Iss) (s : State) : State :=
  if i.step && !i.trap then
    let g := s.grp i.n
    let held := g.parkedMask &&& ~~~(orMasks (·.frec.mask) g.subs ||| orMasks (·.mask) g.recov)
    let m := i.act &&& ~~~i.flts.mask &&& (g.frontierMask ||| held)
    let saved := g.positions m
    let s := s.modGrp i.n fun g => g.markAway m
    s.takeTrap i.n
      { cause := 0x0D#8, mixed := false, async := false, done := true, op := i.op, mask := m, pc := i.pc,
        vline := 0#64, prio := i.prio, recIdx := none, aux := 0#32 } saved
  else s

/-- The state after an instruction: lanes that did not fault go on, the others are excepted (02 R25),
and what follows at once follows. -/
def Iss.done (i : Iss) : State :=
  let s := i.advance
  let s := s.except i.n i.op i.pc i.prio i.trap i.flts
  let s := i.stepTrap s
  s.settle i.n

/-- Nothing performed: the group parks and the instruction issues again (09 R211). -/
def Iss.parked (i : Iss) (p : Park) (s0 : State) : State :=
  s0.modGrp i.n fun g =>
    let g := g.setPark (some p)
    (if p = .lantern then g else g.dropLantern).waitsAt s0.time i.pc i.op i.pc i.prio

/-- Hold the group on a wait after the instruction (03 R57). -/
def Iss.holdOn (i : Iss) (w : Wait) : Iss :=
  i.mod fun g =>
    (g.dropLantern.setWait (some w)).waitsAt i.s.time i.pc i.op i.next i.prio

abbrev Out := Host.Outcome State Fault Refusal

/-- The outcome of an instruction. -/
def Iss.out (i : Iss) : Out := .next i.done

end Sys2Proof.Machine
end

