-- ==== Sys2Proof/Machine/Integer.lean ====
section
/-! DEFINITION. The integer, address and predicate family (05 R97 to R110, 04 R83): what each effect is
on exact integers, and one meaning per instruction. -/

namespace Sys2Proof.Machine

open Sys2Proof

/-! ### Elements and exact results -/

/-- Bits of one element of a type (05 R97). -/
def Ty.ebits : Ty → Nat
  | .i16x2 => 16
  | .i8x4 => 8
  | .i4x8 => 4
  | .i64 => 64
  | .ui64 => 64
  | .f64 => 64
  | _ => 32

/-- Elements of a value of a type. -/
def Ty.count : Ty → Nat
  | .i16x2 => 2
  | .i8x4 => 4
  | .i4x8 => 8
  | _ => 1

/-- Packed elements and the `.i` types are signed. -/
def Ty.isSigned : Ty → Bool
  | .ui32 => false
  | .ui64 => false
  | .b32 => false
  | _ => true

/-- Element e of a value as an exact integer. -/
def elem (ty : Ty) (x e : Nat) : Int :=
  let y := field x (e * Ty.ebits ty) (Ty.ebits ty)
  if Ty.isSigned ty then signed (Ty.ebits ty) y else y

/-- Pack exact integers, each reduced into its element (05 R97 wrap). -/
def packElems (ty : Ty) (f : Nat → Int) : Nat :=
  (List.range (Ty.count ty)).foldl (fun acc e =>
    acc + wrapNat (Ty.ebits ty) (f e) * 2 ^ (e * Ty.ebits ty)) 0

def mapElems (ty : Ty) (f : Int → Int) (a : Nat) : Nat := packElems ty fun e => f (elem ty a e)

def mapElems2 (ty : Ty) (f : Int → Int → Int) (a b : Nat) : Nat :=
  packElems ty fun e => f (elem ty a e) (elem ty b e)

/-- Least and greatest value of an element of `n` bits. -/
def intMin (sgn : Bool) (n : Nat) : Int := if sgn then -(2 ^ (n - 1) : Int) else 0
def intMax (sgn : Bool) (n : Nat) : Int := if sgn then 2 ^ (n - 1) - 1 else 2 ^ n - 1

/-- Clamp to a range, and whether that changed the value (04 R83). -/
def clampInt (lo hi x : Int) : Int × Bool :=
  if x < lo then (lo, true) else if hi < x then (hi, true) else (x, false)

/-- Clamp to the range of `n` bits. -/
def satInt (sgn : Bool) (n : Nat) (x : Int) : Int × Bool := clampInt (intMin sgn n) (intMax sgn n) x

/-- Saturating element-wise operation: SAT is set when a clamp changes an element (05 R102). -/
def satElems (ty : Ty) (f : Nat → Int) : LaneOut :=
  let one := fun e => satInt (Ty.isSigned ty) (Ty.ebits ty) (f e)
  { val := packElems ty fun e => (one e).1
    flags := flagIf ((List.range (Ty.count ty)).any fun e => (one e).2) flagSat }

/-- 32 or 64 bits of a type. -/
def Ty.bits (ty : Ty) : Nat := 32 * ty.regs

/-- Bitwise complement within a width. -/
def notBits (n x : Nat) : Nat := 2 ^ n - 1 - x % 2 ^ n

/-- `SHL`, `SHR`, `SAR`, `ROT` (05 R101): amounts at or above the width leave nothing, or the sign. -/
def shlVal (n a k : Nat) : Nat := if k < n then a * 2 ^ k % 2 ^ n else 0
def shrVal (n a k : Nat) : Nat := if k < n then a / 2 ^ k else 0
def sarVal (n a k : Nat) : Nat := wrapNat n (signed n a / 2 ^ (if k < n then k else n - 1))
def rotVal (n a k : Nat) : Nat :=
  let r := k % n
  (a * 2 ^ r + a / 2 ^ (n - r)) % 2 ^ n

/-- `SHRR`: (x + 2^(k−1)) shifted right by k, ties toward +∞ (04 R83). -/
def shrrVal (n : Nat) (x : Int) (k : Nat) : Int :=
  if k = 0 then x else if k < n then (x + 2 ^ (k - 1)) / 2 ^ k else 0

/-- Leading zeros, ones, and bit reversal within a width. -/
def clzVal (n a : Nat) : Nat := n - bitLen a
def popVal (n a : Nat) : Nat := ((List.range n).filter fun i => a.testBit i).length
def brevVal (n a : Nat) : Nat :=
  (List.range n).foldl (fun acc i => if a.testBit i then acc + 2 ^ (n - 1 - i) else acc) 0

/-- `BFX` and `BFI` (05 R103). -/
def bfxVal (sgn : Bool) (a b : Nat) : Nat :=
  let pos := field b 0 8
  let len := field b 8 8
  if len = 0 ∨ 32 ≤ pos then 0
  else
    let n := min (pos + len) 32 - pos
    let f := field a pos n
    if sgn then wrapNat 32 (signed n f) else f

def bfiVal (a b c : Nat) : Nat :=
  let pos := field b 0 8
  let len := field b 8 8
  if len = 0 ∨ 32 ≤ pos then c
  else
    let mask := (2 ^ len - 1) * 2 ^ pos % 2 ^ 32
    (c &&& notBits 32 mask) ||| ((a * 2 ^ pos % 2 ^ 32) &&& mask)

/-- The conditions of 05 Table 5.3 on integers. -/
def intCond (cond : Nat) (a b : Int) : Bool :=
  match cond with
  | 0 => decide (a = b)
  | 1 => decide (a ≠ b)
  | 2 => decide (a < b)
  | 3 => decide (a ≤ b)
  | 4 => decide (b < a)
  | _ => decide (b ≤ a)

/-- Combine a comparison with the predicate that AUX names (05 R104). -/
def combine (code : Nat) (cmp p : Bool) : Bool :=
  match code with
  | 1 => cmp && p
  | 2 => cmp || p
  | 3 => cmp != p
  | _ => cmp

/-- The narrowing of `IPACK` (05 R108): `n` result bits, SAT in MOD[4], `.u` in MOD[5]. -/
def narrowInt (n : Nat) (sat u : Bool) (x : Int) : Int × Bool :=
  if !sat then (x, false) else satInt (!u) n x

/-- The source type of `IPACK` and the result type of `IUNPK`: one width up. -/
def widerTy : Ty → Ty
  | .i16x2 => .i32
  | .i8x4 => .i16x2
  | _ => .i8x4

/-- `IPACK` (05 R108). -/
def ipackOut (ty : Ty) (sat u : Bool) (a b : Nat) : LaneOut :=
  let w := widerTy ty
  let h := Ty.count w
  let one := fun e => narrowInt (Ty.ebits ty) sat u (if e < h then elem w a e else elem w b (e - h))
  { val := packElems ty fun e => (one e).1
    flags := flagIf ((List.range (Ty.count ty)).any fun e => (one e).2) flagSat }

/-- `IUNPK` (05 R109). -/
def iunpkVal (ty : Ty) (h : Nat) (u : Bool) (a : Nat) : Nat :=
  let w := widerTy ty
  let n := Ty.count w
  packElems w fun e =>
    let x := elem ty a (h * n + e)
    if u then (wrapNat (Ty.ebits ty) x : Nat) else x

/-- `ICVT` (05 R110). -/
def icvtOut (src dst : Ty) (sat : Bool) (a : Nat) : LaneOut :=
  let x := elem src a 0
  if sat then
    let r := satInt (Ty.isSigned dst) (Ty.bits dst) x
    { val := wrapNat (Ty.bits dst) r.1, flags := flagIf r.2 flagSat }
  else { val := wrapNat (Ty.bits dst) x }

/-- A dot product into a saturating INT32 accumulator (05 R107). -/
def idotOut (ty : Ty) (a b c : Nat) : LaneOut :=
  let sum := (List.range (Ty.count ty)).foldl (fun (acc : Int) e => acc + elem ty a e * elem ty b e)
    (signed 32 c)
  let r := satInt true 32 sum
  { val := wrapNat 32 r.1, flags := flagIf r.2 flagSat }

/-- `IABS` (05 R102). -/
def iabsOut (ty : Ty) (sat : Bool) (a : Nat) : LaneOut :=
  if sat then satElems ty fun e => (elem ty a e).natAbs
  else { val := mapElems ty (fun x => x.natAbs) a }

/-! ### The shared run -/

/-- Registers of the destination in field A. -/
def dstWidth (sh : Shape) : Nat :=
  match sh.roles .a with
  | .dst w :: _ => w
  | .vdst w :: _ => w
  | _ => 1

/-- A per-lane or scalar instruction that writes a register. -/
def regOp (ins : Instr) (x : XForm) (traps : Bool) (f : Nat → Srcs → LaneOut) (s : State) : Out :=
  let i := begin_ ins s
  let w := dstWidth (shapeOf i.op.toNat x)
  (i.arith x traps f (fun l o g => g.writeDst x.a w l o.val) x.a.isS).out

/-- A register result that raises no flag. -/
def valOp (ins : Instr) (x : XForm) (f : Srcs → Nat) (s : State) : Out :=
  regOp ins x false (fun _ v => { val := f v }) s

/-- An instruction that writes predicate `p` in each acting lane (05 R96). -/
def predOp (ins : Instr) (x : XForm) (p : Nat) (traps : Bool) (f : Nat → Srcs → LaneOut)
    (s : State) : Out :=
  let i := begin_ ins s
  (i.arith x traps f (fun l o g => g.setPIn p (laneBit l) (if o.pred then laneBit l else 0#32)) false).out

/-- A predicate of the group in issue in one lane. -/
def State.predAt (s : State) (n l : Nat) : Bool := (s.me.preg n).getLsbD l

/-- The comparison of `ISETP` and `FSETP`, combined (05 R104). -/
def setpOp (ins : Instr) (x : XForm) (traps : Bool) (cmp : Srcs → Bool × Flags) (s : State) : Out :=
  predOp ins x x.a.num traps (fun l v =>
    let r := cmp v
    { pred := combine (bits x.aux 5 4) r.1 (s.predAt (bits x.aux 3 0) l), flags := r.2 }) s

/-! ### Meanings -/

/-- `MOV`: d := a, bits unchanged. -/
def movRun (ins : Instr) (x : XForm) (s : State) : Out :=
  valOp ins x (fun v => v.a) s
/-- `MOV`, base form (03 R47). -/
def execMovBase (x : Base2) (s : State) : Out := movRun (.movBase x) (x.lift 0x20 none) s
/-- `MOV`, base form with a literal (03 R47). -/
def execMovBaseLit (x : Base2) (lit : BitVec 64) (s : State) : Out :=
  movRun (.movBaseLit x lit) (x.lift 0x20 (some lit)) s
/-- `MOV`, extended form. -/
def execMov (x : XForm) (s : State) : Out := movRun (.mov x) x s

/-- `MOVI` (05 R98): IMM16 sign-extended, or zero-extended with `.zx`. -/
def moviRun (ins : Instr) (x : XForm) (s : State) : Out :=
  valOp ins x (fun _ => if x.mod.getLsbD 5 then x.imm.toNat else wrapNat (Ty.bits x.ty) x.imm.toInt) s
/-- `MOVI`, base form (03 R47). -/
def execMoviBase (x : BaseImm) (s : State) : Out := moviRun (.moviBase x) x.lift s
/-- `MOVI`, extended form. -/
def execMovi (x : XForm) (s : State) : Out := moviRun (.movi x) x s

/-- `SEL` (05 R99): a where the predicate, inverted by AUX[4], is 1. -/
def selRun (ins : Instr) (x : XForm) (s : State) : Out :=
  regOp ins x false (fun l v =>
    { val := if s.predAt (bits x.aux 3 0) l != x.aux.getLsbD 4 then v.a else v.b }) s
/-- `SEL`, extended form. -/
def execSel (x : XForm) (s : State) : Out := selRun (.sel x) x s

/-- `IADD`: wrap(a + b). -/
def iaddRun (ins : Instr) (x : XForm) (s : State) : Out :=
  valOp ins x (fun v => mapElems2 x.ty (· + ·) v.a v.b) s
/-- `IADD`, base form (03 R47). -/
def execIaddBase (x : Base2) (s : State) : Out := iaddRun (.iaddBase x) (x.lift 0x23 none) s
/-- `IADD`, base form with a literal (03 R47). -/
def execIaddBaseLit (x : Base2) (lit : BitVec 64) (s : State) : Out :=
  iaddRun (.iaddBaseLit x lit) (x.lift 0x23 (some lit)) s
/-- `IADD`, extended form. -/
def execIadd (x : XForm) (s : State) : Out := iaddRun (.iadd x) x s

/-- `ISUB`: wrap(a − b). -/
def isubRun (ins : Instr) (x : XForm) (s : State) : Out :=
  valOp ins x (fun v => mapElems2 x.ty (· - ·) v.a v.b) s
/-- `ISUB`, base form (03 R47). -/
def execIsubBase (x : Base2) (s : State) : Out := isubRun (.isubBase x) (x.lift 0x24 none) s
/-- `ISUB`, base form with a literal (03 R47). -/
def execIsubBaseLit (x : Base2) (lit : BitVec 64) (s : State) : Out :=
  isubRun (.isubBaseLit x lit) (x.lift 0x24 (some lit)) s
/-- `ISUB`, extended form. -/
def execIsub (x : XForm) (s : State) : Out := isubRun (.isub x) x s

/-- `IADDC` (05 R100): the carry-in is read before the carry-out is written. -/
def execIaddc (x : XForm) (s : State) : Out :=
  let i := begin_ (.iaddc x) s
  (i.arith x false (fun l v =>
      let t := v.a + v.b + (if s.predAt (bits x.aux 3 0) l then 1 else 0)
      { val := t % 2 ^ 32, pred := decide (2 ^ 32 ≤ t) })
    (fun l o g => (g.writeDst x.a 1 l o.val).setPIn (bits x.imm 3 0) (laneBit l)
      (if o.pred then laneBit l else 0#32)) false).out

/-- `IMUL`: wrap(a × b). -/
def imulRun (ins : Instr) (x : XForm) (s : State) : Out :=
  valOp ins x (fun v => mapElems2 x.ty (· * ·) v.a v.b) s
/-- `IMUL`, extended form. -/
def execImul (x : XForm) (s : State) : Out := imulRun (.imul x) x s

/-- `IMULH`: floor(a × b / 2^32), in the type. -/
def imulhRun (ins : Instr) (x : XForm) (s : State) : Out :=
  valOp ins x (fun v => mapElems2 x.ty (fun a b => a * b / 2 ^ 32) v.a v.b) s
/-- `IMULH`, extended form. -/
def execImulh (x : XForm) (s : State) : Out := imulhRun (.imulh x) x s

/-- `IMAD`: wrap(a × b + c). -/
def imadRun (ins : Instr) (x : XForm) (s : State) : Out :=
  valOp ins x (fun v =>
    packElems x.ty fun e => elem x.ty v.a e * elem x.ty v.b e + elem x.ty v.c e) s
/-- `IMAD`, extended form. -/
def execImad (x : XForm) (s : State) : Out := imadRun (.imad x) x s

/-- `IMIN`: the lesser, in the type. -/
def iminRun (ins : Instr) (x : XForm) (s : State) : Out :=
  valOp ins x (fun v => mapElems2 x.ty min v.a v.b) s
/-- `IMIN`, base form (03 R47). -/
def execIminBase (x : Base2) (s : State) : Out := iminRun (.iminBase x) (x.lift 0x29 none) s
/-- `IMIN`, base form with a literal (03 R47). -/
def execIminBaseLit (x : Base2) (lit : BitVec 64) (s : State) : Out :=
  iminRun (.iminBaseLit x lit) (x.lift 0x29 (some lit)) s
/-- `IMIN`, extended form. -/
def execImin (x : XForm) (s : State) : Out := iminRun (.imin x) x s

/-- `IMAX`: the greater, in the type. -/
def imaxRun (ins : Instr) (x : XForm) (s : State) : Out :=
  valOp ins x (fun v => mapElems2 x.ty max v.a v.b) s
/-- `IMAX`, base form (03 R47). -/
def execImaxBase (x : Base2) (s : State) : Out := imaxRun (.imaxBase x) (x.lift 0x2A none) s
/-- `IMAX`, base form with a literal (03 R47). -/
def execImaxBaseLit (x : Base2) (lit : BitVec 64) (s : State) : Out :=
  imaxRun (.imaxBaseLit x lit) (x.lift 0x2A (some lit)) s
/-- `IMAX`, extended form. -/
def execImax (x : XForm) (s : State) : Out := imaxRun (.imax x) x s

/-- `IABS` (05 R102). -/
def iabsRun (ins : Instr) (x : XForm) (s : State) : Out :=
  regOp ins x false (fun _ v => iabsOut x.ty (x.mod.getLsbD 4) v.a) s
/-- `IABS`, extended form. -/
def execIabs (x : XForm) (s : State) : Out := iabsRun (.iabs x) x s

/-- `AND`. -/
def andRun (ins : Instr) (x : XForm) (s : State) : Out :=
  valOp ins x (fun v => v.a &&& v.b) s
/-- `AND`, base form (03 R47). -/
def execAndBase (x : Base2) (s : State) : Out := andRun (.andBase x) (x.lift 0x2C none) s
/-- `AND`, base form with a literal (03 R47). -/
def execAndBaseLit (x : Base2) (lit : BitVec 64) (s : State) : Out :=
  andRun (.andBaseLit x lit) (x.lift 0x2C (some lit)) s
/-- `AND`, extended form. -/
def execAnd (x : XForm) (s : State) : Out := andRun (.and x) x s

/-- `OR`. -/
def orRun (ins : Instr) (x : XForm) (s : State) : Out :=
  valOp ins x (fun v => v.a ||| v.b) s
/-- `OR`, base form (03 R47). -/
def execOrBase (x : Base2) (s : State) : Out := orRun (.orBase x) (x.lift 0x2D none) s
/-- `OR`, base form with a literal (03 R47). -/
def execOrBaseLit (x : Base2) (lit : BitVec 64) (s : State) : Out :=
  orRun (.orBaseLit x lit) (x.lift 0x2D (some lit)) s
/-- `OR`, extended form. -/
def execOr (x : XForm) (s : State) : Out := orRun (.or x) x s

/-- `XOR`. -/
def xorRun (ins : Instr) (x : XForm) (s : State) : Out :=
  valOp ins x (fun v => v.a ^^^ v.b) s
/-- `XOR`, base form (03 R47). -/
def execXorBase (x : Base2) (s : State) : Out := xorRun (.xorBase x) (x.lift 0x2E none) s
/-- `XOR`, base form with a literal (03 R47). -/
def execXorBaseLit (x : Base2) (lit : BitVec 64) (s : State) : Out :=
  xorRun (.xorBaseLit x lit) (x.lift 0x2E (some lit)) s
/-- `XOR`, extended form. -/
def execXor (x : XForm) (s : State) : Out := xorRun (.xor x) x s

/-- `ANDN`: a and not b. -/
def andnRun (ins : Instr) (x : XForm) (s : State) : Out :=
  valOp ins x (fun v => v.a &&& notBits (Ty.bits x.ty) v.b) s
/-- `ANDN`, extended form. -/
def execAndn (x : XForm) (s : State) : Out := andnRun (.andn x) x s

/-- `NOT`. -/
def notRun (ins : Instr) (x : XForm) (s : State) : Out :=
  valOp ins x (fun v => notBits (Ty.bits x.ty) v.a) s
/-- `NOT`, extended form. -/
def execNot (x : XForm) (s : State) : Out := notRun (.not x) x s

/-- `SHL` (05 R101). -/
def shlRun (ins : Instr) (x : XForm) (s : State) : Out :=
  valOp ins x (fun v => shlVal (Ty.bits x.ty) v.a v.b) s
/-- `SHL`, base form (03 R47). -/
def execShlBase (x : Base2) (s : State) : Out := shlRun (.shlBase x) (x.lift 0x31 none) s
/-- `SHL`, base form with a literal (03 R47). -/
def execShlBaseLit (x : Base2) (lit : BitVec 64) (s : State) : Out :=
  shlRun (.shlBaseLit x lit) (x.lift 0x31 (some lit)) s
/-- `SHL`, extended form. -/
def execShl (x : XForm) (s : State) : Out := shlRun (.shl x) x s

/-- `SHR` (05 R101). -/
def shrRun (ins : Instr) (x : XForm) (s : State) : Out :=
  valOp ins x (fun v => shrVal (Ty.bits x.ty) v.a v.b) s
/-- `SHR`, base form (03 R47). -/
def execShrBase (x : Base2) (s : State) : Out := shrRun (.shrBase x) (x.lift 0x32 none) s
/-- `SHR`, base form with a literal (03 R47). -/
def execShrBaseLit (x : Base2) (lit : BitVec 64) (s : State) : Out :=
  shrRun (.shrBaseLit x lit) (x.lift 0x32 (some lit)) s
/-- `SHR`, extended form. -/
def execShr (x : XForm) (s : State) : Out := shrRun (.shr x) x s

/-- `SAR` (05 R101). -/
def sarRun (ins : Instr) (x : XForm) (s : State) : Out :=
  valOp ins x (fun v => sarVal (Ty.bits x.ty) v.a v.b) s
/-- `SAR`, base form (03 R47). -/
def execSarBase (x : Base2) (s : State) : Out := sarRun (.sarBase x) (x.lift 0x33 none) s
/-- `SAR`, base form with a literal (03 R47). -/
def execSarBaseLit (x : Base2) (lit : BitVec 64) (s : State) : Out :=
  sarRun (.sarBaseLit x lit) (x.lift 0x33 (some lit)) s
/-- `SAR`, extended form. -/
def execSar (x : XForm) (s : State) : Out := sarRun (.sar x) x s

/-- `SHRR` (04 R83, 05 R101), per element with one amount. -/
def shrrRun (ins : Instr) (x : XForm) (s : State) : Out :=
  valOp ins x (fun v => mapElems x.ty (fun e => shrrVal (Ty.ebits x.ty) e v.b) v.a) s
/-- `SHRR`, extended form. -/
def execShrr (x : XForm) (s : State) : Out := shrrRun (.shrr x) x s

/-- `ROT` (05 R101). -/
def rotRun (ins : Instr) (x : XForm) (s : State) : Out :=
  valOp ins x (fun v => rotVal (Ty.bits x.ty) v.a v.b) s
/-- `ROT`, extended form. -/
def execRot (x : XForm) (s : State) : Out := rotRun (.rot x) x s

/-- `CLZ`. -/
def clzRun (ins : Instr) (x : XForm) (s : State) : Out :=
  valOp ins x (fun v => clzVal (Ty.bits x.ty) v.a) s
/-- `CLZ`, extended form. -/
def execClz (x : XForm) (s : State) : Out := clzRun (.clz x) x s

/-- `POPC`. -/
def popcRun (ins : Instr) (x : XForm) (s : State) : Out :=
  valOp ins x (fun v => popVal (Ty.bits x.ty) v.a) s
/-- `POPC`, extended form. -/
def execPopc (x : XForm) (s : State) : Out := popcRun (.popc x) x s

/-- `BREV`. -/
def brevRun (ins : Instr) (x : XForm) (s : State) : Out :=
  valOp ins x (fun v => brevVal (Ty.bits x.ty) v.a) s
/-- `BREV`, extended form. -/
def execBrev (x : XForm) (s : State) : Out := brevRun (.brev x) x s

/-- `BFX` (05 R103). -/
def bfxRun (ins : Instr) (x : XForm) (s : State) : Out :=
  valOp ins x (fun v => bfxVal (x.ty == .i32) v.a v.b) s
/-- `BFX`, extended form. -/
def execBfx (x : XForm) (s : State) : Out := bfxRun (.bfx x) x s

/-- `BFI` (05 R103). -/
def bfiRun (ins : Instr) (x : XForm) (s : State) : Out :=
  valOp ins x (fun v => bfiVal v.a v.b v.c) s
/-- `BFI`, extended form. -/
def execBfi (x : XForm) (s : State) : Out := bfiRun (.bfi x) x s

/-- `ISETP` (05 R104). -/
def isetpRun (ins : Instr) (x : XForm) (s : State) : Out :=
  setpOp ins x false (fun v => (intCond x.fam (elem x.ty v.a 0) (elem x.ty v.b 0), 0#8)) s
/-- `ISETP`, extended form. -/
def execIsetp (x : XForm) (s : State) : Out := isetpRun (.isetp x) x s

/-- `PLOP` (05 R105): bit 4·pa + 2·pb + pc of the table. -/
def plopRun (ins : Instr) (x : XForm) (s : State) : Out :=
  predOp ins x x.a.num false (fun l _ =>
    let b := fun (o : Opnd) => if s.predAt o.num l then 1 else 0
    { pred := x.imm.getLsbD (4 * b x.b + 2 * b x.c + b x.d) }) s
/-- `PLOP`, extended form. -/
def execPlop (x : XForm) (s : State) : Out := plopRun (.plop x) x s

/-- `PMOV.get` (05 R106): the sixteen predicates of the lane. -/
def pmovGetRun (ins : Instr) (x : XForm) (s : State) : Out :=
  regOp ins x false (fun l _ =>
    { val := (List.range 16).foldl (fun acc n => if s.predAt n l then acc + 2 ^ n else acc) 0 }) s
/-- `PMOV.get`. -/
def execPmovGet (x : XForm) (s : State) : Out := pmovGetRun (.pmovGet x) x s

/-- `PMOV.put` (05 R106): every predicate that the mask in IMM16 names takes its bit of a. -/
def execPmovPut (x : XForm) (s : State) : Out :=
  let i := begin_ (.pmovPut x) s
  (i.arith x false (fun _ v => { val := v.a })
    (fun l o g => (List.range 16).foldl (fun g n =>
      if x.imm.getLsbD n then
        g.setPIn n (laneBit l) (if o.val.testBit n then laneBit l else 0#32)
      else g) g) false).out

/-- `IADDS` (05 R102). -/
def iaddsRun (ins : Instr) (x : XForm) (s : State) : Out :=
  regOp ins x false (fun _ v => satElems x.ty fun e => elem x.ty v.a e + elem x.ty v.b e) s
/-- `IADDS`, extended form. -/
def execIadds (x : XForm) (s : State) : Out := iaddsRun (.iadds x) x s

/-- `ISUBS` (05 R102). -/
def isubsRun (ins : Instr) (x : XForm) (s : State) : Out :=
  regOp ins x false (fun _ v => satElems x.ty fun e => elem x.ty v.a e - elem x.ty v.b e) s
/-- `ISUBS`, extended form. -/
def execIsubs (x : XForm) (s : State) : Out := isubsRun (.isubs x) x s

/-- `IDOT2` (05 R107). -/
def idot2Run (ins : Instr) (x : XForm) (s : State) : Out :=
  regOp ins x false (fun _ v => idotOut x.ty v.a v.b v.c) s
/-- `IDOT2`, extended form. -/
def execIdot2 (x : XForm) (s : State) : Out := idot2Run (.idot2 x) x s

/-- `IDOT4` (05 R107). -/
def idot4Run (ins : Instr) (x : XForm) (s : State) : Out :=
  regOp ins x false (fun _ v => idotOut x.ty v.a v.b v.c) s
/-- `IDOT4`, extended form. -/
def execIdot4 (x : XForm) (s : State) : Out := idot4Run (.idot4 x) x s

/-- `IPACK` (05 R108). -/
def ipackRun (ins : Instr) (x : XForm) (s : State) : Out :=
  regOp ins x false (fun _ v => ipackOut x.ty (x.mod.getLsbD 4) (x.mod.getLsbD 5) v.a v.b) s
/-- `IPACK`, extended form. -/
def execIpack (x : XForm) (s : State) : Out := ipackRun (.ipack x) x s

/-- `IUNPK` (05 R109). -/
def iunpkRun (ins : Instr) (x : XForm) (s : State) : Out :=
  valOp ins x (fun v => iunpkVal x.ty (bits x.aux 0 0) (x.mod.getLsbD 5) v.a) s
/-- `IUNPK`, extended form. -/
def execIunpk (x : XForm) (s : State) : Out := iunpkRun (.iunpk x) x s

/-- `ICVT` (05 R110). -/
def icvtRun (ins : Instr) (x : XForm) (s : State) : Out :=
  regOp ins x false (fun _ v => icvtOut x.ty ((dstTy x).getD .i32) (x.mod.getLsbD 4) v.a) s
/-- `ICVT`, extended form. -/
def execIcvt (x : XForm) (s : State) : Out := icvtRun (.icvt x) x s

end Sys2Proof.Machine
end

