-- ==== Sys2Proof/Machine/Trans.lean ====
section
/-! DEFINITION. The transcendentals (05 R116, 04 R89, R90). The exact forms are correctly rounded: a
value is bracketed in fixed point, and the bracket is narrowed until both ends round alike; inputs with
an exact result are answered apart. The approximate forms are a fixed function within Table 4.7. -/

namespace Sys2Proof.Machine

open Sys2Proof

/-! ### Fixed-point constants and series, in units of 2^-p, each within a few hundred units -/

/-- Σ over odd k of (±) t/(k), t falling by `d2` each time: the arctangent (alternating) or the area
tangent of 1/d, with t = 2^p / d. -/
def invSeries (d2 : Nat) (alt : Bool) : Nat → Nat → Nat → Bool → Int
  | 0, _, _, _ => 0
  | fuel + 1, t, k, plus =>
    if t = 0 then 0
    else (if plus then ((t / k : Nat) : Int) else -((t / k : Nat) : Int)) +
      invSeries d2 alt fuel (t / d2) (k + 2) (if alt then !plus else plus)

/-- π (Machin). -/
def piFix (p : Nat) : Nat :=
  (16 * invSeries 25 true p (2 ^ p / 5) 1 true - 4 * invSeries 57121 true p (2 ^ p / 239) 1 true).toNat

/-- ln 2 = 2·artanh(1/3). -/
def ln2Fix (p : Nat) : Nat := (2 * invSeries 9 false p (2 ^ p / 3) 1 true).toNat

/-- Σ t·x^k/k!, from a term t = x^k/k! on. -/
def expSeries (p x : Nat) : Nat → Nat → Nat → Nat
  | 0, _, _ => 0
  | fuel + 1, t, k => if t = 0 then 0 else t + expSeries p x fuel (t * x / 2 ^ p / k) (k + 1)

/-- e^x for 0 ≤ x < 1. -/
def expFix (p x : Nat) : Nat := expSeries p x (p + 8) (2 ^ p) 1

/-- Alternating series of sin or cos: the term t is followed by −t·x²/(k(k+1)). -/
def trigSeries (p x2 : Nat) : Nat → Nat → Nat → Bool → Int
  | 0, _, _, _ => 0
  | fuel + 1, t, k, plus =>
    if t = 0 then 0
    else (if plus then (t : Int) else -(t : Int)) +
      trigSeries p x2 fuel (t * x2 / 2 ^ p / (k * (k + 1))) (k + 2) (!plus)

def sinFix (p x : Nat) : Nat := (trigSeries p (x * x / 2 ^ p) (p + 8) x 2 true).toNat
def cosFix (p x : Nat) : Nat := (trigSeries p (x * x / 2 ^ p) (p + 8) (2 ^ p) 1 true).toNat

/-- Σ z^k/k over odd k: artanh z. -/
def artanhSeries (p z2 : Nat) : Nat → Nat → Nat → Nat
  | 0, _, _ => 0
  | fuel + 1, t, k => if t = 0 then 0 else t / k + artanhSeries p z2 fuel (t * z2 / 2 ^ p) (k + 2)

/-- ln x for 1 ≤ x < 2, x in units of 2^-p. -/
def lnFix (p x : Nat) : Nat :=
  let z := (x - 2 ^ p) * 2 ^ p / (x + 2 ^ p)
  2 * artanhSeries p (z * z / 2 ^ p) (p + 8) z 1

/-- The functions bracketed here. -/
inductive TFun where
  | exp2 | log2 | sinp | cosp | tanh
  deriving DecidableEq, Repr

/-- m·2^e as a multiple of 2^-p, rounded down. -/
def fixOf (p m : Nat) (e : Int) : Nat :=
  let s := e + p
  if s ≥ 0 then m * 2 ^ s.toNat else m / 2 ^ (-s).toNat

/-- 2^x for x = ±m·2^e: mantissa in units of 2^-p, and the exponent. -/
def exp2Val (p : Nat) (neg : Bool) (m : Nat) (e : Int) : Nat × Int :=
  let x : Int := if neg then -(fixOf p m e : Int) else fixOf p m e
  let n := x / 2 ^ p
  let f := (x - n * 2 ^ p).toNat
  (expFix p (f * ln2Fix p / 2 ^ p), n - p)

/-- e^(2a) − based tanh of a = m·2^e, 2^-40 ≤ a < 64. -/
def tanhVal (p m : Nat) (e : Int) : Nat × Int :=
  let y := fixOf p m (e + 1)
  let l2 := ln2Fix p
  let n := y / l2
  let big := expFix p (y - n * l2) * 2 ^ n
  (2 ^ p - 2 * 2 ^ p * 2 ^ p / (big + 2 ^ p), -(p : Int))

/-- sin or cos of π·r for r in units of 2^-p, 0 ≤ r ≤ 1/2, never both small and exact. -/
def trigVal (p : Nat) (sine : Bool) (r : Nat) : Nat :=
  let quarter := 2 ^ p / 4
  let x := fun r => r * piFix p / 2 ^ p
  if r ≤ quarter then (if sine then sinFix p (x r) else cosFix p (x r))
  else if sine then cosFix p (x (2 ^ p / 2 - r)) else sinFix p (x (2 ^ p / 2 - r))

/-- |log2 (m·2^e)|, and whether it is negative; m·2^e is no power of two. -/
def log2Val (p m : Nat) (e : Int) : Bool × Nat × Int :=
  let k : Int := (bitLen m : Int) - 1 + e
  let x := fixOf p m (e - k)
  let l := (lnFix p x) * 2 ^ p / ln2Fix p
  let t : Int := k * 2 ^ p + l
  -- just below a power of two the two parts cancel: take the logarithm of the quotient to 2 instead
  if k = -1 then
    let y := 2 ^ p * 2 ^ p / x
    -- log2 of 2/x, 1 < 2/x ≤ 2
    (true, (lnFix p (2 * y)) * 2 ^ p / ln2Fix p, -(p : Int))
  else (decide (t < 0), t.natAbs, -(p : Int))

/-- Extra bits a function needs at an argument so that its value keeps its relative precision. -/
def extraBits (fn : TFun) (f : Fmt) (m : Nat) (e : Int) : Nat :=
  match fn with
  | .exp2 => 140
  | .log2 => 80
  | .tanh => 200
  | _ => 100 + f.fb + (-(e + bitLen m)).toNat

/-- A fixed-point value of a function at ±m·2^e: sign, magnitude v and exponent x, with
|value| within 2^20 units of v·2^x. For the circular functions the argument is reduced exactly. -/
def transVal (fn : TFun) (p : Nat) (neg : Bool) (m : Nat) (e : Int) : Bool × Nat × Int :=
  match fn with
  | .exp2 => let r := exp2Val p neg m e; (false, r.1, r.2)
  | .tanh => let r := tanhVal p m e; (neg, r.1, r.2)
  | .log2 => log2Val p m e
  | .sinp =>
    let r := fixOf p m e % (2 * 2 ^ p)
    let flip := decide (2 ^ p ≤ r)
    let r := r % 2 ^ p
    let r := if 2 * r ≤ 2 ^ p then r else 2 ^ p - r
    (neg != flip, trigVal p true r, -(p : Int))
  | .cosp =>
    let r := fixOf p m e % (2 * 2 ^ p)
    let r := if r ≤ 2 ^ p then r else 2 * 2 ^ p - r
    let flip := decide (2 ^ p < 2 * r)
    let r := if flip then 2 ^ p - r else r
    (flip, trigVal p false r, -(p : Int))

/-- Round a bracketed value; narrow the bracket until both ends agree. -/
def zivRound (f : Fmt) (rm : Rm) (val : Nat → Bool × Nat × Int) : List Nat → Nat × Flags
  | [] => (0, 0#8)
  | p :: rest =>
    let v := val p
    let lo := (v.2.1 - 2 ^ 20) / 2 ^ 24
    let hi := (v.2.1 + 2 ^ 20) / 2 ^ 24
    let a := roundMag f rm v.1 lo (v.2.2 + 24) true
    let b := roundMag f rm v.1 hi (v.2.2 + 24) true
    if a = b ∨ rest.isEmpty then a else zivRound f rm val rest

/-- Precisions tried, in bits. -/
def zivSteps (extra : Nat) : List Nat := [160, 320, 640, 1280, 2560].map (· + extra)

/-- A finite value just above (`up`) or below m·2^e in magnitude, rounded. -/
def nextTo (f : Fmt) (rm : Rm) (neg : Bool) (m : Nat) (e : Int) (up : Bool) : Nat × Flags :=
  if up then roundMag f rm neg (m * 2 ^ 64) (e - 64) true
  else roundMag f rm neg (m * 2 ^ 64 - 1) (e - 64) true

/-- m·2^e as an integer, if it is one. -/
def asInt (m : Nat) (e : Int) : Option Nat :=
  if e ≥ 0 then some (m * 2 ^ e.toNat)
  else if m % 2 ^ (-e).toNat = 0 then some (m / 2 ^ (-e).toNat) else none

/-- 2^k rounded to a format, for any integer k. -/
def powerOfTwo (f : Fmt) (rm : Rm) (k : Int) : Nat × Flags := roundMag f rm false 1 k false

/-- The exponent k of m·2^e = 2^k, if it is a power of two. -/
def asPower (m : Nat) (e : Int) : Option Int :=
  if m = 2 ^ (bitLen m - 1) then some ((bitLen m : Int) - 1 + e) else none

/-- An integer as a result. -/
def intResult (f : Fmt) (rm : Rm) (k : Int) : Nat × Flags := roundFin f rm (decide (k < 0)) k.natAbs 0

/-- `FEXP2` of a finite nonzero value. -/
def exp2Fin (f : Fmt) (rm : Rm) (neg : Bool) (m : Nat) (e : Int) : Nat × Flags :=
  let top : Int := bitLen m + e
  if 14 < top then
    -- |a| ≥ 2^13: far beyond the range of every format
    (if neg then roundMag f rm false 1 (-16384) true else roundMag f rm false 1 16384 false)
  else match asInt m e with
    | some k => powerOfTwo f rm (if neg then -(k : Int) else k)
    | none =>
      if top < -80 then nextTo f rm false 1 0 (!neg)
      else zivRound f rm (fun p => transVal .exp2 p neg m e) (zivSteps (extraBits .exp2 f m e))

/-- `FLOG2` of a finite positive value. -/
def log2Fin (f : Fmt) (rm : Rm) (m : Nat) (e : Int) : Nat × Flags :=
  match asPower m e with
  | some k => intResult f rm k
  | none => zivRound f rm (fun p => transVal .log2 p false m e) (zivSteps (extraBits .log2 f m e))

/-- `FTANH` of a finite nonzero value. -/
def tanhFin (f : Fmt) (rm : Rm) (neg : Bool) (m : Nat) (e : Int) : Nat × Flags :=
  let top : Int := bitLen m + e
  if 6 < top then nextTo f rm neg 1 0 false
  else if top < -40 then roundMag f rm neg (m * 2 ^ 20 - 1) (e - 20) true
  else zivRound f rm (fun p => transVal .tanh p neg m e) (zivSteps (extraBits .tanh f m e))

/-- `FSINP` of a finite nonzero value: +0 at integers n ≥ 0 and −0 at n < 0; ±1 at half-integers. -/
def sinpFin (f : Fmt) (rm : Rm) (neg : Bool) (m : Nat) (e : Int) : Nat × Flags :=
  match asInt m e with
  | some _ => (f.signBit neg, 0#8)
  | none =>
    match asInt m (e + 1) with
    | some k => roundFin f rm (neg != decide (k % 4 = 3)) 1 0
    | none => zivRound f rm (fun p => transVal .sinp p neg m e) (zivSteps (extraBits .sinp f m e))

/-- `FCOSP` of a finite nonzero value: ±1 at integers, +0 at half-integers. -/
def cospFin (f : Fmt) (rm : Rm) (m : Nat) (e : Int) : Nat × Flags :=
  match asInt m e with
  | some k => roundFin f rm (decide (k % 2 = 1)) 1 0
  | none =>
    match asInt m (e + 1) with
    | some _ => (0, 0#8)
    | none =>
      -- cos of a tiny angle lies just below 1
      if (bitLen m : Int) + e < -60 then nextTo f rm false 1 0 false
      else zivRound f rm (fun p => transVal .cosp p false m e) (zivSteps (extraBits .cosp f m e))

/-- 1/√(m·2^e), exactly: an integer root of a quotient, with a sticky tail. -/
def rsqFin (f : Fmt) (rm : Rm) (m : Nat) (e : Int) : Nat × Flags :=
  let m' := if e % 2 = 0 then m else 2 * m
  let e' := if e % 2 = 0 then e else e - 1
  let k := f.fb + 8 + bitLen m'
  let q := Nat.sqrt (2 ^ (2 * k) / m')
  roundMag f rm false q (-e' / 2 - k) (q * q * m' != 2 ^ (2 * k))

/-- The transcendental opcodes. -/
inductive TOp where
  | rcp | rsq | exp2 | log2 | sinp | cosp | tanh
  deriving DecidableEq, Repr

/-- 1.0 in a format. -/
def oneCode (f : Fmt) : Nat := f.bias * 2 ^ f.fb

/-- The exact forms, with the special inputs of 05 Table 5.8; input already flushed. -/
def transExact (f : Fmt) (rm : Rm) (op : TOp) (a : Nat) : Nat × Flags :=
  let one := (oneCode f, 0#8)
  match fdecode f a with
  | .nan s => (f.nanCode, flagIf s flagInv)
  | .inf n =>
    match op with
    | .rcp => (f.signBit n, 0#8)
    | .rsq => if n then (f.nanCode, flagInv) else (0, 0#8)
    | .exp2 => if n then (0, 0#8) else (f.infCode false, 0#8)
    | .log2 => if n then (f.nanCode, flagInv) else (f.infCode false, 0#8)
    | .sinp => (f.nanCode, flagInv)
    | .cosp => (f.nanCode, flagInv)
    | .tanh => (f.signBit n + oneCode f, 0#8)
  | .fin n m e =>
    if m = 0 then
      match op with
      | .rcp => (f.infCode n, flagDvz)
      | .rsq => (f.infCode n, flagDvz)
      | .exp2 => one
      | .log2 => (f.infCode true, flagDvz)
      | .sinp => (f.signBit n, 0#8)
      | .cosp => one
      | .tanh => (f.signBit n, 0#8)
    else
      match op with
      | .rcp => let k := f.fb + 4 + bitLen m
                let d := divBits 1 m k
                roundMag f rm n d.1 (-e - k) d.2
      | .rsq => if n then (f.nanCode, flagInv) else rsqFin f rm m e
      | .exp2 => exp2Fin f rm n m e
      | .log2 => if n then (f.nanCode, flagInv) else log2Fin f rm m e
      | .sinp => sinpFin f rm n m e
      | .cosp => cospFin f rm m e
      | .tanh => tanhFin f rm n m e

/-- A finite code as a multiple of 2^-300 (every FP32 and FP64 code near an FP32 value is one). -/
def codeUnits (f : Fmt) (x : Nat) : Int :=
  match fdecode f x with
  | .fin n m e => (if n then -1 else 1) * (fixOf 300 m e : Int)
  | _ => 0

/-- The bound of 04 Table 4.7 around the correctly rounded FP64 value `r`, in units of 2^-300: two
units in the last place of FP32, or an absolute bound; 0 demands the exact form. -/
def approxBound (op : TOp) (m : Nat) (e : Int) (r : Int) : Int :=
  let ulp : Int := 2 ^ (max ((bitLen r.natAbs : Int) - 1 - 23) (300 - 149)).toNat
  let low := decide ((bitLen m : Int) + e ≤ 20) || (decide ((bitLen m : Int) + e = 21) && m == 2 ^ (bitLen m - 1))
  match op with
  | .rcp => 2 * ulp
  | .rsq => 2 * ulp
  | .exp2 => 2 * ulp
  | .log2 => if decide ((fixOf 300 m e : Int) ≤ 2 * 2 ^ 300) && decide ((2 ^ 299 : Int) ≤ fixOf 300 m e) then 2 ^ 279
             else 2 * ulp
  | .sinp => if low then 2 ^ 278 else 0
  | .cosp => if low then 2 ^ 278 else 0
  | .tanh => 2 ^ 278

/-- A result within its bound: both finite, nearer than the bound less the rounding of the reference. -/
def approxOk (op : TOp) (a cand : Nat) : Bool :=
  match fdecode fp32 a, fdecode fp32 cand with
  | .fin _ m e, .fin _ _ _ =>
    let wide := (roundVal fp64 .rne (fdecode fp32 a)).1
    let r := codeUnits fp64 (transExact fp64 .rne op wide).1
    let b := approxBound op m e r
    b != 0 && decide ((codeUnits fp32 cand - r).natAbs + r.natAbs / 2 ^ 52 ≤ b.natAbs)
  | _, _ => false

/-- The approximate form of an FP32 input (04 R90): a fixed function of its input within the bound,
the exact form's results and flags at special and exact inputs, subnormal results flushed. -/
def transApprox (op : TOp) (code nbv a : Nat) : Nat × Flags :=
  let ex := transExact fp32 .rne op a
  let r :=
    if ex.2 &&& flagInx = 0#8 ∨ ex.2 &&& flagOfl ≠ 0#8 then ex
    else
      let c := Config.approxFp32 code nbv a
      -- underflow is that of the result written: the flush below, or a nonzero result written as zero
      let kept := if c % 2 ^ 31 = 0 then ex.2 else ex.2 &&& ~~~flagUfl
      if approxOk op a c then (c, kept ||| flagInx) else ex
  ftzOut fp32 true r

end Sys2Proof.Machine
end

