-- ==== Sys2Proof/Machine/Float.lean ====
section
/-! DEFINITION. The floating-point family (05 R111 to R117): element-wise formats, the conversions of
05 Table 5.7, and one meaning per instruction. -/

namespace Sys2Proof.Machine

open Sys2Proof

/-- The format of a type's elements. -/
def fmtOf : Ty → Fmt
  | .f64 => fp64
  | .f16x2 => fp16
  | .bf16x2 => bf16
  | .e4m3x4 => e4m3
  | .e5m2x4 => e5m2
  | _ => fp32

/-- Elements of a floating-point value. -/
def fcount : Ty → Nat
  | .f16x2 => 2
  | .bf16x2 => 2
  | .e4m3x4 => 4
  | .e5m2x4 => 4
  | _ => 1

/-- Code of element e. -/
def felem (ty : Ty) (x e : Nat) : Nat := field x (e * (fmtOf ty).width) (fmtOf ty).width

/-- Compute each element in its own format; flags are the union (05 R111). -/
def floatElems (ty : Ty) (f : Nat → Nat × Flags) : LaneOut :=
  (List.range (fcount ty)).foldl (fun o e =>
    let r := f e
    { val := o.val + r.1 * 2 ^ (e * (fmtOf ty).width), flags := o.flags ||| r.2 }) {}

/-- Rounding mode of an instruction (03 R50). -/
def rmIn (mode : Word) (x : XForm) : Rm := rmOf mode (bits x.mod 2 0)

/-- The format and element operation of a two-source instruction. -/
def float2 (ty : Ty) (f : Fmt → Nat → Nat → Nat × Flags) (a b : Nat) : LaneOut :=
  floatElems ty fun e => f (fmtOf ty) (felem ty a e) (felem ty b e)

def float1 (ty : Ty) (f : Fmt → Nat → Nat × Flags) (a : Nat) : LaneOut :=
  floatElems ty fun e => f (fmtOf ty) (felem ty a e)

/-- Whether the approximate form is used (04 R89, 05 R116). -/
def useApprox (mode : Word) (x : XForm) : Bool :=
  !modeExact mode && x.ty == .f32 && (x.mod.getLsbD 3 || modeApxd mode)

/-- A transcendental (05 R116). -/
def transOut (op : TOp) (code : Nat) (mode nbv : Word) (x : XForm) (a : Nat) : LaneOut :=
  let f := fmtOf x.ty
  let a' := ftzIn f (modeFtz mode) a
  let r := if useApprox mode x then transApprox op code (bits nbv 3 0) a'
    else ftzOut f (modeFtz mode) (transExact f (rmIn mode x) op a')
  { val := r.1, flags := r.2 }

/-- An exact widening: NaN becomes canonical and a signalling one sets INV (04 R81). -/
def widen (src dst : Fmt) (ftz : Bool) (a : Nat) : Nat × Flags :=
  ftzOut dst ftz (roundVal dst .rne (fdecode src (ftzIn src ftz a)))

/-- A narrowing conversion of one element (04 R79). -/
def narrow1 (src dst : Fmt) (ftz sat : Bool) (a : Nat) : Nat × Flags :=
  ftzOut dst ftz (cvtNarrow dst sat (fdecode src (ftzIn src ftz a)))

/-- Two 8-bit results placed in bytes 2h and 2h+1 of the destination (05 R114). -/
def placeHalf (old h lo hi : Nat) : Nat :=
  let sh := 16 * h
  old - field old sh 16 * 2 ^ sh + (lo + 256 * hi) * 2 ^ sh

/-- `FCVT` (05 Table 5.7): the row, then its sources. `old` is the destination before. -/
def fcvtOut (mode : Word) (x : XForm) (old : Nat) (v : Srcs) : LaneOut :=
  let s := x.ty
  let d := (dstTy x).getD .f32
  let ftz := modeFtz mode
  let sat := x.mod.getLsbD 4
  let rm := rmIn mode x
  let h := bits x.aux 4 4
  let sf := fmtOf s
  let df := fmtOf d
  let out := fun (r : Nat × Flags) => ({ val := r.1, flags := r.2 } : LaneOut)
  match fcvtRow s d with
  | 1 => out (widen sf df ftz v.a)
  | 2 => out (ftzOut df ftz (roundVal df rm (fdecode sf (ftzIn sf ftz v.a))))
  | 3 => floatElems d fun e => narrow1 sf df ftz sat (if e = 0 then v.a else v.b)
  | 4 =>
    let p := narrow1 sf df false sat v.a
    let q := narrow1 sf df false sat v.b
    out (placeHalf old h p.1 q.1, p.2 ||| q.2)
  | 5 =>
    let p := narrow1 sf df false sat (felem s v.a 0)
    let q := narrow1 sf df false sat (felem s v.a 1)
    out (placeHalf old h p.1 q.1, p.2 ||| q.2)
  | 6 => floatElems d fun e => narrow1 sf df ftz sat (felem s v.a e)
  | 7 => out (widen sf df ftz (felem s v.a h))
  | 8 => out (widen sf df ftz (felem s v.a (bits x.aux 5 4)))
  | 9 => floatElems d fun e => widen sf df ftz (felem s v.a (2 * h + e))
  | 10 =>
    let n := Ty.bits d
    out (cvtToInt n (Ty.isSigned d) rm (fdecode sf (ftzIn sf ftz v.a)))
  | _ => out (cvtFromInt df rm (elem s v.a 0))

/-- A floating-point instruction with a register result: IEEE traps apply (04 R85). -/
def floatOp (ins : Instr) (x : XForm) (f : Word → Srcs → LaneOut) (s : State) : Out :=
  regOp ins x true (fun _ v => f s.me.mode v) s

/-! ### Meanings -/

/-- `FADD`: round(a + b). -/
def faddRun (ins : Instr) (x : XForm) (s : State) : Out :=
  floatOp ins x (fun m v => float2 x.ty (fun f a b => fpAdd f (rmIn m x) (modeFtz m) a b) v.a v.b) s
/-- `FADD`, base form (03 R47). -/
def execFaddBase (x : Base2) (s : State) : Out := faddRun (.faddBase x) (x.lift 0x48 none) s
/-- `FADD`, base form with a literal (03 R47). -/
def execFaddBaseLit (x : Base2) (lit : BitVec 64) (s : State) : Out :=
  faddRun (.faddBaseLit x lit) (x.lift 0x48 (some lit)) s
/-- `FADD`, extended form. -/
def execFadd (x : XForm) (s : State) : Out := faddRun (.fadd x) x s

/-- `FSUB`: round(a − b). -/
def fsubRun (ins : Instr) (x : XForm) (s : State) : Out :=
  floatOp ins x (fun m v => float2 x.ty (fun f a b => fpSub f (rmIn m x) (modeFtz m) a b) v.a v.b) s
/-- `FSUB`, extended form. -/
def execFsub (x : XForm) (s : State) : Out := fsubRun (.fsub x) x s

/-- `FMUL`: round(a × b). -/
def fmulRun (ins : Instr) (x : XForm) (s : State) : Out :=
  floatOp ins x (fun m v => float2 x.ty (fun f a b => fpMul f (rmIn m x) (modeFtz m) a b) v.a v.b) s
/-- `FMUL`, base form (03 R47). -/
def execFmulBase (x : Base2) (s : State) : Out := fmulRun (.fmulBase x) (x.lift 0x4A none) s
/-- `FMUL`, base form with a literal (03 R47). -/
def execFmulBaseLit (x : Base2) (lit : BitVec 64) (s : State) : Out :=
  fmulRun (.fmulBaseLit x lit) (x.lift 0x4A (some lit)) s
/-- `FMUL`, extended form. -/
def execFmul (x : XForm) (s : State) : Out := fmulRun (.fmul x) x s

/-- `FFMA`: round(a × b + c), one rounding. -/
def ffmaRun (ins : Instr) (x : XForm) (s : State) : Out :=
  floatOp ins x (fun m v => floatElems x.ty fun e =>
    fpFma (fmtOf x.ty) (rmIn m x) (modeFtz m) (felem x.ty v.a e) (felem x.ty v.b e)
      (felem x.ty v.c e)) s
/-- `FFMA`, extended form. -/
def execFfma (x : XForm) (s : State) : Out := ffmaRun (.ffma x) x s

/-- `FMIN`: minimumNumber (04 R81). -/
def fminRun (ins : Instr) (x : XForm) (s : State) : Out :=
  floatOp ins x (fun m v => float2 x.ty (fun f a b => fpMinMax f false (modeFtz m) a b) v.a v.b) s
/-- `FMIN`, base form (03 R47). -/
def execFminBase (x : Base2) (s : State) : Out := fminRun (.fminBase x) (x.lift 0x4C none) s
/-- `FMIN`, base form with a literal (03 R47). -/
def execFminBaseLit (x : Base2) (lit : BitVec 64) (s : State) : Out :=
  fminRun (.fminBaseLit x lit) (x.lift 0x4C (some lit)) s
/-- `FMIN`, extended form. -/
def execFmin (x : XForm) (s : State) : Out := fminRun (.fmin x) x s

/-- `FMAX`: maximumNumber (04 R81). -/
def fmaxRun (ins : Instr) (x : XForm) (s : State) : Out :=
  floatOp ins x (fun m v => float2 x.ty (fun f a b => fpMinMax f true (modeFtz m) a b) v.a v.b) s
/-- `FMAX`, base form (03 R47). -/
def execFmaxBase (x : Base2) (s : State) : Out := fmaxRun (.fmaxBase x) (x.lift 0x4D none) s
/-- `FMAX`, base form with a literal (03 R47). -/
def execFmaxBaseLit (x : Base2) (lit : BitVec 64) (s : State) : Out :=
  fmaxRun (.fmaxBaseLit x lit) (x.lift 0x4D (some lit)) s
/-- `FMAX`, extended form. -/
def execFmax (x : XForm) (s : State) : Out := fmaxRun (.fmax x) x s

/-- `FSETP` (05 R104, R112). -/
def fsetpRun (ins : Instr) (x : XForm) (s : State) : Out :=
  setpOp ins x true (fun v => fpCmp (fmtOf x.ty) x.fam (modeFtz s.me.mode) v.a v.b) s
/-- `FSETP`, extended form. -/
def execFsetp (x : XForm) (s : State) : Out := fsetpRun (.fsetp x) x s

/-- `FCLASS` (05 R113): the bits as they stand, no flag. -/
def fclassRun (ins : Instr) (x : XForm) (s : State) : Out :=
  regOp ins x false (fun _ v => { val := fpClass (fmtOf x.ty) v.a }) s
/-- `FCLASS`, extended form. -/
def execFclass (x : XForm) (s : State) : Out := fclassRun (.fclass x) x s

/-- `FRND` (05 R113). -/
def frndRun (ins : Instr) (x : XForm) (s : State) : Out :=
  floatOp ins x (fun m v => float1 x.ty (fun f a => ftzOut f (modeFtz m) (fpRnd f (rmIn m x) (modeFtz m) a)) v.a) s
/-- `FRND`, extended form. -/
def execFrnd (x : XForm) (s : State) : Out := frndRun (.frnd x) x s

/-- `FCVT` (05 R114). -/
def fcvtRun (ins : Instr) (x : XForm) (s : State) : Out :=
  regOp ins x true (fun l v =>
    fcvtOut s.me.mode x (opVal s.me x.lit x.a 1 l) v) s
/-- `FCVT`, extended form. -/
def execFcvt (x : XForm) (s : State) : Out := fcvtRun (.fcvt x) x s

/-- `FDIV` (05 R115). -/
def fdivRun (ins : Instr) (x : XForm) (s : State) : Out :=
  floatOp ins x (fun m v => float2 x.ty (fun f a b => fpDiv f (rmIn m x) (modeFtz m) a b) v.a v.b) s
/-- `FDIV`, extended form. -/
def execFdiv (x : XForm) (s : State) : Out := fdivRun (.fdiv x) x s

/-- `FSQRT` (05 R115). -/
def fsqrtRun (ins : Instr) (x : XForm) (s : State) : Out :=
  floatOp ins x (fun m v => float1 x.ty (fun f a => fpSqrt f (rmIn m x) (modeFtz m) a) v.a) s
/-- `FSQRT`, extended form. -/
def execFsqrt (x : XForm) (s : State) : Out := fsqrtRun (.fsqrt x) x s

/-- `FRCP` (05 R116). -/
def frcpRun (ins : Instr) (x : XForm) (s : State) : Out :=
  floatOp ins x (fun m v => transOut .rcp 0x54 m s.me.nbv x v.a) s
/-- `FRCP`, extended form. -/
def execFrcp (x : XForm) (s : State) : Out := frcpRun (.frcp x) x s

/-- `FRSQ` (05 R116). -/
def frsqRun (ins : Instr) (x : XForm) (s : State) : Out :=
  floatOp ins x (fun m v => transOut .rsq 0x55 m s.me.nbv x v.a) s
/-- `FRSQ`, extended form. -/
def execFrsq (x : XForm) (s : State) : Out := frsqRun (.frsq x) x s

/-- `FEXP2` (05 R116). -/
def fexp2Run (ins : Instr) (x : XForm) (s : State) : Out :=
  floatOp ins x (fun m v => transOut .exp2 0x56 m s.me.nbv x v.a) s
/-- `FEXP2`, extended form. -/
def execFexp2 (x : XForm) (s : State) : Out := fexp2Run (.fexp2 x) x s

/-- `FLOG2` (05 R116). -/
def flog2Run (ins : Instr) (x : XForm) (s : State) : Out :=
  floatOp ins x (fun m v => transOut .log2 0x57 m s.me.nbv x v.a) s
/-- `FLOG2`, extended form. -/
def execFlog2 (x : XForm) (s : State) : Out := flog2Run (.flog2 x) x s

/-- `FSINP` (05 R116). -/
def fsinpRun (ins : Instr) (x : XForm) (s : State) : Out :=
  floatOp ins x (fun m v => transOut .sinp 0x58 m s.me.nbv x v.a) s
/-- `FSINP`, extended form. -/
def execFsinp (x : XForm) (s : State) : Out := fsinpRun (.fsinp x) x s

/-- `FCOSP` (05 R116). -/
def fcospRun (ins : Instr) (x : XForm) (s : State) : Out :=
  floatOp ins x (fun m v => transOut .cosp 0x59 m s.me.nbv x v.a) s
/-- `FCOSP`, extended form. -/
def execFcosp (x : XForm) (s : State) : Out := fcospRun (.fcosp x) x s

/-- `FTANH` (05 R116). -/
def ftanhRun (ins : Instr) (x : XForm) (s : State) : Out :=
  floatOp ins x (fun m v => transOut .tanh 0x5A m s.me.nbv x v.a) s
/-- `FTANH`, extended form. -/
def execFtanh (x : XForm) (s : State) : Out := ftanhRun (.ftanh x) x s

/-- `FSCALE` (05 R117). -/
def fscaleRun (ins : Instr) (x : XForm) (s : State) : Out :=
  floatOp ins x (fun m v => float1 x.ty (fun f a => fpScale f (rmIn m x) (modeFtz m) a (signed 32 v.b)) v.a) s
/-- `FSCALE`, extended form. -/
def execFscale (x : XForm) (s : State) : Out := fscaleRun (.fscale x) x s

end Sys2Proof.Machine
end

