-- ==== Sys2Proof/Machine/Cross.lean ====
section
/-! DEFINITION. The cross-lane family (05 R118 to R130): lane reads, reductions and scans, votes, and
pattern tables. -/

namespace Sys2Proof.Machine

open Sys2Proof

/-! ### Lane reads -/

/-- What one lane reads across lanes: the value and whether it is poisoned (03 R54). -/
structure XVal where
  val : Nat
  bad : Bool
  deriving DecidableEq, Repr

/-- The value of field `o` of lane j, or of its fill. -/
def xval (g : Group) (act : Mask) (x : XForm) (o : Opnd) (w l : Nat) (j : Int) : XVal :=
  { val := xRead act x.fill x.imm w l j fun i => opVal g x.lit o w i
    bad := match xSource act x.fill l j with
      | some i => opBad g o w i
      | none => false }

/-- Run a cross-lane instruction that writes A: `bad` names the first poisoned source of a lane. -/
def Iss.crossRun (i : Iss) (x : XForm) (w : Nat) (bad : Nat → Option Opnd) (f : Nat → LaneOut) : Iss :=
  i.laneRun (runLanes i.run x.a.isS) x.a.isS (fun l => (bad l).map poisonFlt) f false
    fun l o g => g.writeDst x.a w l o.val

/-- `XSHF` (05 R119): a of the lane that C indexes. -/
def execXshf (x : XForm) (s : State) : Out :=
  let i := begin_ (.xshf x) s
  let g := i.g
  let w := x.ty.regs
  let v := fun (l : Nat) => xval g i.act x x.b w l (shfIndex g x l)
  (i.crossRun x w
    (fun l => if opBad g x.c 1 l then some x.c else if (v l).bad then some x.b else none)
    (fun l => { val := (v l).val })).out

/-- `XSLD` (05 R120): a through one mode of Table 3.7, with k in XK or C. -/
def execXsld (x : XForm) (s : State) : Out :=
  let i := begin_ (.xsld x) s
  let g := i.g
  let w := x.ty.regs
  let v := fun (l : Nat) => xval g i.act x x.b w l (xIndex x.xm (xStep g x) l)
  (i.crossRun x w
    (fun l => if x.aux.getLsbD 0 && opBad g x.c 1 l then some x.c
      else if (v l).bad then some x.b else none)
    (fun l => { val := (v l).val })).out

/-- `XBFL` (05 R121): the butterfly exchange; `fill=own` gives the lane its own a or b. -/
def execXbfl (x : XForm) (s : State) : Out :=
  let i := begin_ (.xbfl x) s
  let g := i.g
  let w := x.ty.regs
  let k := x.xk.toNat
  let src := fun (l : Nat) => if l.testBit k then x.c else x.b
  let v := fun (l : Nat) => xval g i.act x (src l) w l ((l ^^^ 2 ^ k : Nat) : Int)
  (i.crossRun x w (fun l => if (v l).bad then some (src l) else none)
    (fun l => { val := (v l).val })).out

/-- `XBCST` (05 R122): a of one lane in every acting lane, or in a scalar register. -/
def execXbcst (x : XForm) (s : State) : Out :=
  let i := begin_ (.xbcst x) s
  let g := i.g
  let w := x.ty.regs
  let first := x.mod.getLsbD 5
  let v := fun (l : Nat) => xval g i.act x x.b w l (bcstIndex g i.act x)
  (i.crossRun x w
    (fun l => if !first && opBad g x.c 1 l then some x.c else if (v l).bad then some x.b else none)
    (fun l => { val := (v l).val })).out

/-! ### Reductions and scans -/

/-- The operation of `XRED` and `XSCAN` (05 R123). -/
def redOp (mode : Word) (x : XForm) (a b : Nat) : LaneOut :=
  let ty := x.ty
  if ty == .f32 || ty == .f64 then
    let f := fmtOf ty
    let ftz := modeFtz mode
    let r := match x.fam with
      | 0 => fpAdd f (rmIn mode x) ftz a b
      | 1 => fpMinMax f false ftz a b
      | _ => fpMinMax f true ftz a b
    { val := r.1, flags := r.2 }
  else
    { val := match x.fam with
        | 0 => mapElems2 ty (· + ·) a b
        | 1 => mapElems2 ty min a b
        | 2 => mapElems2 ty max a b
        | 3 => a &&& b
        | 4 => a ||| b
        | _ => a ^^^ b }

/-- `XRED` (05 R123): one log-step; the lower lane's value is the first operand. -/
def execXred (x : XForm) (s : State) : Out :=
  let i := begin_ (.xred x) s
  let g := i.g
  let w := x.ty.regs
  let j := fun (l : Nat) => l ^^^ stepLanes (xStep g x)
  let v := fun (l : Nat) => xval g i.act x x.b w l (j l : Int)
  (i.crossRun x w
    (fun l => if opBad g x.b w l then some x.b
      else if x.aux.getLsbD 0 && opBad g x.c 1 l then some x.c
      else if (v l).bad then some x.b else none)
    (fun l =>
      let a := opVal g x.lit x.b w l
      if l < j l then redOp g.mode x a (v l).val else redOp g.mode x (v l).val a)).out

/-- `XSCAN` (05 R124): one log-step of an inclusive scan. -/
def execXscan (x : XForm) (s : State) : Out :=
  let i := begin_ (.xscan x) s
  let g := i.g
  let w := x.ty.regs
  let j := fun (l : Nat) => (l : Int) - stepLanes (xStep g x)
  let v := fun (l : Nat) => xval g i.act x x.b w l (j l)
  (i.crossRun x w
    (fun l => if opBad g x.b w l then some x.b
      else if x.aux.getLsbD 0 && opBad g x.c 1 l then some x.c
      else if decide (0 ≤ j l) && (v l).bad then some x.b else none)
    (fun l =>
      let a := opVal g x.lit x.b w l
      if j l < 0 then { val := a } else redOp g.mode x (v l).val a)).out

/-! ### Votes -/

/-- q of 05 R125, as a mask. -/
def voteMask (g : Group) (x : XForm) : Mask :=
  let p := g.preg (bits x.aux 3 0)
  if x.aux.getLsbD 4 then ~~~p else p

/-- `XVOTE` (05 R125): the voters are the acting lanes. -/
def execXvote (x : XForm) (s : State) : Out :=
  let i := begin_ (.xvote x) s
  let vs := i.run
  let q := voteMask i.g x &&& vs
  if vs = 0#32 then i.out
  else if x.fam = 3 then (i.crossRun x 1 (fun _ => none) fun _ => { val := q.toNat }).out
  else
    let r := match x.fam with
      | 0 => q == vs
      | 1 => q != 0#32
      | _ => q == vs || q == 0#32
    (i.mod fun g => g.setPIn x.a.num vs (if r then vs else 0#32)).out

/-- The highest lane of a mask. -/
def highestLane (m : Mask) : Nat := ((maskLanes m).getLast?).getD 0

/-- `XFFS` (05 R126). -/
def execXffs (x : XForm) (s : State) : Out :=
  let i := begin_ (.xffs x) s
  let q := voteMask i.g x &&& i.run
  let none_ := 0xFFFFFFFF
  (i.crossRun x 1 (fun _ => none) fun l =>
    { val := match x.fam with
        | 0 => if q = 0#32 then none_ else lowestLane q
        | 1 => if q = 0#32 then none_ else highestLane q
        | 2 => maskCount (q &&& maskOf (List.range l))
        | _ => maskCount q }).out

/-! ### Pattern tables -/

/-- A malformed entry: a nonzero RSVD field or a selector of 10 to 15 (05 R128). -/
def patBad (e : Nat) : Bool :=
  field e 48 16 != 0 || field e 11 5 != 0 || field e 5 2 != 0 ||
    (List.range 8).any fun i => decide (10 ≤ field e (16 + 4 * i) 4)

/-- `XPLD` (05 R128): load a pattern table from the scratchpad, once if any lane acts. -/
def execXpld (x : XForm) (s : State) : Out :=
  let t := s.teamOf s.cur
  let tab := x.aux.toNat
  let i := begin_ (.xpld x) s (decide (tab < t.npats))
  let off := uniVal i.g x x.b 1 + x.imm.toNat
  if i.run = 0#32 then i.out
  else if opBad i.g x.b 1 0 then (i.faultAll (poisonFlt x.b)).out
  else if off % 32 ≠ 0 then (i.faultAll { cause := 0x07#8 }).out
  else if t.ssize < off + 256 then (i.faultAll { cause := 0x03#8 }).out
  else
    let ks := t.scrAbsent off 256
    if !ks.isEmpty then .next (i.parked (.sectors (ks.map fun k => (i.g.team, k))) s)
    else if t.scrPoison off 256 then (i.faultAll { cause := 0x04#8, aux := 0x300#32 }).out
    else
      let bs := t.scrBytes off 256
      if (List.range 32).any fun l => patBad (ofBytes ((bs.drop (8 * l)).take 8)) then
        (i.faultAll { cause := 0x12#8 }).out
      else
        (i.modS fun s => s.modTeam i.g.team fun t =>
          t.loadPattern tab bs).out

/-- The word that an entry builds from a source word (05 R129). -/
def patWord (e x : Nat) : Nat :=
  ((List.range 8).foldl (fun (acc : Nat × Nat) i =>
    let c := field e (16 + 4 * i) 4
    let n := if c < 8 then field x (4 * c) 4
      else if c = 8 then 0
      else if i != 0 && acc.2.testBit 3 then 0xF else 0
    (acc.1 + n * 2 ^ (4 * i), n)) (0, 0)).1

/-- `XPAT` (05 R129): apply a pattern table across a register range. -/
def execXpat (x : XForm) (s : State) : Out :=
  let t := s.teamOf s.cur
  let tab := x.aux.toNat
  let i := begin_ (.xpat x) s (decide (tab < t.npats))
  let g := i.g
  let n := bits x.imm 3 0
  let st := x.xk.toNat
  let reg := fun (e r : Nat) => x.b.num + patReg e r n
  let sees := fun (e r : Nat) => !e.testBit 7 && i.act.getLsbD (patLane e r st)
  (i.laneRun i.run false
    (fun l =>
      let e := patEntry t tab l
      let ps := ((List.range n).filter fun r => sees e r && g.vPoison (reg e r) (patLane e r st)).map (reg e)
      if ps.isEmpty then none
      else some { cause := 0x04#8, aux := BitVec.ofNat 32 (0x100 + minOf 0 ps) })
    (fun _ => {}) false
    (fun l _ d =>
      let e := patEntry t tab l
      (List.range n).foldl (fun d r =>
        let v := if sees e r then (g.vreg (reg e r) (patLane e r st)).toNat else 0
        d.setV (x.a.num + r) l (BitVec.ofNat 32 (if e.testBit 7 then 0 else patWord e v))) d)).out

end Sys2Proof.Machine
end

