-- ==== Sys2Proof/Machine/Log.lean ====
section
/-! DEFINITION. Stopping a team (16 R396), and record and replay (16 R399 to R403): the log area, the
entries that a recorded result appends, the entries that a replay consumes, and a replay's mismatch. -/

namespace Sys2Proof.Machine

open Sys2Proof

/-! ### Stopping a team -/

/-- Halt a team at instruction boundaries: no window stays open, a KIND 6 record and one KIND 9 record
for each named barrier with an arrival (16 R396, R59). -/
def State.haltTeam (s : State) (tn : Nat) : State :=
  if (s.team tn).halted then s
  else
    let s := s.modTeam tn fun t => { t with halted := true }
    let s := (s.team tn).groups.foldl (fun s kv => s.modGrp kv.2 fun g => { g with windows := [] }) s
    let s := s.trace tn 0xFF 6 0
    (s.team tn).bars.foldl (fun s kv =>
      if kv.2.arrived = 0#32 then s
      else s.trace tn 0xFF 9 (kv.1 * 2 ^ 32 + kv.2.arrived.toNat)) s

/-- A debugger may halt a team: any but one of a timed stream outside debug timing (13 R318). -/
def State.haltable (s : State) (tn : Nat) : Bool :=
  let l := s.launch (s.team tn).launch
  l.r.cls != 2 || (match l.inst with
    | some k => (s.stream (s.instance_ k).stream).d.dbg
    | none => false)

/-- Resume a halted team: a KIND 7 record, and waiting sub-groups enter trap mode (16 R396, R397). -/
def State.resumeTeam (s : State) (tn : Nat) : State :=
  if !(s.team tn).halted then s
  else
    let s := s.modTeam tn fun t => { t with halted := false }
    let s := s.trace tn 0xFF 7 0
    (s.team tn).groups.foldl (fun s kv => s.enterTrap kv.2) s

/-! ### The log area (16 R401) -/

/-- Read a little-endian number of the log area. -/
def State.logNum (s : State) (l off n : Nat) : Nat :=
  match (s.deviceRead (s.launch l).asid ((s.launch l).r.logbuf + off) n).1 with
  | some bs => ofBytes bs
  | none => 0

def State.logPut (s : State) (l off n x : Nat) : State :=
  s.deviceWrite (s.launch l).asid ((s.launch l).r.logbuf + off) (toBytes n x)

def flagReplayable : Nat := 1
def flagFull : Nat := 2
def flagMismatch : Nat := 4

/-- Clear and set FLAGS of the log header. -/
def State.logFlags (s : State) (l clear set : Nat) : State :=
  let f := s.logNum l 4 4
  s.logPut l 4 4 ((f - (f &&& clear)) ||| set)

/-- The header that a recording launch begins with; SIZE is the driver's. -/
def State.logStart (s : State) (l teams : Nat) : State :=
  let x := s.launch l
  let s := s.logPut l 0 4 1
  let s := s.logPut l 4 4 flagReplayable
  let s := s.logPut l 0x10 8 (roundUp (0x100 + 8 * teams) 4096)
  let s := s.logPut l 0x18 8 x.tag.toNat
  let s := s.logPut l 0x20 4 laneCount
  let s := s.logPut l 0x24 4 x.r.nbv
  let s := s.logPut l 0x28 8 0x100
  let s := s.deviceWrite x.asid (x.r.logbuf + 0x30) (List.replicate 0xD0 0#8)
  s.deviceWrite x.asid (x.r.logbuf + 0x100) (List.replicate (8 * teams) 0#8)

/-- Take the next free block for a team's stream; none is free past SIZE. -/
def State.logBlockFor (s : State) (tn : Nat) : State :=
  let t := s.team tn
  let l := t.launch
  let next := s.logNum l 0x10 8
  if s.logNum l 8 8 < next + 4096 then s.logFlags l flagReplayable flagFull
  else
    let s := s.logPut l 0x10 8 (next + 4096)
    let s := if t.logBlock = 0 then s.logPut l (s.logNum l 0x28 8 + 8 * t.number) 8 next
      else s.logPut l (t.logBlock + 4088) 8 next
    let s := s.deviceWrite (s.launch l).asid ((s.launch l).r.logbuf + next) (List.replicate 4096 0#8)
    s.modTeam tn fun t => { t with logBlock := next, logUsed := 0 }

/-- Append an entry to a team's stream (16 R400, R401). -/
def State.logAppend (s : State) (tn gid kind : Nat) (pc : VAddr) (payload : List Byte) : State :=
  let l := (s.team tn).launch
  if s.logNum l 4 4 &&& flagFull != 0 then s
  else
    let len := roundUp (16 + payload.length) 16
    let t := s.team tn
    let s := if t.logBlock = 0 ∨ 4088 < t.logUsed + len then s.logBlockFor tn else s
    if s.logNum l 4 4 &&& flagFull != 0 then s
    else
      let t := s.team tn
      let bs := toBytes 1 kind ++ toBytes 1 (len / 16) ++ toBytes 1 gid ++ toBytes 1 0 ++
        toBytes 4 t.logSeq ++ toBytes 8 pc.toNat ++ payload ++
        List.replicate (len - 16 - payload.length) 0#8
      let s := s.deviceWrite (s.launch l).asid ((s.launch l).r.logbuf + t.logBlock + t.logUsed) bs
      s.modTeam tn fun t => { t with logSeq := t.logSeq + 1, logUsed := t.logUsed + len }

/-- An entry of a stream, as a replay reads it. -/
structure LogEnt where
  kind : Nat
  gid : Nat
  seq : Nat
  pc : Nat
  payload : List Byte
  deriving DecidableEq, Repr

/-- The entries of one block: LEN counts 16-byte units, KIND 0 ends them. -/
def blockEntries : Nat → List Byte → List LogEnt
  | 0, _ => []
  | fuel + 1, bs =>
    let kind := ofBytes (bs.take 1)
    let len := 16 * ofBytes ((bs.drop 1).take 1)
    if kind = 0 ∨ len = 0 ∨ bs.length < len then []
    else
      { kind := kind, gid := ofBytes ((bs.drop 2).take 1), seq := ofBytes ((bs.drop 4).take 4),
        pc := ofBytes ((bs.drop 8).take 8), payload := (bs.take len).drop 16 } ::
        blockEntries fuel (bs.drop len)

/-- The entries of the blocks from an offset on. -/
def State.chainEntries (s : State) (l : Nat) : Nat → Nat → List LogEnt
  | 0, _ => []
  | fuel + 1, off =>
    if off = 0 then []
    else
      let bs := ((s.deviceRead (s.launch l).asid ((s.launch l).r.logbuf + off) 4096).1).getD []
      blockEntries 256 (bs.take 4088) ++ s.chainEntries l fuel (ofBytes (bs.drop 4088))

/-- The entries of a team's stream. -/
def State.teamEntries (s : State) (tn : Nat) : List LogEnt :=
  let t := s.team tn
  s.chainEntries t.launch (s.logNum t.launch 8 8 / 4096)
    (s.logNum t.launch (s.logNum t.launch 0x28 8 + 8 * t.number) 8)

/-- Whether a replay has consumed an entry; annotations are not matched (16 R402). -/
def Team.consumed (t : Team) (e : LogEnt) : Bool := e.kind == 9 || decide (e.seq < Sp.get 0 t.logPos e.gid)

/-- A replay consumes an entry. -/
def State.consume (s : State) (tn : Nat) (e : LogEnt) : State :=
  s.modTeam tn fun t => { t with logPos := Sp.put t.logPos e.gid (e.seq + 1) }

/-- The next entry that a group would consume. -/
def State.nextEntry (s : State) (n : Nat) : Option LogEnt :=
  let g := s.grp n
  (s.teamEntries g.team).find? fun e => e.gid == g.gid && !(s.team g.team).consumed e

/-! ### A mismatch (16 R403) -/

/-- End a replay: the mismatch record, MISMATCH, a KIND 10 trace record, and then the launch halts or is
killed. After a halt the launch goes on unlogged. -/
def State.mismatch (s : State) (tn gid reason expect found seq : Nat) (pc : VAddr) : State :=
  let t := s.team tn
  let l := t.launch
  let bs := toBytes 1 reason ++ toBytes 1 expect ++ toBytes 1 found ++ toBytes 1 gid ++
    toBytes 4 t.number ++ toBytes 4 seq ++ toBytes 4 0 ++ toBytes 8 pc.toNat ++ toBytes 8 s.time.toNat
  let s := s.deviceWrite (s.launch l).asid ((s.launch l).r.logbuf + 0x40) bs
  let s := s.logFlags l 0 flagMismatch
  let s := s.trace tn gid 10 0
  let x := s.launch l
  if x.r.haltMm && (s.part x.part).debugger then
    let s := s.modLaunch l fun x => { x with r := { x.r with logMode := 0 } }
    (s.teams.filter fun kv => kv.2.launch == l).foldl (fun s kv => s.haltTeam kv.1) s
  else (s.modLaunch l fun x => { x with err := true }).killLaunch l

/-! ### One logged result -/

/-- What becomes of a logged result: the payload that the instruction uses, or the end of the replay. -/
inductive Logged where
  | use (payload : List Byte) (s : State)
  | ended (s : State)
  deriving Repr

/-- Deliver a logged result to a group (16 R400, R402): live outside logging, recorded, or replaced by
the group's next entry, which `fits` must accept. -/
def State.deliver (s : State) (n kind : Nat) (pc : VAddr) (live : List Byte)
    (fits : List Byte → Bool) : Logged :=
  let g := s.grp n
  match (s.launchOf n).r.logMode with
  | 1 => .use live (s.logAppend g.team g.gid kind pc live)
  | 2 =>
    match s.nextEntry n with
    | none => .ended (s.mismatch g.team g.gid 2 0 kind 0 pc)
    | some e =>
      if e.kind ≠ kind ∨ e.pc ≠ pc.toNat then
        .ended (s.mismatch g.team g.gid 1 e.kind kind e.seq pc)
      else if !fits e.payload then .ended (s.mismatch g.team g.gid 5 e.kind kind e.seq pc)
      else .use e.payload (s.consume g.team e)
  | _ => .use live s

/-- The "lane values" payload (16 R400): MASK, or 0 for a scalar destination, SIZE, the values. -/
def laneValues (mask : Mask) (size : Nat) (vals : List Nat) : List Byte :=
  toBytes 4 mask.toNat ++ toBytes 1 size ++ toBytes 3 0 ++ vals.flatMap (toBytes size)

/-- Read `k` values of such a payload. -/
def payloadValues (size : Nat) : Nat → List Byte → List Nat
  | 0, _ => []
  | k + 1, bs => ofBytes (bs.take size) :: payloadValues size k (bs.drop size)

/-- What becomes of logged lane values. -/
inductive LoggedVals where
  | use (vals : List Nat) (s : State)
  | ended (s : State)
  deriving Repr

/-- Deliver lane values; nothing is logged where no value is written. -/
def State.deliverVals (s : State) (n kind : Nat) (pc : VAddr) (mask : Mask) (size : Nat)
    (vals : List Nat) : LoggedVals :=
  if vals.isEmpty then .use [] s
  else
    match s.deliver n kind pc (laneValues mask size vals) (fun p => p.take 4 == toBytes 4 mask.toNat) with
    | .use p s => .use (payloadValues size vals.length (p.drop 8)) s
    | .ended s => .ended s

/-- Deliver a snapshot of device time: ns, fraction, source 0 `%TIME`, 1 `SLEEP.rel`, 2 `time()`. -/
def State.deliverTime (s : State) (n src : Nat) (pc : VAddr) : Logged :=
  s.deliver n 2 pc (toBytes 8 s.time.toNat ++ toBytes 4 s.frac.toNat ++ toBytes 4 src) fun _ => true

/-- The 96-bit snapshot of such a payload: ns above the fraction (02 R33). -/
def snapOf (p : List Byte) : BitVec 96 :=
  BitVec.ofNat 96 (ofBytes (p.take 8) * 2 ^ 32 + ofBytes ((p.drop 8).take 4))

/-- Poison that a load delivers: the lanes, the first register by operand code, and how many registers (16 R400). -/
structure Mark where
  mask : Mask
  code : Nat
  count : Nat
  deriving DecidableEq, Repr

def Mark.bytes (q : Mark) : List Byte := toBytes 4 q.mask.toNat ++ toBytes 4 q.code ++ toBytes 4 q.count

def Mark.read (p : List Byte) : Mark :=
  ⟨BitVec.ofNat 32 (ofBytes (p.take 4)), ofBytes ((p.drop 4).take 4), ofBytes ((p.drop 8).take 4)⟩

/-- Every register and lane of a mark is in some mark of a list. -/
def Mark.within (q : Mark) (l : List Mark) : Bool :=
  (List.range q.count).all fun k => (maskLanes q.mask).all fun ln =>
    l.any fun r => decide (r.code ≤ q.code + k) && decide (q.code + k < r.code + r.count) && r.mask.getLsbD ln

/-- The poison entries that a replay finds next for an instruction, their register codes rising. -/
def State.takeMarks (n : Nat) (pc : VAddr) : Nat → Nat → State → List Mark × State
  | 0, _, s => ([], s)
  | fuel + 1, from_, s =>
    match s.nextEntry n with
    | none => ([], s)
    | some e =>
      let q := Mark.read e.payload
      if e.kind = 7 ∧ e.pc = pc.toNat ∧ from_ ≤ q.code then
        let r := State.takeMarks n pc fuel (q.code + q.count) (s.consume (s.grp n).team e)
        (q :: r.1, r.2)
      else ([], s)

/-- What becomes of the poison that an instruction meets. -/
inductive LoggedMarks where
  | use (marks : List Mark) (s : State)
  | ended (s : State)
  deriving Repr

/-- Poison that an instruction delivers to at most `m` registers: one entry for each mark. In replay the group's
entries are delivered whatever memory returns, and an error that the recording did not deliver ends the replay
(16 R400, R402, R403). -/
def State.deliverMarks (s : State) (n : Nat) (pc : VAddr) (m : Nat) (marks : List Mark) : LoggedMarks :=
  let g := s.grp n
  match (s.launchOf n).r.logMode with
  | 1 => .use marks (marks.foldl (fun s q => s.logAppend g.team g.gid 7 pc q.bytes) s)
  | 2 =>
    let r := State.takeMarks n pc m 0 s
    if marks.all fun q => q.within r.1 then .use r.1 r.2
    else match s.nextEntry n with
      | some e => .ended (s.mismatch g.team g.gid 4 e.kind 7 e.seq pc)
      | none => .ended (s.mismatch g.team g.gid 4 0 7 0 pc)
  | _ => .use marks s

/-- An uncorrectable error that a walk, a fetch or a structure read met in replay ends it (16 R403). -/
def State.errorInReplay (s : State) (n : Nat) : State :=
  match (s.grp n).errAt with
  | none => s
  | some pc =>
    let g := s.grp n
    let s := s.modGrp n fun g => { g with errAt := none }
    if (s.launchOf n).r.logMode ≠ 2 then s
    else match s.nextEntry n with
      | some e => s.mismatch g.team g.gid 4 e.kind 0 e.seq pc
      | none => s.mismatch g.team g.gid 4 0 0 0 pc

/-- An annotation in a team's stream: 1 page fault serviced, 2 corrected ECC, 3 pre-emption, 4
migration. -/
def State.annotate (s : State) (tn gid code : Nat) (pc : VAddr) : State :=
  if (s.launch (s.team tn).launch).r.logMode = 1 then s.logAppend tn gid 9 pc (toBytes 4 code) else s

/-- The entries that remain when a team ends are a mismatch (16 R403). -/
def State.replayEnd (s : State) (tn : Nat) : State :=
  let t := s.team tn
  if t.life = .ended ∧ (s.launch t.launch).r.logMode = 2 ∧ !(s.launch t.launch).killed then
    match (s.teamEntries tn).find? fun e => !t.consumed e with
    | some e => s.mismatch tn e.gid 3 e.kind 0 e.seq 0#57
    | none => s
  else s

end Sys2Proof.Machine
end

