-- ==== Sys2Proof/Machine/Control.lean ====
section
/-! DEFINITION. The control family (12 R297 to R306): transfers, calls, `EXIT`, convergence, loops,
`YIELD`, `SLEEP` and idempotent regions. -/

namespace Sys2Proof.Machine

open Sys2Proof

/-! ### Transfers -/

/-- The target of a relative transfer: PC + 4·offset as an exact integer (03 R49). -/
def relTarget (pc : VAddr) (off : Int) : Int := (pc.toNat : Int) + 4 * off

/-- A target inside the 57-bit address range. -/
def inRange (t : Int) : Bool := decide (0 ≤ t) && decide (t < 2 ^ 57)

/-- Lanes that a branch from a loop body to a target outside it makes illegal (12 R303). -/
def Group.escapes (g : Group) (pc : VAddr) (m : Mask) (t : Int) : Mask :=
  orMasks (fun c => m &&& c.set)
    (g.loops.filter fun c => decide (c.top.toNat ≤ pc.toNat) && decide (pc.toNat < c.stop.toNat) &&
      !(decide ((c.top.toNat : Int) ≤ t) && decide (t < c.stop.toNat)))

/-- Branch lanes to a target (12 R298, R303). -/
def Iss.jump (i : Iss) (m : Mask) (t : Int) (prio : Prio) : Iss :=
  let i := i.fault (i.g.escapes i.pc m t) { cause := 0x05#8 }
  i.moveTo (m &&& i.run) (BitVec.ofInt 57 t) prio

/-- Push a return entry; a push onto a full stack is illegal on that lane (12 R299). -/
def Iss.push (i : Iss) (m : Mask) : Iss :=
  let full := maskWhere fun l => m.getLsbD l && decide (16 ≤ (Sp.get [] i.g.rets l).length)
  let i := i.fault full { cause := 0x05#8 }
  i.mod fun g => { g with
    rets := (maskLanes (m &&& i.run)).foldl (fun rs l =>
      Sp.put rs l (⟨i.next, i.prio⟩ :: Sp.get [] rs l)) g.rets }

/-- A relative transfer of the acting lanes: a target outside the address range raises cause 0x07
before any lane moves. -/
def Iss.relative (i : Iss) (off : Int) (prio : Prio) (call : Bool) : Iss :=
  let t := relTarget i.pc off
  if !inRange t then i.fault i.run { cause := 0x07#8 }
  else if call then
    let i := i.push i.run
    i.moveTo i.run (BitVec.ofInt 57 t) prio
  else i.jump i.run t prio

/-- Per-lane targets of `BRX` and `CALLX` (12 R298). -/
def Iss.indirect (i : Iss) (x : XForm) (call : Bool) : Iss :=
  let g := i.g
  let prio := BitVec.ofNat 12 (bits x.imm 11 0)
  let v := fun (l : Nat) => opVal g x.lit x.b 2 l
  let i := i.fault (i.run &&& maskWhere fun l => opBad g x.b 2 l) (poisonFlt x.b)
  let i := i.fault (i.run &&& maskWhere fun l => v l % 4 != 0 || decide (2 ^ 57 ≤ v l)) { cause := 0x07#8 }
  let i := if call then i.push i.run else i
  (maskLanes i.run).foldl (fun i l =>
    if call then i.moveTo (laneBit l) (BitVec.ofNat 57 (v l)) prio
    else i.jump (laneBit l) (v l) prio) i

/-! ### Idempotent regions (12 R306) -/

/-- Whether an address lies in the range of an open region. -/
def State.regionHas (s : State) (asid : Nat) (r : Region) (va : VAddr) : Bool :=
  decide (r.pc.toNat ≤ va.toNat) &&
    !(let first := r.pc.toNat + codeLen ((s.codeWord asid r.pc.toNat).getD 1)
      s.idemeIn asid ((va.toNat - r.pc.toNat) / 4 + 2) first va.toNat)

/-- A `CALL`, `CALLX` or `LOOP` issued in the range closes the region when its return address or end
lies outside; one of which nothing happens closes nothing (00 R7). -/
def Iss.closeAt (i : Iss) (ret : VAddr) : Iss :=
  let asid := (i.s.launchOf i.n).asid
  match i.g.region with
  | none => i
  | some r =>
    if i.fails then i
    else if i.s.regionHas asid r i.pc && !i.s.regionHas asid r ret then
      i.mod fun g => { g with region := none }
    else i

/-- The restart record that `IDEMB` writes. -/
def Group.restartRecord (g : Group) (pc : VAddr) (prio : Prio) (mask : Mask) (nv ns : Nat) : Region :=
  { pc := pc, prio := prio, mask := mask
    v := g.v.filter fun kv => decide (kv.1 < 32 * nv)
    vBad := g.vBad.filter fun kv => decide (kv.1 < 32 * nv)
    s := g.s.filter fun kv => decide (kv.1 < ns)
    sBad := g.sBad.filter fun kv => decide (kv.1 < ns)
    p := g.p, b := g.b, lc := g.lc, loops := g.loops, rets := g.rets, k := g.k, flg := g.flg,
    mode := g.mode, nbv := g.nbv }

/-- A launch of an instance of a strip stream, which is write-confined (13 R324). -/
def State.confined (s : State) (l : Nat) : Bool :=
  match (s.launch l).inst with
  | some k => decide ((s.stream (s.instance_ k).stream).d.sink < 2)
  | none => false

/-! ### Meanings -/

/-- `NOP` (03 R40). -/
def execNopBase (x : Base0) (s : State) : Out := (begin_ (.nopBase x) s).out
/-- `NOP`, extended (03 R48). -/
def execNop (x : XForm) (s : State) : Out := (begin_ (.nop x) s).out

/-- `BRA`, short form: the target keeps the lanes' priority (03 R49, 12 R298). -/
def execBraShort (x : ShortBra) (s : State) : Out :=
  let i := begin_ (.braShort x) s
  (i.relative x.off.toInt i.prio false).out

/-- `BRA`, extended form (03 R49, 12 R298). -/
def execBra (x : FarBra) (s : State) : Out :=
  ((begin_ (.bra x) s).relative x.off.toInt x.prio false).out

/-- `BRX` (12 R298). -/
def execBrx (x : XForm) (s : State) : Out := ((begin_ (.brx x) s).indirect x false).out

/-- `CALL` (12 R299). -/
def execCall (x : FarBra) (s : State) : Out :=
  let i := begin_ (.call x) s
  ((i.relative x.off.toInt x.prio true).closeAt i.next).out

/-- `CALLX` (12 R299). -/
def execCallx (x : XForm) (s : State) : Out :=
  let i := begin_ (.callx x) s
  ((i.indirect x true).closeAt i.next).out

/-- `RET` (12 R299): an empty stack is illegal on that lane; a return to the address after a loop's body
parks there (12 R303). -/
def retRun (ins : Instr) (s : State) : Out :=
  let i := begin_ ins s
  let empty := maskWhere fun l => (Sp.get [] i.g.rets l).isEmpty
  let i := i.fault (i.run &&& empty) { cause := 0x05#8 }
  ((maskLanes i.run).foldl (fun i l =>
    match Sp.get [] i.g.rets l with
    | [] => i
    | e :: rest =>
      (i.mod fun g => { g with rets := if rest.isEmpty then Sp.del g.rets l else Sp.put g.rets l rest }).landAt
        (laneBit l) e.pc e.prio) i).out
/-- `RET`, base form. -/
def execRetBase (x : Base0) (s : State) : Out := retRun (.retBase x) s
/-- `RET`, extended form. -/
def execRet (x : XForm) (s : State) : Out := retRun (.ret x) s

/-- `EXIT` (12 R300): the acting lanes leave the group for good; in trap mode they mark the refinement
run they were in (07 R163). -/
def exitRun (ins : Instr) (s : State) : Out :=
  let i := begin_ ins s
  let m := i.run
  if m = 0#32 then i.out
  else
    let i := if i.trap then i.modS fun s => s.markRun i.n m else i
    ((i.take m).mod fun g => g.removeLanes m).out
/-- `EXIT`, base form. -/
def execExitBase (x : Base0) (s : State) : Out := exitRun (.exitBase x) s
/-- `EXIT`, extended form. -/
def execExit (x : XForm) (s : State) : Out := exitRun (.exit x) s

/-- `CSET` (12 R301): a convergence mask, written once for the group. -/
def execCset (x : XForm) (s : State) : Out :=
  let i := begin_ (.cset x) s
  let act := x.mod.getLsbD 5
  if i.run = 0#32 then i.out
  else if !act && opBad i.g x.b 1 0 then (i.faultAll (poisonFlt x.b)).out
  else
    let m := if act then i.run else BitVec.ofNat 32 (uniVal i.g x x.b 1)
    (i.mod fun g => g.setK x.aux.toNat m).out

/-- `CONV` (12 R302): acting lanes park, one outside the mask faults with cause 0x0A. -/
def execConv (x : XForm) (s : State) : Out :=
  let i := begin_ (.conv x) s
  let k := x.aux.toNat
  let i := i.fault (i.run &&& ~~~i.g.kreg k) { cause := 0x0A#8 }
  let m := i.run
  if m = 0#32 then i.out
  else
    ((i.take m).mod fun g => { g with
      conv := g.conv ++ [⟨m, 0#32, k, i.pc, i.next, BitVec.ofNat 12 (bits x.imm 11 0), i.s.time⟩] }).out

/-- `LOOP` (12 R303). -/
def execLoop (x : XForm) (s : State) : Out :=
  let c := x.aux.toNat
  let i := begin_ (.loop x) s
  let stop := i.next + BitVec.ofNat 57 (4 * x.imm.toNat)
  let asid := (s.launchOf s.cur).asid
  if i.run = 0#32 then (i.closeAt stop).out
  else if i.g.loops.any (fun d => d.ctr == c) || decide (3 ≤ i.g.loops.length) ||
      decide (256 < s.countCode asid 257 i.next.toNat stop.toNat) then i.illegal.out
  else if opBad i.g x.b 1 0 then (i.faultAll (poisonFlt x.b)).out
  else
    let n := uniVal i.g x x.b 1
    let i := (i.closeAt stop).mod fun g => g.setLc c (BitVec.ofNat 32 n)
    if n = 0 then (i.landAt i.run stop i.prio).out
    else
      (i.mod fun g => { g with
        loops := { ctr := c, top := i.next, stop := stop, prio := i.prio, set := i.run, tail := 0#32 } ::
          g.loops }).out

/-- The innermost loop of a lane. -/
def Group.innermost (g : Group) (l : Nat) : Option LoopCtx := g.loops.find? fun c => c.set.getLsbD l

/-- `LBRK` (12 R304): outside a loop it is illegal. -/
def execLbrk (x : XForm) (s : State) : Out :=
  let i := begin_ (.lbrk x) s
  let none_ := maskWhere fun l => (i.g.innermost l).isNone
  let i := i.fault (i.run &&& none_) { cause := 0x05#8 }
  ((maskLanes i.run).foldl (fun i l =>
    match i.g.innermost l with
    | none => i
    | some c =>
      (i.mod fun g => { g with loops := g.loops.map fun d =>
        if d.ctr = c.ctr then { d with set := d.set &&& ~~~laneBit l } else d }).landAt
        (laneBit l) c.stop c.prio) i).out

/-- `YIELD` (12 R290): the group becomes the latest-started of its class on its scheduler. -/
def yieldRun (ins : Instr) (s : State) : Out :=
  let i := begin_ ins s
  if i.run = 0#32 then i.out
  else
    let n := i.s.serial
    ((i.modS fun s => { s with serial := n + 1 }).mod fun g => { g with started := n, aging := 0 }).out
/-- `YIELD`, base form. -/
def execYieldBase (x : Base0) (s : State) : Out := yieldRun (.yieldBase x) s
/-- `YIELD`, extended form. -/
def execYield (x : XForm) (s : State) : Out := yieldRun (.yield x) s

/-- Device time has reached a value, and the servo has reported lock (01 R16). -/
def State.reached (s : State) (t : BitVec 64) : Bool := s.locked && decide (t.toNat ≤ s.time.toNat)

/-- `SLEEP` (12 R305). The snapshot from which `.rel` counts is not one that `%TIMEH` and `%TIMEF` read: 02 R33 does
not say (log entry 64). -/
def execSleep (x : XForm) (s : State) : Out :=
  let i := begin_ (.sleep x) s
  if i.run = 0#32 then i.out
  else if opBad i.g x.b 2 0 then (i.faultAll (poisonFlt x.b)).out
  else
    let v := uniVal i.g x x.b 2
    let go := fun (i : Iss) (t : Nat) =>
      let till := BitVec.ofNat 64 (min t (2 ^ 64 - 1))
      if i.s.reached till then i.out else (i.holdOn (.sleep till)).out
    if x.mod.getLsbD 5 then
      match i.s.deliverTime i.n 1 i.pc with
      | .ended s => .next s
      | .use p s => go { i with s := s } (v + ofBytes (p.take 8))
    else go i v

/-- A `SLEEP` ends when device time reaches its target (12 R305). -/
def execSleepWake (group : Nat) (s : State) : Out :=
  match (s.grp group).wait with
  | some (.sleep t) =>
    if s.reached t then .next ((s.modGrp group fun g => { g with wait := none }).settle group) else .next s
  | _ => .next s

/-- `IDEMB` (12 R306): opens a region when the group's one frontier entry holds every live lane. -/
def execIdemb (x : XForm) (s : State) : Out :=
  let nv := bits x.imm 7 0
  let ns := bits x.imm 13 8
  let i := begin_ (.idemb x) s (decide (nv ≤ s.me.nv) && decide (ns ≤ s.me.ns))
  let g := i.g
  if i.run = 0#32 ∨ i.flts ≠ [] then i.out
  else if g.frontier.length = 1 ∧ g.parkedMask = 0#32 ∧ i.s.confined (i.s.teamOf i.n).launch = false then
    (i.mod fun g => { g with region := some (g.restartRecord i.pc i.prio i.act nv ns) }).out
  else i.out

/-- `IDEME` (12 R306). -/
def execIdeme (x : XForm) (s : State) : Out :=
  let i := begin_ (.ideme x) s
  if i.run = 0#32 then i.out else (i.mod fun g => { g with region := none }).out

end Sys2Proof.Machine
end

