-- ==== Sys2Proof/Machine/Barrier.lean ====
section
/-! DEFINITION. Named barriers, the cluster barrier and completion objects (09 R222 to R228), with the
release and acquire forms of 08 Table 8.2. -/

namespace Sys2Proof.Machine

open Sys2Proof

/-! ### Uniform operands, siblings, boundaries -/

/-- The fault of the first poisoned uniform operand (15 R390). -/
def Iss.uniPoison (i : Iss) (fs : List (Opnd × Nat)) : Option Flt :=
  firstSome (fun p => if opBad i.g p.1 p.2 0 then some (poisonFlt p.1) else none) fs

/-- The team that a scratchpad selector names (09 R205); none for an index that no team has. -/
def State.scrTeam (s : State) (tn : Nat) (aux : BitVec 6) : Option Nat :=
  if aux.getLsbD 5 then
    let t := s.team tn
    let cx := (s.launch t.launch).r.cx
    ((s.siblings t).find? fun kv => kv.2.cly * cx + kv.2.clx == bits aux 3 0).map (·.1)
  else some tn

/-- A sibling index below X·Y; a higher one is an illegal instruction (09 R205). -/
def State.selLegal (s : State) (aux : BitVec 6) : Bool :=
  let l := s.launchOf s.cur
  !aux.getLsbD 5 || decide (bits aux 3 0 < l.r.cx * l.r.cy)

/-- Take a phase boundary on the group's core; while an engine owns a line that it must commit, the
group parks and the instruction issues again (08 R191). -/
def Iss.withBoundary (i : Iss) (s0 : State) (k : Iss → Out) : Out :=
  let c := i.s.coreOf i.n
  let held := i.s.boundaryHeld c
  if held.isEmpty then k (i.modS fun s => s.boundary c) else .next (i.parked (.owned held) s0)

/-- A release form takes its boundary before the arrival (08 Table 8.2). -/
def Iss.releaseForm (i : Iss) (rel : Bool) (s0 : State) (k : Iss → Out) : Out :=
  if rel then i.withBoundary s0 k else k i

/-- Wait, unless the wait is already over. -/
def Iss.waitFor (i : Iss) (w : Wait) : Out :=
  let r := i.s.wakeOne i.n (some w)
  if r.1 then { i with s := r.2 }.out else (i.holdOn w).out

/-! ### Named barriers -/

def causeBarrier : Flt := { cause := 0x0A#8 }

/-- A uniform barrier instruction on the barrier B + IMM16 (09 R223). -/
def barOp (ins : Instr) (x : XForm) (cs : List (Opnd × Nat)) (s : State)
    (k : Iss → Nat → Bar → Out) : Out :=
  let i := begin_ ins s
  if i.run = 0#32 then i.out
  else match i.uniPoison ((x.b, 1) :: cs) with
    | some f => (i.faultAll f).out
    | none =>
      let id := uniVal i.g x x.b 1 + x.imm.toNat
      let t := s.teamOf s.cur
      if t.nbars ≤ id then (i.faultAll causeBarrier).out else k i id (t.bar id)

/-- The group arrives at a barrier (09 R222): its bit, the phase it arrived in, and completion. -/
def Iss.arriveAt (i : Iss) (id : Nat) (b : Bar) : Iss :=
  let gid := i.g.gid
  let tn := i.g.team
  let i := i.mod fun g => { g with barAt := Sp.put g.barAt id (b.phase + 1) }
  i.modS fun s =>
    (s.modTeam tn fun t => t.setBar id { b with arrived := b.arrived ||| laneBit gid }).turnBars tn

/-- The wait for the phase of the group's last arrival ends that arrival (09 R223). -/
def Iss.waitBar (i : Iss) (id : Nat) (acq : Bool) : Out :=
  let p := Sp.get 0 i.g.barAt id
  (i.mod fun g => { g with barAt := Sp.del g.barAt id }).waitFor (.barrier id (p - 1) acq)

def Bar.here (b : Bar) (gid : Nat) : Bool := (b.arrived &&& laneBit gid) != 0#32

/-- `BAR`: arrive, then wait for this phase. -/
def execBar (x : XForm) (s : State) : Out :=
  barOp (.bar x) x [] s fun i id b =>
    if b.here i.g.gid then (i.faultAll causeBarrier).out
    else i.releaseForm (x.mod.getLsbD 5) s fun i => (i.arriveAt id b).waitBar id (x.mod.getLsbD 6)

/-- `BARA`: arrive, and go on. -/
def execBara (x : XForm) (s : State) : Out :=
  barOp (.bara x) x [] s fun i id b =>
    if b.here i.g.gid then (i.faultAll causeBarrier).out
    else i.releaseForm (x.mod.getLsbD 5) s fun i => (i.arriveAt id b).out

/-- `BARW`: wait for the phase of the group's last arrival. -/
def execBarw (x : XForm) (s : State) : Out :=
  barOp (.barw x) x [] s fun i id _ =>
    if Sp.has i.g.barAt id then i.waitBar id (x.mod.getLsbD 6) else (i.faultAll causeBarrier).out

/-- `BARI`: set the expected count. -/
def execBari (x : XForm) (s : State) : Out :=
  barOp (.bari x) x [(x.c, 1)] s fun i id b =>
    let n := uniVal i.g x x.c 1
    if n < 1 ∨ 48 < n ∨ b.arrived ≠ 0#32 then (i.faultAll causeBarrier).out
    else (i.modS fun s => s.modTeam i.g.team fun t =>
      t.setBar id { b with expected := n, dflt := false }).out

/-- `CBAR`: arrive at the cluster barrier, then wait (09 R225). -/
def execCbar (x : XForm) (s : State) : Out :=
  let i := begin_ (.cbar x) s
  if i.run = 0#32 then i.out
  else
    let tn := i.g.team
    let gid := i.g.gid
    let t := i.s.team tn
    let p := (Sp.get {} i.s.clusters (clusterKey t.launch t.clz)).phase
    (i.modS fun s =>
      (s.modTeam tn fun t => { t with cbar := t.cbar ||| laneBit gid }).turnCluster tn).waitFor (.cbar p)

/-! ### Completion objects -/

/-- A uniform object instruction (09 R227): the team and offset of the object, checked in the order
poison, alignment, bounds, presence. -/
def objOp (ins : Instr) (x : XForm) (sel : BitVec 6) (s : State)
    (k : Iss → Nat → Nat → Obj → Nat → Out) : Out :=
  let i := begin_ ins s (s.selLegal sel)
  if i.run = 0#32 then i.out
  else match i.uniPoison [(x.b, 1), (x.c, 1)], s.scrTeam s.me.team sel with
    | some f, _ => (i.faultAll f).out
    | none, none => i.illegal.out
    | none, some tn =>
      let off := uniVal i.g x x.b 1 + x.imm.toNat
      let t := s.team tn
      if off % 16 ≠ 0 then (i.faultAll { cause := 0x07#8 }).out
      else if t.ssize < off + 16 then (i.faultAll { cause := 0x03#8 }).out
      else
        let ks := t.scrAbsent off 16
        if !ks.isEmpty then .next (i.parked (.sectors (ks.map fun k => (tn, k))) s)
        else k i tn off (t.obj off) (uniVal i.g x x.c 1)

/-- Write an object, and re-evaluate the waits of its team (09 R227). -/
def Iss.putObj (i : Iss) (tn off : Nat) (o : Obj) : Iss :=
  i.modS fun s => (s.modTeam tn fun t => t.changeObj off o false).wakeTeam tn

/-- `OBJI`: initialise an object. -/
def execObji (x : XForm) (s : State) : Out :=
  objOp (.obji x) x 0#6 s fun i tn off _ c =>
    if c < 1 ∨ 4095 < c then (i.faultAll causeBarrier).out
    else (i.modS fun s => (s.modTeam tn fun t =>
      { t.setObj off ⟨0, 0, c, c, 0, 0⟩ with engNow := Sp.set false t.engNow off false }).wakeTeam tn).out

/-- `OBJA`: arrive and announce bytes, on the own or a sibling's object. -/
def execObja (x : XForm) (s : State) : Out :=
  objOp (.obja x) x x.aux s fun i tn off o c =>
    if o.rsvd ≠ 0 ∨ o.left = 0 then (i.faultAll causeBarrier).out
    else i.releaseForm (x.mod.getLsbD 5) s fun i => (i.putObj tn off (o.announce c)).out

/-- `OBJW`: wait while PHASE has a value. -/
def execObjw (x : XForm) (s : State) : Out :=
  objOp (.objw x) x 0#6 s fun i _ off o c =>
    if o.rsvd ≠ 0 ∨ 4 ≤ c then (i.faultAll causeBarrier).out
    else i.waitFor (.object off (BitVec.ofNat 2 c) (x.mod.getLsbD 6))

/-- `OBJT`: test PHASE into a predicate of every acting lane. -/
def execObjt (x : XForm) (s : State) : Out :=
  objOp (.objt x) x 0#6 s fun i _ _ o c =>
    if o.rsvd ≠ 0 ∨ 4 ≤ c then (i.faultAll causeBarrier).out
    else (i.mod fun g => g.setPIn x.a.num i.run (if o.phase ≠ c then i.run else 0#32)).out

end Sys2Proof.Machine
end

