-- ==== Sys2Proof/Machine/Narrow.lean ====
section
/-! DEFINITION. Scaled narrow formats: SC8 scales (04 R74, R75), I4X blocks (04 R76), and the quantisers
(04 R77, 06 R149). -/

namespace Sys2Proof.Machine

open Sys2Proof

/-! ### SC8 -/

/-- A scale: zero, NaN, or m · 2^e. -/
inductive Sc8 where
  | zero
  | nan
  | val (m : Nat) (e : Int)
  deriving DecidableEq, Repr

/-- Decode an SC8 byte: 2^(E−15) · (1 + M/8) is (8 + M) · 2^(E−18) (04 R74). -/
def sc8Of (c : Nat) : Sc8 :=
  if c % 256 = 0 then .zero
  else if c % 256 = 255 then .nan
  else .val (8 + c % 8) ((c % 256 / 8 : Nat) - 18)

/-- An element times its block's scale, exactly; a zero scale reads +0 whatever the element (04 R74). -/
def scaleElem (s : Sc8) (x : FVal) : FVal :=
  match s with
  | .zero => .fin false 0 0
  | .nan => .nan false
  | .val m e => match x with
    | .fin n k f => .fin n (k * m) (f + e)
    | y => y

/-! ### I4X blocks (04 R76) -/

def ofInt (x : Int) : FVal := .fin (decide (x < 0)) x.natAbs 0

/-- A nibble: its number, and whether it is the reserved code. -/
def dec4 (n : Nat) : FVal × Bool :=
  if n = 8 then (.fin false 0 0, true) else (ofInt (signed 4 n), false)

/-- Decode the bytes of a block from byte j on: elements and FMT. -/
def i4xFrom (block : Nat) : Nat → Nat → List FVal × Bool
  | 0, _ => ([], false)
  | fuel + 1, j =>
    if 8 ≤ j then ([], false)
    else
      let lo := field block (8 * j) 4
      let hi := dec4 (field block (8 * j + 4) 4)
      if lo = 8 ∧ j < 7 then
        let r := i4xFrom block fuel (j + 2)
        let zero := FVal.fin false 0 0
        (fdecode e4m3 (field block (8 * j + 8) 8) :: hi.1 :: zero :: zero :: r.1, hi.2 || r.2)
      else
        let l := dec4 lo
        let r := i4xFrom block fuel (j + 1)
        (l.1 :: hi.1 :: r.1, l.2 || hi.2 || r.2)

/-- The 16 numbers of a block and FMT. -/
def i4xBlock (block : Nat) : List FVal × Bool := i4xFrom block 8 0

/-! ### Quantisers -/

/-- The magnitude of an FP32 code in units of 2^-149. -/
def mag32 (x : Nat) : Nat :=
  match fdecode fp32 x with
  | .fin _ m e => m * 2 ^ (e + 149).toNat
  | _ => 0

def neg32 (x : Nat) : Bool := x.testBit 31

/-- A scale code's value in units of 2^-149. -/
def scaleUnits (c : Nat) : Nat := (8 + c % 8) * 2 ^ (c / 8 + 131)

/-- `sc8_up` (04 R77): the code of the smallest scale at or above num/den units, limited to 0xFE. -/
def sc8Up (num den : Nat) : Nat :=
  ((List.range 254).map (· + 1)).find? (fun c => decide (num ≤ scaleUnits c * den)) |>.getD 254

/-- Round ±num/den to a narrow format, RNE with SAT (04 R79). -/
def narrowDiv (f : Fmt) (neg : Bool) (num den : Nat) : Nat × Flags :=
  if num = 0 then (f.signBit neg, 0#8)
  else narrowFix f true neg (roundMag f .rne neg (num * 2 ^ 256 / den) (-256) (num * 2 ^ 256 % den != 0))

/-- A quantised block: data bytes as a number, scale code, flags. -/
structure Quant where
  data : Nat
  scale : Nat
  flags : Flags
  deriving DecidableEq, Repr

/-- A decoded element times a scale equals an FP32 input. -/
def sameValue (s : Nat) (el : FVal) (x : Nat) : Bool :=
  match scaleElem (sc8Of s) el with
  | .fin n m e =>
    m * 2 ^ (e + 256).toNat == mag32 x * 2 ^ 107 && (m == 0 || n == neg32 x)
  | _ => false

/-- INX of a quantiser: some element is not what it was. -/
def lossFlag (s : Nat) (els : List FVal) (xs : List Nat) : Flags :=
  flagIf ((els.zip xs).any fun p => !sameValue s p.1 p.2) flagInx

/-- Some input is a NaN or an infinity. -/
def badInput (xs : List Nat) : Bool :=
  xs.any fun x => match fdecode fp32 x with
    | .fin _ _ _ => false
    | _ => true

/-- The greatest magnitude among the elements outside a set. -/
def restMax (xs : List Nat) (cov : List Nat) : Nat :=
  maxOf (((List.range 16).filter fun k => !cov.contains k).map fun k => mag32 (xs.getD k 0))

/-- Insert a candidate: descending magnitude, ties by element ascending. -/
def insertCand (xs : List Nat) (e : Nat) : List Nat → List Nat
  | [] => [e]
  | f :: r =>
    if mag32 (xs.getD f 0) < mag32 (xs.getD e 0) then e :: f :: r else f :: insertCand xs e r

/-- The outlier choice of `quant_i4x`: covered elements and accepted byte positions. -/
def outliers (xs : List Nat) : List Nat × List Nat :=
  let order := [0, 2, 4, 6, 8, 10, 12].foldl (fun l e => insertCand xs e l) []
  let r := order.foldl (fun (st : List Nat × List Nat × List Nat) e =>
    let cov := st.1
    let out := st.2.1
    let used := st.2.2
    let j := e / 2
    if out.length < 2 && !used.contains j && !used.contains (j + 1) then
      let c := cov ++ [e, e + 2, e + 3]
      if 4 * restMax xs c < mag32 (xs.getD e 0) then (c, out ++ [j], used ++ [j, j + 1]) else st
    else st) ([], [], [])
  (r.1, r.2.1)

/-- `quant_i4x` (04 R77). -/
def quantI4x (xs : List Nat) (outl : Bool) : Quant :=
  if badInput xs then ⟨0, 0xFF, flagInv⟩
  else
    let o := if outl then outliers xs else ([], [])
    let cov := o.1
    let out := o.2
    let m := restMax xs cov
    let mo := maxOf (out.map fun j => mag32 (xs.getD (2 * j) 0))
    -- v = max(m / 7, mo / 448), as num/den
    let v := if m * 448 < mo * 7 then (mo, 448) else (m, 7)
    let s := if v.1 = 0 then 0 else sc8Up v.1 v.2
    let su := scaleUnits s
    let q := fun (k : Nat) =>
      let a := if s = 0 then 0 else rneDiv (mag32 (xs.getD k 0)) su
      let b := min a 7
      (if neg32 (xs.getD k 0) then wrapNat 4 (-(b : Int)) else b, decide (7 < a))
    let ks := (List.range 16).filter fun k => !cov.contains k
    let base := ks.foldl (fun acc k => acc + (q k).1 * 2 ^ (4 * k)) 0
    let r := out.foldl (fun (acc : Nat × Flags) j =>
      let c := narrowDiv e4m3 (neg32 (xs.getD (2 * j) 0)) (mag32 (xs.getD (2 * j) 0)) su
      -- the low nibble of byte j and byte j+1 hold nothing yet
      (acc.1 + 8 * 2 ^ (8 * j) + c.1 * 2 ^ (8 * j + 8), acc.2 ||| c.2)) (base, 0#8)
    ⟨r.1, s, r.2 ||| flagIf (ks.any fun k => (q k).2) flagSat ||| lossFlag s (i4xBlock r.1).1 xs⟩

/-- `quant_blk` (06 R149) for an 8-bit type. -/
def quantBlk (ty : Ty) (xs : List Nat) : Quant :=
  if badInput xs then ⟨0, 0xFF, flagInv⟩
  else
    let mx := restMax xs []
    let top := match ty with
      | .e4m3x4 => 448
      | .e5m2x4 => 57344
      | _ => 127
    let s := if mx = 0 then 0 else sc8Up mx top
    let su := scaleUnits s
    let one := fun (x : Nat) =>
      if s = 0 then (0, (0#8 : Flags), FVal.fin false 0 0)
      else match ty with
        | .i8x4 =>
          let a := rneDiv (mag32 x) su
          let b : Int := if neg32 x then -(min a 127 : Nat) else (min a 127 : Nat)
          (wrapNat 8 b, flagIf (decide (127 < a)) flagSat, ofInt b)
        | t =>
          let f := if t == .e4m3x4 then e4m3 else e5m2
          let c := narrowDiv f (neg32 x) (mag32 x) su
          (c.1, c.2, fdecode f c.1)
    let qs := xs.map one
    { data := (List.range 16).foldl (fun acc k => acc + (qs.getD k (0, 0#8, .fin false 0 0)).1 * 2 ^ (8 * k)) 0
      scale := s
      flags := qs.foldl (fun a p => a ||| p.2.1) 0#8 ||| lossFlag s (qs.map (·.2.2)) xs }

end Sys2Proof.Machine
end

