-- ==== Sys2Proof/Machine/Matrix.lean ====
section
/-! DEFINITION. The matrix family (06 R134 to R151): octaves, fragments, accumulation under NBV 1 and 2
(04 R86, R87), the approximate cut (04 R91), `HAD`, `QNT`, `DQNT` and `FRAGT`. -/

namespace Sys2Proof.Machine

open Sys2Proof

/-! ### Issue of a matrix instruction -/

/-- The lanes of octaves that a mask fills (02 R27). -/
def fullOctaves (m : Mask) : Mask :=
  orMasks (fun o => (0xFF#32 : Mask) <<< (8 * o)) ((List.range 4).filter fun o =>
    (m &&& ((0xFF#32 : Mask) <<< (8 * o))) == (0xFF#32 : Mask) <<< (8 * o))

/-- Begin a matrix instruction: without a lantern it parks (06 R139); octaves that pass the guard only in
part raise an illegal instruction, and only lanes of full octaves act (06 R138). A lane of such an octave that also
touches an open window takes cause 0x06, which the spec orders neither way (log entry 81). -/
def matBegin (ins : Instr) (s : State) (k : Iss → Out) : Out :=
  let i := begin_ ins s
  if ins.wf && s.fw.lanternsOn && !s.me.lantern && i.flts.all (fun p => p.2.cause == 0x06#8) then
    let s1 := (s.modMe fun g => { g with lanternAsk := s.serial })
    .next (i.parked .lantern { s1 with serial := s1.serial + 1 })
  else
    let pass := i.act &&& guardMask i.g ins.guard
    let full := fullOctaves pass
    let i := i.fault (pass &&& ~~~full) { cause := 0x05#8 }
    k (({ i with run := i.run &&& full }).mod fun g => { g with lanternIdle := 0 })

/-- Run a lane-wise matrix meaning: `bad` is the first poisoned source of a lane, `f` its writes and
flags, computed from the state before (06 R138). -/
def Iss.matRun (i : Iss) (bad : Nat → Option Nat) (f : Nat → List (Nat × Nat) × Flags) : Iss :=
  let i := (maskLanes i.run).foldl (fun i l =>
    match bad l with
    | some r => i.fault (laneBit l) { cause := 0x04#8, aux := BitVec.ofNat 32 (0x100 + r) }
    | none => i) i
  (maskLanes i.run).foldl (fun i l =>
    let r := f l
    i.mod fun g =>
      (r.1.foldl (fun g w => g.setV w.1 l (BitVec.ofNat 32 w.2)) g).raiseFlags r.2) i

/-- The first poisoned register of a lane among a range. -/
def badRange (g : Group) (r n l : Nat) : Option Nat :=
  ((List.range n).map (r + ·)).find? fun k => g.vPoison k l

/-- The first register of a range poisoned in any lane. -/
def badAny (g : Group) (r n : Nat) : Option Nat :=
  ((List.range n).map (r + ·)).find? fun k => lanes.any fun l => g.vPoison k l

/-- Consecutive registers of a lane as one number, the first lowest. -/
def rowBits (g : Group) (r n l : Nat) : Nat :=
  (List.range n).foldl (fun acc k => acc + (g.vreg (r + k) l).toNat * 2 ^ (32 * k)) 0

/-- The writes that spread a number over consecutive registers. -/
def spread (r n x : Nat) : List (Nat × Nat) := (List.range n).map fun k => (r + k, field x (32 * k) 32)

/-! ### Elements -/

/-- Bits of an element (06 Table 6.1). -/
def kBits (ty : Ty) : Nat := 512 / kSize ty

/-- The elements of one lane's row or column, unscaled, and FMT for each K-block (06 R135). -/
def fragElems (ty : Ty) (row : Nat) : List FVal × List Bool :=
  match ty with
  | .i4x =>
    let bs := (List.range 8).map fun q => i4xBlock (field row (64 * q) 64)
    (bs.flatMap (·.1), bs.map (·.2))
  | .i16x2 => ((List.range 32).map fun e => ofInt (signed 16 (field row (16 * e) 16)), [])
  | .i8x4 => ((List.range 64).map fun e => ofInt (signed 8 (field row (8 * e) 8)), [])
  | .i4x8 => ((List.range 128).map fun e => ofInt (signed 4 (field row (4 * e) 4)), [])
  | .f64 => ((List.range 8).map fun e => fdecode fp64 (field row (64 * e) 64), [])
  | .f32 => ((List.range 16).map fun e => fdecode fp32 (field row (32 * e) 32), [])
  | .f16x2 => ((List.range 32).map fun e => fdecode fp16 (field row (16 * e) 16), [])
  | .bf16x2 => ((List.range 32).map fun e => fdecode bf16 (field row (16 * e) 16), [])
  | .e4m3x4 => ((List.range 64).map fun e => fdecode e4m3 (field row (8 * e) 8), [])
  | _ => ((List.range 64).map fun e => fdecode e5m2 (field row (8 * e) 8), [])

/-- Scales of a lane's blocks: byte sel + q of the pair (06 R145). -/
def laneScales (g : Group) (pair sel nb l : Nat) : List Sc8 :=
  (List.range nb).map fun q => sc8Of (field (rowBits g pair 2 l) (8 * (sel + q)) 8)

/-- Scale each block of 16 elements. A block with a zero scale sets no flag (04 R74). -/
def scaledElems (r : List FVal × List Bool) (scs : List Sc8) : List FVal × Bool :=
  ((List.range r.1.length).map fun e => scaleElem (scs.getD (e / 16) .zero) (r.1.getD e (.fin false 0 0)),
    (r.2.zip scs).any fun p => p.1 && p.2 != .zero)

/-! ### Accumulation (04 R86, R87, R91) -/

/-- Chunks of `n`. -/
def chunks {α : Type} (n : Nat) : Nat → List α → List (List α)
  | 0, _ => []
  | k + 1, l => l.take n :: chunks n k (l.drop n)

/-- Cut the products of one K-block toward zero to a multiple of 2^(e−24) (04 R91). -/
def cutBlock (ps : List FVal) : List FVal :=
  let tops := ps.filterMap fun p => match p with
    | .fin _ m e => if m = 0 then none else some ((bitLen m : Int) - 1 + e)
    | _ => none
  match tops with
  | [] => ps
  | t :: r =>
    let q := r.foldl max t - 24
    ps.map fun p => match p with
      | .fin n m e => if q ≤ e then .fin n m e else .fin n (m / 2 ^ (q - e).toNat) q
      | x => x

/-- One output element: special values first (04 R87), then NBV 2 or NBV 1 (04 R86). Bits that the cut of 04 R91 drops
set no flag by themselves: INX comes from the roundings of the cut products (log entry 76). -/
def accumulate (f : Fmt) (nbv : Nat) (approx : Bool) (c : FVal) (ps : List FVal) : Nat × Flags :=
  let ts := c :: ps
  if ts.any FVal.isNan then (f.nanCode, flagInv)
  else if ts.any FVal.isInf then sumRound f .rne ts
  else
    let n := min 16 ps.length
    let cs := (chunks n (ps.length / n) ps).map fun b => if approx then cutBlock b else b
    if nbv = 1 then
      cs.foldl (fun (a : Nat × Flags) b =>
        let t := sumRound f .rtz b
        let r := sumRound f .rne [fdecode f a.1, fdecode f t.1]
        (r.1, a.2 ||| t.2 ||| r.2)) ((roundVal f .rne c).1, 0#8)
    else sumRound f .rne (c :: cs.flatten)

/-- The exact integer sum saturated to INT32 (04 R87). -/
def accInt (c : Int) (ps : List FVal) : Nat × Flags :=
  let t := ps.foldl (fun (acc : Int) p => match p with
    | .fin n m _ => if n then acc - m else acc + m
    | _ => acc) c
  let r := satInt true 32 t
  (wrapNat 32 r.1, flagIf r.2 flagSat)

/-- The scales of a fragment's blocks in one lane; `MMA` and `MMAI` have none. -/
def fragment (g : Group) (ty : Ty) (r l : Nat) (scales : Option (Nat × Nat)) : List FVal × Bool :=
  let e := fragElems ty (rowBits g r 16 l)
  match scales with
  | none => (e.1, false)
  | some (pair, sel) => scaledElems e (laneScales g pair sel (kSize ty / 16) l)

/-- The columns of the B fragment: lane j holds column j (06 R135). -/
def mulCols (g : Group) (x : XForm) (scaled : Bool) : List (List FVal × Bool) :=
  lanes.map fun j => fragment g x.ty x.c.num j (if scaled then some (bits x.imm 15 8, bits x.aux 5 3) else none)

/-- Element (l, j) of the accumulator that is read, 0 for code 0xF0 (06 R144). -/
def mulAcc (g : Group) (x : XForm) (l j : Nat) : Nat :=
  if x.d = .zero then 0
  else if x.ty == .f64 then rowBits g (x.d.num + 2 * j) 2 l
  else (g.vreg (x.d.num + j) l).toNat

/-- Element (l, j) of the result of a multiply, with its flags: row l of A by column j of B (06 R144). -/
def mulElem (g : Group) (x : XForm) (scaled int : Bool) (row col : List FVal) (l j : Nat) : Nat × Flags :=
  let f := if x.ty == .f64 then fp64 else fp32
  let approx := scaled && !modeExact g.mode && (x.mod.getLsbD 3 || modeApxd g.mode)
  let ps := (row.zip col).map fun p => (mulVal p.1 p.2).1
  if int then accInt (signed 32 (mulAcc g x l j)) ps
  else accumulate f (bits g.nbv 3 0) approx (fdecode f (mulAcc g x l j)) ps

/-- What one lane of a multiply writes, and its flags. -/
def mulLane (g : Group) (x : XForm) (scaled int : Bool) (cols : List (List FVal × Bool)) (l : Nat) :
    List (Nat × Nat) × Flags :=
  let row := fragment g x.ty x.b.num l (if scaled then some (bits x.imm 7 0, bits x.aux 2 0) else none)
  let outs := (List.range 32).map fun j => mulElem g x scaled int row.1 (cols.getD j ([], false)).1 l j
  let ws := (List.range 32).flatMap fun j =>
    let v := (outs.getD j (0, 0#8)).1
    if x.ty == .f64 then spread (x.a.num + 2 * j) 2 v else [(x.a.num + j, v)]
  (ws, outs.foldl (fun a o => a ||| o.2) (flagIf (row.2 || cols.any (·.2)) flagFmt))

/-- The three multiplies (06 R144). `scaled` is `MMAS`, `int` is `MMAI`. -/
def mulRun (ins : Instr) (x : XForm) (scaled int : Bool) (s : State) : Out :=
  matBegin ins s fun i =>
    let g := i.g
    let nd := if x.ty == .f64 then 64 else 32
    let sa := bits x.imm 7 0
    let sb := bits x.imm 15 8
    let badB := badAny g x.c.num 16
    let badSb := if scaled then badAny g sb 2 else none
    (i.matRun
      (fun l => (badRange g x.b.num 16 l).or (badB.or
        ((if x.d = .zero then none else badRange g x.d.num nd l).or
          ((if scaled then badRange g sa 2 l else none).or badSb))))
      (mulLane g x scaled int (mulCols g x scaled))).out

/-! ### Meanings -/

/-- `MZERO` (06 R142). -/
def execMzero (x : XForm) (s : State) : Out :=
  matBegin (.mzero x) s fun i =>
    (i.matRun (fun _ => none) fun _ => (spread x.a.num (if x.ty = .f64 then 64 else 32) 0, 0#8)).out

/-- `MMA` (06 R143, R144). -/
def execMma (x : XForm) (s : State) : Out := mulRun (.mma x) x false false s
/-- `MMAS` (06 R143 to R146). -/
def execMmas (x : XForm) (s : State) : Out := mulRun (.mmas x) x true false s
/-- `MMAI` (06 R143, R144). -/
def execMmai (x : XForm) (s : State) : Out := mulRun (.mmai x) x false true s

/-- One stage of a Hadamard transform on codes or integers, with an operation that answers the sum and
the difference of a pair (06 R148). -/
def hadStage {α : Type} [Inhabited α] (step : Nat) (op : α → α → (α × α) × Flags) (xs : List α) :
    List α × Flags :=
  let r := (List.range xs.length).map fun e =>
    if e / 2 ^ step % 2 = 0 then
      let p := op (xs.getD e default) (xs.getD (e + 2 ^ step) default)
      (p.1.1, p.2)
    else
      let p := op (xs.getD (e - 2 ^ step) default) (xs.getD e default)
      (p.1.2, 0#8)
  (r.map (·.1), r.foldl (fun a p => a ||| p.2) 0#8)

/-- The stages of every run of 2^steps elements. -/
def hadStages {α : Type} [Inhabited α] (op : α → α → (α × α) × Flags) (steps : Nat) (xs : List α) :
    List α × Flags :=
  (List.range steps).foldl (fun (st : List α × Flags) k =>
    let r := hadStage k op st.1
    (r.1, st.2 ||| r.2)) (xs, 0#8)

/-- The sum and the difference of two FP32 codes. -/
def hadFloat (u v : Nat) : (Nat × Nat) × Flags :=
  let a := fpAdd fp32 .rne false u v
  let b := fpSub fp32 .rne false u v
  ((a.1, b.1), a.2 ||| b.2)

/-- `HAD` on one lane's fragment (06 R148). -/
def hadRow (ty : Ty) (steps : Nat) (sat : Bool) (row : Nat) : Nat × Flags :=
  let n := kSize ty
  let w := kBits ty
  let g : Nat := if steps = 6 then 3 else 2
  let els := (List.range n).map fun e => field row (w * e) w
  let out : List (Nat × Flags) × Flags :=
    if ty == .i16x2 || ty == .i8x4 then
      let r := hadStages (fun (u v : Int) => ((u + v, u - v), 0#8)) steps (els.map (signed w))
      (r.1.map fun y =>
        let c := satInt true w ((y + 2 ^ (g - 1)) / 2 ^ g)
        (wrapNat w c.1, flagIf c.2 flagSat), r.2)
    else
      let wide := els.map fun c => if ty == .f32 then (c, 0#8) else widen (fmtOf ty) fp32 false c
      let r := hadStages hadFloat steps (wide.map (·.1))
      (r.1.map fun y =>
        let v := match fdecode fp32 y with
          | .fin s m e => FVal.fin s m (e - g)
          | v => v
        if ty == .f32 then roundVal fp32 .rne v else cvtNarrow (fmtOf ty) sat v,
       wide.foldl (fun a p => a ||| p.2) r.2)
  ((List.range n).foldl (fun acc e => acc + (out.1.getD e (0, 0#8)).1 * 2 ^ (w * e)) 0,
    out.1.foldl (fun a p => a ||| p.2) out.2)

/-- What one lane of `HAD` writes. -/
def hadLane (g : Group) (x : XForm) (l : Nat) : List (Nat × Nat) × Flags :=
  let r := hadRow x.ty (4 + bits x.mod 6 5) (x.mod.getLsbD 4) (rowBits g x.b.num 16 l)
  (spread x.a.num 16 r.1, r.2)

/-- `HAD` (06 R147, R148). -/
def execHad (x : XForm) (s : State) : Out :=
  matBegin (.had x) s fun i =>
    let g := i.g
    (i.matRun (fun l => badRange g x.b.num 16 l) (hadLane g x)).out

/-- What one lane of `QNT` writes: the block, and its scale in byte IDX of the scale register. -/
def qntLane (g : Group) (x : XForm) (l : Nat) : List (Nat × Nat) × Flags :=
  let sr := scaleReg x
  let at_ := 8 * (bits x.aux 2 0 % 4)
  let xs := (List.range 16).map fun m => ftzIn fp32 (modeFtz g.mode) (g.vreg (x.b.num + m) l).toNat
  let q := if x.ty = .i4x then quantI4x xs (x.mod.getLsbD 5) else quantBlk x.ty xs
  let old := (g.vreg sr l).toNat
  (spread x.a.num (quantRegs x.ty) q.data ++
    [(sr, old - field old at_ 8 * 2 ^ at_ + q.scale * 2 ^ at_)], q.flags)

/-- `QNT` (06 R149). -/
def execQnt (x : XForm) (s : State) : Out :=
  matBegin (.qnt x) s fun i =>
    let g := i.g
    (i.matRun (fun l => (badRange g x.b.num 16 l).or (badRange g (scaleReg x) 1 l)) (qntLane g x)).out

/-- One element of `DQNT`: the FP32 code and INV (06 R150). -/
def dqntElem (sc : Sc8) (v : FVal) : Nat × Flags :=
  match sc with
  | .zero => (0, 0#8)
  | .nan => (fp32.nanCode, flagInv)
  | s => roundVal fp32 .rne (scaleElem s v)

/-- What one lane of `DQNT` writes. -/
def dqntLane (g : Group) (x : XForm) (l : Nat) : List (Nat × Nat) × Flags :=
  let sc := sc8Of (field (g.vreg (scaleReg x) l).toNat (8 * (bits x.aux 2 0 % 4)) 8)
  let data := rowBits g x.b.num (quantRegs x.ty) l
  let b := i4xBlock data
  let els := match x.ty with
    | .i4x => b.1
    | .i8x4 => (List.range 16).map fun e => ofInt (signed 8 (field data (8 * e) 8))
    | .e4m3x4 => (List.range 16).map fun e => fdecode e4m3 (field data (8 * e) 8)
    | _ => (List.range 16).map fun e => fdecode e5m2 (field data (8 * e) 8)
  let rs := els.map (dqntElem sc)
  ((List.range 16).map fun m => (x.a.num + m, (rs.getD m (0, 0#8)).1),
    rs.foldl (fun a r => a ||| r.2) (flagIf (x.ty == .i4x && b.2 && sc != .zero) flagFmt))

/-- `DQNT` (06 R150). -/
def execDqnt (x : XForm) (s : State) : Out :=
  matBegin (.dqnt x) s fun i =>
    let g := i.g
    (i.matRun (fun l => (badRange g x.b.num (quantRegs x.ty) l).or (badRange g (scaleReg x) 1 l)) (dqntLane g x)).out

/-- Bits of a slot of `FRAGT`, and registers of a transposed tile (06 R151). -/
def fragBits (ty : Ty) : Nat := if ty = .b32 then 32 else if ty = .i16x2 then 16 else 8
def fragRegs (ty : Ty) : Nat := 32 / (32 / fragBits ty)

/-- What one lane of `FRAGT` writes: slot (c, r) of the source is slot (r, c) of the result. -/
def fragLane (g : Group) (x : XForm) (c : Nat) : List (Nat × Nat) × Flags :=
  let w := fragBits x.ty
  let e := 32 / w
  let slot := fun (c r : Nat) => field (g.vreg (x.b.num + c / e) r).toNat (w * (c % e)) w
  ((List.range (fragRegs x.ty)).map fun k =>
    (x.a.num + k, (List.range e).foldl (fun acc j => acc + slot c (e * k + j) * 2 ^ (w * j)) 0), 0#8)

/-- `FRAGT` (06 R151): every lane must act, or the acting lanes raise an illegal instruction. Lane c reads one register
of every lane, that of column c. -/
def execFragt (x : XForm) (s : State) : Out :=
  matBegin (.fragt x) s fun i =>
    let g := i.g
    let pass := i.act &&& guardMask g x.guard
    if pass ≠ allLanes then (i.fault pass { cause := 0x05#8 }).out
    else
      let e := 32 / fragBits x.ty
      (i.matRun (fun c => badAny g (x.b.num + c / e) 1) (fragLane g x)).out

end Sys2Proof.Machine
end

