-- ==== Sys2Proof/Machine/Reach.lean ====
section
/-! DEFINITION. An access through a record, lane by lane (09 R203, R204): the checks in their order,
what each lane reaches, loads and stores there, and the ordinary loads that instructions make at issue
(09 R218, R233). -/

namespace Sys2Proof.Machine

open Sys2Proof

/-- What a lane's access comes to (09 R204 steps 3 to 5). -/
inductive Way where
  | oob
  | bad (f : Flt)
  | home (pa : Nat) (lf : Leaf)
  /-- a line of this device reached through the remote path -/
  | own (pa : Nat)
  | peer (addr : Nat)
  | io (va : Nat)
  deriving DecidableEq, Repr

/-- The place that a way names: the space and the address. -/
def Way.place : Way → Option (Nat × Nat)
  | .home pa _ => some (0, pa)
  | .own pa => some (0, pa)
  | .peer a => some (1, a)
  | .io a => some (2, a)
  | _ => none

/-- The ASID under which an owner's accesses run at a device; its own device is always listed (11
R254). -/
def State.peerAsid (s : State) (owner asid peer : Nat) : Option Nat :=
  if peer = s.fw.deviceId then some asid
  else ((s.fw.domain.find? fun e => e.1 == owner && e.2.1 == peer).map fun e => e.2.2)

/-- Steps 1 and 2 of 09 R204, with the domain map (11 R254) and unreachable peers (11 R255). -/
def State.recFault (s : State) (n : Nat) (r : RecView) (idx : Nat) (rd wr : Bool)
    (kinds : List Nat) : Option Flt :=
  let l := s.launchOf n
  let f : Flt := { cause := 0x02#8, recIdx := some (BitVec.ofNat 5 idx) }
  if (rd && !r.r) || (wr && !r.w) || !kinds.contains r.kind then some f
  else if r.kind = 3 ∧ ((s.peerAsid l.owner l.asid r.peer).isNone ∨ s.fw.lost.contains r.peer) then
    some { f with aux := BitVec.ofNat 32 r.peer }
  else none

/-- The address of byte x of row y for any x and y, as VLINE shows it. -/
def RecView.eaInt (r : RecView) (x y : Int) : Nat :=
  let x' := if r.swizzle = 0 then wrapNat 64 x
    else wrapNat 64 x ^^^ (wrapNat 32 y % 2 ^ r.swizzle * 16)
  (wrapNat 57 (r.base + y * r.strideY) + x') % 2 ^ 57

/-- What a peer's translation answers: the cause it faults with (11 R255). A page of which nothing is known is there
and permits every access (log entry 33). -/
def State.peerCause (s : State) (peer asid va : Nat) (acc : Access) : Option (BitVec 8) :=
  match Sp.get? (Sp.get [] s.peerPages peer) (asid * 2 ^ 40 + va / 2 ^ 17) with
  | none => none
  | some p =>
    if p.cause ≠ 0#8 then some p.cause
    else if (acc == .store || p.r) && (!acc.writes || p.w) then none else some 0x02#8

/-- Where an in-bounds address leads: translation at home or under the peer's ASID. -/
def State.reachVa (s : State) (n : Nat) (r : RecView) (acc : Access) (va : Nat) : Way × State :=
  let l := s.launchOf n
  if r.kind = 1 then (.io va, s)
  else if r.kind = 3 ∧ r.peer ≠ s.fw.deviceId then
    let asid := (s.peerAsid l.owner l.asid r.peer).getD 0
    match s.peerCause r.peer asid va acc with
    | some c => (.bad { cause := c, aux := BitVec.ofNat 32 r.peer, vline := vlineOf va }, s)
    | none => (.peer (asid * 2 ^ 57 + va), s)
  else
    match s.translate (s.coreOf n) l.asid va acc with
    | (.error f, s) => (.bad (if r.kind = 3 then { f with aux := BitVec.ofNat 32 r.peer } else f), s)
    | (.ok (pa, lf), s) => (if r.kind = 3 then .own pa else .home pa lf, s)

/-- Steps 3 to 5 of 09 R204 for one lane. -/
def State.laneWay (s : State) (n : Nat) (r : RecView) (idx : Nat) (acc : Access) (size : Nat)
    (x y : Int) : Way × State :=
  let rx := some (BitVec.ofNat 5 idx)
  if !r.inside x y size then
    (if r.oobTrap then .bad { cause := 0x03#8, vline := vlineOf (r.eaInt x y), recIdx := rx } else .oob, s)
  else
    let va := r.ea x.toNat y.toNat
    if va % size ≠ 0 then (.bad { cause := 0x07#8, vline := vlineOf va, recIdx := rx }, s)
    else match s.reachVa n r acc va with
      | (.bad f, s) => (.bad { f with recIdx := rx }, s)
      | w => w

/-! ### Poisoned operands and values of a range -/

/-- A range of registers of a lane is poisoned. -/
def rangeBad (g : Group) (o : Opnd) (n l : Nat) : Bool :=
  if n ≤ 2 then opBad g o n l
  else match o with
    | .v r => (List.range n).any fun i => g.vPoison (r.val + i) l
    | .s r => (List.range n).any fun i => g.sPoison (r.val + i)
    | _ => false

/-- The value of a range of registers, register 0 lowest. -/
def rangeVal (g : Group) (lit : Option (BitVec 64)) (o : Opnd) (n l : Nat) : Nat :=
  if n ≤ 2 then opVal g lit o n l
  else
    let word := fun (i : Nat) => match o with
      | .v r => (g.vreg (r.val + i) l).toNat
      | .s r => (g.sreg (r.val + i)).toNat
      | _ => 0
    (List.range n).foldr (fun i acc => word i + 2 ^ 32 * acc) 0

/-- Write a range of registers. -/
def Group.putRange (g : Group) (o : Opnd) (n l x : Nat) : Group :=
  (List.range n).foldl (fun g i =>
    match o with
    | .v r => g.setV (r.val + i) l (BitVec.ofNat 32 (x >>> (32 * i)))
    | .s r => g.setS (r.val + i) (BitVec.ofNat 32 (x >>> (32 * i)))
    | _ => g) g

/-- Mark registers named by code in the lanes of a mask (15 R389). -/
def Group.markCodes (g : Group) (code n : Nat) (m : Mask) : Group :=
  (List.range n).foldl (fun g i =>
    if code + i < 0xC0 then (maskLanes m).foldl (fun g l => g.markV (code + i) l) g
    else if 0xC0 ≤ code ∧ code + i < 0xF0 ∧ m ≠ 0#32 then g.markS (code + i - 0xC0)
    else g) g

/-- The first poisoned operand of a lane, in the order given. -/
def firstPoison (g : Group) (l : Nat) (fs : List (Opnd × Nat)) : Option Flt :=
  firstSome (fun p => if rangeBad g p.1 p.2 l then some (poisonFlt p.1) else none) fs

/-! ### Lanes of an access -/

/-- Fault lanes of an access: every active lane where it is uniform (09 R205). -/
def Iss.faultIn (i : Iss) (uniform : Bool) (m : Mask) (f : Flt) : Iss :=
  if uniform then i.faultAll f else i.fault m f

/-- Write-confined launches do not write memory (13 R324). -/
def Iss.writeBarred (i : Iss) : Bool := i.s.confined (i.s.teamOf i.n).launch

/-- The ways of the lanes that pass the checks of an access through record `idx`: permission and kind,
poisoned operands, then each lane at (x, y). -/
structure Lanes where
  i : Iss
  ways : List (Nat × Way)

/-- Lane by lane over the lanes to run: operands, bounds, alignment, translation. -/
def Iss.lanesAt (i : Iss) (r : RecView) (idx : Nat) (acc : Access) (size : Nat) (uniform : Bool)
    (ops : List (Opnd × Nat)) (at_ : Nat → Int × Int) : Lanes :=
  (maskLanes (runLanes i.run uniform)).foldl (fun q l =>
    match firstPoison q.i.g l ops with
    | some f => { q with i := q.i.faultIn uniform (laneBit l) { f with recIdx := some (BitVec.ofNat 5 idx) } }
    | none =>
      let p := at_ l
      match q.i.s.laneWay q.i.n r idx acc size p.1 p.2 with
      | (.bad f, s) => { q with i := { q.i with s := s }.faultIn uniform (laneBit l) f }
      | (.oob, s) =>
        { i := ({ q.i with s := s }).mod fun g => g.raiseFlags flagOob, ways := q.ways ++ [(l, .oob)] }
      | (w, s) => { i := { q.i with s := s }, ways := q.ways ++ [(l, w)] }) ⟨i, []⟩

/-- Ranges granted for I/O windows (14 R362). -/
def State.ioGranted (s : State) (n va size : Nat) : Bool :=
  (s.part (s.launchOf n).part).ioRanges.any fun r => decide (r.1 ≤ va) && decide (va + size ≤ r.1 + r.2)

/-- An access through a record: `k` goes on with the lanes that passed. -/
def Iss.access (i : Iss) (rec_ : Rec) (idx : Nat) (rd wr : Bool) (kinds : List Nat) (size : Nat)
    (uniform : Bool) (ops : List (Opnd × Nat)) (at_ : Nat → Int × Int)
    (k : Iss → List (Nat × Way) → Out) : Out :=
  let r := recView rec_
  let acc : Access := if rd then (if wr then .atomic else .load) else .store
  if i.run = 0#32 then i.out
  else if wr && i.writeBarred then (i.faultIn uniform i.run { cause := 0x02#8 }).out
  else match i.s.recFault i.n r idx rd wr kinds with
    | some f => (i.faultIn uniform i.run f).out
    | none =>
      let q := i.lanesAt r idx acc size uniform ops at_
      let out := fun (p : Nat × Way) => match p.2 with
        | .io va => !q.i.s.ioGranted i.n va size
        | _ => false
      if q.ways.any out then
        (q.i.faultIn uniform i.run { cause := 0x02#8, recIdx := some (BitVec.ofNat 5 idx) }).out
      else k q.i q.ways

/-- The function of an owner, whose requester ID its I/O requests bear (14 R362). -/
def State.fnOf (s : State) (owner : Nat) : Nat := ((s.fw.fnOwner.find? fun kv => kv.2 == owner).map (·.1)).getD 0

/-! ### Loading and storing where a way leads -/

/-- Bytes loaded, or the lines that an engine holds back (08 R191). -/
inductive Got (α : Type) where
  | ok (x : α)
  | held (lines : List Nat)

/-- A load of at most 16 bytes within a line. -/
def State.loadWay (s : State) (n : Nat) (peer : Nat) (w : Way) (size : Nat) :
    Got (List Byte × Bool × State) :=
  let c := s.coreOf n
  match w with
  | .home pa lf =>
    match s.loadHeld c lf pa with
    | [] => .ok (s.loadBytes c lf pa size)
    | ls => .held ls
  | .own pa =>
    if s.isOwned (lineOf pa) then .held [lineOf pa]
    else
      let s := ((s.recall (lineOf pa)).countHome (lineOf pa)).dropL1 c (lineOf pa)
      .ok (s.homeBytes pa size, s.linePoison (lineOf pa), s)
  | .peer a =>
    let k := s.peerLine peer (lineOf a)
    if s.isOwned k then .held [k]
    else .ok (s.peerBytes peer a size, s.peerPoison peer a, s.linkUse peer size)
  | _ => .ok (List.replicate size 0#8, false, s)

/-- A store of at most 16 bytes within a line; the lines it waits for, if any. -/
def State.storeWay (s : State) (n : Nat) (peer : Nat) (w : Way) (bs : List Byte) : Got State :=
  let c := s.coreOf n
  match w with
  | .home pa lf =>
    match s.storeHeld c lf pa with
    | [] => .ok (s.storeBytes c lf pa bs false)
    | ls => .held ls
  | .own pa =>
    match s.peerStoreHeld c peer pa with
    | [] => .ok (s.peerStoreBytes c peer pa bs)
    | ls => .held ls
  | .peer a =>
    match s.peerStoreHeld c peer a with
    | [] => .ok (s.peerStoreBytes c peer a bs)
    | ls => .held ls
  | .io va =>
    let owner := (s.launchOf n).owner
    .ok { s with ioOut := s.ioOut ++ [⟨owner, s.fnOf owner, va, bs⟩] }
  | _ => .ok s

/-- The value of a loaded access, by its size code (09 Table 9.4). -/
def extendLoad (code : Nat) (bs : List Byte) : Nat :=
  let v := ofBytes bs
  match code with
  | 2 => wrapNat 32 (signed 8 v)
  | 4 => wrapNat 32 (signed 16 v)
  | _ => v

/-- Load every lane's way in lane order. -/
def loadWays (n peer size : Nat) : List (Nat × Way) → State → Got (List (Nat × List Byte × Bool) × State)
  | [], s => .ok ([], s)
  | (l, w) :: r, s =>
    match s.loadWay n peer w size with
    | .held ls => .held ls
    | .ok (bs, bad, s) =>
      match loadWays n peer size r s with
      | .held ls => .held ls
      | .ok (vs, s) => .ok ((l, bs, bad) :: vs, s)

/-- Store every lane's way in lane order. -/
def storeWays (n peer : Nat) (data : Nat → List Byte) : List (Nat × Way) → State → Got State
  | [], s => .ok s
  | (l, w) :: r, s =>
    match s.storeWay n peer w (data l) with
    | .held ls => .held ls
    | .ok s => storeWays n peer data r s

/-- Byte ranges that lanes store to at this device's homes. -/
def homeRanges (size : Nat) (ws : List (Nat × Way)) : List (Nat × Nat) :=
  ws.filterMap fun p => match p.2 with
    | .home pa _ => some (pa, size)
    | _ => none

/-- The stores of one instruction: lane by lane, and lines that they cover together lose their poison (15 R389). -/
def storeLanes (n peer size : Nat) (data : Nat → List Byte) (ws : List (Nat × Way)) (s : State) : Got State :=
  match storeWays n peer data ws s with
  | .held ls => .held ls
  | .ok t => .ok (t.clearCovered (t.coreOf n) (coveredLines (homeRanges size ws)))

/-- Of lanes that store to one place only the highest is ever visible (09 R207). -/
def topLanes : List (Nat × Way) → List (Nat × Way)
  | [] => []
  | p :: r => if r.any fun q => q.2.place == p.2.place && p.2.place.isSome then topLanes r else p :: topLanes r

/-- The registers of a range that arrive poisoned, with the lanes concerned: neighbours with the same lanes form one
mark (16 R400). `vals` holds for each lane its value and, bit by bit, the registers that are poisoned. -/
def poisonMarks (code m : Nat) (uniform : Bool) (all : Mask) (vals : List (Nat × Nat × Nat)) : List Mark :=
  (List.range m).foldl (fun (acc : List Mark) k =>
    let lanes_ := vals.filter fun v => v.2.2.testBit k
    let mask := if lanes_.isEmpty then 0#32 else if uniform then all else maskOf (lanes_.map (·.1))
    if mask = 0#32 then acc
    else match acc.getLast? with
      | some (q : Mark) => if q.mask = mask ∧ q.code + q.count = code + k then acc.dropLast ++ [{ q with count := q.count + 1 }]
        else acc ++ [⟨mask, code + k, 1⟩]
      | none => [⟨mask, code + k, 1⟩]) []

/-- All registers of a destination, where it arrives poisoned. -/
def wholePoison (m : Nat) (bad : Bool) : Nat := if bad then 2 ^ m - 1 else 0

/-- Deliver loaded values and the poison they carry to a destination of `m` registers (09 R207, R213; 16
R400, R402). -/
def Iss.land (i : Iss) (dst : Opnd) (m : Nat) (uniform : Bool) (vals : List (Nat × Nat × Nat)) : Out :=
  let i := vals.foldl (fun i v => i.mod fun g => g.putRange dst m v.1 v.2.1) i
  let marks := if dst = .zero then [] else poisonMarks dst.num m uniform i.run vals
  match i.s.deliverMarks i.n i.pc m marks with
  | .ended s => .next s
  | .use ms s => (({ i with s := s }).mod fun g =>
      ms.foldl (fun (g : Group) (q : Mark) => g.markCodes q.code q.count q.mask) g).out

/-! ### Ordinary loads of a structure at issue (09 R218, R233; 11 R264) -/

/-- The pieces of a byte range within lines. -/
def pieces (va n : Nat) : List (Nat × Nat) :=
  if n = 0 then []
  else (List.range ((va + n + 127) / 128 - va / 128)).map fun k =>
    let a := max va (128 * (va / 128 + k))
    (a, min (va + n) (128 * (va / 128 + k + 1)) - a)

/-- What a structure read gives: its bytes, what faults, or lines that it waits for. -/
inductive Struct where
  | ok (bs : List Byte) (s : State)
  | flt (f : Flt)
  | held (lines : List Nat)

/-- A descriptor of an engine is read as after a miss: the core's copy of its line is dropped first (08 R193). -/
def Way.fresh (w : Way) (c : Nat) (s : State) : State :=
  match w with
  | .home pa _ => s.dropL1 c (lineOf pa)
  | _ => s

/-- Read pieces of a structure through a record's kind; `fresh` reads every line as after a miss. -/
def readPieces (n : Nat) (r : RecView) (fresh : Bool) : List (Nat × Nat) → State → Struct
  | [], s => .ok [] s
  | (va, k) :: rest, s =>
    match s.reachVa n r .load va with
    | (.bad f, _) => .flt f
    | (w, s) =>
      match (if fresh then w.fresh (s.coreOf n) s else s).loadWay n r.peer w k with
      | .held ls => .held ls
      | .ok (bs, bad, s) =>
        if bad then .flt { cause := 0x04#8, aux := 0x300#32, vline := vlineOf va, err := true }
        else match readPieces n r fresh rest s with
          | .ok more s => .ok (bs ++ more) s
          | f => f

/-- A plain view of the launch's own memory. -/
def plainView : RecView :=
  { rsvd := true, kind := 0, peer := 0x7FF, oobTrap := false, w := true, r := true, swizzle := 0,
    format := 0, extentY := 1, strideY := 0, extentX := 0, base := 0 }

end Sys2Proof.Machine
end

