-- ==== Sys2Proof/Machine/Memory.lean ====
section
/-! DEFINITION. The memory family (09 R201 to R221): loads, stores and atomics through records and in
scratchpad, records at run time, boundaries, fences and prefetch. -/

namespace Sys2Proof.Machine

open Sys2Proof

/-! ### Loads and stores through records -/

/-- Bytes of an access by its size code (09 Table 9.4). -/
def accessSize (x : XForm) : Nat :=
  match x.fam with
  | 0 => 4 * x.ty.regs
  | 1 => 1
  | 2 => 1
  | 3 => 2
  | 4 => 2
  | 5 => 16
  | _ => 64

/-- The byte and row of a lane: (index + IMM16) · unit, and the row (09 R206). -/
def recAt (g : Group) (x : XForm) (unit : Nat) (row : Bool) (l : Nat) : Int × Int :=
  ((signed 32 (opVal g x.lit x.b 1 l) + x.imm.toInt) * unit,
    if row then signed 32 (opVal g x.lit x.c 1 l) else 0)

/-- Kinds of record that an access of a size may use (09 Table 9.2). -/
def plainKinds (size : Nat) : List Nat := if size ≤ 8 then [0, 1, 3] else [0, 3]

/-- Issue I/O-window reads, one for each lane; their destinations stay interlocked until the
completions (08 R197). -/
def Iss.ioLoads (i : Iss) (x : XForm) (uniform : Bool) (ws : List (Nat × Way)) : Iss :=
  let m := memRegs x
  ws.foldl (fun i p =>
    match p.2 with
    | .io va =>
      let id := i.s.serial
      let codes := codesFrom x.a m
      let owner := (i.s.launchOf i.n).owner
      let rd : IoRead := ⟨i.n, owner, i.s.fnOf owner, codes.map fun c => (c, p.1), uniform,
        if uniform then i.run else laneBit p.1, accessSize x, BitVec.ofNat 3 x.fam, va, i.pc⟩
      let i := i.modS fun s => { s with serial := id + 1, ioReads := Sp.put s.ioReads id rd }
      let k : Lock := ⟨id, if uniform then i.act else laneBit p.1, codes.map (BitVec.ofNat 16), .io id⟩
      ({ i with kind := .io id }).mod fun g => { g with locks := g.locks ++ [k] }
    | _ => i) i

/-- `LD` and `SLD`. -/
def loadRun (ins : Instr) (x : XForm) (uniform : Bool) (s : State) : Out :=
  let i := begin_ ins s
  let g := i.g
  let size := accessSize x
  let m := memRegs x
  let rec_ := g.breg (auxRec x)
  i.access rec_ (auxRec x) true false (plainKinds size) size uniform [(x.b, 1), (x.c, 1)]
    (recAt g x size true) fun i ws =>
      let ws' := if (recView rec_).kind = 1 then ws.filter (fun p => p.2 == .oob) else ws
      match loadWays i.n (recView rec_).peer size ws' i.s with
      | .held ls => .next (i.parked (.owned ls) s)
      | .ok (vs, s') =>
        (({ i with s := s' }).ioLoads x uniform ws).land x.a m uniform
          (vs.map fun (v : Nat × List Byte × Bool) => (v.1, extendLoad x.fam v.2.1, wholePoison m v.2.2))

/-- `LD`: each acting lane loads from its own index and row (09 R207). -/
def execLd (x : XForm) (s : State) : Out := loadRun (.ld x) x false s
/-- `SLD`: one access for the group (09 R207). -/
def execSld (x : XForm) (s : State) : Out := loadRun (.sld x) x true s

/-- `ST` (09 R207): the low bytes of the data registers; an I/O-window store closes an idempotent
region (12 R306). -/
def execSt (x : XForm) (s : State) : Out :=
  let i := begin_ (.st x) s
  let g := i.g
  let size := accessSize x
  let m := memRegs x
  let rec_ := g.breg (auxRec x)
  let i := if (recView rec_).kind = 1 && i.run != 0#32 then i.mod fun g => { g with region := none } else i
  i.access rec_ (auxRec x) false true (plainKinds size) size false [(x.b, 1), (x.c, 1), (x.a, m)]
    (recAt g x size true) fun i ws =>
      match storeLanes i.n (recView rec_).peer size (fun l => toBytes size (rangeVal g x.lit x.a m l))
        (topLanes ws) i.s with
      | .held ls => .next (i.parked (.owned ls) s)
      | .ok s' => { i with s := s' }.out

/-! ### Atomics through records -/

/-- One lane's `ATOM` where its way leads: the old value and its poison; a poisoned line keeps its bytes
(09 R215). -/
def State.atomWay (s : State) (n peer : Nat) (w : Way) (size : Nat) (f : Nat → Nat) :
    Got (Nat × Bool × State) :=
  let c := s.coreOf n
  match w with
  | .home pa _ =>
    match s.atomHeld c pa with
    | [] => .ok (s.atomAt c pa size f)
    | ls => .held ls
  | .own pa =>
    match (if s.isOwned (lineOf pa) then [lineOf pa] else []) with
    | [] => .ok ((s.recall (lineOf pa)).peerAtomAt c peer pa size f)
    | ls => .held ls
  | .peer a =>
    let k := s.peerLine peer (lineOf a)
    if s.isOwned k then .held [k] else .ok (s.peerAtomAt c peer a size f)
  | _ => .ok (0, false, s)

/-- The read-modify-writes of the lanes in ascending order. -/
def atomWays (n peer size : Nat) (f : Nat → Nat → Nat) :
    List (Nat × Way) → State → Got (List (Nat × Nat × Bool) × State)
  | [], s => .ok ([], s)
  | (l, .oob) :: r, s => have _ := l; atomWays n peer size f r s
  | (l, w) :: r, s =>
    match s.atomWay n peer w size (f l) with
    | .held ls => .held ls
    | .ok (old, bad, s) =>
      match atomWays n peer size f r s with
      | .held ls => .held ls
      | .ok (vs, s) => .ok ((l, old, bad) :: vs, s)

/-- Write old values to their destinations, as logged or replayed, and mark those that came from poison (09 R215;
16 R400, R402, R403). A scalar destination receives one lane's value; which lane is open. -/
def Iss.landOld (i : Iss) (x : XForm) (kind : Nat) (vals : List (Nat × Nat × Bool)) : Out :=
  let w := x.ty.regs
  if x.a = .zero ∨ vals = [] then i.out
  else
    let p := if x.a.isS then
        let k := i.s.choose vals.length
        ([vals.getD k.1 (0, 0, false)], k.2)
      else (vals, i.s)
    let mask := if x.a.isS then 0#32 else maskOf (p.1.map (·.1))
    match p.2.deliverVals i.n kind i.pc mask (4 * w) (p.1.map (·.2.1)) with
    | .ended s => .next s
    | .use vs s =>
      let marks := poisonMarks x.a.num w x.a.isS i.run (p.1.map fun v => (v.1, v.2.1, wholePoison w v.2.2))
      match s.deliverMarks i.n i.pc w marks with
      | .ended s => .next s
      | .use ms s =>
        ({ i with s := s }.mod fun g =>
          ms.foldl (fun (g : Group) (q : Mark) => g.markCodes q.code q.count q.mask)
            ((p.1.zip vs).foldl (fun (g : Group) (q : (Nat × Nat × Bool) × Nat) => g.writeDst x.a w q.1.1 q.2) g)).out

/-- `ATOM` (09 R214, R215; 08 R190). -/
def execAtom (x : XForm) (s : State) : Out :=
  let i := begin_ (.atom x) s
  let g := i.g
  let w := x.ty.regs
  let rec_ := g.breg (auxRec x)
  i.access rec_ (auxRec x) true true [0, 3] (4 * w) false
    ([(x.b, 1), (x.c, w)] ++ if x.fam = 7 then [(x.d, w)] else []) (recAt g x (4 * w) false) fun i ws =>
      match atomWays i.n (recView rec_).peer (4 * w) (fun l old =>
        atomNew (BitVec.ofNat 3 x.fam) x.ty old (opVal g x.lit x.c w l) (opVal g x.lit x.d w l)) ws i.s with
      | .held ls => .next (i.parked (.owned ls) s)
      | .ok (vals, s') => ({ i with s := s' }).landOld x 3 vals

/-- The updates of the lanes in ascending order (08 R188). -/
def updWays (n : Nat) (x : XForm) (v : Nat → Nat) : List (Nat × Way) → State → Got State
  | [], s => .ok s
  | (l, .home pa lf) :: r, s =>
    let c := s.coreOf n
    let op := BitVec.ofNat 3 x.fam
    let size := 4 * x.ty.regs
    match s.updHeld c lf pa size op x.ty with
    | [] => updWays n x v r (s.updAt c n lf pa size op x.ty (v l))
    | ls => .held ls
  | _ :: r, s => updWays n x v r s

/-- `ATOMU` (09 R216; 08 R188, R189); with FP32 a recording is no longer replayable (16 R400). -/
def execAtomu (x : XForm) (s : State) : Out :=
  let i := begin_ (.atomu x) s
  let g := i.g
  let w := x.ty.regs
  i.access (g.breg (auxRec x)) (auxRec x) true true [0] (4 * w) false [(x.b, 1), (x.c, w)]
    (recAt g x (4 * w) false) fun i ws =>
      match updWays i.n x (fun l => opVal g x.lit x.c w l) ws i.s with
      | .held ls => .next (i.parked (.owned ls) s)
      | .ok s' =>
        let l := (s'.teamOf i.n).launch
        let rec_ := x.ty == .f32 && (s'.launch l).r.logMode == 1
        { i with s := if rec_ then s'.logFlags l flagReplayable 0 else s' }.out

/-! ### Scratchpad -/

/-- What a scratchpad access of one lane reaches: an offset, or in trap mode a byte of the slot's own
fault area (15 R371). -/
inductive ScrWay where
  | at_ (off : Nat)
  | area (off : Nat)
  | bad (f : Flt)
  deriving DecidableEq, Repr

/-- Alignment, then bounds (09 R209). -/
def scrWay (t : Team) (g : Group) (area : Bool) (size off : Nat) : ScrWay :=
  let lo := faultBase t + 1024 * faultSlot t g
  if off % min size 16 ≠ 0 then .bad { cause := 0x07#8 }
  else if off + size ≤ t.ssize then .at_ off
  else if area && decide (lo ≤ off) && decide (off + size ≤ lo + 1024) then .area (off - faultBase t)
  else .bad { cause := 0x03#8 }

/-- Lane by lane: poisoned operands, alignment, bounds; then absent sectors hold the whole group (09
R211), and for a writer sectors that a `TST` still reads (09 Table 9.11). -/
def scrAccess (ins : Instr) (x : XForm) (size : Nat) (area writes : Bool) (ops : List (Opnd × Nat))
    (s : State) (k : Iss → Nat → List (Nat × ScrWay) → Out) : Out :=
  let i := begin_ ins s (s.selLegal x.aux)
  if i.run = 0#32 then i.out
  else match s.scrTeam s.me.team x.aux with
    | none => i.illegal.out
    | some tn =>
      let t := i.s.team tn
      let q := (maskLanes i.run).foldl (fun (q : Iss × List (Nat × ScrWay)) l =>
        match firstPoison q.1.g l ops with
        | some f => (q.1.fault (laneBit l) f, q.2)
        | none =>
          match scrWay t q.1.g (area && q.1.trap && tn == q.1.g.team) size
              (opVal q.1.g x.lit x.b 1 l + x.imm.toNat) with
          | .bad f => (q.1.fault (laneBit l) f, q.2)
          | w => (q.1, q.2 ++ [(l, w)])) (i, [])
      let ks := (q.2.flatMap fun p => match p.2 with
        | .at_ off => sectorsOf off size
        | _ => []).eraseDups
      let absent := ks.filter fun n => Sp.get 0 t.absent n != 0
      let busy := if writes then ks.filter fun n => Sp.get 0 t.tstBusy n != 0 else []
      if !absent.isEmpty then .next (i.parked (.sectors (absent.map fun n => (tn, n))) s)
      else if !busy.isEmpty then .next (i.parked (.reading (busy.map fun n => (tn, n))) s)
      else k q.1 tn q.2

/-- The registers of a range that a load fills from poisoned sectors, bit by bit (09 R213). -/
def Team.poisonBits (t : Team) (off size m : Nat) : Nat :=
  (List.range m).foldl (fun acc k =>
    if t.scrPoison (off + 4 * k) (min 4 size) then acc + 2 ^ k else acc) 0

/-- `LDL` (09 R213). -/
def execLdl (x : XForm) (s : State) : Out :=
  let size := accessSize x
  scrAccess (.ldl x) x size true false [(x.b, 1)] s fun i tn ws =>
    let t := i.s.team tn
    i.land x.a (memRegs x) false (ws.map fun p => match p.2 with
      | .at_ off => (p.1, extendLoad x.fam (t.scrBytes off size), t.poisonBits off size (memRegs x))
      | .area off => (p.1, extendLoad x.fam (t.areaBytes off size), 0)
      | .bad _ => (p.1, 0, 0))

/-- `STL` (09 R213): of lanes that write one byte the highest stands. -/
def execStl (x : XForm) (s : State) : Out :=
  let size := accessSize x
  let m := memRegs x
  scrAccess (.stl x) x size false true [(x.b, 1), (x.a, m)] s fun i tn ws =>
    let ranges := ws.filterMap fun p => match p.2 with
      | .at_ off => some (off, size)
      | _ => none
    (ws.foldl (fun (i : Iss) p => match p.2 with
      | .at_ off => i.modS fun s => s.modTeam tn fun t =>
          t.scrWrite off (toBytes size (rangeVal i.g x.lit x.a m p.1)) false
      | _ => i) i).modS (fun s => (s.modTeam tn fun t => t.clearCovered ranges).wakeTeam tn) |>.out

/-- `ATOML` (09 R217): ascending lanes, at once; a poisoned sector keeps its bytes. -/
def execAtoml (x : XForm) (s : State) : Out :=
  let w := x.ty.regs
  scrAccess (.atoml x) x (4 * w) false true
    ([(x.b, 1), (x.c, w)] ++ if x.fam = 7 then [(x.d, w)] else []) s fun i tn ws =>
      let q := ws.foldl (fun (q : Iss × List (Nat × Nat × Bool)) p =>
        match p.2 with
        | .at_ off =>
          let t := q.1.s.team tn
          let old := ofBytes (t.scrBytes off (4 * w))
          let bad := t.scrPoison off (4 * w)
          let new := atomNew (BitVec.ofNat 3 x.fam) x.ty old (opVal i.g x.lit x.c w p.1)
            (opVal i.g x.lit x.d w p.1)
          (if bad then q.1 else q.1.modS fun s =>
            s.modTeam tn fun t => t.scrWrite off (toBytes (4 * w) new) false,
            q.2 ++ [(p.1, old, bad)])
        | _ => q) (i, [])
      (q.1.modS fun s => s.wakeTeam tn).landOld x 4 q.2

/-! ### Records at run time -/

/-- `BLD` (09 R218). -/
def execBld (x : XForm) (s : State) : Out :=
  let i := begin_ (.bld x) s
  if i.run = 0#32 then i.out
  else match i.uniPoison [(x.b, 1)] with
    | some f => (i.faultAll f).out
    | none =>
      let l := i.s.launchOf i.n
      let k := uniVal i.g x x.b 1 + x.imm.toNat
      let va := l.r.rectab + 32 * k
      if l.r.reccnt ≤ k then (i.faultAll { cause := 0x03#8, vline := vlineOf (va % 2 ^ 57) }).out
      else match readPieces i.n plainView false (pieces va 32) i.s with
        | .held ls => .next (i.parked (.owned ls) s)
        | .flt f => (i.faultAll f).out
        | .ok bs s' =>
          let r : Rec := BitVec.ofNat 256 (ofBytes bs)
          if recValid r then (({ i with s := s' }).mod fun g => g.setB (auxRec x) r).out
          else (({ i with s := s' }).faultAll { cause := 0x12#8 }).out

/-- `BNAR` (09 R219). -/
def execBnar (x : XForm) (s : State) : Out :=
  let i := begin_ (.bnar x) s
  if i.run = 0#32 then i.out
  else match i.uniPoison [(x.b, 1), (x.c, 1), (x.d, 1), (x.a, 1)] with
    | some f => (i.faultAll f).out
    | none =>
      let src := i.g.breg (immRec x)
      let r := recView src
      let x0 := uniVal i.g x x.b 1
      let y0 := uniVal i.g x x.c 1
      let rx := some (BitVec.ofNat 5 (immRec x))
      if r.kind = 2 then (i.faultAll { cause := 0x02#8, recIdx := rx }).out
      else if r.swizzle ≠ 0 ∧ (x0 % (16 * 2 ^ r.swizzle) ≠ 0 ∨ y0 % 2 ^ r.swizzle ≠ 0) then
        (i.faultAll { cause := 0x07#8, recIdx := rx }).out
      else
        (i.mod fun g => g.setB (auxRec x) (narrowRec src x0 y0 (uniVal g x x.d 1) (uniVal g x x.a 1)
          (x.imm.getLsbD 5) (x.imm.getLsbD 6) (x.imm.getLsbD 7))).out

/-! ### Boundaries, fences, prefetch -/

/-- `PHASE` (09 R220). -/
def execPhase (x : XForm) (s : State) : Out :=
  let i := begin_ (.phase x) s
  if i.run = 0#32 then i.out else i.withBoundary s Iss.out

/-- An update belongs to an update-only line that a group has written. -/
def Core.wroteLine (k : Core) (n : Nat) (u : Upd) : Bool :=
  k.upd.any fun w => lineOf w.addr == lineOf u.addr && w.by_.contains n

/-- Device scope: merge the update-only lines that the group wrote (08 R188, Table 8.3). -/
def Iss.mergeMine (i : Iss) (s0 : State) (k : Iss → Out) : Out :=
  let c := i.s.coreOf i.n
  let x := i.s.core c
  let held := ((x.upd.filter (x.wroteLine i.n)).map fun u => lineOf u.addr).filter i.s.isOwned
  if held.isEmpty then k (i.modS fun s => s.mergeCore c (x.wroteLine i.n))
  else .next (i.parked (.owned held) s0)

/-- Domain scope: commit the core's remote overlays. -/
def Iss.commitRemote (i : Iss) (s0 : State) (k : Iss → Out) : Out :=
  let c := i.s.coreOf i.n
  match i.s.peersHeld c with
  | [] => k (i.modS fun s => s.commitPeers c)
  | ls => .next (i.parked (.owned ls) s0)

/-- I/O-window loads of a group in flight. -/
def State.ioPending (s : State) (n : Nat) : Bool := s.ioReads.any fun kv => kv.2.group == n

/-- `FENCE` (08 R198, Table 8.3; 09 R221). -/
def execFence (x : XForm) (s : State) : Out :=
  let i := begin_ (.fence x) s
  if i.run = 0#32 ∨ x.fam < 2 then i.out
  else if x.fam = 5 ∧ i.s.ioPending i.n then .next (i.parked .io s)
  else i.withBoundary s fun i =>
    if x.fam = 2 then i.out
    else i.mergeMine s fun i =>
      if x.fam = 3 then i.out else i.commitRemote s Iss.out

/-- `PFCH` (09 R208): a hint that the device may drop; where it does not, a line comes into L1. -/
def execPfch (x : XForm) (s : State) : Out :=
  let i := begin_ (.pfch x) s
  let g := i.g
  let r := recView (g.breg (auxRec x))
  let k := i.s.choose 2
  if i.run = 0#32 then i.out
  else if k.1 = 0 ∨ x.mod.getLsbD 5 ∨ (s.recFault i.n r 0 true false (plainKinds 4)).isSome then
    ({ i with s := k.2 }).out
  else
    ((maskLanes i.run).foldl (fun (i : Iss) l =>
      let p := recAt g x 4 true l
      if (firstPoison g l [(x.b, 1), (x.c, 1)]).isSome then i
      else match i.s.laneWay i.n r 0 .load 4 p.1 p.2 with
        | (.home pa lf, s') =>
          if (s'.loadHeld (s'.coreOf i.n) lf pa).isEmpty then
            { i with s := (s'.loadBytes (s'.coreOf i.n) lf pa 4).2.2 }
          else i
        | _ => i) { i with s := k.2 }).out

end Sys2Proof.Machine
end

