-- ==== Sys2Proof/Machine/Engine.lean ====
section
/-! DEFINITION. What the engines share (08 R191 to R194; 09 R234, R235; 11 R257 to R260; 15 R385, R386):
outstanding operations, source lines read once, destination lines written and released, credits, status
records and reported failures. -/

namespace Sys2Proof.Machine

open Sys2Proof

/-- An operation starts: it counts for its group and its launch (02 R26). -/
def State.startOp (s : State) (o : AsyncOp) : State :=
  let s := { s with serial := s.serial + 1, ops := Sp.put s.ops s.serial o }
  let s := s.modGrp o.group fun g => { g with outstanding := g.outstanding + 1 }
  s.modLaunch o.launch fun l => { l with outstanding := l.outstanding + 1 }

/-- An operation of the instruction in issue. -/
def Iss.newOp (i : Iss) (k : OpKind) : AsyncOp :=
  { kind := k, group := i.n, team := i.g.team, launch := (i.s.teamOf i.n).launch, core := i.s.coreOf i.n,
    gid := i.g.gid, op := i.op, at_ := i.s.time, pc := i.pc }

/-- An operation ends. -/
def State.endOp (s : State) (op : Nat) : State :=
  let o := s.opOf op
  let s := ({ s with ops := Sp.del s.ops op }).dropOutstanding o.group o.launch
  (s.endGroup o.group).endTeam o.team

/-- Everything that a freed line or a credit may release. -/
def State.afterRelease (s : State) : State :=
  s.teams.foldl (fun s kv => (s.turnCluster kv.1).wakeTeam kv.1) s

/-- A failed byte of an operation (09 R235), counted once: the count, the lowest offset and its cause. -/
def AsyncOp.fail (o : AsyncOp) (at_ : Nat) (cause : BitVec 8) : AsyncOp :=
  if o.badBytes.contains at_ then o
  else { o with
    bad := o.bad + 1
    badBytes := at_ :: o.badBytes
    badAt := min o.badAt at_
    badCause := if at_ < o.badAt then cause else o.badCause }

/-- The status record (09 R235). -/
def AsyncOp.statusBytes (o : AsyncOp) : List Byte :=
  toBytes 1 o.badCause.toNat ++ toBytes 3 (min o.bad 0xFFFFFF) ++ toBytes 4 o.badAt

/-- Completion: the status record or the report of a failure, the credit, and the end. -/
def State.finishOp (s : State) (op : Nat) : State :=
  let o := s.opOf op
  let hasObj := o.obj.isSome
  let off := o.obj.getD 0
  let s := if o.stat && hasObj then
      s.modTeam o.team fun t => t.scrWrite (off + 16) o.statusBytes false else s
  let s := if o.bad != 0 && !(o.stat && hasObj) then
      { s with fails := s.fails ++ [⟨o.group, o.team, o.launch, o.gid, o.op, o.badCause⟩] } else s
  let s := if hasObj then s.modTeam o.team fun t => t.credit off o.credit (some op) true else s
  (s.endOp op).afterRelease

/-! ### Source lines -/

/-- What an engine finds at a source line. -/
inductive Src where
  | line (bytes : List Byte) (bad : Bool)
  | fail (cause : BitVec 8)
  | absent (page : Nat)
  | held

/-- A line belongs to another operation than `op`. -/
def State.ownedByOther (s : State) (op line : Nat) : Bool :=
  match Sp.get? s.owned line with
  | some k => k != op
  | none => false

/-- Read the 128 bytes of the line at a virtual line address, for the issuing core (08 R193). A line that the
operation owns itself it reads before it writes it. -/
def State.sourceLine (s : State) (op : Nat) (o : AsyncOp) (r : RecView) (va : Nat) : Src × State :=
  let l := s.launch o.launch
  if r.kind = 3 ∧ r.peer ≠ s.fw.deviceId then
    match s.peerAsid l.owner l.asid r.peer with
    | none => (.fail 0x02#8, s)
    | some a =>
      let at_ := a * 2 ^ 57 + va
      if s.fw.lost.contains r.peer then (.fail 0x02#8, s)
      else match s.peerCause r.peer a va .load with
        | some c => (.fail c, s)
        | none =>
          if s.ownedByOther op (s.peerLine r.peer (lineOf at_)) then (.held, s)
          else (.line (s.peerBytes r.peer at_ 128) (s.peerPoison r.peer at_), s.linkUse r.peer 128)
  else
    match s.translate o.core l.asid va .load with
    | (.error f, s) =>
      if f.page.isSome && !o.noPage.contains (va / 2 ^ 17) then (.absent (va / 2 ^ 17), s)
      else (.fail f.cause, s)
    | (.ok (pa, _), s) =>
      if s.ownedByOther op (lineOf pa) then (.held, s)
      else
        let q := s.engineRead o.core pa 128
        (.line q.1 q.2.1, q.2.2)

/-- The lines of a source, read once each: their bytes by virtual address, poison and failures by line;
pages that are absent; and whether an engine holds a line. -/
structure Source where
  bytes : Sp Byte
  poison : List Nat
  fails : Sp (BitVec 8)
  absent : List Nat
  held : Bool

def State.readSource (s : State) (op : Nat) (o : AsyncOp) (r : RecView) (lines_ : List Nat) : Source × State :=
  lines_.foldl (fun (q : Source × State) ln =>
    match q.2.sourceLine op o r (128 * ln) with
    | (.line bs bad, s) =>
      ({ q.1 with
        bytes := (List.range 128).foldl (fun m k => Sp.set 0#8 m (128 * ln + k) (bs.getD k 0#8)) q.1.bytes
        poison := if bad then ln :: q.1.poison else q.1.poison }, s)
    | (.fail c, s) => ({ q.1 with fails := Sp.put q.1.fails ln c }, s)
    | (.absent p, s) => ({ q.1 with absent := p :: q.1.absent }, s)
    | (.held, s) => ({ q.1 with held := true }, s)) (⟨[], [], [], [], false⟩, s)

/-- What befell a source byte: 0 nothing, else the cause. -/
def Source.cause (q : Source) (va : Nat) : BitVec 8 :=
  match Sp.get? q.fails (lineOf va) with
  | some c => c
  | none => if q.poison.contains (lineOf va) then 0x04#8 else 0#8

/-- Pages that an operation waits for go to its core's fault queue (09 R235; 14 R350). -/
def State.queuePages (s : State) (op : Nat) (pages : List Nat) : State :=
  let o := s.opOf op
  let asid := (s.launch o.launch).asid
  (s.modCore o.core fun c => pages.foldl (fun c p => c.queuePage asid p) c).modOp op fun o => { o with waits := pages }

/-! ### Destination bytes -/

/-- Bits that an engine writes to one byte of memory: the virtual address, the first bit and the number
of bits, their value, poison and its cause, and the offset that a failure of the byte shows. -/
structure Put where
  va : Nat
  sh : Nat
  w : Nat
  val : Nat
  bad : Bool
  at_ : Nat
  why : BitVec 8 := 0x04#8
  deriving DecidableEq, Repr

/-- Where a destination byte lies: a physical address, a peer's address, a failure, or an absent page. -/
inductive Dst where
  | here (pa : Nat)
  | peer (addr : Nat)
  | fail (cause : BitVec 8)
  | absent (page : Nat)

def State.destAt (s : State) (o : AsyncOp) (r : RecView) (va : Nat) : Dst × State :=
  let l := s.launch o.launch
  if r.kind = 3 ∧ r.peer ≠ s.fw.deviceId then
    match s.peerAsid l.owner l.asid r.peer with
    | none => (.fail 0x02#8, s)
    | some a =>
      if s.fw.lost.contains r.peer then (.fail 0x02#8, s)
      else match s.peerCause r.peer a va .store with
        | some c => (.fail c, s)
        | none => (.peer (a * 2 ^ 57 + va), s)
  else
    match s.translate o.core l.asid va .store with
    | (.error f, s) =>
      if f.page.isSome && !o.noPage.contains (va / 2 ^ 17) then (.absent (va / 2 ^ 17), s)
      else (.fail f.cause, s)
    | (.ok (pa, _), s) => (.here pa, s)

/-- The line of a destination byte as the map of owned lines names it: of this device, or of a peer. -/
def State.destKey (s : State) (o : AsyncOp) (r : RecView) (va : Nat) : Option Nat :=
  match (s.destAt o r va).1 with
  | .here pa => some (lineOf pa)
  | .peer a => some (s.peerLine r.peer (lineOf a))
  | _ => none

/-- Replace bits of a byte. -/
def putBits (old : Byte) (sh w val : Nat) : Byte :=
  BitVec.ofNat 8 (old.toNat - field old.toNat sh w * 2 ^ sh + val % 2 ^ w * 2 ^ sh)

/-- One byte written at home (08 R191). The rest of a byte of which the engine writes a part stays, in
the issuing core's own overlay too. -/
def State.putHome (s : State) (core pa : Nat) (p : Put) : State :=
  let s := s.engineWrite pa [putBits (s.homeByte pa) p.sh p.w p.val] p.bad
  if p.w = 8 then s
  else match Sp.get? (s.core core).overlay pa with
    | some b => s.modCore core fun k => { k with overlay := Sp.put k.overlay pa (putBits b p.sh p.w p.val) }
    | none => s

/-- Write bytes; failures are counted and those bytes left unwritten (09 R235). -/
def State.putAll (s : State) (op : Nat) (r : RecView) (ps : List Put) : State :=
  ps.foldl (fun s p =>
    let o := s.opOf op
    let poison := fun (s : State) => if p.bad then s.modOp op fun o => o.fail p.at_ p.why else s
    match s.destAt o r p.va with
    | (.here pa, s) => (poison s).putHome o.core pa p
    | (.peer a, s) =>
      let s := ((poison s).linkUse r.peer 1).peerCommit r.peer a [putBits ((s.peerBytes r.peer a 1).getD 0 0#8) p.sh p.w p.val]
      if p.bad then s.setPeerPoison r.peer (lineOf a) true else s
    | (.fail c, s) => s.modOp op fun o => o.fail p.at_ c
    | (.absent _, s) => s) s

/-- A line that good data covers whole loses its poison (15 R389). -/
def State.cleanLines (s : State) (o : AsyncOp) (r : RecView) (ps : List Put) : State :=
  ((ps.map fun p => lineOf p.va).eraseDups).foldl (fun s ln =>
    let mine := ps.filter fun p => lineOf p.va == ln
    let whole := decide (((mine.filter fun p => p.w == 8).map (·.va)).eraseDups.length = 128)
    if whole && !mine.any (·.bad) then
      match s.destAt o r (128 * ln) with
      | (.here pa, s) => { s with memBad := Sp.set false s.memBad (lineOf pa) false }
      | (.peer a, s) => s.setPeerPoison r.peer (lineOf a) false
      | (_, s) => s
    else s) s

/-- Pages of destination bytes that are not present. -/
def State.absentDest (s : State) (o : AsyncOp) (r : RecView) (ps : List Put) : List Nat :=
  ((ps.map fun p => p.va / 128).eraseDups).filterMap fun ln =>
    match (s.destAt o r (128 * ln)).1 with
    | .absent p => some p
    | _ => none

/-- Lines that destination bytes lie in, where they translate at issue. -/
def State.destLines (s : State) (o : AsyncOp) (r : RecView) (vas : List Nat) : List Nat :=
  (((vas.map (· / 128)).eraseDups).filterMap fun ln => s.destKey o r (128 * ln)).eraseDups

/-- At issue an engine takes its destination lines, and discards the issuing core's overlay bytes that it
will overwrite whole (08 R191, R192). -/
def State.claimFor (s : State) (op : Nat) (r : RecView) (whole part : List Nat) : State :=
  let o := s.opOf op
  let ls := s.destLines o r (whole ++ part)
  let bytesAt := whole.filterMap fun va =>
    match (s.destAt o r va).1 with
    | .here pa => some (pa, 1)
    | _ => none
  let pages := if r.kind = 3 then [] else (((whole ++ part).map (· / 2 ^ 17)).eraseDups)
  (s.claim o.core op ls bytesAt).modOp op fun o => { o with lines := ls, pages := pages }

/-- A destination line belongs to another operation still. -/
def State.destHeld (s : State) (op : Nat) (r : RecView) (ps : List Put) : Bool :=
  let o := s.opOf op
  ((ps.map fun p => p.va / 128).eraseDups).any fun ln =>
    match s.destKey o r (128 * ln) with
    | some k => s.ownedByOther op k
    | none => false

/-- Release every line of an operation. -/
def State.releaseAll (s : State) (op : Nat) : State :=
  ((s.opOf op).lines.foldl (fun s l => s.releaseLine op l) s).modOp op fun o => { o with lines := [] }

/-- Release one line early, its bytes written (08 R191). -/
def State.releaseEarly (s : State) (op line : Nat) (r : RecView) (ps : List Put) : State :=
  let o := s.opOf op
  let mine := ps.filter fun p => s.destKey o r p.va == some line
  let s := (s.putAll op r mine).cleanLines o r mine
  ((s.releaseLine op line).modOp op fun o => { o with lines := o.lines.filter (· != line), freed := o.freed ++ [line] }).afterRelease

/-- Bytes whose line the operation has not released early. -/
def State.stillMine (s : State) (op : Nat) (r : RecView) (ps : List Put) : List Put :=
  let o := s.opOf op
  ps.filter fun p => match s.destKey o r p.va with
    | some k => !o.freed.contains k
    | none => true

end Sys2Proof.Machine
end

