-- ==== Sys2Proof/Machine/Async.lean ====
section
/-! DEFINITION. Per-lane copies (09 R229, R230) and tensor copies (09 R231 to R236). -/

namespace Sys2Proof.Machine

open Sys2Proof

/-! ### ACP and AWAIT -/

/-- The pieces of n bytes at byte x of row y: the swizzle moves units of 16 bytes (09 R203). -/
def spanPieces (r : RecView) (x y n : Nat) : List (Nat × Nat) :=
  if r.swizzle = 0 then pieces (r.ea x y) n
  else if n = 0 then []
  else (List.range ((x + n + 15) / 16 - x / 16)).flatMap fun k =>
    let a := max x (16 * (x / 16 + k))
    pieces (r.ea a y) (min (x + n) (16 * (x / 16 + k + 1)) - a)

/-- Bytes of pieces, loaded as the group loads them. -/
inductive Pieces where
  | ok (bs : List Byte) (bad : Bool) (s : State)
  | flt (f : Flt)
  | held (lines : List Nat)

def loadPieces (n : Nat) (r : RecView) : List (Nat × Nat) → State → Pieces
  | [], s => .ok [] false s
  | (va, k) :: rest, s =>
    match s.reachVa n r .load va with
    | (.bad f, _) => .flt f
    | (w, s) =>
      match s.loadWay n r.peer w k with
      | .held ls => .held ls
      | .ok (bs, bad, s) =>
        match loadPieces n r rest s with
        | .ok more b s => .ok (bs ++ more) (bad || b) s
        | p => p

/-- What the lanes of an `ACP` come to: the instruction and the lanes that copy. -/
def acpLanes (x : XForm) (r : RecView) (t : Team) :
    List Nat → Iss → List AcpLane → Got (Iss × List AcpLane)
  | [], i, acc => .ok (i, acc)
  | l :: rest, i, acc =>
    let g := i.g
    let rx := some (BitVec.ofNat 5 (auxRec x))
    let stop := fun (f : Flt) => acpLanes x r t rest (i.fault (laneBit l) f) acc
    match firstPoison g l ([(x.b, 1)] ++ (if x.mod.getLsbD 5 then [] else [(x.c, 1)]) ++ [(x.d, 1), (x.a, 1)]) with
    | some f => stop f
    | none =>
      let dst := opVal g x.lit x.a 1 l
      let n := if x.mod.getLsbD 5 then 32 else min (opVal g x.lit x.c 1 l) 32
      let sx := signed 32 (opVal g x.lit x.b 1 l)
      let sy := signed 32 (opVal g x.lit x.d 1 l)
      if dst % 32 ≠ 0 then stop { cause := 0x07#8 }
      else if t.ssize < dst + 32 then stop { cause := 0x03#8 }
      else if n = 0 then acpLanes x r t rest i (acc ++ [⟨dst, List.replicate 32 0#8, false⟩])
      else if !r.inside sx sy n then
        if r.oobTrap then stop { cause := 0x03#8, vline := vlineOf (r.eaInt sx sy), recIdx := rx }
        else acpLanes x r t rest (i.mod fun g => g.raiseFlags flagOob)
          (acc ++ [⟨dst, List.replicate 32 0#8, false⟩])
      else match loadPieces i.n r (spanPieces r sx.toNat sy.toNat n) i.s with
        | .held ls => .held ls
        | .flt f => stop { f with recIdx := rx }
        | .ok bs bad s =>
          acpLanes x r t rest { i with s := s } (acc ++ [⟨dst, bs ++ List.replicate (32 - n) 0#8, bad⟩])

/-- `ACP` (09 R229, R230): the sources are read now; the sectors are absent until the copy lands. -/
def execAcp (x : XForm) (s : State) : Out :=
  let i := begin_ (.acp x) s
  let tag := bits x.imm 2 0
  let r := recView (i.g.breg (auxRec x))
  if i.run = 0#32 then i.out
  else match i.s.recFault i.n r (auxRec x) true false [0, 3] with
    | some f => (i.fault i.run f).out
    | none =>
      if i.g.treg tag = 0xFFFF#16 then .next (i.parked (.tagFull tag) s)
      else match acpLanes x r (i.s.team i.g.team) (maskLanes i.run) i [] with
        | .held ls => .next (i.parked (.owned ls) s)
        | .ok (i, copies) =>
          if copies.isEmpty then i.out
          else
            let ks := (copies.map fun c => c.dst / 32).eraseDups
            let i := i.modS fun s => (s.modTeam i.g.team fun t => t.bumpAbsent ks true).startOp
              (i.newOp (.acp tag copies))
            (i.mod fun g => g.setT tag (g.treg tag + 1#16)).out

/-- `AWAIT` (09 R230). -/
def execAwait (x : XForm) (s : State) : Out :=
  let i := begin_ (.await x) s
  if i.run = 0#32 then i.out else i.waitFor (.tag (bits x.imm 2 0))

/-! ### Tiles (09 R231, R232) -/

def elemBits : Nat → Nat
  | 0 => 4
  | 1 => 4
  | 2 => 8
  | 3 => 16
  | 4 => 32
  | _ => 64

def Tile.row0 (t : Tile) : Axis := t.axes.headD ⟨0, 0, 1, 0, 0⟩
/-- Rw: rows of the tile. -/
def Tile.rows_ (t : Tile) : Nat := (t.axes.drop 1).foldl (fun n a => n * a.take) 1
/-- rb: bytes of a row. -/
def Tile.rowBytes (t : Tile) : Nat := (t.row0.take * t.bits + 7) / 8

/-- A coordinate resolved by its axis; a `TST` writes no element outside, whatever EDGE says. -/
def Axis.resolve (a : Axis) (store : Bool) (c : Int) : Option Int :=
  if 0 ≤ c ∧ c < a.span then some c
  else if store then none
  else match a.edge with
    | 1 => some (min (max c 0) ((a.span : Int) - 1))
    | 2 => some (c.emod a.span)
    | _ => none

/-- The memory element index of the axes above 0 in row r; `gather` replaces the axis-1 coordinate. -/
def rowIndex (store : Bool) (gather : Option Int) : List Axis → Nat → Option Int
  | [], _ => some 0
  | a :: rest, r =>
    match a.resolve store (match gather with
        | some c => c
        | none => a.origin + (r % a.take : Nat)), rowIndex store none rest (r / a.take) with
    | some c, some e => some (c * a.step + e)
    | _, _ => none

/-- A gathered row's axis-1 coordinate; no row where the lane does not act. -/
def Tile.gatherAt (t : Tile) (r : Nat) : Option (Option Int) :=
  match t.rows, t.axes.drop 1 with
  | some m, a :: _ => (Sp.get? m (r % a.take)).map some
  | some _, [] => none
  | none, _ => some none

/-- The rows that are copied. -/
def Tile.activeRows (t : Tile) : List Nat := (List.range t.rows_).filter fun r => (t.gatherAt r).isSome

/-- One unit of an element, a byte or a nibble: its place in the tensor record, and in the tile. -/
structure Unit4 where
  mem : Nat
  msh : Nat
  tile : Nat
  tsh : Nat
  w : Nat
  deriving DecidableEq, Repr

/-- Elements of the tile that lie inside the tensor, with their first bit in the record: row, index along
axis 0, bit. -/
def Tile.elems (t : Tile) (store : Bool) : List (Nat × Nat × Int) :=
  t.activeRows.flatMap fun r =>
    match rowIndex store ((t.gatherAt r).getD none) (t.axes.drop 1) r with
    | none => []
    | some e => (List.range t.row0.take).filterMap fun (k : Nat) =>
      (t.row0.resolve store (t.row0.origin + (k : Int))).map fun c =>
        (r, k, (c * t.row0.step + e) * t.bits)

/-- The first and last byte of an element lie in row 0 of the record. -/
def elemInside (ext w : Nat) (bit : Int) : Bool :=
  decide (0 ≤ bit) && decide ((bit + w - 1) / 8 < ext)

/-- Units of the elements that are copied. -/
def Tile.units (t : Tile) (store : Bool) : List Unit4 :=
  let ext := if (recView t.rec_).extentY = 0 then 0 else (recView t.rec_).extentX
  let w := min t.bits 8
  ((t.elems store).filter fun e => elemInside ext t.bits e.2.2).flatMap fun e =>
    (List.range (t.bits / w)).map fun j =>
      let m := e.2.2.toNat + w * j
      let k := e.2.1 * t.bits + w * j
      { mem := m / 8, msh := m % 8, tile := e.1 * t.rowPitch + k / 8, tsh := k % 8, w := w }

/-- Some element inside the tensor reaches outside the record (09 R233 step 5). -/
def Tile.outside (t : Tile) (store : Bool) : Bool :=
  let ext := if (recView t.rec_).extentY = 0 then 0 else (recView t.rec_).extentX
  (t.elems store).any fun e => !elemInside ext t.bits e.2.2

/-- Scratchpad sectors of the tile's rows. -/
def Tile.sectors (t : Tile) : List Nat :=
  (t.activeRows.flatMap fun r => sectorsOf (t.off + r * t.rowPitch) t.rowBytes).eraseDups

/-! ### The descriptor (09 Tables 9.10, 9.10a) -/

/-- Axis record `d` of a descriptor with an origin. -/
def axisOf (bs : List Byte) (d : Nat) (origin : Int) : Axis :=
  let r := (bs.drop (0x10 + 16 * d)).take 16
  { step := signed 64 (ofBytes (r.take 8)), span := ofBytes ((r.drop 8).take 4),
    take := ofBytes ((r.drop 12).take 2), edge := ofBytes ((r.drop 14).take 2), origin := origin }

/-- Step 2 of 09 R233, apart from the origins' registers. -/
def descBad (bs : List Byte) (axes : List Axis) (n elem pitch rb tb swz : Nat) (gather : Bool) : Bool :=
  let head := ofBytes (bs.take 4)
  field head 3 1 != 0 || field head 8 24 != 0 || n == 0 || decide (5 < n) || decide (5 < elem) ||
    ofBytes ((bs.drop 8).take 8) != 0 || ofBytes ((bs.drop 0x60).take 32) != 0 ||
    ofBytes ((bs.drop (0x10 + 16 * n)).take (16 * (5 - n))) != 0 ||
    axes.any (fun a => a.take == 0 || decide (4096 < a.take) || decide (2 < a.edge) ||
      (a.edge != 0 && a.span == 0) || decide (2 ^ 48 ≤ a.step.natAbs)) ||
    decide (pitch < rb) || pitch % 4 != 0 || decide (2 ^ 32 ≤ tb) || swz != 0 || (gather && decide (n < 2))

/-- Step 3: I4X copies whole blocks. -/
def blockBad (axes : List Axis) : Bool :=
  match axes with
  | [] => false
  | a :: rest =>
    a.step != 1 || a.edge != 0 || a.origin.emod 16 != 0 || a.take % 16 != 0 || a.span % 16 != 0 ||
      rest.any fun b => b.step.emod 16 != 0

/-- Replace the tile extent of axis 1 (`TCPG`). -/
def withTake1 (l : List Axis) (n : Nat) : List Axis :=
  match l with
  | a :: b :: r => a :: { b with take := n } :: r
  | l => l

/-! ### Issue -/

/-- What the checks of a tensor copy come to (09 R233): a fault of every active lane, lines that an engine holds
back, or the tile to copy with the instruction after its reads. -/
inductive TensorWay where
  | stop (i : Iss) (f : Flt)
  | held (lines : List Nat)
  | go (i : Iss) (t : Tile)

/-- The checks of a tensor copy in their order; the descriptor is read now. -/
def tensorChecks (x : XForm) (store gather : Bool) (i : Iss) : TensorWay :=
  let g := i.g
  let noobj := x.mod.getLsbD 6
  let dIdx := immRec x
  let dr := recView (g.breg dIdx)
  let tr := recView (g.breg (auxRec x))
  let rx := some (BitVec.ofNat 5 dIdx)
  match i.uniPoison ([(x.b, 1)] ++ (if noobj then [] else [(x.d, 1)]) ++ [(x.a, 1)]),
      i.s.recFault i.n dr dIdx true false [0, 3],
      i.s.recFault i.n tr (auxRec x) (!store) store [0, 3] with
  | some f, _, _ => .stop i f
  | _, some f, _ => .stop i f
  | _, _, some f => .stop i f
  | none, none, none =>
    let off := uniVal g x x.b 1
    if dr.extentY = 0 ∨ dr.extentX < off + 128 then
      .stop i { cause := 0x03#8, vline := vlineOf (dr.eaInt off 0), recIdx := rx }
    else if off % 128 ≠ 0 then .stop i { cause := 0x07#8, vline := vlineOf (dr.ea off 0), recIdx := rx }
    else match readPieces i.n dr true (pieces (dr.ea off 0) 128) i.s with
      | .held ls => .held ls
      | .flt f => .stop i { f with recIdx := rx }
      | .ok bs s' =>
        let i := { i with s := s' }
        let head := ofBytes (bs.take 4)
        let n := field head 0 3
        let elem := field head 4 4
        let pitch := ofBytes ((bs.drop 4).take 4)
        let c0 := x.c.num - 0xC0
        let axes := (List.range n).map fun d => axisOf bs d (signed 32 (g.sreg (c0 + d)).toNat)
        let axes := if gather then withTake1 axes laneCount else axes
        let vrow := bits x.imm 12 5
        let rows : Option (Sp Int) := if gather then
            some ((maskLanes i.run).map fun l => (l, signed 32 (g.vreg vrow l).toNat)) else none
        let t : Tile :=
          { off := uniVal g x x.a 1, rowPitch := pitch, bits := elemBits elem, axes := axes, rows := rows,
            rec_ := g.breg (auxRec x) }
        let tb := t.rows_ * t.rowBytes
        let obj := uniVal g x x.d 1
        let objLen := if x.mod.getLsbD 5 then 24 else 16
        let team := i.s.team g.team
        if descBad bs axes n elem pitch t.rowBytes tb tr.swizzle gather || decide (g.ns < c0 + n) then
          .stop i { cause := 0x12#8 }
        else match (List.range n).find? fun d => g.sPoison (c0 + d) with
          | some d => .stop i { cause := 0x04#8, aux := BitVec.ofNat 32 (0x100 + x.c.num + d) }
          | none =>
            if gather && (maskLanes i.run).any (fun l => g.vPoison vrow l) then
              .stop i { cause := 0x04#8, aux := BitVec.ofNat 32 (0x100 + vrow) }
            else if elem == 1 && blockBad axes then .stop i { cause := 0x07#8 }
            else if team.ssize < t.off + (t.rows_ - 1) * pitch + t.rowBytes then .stop i { cause := 0x03#8 }
            else if !noobj && obj % 16 != 0 then .stop i { cause := 0x07#8 }
            else if !noobj && decide (team.ssize < obj + objLen) then .stop i { cause := 0x03#8 }
            else if t.outside store && tr.oobTrap then
              .stop i { cause := 0x03#8, vline := vlineOf tr.base, recIdx := some (BitVec.ofNat 5 (auxRec x)) }
            else .go i t

/-- The operation that a tensor copy becomes: its tile, the object it credits and with how many bytes (09
R234). -/
def tensorOp (i : Iss) (x : XForm) (store gather : Bool) (t : Tile) : AsyncOp :=
  let tb := t.rows_ * t.rowBytes
  { i.newOp (if store then .tst t else .tcp t) with
    obj := if x.mod.getLsbD 6 then none else some (uniVal i.g x x.d 1)
    stat := x.mod.getLsbD 5
    credit := if gather then tb * maskCount i.run / laneCount else tb }

/-- The machine once a tensor copy has begun: the sectors it writes are absent, or those it reads busy, and the
lines it writes are owned (08 R191; 09 R233, R234). -/
def State.beginTensor (s : State) (n : Nat) (store : Bool) (t : Tile) (o : AsyncOp) : State :=
  let op := s.serial
  let s1 := (s.modTeam (s.grp n).team fun u =>
    if store then u.bumpBusy t.sectors true else u.bumpAbsent t.sectors true).startOp o
  if store then
    let us := t.units true
    let tr := recView t.rec_
    let vas := fun (w : Nat) => (us.filter fun u => u.w == w).map fun u => tr.base + u.mem
    s1.claimFor op tr (vas 8) (vas 4)
  else s1

/-- A tensor copy at issue (09 R233): every fault is precise on every active lane. -/
def tensorRun (ins : Instr) (x : XForm) (store gather : Bool) (s : State) : Out :=
  let i := begin_ ins s
  if i.run = 0#32 then i.out
  else if store && i.writeBarred then (i.fault i.run { cause := 0x02#8 }).out
  else match tensorChecks x store gather i with
    | .stop i f => (i.faultAll f).out
    | .held ls => .next (i.parked (.owned ls) s)
    | .go i t =>
      let i := if t.outside store then i.mod fun g => g.raiseFlags flagOob else i
      (i.modS fun s => s.beginTensor i.n store t (tensorOp i x store gather t)).out

/-- `TCP`: tensor to scratchpad. -/
def execTcp (x : XForm) (s : State) : Out := tensorRun (.tcp x) x false false s
/-- `TST`: scratchpad to tensor. -/
def execTst (x : XForm) (s : State) : Out := tensorRun (.tst x) x true false s
/-- `TCPG`: rows gathered by an index register. -/
def execTcpg (x : XForm) (s : State) : Out := tensorRun (.tcpg x) x false true s

/-! ### Landing -/

/-- Sectors that an outstanding operation writes, and that it reads. -/
def OpKind.scrWrites : OpKind → List Nat
  | .acp _ cs => (cs.map fun c => c.dst / 32).eraseDups
  | .tcp t => t.sectors
  | _ => []

def OpKind.scrReads : OpKind → List Nat
  | .tst t => t.sectors
  | _ => []

/-- An operation of the same team, issued earlier, still reads sectors that this one writes, or has not landed in
sectors that this one reads (09 Table 9.11). -/
def State.scrBlocked (s : State) (op : Nat) : Bool :=
  let o := s.opOf op
  let w := o.kind.scrWrites
  let r := o.kind.scrReads
  s.ops.any fun kv => decide (kv.1 < op) && kv.2.team == o.team &&
    ((kv.2.kind.scrWrites.any fun k => r.contains k && !kv.2.landed.contains k) ||
      kv.2.kind.scrReads.any fun k => w.contains k)

/-- Bytes land in the scratchpad; those on which a copy issued later has landed stay as it left them (09 Table
9.11). -/
def Team.landBytes (t : Team) (written : List (Nat × Nat)) (off : Nat) (bs : List Byte) (bad : Bool) : Team :=
  let hit := fun (x : Nat) => written.any fun p => decide (p.1 ≤ x) && decide (x < p.1 + p.2)
  if (List.range bs.length).any fun k => hit (off + k) then
    (List.range bs.length).foldl (fun t k =>
      if hit (off + k) then t else t.scrWrite (off + k) [bs.getD k 0#8] bad) t
  else t.scrWrite off bs bad

/-- Copies of the team that were issued earlier and have not landed in a range keep off it. -/
def State.coverEarlier (s : State) (op off n : Nat) : State :=
  let team := (s.opOf op).team
  { s with ops := s.ops.map fun kv =>
      if kv.1 < op && kv.2.team == team && (sectorsOf off n).any fun k => kv.2.kind.scrWrites.contains k then
        (kv.1, { kv.2 with written := (off, n) :: kv.2.written })
      else kv }

/-- Every sector of a copy has landed and is present. -/
def State.copyOver (s : State) (o : AsyncOp) : Bool :=
  !o.kind.scrWrites.isEmpty && o.kind.scrWrites.all fun k =>
    o.landed.contains k && Sp.get 0 (s.team o.team).absent k == 0

/-- A copy into the scratchpad is over: the tag counts down, or the object is credited (09 R230, R234). -/
def State.finishCopy (s : State) (op : Nat) : State :=
  let o := s.opOf op
  match o.kind with
  | .acp tag _ => (((s.modGrp o.group fun g => g.setT tag (g.treg tag - 1#16)).endOp op).wakeTeam o.team)
  | .tcp _ => s.finishOp op
  | _ => s

/-- The copies of a team that are over end. One whose sector a copy issued later still writes waits for it, since its
sectors must be present by then (09 R230, R234). -/
def State.settleCopies (s : State) (tn : Nat) : State :=
  s.ops.foldl (fun s kv =>
    if kv.2.team = tn ∧ s.copyOver (s.opOf kv.1) then s.finishCopy kv.1 else s) s

/-- One sector of an `ACP` lands: of its lanes the highest stands (09 R229). -/
def State.landAcp (s : State) (op sector : Nat) (copies : List AcpLane) : State :=
  let o := s.opOf op
  let s := s.modTeam o.team fun t =>
    ((copies.filter fun c => c.dst / 32 == sector).foldl (fun t c => t.landBytes o.written c.dst c.bytes c.bad)
      t).bumpAbsent [sector] false
  ((s.coverEarlier op (32 * sector) 32).modOp op fun o => { o with landed := o.landed ++ [sector] }).wakeTeam o.team

/-- A sector of an `ACP` lands, in any order (17 R405); with its last one its tag counts down (09 R230). -/
def execAcpLanded (at_ : CopySector) (s : State) : Out :=
  let o := s.opOf at_.op
  .next (match o.kind with
  | .acp _ copies =>
    if s.scrBlocked at_.op || o.landed.contains at_.sector || !o.kind.scrWrites.contains at_.sector then s
    else (s.landAcp at_.op at_.sector copies).settleCopies o.team
  | _ => s)

/-- A `TCP` or `TCPG` is performed: source lines read once, the tile written, the object credited. -/
def State.landTcp (s : State) (op : Nat) (t : Tile) : State :=
  let o := s.opOf op
  let r := recView t.rec_
  let us := t.units false
  let q := s.readSource op o r ((us.map fun u => lineOf (r.base + u.mem)).eraseDups)
  if q.1.held then s
  else if !q.1.absent.isEmpty then s.queuePages op q.1.absent
  else
    let s := q.2
    let zero : Sp Byte := []
    let bytes := us.foldl (fun m u =>
      let va := r.base + u.mem
      let v := if (Sp.get? q.1.fails (lineOf va)).isSome then 0
        else field (Sp.get 0#8 q.1.bytes va).toNat u.msh u.w
      Sp.set 0#8 m u.tile (Sp.get 0#8 m u.tile ||| BitVec.ofNat 8 (v * 2 ^ u.tsh))) zero
    let bad := us.filter fun u => q.1.cause (r.base + u.mem) != 0#8
    let s := ((bad.map fun u => (u.tile, q.1.cause (r.base + u.mem))).eraseDups).foldl (fun s p =>
      s.modOp op fun o => o.fail p.1 p.2) s
    let s := s.modTeam o.team fun tm =>
      let tm := t.activeRows.foldl (fun tm k =>
        let at_ := k * t.rowPitch
        -- sector by sector, so that poison stays in its sector
        (sectorsOf (t.off + at_) t.rowBytes).foldl (fun tm sec =>
          let lo := max (32 * sec) (t.off + at_)
          let n := min (32 * sec + 32) (t.off + at_ + t.rowBytes) - lo
          tm.landBytes o.written lo (Sp.read 0#8 bytes (lo - t.off) n)
            (bad.any fun u => decide (lo ≤ t.off + u.tile) && decide (t.off + u.tile < lo + n))) tm) tm
      tm.bumpAbsent t.sectors false
    let s := t.activeRows.foldl (fun s k => s.coverEarlier op (t.off + k * t.rowPitch) t.rowBytes) s
    (((s.modOp op fun o => { o with landed := t.sectors }).wakeTeam o.team).settleCopies o.team)

/-- The bytes that a `TST` writes, from the scratchpad as it stands. -/
def State.tstPuts (s : State) (op : Nat) (t : Tile) : List Put :=
  let tm := s.team (s.opOf op).team
  let r := recView t.rec_
  (t.units true).map fun u =>
    { va := r.base + u.mem, sh := u.msh, w := u.w,
      val := field ((tm.scrBytes (t.off + u.tile) 1).getD 0 0#8).toNat u.tsh u.w,
      bad := tm.scrPoison (t.off + u.tile) 1, at_ := u.tile }

/-- A `TST` is performed: its elements written, its lines released, the object credited. -/
def State.landTst (s : State) (op : Nat) (t : Tile) : State :=
  let o := s.opOf op
  let r := recView t.rec_
  let ps := s.stillMine op r (s.tstPuts op t)
  let absent := s.absentDest o r ps
  if !absent.isEmpty then s.queuePages op absent
  else if s.destHeld op r ps then s
  else
    let s := ((s.putAll op r ps).cleanLines o r ps).releaseAll op
    let s := s.modTeam o.team fun tm => tm.bumpBusy t.sectors false
    s.finishOp op

/-- The tensor engine completes an operation (09 R234). -/
def execTensorCopyDone (op : Nat) (s : State) : Out :=
  .next (match (s.opOf op).kind with
  | .tcp t => if s.scrBlocked op || !(s.opOf op).landed.isEmpty then s else s.landTcp op t
  | .tst t => if s.scrBlocked op then s else s.landTst op t
  | _ => s)

/-- An engine releases a line once it has written the last byte it writes there (08 R191). -/
def execEngineLineRelease (op line : Nat) (s : State) : Out :=
  .next (match (s.opOf op).kind with
  | .tst t =>
    if s.scrBlocked op || Sp.get? s.owned line != some op then s
    else s.releaseEarly op line (recView t.rec_) (s.tstPuts op t)
  | _ => s)

end Sys2Proof.Machine
end

