-- ==== Sys2Proof/Machine/Burst.lean ====
section
/-! DEFINITION. Bulk reads with burst handlers (10): issue, the reading of a burst, and the birth of a
handler group. -/

namespace Sys2Proof.Machine

open Sys2Proof

/-! ### Geometry (10 R240) -/

/-- Relative coordinates of burst k. -/
def BulkRead.coord (r : BulkRead) (k : Nat) : Nat × Nat × Nat :=
  (k % r.nx, k / r.nx % r.ny, k / (r.nx * r.ny))

/-- First byte and record row of burst k. -/
def BulkRead.place (r : BulkRead) (k : Nat) : Nat × Nat :=
  let c := r.coord k
  (256 * (r.x0 + c.1), r.y0 + c.2.1 + (r.z0 + c.2.2) * r.zp)

/-- Some byte of a burst is out of bounds. -/
def burstOob (v : RecView) (p : Nat × Nat) : Bool :=
  decide (v.extentX < p.1 + 256) || decide (v.extentY ≤ p.2)

/-- `BREAD` (10 R237, R239). -/
def execBread (x : XForm) (s : State) : Out :=
  let hIdx := bits x.imm 8 5
  let l := s.launchOf s.cur
  let i := begin_ (.bread x) s (Sp.has l.handlers hIdx)
  let g := i.g
  let n := bits x.imm 12 9
  let rIdx := immRec x
  let v := recView (g.breg rIdx)
  let rx := some (BitVec.ofNat 5 rIdx)
  let reg := fun (o : Opnd) (k : Nat) => (g.sreg (o.num - 0xC0 + k)).toNat
  let bad := firstSome (fun c => if g.sPoison (c - 0xC0) then
      some ({ cause := 0x04#8, aux := BitVec.ofNat 32 (0x100 + c) } : Flt) else none)
    (codesFrom x.b 3 ++ codesFrom x.c 4 ++ (if n = 0 then [] else codesFrom x.d n))
  let stop := fun (c : BitVec 8) (r : Option (BitVec 5)) => (i.faultAll { cause := c, recIdx := r }).out
  if i.run = 0#32 then i.out
  else match bad with
    | some f => (i.faultAll f).out
    | none =>
      let r : BulkRead :=
        { live := true, group := i.n, team := g.team, launch := (i.s.teamOf i.n).launch,
          core := i.s.coreOf i.n, gid := g.gid, dst := x.a, x0 := reg x.b 0, y0 := reg x.b 1, z0 := reg x.b 2,
          nx := reg x.c 0, ny := reg x.c 1, nz := reg x.c 2, zp := reg x.c 3, rec_ := g.breg rIdx,
          handler := hIdx, args := (List.range n).map fun k => BitVec.ofNat 32 (reg x.d k),
          mode := g.mode, nbv := g.nbv, recs := g.b, seq := (i.s.teamOf i.n).breads }
      let count := r.nx * r.ny * r.nz
      let r := { r with count := count }
      if (i.s.teamOf i.n).nhandlers = 0 then stop 0x09#8 none
      else match i.s.recFault i.n v rIdx true false [0, 3] with
        | some f => (i.faultAll f).out
        | none =>
          if count = 0 ∨ 4096 < count ∨ v.swizzle ≠ 0 then stop 0x12#8 rx
          else if v.base % 256 ≠ 0 ∨ v.strideY % 256 ≠ 0 then stop 0x07#8 rx
          else
            let out := (List.range count).any fun k => burstOob v (r.place k)
            if out && v.oobTrap then
              (i.faultAll { cause := 0x03#8, vline := vlineOf v.base, recIdx := rx }).out
            else
              let i := if out then i.mod fun g => g.raiseFlags flagOob else i
              let id := i.s.serial
              let i := { i with kind := .read id }.modS fun s =>
                ({ s with serial := id + 1, reads := Sp.put s.reads id r }).modTeam g.team fun t =>
                  { t with breads := t.breads + 1 }
              let i := i.mod fun g => { g with outstanding := g.outstanding + 1 }
              (i.modS fun s => s.modLaunch r.launch fun l => { l with outstanding := l.outstanding + 1 }).out

/-! ### Reading a burst (10 R241, R249) -/

/-- The read as the engines' source functions take it. -/
def BulkRead.asOp (r : BulkRead) : AsyncOp :=
  { group := r.group, team := r.team, launch := r.launch, core := r.core, noPage := r.noPage }

/-- Entries of the burst buffer that a team holds (10 R244). -/
def State.burstsOf (s : State) (c tn : Nat) : Nat :=
  (((s.core c).burstBuf ++ (s.core c).burstAsked).filter fun b => (s.readOf b.1).team == tn).length

/-- Reads of a core with bursts not yet requested whose teams may have another entry: team and read. -/
def State.burstWants (s : State) (c : Nat) : List (Nat × Nat) :=
  (s.reads.filter fun kv => kv.2.live && kv.2.core == c && decide (kv.2.asked < kv.2.count) &&
    decide (s.burstsOf c kv.2.team < 16)).map fun kv => (kv.2.team, kv.1)

/-- The first pair of the lowest team. -/
def firstTeam (l : List (Nat × Nat)) : Option (Nat × Nat) :=
  l.foldl (fun best p => match best with
    | none => some p
    | some q => if p.1 < q.1 then some p else some q) none

/-- Grant one buffer entry, round-robin among the teams: the burst is requested, and has its place (10 R244). Within a
team the oldest read's next burst is taken (log entry 66). -/
def State.grantBurst (s : State) (c : Nat) : State :=
  let k := s.core c
  let want := s.burstWants c
  if 64 ≤ k.burstBuf.length + k.burstAsked.length then s
  else
    let later := want.filter fun p => decide (k.burstTurn < p.1)
    match firstTeam (if later.isEmpty then want else later) with
    | none => s
    | some p =>
      let b := (s.readOf p.2).asked
      (s.modRead p.2 fun r => { r with asked := b + 1 }).modCore c fun k =>
        { k with burstAsked := k.burstAsked ++ [(p.2, b)], burstTurn := p.1 }

/-- Grant what the buffer of a core has room for. -/
def State.grantBursts (s : State) (c : Nat) : State := (List.range 64).foldl (fun s _ => s.grantBurst c) s

/-- The two lines of a burst that hold bytes within bounds. -/
def burstLines (v : RecView) (p : Nat × Nat) : List Nat :=
  if v.extentY ≤ p.2 then []
  else ([0, 1].filter fun h => decide (p.1 + 128 * h < v.extentX)).map fun h => lineOf (v.ea p.1 p.2) + h

/-- The burst that the lines give: bytes out of bounds and bytes of a failed line are zero. -/
def burstOf (v : RecView) (p : Nat × Nat) (q : Source) : Burst :=
  let va := v.ea p.1 p.2
  let live := burstLines v p
  let ok := fun (k : Nat) => live.contains (lineOf (va + k)) && decide (p.1 + k < v.extentX) &&
    !(Sp.has q.fails (lineOf (va + k)))
  let cause := fun (h : Nat) => if live.contains (lineOf va + h) then Sp.get? q.fails (lineOf va + h) else none
  let bad := fun (h : Nat) => live.contains (lineOf va + h) && q.poison.contains (lineOf va + h)
  let failed := (cause 0).isSome || (cause 1).isSome
  let data := if failed then 2 else if bad 0 || bad 1 then 1 else 0
  let c := match cause 0, cause 1 with
    | some c, _ => c.toNat
    | none, some c => c.toNat
    | none, none => 0
  { data := (List.range 256).map fun k => if ok k then Sp.get 0#8 q.bytes (va + k) else 0#8
    badLo := bad 0, badHi := bad 1
    stat := BitVec.ofNat 32 (data + (if burstOob v p then 4 else 0) +
      (if bad 0 || (cause 0).isSome then 8 else 0) + (if bad 1 || (cause 1).isSome then 16 else 0) + c * 256) }

/-- Both lines of a burst that holds a buffer entry have been read, and it waits for its birth (10 R241, R243,
R244). -/
def execBurstReady (read burst : Nat) (s : State) : Out :=
  let r := s.readOf read
  if !r.live || !(s.core r.core).burstAsked.contains (read, burst) then .next s
  else
    let v := recView r.rec_
    let p := r.place burst
    let q := s.readSource 0 r.asOp v (burstLines v p)
    if q.1.held then .next s
    else if !q.1.absent.isEmpty then
      .next ((s.modCore r.core fun c => q.1.absent.foldl (fun c p => c.queuePage (s.launch r.launch).asid p) c).modRead
        read fun r => { r with waits := q.1.absent })
    else
      let b := burstOf v p q.1
      let s := q.2.modRead read fun r =>
        { r with ready := Sp.put r.ready burst b, waits := [] }
      .next (s.modCore r.core fun c =>
        { c with burstAsked := c.burstAsked.filter (· != (read, burst)), burstBuf := c.burstBuf ++ [(read, burst)] })

/-! ### Birth (10 R242, R243) -/

/-- The lowest free handler slot of a team. -/
def Team.freeSlot (t : Team) : Option Nat :=
  (List.range t.nhandlers).find? fun h => !Sp.has t.groups (32 + h)

/-- A team can take a handler now: it stands on its core and is not halted. -/
def Team.canBear (t : Team) : Bool := t.life == .resident && !t.frozen 32

/-- The registers of a handler at birth (02 R28, 10 R242). -/
def bornGroup (r : BulkRead) (l : Launch) (read slot started : Nat) (b : Burst) (burst : Nat) : Group :=
  let e := (Sp.get? l.handlers r.handler).getD ⟨0#57, 0#12, 1⟩
  let word := fun (k : Nat) => BitVec.ofNat 32 (ofBytes ((b.data.drop (4 * k)).take 4))
  let w : BurstRegs :=
    { read := read, bx := BitVec.ofNat 32 (r.x0 + (r.coord burst).1)
      by_ := BitVec.ofNat 32 (r.y0 + (r.coord burst).2.1)
      bz := BitVec.ofNat 32 (r.z0 + (r.coord burst).2.2)
      bidx := BitVec.ofNat 32 burst, bn := BitVec.ofNat 32 r.count, bstat := b.stat }
  let g : Group :=
    { live := true, team := r.team, gid := 32 + slot, started := started, cls := .handler, nv := e.nv,
      ns := 48, nb := l.r.nb, b := r.recs, mode := r.mode, nbv := r.nbv,
      frontier := [⟨e.pc, e.prio, allLanes, false, 0⟩], burst := some w }
  let g := lanes.foldl (fun g l =>
    let bad := if l < 16 then b.badLo else b.badHi
    let g := g.setV 0 l (word (2 * l))
    let g := if bad then g.markV 0 l else g
    if e.nv < 2 then g
    else
      let g := g.setV 1 l (word (2 * l + 1))
      if bad then g.markV 1 l else g) g
  ((List.range r.args.length).zip r.args).foldl (fun g p => g.setS p.1 p.2) g

/-- A burst is born in a slot with the data and status given. -/
def State.bear (s : State) (c read burst slot : Nat) (b : Burst) : State :=
  let r := s.readOf read
  let id := s.serial
  let g := bornGroup r (s.launch r.launch) read slot id b burst
  let s := ({ s with serial := id + 1 }).setGrp id g
  let s := s.modTeam r.team fun t => { t with groups := Sp.put t.groups (32 + slot) id }
  let data := field b.stat.toNat 0 2
  let s := s.modRead read fun r =>
    { r with
      born := r.born + 1, ready := Sp.del r.ready burst
      bad := if data = 0 then r.bad else r.bad + 1
      poisoned := r.poisoned || data == 1
      oob := r.oob || b.stat.getLsbD 2
      failIdx := if data = 2 then min r.failIdx burst else r.failIdx
      failCause := if data = 2 ∧ burst < r.failIdx then BitVec.ofNat 8 (field b.stat.toNat 8 8)
        else r.failCause }
  s.modCore c fun k => { k with burstBuf := k.burstBuf.filter fun x => x != (read, burst) }

/-- The payload of a birth (16 Table 16.5). -/
def birthPayload (r : BulkRead) (burst slot : Nat) (b : Burst) : List Byte :=
  toBytes 4 r.seq ++ toBytes 4 burst ++ toBytes 4 slot ++ toBytes 4 b.stat.toNat

/-- Lines of a replayed burst that met an uncorrectable error that the recording did not deliver (10 R253). -/
def freshError (b : Burst) (stat : Nat) : Bool :=
  let lost := field b.stat.toNat 0 2 == 2 && field b.stat.toNat 8 8 == 4
  let err := fun (half : Nat) (bad : Bool) => (bad || (lost && b.stat.getLsbD half)) && field stat half 1 == 0
  err 3 b.badLo || err 4 b.badHi

/-- A replayed burst: the logged status injected whatever memory returned (10 R253). Where it marks both lines and
one of them failed, the log does not say which: a line that is poisoned now is taken as the poisoned one (log entry
66). -/
def injected (b : Burst) (stat : Nat) : Burst :=
  let data := field stat 0 2
  let lo := field stat 3 1 == 1
  let hi := field stat 4 1 == 1
  let badLo := lo && (data == 1 || (hi && b.badLo))
  let badHi := hi && (data == 1 || (lo && b.badHi && !b.badLo))
  { data := (List.range 256).map fun k =>
      if data == 2 && (if k < 128 then lo && !badLo else hi && !badHi) then 0#8 else b.data.getD k 0#8
    badLo := badLo, badHi := badHi, stat := BitVec.ofNat 32 stat }

/-- The first unconsumed entry of a team's stream that is matched. -/
def State.teamNext (s : State) (tn : Nat) : Option LogEnt :=
  (s.teamEntries tn).find? fun e => !(s.team tn).consumed e

/-- A birth in replay: only the birth that the stream has next, into its slot; none while it must wait. -/
def State.replayBirth (s : State) (c tn : Nat) : Option State :=
  match s.teamNext tn with
  | none => some (s.mismatch tn 32 2 0 5 0 0#57)
  | some e =>
    if e.kind ≠ 5 then none
    else
      let num := fun (k : Nat) => ofBytes ((e.payload.drop (4 * k)).take 4)
      let slot := num 2
      match (s.core c).burstBuf.find? fun b =>
          (s.readOf b.1).team == tn && (s.readOf b.1).seq == num 0 && b.2 == num 1 with
      | none => none
      | some b =>
        match Sp.get? (s.readOf b.1).ready b.2 with
        | none => none
        | some bu =>
          if Sp.has (s.team tn).groups (32 + slot) then none
          else if freshError bu (num 3) then some (s.mismatch tn e.gid 4 5 5 e.seq (BitVec.ofNat 57 e.pc))
          else some ((s.consume tn e).bear c b.1 b.2 slot (injected bu (num 3)))

/-- The birth of a ready burst, where its team can take it now. -/
def State.birthOf (s : State) (core : Nat) (b : Nat × Nat) : Option State :=
  let r := s.readOf b.1
  let t := s.team r.team
  if !t.canBear then none
  else if (s.launch r.launch).r.logMode = 2 then s.replayBirth core r.team
  else match t.freeSlot, Sp.get? r.ready b.2 with
    | some slot, some bu =>
      let e := (Sp.get? (s.launch r.launch).handlers r.handler).getD ⟨0#57, 0#12, 1⟩
      let s := if (s.launch r.launch).r.logMode = 1 then
          s.logAppend r.team (32 + slot) 5 e.pc (birthPayload r b.2 slot bu) else s
      some (s.bear core b.1 b.2 slot bu)
    | _, _ => none

/-- The oldest ready burst of the core whose team can take it is born (10 R243). -/
def execHandlerBirth (core : Nat) (s : State) : Out :=
  .next ((firstSome (s.birthOf core) (s.core core).burstBuf).getD s)

end Sys2Proof.Machine
end

