-- ==== Sys2Proof/Machine/Link.lean ====
section
/-! DEFINITION. Links (11): remote copies (R257 to R260), remote signals (R261, R262) and collectives
(R263 to R271; the order of reductions 04 R93). -/

namespace Sys2Proof.Machine

open Sys2Proof

/-- A view of a kind and a peer, for the engines' functions. -/
def linkView (kind peer : Nat) : RecView := { plainView with kind := kind, peer := peer }

/-- Bytes of a range in row 0 that are in bounds: a prefix. -/
def rowFit (r : RecView) (off n : Nat) : Nat := if r.extentY = 0 then 0 else min n (r.extentX - off)

/-! ### RPUT and RGET -/

/-- The issuing core's own pending bytes at the peer's places are discarded (11 R259). -/
def State.discardAt (s : State) (o : AsyncOp) (peer : Nat) (vas : List Nat) : State :=
  let at_ := vas.filterMap fun va => match (s.destAt o (linkView 3 peer) va).1 with
    | .here pa => some pa
    | .peer a => some a
    | _ => none
  s.modCore o.core fun c =>
    let rest := (Sp.get [] c.remote peer).filter fun kv => !at_.contains kv.1
    if Sp.has c.remote peer then { c with remote := Sp.put c.remote peer rest } else c

/-- A remote copy at issue (11 R258). `dk` and `sk` are the kinds of its records. -/
def remoteRun (ins : Instr) (x : XForm) (dk sk : Nat) (s : State) : Out :=
  let i := begin_ ins s
  let g := i.g
  let noobj := x.mod.getLsbD 6
  let dv := recView (g.breg (auxRec x))
  let sv := recView (g.breg (immRec x))
  let stop := fun (f : Flt) => (i.faultAll f).out
  let oob := fun (v : RecView) (off idx : Nat) =>
    ({ cause := 0x03#8, vline := vlineOf (v.eaInt off 0), recIdx := some (BitVec.ofNat 5 idx) } : Flt)
  if i.run = 0#32 then i.out
  else if i.writeBarred then (i.fault i.run { cause := 0x02#8 }).out
  else match i.uniPoison ([(x.b, 1), (x.c, 1)] ++ (if noobj then [] else [(x.d, 1)]) ++ [(x.a, 1)]),
      i.s.recFault i.n dv (auxRec x) false true [dk], i.s.recFault i.n sv (immRec x) true false [sk] with
    | some f, _, _ => stop f
    | _, some f, _ => stop f
    | _, _, some f => stop f
    | none, none, none =>
      let dOff := uniVal g x x.a 1
      let sOff := uniVal g x x.b 1
      let n := uniVal g x x.c 1
      let obj := uniVal g x x.d 1
      let objLen := if x.mod.getLsbD 5 then 24 else 16
      let dExt := rowFit dv dOff n
      let sExt := rowFit sv sOff n
      if n < 4 ∨ 2 ^ 24 < n ∨ n % 4 ≠ 0 ∨ dOff % 4 ≠ 0 ∨ sOff % 4 ≠ 0 then stop { cause := 0x07#8 }
      else if !noobj && obj % 16 != 0 then stop { cause := 0x07#8 }
      else if !noobj && decide ((i.s.team g.team).ssize < obj + objLen) then stop { cause := 0x03#8 }
      else if dExt < n ∧ dv.oobTrap then stop (oob dv dOff (auxRec x))
      else if sExt < n ∧ sv.oobTrap then stop (oob sv sOff (immRec x))
      else
        let i := if dExt < n ∨ sExt < n then i.mod fun g => g.raiseFlags flagOob else i
        let dst := dv.base + dOff
        let src := sv.base + sOff
        let k : OpKind := if dk = 3 then .rput dv.peer dst src n dExt sExt
          else .rget sv.peer dst src n dExt sExt
        let o : AsyncOp := { i.newOp k with
          obj := if noobj then none else some obj, stat := x.mod.getLsbD 5, credit := n }
        let op := i.s.serial
        let vas := (List.range dExt).map (dst + ·)
        let i := i.modS fun s => (s.startOp o).claimFor op (linkView dk dv.peer) vas []
        (i.modS fun s => if dk = 3 then s.discardAt o dv.peer vas else s).out

/-- `RPUT`: local memory to a peer. -/
def execRput (x : XForm) (s : State) : Out := remoteRun (.rput x) x 3 0 s
/-- `RGET`: a peer's memory to local memory. -/
def execRget (x : XForm) (s : State) : Out := remoteRun (.rget x) x 0 3 s

/-- Two byte ranges share a line. -/
def linesMeet (a n b m : Nat) : Bool :=
  decide (0 < n) && decide (0 < m) && decide (a / 128 ≤ (b + m - 1) / 128) &&
    decide (b / 128 ≤ (a + n - 1) / 128)

/-- An `RPUT` follows the earlier ones of its group to its peer where their lines meet (11 R259). -/
def State.putBlocked (s : State) (op peer dst n : Nat) : Bool :=
  s.ops.any fun kv => decide (kv.1 < op) && kv.2.group == (s.opOf op).group &&
    (match kv.2.kind with
      | .rput p d _ _ de _ => p == peer && linesMeet d de dst n
      | _ => false)

/-- The issuing core's pending bytes at the peer's home lie over what an `RGET` reads there (11 R258). -/
def State.overRemote (s : State) (o : AsyncOp) (r : RecView) (lines_ : List Nat) (q : Source) : Source :=
  let mine := Sp.get [] (s.core o.core).remote r.peer
  if mine.isEmpty then q
  else lines_.foldl (fun (q : Source) (ln : Nat) =>
    let base := match (s.translate o.core (s.launch o.launch).asid (128 * ln) .load).1 with
      | .ok p => if r.peer = s.fw.deviceId then some p.1 else none
      | .error _ => none
    let base := if r.peer = s.fw.deviceId then base
      else (s.peerAsid (s.launch o.launch).owner (s.launch o.launch).asid r.peer).map fun a =>
        a * 2 ^ 57 + 128 * ln
    match base with
    | none => q
    | some b => { q with
      bytes := (List.range 128).foldl (fun m k => match Sp.get? mine (b + k) with
        | some v => Sp.set 0#8 m (128 * ln + k) v
        | none => m) q.bytes }) q

/-- Lines of a byte range. -/
def rangeLines (a n : Nat) : List Nat := (pieces a n).map fun p => lineOf p.1

/-- The bytes that a remote copy writes: unreadable ones are zero and poisoned, and those out of bounds
at the source are zero (11 R258, R260). -/
def remotePuts (q : Source) (dst src dExt sExt : Nat) : List Put :=
  (List.range dExt).map fun k =>
    let c := if k < sExt then q.cause (src + k) else 0#8
    let v := if k < sExt ∧ !(Sp.has q.fails (lineOf (src + k))) then (Sp.get 0#8 q.bytes (src + k)).toNat
      else 0
    { va := dst + k, sh := 0, w := 8, val := v, bad := c != 0#8, at_ := k, why := c }

/-- The engine performs a remote copy. -/
def State.landRemote (s : State) (op : Nat) (sr dr : RecView) (dst src dExt sExt : Nat) : State :=
  let o := s.opOf op
  let ls := rangeLines src sExt
  let q := s.readSource op o sr ls
  let src_ := if sr.kind = 3 then q.2.overRemote o sr ls q.1 else q.1
  if src_.held then s
  else if !src_.absent.isEmpty then s.queuePages op src_.absent
  else
    let ps := remotePuts src_ dst src dExt sExt
    let absent := q.2.absentDest o dr ps
    if !absent.isEmpty then s.queuePages op absent
    else if q.2.destHeld op dr ps then s
    else (((q.2.putAll op dr ps).cleanLines o dr ps).releaseAll op).finishOp op

/-- A peer's remote put lands: its lines are written whole and released (08 R191, R195). -/
def State.landInPut (s : State) (op : Nat) (bytes : List (Nat × Byte)) : State :=
  if ((s.opOf op).lines.any fun l => s.ownedByOther op l) then s
  else
    let s := bytes.foldl (fun s p => s.engineWrite p.1 [p.2] false) s
    let s := (coveredLines (bytes.map fun p => (p.1, 1))).foldl (fun s l =>
      { s with memBad := Sp.set false s.memBad l false }) s
    let s := s.releaseAll op
    ({ s with ops := Sp.del s.ops op }).afterRelease

/-- A remote copy ends: its lines are released and its object credited (11 R258). -/
def execRemoteCopyDone (op : Nat) (s : State) : Out :=
  .next (match (s.opOf op).kind with
  | .rput peer dst src _ dExt sExt =>
    if s.putBlocked op peer dst dExt then s
    else s.landRemote op (linkView 0 0x7FF) (linkView 3 peer) dst src dExt sExt
  | .rget peer dst src _ dExt sExt =>
    s.landRemote op (linkView 3 peer) (linkView 0 0x7FF) dst src dExt sExt
  | .inPut bytes => s.landInPut op bytes
  | _ => s)

/-! ### RSIG -/

/-- `RSIG` (11 R261). -/
def execRsig (x : XForm) (s : State) : Out :=
  let i := begin_ (.rsig x) s
  let g := i.g
  let v := recView (g.breg (immRec x))
  let word := uniVal g x x.c 1
  if i.run = 0#32 then i.out
  else if i.writeBarred then (i.fault i.run { cause := 0x02#8 }).out
  else match i.uniPoison [(x.b, 1), (x.c, 1), (x.d, 1)], i.s.recFault i.n v (immRec x) false true [3] with
    | some f, _ => (i.faultAll f).out
    | _, some f => (i.faultAll f).out
    | none, none =>
      let off := field word 0 20
      if field word 20 12 = 0 ∨ off % 16 ≠ 0 then (i.faultAll { cause := 0x07#8 }).out
      else (i.modS fun s => s.startOp (i.newOp
        (.rsig v.peer (field word 20 12) (uniVal g x x.b 1) off (BitVec.ofNat 32 (uniVal g x x.d 1))))).out

/-- A signal follows every earlier `RPUT` of its group to its peer (11 R262). -/
def State.sigBlocked (s : State) (op peer : Nat) : Bool :=
  s.ops.any fun kv => decide (kv.1 < op) && kv.2.group == (s.opOf op).group &&
    (match kv.2.kind with
      | .rput p _ _ _ _ _ => p == peer
      | _ => false)

/-- A refused signal is reported as an asynchronous failure (11 R262). -/
def State.refuseSig (s : State) (op : Nat) : State :=
  let o := s.opOf op
  let f : AsyncFail := ⟨o.group, o.team, o.launch, o.gid, o.op, 0x0A#8⟩
  ({ s with fails := s.fails ++ [f] }).endOp op

/-- The peer acknowledges a signal. -/
def execRsigAck (op : Nat) (applied : Bool) (s : State) : Out :=
  .next (match (s.opOf op).kind with
  | .rsig peer _ _ _ _ =>
    if peer = s.fw.deviceId ∨ s.sigBlocked op peer then s
    else if applied then s.endOp op else s.refuseSig op
  | _ => s)

/-- The launch to which a port is bound, while it runs (11 R261). -/
def State.portLaunch (s : State) (port : Nat) : Option Nat :=
  (s.launches.find? fun kv => (kv.2.life == .running || (kv.2.life == .placing && decide (0 < kv.2.placed))) &&
    kv.2.r.port == port && port != 0).map (·.1)

/-- The fate of a signal here (11 R262). -/
inductive SigFate where
  | refuse
  | wait
  | apply (team : Nat)

def State.sigFate (s : State) (port team off : Nat) : SigFate :=
  match s.portLaunch port with
  | none => .refuse
  | some l =>
    match s.teams.find? fun (kv : Nat × Team) => kv.2.launch == l && kv.2.number == team with
    | none => .refuse
    | some (tn, t) =>
      if off % 16 ≠ 0 ∨ t.ssize < off + 16 then .refuse
      else match t.life with
        | .resident => if (t.scrAbsent off 16).isEmpty then .apply tn else .wait
        | .saved => if t.held.length < 4096 then .apply tn else .refuse
        | .discarded => if t.held.length < 4096 then .apply tn else .refuse
        | _ => .refuse

/-- A saved team holds the signal of an operation (11 R262; 15 R382). -/
def State.sigHeld (s : State) (op : Nat) : Bool := s.teams.any fun kv => kv.2.held.any fun h => h.op == some op

/-- A signal arrives at a team of this device, from a peer (`none`) or from its own `RSIG` (11 R262). -/
def execRsigArrival (op : Option Nat) (port team off : Nat) (count : Word) (s : State) : Out :=
  let mine := match op with
    | none => true
    | some k => (s.opOf k).kind == .rsig s.fw.deviceId port team off count && !s.sigBlocked k s.fw.deviceId &&
        !s.sigHeld k
  .next (if !mine then s
  else match s.sigFate port team off with
    | .refuse => match op with
      | none => s
      | some k => s.refuseSig k
    | .wait => if op.isNone then s.holdIn (.signal port team off count) else s
    | .apply tn =>
      let s := s.modTeam tn fun t => t.credit off count.toNat op false
      -- a signal that a saved team holds stays outstanding until it is applied
      let s := match op with
        | none => s
        | some k => if s.sigHeld k then s else s.endOp k
      s.wakeTeam tn)

/-! ### Collectives: the descriptor -/

/-- Bytes of an element (11 R267). -/
def CollOp.elem (c : CollOp) : Nat := if 2 ≤ c.kind then 1 else if c.rtype = 1 then 2 else 4

/-- Source and destination bytes of this rank (11 Table 11.4). -/
def CollOp.srcLen (c : CollOp) : Nat :=
  if c.kind = 1 ∨ c.kind = 4 then c.nranks * c.count * c.elem else c.count * c.elem
def CollOp.dstLen (c : CollOp) : Nat :=
  if c.kind = 2 ∨ c.kind = 4 then c.nranks * c.count else c.count * c.elem

/-- The collective of a descriptor and roster; offsets stand for addresses until `rebase`. -/
def collOf (bs roster : List Byte) (nbv : Nat) : CollOp :=
  let n := fun (off k : Nat) => ofBytes ((bs.drop off).take k)
  let ctrl := n 0 4
  { kind := field ctrl 0 4, rtype := field ctrl 4 4, rop := field ctrl 8 4, canon := field ctrl 12 1 == 1,
    rank := n 4 4, nranks := n 8 4, root := n 0x0C 4, count := n 0x10 8, src := n 0x18 8, dst := n 0x20 8,
    roster := (List.range (n 8 4)).map fun k => ofBytes ((roster.drop (4 * k)).take 4)
    start := n 0x30 8, wait := n 0x38 4, cid := n 0x3C 2, nbv := nbv, joined := some [], late := false,
    mismatch := false, absent := false, lost := false, moved := false }

/-- A nonzero reserved field or an invalid code (11 R265). -/
def collBad (bs : List Byte) (c : CollOp) (self : Nat) (known : Nat → Bool) : Bool :=
  let n := fun (off k : Nat) => ofBytes ((bs.drop off).take k)
  field (n 0 4) 13 19 != 0 || n 0x3E 2 != 0 || decide (4 < c.kind) || decide (1 < c.rtype) ||
    decide (2 < c.rop) || (decide (2 ≤ c.kind) && (c.rtype != 0 || c.rop != 0)) ||
    decide (c.nranks ≤ c.rank) || (if c.kind = 3 then decide (c.nranks ≤ c.root) else c.root != 0) ||
    (decide (2 ≤ c.kind) && c.count % 4 != 0) || c.roster.any (fun r => decide (2 ^ 11 ≤ r)) ||
    c.roster.eraseDups.length != c.roster.length || c.roster.getD c.rank (2 ^ 11) != self ||
    c.roster.any fun r => !known r

/-- Source and destination overlap as they must not (11 R265). -/
def collClash (c : CollOp) (src dst : Nat) : Bool :=
  let meet := decide (0 < c.srcLen) && decide (0 < c.dstLen) && decide (src < dst + c.dstLen) &&
    decide (dst < src + c.srcLen)
  meet && !((c.kind == 0 || c.kind == 3) && src == dst && c.srcLen == c.dstLen)

/-- Another outstanding collective of this device with the same id and roster. -/
def State.collDouble (s : State) (c : CollOp) : Bool :=
  s.ops.any fun kv => match kv.2.kind with
    | .coll d => d.cid == c.cid && d.roster == c.roster
    | _ => false

/-- `COLL` (11 R263 to R265). -/
def execColl (x : XForm) (s : State) : Out :=
  let i := begin_ (.coll x) s
  let g := i.g
  let l := i.s.launchOf i.n
  let kIdx := immRec x
  let dIdx := bits x.imm 9 5
  let kv := recView (g.breg kIdx)
  let sv := recView (g.breg (auxRec x))
  let dv := recView (g.breg dIdx)
  let stop := fun (c : BitVec 8) (idx : Nat) =>
    (i.faultAll { cause := c, recIdx := some (BitVec.ofNat 5 idx) }).out
  if i.run = 0#32 then i.out
  else if i.writeBarred then (i.fault i.run { cause := 0x02#8 }).out
  else match i.uniPoison [(x.b, 1)], i.s.recFault i.n kv kIdx true false [0],
      i.s.recFault i.n sv (auxRec x) true false [0], i.s.recFault i.n dv dIdx false true [0] with
    | some f, _, _, _ => (i.faultAll f).out
    | _, some f, _, _ => (i.faultAll f).out
    | _, _, some f, _ => (i.faultAll f).out
    | _, _, _, some f => (i.faultAll f).out
    | none, none, none, none =>
      let off := uniVal g x x.b 1
      if rowFit kv off 64 < 64 then stop 0x03#8 kIdx
      else if off % 64 ≠ 0 then stop 0x07#8 kIdx
      else match readPieces i.n kv false (pieces (kv.ea off 0) 64) i.s with
        | .held ls => .next (i.parked (.owned ls) s)
        | .flt f => (i.faultAll { f with recIdx := some (BitVec.ofNat 5 kIdx) }).out
        | .ok bs s1 =>
          let ro := ofBytes ((bs.drop 0x28).take 8)
          let p := ofBytes ((bs.drop 8).take 4)
          if kv.extentX < ro + 4 * p then stop 0x03#8 kIdx
          else if ro % 4 ≠ 0 then stop 0x07#8 kIdx
          else if p = 0 ∨ 1152 < p then stop 0x12#8 kIdx
          else match readPieces i.n kv false (pieces (kv.ea ro 0) (4 * p)) s1 with
            | .held ls => .next (i.parked (.owned ls) s)
            | .flt f => (i.faultAll { f with recIdx := some (BitVec.ofNat 5 kIdx) }).out
            | .ok ros s2 =>
              let c := collOf bs ros (field g.nbv.toNat 0 8)
              let src := sv.base + c.src
              let dst := dv.base + c.dst
              if collBad bs c i.s.fw.deviceId (fun r => (i.s.peerAsid l.owner l.asid r).isSome) then
                stop 0x12#8 kIdx
              else if collClash c src dst then stop 0x12#8 kIdx
              else if rowFit sv c.src c.srcLen < c.srcLen then stop 0x03#8 (auxRec x)
              else if rowFit dv c.dst c.dstLen < c.dstLen then stop 0x03#8 dIdx
              else if i.s.collDouble c then stop 0x0A#8 kIdx
              else
                let c := { c with src := src, dst := dst
                                  late := c.start != 0 && decide (c.start < s2.time.toNat) }
                let op := s2.serial
                let o : AsyncOp := { i.newOp (.coll c) with dst := x.a }
                ({ i with s := s2, kind := .coll op }.modS fun s =>
                  (s.startOp o).claimFor op (linkView 0 0x7FF) ((List.range c.dstLen).map (dst + ·)) []).out

/-! ### Collectives: joining and ending -/

/-- The ranks that have joined, this one not counted. -/
def CollOp.others (c : CollOp) : List CollRank := c.joined.getD []
def CollOp.allJoined (c : CollOp) : Bool := c.others.length + 1 == c.nranks
/-- Some rank's descriptor, roster or NBV differs (11 R266). -/
def CollOp.differs (c : CollOp) : Bool :=
  c.others.any fun r => !(r.kind == c.kind && r.rtype == c.rtype && r.rop == c.rop && r.canon == c.canon &&
    r.count == c.count && r.root == c.root && r.nranks == c.nranks && r.roster == c.roster && r.nbv == c.nbv)
/-- Data may move: every rank has joined, all agree, and START has come, which no device time before
the first lock does (13 R308). -/
def CollOp.mayMove (c : CollOp) (locked : Bool) (time : BitVec 64) : Bool :=
  c.allJoined && !c.differs && (c.start == 0 || (locked && decide (c.start ≤ time.toNat)))

def State.modColl (s : State) (op : Nat) (f : CollOp → CollOp) : State :=
  s.modOp op fun o => match o.kind with
    | .coll c => { o with kind := .coll (f c) }
    | _ => o

/-- Other ranks join (11 R266). -/
def execCollJoin (op : Nat) (others : List CollRank) (s : State) : Out :=
  .next (match (s.opOf op).kind with
  | .coll _ => s.modColl op fun c =>
    let new := others.foldl (fun (acc : List CollRank) r =>
      if r.rank = c.rank ∨ c.nranks ≤ r.rank ∨ acc.any (fun q => q.rank == r.rank) then acc else acc ++ [r])
      c.others
    { c with joined := some new
             late := c.late || (decide (c.others.length < new.length) && c.start != 0 &&
               decide (c.start < s.time.toNat)) }
  | _ => s)

/-- START comes: data begins to move once every rank has joined. -/
def execCollStartTime (op : Nat) (s : State) : Out :=
  .next (match (s.opOf op).kind with
  | .coll c => if c.mayMove s.locked s.time then s.modColl op fun c => { c with moved := true } else s
  | _ => s)

/-- The status word (11 Table 11.5). -/
def CollOp.statusWord (c : CollOp) (poison : Bool) : Nat :=
  let joined := c.others.length + 1
  2 ^ 31 + (if c.mismatch || c.absent || c.lost || poison then 2 ^ 30 else 0) +
    (if c.late then 2 ^ 29 else 0) + (if c.mismatch then 2 ^ 28 else 0) + (if c.absent then 2 ^ 27 else 0) +
    (if c.lost then 2 ^ 26 else 0) + (if poison then 2 ^ 25 else 0) +
    (if 65534 < joined then 0xFFFF else joined)

/-- The cause that an unread status reports (15 R386). -/
def collCause (st : Nat) : BitVec 8 :=
  if st.testBit 28 then 0x12#8 else if st.testBit 27 then 0x0A#8 else if st.testBit 26 then 0x02#8
  else 0x04#8

/-- In replay the status is another entry's turn still (16 R402). -/
def State.collWaits (s : State) (n : Nat) (pc : VAddr) : Bool :=
  let g := s.grp n
  let mine := fun (e : LogEnt) => e.kind == 8 && e.pc == pc.toNat
  (s.launchOf n).r.logMode == 2 && (match s.nextEntry n with
    | some e => !mine e && (s.teamEntries g.team).any fun e =>
        e.gid == g.gid && !(s.team g.team).consumed e && mine e
    | none => false)

/-- The collective ends here: its lines are released, then its status is written, in the saved registers
of a team that is away too (11 R269, R271). -/
def State.endColl (s : State) (op : Nat) (poison : Bool) (flags : Flags) : State :=
  let o := s.opOf op
  match o.kind with
  | .coll c =>
    let s := s.releaseAll op
    match s.deliver o.group 8 o.pc (toBytes 4 (c.statusWord poison)) (fun _ => true) with
    | .ended s => (s.endOp op).afterRelease
    | .use p s =>
      let st := ofBytes (p.take 4)
      let s := s.modGrp o.group fun g =>
        ((g.writeDst o.dst 1 0 st).raiseFlags flags).unlock fun k => k.kind == .coll op
      let s := if st.testBit 30 && !(s.grp o.group).live then
          { s with fails := s.fails ++ [⟨o.group, o.team, o.launch, o.gid, o.op, collCause st⟩] }
        else s
      (s.endOp op).afterRelease
  | _ => s

/-- WAIT expires before every rank has joined (11 R266). -/
def execCollWaitExpiry (op : Nat) (s : State) : Out :=
  let o := s.opOf op
  .next (match o.kind with
  | .coll c =>
    if c.wait = 0 ∨ c.allJoined ∨ s.time.toNat < o.at_.toNat + 1000 * c.wait ∨ s.collWaits o.group o.pc then s
    else (s.modColl op fun c => { c with absent := true }).endColl op false 0#8
  | _ => s)

/-! ### Collectives: values -/

/-- One reducing step on FP32 codes: every addition is RNE, FTZ is ignored (11 R268; 04 R93). -/
def collStep (rop : Nat) (a b : Nat × Flags) : Nat × Flags :=
  let r := match rop with
    | 0 => fpAdd fp32 .rne false a.1 b.1
    | 1 => fpMinMax fp32 false false a.1 b.1
    | _ => fpMinMax fp32 true false a.1 b.1
  (r.1, r.2 ||| a.2 ||| b.2)

/-- One round of the canonical tree: neighbours pair up (04 R93). -/
def treeRound (rop : Nat) : List (Nat × Flags) → List (Nat × Flags)
  | a :: b :: r => collStep rop a b :: treeRound rop r
  | l => l

/-- The canonical tree; eleven rounds join 1,152 values. -/
def canonTree (rop : Nat) (l : List (Nat × Flags)) : Nat × Flags :=
  ((List.range 11).foldl (fun l _ => treeRound rop l) l).headD (0, 0#8)

/-- The values that a list of merges leaves, by rank; none where it is no order of them all. -/
def mergeBy (rop : Nat) : List Nat → Sp (Nat × Flags) → Option (Nat × Flags)
  | i :: j :: r, m =>
    match Sp.get? m i, Sp.get? m j with
    | some a, some b => if i = j then none else mergeBy rop r (Sp.put (Sp.del m j) i (collStep rop a b))
    | _, _ => none
  | _, [(_, a)] => some a
  | _, _ => none

/-- Reduce one element over the ranks: the canonical tree, or the placement's order (11 R268). -/
def CollOp.reduce (c : CollOp) (e : Nat) (vals : List Nat) : Nat × Flags :=
  let vs := vals.map fun v => (v, (0#8 : Flags))
  let r := if c.nbv = 1 ∨ c.canon then canonTree c.rop vs
    else (mergeBy c.rop (Config.collOrder (e :: c.count :: c.roster))
      ((List.range vs.length).zip vs)).getD (canonTree c.rop vs)
  -- NaN results are canonical; a BF16 result is rounded once
  if c.rtype = 1 then
    let q := roundVal bf16 .rne (fdecode fp32 r.1)
    (q.1, q.2 ||| r.2)
  else ((if (fdecode fp32 r.1).isNan then fp32.nanCode else r.1), r.2)

/-- The bytes and the poisoned 4-byte units that each rank sends. -/
abbrev RankData := Nat → List Byte × List Nat

/-- An element's code as FP32. -/
def CollOp.wide (c : CollOp) (d : List Byte) (e : Nat) : Nat :=
  let v := ofBytes ((d.drop (c.elem * e)).take c.elem)
  if c.rtype = 1 then v * 2 ^ 16 else v

/-- Flags of every addition on every device (11 R268). -/
def CollOp.allFlags (c : CollOp) (d : RankData) : Flags :=
  if 2 ≤ c.kind then 0#8
  else (List.range (c.srcLen / c.elem)).foldl (fun f e =>
    f ||| (c.reduce e ((List.range c.nranks).map fun k => c.wide (d k).1 e)).2) 0#8

/-- Destination bytes with their poison (11 Table 11.4). -/
def CollOp.result (c : CollOp) (d : RankData) : List (Byte × Bool) :=
  let byte := fun (k at_ : Nat) => ((d k).1.getD at_ 0#8, (d k).2.contains (at_ / 4))
  let n := c.count
  match c.kind with
  | 2 => (List.range (c.nranks * n)).map fun i => byte (i / n) (i % n)
  | 3 => (List.range n).map fun i => byte c.root i
  | 4 => (List.range (c.nranks * n)).map fun i => byte (i / n) (c.rank * n + i % n)
  | _ =>
    let from_ := if c.kind = 1 then c.rank * n else 0
    (List.range n).flatMap fun i =>
      let e := from_ + i
      let r := c.reduce e ((List.range c.nranks).map fun k => c.wide (d k).1 e)
      let bad := (List.range c.nranks).any fun k => (d k).2.contains (c.elem * e / 4)
      (toBytes c.elem r.1).map fun b => (b, bad)

/-- What this rank sends, read as the engine reads it; unreadable bytes are poison. -/
def ownData (q : Source) (src n : Nat) : List Byte × List Nat :=
  ((List.range n).map fun k => if Sp.has q.fails (lineOf (src + k)) then 0#8 else Sp.get 0#8 q.bytes (src + k),
    ((List.range ((n + 3) / 4)).filter fun u => q.cause (src + 4 * u) != 0#8 ||
      q.cause (src + min (4 * u + 3) (n - 1)) != 0#8))

/-- The collective engine ends a collective (11 R266 to R270). -/
def execCollDone (op : Nat) (s : State) : Out :=
  let o := s.opOf op
  .next (match o.kind with
  | .coll c =>
    if s.collWaits o.group o.pc then s
    else if c.allJoined && c.differs then
      (s.modColl op fun c => { c with mismatch := true }).endColl op false 0#8
    else if !(c.lost && !c.moved) && !c.mayMove s.locked s.time then s
    else if c.lost && !c.moved then s.endColl op false 0#8
    else
      let v := linkView 0 0x7FF
      let reads := c.kind != 3 || c.rank == c.root
      let q := if reads then s.readSource op o v (rangeLines c.src c.srcLen) else (⟨[], [], [], [], false⟩, s)
      if q.1.held then s
      else if !q.1.absent.isEmpty then s.queuePages op q.1.absent
      else
        let s := q.2
        let mine := ownData q.1 c.src c.srcLen
        let d : RankData := fun k =>
          if k = c.rank then mine
          else match c.others.find? fun r => r.rank == k with
            | some r => (r.bytes, r.bad)
            | none => ([], [])
        let res := c.result d
        let ps : List Put := ((List.range res.length).zip res).map fun p =>
          { va := c.dst + p.1, sh := 0, w := 8, val := p.2.1.toNat, bad := p.2.2, at_ := p.1 }
        let absent := s.absentDest o v ps
        if !absent.isEmpty then s.queuePages op absent
        else if s.destHeld op v ps then s
        else
          -- after a loss each 4-byte unit holds its old value or the new one (11 R270)
          let kept := if c.lost then
              (List.range ((res.length + 3) / 4)).foldl (fun (a : List Nat × State) (u : Nat) =>
                let k := a.2.choose 2
                (if k.1 = 1 then u :: a.1 else a.1, k.2)) ([], s)
            else ([], s)
          let ps := ps.filter fun p => !kept.1.contains (p.at_ / 4)
          let s := (kept.2.putAll op v ps).cleanLines o v ps
          s.endColl op (ps.any (·.bad)) (c.allFlags d)
  | _ => s)

end Sys2Proof.Machine
end

