-- ==== Sys2Proof/Machine/Refine.lean ====
section
/-! DEFINITION. The refinement controller (07): arrivals, the start of a run, calls, the test and the
exits, the exact accumulator, and the four instructions of the family. -/

namespace Sys2Proof.Machine

open Sys2Proof

/-! ### The command block (07 Tables 7.1 to 7.3) -/

/-- A control field of the snapshot. -/
def blkNum (b : Sp Byte) (off n : Nat) : Nat := ofBytes (Sp.read 0#8 b off n)

/-- Offsets of the entry words. -/
def offFactor (level : Nat) : Nat := 8 * level
def offSolve (level : Nat) : Nat := 0x20 + 8 * level
def offResid : Nat := 0x40
def offUpdate : Nat := 0x48

def blkEntry (b : Sp Byte) (off : Nat) : Nat := blkNum b off 8
/-- V of an entry word (07 Table 7.2). -/
def entryOn (w : Nat) : Bool := field w 63 1 == 1
def blkHas (b : Sp Byte) (off : Nat) : Bool := entryOn (blkEntry b off)
def blkTol (b : Sp Byte) : Nat := blkNum b 0x50 8
def blkBnorm (b : Sp Byte) : Nat := blkNum b 0x58 8
def blkRhos (b : Sp Byte) : Nat := blkNum b 0x60 8
def blkRhod (b : Sp Byte) : Nat := blkNum b 0x68 8
def blkTimebox (b : Sp Byte) : Nat := blkNum b 0x70 8
def blkPolicy (b : Sp Byte) : Nat := blkNum b 0x78 4
def blkItlim (b : Sp Byte) : Nat := blkNum b 0x7C 4
def blkStagk (b : Sp Byte) : Nat := field (blkPolicy b) 16 8
def blkLstart (b : Sp Byte) : Nat := field (blkPolicy b) 8 2
def blkRel (b : Sp Byte) : Bool := field (blkPolicy b) 3 1 == 1
def blkTlim (b : Sp Byte) : Bool := field (blkPolicy b) 2 1 == 1
def blkTdiv (b : Sp Byte) : Bool := field (blkPolicy b) 1 1 == 1
def blkEsc (b : Sp Byte) : Bool := field (blkPolicy b) 0 1 == 1

/-- NL, the number of levels (07 R154). -/
def blkLevels (b : Sp Byte) : Nat := ((List.range 4).filter fun l => blkHas b (offSolve l)).length

/-- Offsets of the entries that are present. -/
def blkEntries (b : Sp Byte) : List Nat :=
  ((List.range 10).map (8 * ·)).filter (blkHas b)

/-- The address of an entry: OFF words from the program entry. -/
def entryAt (l : LaunchRec) (w : Nat) : Int := (l.entry : Int) + 4 * signed 32 (field w 0 32)
def entryPc (l : LaunchRec) (w : Nat) : VAddr := BitVec.ofInt 57 (entryAt l w)
def entryPrio (w : Nat) : Prio := BitVec.ofNat 12 (field w 32 12)

/-- A finite FP64 value that is at least zero, or above it. -/
def fp64Ok (x : Nat) (positive : Bool) : Bool :=
  match fdecode fp64 x with
  | .fin n m _ => m == 0 && !positive || (m != 0 && !n)
  | _ => false

/-- The fields themselves are refused (07 R154), apart from where the entries lie. -/
def blkBad (b : Sp Byte) : Bool :=
  (blkEntries b).any (fun o => field (blkEntry b o) 44 19 != 0) ||
    (((List.range 10).map (8 * ·)).any fun o => !blkHas b o && field (blkEntry b o) 44 19 != 0) ||
    field (blkPolicy b) 24 8 != 0 || field (blkPolicy b) 10 6 != 0 || field (blkPolicy b) 4 4 != 0 ||
    blkNum b 0x80 64 != 0 ||
    !blkHas b (offSolve 0) || ((List.range 4).any fun l => blkHas b (offSolve l) && decide (blkLevels b ≤ l)) ||
    ((List.range 4).any fun l => blkHas b (offFactor l) && !blkHas b (offSolve l)) ||
    !blkHas b offResid || !blkHas b offUpdate ||
    !fp64Ok (blkTol b) false || !fp64Ok (blkRhos b) true || !fp64Ok (blkRhod b) true ||
    (blkRel b && !fp64Ok (blkBnorm b) false) ||
    blkStagk b == 0 || blkItlim b == 0 || !decide (blkLstart b < blkLevels b)

/-- Where an entry PC lies: in the launch's code, outside it, or on a page that is not present. -/
inductive CodeAt where
  | code
  | outside
  | absent (page : Nat)
  deriving DecidableEq, Repr

def State.codeAt (s : State) (asid : Nat) (pc : Int) : CodeAt :=
  if pc < 0 ∨ 2 ^ 57 ≤ pc then .outside
  else
    match s.walk asid pc.toNat with
    | .leaf lf => if lf.mig then .absent (pc.toNat / 2 ^ 17) else if lf.x && !lf.w then .code else .outside
    | .notPresent => .absent (pc.toNat / 2 ^ 17)
    | _ => .outside

/-- The threshold (07 R154). -/
def blkThr (b : Sp Byte) : Nat :=
  if blkRel b then (fpMul fp64 .rne false (blkTol b) (blkBnorm b)).1 else blkTol b

/-! ### The state fields (07 R160) -/

def State.rlPut (s : State) (tn off n x : Nat) : State :=
  match (s.team tn).run with
  | none => s
  | some r => s.modTeam tn fun t => t.scrWrite (r.addr + off) (toBytes n x) false

/-- STATUS: escalations, stagnation run, STEP and level. -/
def RlRun.status (r : RlRun) : Nat :=
  (r.escs % 256) * 2 ^ 24 + (r.stag % 256) * 2 ^ 16 + r.step * 256 + r.level

def State.rlStatus (s : State) (tn : Nat) : State :=
  match (s.team tn).run with
  | none => s
  | some r => (s.rlPut tn 0xC0 4 r.iter).rlPut tn 0xC4 4 r.status

def State.modRun (s : State) (tn : Nat) (f : RlRun → RlRun) : State :=
  s.modTeam tn fun t => { t with run := t.run.map f }

/-! ### Groups of a run -/

/-- The declared groups of a team that have not ended. -/
def State.declared (s : State) (tn : Nat) : List Nat :=
  (((s.team tn).groups.filter fun kv => decide (kv.1 < 32)).map (·.2)).filter fun n => (s.grp n).live

/-- Call lanes of a group in the present or coming run. -/
def Group.callLanes (g : Group) : Mask := orMasks (·.mask) (g.rl.filter fun c => !c.later)

/-- Every declared group that has not exited has arrived (07 R157). -/
def State.rlReady (s : State) (tn : Nat) : Bool :=
  let t := s.team tn
  t.run.isNone && (t.life == .resident) && !(s.declared tn).isEmpty && !t.halted && !t.stopping &&
    (s.declared tn).all fun n => (s.grp n).rlArrived

/-- A team with timed groups. -/
def State.timedTeam (s : State) (tn : Nat) : Bool :=
  (s.declared tn).any fun n => (s.grp n).cls == .timed

/-- When the last group of a team arrived. -/
def State.rlLast (s : State) (tn : Nat) : Nat := maxOf ((s.declared tn).map fun n => (s.grp n).rlOrder)

/-- The team that a free controller serves: timed groups first, then the earliest last arrival (07
R164). -/
def State.rlNext (s : State) (c : Nat) : Option Nat :=
  let ready := (s.teams.filter fun kv => kv.2.core == c && s.rlReady kv.1).map (·.1)
  ready.foldl (fun best k =>
    match best with
    | none => some k
    | some b =>
      let tk := s.timedTeam k
      let tb := s.timedTeam b
      if (tk && !tb) || (tk == tb && decide (s.rlLast k < s.rlLast b)) then some k else some b) none

/-- The call lanes of a run leave it: lanes that came early for the next run stay, with what was noted for them, and
no interlock stands any more on the destinations of the others (03 R56). -/
def Group.leaveRun (g : Group) : Group :=
  let early := orMasks (·.mask) (g.rl.filter (·.later))
  { g.unlock fun k => k.kind == .run && k.mask &&& early == 0#32 with
    rl := g.rl.filter (·.later), rlIn := 0#32, rlGone := 0#32
    rlDepth := g.rlDepth.filter fun kv => early.getLsbD kv.1 }

/-- Call lanes that an exception takes at their `RLRUN`; lanes that are in trap mode meanwhile keep
their record and take the position after it (12 R420). Where no run has started their group has not arrived any more,
while one that arrived without call lanes has (log entry 38). -/
def State.rlFault (s : State) (tn : Nat) (cause : BitVec 8) (aux : Word) (vline : BitVec 64) : State :=
  (s.declared tn).foldl (fun s n =>
    let mine := (s.grp n).rl.filter fun c => !c.later
    let s := s.modGrp n fun g =>
      { g.leaveRun with
        rlArrived := g.rlArrived && mine.isEmpty
        rlOrder := if mine.isEmpty || g.rl.any (·.later) then g.rlOrder else 0 }
    let s := mine.foldl (fun s c =>
      let s := s.modGrp n fun g => g.noteRelease (c.mask &&& c.away) c.next c.prio
      s.takeTrap n
        { cause := cause, mixed := false, async := false, done := false, op := 0x78#8,
          mask := c.mask &&& ~~~c.away, pc := c.pc, vline := vline, prio := c.prio, recIdx := none,
          aux := aux } []) s
    s.settle n) s

/-- The arrivals of a run are used up; lanes that came early arrive for the next one (07 R157). -/
def State.rlReset (s : State) (tn : Nat) : State :=
  (s.declared tn).foldl (fun s n => s.modGrp n fun g => { g with rlArrived := false, rlOrder := 0 }) s

def State.rlFree (s : State) (tn : Nat) : State :=
  s.modCore (s.team tn).core fun c => { c with rlHolder := if c.rlHolder = some tn then none else c.rlHolder }

/-- After a run, or a run that did not start: early lanes become call lanes of the next run. -/
def State.rlTurn (s : State) (tn : Nat) : State :=
  (s.declared tn).foldl (fun s n =>
    s.modGrp n fun g =>
      if g.rl.any (·.later) then
        { g with rl := g.rl.map fun c => { c with later := false }, rlArrived := true }
      else g) s

/-! ### Calls (07 R158) -/

/-- Send the call lanes to an entry. -/
def State.rlCall (s : State) (tn step off : Nat) : State :=
  let s := (s.modRun tn fun r =>
    { r with step := step, acc := if step = 2 then 0 else r.acc,
             accNan := r.accNan && step != 2, accInf := r.accInf && step != 2 }).rlStatus tn
  match (s.team tn).run with
  | none => s
  | some r =>
    let w := blkEntry r.block off
    let pc := entryPc (s.launch (s.team tn).launch).r w
    let prio := entryPrio w
    (s.declared tn).foldl (fun s n =>
      (s.modGrp n fun g =>
        let away := orMasks (·.away) (g.rl.filter fun c => !c.later)
        let m := g.callLanes
        ({ g with
          rlIn := m
          rl := g.rl.map fun (c : RlPark) => if c.later then c else { c with away := 0#32 } }).release m away pc prio).settleGroup n) s

/-! ### The test (07 R156) -/

/-- The norm: the square root of the exact sum, rounded to FP64 once. -/
def RlRun.resid (r : RlRun) : DWord :=
  BitVec.ofNat 64 (if r.accNan then fp64.nanCode
    else if r.accInf then fp64.infCode false
    else if r.acc = 0 then 0
    else
      let q := sqrtBits (r.acc * 2 ^ 128)
      (roundMag fp64 .rne false q.1 (-1138) q.2).1)

/-- FP64 comparisons of values that are not NaN. -/
def gt64 (a b : Nat) : Bool := cmpVal (fdecode fp64 a) (fdecode fp64 b) == .gt

/-- A device-time check, or the end of a replay. -/
inductive Boxed where
  | is (past : Bool) (s : State)
  | ended (s : State)

/-- `TIMEBOX != 0 and time() >= TIMEBOX`, which no device time meets before the first lock (01 R16); the snapshot is a
logged source, in the stream of the team's lowest group of the run. -/
def State.rlBoxed (s : State) (tn : Nat) (b : Sp Byte) : Boxed :=
  if blkTimebox b = 0 then .is false s
  else
    let n := ((s.declared tn).find? fun n => (s.grp n).callLanes != 0#32).getD ((s.declared tn).headD 0)
    let pc := match (s.grp n).rl.head? with
      | some c => c.pc
      | none => 0#57
    match s.deliverTime n 2 pc with
    | .ended s => .ended s
    | .use p s => .is (s.locked && decide (blkTimebox b ≤ ofBytes (p.take 8))) s

/-- What the test answers: an exit code or none to continue, and the stagnation run. -/
inductive Tested where
  | is (exit : Option Nat) (stag : Nat) (s : State)
  | ended (s : State)

def exitConverged : Nat := 0
def exitStagnated : Nat := 1
def exitDiverged : Nat := 2
def exitLimit : Nat := 3
def exitTimebox : Nat := 4
def exitAborted : Nat := 5
def exitFault : Nat := 6

/-- The conditions of the test in their fixed order. -/
def State.rlTest (s : State) (tn : Nat) (r : RlRun) : Tested :=
  let norm := r.norm.toNat
  let ratio := match r.prev with
    | some p => some (fpDiv fp64 .rne false norm p.toNat).1
    | none => none
  let above := fun (lim : Nat) => match ratio with
    | some q => gt64 q lim
    | none => false
  let bad := match fdecode fp64 norm with
    | .fin _ _ _ => false
    | _ => true
  if bad || above (blkRhod r.block) then .is (some exitDiverged) r.stag s
  else if !gt64 norm (blkThr r.block) then .is (some exitConverged) r.stag s
  else
    let stag := match ratio with
      | some _ => if above (blkRhos r.block) then r.stag + 1 else 0
      | none => r.stag
    if ratio.isSome && decide (blkStagk r.block ≤ stag) then .is (some exitStagnated) stag s
    else if blkItlim r.block ≤ r.iter then .is (some exitLimit) stag s
    else match s.rlBoxed tn r.block with
      | .ended s => .ended s
      | .is past s => .is (if past then some exitTimebox else none) stag s

/-- The exit word (07 R162). -/
def RlRun.exitWord (r : RlRun) (code : Nat) : Nat := min r.iter 0xFFFF * 2 ^ 16 + r.level * 256 + code

/-- The end of a run (07 R158 to R162). -/
def State.rlEnd (s : State) (tn code : Nat) : State :=
  match (s.team tn).run with
  | none => s
  | some r =>
    let w := r.exitWord code
    let s := (s.modRun tn fun r => { r with step := 0 }).rlStatus tn
    let s := (s.rlPut tn 0xD8 4 w).rlPut tn 0xE8 8 s.time.toNat
    let s := s.boundary (s.team tn).core
    let s := (s.modTeam tn fun t => { t with run := none }).rlFree tn
    let traps := (code == exitDiverged && blkTdiv r.block) || (code == exitLimit && blkTlim r.block)
    let s := if traps then s.rlFault tn 0x10#8 (BitVec.ofNat 32 w) 0#64
      else (s.declared tn).foldl (fun s n =>
        let mine := (s.grp n).rl.filter fun c => !c.later
        let s := s.modGrp n fun g =>
          let g := g.leaveRun
          mine.foldl (fun g c =>
            let g := g.writeDst c.dst 1 0 w
            let g := g.noteRelease (c.mask &&& c.away) c.next c.prio
            g.arrive c.next c.prio (c.mask &&& ~~~c.away) false c.pc) g
        s.settle n) s
    s.rlTurn tn

/-- What follows a test that answered (07 R156). Where the time-box check of an escalation ends a replay the step is
undone, to be made when the debugger resumes the team. -/
def State.rlAfterTest (s : State) (tn : Nat) (before : RlRun) (exit : Option Nat) : State :=
  match (s.team tn).run with
  | none => s
  | some r =>
    match exit with
    | none => s.rlCall tn 3 (offSolve r.level)
    | some e =>
      if e = exitStagnated ∧ blkEsc r.block ∧ r.level + 1 < blkLevels r.block then
        match s.rlBoxed tn r.block with
        | .ended s => s.modRun tn fun _ => before
        | .is true s => s.rlEnd tn exitTimebox
        | .is false s =>
          let s := s.modRun tn fun r => { r with level := r.level + 1, escs := r.escs + 1, stag := 0 }
          if blkHas r.block (offFactor (r.level + 1)) then s.rlCall tn 1 (offFactor (r.level + 1))
          else s.rlCall tn 3 (offSolve (r.level + 1))
      else s.rlEnd tn e

/-- The call under way has ended: the next call, the test, or the end (07 R156, R163). -/
def State.rlStep (s : State) (tn : Nat) : State :=
  match (s.team tn).run with
  | none => s
  | some r =>
    if r.faulted then s.rlEnd tn exitFault
    else if r.abort.isSome then s.rlEnd tn exitAborted
    else match r.step with
      | 1 => if r.escs = 0 then s.rlCall tn 2 offResid else s.rlCall tn 3 (offSolve r.level)
      | 3 => s.rlCall tn 4 offUpdate
      | 4 => (s.modRun tn fun r => { r with prev := some r.norm }).rlCall tn 2 offResid
      | _ =>
        let q := { r with norm := r.resid, iter := if r.prev.isSome then r.iter + 1 else r.iter }
        match s.rlTest tn q with
        | .ended s => s
        | .is exit stag s =>
          let s := s.modRun tn fun _ => { q with stag := stag }
          let s := s.rlPut tn 0xC8 8 q.norm.toNat
          let s := s.rlPut tn 0xD0 8 (match q.prev with
            | some p => p.toNat
            | none => fp64.nanCode)
          s.rlAfterTest tn r exit

/-! ### The start of a run (07 R154, R157) -/

/-- The call lanes that wait for a run of a team. -/
def State.rlParks (s : State) (tn : Nat) : List RlPark :=
  (s.declared tn).flatMap fun n => (s.grp n).rl.filter fun c => !c.later

/-- The control fields that a run would take. -/
def Team.rlBlock (t : Team) (addr : Nat) : Sp Byte := Sp.write 0#8 [] 0 (t.scrBytes addr 192)

/-- Where the entries of a block lie. -/
def State.rlCode (s : State) (tn : Nat) (b : Sp Byte) : List CodeAt :=
  let l := s.launch (s.team tn).launch
  (blkEntries b).map fun o => s.codeAt l.asid (entryAt l.r (blkEntry b o))

/-- Pages of the entries that are not present, where the block is well formed. -/
def State.rlAbsent (s : State) (tn : Nat) : List Nat :=
  match s.rlParks tn with
  | [] => []
  | p :: _ =>
    let b := (s.team tn).rlBlock p.addr
    if blkBad b then []
    else ((s.rlCode tn b).filterMap fun a => match a with
      | .absent page => some page
      | _ => none).eraseDups

/-- Start a run of a team that is ready and may take the controller. Pages of its entries that are not present go to
the fault queue first, unless firmware cannot supply one: `denied`. -/
def State.rlStart (s : State) (tn : Nat) (denied : Option Nat) : State :=
  let t := s.team tn
  let refuse := fun (cause : BitVec 8) (aux : Word) => ((s.rlFault tn cause aux 0#64).rlFree tn).rlTurn tn
  match s.rlParks tn with
  | [] => (((s.boundary t.core).rlReset tn).rlFree tn).rlTurn tn
  | p :: r =>
    let b := t.rlBlock p.addr
    let absent := s.rlAbsent tn
    if r.any fun c => c.addr != p.addr then refuse 0x0A#8 0#32
    else if t.scrPoison p.addr 256 then refuse 0x04#8 0x300#32
    else if !absent.isEmpty && !denied.any absent.contains then
      s.modCore t.core fun c => absent.foldl (fun c page => c.queuePage (s.launch t.launch).asid page) c
    else if blkBad b || (s.rlCode tn b).any (· != .code) then refuse 0x12#8 0#32
    else
      let s := (s.rlReset tn).boundary t.core
      let s := s.modCore t.core fun c => { c with rlHolder := some tn }
      let r : RlRun :=
        { addr := p.addr, block := b, level := blkLstart b, iter := 0, stag := 0, escs := 0, prev := none,
          norm := 0#64, step := 0, acc := 0, accNan := false, accInf := false, abort := none,
          faulted := false }
      let s := s.modTeam tn fun t => { t with run := some r }
      let s := ((s.rlPut tn 0xC0 8 0).rlPut tn 0xC8 8 0).rlPut tn 0xD0 8 fp64.nanCode
      let s := ((s.rlPut tn 0xD8 8 0).rlPut tn 0xE0 8 s.time.toNat).rlPut tn 0xF0 16 0
      if blkHas b (offFactor r.level) then s.rlCall tn 1 (offFactor r.level) else s.rlCall tn 2 offResid

/-- Whether the boundary that a run's point implies can complete now. -/
def State.rlClear (s : State) (tn : Nat) : Bool := (s.boundaryHeld (s.team tn).core).isEmpty

/-- A team may start its run: all have arrived, the controller is the team's or goes to it, and no sector of the
block is absent. -/
def State.rlMayStart (s : State) (tn : Nat) : Bool :=
  let t := s.team tn
  let c := s.core t.core
  s.rlReady tn && s.rlClear tn && (c.rlHolder == some tn || (c.rlHolder.isNone && s.rlNext t.core == some tn)) &&
    (s.rlParks tn).all fun p => (t.scrAbsent p.addr 256).isEmpty

/-- A run can start or queue the pages that it lacks: none of them is in the fault queue, which has room. -/
def State.rlCanStart (s : State) (tn : Nat) : Bool :=
  let t := s.team tn
  let q := (s.core t.core).faultQ
  let absent := s.rlAbsent tn
  s.rlMayStart tn && (absent.isEmpty ||
    (decide (q.length < 256) && !absent.any fun p => q.contains ((s.launch t.launch).asid, p)))

/-- No lane of any group remains in the call under way (07 R158). -/
def State.rlCanStep (s : State) (tn : Nat) : Bool :=
  (s.team tn).run.isSome && (s.team tn).life == .resident && s.rlClear tn && !(s.team tn).halted &&
    (s.declared tn).all fun n => (s.grp n).rlIn == 0#32

/-- The start of a run: every group has arrived and the controller is free. -/
def execRlRunStart (team : Nat) (s : State) : Out :=
  .next (if s.rlCanStart team then s.rlStart team none else s)

/-- A freed controller takes the next waiting team (07 R164). -/
def execRlControllerGrant (core : Nat) (s : State) : Out :=
  match (s.core core).rlHolder, s.rlNext core with
  | none, some tn => .next (s.modCore core fun c => { c with rlHolder := some tn })
  | _, _ => .next s

/-- The end of a call: a boundary, then the next call, the test or the end of the run. -/
def execRlCallEnd (team : Nat) (s : State) : Out :=
  .next (if s.rlCanStep team then (s.boundary (s.team team).core).rlStep team else s)

/-! ### The instructions -/

/-- The order of an arrival for the team's next run, while one is under way (07 R157, R164). -/
def Iss.arriveEarly (i : Iss) : Iss :=
  if i.g.rlOrder = 0 then
    (i.mod fun g => { g with rlOrder := i.s.serial }).modS fun s => { s with serial := s.serial + 1 }
  else i

/-- `RLRUN` (07 R157, R167): acting lanes park as call lanes, or for the next run while one is under
way; without acting lanes the group only arrives. -/
def execRlrun (x : XForm) (s : State) : Out :=
  let i := begin_ (.rlrun x) s
  -- the destination stays interlocked until the run has ended (03 R56)
  let i := { i with kind := .run }
  let t := i.s.team i.g.team
  let arrive := fun (i : Iss) =>
    if i.g.rlArrived then i
    else (i.mod fun g => { g with rlArrived := true, rlOrder := i.s.serial }).modS fun s =>
      { s with serial := s.serial + 1 }
  if !i.flts.isEmpty then i.out
  else if i.run = 0#32 then (if t.run.isNone then arrive i else i).out
  else
    let i := i.fault (i.run &&& i.g.rlIn) { cause := 0x0A#8 }
    match i.uniPoison [(x.b, 1)] with
    | some f => (i.fault i.run f).out
    | none =>
      let addr := uniVal i.g x x.b 1 + x.imm.toNat
      if i.run = 0#32 then i.out
      else if addr % 256 ≠ 0 then (i.fault i.run { cause := 0x07#8 }).out
      else if t.ssize < addr + 256 then (i.fault i.run { cause := 0x03#8 }).out
      else
        let ks := t.scrAbsent addr 256
        if !ks.isEmpty then .next (i.parked (.sectors (ks.map fun k => (i.g.team, k))) s)
        else
          let m := i.run
          let later := t.run.isSome
          let p : RlPark := {
            mask := m, away := 0#32, pc := i.pc, next := i.next, prio := i.prio
            dst := x.a, addr := addr, later := later, since := i.s.time
            loops := (i.g.loops.filter fun c => (c.set &&& m) != 0#32).map (·.ctr) }
          let i := (i.take m).mod fun g =>
            { g.dropLantern with
              rl := g.rl ++ [p]
              rlDepth := (maskLanes m).foldl (fun d l => Sp.put d l (Sp.get [] g.rets l).length) g.rlDepth }
          (if later then i.arriveEarly else arrive i).out

/-- The exact accumulator takes the square of one value (07 R165). -/
def RlRun.accumulate (r : RlRun) (v : FVal) : RlRun :=
  match v with
  | .nan _ => { r with accNan := true }
  | .inf _ => { r with accInf := true }
  | .fin _ m e =>
    let a : Nat := r.acc + m * m * 2 ^ (2 * e + 2148).toNat
    if a < 2 ^ 4352 then { r with acc := a } else { r with accInf := true }

/-- A signalling NaN raises INV (07 R165). -/
def squareFlags : FVal → Flags
  | .nan sig => flagIf sig flagInv
  | _ => 0#8

/-- `RLACC` (07 R165, R168): x² of each acting lane, exactly. -/
def execRlacc (x : XForm) (s : State) : Out :=
  let i := begin_ (.rlacc x) s
  let tn := i.g.team
  let inResid := match (i.s.team tn).run with
    | some r => r.step == 2
    | none => false
  let i := i.fault (if inResid then i.run &&& ~~~i.g.rlIn else i.run) { cause := 0x0A#8 }
  let f := if x.ty == .f64 then fp64 else fp32
  ((maskLanes i.run).foldl (fun (i : Iss) l =>
    match firstPoison i.g l [(x.b, x.ty.regs)] with
    | some flt => i.fault (laneBit l) flt
    | none =>
      let v := fdecode f (opVal i.g x.lit x.b x.ty.regs l)
      (i.modS fun s => s.modRun tn fun r => r.accumulate v).mod fun g => g.raiseFlags (squareFlags v)) i).out

/-- Lanes leave the call under way (07 R158): they park, and the depth and loops that the entry built
are discarded. -/
def Iss.leaveCall (i : Iss) (m : Mask) : Iss :=
  let ls := maskLanes m
  if m = 0#32 then i
  else (i.take m).mod fun g =>
    let keeps := fun (l ctr : Nat) => g.rl.any fun c => !c.later && c.mask.getLsbD l && c.loops.contains ctr
    { g.dropLantern with
      rlIn := g.rlIn &&& ~~~m
      rets := ls.foldl (fun d l =>
        let st := Sp.get [] d l
        Sp.put d l (st.drop (st.length - Sp.get 0 g.rlDepth l))) g.rets
      rl := g.rl.map fun c => if (c.mask &&& m) = 0#32 then c else { c with since := i.s.time }
      loops := g.loops.map fun c =>
        let out := maskWhere fun l => m.getLsbD l && !keeps l c.ctr
        { c with set := c.set &&& ~~~out, tail := c.tail &&& ~~~out, away := c.away &&& ~~~out,
                 trapTail := c.trapTail &&& ~~~out } }

/-- `RLRET` (07 R169). -/
def execRlret (x : XForm) (s : State) : Out :=
  let i := begin_ (.rlret x) s
  let i := i.fault (i.run &&& ~~~i.g.rlIn) { cause := 0x0A#8 }
  (i.leaveCall i.run).out

/-- `RLABT` (07 R170): the first one accepted in a run sets ABTREASON. -/
def execRlabt (x : XForm) (s : State) : Out :=
  let i := begin_ (.rlabt x) s
  let i := i.fault (i.run &&& ~~~i.g.rlIn) { cause := 0x0A#8 }
  match i.uniPoison [(x.b, 1)] with
  | some f => (i.fault i.run f).out
  | none =>
    let tn := i.g.team
    let v := uniVal i.g x x.b 1
    let i := match (i.s.team tn).run with
      | some r =>
        if i.run != 0#32 && r.abort.isNone then
          i.modS fun s => (s.modRun tn fun r => { r with abort := some (BitVec.ofNat 32 v) }).rlPut tn 0xDC 4 v
        else i
      | none => i
    (i.leaveCall i.run).out

end Sys2Proof.Machine
end

