-- ==== Sys2Proof/Machine/Strike.lean ====
section
/-! DEFINITION. Faults that reach a group from outside (12 R296, R420; 13 R333): Vigil and a strip miss. -/

namespace Sys2Proof.Machine

open Sys2Proof

/-- OP of the instruction at an address, 0 where none can be fetched. -/
def State.opAt (s : State) (n : Nat) (pc : VAddr) : BitVec 8 :=
  match s.codeWord (s.launchOf n).asid pc.toNat with
  | some w => BitVec.ofNat 8 (field w 8 8)
  | none => 0#8

/-- A sub-group that a fault from outside makes: its lanes, DONE, PC, OP, priority and saved positions. -/
structure Hit where
  mask : Mask
  done : Bool
  pc : VAddr
  op : BitVec 8
  prio : Prio
  saved : List Entry

/-- Parks that count as waits (12 R289, 03 R57): a stall for random bits is none (05 R132), and lines or
I/O loads hold a wait only where the instruction is one. -/
def Park.isWait (op : BitVec 8) : Park → Bool
  | .noise _ => false
  | .flags => false
  | .owned _ => endsWindows op.toNat
  | .io => endsWindows op.toNat
  | _ => true

/-- Outside trap mode the group is held by a wait. -/
def Group.heldByWait (g : Group) : Bool :=
  g.wait.isSome || (match g.park with
    | some p => p.isWait g.waitOp
    | none => false)

/-- Lanes of one frontier entry (12 R420): held by a wait of the group, or not. -/
def State.entryHit (s : State) (n : Nat) (e : Entry) : Hit :=
  let g := s.grp n
  let held := g.heldByWait
  let atWait := held && e.pc == g.waitNext && e.prio == g.waitPrio
  let pc := if atWait then g.waitPc else e.pc
  { mask := e.mask, done := held, pc := pc, op := if atWait then g.waitOp else s.opAt n e.pc, prio := e.prio
    saved := if held then [{ e with trap := false, passed := 0 }] else [] }

/-- Lanes that left the frontier to wait, as (mask, PC, priority): those parked at one instruction are one
sub-group. -/
def parkHits (s : State) (n : Nat) : List (Mask × VAddr × Prio) → List Hit
  | [] => []
  | (m, pc, prio) :: r =>
    let all := orMasks (·.1) (r.filter fun p => p.2.1 == pc) ||| m
    let rest := (parkHits s n r).filter fun h => h.pc != pc
    if all = 0#32 then rest else { mask := all, done := true, pc := pc, op := s.opAt n pc, prio := prio, saved := [] } :: rest

/-- Every sub-group of a strike, in ascending order of their lowest lane. -/
def State.hits (s : State) (n : Nat) : List Hit :=
  let g := s.grp n
  let parks := (g.conv.map fun c => (c.mask &&& ~~~c.away, c.pc, c.prio)) ++
    (g.rl.map fun c => (c.mask &&& ~~~c.away &&& ~~~g.rlIn, c.pc, c.prio)) ++
    g.loops.map fun c => (c.tail &&& ~~~c.away &&& ~~~c.trapTail, c.tailPc, c.prio)
  let all := ((g.frontier.filter fun e => !e.trap).map (s.entryHit n)) ++ parkHits s n parks
  lanes.flatMap fun l => all.filter fun h => lowestLane h.mask == l

/-- Lanes in trap mode, where the fault reaches them, are killed (15 Table 15.8). -/
def State.strikeTrap (s : State) (n : Nat) (cause : BitVec 8) (aux : Word) : State :=
  let g := s.grp n
  let m := g.trapMask
  if m = 0#32 then s
  else
    let held := (g.loops.filter fun c => c.trapTail != 0#32).map fun c => (⟨c.tailPc, c.prio, m, true, 0⟩ : Entry)
    let e := (((g.frontier.filter (·.trap)) ++ held).head?).getD ⟨0, 0, m, true, 0⟩
    s.killLanes n
      { cause := cause, mixed := false, async := false, done := false, op := s.opAt n e.pc, mask := m, pc := e.pc,
        vline := 0#64, prio := e.prio, recIdx := none, aux := aux }

/-- A group takes a cause from outside (12 R420); `trapToo` says that the fault reaches lanes in trap mode. -/
def State.strike (s : State) (n : Nat) (cause : BitVec 8) (aux : Word) (trapToo : Bool) : State :=
  if !(s.grp n).live then s
  else
    let s := if trapToo then s.strikeTrap n cause aux else s
    let s := s.modGrp n fun g => { g with
      recov := g.recov.map fun r => if r.trap then r else { r with owe := some (cause, aux) } }
    let hs := s.hits n
    let s := hs.foldl (fun s h =>
      let s := if h.done then s.modGrp n fun g => g.markAway h.mask else s
      s.takeTrap n
        { cause := cause, mixed := false, async := false, done := h.done, op := h.op, mask := h.mask, pc := h.pc,
          vline := 0#64, prio := h.prio, recIdx := none, aux := aux } h.saved) s
    s.settle n

/-- Groups that stand on a core for a launch: declared and handler groups. -/
def State.groupsOf (s : State) (l : Nat) : List Nat :=
  (s.teams.filter fun kv => kv.2.launch == l && kv.2.standing).flatMap fun kv => kv.2.groups.map (·.2)

end Sys2Proof.Machine
end

