-- ==== Sys2Proof/Decode.lean ====
section
/-! DEFINITION. Decoding and encoding (03 R40 to R62). An instruction is read from a 160-bit value, its
bytes from the lowest address up; what follows the instruction in those bits is ignored. -/

namespace Sys2Proof

/-- Why bits are not an instruction (03 Table 3.11). -/
inductive Reject where
  /-- OP is unassigned -/
  | opcode
  /-- a base form, or a base form with a literal, of an opcode that has none -/
  | form
  /-- GE = 0 with GP or GS nonzero -/
  | guard
  /-- a reserved operand code -/
  | operand
  /-- TY = 15 -/
  | type
  /-- nonzero A or B, AUX, XF, XM, XK or LA where the form has none -/
  | blank
  /-- a field value that the entry does not define (`Instr.wf`) -/
  | fields
  deriving DecidableEq, Repr

/-- What decoding answers. -/
inductive Decoded where
  | instr (i : Instr)
  | reject (r : Reject)
  deriving DecidableEq, Repr

/-- The instruction of an answer. -/
def Decoded.instr? : Decoded → Option Instr
  | .instr i => some i
  | .reject _ => none

/-- The operand that a code names (03 Table 3.4). -/
def Opnd.ofCode (c : BitVec 8) : Option Opnd :=
  if h : c.toNat < 192 then some (.v ⟨c.toNat, h⟩)
  else if h : c.toNat - 192 < 48 then some (.s ⟨c.toNat - 192, h⟩)
  else match c.toNat with
    | 0xF0 => some .zero
    | 0xF1 => some .litLo
    | 0xF2 => some .litHi
    | 0xF3 => some .lit64
    | 0xF4 => some .lane
    | 0xF5 => some .gw
    | _ => none

/-- The cross-lane mode of a code (03 Table 3.7). -/
def XMode.ofCode (c : BitVec 3) : XMode :=
  match c.toNat with
  | 0 => .own
  | 1 => .sld
  | 2 => .slu
  | 3 => .xor
  | 4 => .bc
  | 5 => .rot
  | 6 => .wsld
  | _ => .wxor

/-- The code of a cross-lane mode. -/
def XMode.code : XMode → BitVec 3
  | .own => 0#3
  | .sld => 1#3
  | .slu => 2#3
  | .xor => 3#3
  | .bc => 4#3
  | .rot => 5#3
  | .wsld => 6#3
  | .wxor => 7#3

/-- The fill of a code (03 Table 3.8). -/
def Fill.ofCode (c : BitVec 2) : Fill :=
  match c.toNat with
  | 0 => .zero
  | 1 => .own
  | 2 => .imm
  | _ => .clamp

/-- The code of a fill. -/
def Fill.code : Fill → BitVec 2
  | .zero => 0#2
  | .own => 1#2
  | .imm => 2#2
  | .clamp => 3#2

/-! ### Fields of the words (03 Tables 3.1 to 3.3) -/

def wLen (w : BitVec 160) : Nat := (w.extractLsb' 0 2).toNat
def wGe (w : BitVec 160) : Bool := w.getLsbD 2
def wGp (w : BitVec 160) : BitVec 4 := w.extractLsb' 3 4
def wGs (w : BitVec 160) : Bool := w.getLsbD 7
def wOp (w : BitVec 160) : BitVec 8 := w.extractLsb' 8 8
def wA (w : BitVec 160) : BitVec 8 := w.extractLsb' 16 8
def wB (w : BitVec 160) : BitVec 8 := w.extractLsb' 24 8
def wC (w : BitVec 160) : BitVec 8 := w.extractLsb' 32 8
def wD (w : BitVec 160) : BitVec 8 := w.extractLsb' 40 8
def wLa (w : BitVec 160) : BitVec 4 := w.extractLsb' 48 4
def wTy (w : BitVec 160) : BitVec 4 := w.extractLsb' 52 4
def wMod (w : BitVec 160) : BitVec 8 := w.extractLsb' 56 8
/-- MOD and TY as the priority of the extended branches (03 R49). -/
def wPrio (w : BitVec 160) : BitVec 12 := w.extractLsb' 52 12
def wImm (w : BitVec 160) : BitVec 16 := w.extractLsb' 64 16
def wXk (w : BitVec 160) : BitVec 5 := w.extractLsb' 80 5
def wXm (w : BitVec 160) : BitVec 3 := w.extractLsb' 85 3
def wXf (w : BitVec 160) : BitVec 2 := w.extractLsb' 88 2
def wAux (w : BitVec 160) : BitVec 6 := w.extractLsb' 90 6
/-- The literal of an extended form, and of a base form. -/
def wLitX (w : BitVec 160) : BitVec 64 := w.extractLsb' 96 64
def wLitB (w : BitVec 160) : BitVec 64 := w.extractLsb' 32 64

/-- Length in bytes of the instruction that a first word begins (03 R40). -/
def wordLen (w : BitVec 160) : Nat :=
  match wLen w with
  | 0 => 4
  | 1 => 12
  | 2 => 12
  | _ => 20

/-- The guard (03 R43); the outer answer is none for GE = 0 with GP or GS nonzero. -/
def wGuard (w : BitVec 160) : Option (Option Guard) :=
  if wGe w then some (some ⟨wGs w, wGp w⟩)
  else if wGp w = 0#4 ∧ wGs w = false then some none
  else none

/-! ### Rows of the opcode map (03 Table 3.9) -/

/-- The extended form of an opcode; a row that shares its opcode is told by the field that differs. -/
def extRow (op : Nat) (x : XForm) : Option Instr :=
  match op with
  | 0x00 => some (.nop x)
  | 0x02 => some (.brx x)
  | 0x04 => some (.callx x)
  | 0x05 => some (.ret x)
  | 0x06 => some (.exit x)
  | 0x07 => some (.cset x)
  | 0x08 => some (.conv x)
  | 0x09 => some (.loop x)
  | 0x0A => some (.lbrk x)
  | 0x0B => some (.yield x)
  | 0x0C => some (.sleep x)
  | 0x0D => some (.idemb x)
  | 0x0E => some (.ideme x)
  | 0x10 => some (.bar x)
  | 0x11 => some (.bara x)
  | 0x12 => some (.barw x)
  | 0x13 => some (.bari x)
  | 0x14 => some (.cbar x)
  | 0x15 => some (.obji x)
  | 0x16 => some (.obja x)
  | 0x17 => some (.objw x)
  | 0x18 => some (.objt x)
  | 0x20 => some (.mov x)
  | 0x21 => some (.movi x)
  | 0x22 => some (.sel x)
  | 0x23 => some (.iadd x)
  | 0x24 => some (.isub x)
  | 0x25 => some (.iaddc x)
  | 0x26 => some (.imul x)
  | 0x27 => some (.imulh x)
  | 0x28 => some (.imad x)
  | 0x29 => some (.imin x)
  | 0x2A => some (.imax x)
  | 0x2B => some (.iabs x)
  | 0x2C => some (.and x)
  | 0x2D => some (.or x)
  | 0x2E => some (.xor x)
  | 0x2F => some (.andn x)
  | 0x30 => some (.not x)
  | 0x31 => some (.shl x)
  | 0x32 => some (.shr x)
  | 0x33 => some (.sar x)
  | 0x34 => some (.shrr x)
  | 0x35 => some (.rot x)
  | 0x36 => some (.clz x)
  | 0x37 => some (.popc x)
  | 0x38 => some (.brev x)
  | 0x39 => some (.bfx x)
  | 0x3A => some (.bfi x)
  | 0x3B => some (.isetp x)
  | 0x3C => some (.plop x)
  | 0x3D => some (if bits x.mod 5 5 = 0 then .pmovGet x else .pmovPut x)
  | 0x3E => some (.iadds x)
  | 0x3F => some (.isubs x)
  | 0x40 => some (.idot2 x)
  | 0x41 => some (.idot4 x)
  | 0x42 => some (.ipack x)
  | 0x43 => some (.iunpk x)
  | 0x44 => some (.icvt x)
  | 0x48 => some (.fadd x)
  | 0x49 => some (.fsub x)
  | 0x4A => some (.fmul x)
  | 0x4B => some (.ffma x)
  | 0x4C => some (.fmin x)
  | 0x4D => some (.fmax x)
  | 0x4E => some (.fsetp x)
  | 0x4F => some (.fclass x)
  | 0x50 => some (.frnd x)
  | 0x51 => some (.fcvt x)
  | 0x52 => some (.fdiv x)
  | 0x53 => some (.fsqrt x)
  | 0x54 => some (.frcp x)
  | 0x55 => some (.frsq x)
  | 0x56 => some (.fexp2 x)
  | 0x57 => some (.flog2 x)
  | 0x58 => some (.fsinp x)
  | 0x59 => some (.fcosp x)
  | 0x5A => some (.ftanh x)
  | 0x5B => some (.fscale x)
  | 0x60 => some (.xshf x)
  | 0x61 => some (.xsld x)
  | 0x62 => some (.xbfl x)
  | 0x63 => some (.xbcst x)
  | 0x64 => some (.xred x)
  | 0x65 => some (.xscan x)
  | 0x66 => some (.xvote x)
  | 0x67 => some (.xffs x)
  | 0x68 => some (.xpld x)
  | 0x69 => some (.xpat x)
  | 0x70 => some (.mzero x)
  | 0x71 => some (.mma x)
  | 0x72 => some (.mmas x)
  | 0x73 => some (.mmai x)
  | 0x74 => some (.had x)
  | 0x75 => some (.qnt x)
  | 0x76 => some (.dqnt x)
  | 0x77 => some (.fragt x)
  | 0x78 => some (.rlrun x)
  | 0x79 => some (.rlacc x)
  | 0x7A => some (.rlret x)
  | 0x7B => some (.rlabt x)
  | 0x80 => some (.ld x)
  | 0x81 => some (.st x)
  | 0x84 => some (.sld x)
  | 0x82 => some (.ldl x)
  | 0x83 => some (.stl x)
  | 0x85 => some (.atom x)
  | 0x86 => some (.atomu x)
  | 0x87 => some (.atoml x)
  | 0x88 => some (.flt x)
  | 0x89 => some (.bld x)
  | 0x8A => some (.bnar x)
  | 0x8B => some (.phase x)
  | 0x8C => some (.fence x)
  | 0x8D => some (.pfch x)
  | 0x90 => some (.acp x)
  | 0x91 => some (.await x)
  | 0x92 => some (.tcp x)
  | 0x93 => some (.tst x)
  | 0x94 => some (.tcpg x)
  | 0x95 => some (.bread x)
  | 0x96 => some (.rput x)
  | 0x97 => some (.rget x)
  | 0x98 => some (.rsig x)
  | 0x99 => some (.coll x)
  | 0xA0 => some (.ecov x)
  | 0xA1 => some (.sacq x)
  | 0xA2 => some (.sstr x)
  | 0xA3 => some (.srdh x)
  | 0xA4 => some (if bits x.mod 5 5 = 0 then .srelDone x
      else if bits x.mod 6 6 = 0 then .srelCons x else .srelConsHalo x)
  | 0xA5 => some (.srate x)
  | 0xA6 => some (if bits x.mod 5 5 = 0 then .sprogStart x else .sprogDone x)
  | 0xB0 => some (.sread x)
  | 0xB1 => some (.swrite x)
  | 0xB2 => some (.rand x)
  | 0xB3 => some (.trap x)
  | 0xB4 => some (if bits x.mod 5 5 = 0 then .tretRetry x else .tretSkip x)
  | 0xB5 => some (.bkpt x)
  | 0xB6 => some (.psave x)
  | 0xB7 => some (.pload x)
  | 0xB8 => some (.tlbinv x)
  | 0xB9 => some (match x.imm.toNat with
    | 1 => .fwcallQuery x
    | 2 => .fwcallPin x
    | 3 => .fwcallTier x
    | 4 => .fwcallDomain x
    | 5 => .fwcallAttest x
    | 6 => .fwcallQueue x
    | _ => .fwcallUnknown x)
  | _ => none

/-- The base forms without operands (03 Table 3.5). -/
def base0Row (op : Nat) (g : Base0) : Option Instr :=
  match op with
  | 0x00 => some (.nopBase g)
  | 0x05 => some (.retBase g)
  | 0x06 => some (.exitBase g)
  | 0x0B => some (.yieldBase g)
  | _ => none

/-- The two-field base forms. -/
def base2Row (op : Nat) (x : Base2) : Option Instr :=
  match op with
  | 0x20 => some (.movBase x)
  | 0x23 => some (.iaddBase x)
  | 0x24 => some (.isubBase x)
  | 0x29 => some (.iminBase x)
  | 0x2A => some (.imaxBase x)
  | 0x2C => some (.andBase x)
  | 0x2D => some (.orBase x)
  | 0x2E => some (.xorBase x)
  | 0x31 => some (.shlBase x)
  | 0x32 => some (.shrBase x)
  | 0x33 => some (.sarBase x)
  | 0x48 => some (.faddBase x)
  | 0x4A => some (.fmulBase x)
  | 0x4C => some (.fminBase x)
  | 0x4D => some (.fmaxBase x)
  | _ => none

/-- The two-field base forms with a literal. -/
def base2LitRow (op : Nat) (x : Base2) (lit : BitVec 64) : Option Instr :=
  match op with
  | 0x20 => some (.movBaseLit x lit)
  | 0x23 => some (.iaddBaseLit x lit)
  | 0x24 => some (.isubBaseLit x lit)
  | 0x29 => some (.iminBaseLit x lit)
  | 0x2A => some (.imaxBaseLit x lit)
  | 0x2C => some (.andBaseLit x lit)
  | 0x2D => some (.orBaseLit x lit)
  | 0x2E => some (.xorBaseLit x lit)
  | 0x31 => some (.shlBaseLit x lit)
  | 0x32 => some (.shrBaseLit x lit)
  | 0x33 => some (.sarBaseLit x lit)
  | 0x48 => some (.faddBaseLit x lit)
  | 0x4A => some (.fmulBaseLit x lit)
  | 0x4C => some (.fminBaseLit x lit)
  | 0x4D => some (.fmaxBaseLit x lit)
  | _ => none

/-- Major opcodes that Table 3.9 assigns. -/
def opAssigned (op : Nat) : Bool :=
  op == 0x01 || op == 0x03 || (extRow op XForm.blank).isSome

/-! ### Decoding -/

/-- The operand fields of an extended form. -/
def readX (w : BitVec 160) (g : Option Guard) (lit : Option (BitVec 64)) : Decoded ⊕ XForm :=
  match Opnd.ofCode (wA w), Opnd.ofCode (wB w), Opnd.ofCode (wC w), Opnd.ofCode (wD w) with
  | some a, some b, some c, some d =>
    match Ty.ofCode (wTy w).toNat with
    | none => .inl (.reject .type)
    | some ty => .inr
        { guard := g, lit := lit, a := a, b := b, c := c, d := d, ty := ty, mod := wMod w, la := wLa w,
          aux := wAux w, fill := Fill.ofCode (wXf w), xm := XMode.ofCode (wXm w), xk := wXk w,
          imm := wImm w }
  | _, _, _, _ => .inl (.reject .operand)

/-- Accept a candidate that is well formed. -/
def accept (r : Reject) : Option Instr → Decoded
  | none => .reject r
  | some i => if i.wf then .instr i else .reject .fields

/-- The extended `BRA` and `CALL` (03 R49). -/
def readFar (w : BitVec 160) (g : Option Guard) (lit : Option (BitVec 64)) : Decoded :=
  if wA w ≠ 0#8 ∨ wB w ≠ 0#8 ∨ wLa w ≠ 0#4 ∨ wXk w ≠ 0#5 ∨ wXm w ≠ 0#3 ∨ wXf w ≠ 0#2 ∨ wAux w ≠ 0#6 then
    .reject .blank
  else
    let x : FarBra := { guard := g, lit := lit, prio := wPrio w, off := wD w ++ wC w ++ wImm w }
    .instr (if (wOp w).toNat = 0x01 then .bra x else .call x)

def readExt (w : BitVec 160) (g : Option Guard) (lit : Option (BitVec 64)) : Decoded :=
  let op := (wOp w).toNat
  if op = 0x01 ∨ op = 0x03 then readFar w g lit
  else match readX w g lit with
    | .inl d => d
    | .inr x => accept .opcode (extRow op x)

/-- A base form without a literal (03 R47 to R49). -/
def readBase (w : BitVec 160) (g : Option Guard) : Decoded :=
  let op := (wOp w).toNat
  if op = 0x01 then .instr (.braShort ⟨g, wA w ++ wB w⟩)
  else match base0Row op ⟨g⟩ with
    | some i => if wA w = 0#8 ∧ wB w = 0#8 then .instr i else .reject .blank
    | none =>
      if op = 0x21 then
        match Opnd.ofCode (wA w) with
        | none => .reject .operand
        | some a => accept .form (some (.moviBase ⟨g, a, wB w⟩))
      else match Opnd.ofCode (wA w), Opnd.ofCode (wB w) with
        | some a, some b => accept .form (base2Row op ⟨g, a, b⟩)
        | _, _ => .reject .operand

/-- A base form with a literal. -/
def readBaseLit (w : BitVec 160) (g : Option Guard) : Decoded :=
  match Opnd.ofCode (wA w), Opnd.ofCode (wB w) with
  | some a, some b => accept .form (base2LitRow (wOp w).toNat ⟨g, a, b⟩ (wLitB w))
  | _, _ => .reject .operand

/-- Decode the instruction that begins at bit 0: total, rejecting by name (03 R61). -/
def decode (w : BitVec 160) : Decoded :=
  if !opAssigned (wOp w).toNat then .reject .opcode
  else match wGuard w with
    | none => .reject .guard
    | some g =>
      match wLen w with
      | 0 => readBase w g
      | 1 => readExt w g none
      | 2 => readBaseLit w g
      | _ => readExt w g (some (wLitX w))

/-- Decode from bytes, the lowest address first. -/
def decodeBytes (bs : List Byte) : Decoded :=
  decode (bs.foldr (fun b (w : BitVec 160) => (w <<< 8) ||| b.setWidth 160) 0#160)

/-- The instruction that the decoder reads from bits numbered as spec/opcode_table.json numbers them;
the bits above `nbits` are zero. -/
def decodeTableWord (nbits w : Nat) : Option Instr := (decode (BitVec.ofNat 160 (w % 2 ^ nbits))).instr?

/-! ### Encoding -/

/-- The code of an operand. -/
def Opnd.enc (o : Opnd) : BitVec 8 := BitVec.ofNat 8 o.num

/-- Bits [7:2] of the first word. -/
def encGuard : Option Guard → BitVec 6
  | none => 0#6
  | some q => BitVec.ofBool q.neg ++ q.pred ++ 1#1

/-- The first word (03 Table 3.1). -/
def encFirst (b a : BitVec 8) (op : Nat) (g : Option Guard) (len : BitVec 2) : BitVec 32 :=
  b ++ a ++ BitVec.ofNat 8 op ++ encGuard g ++ len

/-- The second and third words of an extended form (03 Tables 3.2, 3.3), the third in the high half. -/
def encRest (x : XForm) : BitVec 64 :=
  x.aux ++ x.fill.code ++ x.xm.code ++ x.xk ++ x.imm ++
    (x.mod ++ BitVec.ofNat 4 x.ty.code ++ x.la ++ x.d.enc ++ x.c.enc)

/-- The bits of a form. -/
def encForm (op : Nat) : Form → BitVec 160
  | .b0 x => (encFirst 0#8 0#8 op x.guard 0#2).setWidth 160
  | .b2 x => (encFirst x.b.enc x.a.enc op x.guard 0#2).setWidth 160
  | .b2l x lit => (lit ++ encFirst x.b.enc x.a.enc op x.guard 2#2).setWidth 160
  | .bi x => (encFirst x.imm x.a.enc op x.guard 0#2).setWidth 160
  | .sb x => (encFirst (x.off.extractLsb' 0 8) (x.off.extractLsb' 8 8) op x.guard 0#2).setWidth 160
  | .xf x =>
    match x.lit with
    | none => (encRest x ++ encFirst x.b.enc x.a.enc op x.guard 1#2).setWidth 160
    | some lit => lit ++ encRest x ++ encFirst x.b.enc x.a.enc op x.guard 3#2
  | .fb x =>
    let rest : BitVec 64 := 0#16 ++ x.off.extractLsb' 0 16 ++
      (x.prio ++ 0#4 ++ x.off.extractLsb' 24 8 ++ x.off.extractLsb' 16 8)
    match x.lit with
    | none => (rest ++ encFirst 0#8 0#8 op x.guard 1#2).setWidth 160
    | some lit => lit ++ rest ++ encFirst 0#8 0#8 op x.guard 3#2

/-- The bits of an instruction, its first byte lowest; a device step has none and encodes as zero. -/
def encode (i : Instr) : BitVec 160 :=
  match i.form with
  | some (op, f) => encForm op f
  | none => 0#160

/-- The bytes of an instruction. -/
def encodeBytes (i : Instr) : List Byte :=
  (List.range i.len).map fun k => (encode i).extractLsb' (8 * k) 8

end Sys2Proof
end

