-- ==== Sys2Proof/Machine/Strip.lean ====
section
/-! DEFINITION. The strip instructions (13 R334 to R340). -/

namespace Sys2Proof.Machine

open Sys2Proof

/-! ### The instance and its rings -/

/-- The instance of the launch of a group (13 R313). -/
def State.instOf (s : State) (n : Nat) : Option Nat := (s.launchOf n).inst

def causeStrip : Flt := { cause := 0x0A#8 }

/-- The checks of a ring record at use (13 R323): cause 0x02. -/
def State.ringFault (s : State) (n : Nat) (v : RecView) (idx : Nat) : Option Flt :=
  let id := v.base % 64
  let out := v.base / 64 % 2 == 1
  let st := s.stream id
  let l := s.launchOf n
  let mine := match l.inst with
    | some k => (s.instance_ k).stream == id
    | none => false
  if v.kind = 2 && st.on && st.d.isStrip && st.part == l.part && mine &&
      v.extentX == st.d.lineBytes out && v.strideY == st.d.lineBytes out && v.extentY == st.d.lines out && v.format == st.d.fmt out then none
  else some { cause := 0x02#8, recIdx := some (BitVec.ofNat 5 idx) }

/-- A strip instruction on a ring: the launch belongs to an instance (13 R334) and the record passes.
`k` goes on with the instance, the stream, and whether the ring is the output ring. -/
def ringOp (ins : Instr) (x : XForm) (s : State) (k : Iss → Nat → Nat → Bool → Out) : Out :=
  let i := begin_ ins s
  let v := recView (i.g.breg (auxRec x))
  if i.run = 0#32 then i.out
  else match i.s.instOf i.n with
    | none => (i.faultAll causeStrip).out
    | some inst => match i.s.ringFault i.n v (auxRec x) with
      | some f => (i.faultAll f).out
      | none => k i inst (v.base % 64) (v.base / 64 % 2 == 1)

/-! ### ECOV -/

/-- The cell of a level (13 Table 13.4). -/
def cellOf : Nat → Nat × Nat
  | 0 => (1, 1)
  | 1 => (2, 1)
  | 2 => (2, 2)
  | 3 => (4, 2)
  | _ => (4, 4)

/-- A sample at (X, Y) lies inside an edge. -/
def edgeIn (a b c : Int) (X Y : Int) : Bool :=
  let e := a * X + b * Y + c
  decide (0 < e) || (decide (e = 0) && (decide (0 < a) || (decide (a = 0) && decide (0 < b))))

/-- The 16 coverage bits of a cell (13 R335). -/
def coverage (rate : Nat) (co : Nat → Int) (x y : Int) : Nat :=
  let cell := cellOf rate
  (List.range 16).foldl (fun m t =>
    let X := 8 * x + (2 * ((t % 4 : Nat) : Int) + 1) * cell.1
    let Y := 8 * y + (2 * ((t / 4 : Nat) : Int) + 1) * cell.2
    if (List.range 3).all fun e => edgeIn (co (3 * e)) (co (3 * e + 1)) (co (3 * e + 2)) X Y then m + 2 ^ t
    else m) 0

/-- `ECOV`. -/
def execEcov (x : XForm) (s : State) : Out :=
  let i := begin_ (.ecov x) s
  let g := i.g
  let lvl := x.aux.getLsbD 3
  let rate := if lvl then (match i.s.instOf i.n with
      | some k => some (i.s.instance_ k).level
      | none => none) else some (bits x.aux 2 0)
  match rate with
  | none => (i.fault i.run causeStrip).out
  | some rate =>
    let e := x.b.num - 0xC0
    let bad := (List.range 9).find? fun k => g.sPoison (e + k)
    let co := fun (k : Nat) => signed 32 (g.sreg (e + k)).toNat
    (i.laneRun i.run false
      (fun l => match bad with
        | some k => some { cause := 0x04#8, aux := BitVec.ofNat 32 (0x100 + x.b.num + k) }
        | none => if opBad g x.c 1 l then some (poisonFlt x.c)
          else if opBad g x.d 1 l then some (poisonFlt x.d) else none)
      (fun l => { val := coverage rate co (signed 32 (opVal g x.lit x.c 1 l)) (signed 32 (opVal g x.lit x.d 1 l)) })
      false (fun l o g => g.writeDst x.a 1 l o.val)).out

/-! ### Slots -/

/-- `SACQ`: acquire the slot of the instance's strip, or wait for it (13 R326, R336). -/
def execSacq (x : XForm) (s : State) : Out :=
  ringOp (.sacq x) x s fun i inst st out =>
    if !out && (i.s.instance_ inst).srcDone then (i.faultAll causeStrip).out
    else match i.s.takeSlot inst (i.s.teamOf i.n).launch out with
      | some (slot, s') => ({ i with s := s' }.mod fun g => g.writeDst x.a 1 0 slot).out
      | none => (i.holdOn (.ring st out x.a)).out

/-- Byte, line of a lane, as in `ST` and `LD` (13 R337). -/
def stripAt (g : Group) (x : XForm) (l : Nat) : Int × Int := recAt g x (accessSize x) true l

/-- Lanes of an `SSTR` or `SRDH`: operands, then bounds in lines [lo, hi). An `SSTR` to a MISSED slot sets
no flag (13 R332). -/
def stripLanes (x : XForm) (v : RecView) (lo hi : Int) (flags : Bool) (ops : List (Opnd × Nat)) (i : Iss) :
    Iss × List (Nat × Option (Nat × Int)) :=
  let rx := some (BitVec.ofNat 5 (auxRec x))
  let size := accessSize x
  (maskLanes i.run).foldl (fun (q : Iss × List (Nat × Option (Nat × Int))) l =>
    match firstPoison q.1.g l ops with
    | some f => (q.1.fault (laneBit l) { f with recIdx := rx }, q.2)
    | none =>
      let p := stripAt q.1.g x l
      if 0 ≤ p.1 ∧ p.1 + size ≤ v.extentX ∧ lo ≤ p.2 ∧ p.2 < hi then (q.1, q.2 ++ [(l, some (p.1.toNat, p.2))])
      else if v.oobTrap then (q.1.fault (laneBit l) { cause := 0x03#8, recIdx := rx }, q.2)
      else (if flags then q.1.mod fun g => g.raiseFlags flagOob else q.1, q.2 ++ [(l, none)])) (i, [])

/-- `SSTR`: store into the slot of the instance's strip; into a MISSED slot it is dropped. -/
def execSstr (x : XForm) (s : State) : Out :=
  ringOp (.sstr x) x s fun i inst id out =>
    let v := recView (i.g.breg (auxRec x))
    let st := i.s.stream id
    let k := i.s.instance_ inst
    let sl := st.d.slotOf out k.g
    let slot := st.slot out sl
    let m := memRegs x
    if !v.w then (i.fault i.run { cause := 0x02#8, recIdx := some (BitVec.ofNat 5 (auxRec x)) }).out
    else if !(slot.inst == inst && (slot.life == .acquired || slot.life == .missed)) then
      (i.fault i.run causeStrip).out
    else
      let q := stripLanes x v 0 v.extentY (slot.life != .missed) [(x.b, 1), (x.c, 1), (x.a, m)] i
      if slot.life = .missed then q.1.out
      else
        let ranges := q.2.filterMap fun p => p.2.map fun w => (st.d.ringAddr out sl w.2.toNat w.1, accessSize x)
        ((q.2.foldl (fun (i : Iss) p => match p.2 with
          | none => i
          | some (bx, y) => i.modS fun s => s.modStream id fun st =>
              st.ringWrite out (st.d.ringAddr out sl y.toNat bx)
                (toBytes (accessSize x) (rangeVal i.g x.lit x.a m p.1))) q.1).modS fun s =>
          s.modStream id fun st => st.clearCovered out ranges).out

/-- What an `SRDH` lane reads: bytes and poison, in its own slot or in the halo (13 R328). -/
def Stream.readLine (st : Stream) (slot k : Nat) (bx : Nat) (y : Int) (n : Nat) : List Byte × Bool :=
  if y < 0 ∧ k ≠ 0 then
    let at_ := (st.d.halo + y).toNat * st.d.lineUnit false + bx
    (clearRead st.haloFilled 4096 st.haloData at_ n, Sp.get false st.haloBad (at_ / 32))
  else
    let at_ := st.d.ringAddr false slot y.toNat bx
    (st.ringRead false at_ n, Sp.get false st.srcBad (at_ / 32))

/-- The slot of strip g is WRITTEN or CONSUMING, and for a halo read the halo is tagged g − 1. -/
def Stream.readable (st : Stream) (g : Nat) (halo : Bool) : Bool :=
  let slot := st.slot false (st.d.slotOf false g)
  slot.g == g && (slot.life == .written || slot.life == .consuming) &&
    (!halo || st.haloTag == some (g - 1))

/-- `SRDH`: load from the source ring (13 R328, R329, R337). -/
def execSrdh (x : XForm) (s : State) : Out :=
  ringOp (.srdh x) x s fun i inst id out =>
    let v := recView (i.g.breg (auxRec x))
    let st := i.s.stream id
    let g := (i.s.instance_ inst).g
    let k := g % st.d.strips
    let sl := st.d.slotOf false g
    let size := accessSize x
    if out ∨ !v.r then (i.fault i.run { cause := 0x02#8, recIdx := some (BitVec.ofNat 5 (auxRec x)) }).out
    else
      let q := stripLanes x v (-(st.d.halo : Int)) st.d.hr true [(x.b, 1), (x.c, 1)] i
      let halo := k != 0 && q.2.any fun p => match p.2 with
        | some (_, y) => decide (y < 0)
        | none => false
      if q.2.isEmpty then q.1.out
      else if !st.readable g halo then .next (i.parked (.strip id halo) s)
      else
        let l := (i.s.teamOf i.n).launch
        let i := q.1.modS fun s => s.modStream id fun st =>
          let c := st.slot false sl
          if c.life = .written then st.setSlot false sl { c with life := .consuming, consumer := l } else st
        i.land x.a (memRegs x) false (q.2.map fun p => match p.2 with
          | none => (p.1, 0, 0)
          | some (bx, y) =>
            let r := st.readLine sl k bx y size
            (p.1, extendLoad x.fam r.1, wholePoison (memRegs x) r.2))

/-- The three forms of `SREL` (13 R327, R338): an arrival at the slot of the instance's strip. -/
def srelRun (ins : Instr) (x : XForm) (form : Nat) (s : State) : Out :=
  ringOp ins x s fun i inst id out =>
    let st := i.s.stream id
    let slot := st.slot out (st.d.slotOf out (i.s.instance_ inst).g)
    let ok := slot.inst == inst && (if form = 0 then slot.life == .acquired || slot.life == .missed
      else !out && slot.life == .consuming)
    let t := i.s.team i.g.team
    let bit := laneBit i.g.gid
    let twice := [0, 1, 2].any fun f => (Sp.get 0#32 t.srel (srelKey f out id) &&& bit) != 0#32
    if !ok || twice then (i.faultAll causeStrip).out
    else
      let key := srelKey form out id
      (i.modS fun s => s.modTeam i.g.team fun t =>
        { t with srel := Sp.put t.srel key (Sp.get 0#32 t.srel key ||| bit) }).out

def execSrelDone (x : XForm) (s : State) : Out := srelRun (.srelDone x) x 0 s
def execSrelCons (x : XForm) (s : State) : Out := srelRun (.srelCons x) x 1 s
def execSrelConsHalo (x : XForm) (s : State) : Out := srelRun (.srelConsHalo x) x 2 s

/-! ### The instance context -/

/-- `SRATE` selectors (13 Table 13.8). -/
def State.rateValue (s : State) (inst sel : Nat) : Nat :=
  let k := s.instance_ inst
  let st := s.stream k.stream
  let strip := st.d.isStrip
  let f := wrapNat 64 (s.instF inst)
  match sel with
  | 0 => k.level
  | 1 => if strip then k.g % st.d.strips else 0
  | 2 => if strip then k.g / st.d.strips % 2 ^ 32 else 0
  | 3 => f % 2 ^ 32
  | 4 => f / 2 ^ 32
  | 5 => if strip then st.d.strips else 0
  | _ => if strip then k.g % 2 ^ 32 else k.seq % 2 ^ 32

/-- Write one value to every acting lane of a destination, or once to a scalar. -/
def Iss.spread (i : Iss) (dst : Opnd) (w v : Nat) : Iss :=
  i.mod fun g => (maskLanes (runLanes i.run dst.isS)).foldl (fun g l => g.writeDst dst w l v) g

/-- `SRATE` (13 R339); a level is a logged result (16 R400). -/
def execSrate (x : XForm) (s : State) : Out :=
  let i := begin_ (.srate x) s
  if i.run = 0#32 then i.out
  else match i.s.instOf i.n with
    | none => (i.faultAll causeStrip).out
    | some inst =>
      let sel := bits x.aux 2 0
      let v := i.s.rateValue inst sel
      if sel ≠ 0 then (i.spread x.a 1 v).out
      else
        let i := i.mod fun g => { g with lastLvl := some v }
        let ls := maskLanes (runLanes i.run x.a.isS)
        let vals := if x.a = .zero then [] else ls.map fun _ => v
        match i.s.deliverVals i.n 6 i.pc (if x.a.isS then 0#32 else i.run) 4 vals with
        | .ended s => .next s
        | .use vs s =>
          let i := { i with s := s }
          let i := i.mod fun g => if vals.isEmpty then g else { g with lastLvl := vs.head? }
          (i.mod fun g => (ls.zip vs).foldl (fun g p => g.writeDst x.a 1 p.1 p.2) g).out

/-- Tiles of the running launch of an instance. -/
def State.tilesOf (s : State) (inst : Nat) : TmplLaunch :=
  let k := s.instance_ inst
  (s.stream k.stream).tmpl.getD k.cur ⟨0, {}, [], 0, 0⟩

/-- `SPROG` (13 R340): a count that the launch's tiles allow. -/
def sprogRun (ins : Instr) (x : XForm) (s : State) (ok : Inst → Nat → Nat → Bool)
    (f : Group → Inst → Nat → Inst) : Out :=
  let i := begin_ ins s
  if i.run = 0#32 then i.out
  else match i.s.instOf i.n with
    | none => (i.faultAll causeStrip).out
    | some inst => match i.uniPoison [(x.b, 1)] with
      | some fl => (i.faultAll fl).out
      | none =>
        let n := uniVal i.g x x.b 1
        if n = 0 ∨ 65535 < n ∨ !ok (i.s.instance_ inst) (i.s.tilesOf inst).tiles n then
          (i.faultAll causeStrip).out
        else
          let g := i.g
          (i.modS fun s => s.modInst inst fun k => f g k n).out

/-- `SPROG.start`: tiles start at the level that the group read last, else the instance's (13 R320). -/
def execSprogStart (x : XForm) (s : State) : Out :=
  sprogRun (.sprogStart x) x s (fun k tiles n => decide (k.started + n ≤ tiles)) fun g k n =>
    { k with started := k.started + n, open_ := k.open_ ++ List.replicate n (g.lastLvl.getD k.level) }

/-- `SPROG.done`: the tiles that were started earliest are finished. -/
def execSprogDone (x : XForm) (s : State) : Out :=
  sprogRun (.sprogDone x) x s (fun k _ n => decide (k.done + n ≤ k.started)) fun _ k n =>
    { k with done := k.done + n, open_ := k.open_.drop n, sinceEval := k.sinceEval + n }

end Sys2Proof.Machine
end

