-- ==== Sys2Proof/Machine/Queue.lean ====
section
/-! DEFINITION. Command queues (12 R272 to R276), rank programs (12 R277), and the packets that have been
read and are not complete. -/

namespace Sys2Proof.Machine

open Sys2Proof

/-! ### Rank programs -/

/-- The meaning of an instruction that a rank program may use, apart from `SLD`. -/
def rankMeaning (i : Instr) (s : State) : Option Out :=
  match i with
  | .movBase x => some (execMovBase x s)
  | .movBaseLit x l => some (execMovBaseLit x l s)
  | .mov x => some (execMov x s)
  | .moviBase x => some (execMoviBase x s)
  | .movi x => some (execMovi x s)
  | .sel x => some (execSel x s)
  | .iaddBase x => some (execIaddBase x s)
  | .iaddBaseLit x l => some (execIaddBaseLit x l s)
  | .iadd x => some (execIadd x s)
  | .isubBase x => some (execIsubBase x s)
  | .isubBaseLit x l => some (execIsubBaseLit x l s)
  | .isub x => some (execIsub x s)
  | .iminBase x => some (execIminBase x s)
  | .iminBaseLit x l => some (execIminBaseLit x l s)
  | .imin x => some (execImin x s)
  | .imaxBase x => some (execImaxBase x s)
  | .imaxBaseLit x l => some (execImaxBaseLit x l s)
  | .imax x => some (execImax x s)
  | .andBase x => some (execAndBase x s)
  | .andBaseLit x l => some (execAndBaseLit x l s)
  | .and x => some (execAnd x s)
  | .orBase x => some (execOrBase x s)
  | .orBaseLit x l => some (execOrBaseLit x l s)
  | .or x => some (execOr x s)
  | .xorBase x => some (execXorBase x s)
  | .xorBaseLit x l => some (execXorBaseLit x l s)
  | .xor x => some (execXor x s)
  | .shlBase x => some (execShlBase x s)
  | .shlBaseLit x l => some (execShlBaseLit x l s)
  | .shl x => some (execShl x s)
  | .shrBase x => some (execShrBase x s)
  | .shrBaseLit x l => some (execShrBaseLit x l s)
  | .shr x => some (execShr x s)
  | .isetp x => some (execIsetp x s)
  | .braShort x => some (execBraShort x s)
  | .bra x => some (execBra x s)
  | .exitBase x => some (execExitBase x s)
  | .exit x => some (execExit x s)
  | _ => none

/-- Offset of each instruction of a program. -/
def progAt : Nat → List Instr → List (Nat × Instr)
  | _, [] => []
  | at_, i :: r => (at_, i) :: progAt (at_ + i.len) r

/-- Where a `BRA` leads, from its own offset. -/
def braTarget (at_ : Nat) : Instr → Option Int
  | .braShort x => some (at_ + 4 * x.off.toInt)
  | .bra x => some (at_ + 4 * x.off.toInt)
  | _ => none

def isExitInstr : Instr → Bool
  | .exitBase _ => true
  | .exit _ => true
  | _ => false

/-- An instruction of a rank program from its bytes. A `SEL` may write a scalar register here, as the evaluator has
no other (12 R277, log entry 67). -/
def rankInstr (bs : List Byte) : Option Instr :=
  match (decodeBytes bs).instr? with
  | some i => some i
  | none => match (decodeBytes (bs.set 2 0xF0#8)).instr?, Opnd.ofCode (bs.getD 2 0#8) with
    | some (.sel x), some (.s r) => if Role.legal false (.s r) (.dst x.ty.regs) then some (.sel { x with a := .s r }) else none
    | _, _ => none

/-- An instruction is well formed in a rank program. -/
def rankWf : Instr → Bool
  | .sel x => match x.a with
    | .s r => Role.legal false (.s r) (.dst x.ty.regs) && (Instr.sel { x with a := .zero }).wf
    | _ => (Instr.sel x).wf
  | i => i.wf

/-- Registers `s0`-`s15`, `p0`-`p3`, and for `SLD` records `b0` and `b1` (12 R277). -/
def rankRegs (i : Instr) : Bool :=
  let sld := match i with
    | .sld _ => true
    | _ => false
  (match i.guard with
    | some g => decide (g.pred.toNat < 4)
    | none => true) &&
  ((shapeOf i.op.toNat i.fields).uses i.fields).all fun u =>
    (decide (0xC0 ≤ u.code) && decide (u.code < 0xD0)) || (decide (0x100 ≤ u.code) && decide (u.code < 0x104)) ||
      (sld && (u.code == 0x200 || u.code == 0x201))

/-- Firmware's check of a rank program (12 R277). -/
def rankProgOk (p : List Instr) : Bool :=
  let ps := progAt 0 p
  decide (1 ≤ p.length) && decide (p.length ≤ 32) && p.all rankWf && p.all rankRegs &&
    p.all (fun i => (rankMeaning i {}).isSome || (match i with
      | .sld _ => true
      | _ => false)) && p.dropLast.all (fun i => !isExitInstr i) &&
    (match p.getLast? with
      | some i => isExitInstr i && i.guard.isNone
      | none => false) &&
    ps.all fun q => match braTarget q.1 q.2 with
      | some t => decide ((q.1 : Int) < t) && ps.any fun r => (r.1 : Int) == t
      | none => true

/-- Read a program: up to 32 instructions, to its first `EXIT`. -/
def readProg (asid : Nat) : Nat → Nat → State → Option (List Instr) × State
  | 0, _, s => (some [], s)
  | fuel + 1, va, s =>
    match s.deviceRead asid va 4 with
    | (none, s) => (none, s)
    | (some w, s) =>
      match s.deviceRead asid va (codeLen (ofBytes w)) with
      | (none, s) => (none, s)
      | (some bs, s) =>
        match rankInstr bs with
        | none => (none, s)
        | some i =>
          if isExitInstr i then (some [i], s)
          else
            let r := readProg asid fuel (va + i.len) s
            (r.1.map fun l => i :: l, r.2)

/-- One `SLD` of a rank program: record 0 is the packet, record 1 the rank-state block. -/
def rankSld (x : XForm) (pkt block : List Byte) (s : State) : State :=
  let g := s.me
  let size := accessSize x
  let at_ := (signed 32 (opVal g x.lit x.b 1 0) + x.imm.toInt) * size
  let row := signed 32 (opVal g x.lit x.c 1 0)
  let src := if auxRec x = 0 then pkt else block
  let bs := if 0 ≤ at_ ∧ at_ + size ≤ 64 ∧ row = 0 then (src.drop at_.toNat).take size
    else List.replicate size 0#8
  let i := begin_ (.sld x) s
  if i.run = 0#32 then i.done
  else (i.mod fun g => g.putRange x.a (memRegs x) 0 (extendLoad x.fam bs)).done

/-- One `SEL` of a rank program: lane 0's predicate chooses (05 R99). -/
def rankSel (x : XForm) (s : State) : State :=
  let i := issueOf (.sel x) s
  let w := x.ty.regs
  let o := if s.predAt (bits x.aux 3 0) 0 != x.aux.getLsbD 4 then x.b else x.c
  if i.run = 0#32 then i.done else (i.mod fun g => g.writeDst x.a w 0 (opVal g x.lit o w 0)).done

/-- Run a rank program to its `EXIT`: the group that runs it holds nothing but `s0`-`s15` and `p0`-`p3`. -/
def rankRun (prog : List (Nat × Instr)) (pkt block : List Byte) : Nat → State → Word
  | 0, s => (s.grp 0).sreg 0
  | fuel + 1, s =>
    match (s.grp 0).issueEntry with
    | none => (s.grp 0).sreg 0
    | some e =>
      match prog.find? fun p => p.1 == e.pc.toNat with
      | none => (s.grp 0).sreg 0
      | some (_, .sld x) => rankRun prog pkt block fuel (rankSld x pkt block s)
      | some (_, .sel x) => rankRun prog pkt block fuel (rankSel x s)
      | some (_, i) =>
        match rankMeaning i s with
        | some (.next t) => rankRun prog pkt block fuel t
        | _ => (s.grp 0).sreg 0

/-- The rank of a packet (12 R277): the program's `s0`, or the low 32 bits of the arrival count; none where
the rank-state block cannot be read. -/
def State.rankOf (s : State) (q : Queue) (pkt : List Byte) : Option Nat × State :=
  if q.prog.isEmpty then (some (q.arrivals % 2 ^ 32), s)
  else match s.deviceRead q.d.asid q.d.rstate 64 with
    | (none, s) => (none, s)
    | (some block, s) =>
      let g : Group := { live := true, ns := 48, nv := 1, nb := 2, frontier := [⟨0, 0, allLanes, false, 0⟩] }
      (some (rankRun (progAt 0 q.prog) pkt block 33 { groups := [(0, g)] }).toNat, s)

/-! ### Configuration -/

/-- A partition belongs to an owner. -/
def State.partOwned (s : State) (part owner : Nat) : Bool := (s.part part).on && (s.part part).owner == owner

/-- An ASID belongs to an owner. -/
def State.asidOwned (s : State) (asid owner : Nat) : Bool :=
  match Sp.get? s.fw.asids asid with
  | some (_, o) => o == owner
  | none => false

/-- The device number of a function's queue. -/
def State.queueAt (s : State) (fn num : Nat) : Option Nat :=
  (s.queues.find? fun kv => kv.2.on && kv.2.fn == fn && kv.2.num == num).map (·.1)

/-- The lowest device number without a queue. -/
def State.freeQueue (s : State) : Option Nat := (List.range 4096).find? fun k => !(s.queue k).on

/-- The lowest number without a queue of a function: firmware numbers them from 0 (14 R361). -/
def State.freeNum (s : State) (fn : Nat) : Option Nat :=
  (List.range 4096).find? fun k => (s.queueAt fn k).isNone

/-- Configure a queue of a function (12 R272): status 0, 2 where the descriptor is refused, 3 where no
queue is left. A number that is not configured yet must be the function's next (14 R361, log entry 68). -/
def State.configQueue (s : State) (fn num owner : Nat) (d : QueueDesc) : Nat × State :=
  if ((s.queueAt fn num).isNone ∧ s.freeNum fn ≠ some num) ∨ !d.rsvd ∨ d.logsz < 4 ∨ 16 < d.logsz ∨ d.base % 64 ≠ 0 ∨ !s.partOwned d.part owner ∨
      !s.asidOwned d.asid owner ∨ 4096 ≤ num then (2, s)
  else
    match (if d.rankprg = 0 then (some [], s) else readProg d.asid 32 d.rankprg s) with
    | (none, s) => (2, s)
    | (some p, s) =>
      if d.rankprg ≠ 0 ∧ !rankProgOk p then (2, s)
      else match (match s.queueAt fn num with
          | some k => some k
          | none => s.freeQueue) with
        | none => (3, s)
        | some k =>
          (0, s.modQueue k fun q => { on := true, fn := fn, num := num, owner := owner, d := d, prog := p,
                                      admin := q.on && q.admin })

/-- The descriptor of Table 12.1 in memory. -/
def queueDescOf (bs : List Byte) : QueueDesc :=
  let n := fun (off k : Nat) => ofBytes ((bs.drop off).take k)
  { base := n 0 8, logsz := n 8 1, part := n 9 1, asid := n 10 2, msix := n 12 4, rankprg := n 16 8,
    rstate := n 24 8, errw := n 32 8, rsvd := n 40 24 == 0 }

/-! ### Errors and the doorbell -/

/-- Raise an MSI-X vector of a function; it has 2,048 (14 R360), and a higher number raises none (log entry 69). -/
def State.raiseMsix (s : State) (fn v : Nat) : State :=
  if 2048 ≤ v then s else s.modFw fun f => { f with msix := f.msix ++ [(fn, v)] }

/-- A queue in error stops reading; its error word is written and MSIX raised (12 R275). -/
def State.queueError (s : State) (qn reason : Nat) : State :=
  let q := s.queue qn
  let s := s.modQueue qn fun q => { q with err := reason, wait := none, ind := none }
  (s.deviceWrite q.d.asid q.d.errw (toBytes 8 (q.rd.toNat * 2 ^ 32 + reason))).raiseMsix q.fn q.d.msix

/-- A write of a queue's doorbell makes the value its write index (12 R272). -/
def State.ringDoorbell (s : State) (qn : Nat) (w : Word) : State :=
  let q := s.queue qn
  if q.err ≠ 0 then s
  else if 2 ^ 31 ≤ (w - q.wr).toNat ∨ 2 ^ q.d.logsz < (w - q.rd).toNat then s.queueError qn 2
  else s.modQueue qn fun q => { q with wr := w }

/-- An area of the host mailbox: 256 bytes (14 R361). -/
def areaBytes (bs : List Byte) : List Byte := (bs ++ List.replicate 256 0#8).take 256

/-- Replace bytes of a list from an offset. -/
def spliceBytes (old : List Byte) (at_ : Nat) (bs : List Byte) : List Byte :=
  old.take at_ ++ bs ++ old.drop (at_ + bs.length)

/-- A host write of a 4-byte register of a function's BAR 0 (12 R272; 14 R361): the mailbox's command area, or the
doorbell of a queue. What configures nothing is dropped, and a write to the doorbell of a queue that is not
configured is logged. -/
def execQueueDoorbellWrite (fn off : Nat) (w : Word) (s : State) : Out :=
  .next (if 64 ≤ fn ∨ off % 4 ≠ 0 then s
  else if 0x1000 ≤ off ∧ off < 0x1100 then
    s.modFw fun f => { f with
      commands := Sp.put f.commands fn
        (spliceBytes (areaBytes (Sp.get [] f.commands fn)) (off - 0x1000) (toBytes 4 w.toNat)) }
  else if off < 0x10000 ∨ 0x18000 ≤ off ∨ off % 8 ≠ 0 then s
  else match s.queueAt fn ((off - 0x10000) / 8) with
    | none => s.modFw fun f => { f with drops := f.drops + 1 }
    | some qn => s.ringDoorbell qn w)

/-! ### Reading packets -/

/-- Packets of one queue that were read before another and are not complete, its INDIRECT packet apart. -/
def State.olderOpen (s : State) (qn num : Nat) (parent : Option Nat) : Bool :=
  s.packets.any fun kv => decide (kv.1 < num) && kv.2.queue == qn && parent != some kv.1

/-- Complete a packet; an INDIRECT packet completes with the last packet of its buffer (12 R273). -/
def State.donePacket (s : State) (num : Nat) : State :=
  match Sp.get? s.packets num with
  | none => s
  | some p =>
    let s := { s with packets := Sp.del s.packets num, rankQ := s.rankQ.filter (· != num) }
    match p.parent with
    | none => s
    | some k =>
      let reading := match (s.queue p.queue).ind with
        | some (j, _, _) => j == k
        | none => false
      if reading || s.packets.any (fun kv => kv.2.parent == some k) then s
      else { s with packets := Sp.del s.packets k }

/-- FENCE packets complete once everything before them has (12 R273). -/
def State.turnFences (s : State) : State :=
  s.packets.foldl (fun s kv =>
    let p := kv.2
    if ofBytes (p.bytes.take 1) ≠ 9 ∨ !(Sp.has s.packets kv.1) then s
    else
      let other := ofBytes ((p.bytes.drop 8).take 8)
      let fn := (s.queue p.queue).fn
      let open_ := s.olderOpen p.queue kv.1 p.parent ||
        (match (if other = 0xFFFF then none else s.queueAt fn other) with
          | some k => s.olderOpen k kv.1 none
          | none => false)
      if open_ then s else s.donePacket kv.1) s

/-- A packet completes, and what waited for it. -/
def State.finishPacket (s : State) (num : Nat) : State := (s.donePacket num).turnFences

/-- The address of the next packet of a queue, and whether it lies in an INDIRECT buffer. -/
def State.nextPacketAt (s : State) (qn : Nat) : Option (Nat × Option Nat) :=
  let q := s.queue qn
  if !q.on || q.err != 0 || q.stopped || q.wait.isSome || decide (4096 ≤ s.rankQ.length) then none
  else match q.ind with
    | some (p, at_, _) => some (at_, some p)
    | none => if q.rd = q.wr then none else some (q.d.base + 64 * (q.rd.toNat % 2 ^ q.d.logsz), none)

/-- What reading a queue's next packet comes to. -/
inductive Taken where
  | nothing
  | error (reason : Nat)
  | packet (bytes : List Byte) (parent : Option Nat)

/-- A packet that no queue accepts (12 R273; 13 R310, R315): an unknown KIND, or a nonzero RSVD field. -/
def packetBad (bs : List Byte) : Bool :=
  let n := fun (off k : Nat) => ofBytes ((bs.drop off).take k)
  let h := n 0 4
  field h 10 22 != 0 || field h 8 1 != 0 || decide (9 < n 0 1) ||
    (n 0 1 == 4 && (decide (2 < n 8 4 % 16) || n 8 4 / 2 ^ 10 != 0 || n 12 4 != 0 || n 0x20 32 != 0)) ||
    (n 0 1 == 3 && (n 8 4 / 2 ^ 6 != 0 || n 12 4 != 0 || n 0x28 24 != 0))

/-- Read a queue's next packet, as far as its header and ORD let it. -/
def State.peekPacket (s : State) (qn : Nat) : Taken × State :=
  match s.nextPacketAt qn with
  | none => (.nothing, s)
  | some (at_, parent) =>
    match s.deviceRead (s.queue qn).d.asid at_ 64 with
    | (none, s) => (.error 5, s)
    | (some bs, s) =>
      (if packetBad bs then .error 1
      else if parent.isSome && ofBytes (bs.take 1) == 7 then .error 4
      else if (ofBytes ((bs.drop 1).take 1)).testBit 1 && s.olderOpen qn s.serial parent then .nothing
      else .packet bs parent, s)

/-- The read index moves past the packet, or the INDIRECT buffer does. -/
def State.stepQueue (s : State) (qn : Nat) : State :=
  s.modQueue qn fun q =>
    match q.ind with
    | some (p, at_, left) => { q with ind := if left ≤ 1 then none else some (p, at_ + 64, left - 1) }
    | none => { q with rd := q.rd + 1 }

/-- Index that reports of a packet name: its own in the ring, or that of its INDIRECT packet (12 R275). -/
def State.indexOf (s : State) (qn : Nat) : Option Nat → Nat
  | none => (s.queue qn).rd.toNat
  | some p => (Sp.get ⟨4096, 0, [], 0, 0, none⟩ s.packets p).index

/-- Read the next packet of a queue if it is of one kind (and passes `also`), and go on with its number;
the packet is open until it is finished. A packet that has been read and is refused has moved the read index; one
that cannot be read has not (12 R272, R275). -/
def State.takePacket (s : State) (qn kind : Nat) (also : List Byte → Bool) (k : State → Nat → List Byte → State) :
    State :=
  s.unlessHeld fun s =>
    match s.peekPacket qn with
    | (.nothing, s) => s
    | (.error r, s) => (if r = 5 then s else s.stepQueue qn).queueError qn r
    | (.packet bs parent, s) =>
      if ofBytes (bs.take 1) ≠ kind ∨ !also bs then s
      else
        let num := s.serial
        let index := s.indexOf qn parent
        let s := s.stepQueue qn
        k { s with serial := num + 1, packets := Sp.put s.packets num { queue := qn, index := index,
                                                                         bytes := bs, parent := parent } } num bs

/-- A number of a packet. -/
def pkt (bs : List Byte) (off n : Nat) : Nat := ofBytes ((bs.drop off).take n)

/-! ### The rank queue (12 R278) -/

/-- F of a TIMED packet; other packets have none. -/
def Packet.timedF (p : Packet) : Option Nat :=
  if pkt p.bytes 0 1 = 3 then some (pkt p.bytes 0x10 8) else none

/-- One packet goes before another: TIMED first, by F; then rank; then arrival. -/
def Packet.before (a b : Packet) : Bool :=
  match a.timedF, b.timedF with
  | some x, some y => decide (x < y) || (x == y && decide (a.arrival < b.arrival))
  | some _, none => true
  | none, some _ => false
  | none, none => decide (a.rank < b.rank) || (a.rank == b.rank && decide (a.arrival < b.arrival))

def State.packetOf (s : State) (num : Nat) : Packet := Sp.get ⟨4096, 0, [], 0, 0, none⟩ s.packets num

/-- Insert a packet into the rank queue at its place. -/
def State.insertRank (s : State) (num : Nat) : List Nat → List Nat
  | [] => [num]
  | k :: r => if (s.packetOf num).before (s.packetOf k) then num :: k :: r else k :: s.insertRank num r

/-- Pass a packet to the rank queue; a rank-state block that cannot be read puts the queue in error. -/
def State.passRank (s : State) (num : Nat) : State :=
  let p := s.packetOf num
  match s.rankOf (s.queue p.queue) p.bytes with
  | (none, s) => (s.queueError p.queue 5).finishPacket num
  | (some r, s) =>
    let s := { s with packets := Sp.put s.packets num { p with rank := r, arrival := num } }
    let s := s.modQueue p.queue fun q => { q with arrivals := q.arrivals + 1 }
    { s with rankQ := s.insertRank num s.rankQ }

end Sys2Proof.Machine
end

