-- ==== Sys2Proof/Machine/Place.lean ====
section
/-! DEFINITION. Placing teams (02 R18 to R21, R38; 12 R278, R282; 13 R316, R317): what a team uses of a
core, where a cluster fits, and its start. -/

namespace Sys2Proof.Machine

open Sys2Proof

/-! ### Uses of a core -/

/-- What is used of a core: slots and chunks by scheduler, scratchpad bytes, barriers, pattern tables. -/
structure Use where
  slots : List Nat := [0, 0, 0, 0]
  chunks : List Nat := [0, 0, 0, 0]
  scratch : Nat := 0
  bars : Nat := 0
  pats : Nat := 0
  deriving DecidableEq, Repr

def addLists (a b : List Nat) : List Nat := (a.zip b).map fun p => p.1 + p.2
def maxLists (a b : List Nat) : List Nat := (a.zip b).map fun p => max p.1 p.2

def Use.add (a b : Use) : Use :=
  ⟨addLists a.slots b.slots, addLists a.chunks b.chunks, a.scratch + b.scratch, a.bars + b.bars,
    a.pats + b.pats⟩

def Use.max (a b : Use) : Use :=
  ⟨maxLists a.slots b.slots, maxLists a.chunks b.chunks, Nat.max a.scratch b.scratch, Nat.max a.bars b.bars,
    Nat.max a.pats b.pats⟩

def sumUse (l : List Use) : Use := l.foldl Use.add {}

/-- A core holds no more: 16 slots and 3,072 chunks a scheduler, 655,360 scratchpad bytes, 1,024 barriers,
64 pattern tables (01 R11; 02 R38; 12 R282). -/
def Use.fits (u : Use) : Bool :=
  u.slots.all (· ≤ 16) && u.chunks.all (· ≤ 3072) && decide (u.scratch ≤ 655360) && decide (u.bars ≤ 1024) &&
    decide (u.pats ≤ 64)

/-- How many of the numbers 0 to n − 1 that a test admits fall on scheduler k (02 R19). -/
def onSched (n k : Nat) (ok : Nat → Bool) : Nat := ((List.range n).filter fun g => g % 4 == k && ok g).length

/-- Chunks that a group reserves (02 R38). -/
def groupChunks (r : LaunchRec) : Nat := (if r.cls = 0 then 2 else 4) * r.nv

/-- What a team of a launch record uses, of its declared groups those that a test admits. -/
def recUse (r : LaunchRec) (ok : Nat → Bool) : Use :=
  let g := fun (k : Nat) => onSched r.groups k ok
  let h := fun (k : Nat) => onSched r.handlers k fun _ => true
  { slots := (List.range 4).map fun k => g k + h k
    chunks := (List.range 4).map fun k => groupChunks r * g k + 128 * h k
    scratch := r.scratch, bars := r.bars, pats := r.pats }

/-- What a team on a core uses; a declared group that has ended has returned its slot and chunks (15
R387). -/
def State.teamUse (s : State) (t : Team) : Use :=
  recUse (s.launch t.launch).r fun g => match Sp.get? t.groups g with
    | some n => (s.grp n).live
    | none => true

/-! ### Reserved copies (13 R316, R317) -/

/-- The cores of a rectangle from its corner, in the order of the team's index in the cluster. -/
def rectCores (r : LaunchRec) (corner : Nat) : List Nat :=
  (List.range (r.cx * r.cy)).map fun k => corner + k % r.cx + 16 * (k / r.cx)

/-- The rectangle lies in the mesh, in a partition, and off the firmware core. -/
def rectOk (p : Partition) (r : LaunchRec) (corner : Nat) : Bool :=
  let x := corner % 16
  let y := corner / 16
  decide (p.x ≤ x) && decide (x + r.cx ≤ p.x + p.w) && decide (p.y ≤ y) && decide (y + r.cy ≤ p.y + p.h) &&
    decide (x + r.cx ≤ 16) && decide (y + r.cy ≤ 16) && !(rectCores r corner).contains 0

/-- What a copy of a stream's template uses on a core. -/
def Stream.copyUse (st : Stream) (copy : List Spot) (core : Nat) : Use :=
  sumUse ((copy.filter fun p => match st.tmpl[p.launch]? with
      | some t => (rectCores t.r p.core).contains core
      | none => false).map fun p => match st.tmpl[p.launch]? with
      | some t => recUse t.r fun _ => true
      | none => {})

/-- VL, the vacate lead (13 R317). -/
def Stream.lead (st : Stream) : Nat := st.d.vc + st.d.dw + 1000

/-- S of strip g (13 R312). -/
def Stream.startOf (st : Stream) (now : BitVec 64) (g : Nat) : Int := st.deadline now g - st.budget

/-- A copy is lent while it holds no instance and the lead of none has begun. -/
def State.copyIdle (s : State) (stream copy : Nat) : Bool :=
  let st := s.stream stream
  let held := s.insts.any fun kv => kv.2.live && kv.2.stream == stream && kv.2.copy == copy &&
    (st.d.isStrip || decide (kv.2.s ≤ s.time.toNat + st.lead))
  let soon := st.d.isStrip && s.locked && (List.range st.d.q).any fun j =>
    (st.nextG + j) % st.d.q == copy && decide (st.startOf s.time (st.nextG + j) - st.lead ≤ s.time.toNat)
  !(held || soon)

/-- What the copies that a test selects use on a core. -/
def State.copiesUse (s : State) (stream core : Nat) (sel : Nat → Bool) : Use :=
  let st := s.stream stream
  sumUse ((((List.range st.reserved.length).zip st.reserved).filter fun p => sel p.1).map fun p =>
    st.copyUse p.2 core)

/-- Teams that stand on a core and pass a test. -/
def State.teamsAt (s : State) (core : Nat) (sel : Team → Bool) : List (Nat × Team) :=
  s.teams.filter fun kv => kv.2.standing && kv.2.core == core && sel kv.2

/-- What the borrowers of a stream that a test on their copies selects use on a core. -/
def State.lentUse (s : State) (stream core : Nat) (sel : List Nat → Bool) : Use :=
  sumUse ((s.teamsAt core fun t => match t.lent with
    | some (k, cs) => k == stream && sel cs
    | none => false).map fun kv => s.teamUse kv.2)

/-- What a stream takes of a core while `free` of its copies are left to one more borrower: the copies in use, what
the other idle ones reserve or their borrowers use, if more, and the borrowers on the free ones. -/
def State.streamUse (s : State) (stream core : Nat) (free : List Nat) : Use :=
  let meets := fun (cs : List Nat) => cs.any free.contains
  ((s.copiesUse stream core fun c => !s.copyIdle stream c).add
    ((s.copiesUse stream core fun c => s.copyIdle stream c && !free.contains c).max
      (s.lentUse stream core fun cs => !meets cs))).add (s.lentUse stream core meets)

/-- What the teams that stand on no reserved slots use. -/
def State.plainUse (s : State) (core : Nat) : Use :=
  sumUse ((s.teamsAt core fun t => t.lent.isNone && (s.launch t.launch).inst.isNone).map fun kv => s.teamUse kv.2)

/-- Streams that hold reservations. -/
def State.streamIds (s : State) : List Nat := (s.streams.filter fun kv => kv.2.on).map (·.1)

/-- One more team fits on a core, on free slots or on those that copies of a stream lend. -/
def State.roomFor (s : State) (core : Nat) (u : Use) (lent : Option (Nat × List Nat)) : Bool :=
  let free := fun (k : Nat) => match lent with
    | some (j, cs) => if j = k then cs else []
    | none => []
  (((s.plainUse core).add (sumUse (s.streamIds.map fun k => s.streamUse k core (free k)))).add u).fits

/-- A core holds a reserved slot, so that it runs in guard margin (13 R318). -/
def State.guarded (s : State) (core : Nat) : Bool :=
  (s.streamIds.any fun k => (s.copiesUse k core fun _ => true) != {}) ||
    !(s.teamsAt core fun t => (s.launch t.launch).r.cls == 2).isEmpty

/-! ### Spill slots and save bounds -/

/-- ZS, the bound on a save image (15 R383). -/
def saveBound (r : LaunchRec) : Nat :=
  r.scratch + (r.scratch + 255) / 256 + 16 * r.bars + 256 * r.pats + 1024 +
    r.groups * (128 * r.nv + 32 * r.nb + 6144)

/-- The spill slot of a team (12 R282). -/
def spillSlot (r : LaunchRec) : Nat := r.groups * (256 * r.nv + 6144)

/-- Teams of a launch that hold a spill slot: those placed and not ended. -/
def State.spillsUsed (s : State) (l : Nat) : Nat :=
  (s.teams.filter fun kv => kv.2.launch == l && kv.2.life != .none && kv.2.life != .ended).length

/-- A launch whose teams may stand on slots lent by a stream (13 R317): class D, or a save that lasts no
longer than VC. -/
def mayBorrow (r : LaunchRec) (st : Stream) : Bool :=
  r.cls != 2 && (!r.classS || decide (1000 + (r.savemax + 63) / 64 ≤ st.d.vc))

/-! ### Where a cluster fits -/

/-- A start or end boundary of a launch can be taken on a core: no engine owns a line that it commits. -/
def State.edgeFree (s : State) (core : Nat) : Bool :=
  (s.boundaryHeld core).isEmpty && (s.core core).upd.all fun u => !s.isOwned (lineOf u.addr)

/-- A boundary at the start or end of a launch (08 R186, R188). -/
def State.launchEdge (s : State) (core : Nat) : State :=
  let s := (s.mergeCore core fun _ => true).launchBoundary core
  -- guard margin after repeated timing errors lasts until a launch boundary of the core (04 R92)
  { s with scheds := s.scheds.map fun (kv : Nat × Sched) =>
      (kv.1, if kv.1 / 4 = core then { kv.2 with guard := false } else kv.2) }

/-- What lends slots to the teams of a launch: each idle copy of a stream of its partition, or all of them
together. -/
def State.lenders (s : State) (x : Launch) : List (Nat × List Nat) :=
  (s.streamIds.filter fun k => (s.stream k).part == x.part && mayBorrow x.r (s.stream k)).flatMap fun k =>
    let idle := (List.range (s.stream k).reserved.length).filter (s.copyIdle k)
    (idle.map fun c => (k, [c])) ++ if 1 < idle.length then [(k, idle)] else []

/-- A borrower stands on slots of a copy of a stream. -/
def Team.borrows (t : Team) (stream copy : Nat) : Bool :=
  match t.lent with
  | some (k, cs) => k == stream && cs.contains copy
  | none => false

/-- The places of the next cluster of a launch that fit: corner and the copies that lend. -/
def State.cornersFor (s : State) (l : Nat) (clz : Nat) : List (Nat × Option (Nat × List Nat)) :=
  let x := s.launch l
  let need := recUse x.r fun _ => true
  let ok := fun (c : Nat) (lent : Option (Nat × List Nat)) => rectOk (s.part x.part) x.r c &&
    (rectCores x.r c).all fun k => s.roomFor k need lent && s.edgeFree k
  if x.r.spillsz / max 1 (spillSlot x.r) < s.spillsUsed l + x.r.cx * x.r.cy then []
  else match x.inst with
    | some k =>
      let i := s.instance_ k
      let copy := ((s.stream i.stream).reserved[i.copy]?).getD []
      let mine := copy.filter fun p => p.launch == i.cur && p.clz == clz
      (mine.filter fun p => (rectCores x.r p.core).all fun c => s.edgeFree c &&
        (s.teamsAt c fun t => t.borrows i.stream i.copy).isEmpty).map fun p => (p.core, none)
    | none =>
      let free := ((List.range 256).filter fun c => ok c none).map fun c => (c, none)
      free ++ (s.lenders x).flatMap fun k => ((List.range 256).filter fun c => ok c (some k)).map fun c => (c, some k)

/-! ### Placing a cluster -/

/-- A declared group at its start (12 R280). -/
def newGroup (x : Launch) (team gid started : Nat) : Group :=
  { live := true, team := team, gid := gid, started := started
    cls := match x.r.cls with
      | 2 => .timed
      | 1 => .handler
      | _ => .background
    nv := x.r.nv, ns := x.r.ns, nb := x.r.nb, s := x.sInit, b := x.bInit, mode := x.r.mode,
    nbv := BitVec.ofNat 32 x.r.nbv
    frontier := [⟨BitVec.ofNat 57 x.r.entry, x.prio, allLanes, false, 0⟩] }

/-- A launch has started: it has no START, or device time has reached it after the first lock (12 R282,
01 R16). -/
def State.launchBegun (s : State) (x : Launch) : Bool :=
  x.r.start == 0 || (s.locked && decide (x.r.start ≤ s.time.toNat))

/-- Place one team on a core. -/
def State.placeTeam (s : State) (l clz k core : Nat) (lent : Option (Nat × List Nat)) : State :=
  let x := s.launch l
  let tn := s.serial
  let gs := (List.range x.r.groups).map fun g => (g, tn + 1 + g)
  let t : Team :=
    { life := if s.launchBegun x then .resident else .placed
      launch := l, clx := k % x.r.cx, cly := k / x.r.cx, clz := clz, number := clz * (x.r.cx * x.r.cy) + k,
      core := core, groups := gs, ngroups := x.r.groups, nhandlers := x.r.handlers, ssize := x.r.scratch,
      nbars := x.r.bars, npats := x.r.pats, lent := lent, placedAt := s.time }
  let s := { s with serial := tn + 1 + x.r.groups }
  (gs.foldl (fun s p => s.setGrp p.2 (newGroup x tn p.1 p.2)) (s.setTeam tn t)).trace tn 0xFF 1 0

/-- The start boundary of a launch on a core that it comes to use. -/
def State.startEdge (s : State) (l core : Nat) : State :=
  if Sp.get false (s.launch l).started core then s
  else (s.launchEdge core).modLaunch l fun x => { x with started := Sp.put x.started core true }

/-- A placed team starts with the start of its launch: its groups start in the order of their numbers, after those that
have started before (12 R289). -/
def State.startTeam (s : State) (tn : Nat) : State :=
  let t := s.team tn
  let s := (s.startEdge t.launch t.core).modTeam tn fun t => { t with life := .resident }
  t.groups.foldl (fun s kv =>
    { s.modGrp kv.2 fun g => { g with started := s.serial } with serial := s.serial + 1 }) s

/-- Place the next cluster of a launch at a corner, all its teams at once (02 R20). -/
def State.placeCluster (s : State) (l corner : Nat) (lent : Option (Nat × List Nat)) : State :=
  let x := s.launch l
  let cores := rectCores x.r corner
  let begun := s.launchBegun x
  let s := ((List.range cores.length).zip cores).foldl (fun s (p : Nat × Nat) =>
    let s := s.placeTeam l x.placed p.1 p.2 lent
    if begun then s.startEdge l p.2 else s) s
  s.modLaunch l fun x =>
    let x := { x with placed := x.placed + 1, lastIssue := s.time }
    { x with life := if x.placed = x.r.grid then .running else .placing }

/-- The launch's owner holds its partition: one whose partition has changed hands stays suspended (log entry 72). -/
def State.holdsPart (s : State) (x : Launch) : Bool :=
  (s.part x.part).owner == x.owner && !(s.part x.part).rebind.any (·.save)

/-- Teams of a partition that were vacated and stand before its other work (12 R287). -/
def State.vacatedIn (s : State) (part : Nat) : Bool :=
  s.teams.any fun kv => (kv.2.life == .saved || kv.2.life == .discarded) &&
    (s.launch kv.2.launch).part == part && s.holdsPart (s.launch kv.2.launch)

/-- A gang whose placement deadline has passed holds a partition (12 R287). -/
def State.gangHolds (s : State) (part : Nat) : Bool :=
  s.gangs.any fun kv => kv.2.live && kv.2.forced && kv.2.tg.isNone &&
    kv.2.parts.any fun l => (s.launch l).part == part

/-- Place the next cluster of a launch if it fits; where is a choice. -/
def State.tryPlace (s : State) (l : Nat) : Option State :=
  match s.cornersFor l (s.launch l).placed with
  | [] => none
  | cs =>
    let k := s.choose cs.length
    let c := cs.getD k.1 (0, none)
    some (k.2.placeCluster l c.1 c.2)

end Sys2Proof.Machine
end

