-- ==== Sys2Proof/Machine/Launch.lean ====
section
/-! DEFINITION. Launches (12 R279 to R284): the launch record and the entry table, the checks that refuse
a launch, the completion record, and the end of launches, gangs and instances. -/

namespace Sys2Proof.Machine

open Sys2Proof

/-! ### The launch record (12 Table 12.4) -/

/-- Read the fields of a launch record. -/
def parseLaunch (bs : List Byte) : LaunchRec :=
  let n := fun (off k : Nat) => pkt bs off k
  let f := fun (off lo w : Nat) => field (n off 4) lo w
  { entry := n 0 8, grid := n 8 4, groups := f 0x0C 0 5 + 1, handlers := f 0x0C 5 5, cx := f 0x0C 10 4 + 1,
    cy := f 0x0C 14 4 + 1, nv := f 0x10 0 8, ns := f 0x10 8 6, nb := f 0x10 14 6, scratch := n 0x14 4,
    bars := f 0x18 0 11, pats := f 0x18 11 7, mode := BitVec.ofNat 32 (n 0x1C 4), rectab := n 0x20 8,
    reccnt := n 0x28 4, nbv := f 0x2C 0 4, cls := f 0x2C 4 2, classS := f 0x2C 6 1 == 1, param := n 0x30 8,
    savemax := n 0x38 4, port := n 0x3C 2, start := n 0x40 8, compl := n 0x48 8, spill := n 0x50 8,
    spillsz := n 0x58 4, vigilUs := f 0x5C 0 20, vigilMs := f 0x5C 20 12, htab := n 0x60 8,
    traph := BitVec.ofNat 64 (n 0x68 8), logMode := f 0x70 0 2, haltMm := f 0x70 2 1 == 1, logbuf := n 0x78 8,
    rsvd := f 0x0C 18 14 != 0 || f 0x10 20 12 != 0 || f 0x18 18 14 != 0 || f 0x2C 7 25 != 0 || n 0x3E 2 != 0 ||
      n 0x74 4 != 0 || field (n 0x68 8) 44 20 != 0 || f 0x70 3 29 != 0 }

/-- A field outside Table 12.4 or Table 2.1. -/
def launchRange (r : LaunchRec) : Bool :=
  r.entry % 4 != 0 || decide (2 ^ 57 ≤ r.entry) || r.grid == 0 || decide (2 ^ 24 < r.grid) ||
    decide (16 < r.handlers) || decide (12 < r.cx * r.cy) || r.nv == 0 || decide (192 < r.nv) ||
    decide (48 < r.ns) || decide (32 < r.nb) || r.scratch % 32 != 0 || decide (655360 < r.scratch) ||
    decide (1024 < r.bars) || decide (64 < r.pats) || r.mode &&& ~~~modeMask != 0#32 ||
    decide (5 ≤ bits r.mode 4 2) || r.rectab % 32 != 0 || !(r.nbv == 1 || r.nbv == 2) || r.cls == 3 ||
    r.param % 4 != 0 || decide (4095 < r.port) || r.compl % 8 != 0 || r.spill % 128 != 0 || r.htab % 8 != 0

/-- The cluster rectangle fits the partition somewhere. -/
def rectFits (p : Partition) (r : LaunchRec) : Bool := (List.range 256).any fun c => rectOk p r c

/-- The log header of a replay agrees with the launch (16 R399). -/
def State.logMatches (s : State) (asid : Nat) (tag : Word) (r : LaunchRec) : Bool × State :=
  if r.logMode ≠ 2 ∨ r.logbuf = 0 then (true, s)
  else match s.deviceRead asid r.logbuf 0x28 with
    | (some bs, s) => (pkt bs 0x18 8 == tag.toNat && pkt bs 0x20 4 == laneCount && pkt bs 0x24 4 == r.nbv, s)
    | (none, s) => (false, s)

/-- The reasons for which a readable record refuses its launch, the entry table's apart (12 Table 12.4b);
`timed` says that an instance dispatches it, `log` that the log header agrees. -/
def State.recordRefusals (s : State) (part : Nat) (timed : Bool) (r : LaunchRec) (log : Bool) : List Nat :=
  let u := recUse r fun _ => true
  (if r.rsvd then [1] else []) ++ (if launchRange r then [2] else []) ++
    (if 48 < r.groups + r.handlers then [3] else []) ++ (if rectFits (s.part part) r then [] else [4]) ++
    (if u.chunks.all (· ≤ 3072) then [] else [5]) ++ (if !timed && r.cls == 2 then [6] else []) ++
    (if r.savemax < r.scratch + r.groups * (128 * r.nv + 1024) ∨ (r.classS ∧ r.savemax < saveBound r) then [7]
      else []) ++
    (if r.spillsz < spillSlot r then [8] else []) ++
    (if r.logMode = 3 ∨ (r.logMode ≠ 0 ∧ (r.logbuf = 0 ∨ r.logbuf % 4096 ≠ 0)) ∨
      (r.logMode = 2 ∧ (r.cls = 2 ∨ !log)) then [0x0A] else [])

/-! ### The entry table (12 R280) -/

/-- What the entry table gives a launch. -/
structure EntryTab where
  handlers : Sp HandlerEnt := []
  sInit : Sp Word := []
  bInit : Sp Rec := []
  prio : Prio := 2048
  /-- it breaks 12 R280 -/
  bad : Bool := false
  /-- it, the parameter block or the record table cannot be read -/
  unread : Bool := false

/-- One handler entry. -/
def EntryTab.hnd (t : EntryTab) (r : LaunchRec) (h e : Nat) : EntryTab :=
  let nv := field e 44 6
  let t := { t with bad := t.bad || field e 50 14 != 0 || decide (32 < nv) || (nv != 0 && decide (r.handlers ≤ h)) }
  if nv = 0 then t
  else
    let ent : HandlerEnt := ⟨BitVec.ofInt 57 ((r.entry : Int) + 4 * signed 32 (field e 0 32)),
      BitVec.ofNat 12 (field e 32 12), nv⟩
    { t with handlers := Sp.put t.handlers h ent }

/-- One parameter-map entry. -/
def State.pmap (s : State) (asid : Nat) (r : LaunchRec) (t : EntryTab) (k e : Nat) : EntryTab × State :=
  let t := { t with bad := t.bad || field e 14 1 == 1 }
  if field e 15 1 = 0 then (t, s)
  else if r.ns ≤ k then ({ t with bad := true }, s)
  else match s.deviceRead asid (r.param + 4 * field e 0 14) 4 with
    | (some bs, s) => ({ t with sInit := Sp.set 0#32 t.sInit k (BitVec.ofNat 32 (ofBytes bs)) }, s)
    | (none, s) => ({ t with unread := true }, s)

/-- One record-map entry. -/
def State.rmap (s : State) (asid : Nat) (r : LaunchRec) (t : EntryTab) (k e : Nat) : EntryTab × State :=
  if field e 15 1 = 0 then (t, s)
  else if r.nb ≤ k ∨ r.reccnt ≤ field e 0 15 then ({ t with bad := true }, s)
  else match s.deviceRead asid (r.rectab + 32 * field e 0 15) 32 with
    | (some bs, s) =>
      let x : Rec := BitVec.ofNat 256 (ofBytes bs)
      ({ t with bInit := Sp.set nullRec t.bInit k x, bad := t.bad || !recValid x }, s)
    | (none, s) => ({ t with unread := true }, s)

/-- Read the entry table and all that it names, once for the launch. -/
def State.entryTab (s : State) (asid : Nat) (r : LaunchRec) : EntryTab × State :=
  if r.htab = 0 ∨ r.htab % 8 ≠ 0 then ({}, s)
  else match s.deviceRead asid r.htab 320 with
    | (none, s) => ({ unread := true }, s)
    | (some bs, s) =>
      let p := pkt bs 0x120 2
      let t : EntryTab := { prio := BitVec.ofNat 12 p, bad := p / 2 ^ 12 != 0 || pkt bs 0x122 30 != 0 }
      let t := (List.range 16).foldl (fun t h => t.hnd r h (pkt bs (8 * h) 8)) t
      let q := (List.range 48).foldl (fun (q : EntryTab × State) k => q.2.pmap asid r q.1 k (pkt bs (0x80 + 2 * k) 2))
        (t, s)
      (List.range 32).foldl (fun (q : EntryTab × State) k => q.2.rmap asid r q.1 k (pkt bs (0xE0 + 2 * k) 2)) q

/-! ### Checking a launch -/

/-- What reading a launch comes to: refused with a reason (and the record's own completion address), or
an entry that can be dispatched. -/
inductive Read where
  | refused (reason compl : Nat)
  | ok (x : Launch)

/-- Check a launch record and read its entry table (12 R280, R281). -/
def State.checkLaunch (s : State) (part asid : Nat) (tag : Word) (timed : Bool) (r : LaunchRec) : Read × State :=
  let h := s.logMatches asid tag r
  let q := h.2.entryTab asid r
  let codes := q.2.recordRefusals part timed r h.1 ++ (if q.1.bad then [9] else []) ++
    (if q.1.unread then [0x0D] else [])
  match codes with
  | [] =>
    (.ok { r := r, handlers := q.1.handlers, sInit := q.1.sInit, bInit := q.1.bInit, prio := q.1.prio,
           tag := tag, part := part, owner := (q.2.part part).owner, asid := asid, compl := r.compl }, q.2)
  | c :: cs => (.refused (minOf c (c :: cs)) r.compl, q.2)

/-- Read and check a launch record. -/
def State.readLaunch (s : State) (part asid addr : Nat) (tag : Word) : Read × State :=
  match s.deviceRead asid addr 128 with
  | (none, s) => (.refused 0x0D 0, s)
  | (some bs, s) => s.checkLaunch part asid tag false (parseLaunch bs)

/-! ### Completion records (12 R284) -/

/-- The 32 bytes of a completion record, apart from STATUS a record's plain fields. -/
def complBytes (status faults tend implb : Nat) (tag : Word) : List Byte :=
  toBytes 4 status ++ toBytes 4 faults ++ toBytes 8 tend ++ toBytes 4 implb ++ toBytes 4 0 ++
    toBytes 8 tag.toNat

def State.writeCompl (s : State) (asid compl : Nat) (bs : List Byte) : State :=
  if compl = 0 then s else s.deviceWrite asid compl bs

/-- STATUS of a launch or an instance that was not refused. -/
def statusOf (err asyncf vigil killed : Bool) (cause : BitVec 8) : Nat :=
  2 ^ 31 + (if err then 2 ^ 30 else 0) + (if asyncf then 2 ^ 28 else 0) + (if vigil then 2 ^ 27 else 0) +
    (if killed then 2 ^ 26 else 0) + cause.toNat

/-- A refusal: DONE, REFUSED and the reason. -/
def State.refuse (s : State) (asid compl reason : Nat) (tag : Word) : State :=
  s.writeCompl asid compl (complBytes (2 ^ 31 + 2 ^ 29 + reason) 0 s.time.toNat 0 tag)

/-! ### Starting what has been checked -/

/-- Enter a checked launch. -/
def State.addLaunch (s : State) (x : Launch) : Nat × State :=
  (s.serial, { s with serial := s.serial + 1, launches := Sp.put s.launches s.serial x })

/-- A launch is dispatched: a recording launch begins its log. -/
def State.dispatched (s : State) (l : Nat) : State :=
  let x := s.launch l
  let s := s.modLaunch l fun x => { x with life := .placing, lastIssue := s.time }
  if x.r.logMode = 1 then s.logStart l (x.r.grid * (x.r.cx * x.r.cy)) else s

/-! ### The end of a launch -/

/-- Cores that a launch has used. -/
def Launch.coresUsed (x : Launch) : List Nat := x.started.map (·.1)

/-- Every condition of 12 R279 but the boundary holds, and nothing keeps the boundary waiting; a launch whose team a
debugger holds does not complete (16 R396, R403). -/
def State.launchOver (s : State) (l : Nat) : Bool :=
  let x := s.launch l
  x.life == .running && x.placed == x.r.grid && x.clustersDone == x.placed && x.outstanding == 0 &&
    !s.teams.any (fun kv => kv.2.launch == l && kv.2.halted) && !s.fails.any (fun f => f.launch == l) &&
    x.coresUsed.all fun c => s.edgeFree c && (s.peersHeld c).isEmpty

/-- The core-side and table entries of a finished launch go. -/
def State.dropLaunch (s : State) (l : Nat) : State :=
  let mine := s.teams.filter fun kv => kv.2.launch == l
  let ids := mine.map (·.1)
  { s with
    teams := s.teams.filter fun kv => kv.2.launch != l
    groups := s.groups.filter fun kv => !ids.contains kv.2.team
    clusters := s.clusters.filter fun kv => kv.1 / 2 ^ 24 != l
    reads := s.reads.filter fun kv => kv.2.launch != l }

/-- A gang completes when every part has. -/
def State.endGang (s : State) (k : Nat) : State :=
  let g := Sp.get {} s.gangs k
  if g.live && g.parts.all fun l => (s.launch l).life == .finished then
    let s := { s with
      gangs := Sp.del s.gangs k
      launches := s.launches.filter fun kv => !g.parts.contains kv.1 }
    s.finishPacket g.packet
  else s

/-- The result word of a STREAM packet (13 R310). -/
def streamResult (budget reason : Nat) : Nat :=
  budget * 2 ^ 32 + 2 ^ 31 + (if reason = 0 then 0 else 2 ^ 30) + reason

/-- Free a stream that is being destroyed once none of its instances is outstanding (13 R310). -/
def State.turnStream (s : State) (n : Nat) : State :=
  let st := s.stream n
  if !st.on || !st.closing || s.insts.any (fun kv => kv.2.live && kv.2.stream == n) then s
  else
    let lant := st.d.q * (st.tmpl.map (·.lant)).foldl (· + ·) 0
    let s := if s.fw.lanternsOn then s.modPart st.part fun p => { p with lanterns := p.lanterns - lant } else s
    let s : State := { s with
      streams := Sp.del s.streams n
      insts := s.insts.filter fun kv => kv.2.stream != n
      teams := s.teams.map fun (kv : Nat × Team) =>
        (kv.1, if (kv.2.lent.map (·.1)) = some n then { kv.2 with lent := none } else kv.2) }
    match st.destroyPkt with
    | some (num, asid, addr) =>
      (s.deviceWrite asid addr (toBytes 8 (streamResult st.budget 0))).finishPacket num
    | none => s

/-- What an instance takes over from a launch of its own that has ended. -/
def Inst.addLaunch (i : Inst) (x : Launch) : Inst :=
  { i with
    faults := i.faults + x.faults, implb := i.implb + x.implb, err := i.err || x.err
    asyncf := i.asyncf || x.asyncf, vigil := i.vigil || x.vigil, killed := i.killed || x.killed
    cause := firstCause i.cause x.cause }

/-- An instance ends (13 R313, R320, R333): its slack decides the level at which its successor starts, its
completion record is written, and its packet completes. The entry of a strip whose F has not arrived stays
until the strip has been judged. -/
def State.endInst (s : State) (k : Nat) : State :=
  let i := s.instance_ k
  let st := s.stream i.stream
  let early := decide ((st.budget : Int) < 4 * (s.instF k - s.time.toNat))
  let later := match st.endG with
    | some g => decide (g ≤ i.g)
    | none => true
  let s := if later then s.modStream i.stream fun st =>
      { st with endG := some i.g, endLevel := i.level, endEarly := early && !i.missedAt } else s
  let tag := match i.packet with
    | some p => BitVec.ofNat 32 (pkt (s.packetOf p).bytes 4 4)
    | none => st.tag
  let s := if i.packet.isNone then s
    else s.writeCompl st.asid i.compl
      (complBytes (statusOf i.err i.asyncf i.vigil i.killed i.cause) i.faults s.time.toNat i.implb tag)
  let s : State := { s with
    insts := if st.d.isStrip && !i.judged then Sp.put s.insts k { i with live := false } else Sp.del s.insts k
    launches := Sp.del s.launches i.launch }
  let s := match i.packet with
    | some p => s.finishPacket p
    | none => s
  s.turnStream i.stream

/-- What follows the end of a launch of an instance; the next launch of the template is dispatched by a
step of its own (13 R313). -/
def State.instLaunchDone (s : State) (k : Nat) (x : Launch) : State :=
  let s := s.modInst k fun i => i.addLaunch x
  let i := s.instance_ k
  if i.missedAt || decide ((s.stream i.stream).tmpl.length ≤ i.cur + 1) then s.endInst k else s

/-- Complete a launch (12 R279, R284). -/
def State.completeLaunch (s : State) (l : Nat) : State :=
  let s := (s.launch l).coresUsed.foldl (fun s c => (s.launchEdge c).commitPeers c) s
  let s := s.ringsAtEnd l
  let x := s.launch l
  let s := s.writeCompl x.asid x.compl
    (complBytes (statusOf x.err x.asyncf x.vigil x.killed x.cause) x.faults s.time.toNat x.implb x.tag)
  let s := (s.modLaunch l fun x => { x with life := .finished }).dropLaunch l
  match x.inst, x.gang with
  | some k, _ => s.instLaunchDone k x
  | none, some g => s.endGang g
  | none, none =>
    let s := { s with launches := Sp.del s.launches l }
    match x.packet with
    | some p => s.finishPacket p
    | none => s

/-- A launch completes (12 R279). -/
def execLaunchComplete (launch : Nat) (s : State) : Out :=
  .next (if s.launchOver launch then s.completeLaunch launch else s)

/-- Device time has reached START: the teams placed so far start (12 R282). -/
def execLaunchStartTime (launch : Nat) (s : State) : Out :=
  let x := s.launch launch
  let ts := s.teams.filter fun kv => kv.2.launch == launch && kv.2.life == .placed
  .next (if !s.launchBegun x || !ts.all fun kv => s.edgeFree kv.2.core then s
    else
      let s := ts.foldl (fun s kv => s.startTeam kv.1) s
      s.modLaunch launch fun x => { x with lastIssue := s.time })

/-- Place the next cluster of a dispatched launch (12 R278). -/
def execTeamPlace (launch : Nat) (s : State) : Out :=
  let x := s.launch launch
  let waits := (x.inst.isNone && (s.gangHolds x.part || s.vacatedIn x.part)) || !s.holdsPart x
  .next (if x.life ≠ .placing ∨ x.r.grid ≤ x.placed ∨ waits then s else (s.tryPlace launch).getD s)

end Sys2Proof.Machine
end

