-- ==== Sys2Proof/Machine/Front.lean ====
section
/-! DEFINITION. The front end's packets (12 R273 to R276), dispatch from the rank queue (12 R278), gangs
(12 R285 to R287), and TIMED packets with the instances that they make (13 R313, R315, R320). -/

namespace Sys2Proof.Machine

open Sys2Proof

/-- TAG of a packet. -/
def pktTag (bs : List Byte) : Word := BitVec.ofNat 32 (pkt bs 4 4)

/-! ### Packets performed when they are read -/

/-- NOP completes when it is read. -/
def execPktNop (queue : Nat) (s : State) : Out :=
  .next (s.takePacket queue 0 (fun _ => true) fun s num _ => s.finishPacket num)

/-- LAUNCH passes to the rank queue. -/
def execPktLaunch (queue : Nat) (s : State) : Out :=
  .next (s.takePacket queue 1 (fun _ => true) fun s num _ => s.passRank num)

/-- TIMED passes to the rank queue. -/
def execPktTimed (queue : Nat) (s : State) : Out :=
  .next (s.takePacket queue 3 (fun _ => true) fun s num _ => s.passRank num)

/-- A packet whose body breaks its own rules puts the queue in error with reason 1 (12 R274). -/
def State.badPacket (s : State) (num : Nat) : State :=
  (s.queueError (s.packetOf num).queue 1).finishPacket num

/-- WAITMEM holds its queue. -/
def execPktWaitmem (queue : Nat) (s : State) : Out :=
  .next (s.takePacket queue 5 (fun _ => true) fun s num bs =>
    let addr := pkt bs 8 8
    let cond := pkt bs 0x20 4
    let us := pkt bs 0x24 4
    if addr % 8 ≠ 0 ∨ 3 < cond then s.badPacket num
    else
      let till := if us = 0 then 0#64 else s.time + BitVec.ofNat 64 (1000 * us)
      let w : WaitMem := ⟨num, addr, BitVec.ofNat 64 (pkt bs 0x10 8), BitVec.ofNat 64 (pkt bs 0x18 8), cond, till⟩
      s.modQueue queue fun q => { q with wait := some w })

/-- The condition of a WAITMEM (12 Table 12.3). -/
def WaitMem.met (w : WaitMem) (v : BitVec 64) : Bool :=
  let x := v &&& w.mask
  match w.cond with
  | 0 => x == w.value
  | 1 => x != w.value
  | 2 => decide (w.value.toNat ≤ x.toNat)
  | _ => decide (x.toNat < w.value.toNat)

/-- An engine owns the line of a virtual address. -/
def State.vaOwned (s : State) (asid va : Nat) : Bool :=
  match s.devicePa asid va false with
  | some pa => s.isOwned (lineOf pa)
  | none => false

/-- The word of a WAITMEM is read at home (12 R274). -/
def execWaitmemPoll (queue : Nat) (s : State) : Out :=
  .next (s.unlessHeld fun s => match (s.queue queue).wait with
  | none => s
  | some w =>
    let asid := (s.queue queue).d.asid
    if s.vaOwned asid w.addr then s
    else match s.deviceRead asid w.addr 8 with
      | (none, s) => (s.queueError queue 5).finishPacket w.packet
      | (some bs, s) =>
        if w.met (BitVec.ofNat 64 (ofBytes bs)) then
          (s.modQueue queue fun q => { q with wait := none }).finishPacket w.packet
        else s)

/-- A WAITMEM times out: the queue is in error (12 R274). -/
def execWaitmemTimeout (queue : Nat) (s : State) : Out :=
  .next (match (s.queue queue).wait with
  | none => s
  | some w =>
    if w.till = 0#64 ∨ s.time.toNat < w.till.toNat then s
    else (s.queueError queue 3).finishPacket w.packet)

/-- SIGNAL: one committed write or add at home (12 R274). -/
def execPktSignal (queue : Nat) (s : State) : Out :=
  let q := s.queue queue
  .next (s.takePacket queue 6 (fun bs => !s.vaOwned q.d.asid (pkt bs 8 8)) fun s num bs =>
    let addr := pkt bs 8 8
    let v := pkt bs 0x10 8
    let how := pkt bs 0x18 4
    if addr % 8 ≠ 0 then s.badPacket num
    else
      let s := s.recallRange q.d.asid addr 8
      let old := match s.devicePa q.d.asid addr true with
        | some pa => ofBytes (s.homeBytes pa 8)
        | none => 0
      let s := s.deviceWrite q.d.asid addr (toBytes 8 (if how.testBit 0 then old + v else v))
      let s := if how.testBit 1 then s.raiseMsix q.fn q.d.msix else s
      s.finishPacket num)

/-- INDIRECT: its buffer is read in its place (12 R276). -/
def execPktIndirect (queue : Nat) (s : State) : Out :=
  .next (s.takePacket queue 7 (fun _ => true) fun s num bs =>
    let addr := pkt bs 8 8
    let n := pkt bs 0x10 8
    if addr % 64 ≠ 0 ∨ n = 0 ∨ 4096 < n then s.badPacket num
    else s.modQueue queue fun q => { q with ind := some (num, addr, n) })

/-- COPY starts: its destination lines are owned until it ends (12 R274). A launch entry of its own gives
its translations the queue's ASID; the firmware core reads for it. -/
def execPktCopy (queue : Nat) (s : State) : Out :=
  .next (s.takePacket queue 8 (fun _ => true) fun s num bs =>
    let src := pkt bs 8 8
    let dst := pkt bs 0x10 8
    let n := pkt bs 0x18 8
    if src % 4 ≠ 0 ∨ dst % 4 ≠ 0 ∨ n % 4 ≠ 0 ∨ 2 ^ 32 < n ∨ (src < dst + n ∧ dst < src + n) then s.badPacket num
    else
      let q := s.queue queue
      let a := s.addLaunch { packet := some num, asid := q.d.asid, owner := q.owner, part := q.d.part }
      let op := a.2.serial
      let o : AsyncOp := { kind := .copyPkt queue (s.packetOf num).index src dst n, launch := a.1, at_ := s.time }
      let s : State := { a.2 with serial := op + 1, ops := Sp.put a.2.ops op o }
      s.claimFor op (linkView 0 0x7FF) ((List.range n).map (dst + ·)) [])

/-- The 4-byte units of a COPY that failed, and the cause of the first (12 R275). -/
def copyFails (dst : Nat) (bad : Nat → BitVec 8) (n : Nat) : Nat × BitVec 8 :=
  let us := (List.range (n / 4)).filter fun k => (List.range 4).any fun j => bad (dst + 4 * k + j) != 0#8
  (us.length, match us.head? with
    | some k => ((List.range 4).map fun j => bad (dst + 4 * k + j)).foldl firstCause 0#8
    | none => 0#8)

/-- Report a failed COPY: reason 6, which never overwrites an error (12 R275). -/
def State.copyReport (s : State) (queue index units : Nat) (cause : BitVec 8) : State :=
  let q := s.queue queue
  if units = 0 ∨ q.err ≠ 0 then s
  else
    (s.deviceWrite q.d.asid q.d.errw
      (toBytes 8 (index * 2 ^ 32 + min units 0xFFFF * 2 ^ 16 + cause.toNat * 2 ^ 8 + 6))).raiseMsix q.fn q.d.msix

/-- A COPY ends (12 R274). -/
def execCopyPacketDone (op : Nat) (s : State) : Out :=
  .next (match (s.opOf op).kind with
  | .copyPkt queue index src dst n =>
    let o := s.opOf op
    let r := linkView 0 0x7FF
    let q := s.readSource op o r (rangeLines src n)
    if q.1.held then s
    else if !q.1.absent.isEmpty then q.2.queuePages op q.1.absent
    else
      let ps := remotePuts q.1 dst src n n
      let absent := q.2.absentDest o r ps
      if !absent.isEmpty then q.2.queuePages op absent
      else if q.2.destHeld op r ps then s
      else
        let s := q.2
        let bad := fun (va : Nat) => match (s.destAt o r va).1 with
          | .fail c => c
          | _ => q.1.cause (src + (va - dst))
        let f := copyFails dst bad n
        let s := ((s.putAll op r ps).cleanLines o r ps).releaseAll op
        let s : State := { s with ops := Sp.del s.ops op, launches := Sp.del s.launches o.launch }
        let s := (s.copyReport queue index f.1 f.2).afterRelease
        match (q.2.launch o.launch).packet with
        | some p => s.finishPacket p
        | none => s
  | _ => s)

/-- FENCE completes once what stands before it has (12 R273). -/
def execPktFence (queue : Nat) (s : State) : Out :=
  .next (s.takePacket queue 9 (fun _ => true) fun s _ _ => s.turnFences)

/-! ### Gangs (12 R285 to R287) -/

/-- The parts of a gang descriptor: partition and launch record address. -/
def gangParts (bs : List Byte) (p : Nat) : List (Nat × Nat) :=
  (List.range p).map fun k => (pkt bs (16 + 16 * k) 2, pkt bs (24 + 16 * k) 8)

/-- A gang descriptor that breaks 12 R285. -/
def State.gangBad (s : State) (owner : Nat) (bs : List Byte) : Bool :=
  let p := pkt bs 0 4
  let d := pkt bs 4 4
  let parts := gangParts bs p
  p == 0 || decide (16 < p) || d == 0 || decide (10 ^ 6 < d) ||
    (List.range p).any (fun k => pkt bs (18 + 16 * k) 6 != 0) ||
    decide ((parts.map (·.1)).eraseDups.length < p) || parts.any fun q => decide (15 < q.1) || !s.partOwned q.1 owner

/-- Read and check the parts of a gang in order. -/
def readParts (asid : Nat) (tag : Word) : List (Nat × Nat) → State → List Read × State
  | [], s => ([], s)
  | (part, addr) :: r, s =>
    let q := s.readLaunch part asid addr tag
    let rest := readParts asid tag r q.2
    (q.1 :: rest.1, rest.2)

/-- COMPL of a part, and the reason that its own check gives, 0 for none. -/
def Read.compl : Read → Nat × Nat
  | .refused r c => (c, r)
  | .ok x => (x.compl, 0)

/-- Refuse every part of a gang: with its own reason, else with another. -/
def State.refuseParts (s : State) (asid : Nat) (tag : Word) (other : Nat) (own : Bool) (rs : List Read) : State :=
  rs.foldl (fun s r =>
    let c := r.compl
    s.refuse asid c.1 (if own && c.2 != 0 then c.2 else other) tag) s

/-- GANG: the descriptor and every part are checked before anything is reserved (12 R285). -/
def execPktGang (queue : Nat) (s : State) : Out :=
  .next (s.takePacket queue 2 (fun _ => true) fun s num bs =>
    let q := s.queue queue
    let tag := pktTag bs
    let head := s.deviceRead q.d.asid (pkt bs 8 8) 16
    let p := match head.1 with
      | some h => min 16 (pkt h 0 4)
      | none => 0
    match head.1.isSome, s.deviceRead q.d.asid (pkt bs 8 8) (16 + 16 * p) with
    | true, (some d, s) =>
      let rs := readParts q.d.asid tag (gangParts d p) s
      if pkt bs 8 8 % 8 ≠ 0 ∨ s.gangBad q.owner d then
        ((rs.2.refuseParts q.d.asid tag 0x0B false rs.1).finishPacket num)
      else if rs.1.any fun r => r.compl.2 != 0 then
        ((rs.2.refuseParts q.d.asid tag 0x0C true rs.1).finishPacket num)
      else
        let gid := rs.2.serial
        let s : State := { rs.2 with serial := gid + 1 }
        let q2 := rs.1.foldl (fun (a : List Nat × State) r =>
          match r with
          | .ok x =>
            let b := a.2.addLaunch { x with packet := some num, gang := some gid, life := .queued, admin := q.admin }
            (a.1 ++ [b.1], b.2)
          | .refused _ _ => a) ([], s)
        let g : Gang := { live := true, packet := num, parts := q2.1, deadlineUs := pkt d 4 4, start := pkt d 8 8 }
        let s := q2.2
        ({ s with gangs := Sp.put s.gangs gid g }).passRank num
    | _, (_, s) => (s.queueError queue 5).finishPacket num)

/-! ### The order of a partition (12 R278) -/

/-- The gang of a packet. -/
def State.gangOf (s : State) (num : Nat) : Option Nat :=
  (s.gangs.find? fun kv => kv.2.live && kv.2.packet == num).map (·.1)

/-- The partitions that a packet of the rank queue names. -/
def State.partsOf (s : State) (num : Nat) : List Nat :=
  match s.gangOf num with
  | some g => (Sp.get {} s.gangs g).parts.map fun l => (s.launch l).part
  | none => [(s.queue (s.packetOf num).queue).d.part]

/-- The packet that a partition dispatches next; TIMED packets wait for the first lock (13 R315), and nothing is
dispatched while the partition is being rebound (12 R295). -/
def State.headOf (s : State) (part : Nat) : Option Nat :=
  if (s.part part).rebind.isSome then none else s.rankQ.find? fun num => (s.partsOf num).contains part &&
    (s.locked || (s.packetOf num).timedF.isNone)

/-- A launch of a partition has clusters to place still (12 R278); one saved for an owner that has lost the partition
does not count until the partition is that owner's again (12 R295). -/
def State.placingIn (s : State) (part : Nat) : Bool :=
  s.launches.any fun kv => kv.2.life == .placing && kv.2.part == part && kv.2.inst.isNone && s.holdsPart kv.2

/-- Nothing holds a LAUNCH or GANG of a partition back but room. -/
def State.mayPlace (s : State) (part : Nat) : Bool := !s.placingIn part && !s.vacatedIn part

/-- Take a packet out of the rank queue; it stays open until it completes. -/
def State.leaveRank (s : State) (num : Nat) : State := { s with rankQ := s.rankQ.filter (· != num) }

/-- Dispatch a LAUNCH when its first cluster can be placed. -/
def State.dispatchLaunch (s : State) (num : Nat) : State :=
  let p := s.packetOf num
  let q := s.queue p.queue
  let tag := pktTag p.bytes
  let overlay := pkt p.bytes 0x10 8
  match s.readLaunch q.d.part q.d.asid (pkt p.bytes 8 8) tag with
  | (.refused r c, s) => (s.refuse q.d.asid (if overlay = 0 then c else overlay) r tag).finishPacket num
  | (.ok x, t) =>
    let x := { x with packet := some num, compl := if overlay = 0 then x.compl else overlay, admin := q.admin }
    let a := t.addLaunch x
    match (a.2.dispatched a.1).tryPlace a.1 with
    | none => s
    | some u => u.leaveRank num

/-! ### Instances (13 R313, R320) -/

/-- The level at which an instance released now starts (13 R320). -/
def Stream.startLevel (st : Stream) : Nat :=
  match st.endG with
  | none => st.d.linit
  | some _ => if st.endEarly then st.endLevel - 1 else st.endLevel

/-- The Almanac dispatches the running launch of an instance (13 R313). A launch that the front end
refuses ends the instance. -/
def State.instDispatch (s : State) (k : Nat) : State :=
  let i := s.instance_ k
  let st := s.stream i.stream
  match st.tmpl[i.cur]? with
  | none => s.endInst k
  | some t =>
    let tag := match i.packet with
      | some p => pktTag (s.packetOf p).bytes
      | none => st.tag
    let r := { t.r with
      start := if i.cur = 0 then i.s else t.r.start
      param := if i.param = 0 then t.r.param else i.param }
    match s.checkLaunch st.part st.asid tag true r with
    | (.refused c a, s) =>
      (((s.refuse st.asid a c tag).modInst k fun i => { i with err := true })).endInst k
    | (.ok x, s) =>
      let a := s.addLaunch { x with inst := some k, owner := st.owner }
      let s := a.2.dispatched a.1
      s.modInst k fun i => { i with
        launch := a.1, open_ := [], started := 0, done := 0, sinceEval := 0, evalAt := s.time }

/-- Release an instance: it is entered and its first launch dispatched. -/
def State.release (s : State) (x : Inst) : State :=
  let k := s.serial
  let s : State := { s with serial := k + 1, insts := Sp.put s.insts k x }
  (s.modStream x.stream fun st => { st with count := st.count + 1 }).instDispatch k

/-- Instances of a stream that are outstanding. -/
def State.instsOf (s : State) (stream : Nat) : List (Nat × Inst) :=
  s.insts.filter fun kv => kv.2.live && kv.2.stream == stream

/-- An altered stream takes its new fields over at a release (13 R310). -/
def Stream.takeAlter (st : Stream) : Stream :=
  match st.alter with
  | some (dbg, linit, fill) => { st with d := { st.d with dbg := dbg, linit := linit, fill := fill }, alter := none }
  | none => st

/-- Dispatch a TIMED packet (13 R315). -/
def State.dispatchTimed (s : State) (num : Nat) : State :=
  let p := s.packetOf num
  let q := s.queue p.queue
  let n := field (pkt p.bytes 8 4) 0 6
  let st := s.stream n
  let f := pkt p.bytes 0x10 8
  let start : Int := (f : Int) - st.budget
  let mine := s.instsOf n
  let s := s.leaveRank num
  if !st.on ∨ st.closing ∨ st.d.sink ≠ 2 ∨ st.part ≠ q.d.part ∨ start < s.time.toNat + st.lead + 1000 ∨
      st.d.q ≤ mine.length then
    (s.refuse q.d.asid (pkt p.bytes 0x20 8) 3 (pktTag p.bytes)).finishPacket num
  else
    let copy := ((List.range st.d.q).find? fun c => mine.all fun kv => kv.2.copy != c).getD 0
    let s := s.modStream n Stream.takeAlter
    let st := s.stream n
    s.release { live := true, stream := n, g := st.count, seq := st.count, copy := copy, s := start.toNat, f := f,
                level := st.startLevel, packet := some num, param := pkt p.bytes 0x18 8,
                compl := pkt p.bytes 0x20 8 }

/-- A partition dispatches its next packet (12 R278); gangs have a step of their own. -/
def execLaunchDispatch (part : Nat) (s : State) : Out :=
  .next (s.unlessHeld fun s => match s.headOf part with
  | none => s
  | some num =>
    match pkt (s.packetOf num).bytes 0 1 with
    | 3 => s.dispatchTimed num
    | 1 => if s.mayPlace part && !s.gangHolds part then s.dispatchLaunch num else s
    | _ => s)

/-- The next launch of an instance is dispatched when the one before has completed (13 R313). -/
def execInstanceNextLaunch (inst : Nat) (s : State) : Out :=
  let i := s.instance_ inst
  .next (if i.live && (s.launch i.launch).life == .finished && !i.missedAt then
    s.unlessHeld fun s =>
      let s : State := { s with launches := Sp.del s.launches i.launch }
      (s.modInst inst fun i => { i with cur := i.cur + 1 }).instDispatch inst
  else s)

/-! ### Placing a gang (12 R286) -/

/-- The gang stands at the head of every partition it names. -/
def State.gangAtHead (s : State) (g : Gang) : Bool :=
  g.parts.all fun l => s.headOf (s.launch l).part == some g.packet && !s.placingIn (s.launch l).part

/-- Place clusters of a launch while they fit. -/
def placeWave (l : Nat) : Nat → State → State
  | 0, s => s
  | fuel + 1, s =>
    if (s.launch l).r.grid ≤ (s.launch l).placed then s
    else match s.tryPlace l with
      | some s => placeWave l fuel s
      | none => s

/-- Reserve the first wave of every part: at least one cluster of each. -/
def gangWave : List Nat → State → Option State
  | [], s => some s
  | l :: r, s =>
    match (s.dispatched l).tryPlace l with
    | none => none
    | some s => gangWave r (placeWave l (s.launch l).r.grid s)

/-- An attempt to place a gang: every part is reserved and it commits, or nothing is (12 R286). -/
def execGangCommit (gang : Nat) (s : State) : Out :=
  let g := Sp.get {} s.gangs gang
  .next (if !g.live || g.tg.isSome || !s.gangAtHead g then s
  else
    let s := if g.headAt.isSome then s
      else { s with gangs := Sp.put s.gangs gang { g with headAt := some s.time } }
    let g := Sp.get {} s.gangs gang
    if !g.forced && g.parts.any fun l => s.vacatedIn (s.launch l).part then s
    else
      let tg := BitVec.ofNat 64 (max g.start (s.time.toNat + 2000))
      let held := g.parts.foldl (fun s l => s.modLaunch l fun x =>
        { x with r := { x.r with start := max x.r.start tg.toNat } }) s
      match gangWave g.parts held with
      | none => s
      | some u => { u.leaveRank g.packet with gangs := Sp.put u.gangs gang { g with tg := some tg } })

/-- Tg has come: every team of the first waves starts (12 R286). -/
def execGangStartTime (gang : Nat) (s : State) : Out :=
  let g := Sp.get {} s.gangs gang
  .next (match g.live, g.tg with
  | true, some t =>
    let ts := s.teams.filter fun kv => kv.2.life == .placed && g.parts.contains kv.2.launch
    if !s.reached t || !ts.all fun kv => s.edgeFree kv.2.core then s
    else ts.foldl (fun s kv => s.startTeam kv.1) s
  | _, _ => s)

/-- Every team of the cluster of a team. -/
def State.clusterOf (s : State) (tn : Nat) : List Nat := (s.siblings (s.team tn)).map (·.1)

/-- A team begins to be vacated, with its whole cluster (02 R20; 15 R381). -/
def State.stopCluster (s : State) (tn : Nat) : State :=
  (s.clusterOf tn).foldl (fun s k => if (s.team k).standing then
    s.modTeam k fun t => { t with stopping := true } else s) s

/-- The teams of a core that may be vacated for a gang: timed ones stay (13 R318). -/
def State.vacatable (s : State) (core : Nat) : List Nat :=
  (s.teamsAt core fun t => (s.launch t.launch).r.cls != 2 && (s.launch t.launch).inst.isNone).map (·.1)

/-- A team of a launch would fit on a core that vacating has emptied. -/
def State.roomVacated (s : State) (core : Nat) (u : Use) : Bool :=
  ((sumUse (s.streamIds.map fun k => s.streamUse k core [])).add u).fits

/-- The teams that block the first cluster of a part of a gang: none where it fits as things are, else those of a
rectangle that vacating makes free; which rectangle is a choice (12 R287). -/
def State.blockers (s : State) (l : Nat) : List Nat × State :=
  let x := s.launch l
  if !(s.cornersFor l 0).isEmpty then ([], s)
  else
    let need := recUse x.r fun _ => true
    match (List.range 256).filter fun c => rectOk (s.part x.part) x.r c &&
        (rectCores x.r c).all fun k => s.roomVacated k need with
    | [] => ([], s)
    | cs =>
      let k := s.choose cs.length
      ((rectCores x.r (cs.getD k.1 0)).flatMap s.vacatable, k.2)

/-- The placement deadline of a gang passes: nothing else is placed on its partitions, and the teams that block its
first wave are vacated, whether they have started or wait for their start (12 R287). -/
def execGangDeadline (gang : Nat) (s : State) : Out :=
  let g := Sp.get {} s.gangs gang
  .next (match g.live && g.tg.isNone && !g.forced, g.headAt with
  | true, some t =>
    if s.time.toNat < t.toNat + 1000 * g.deadlineUs then s
    else
      let s : State := { s with gangs := Sp.put s.gangs gang { g with forced := true } }
      g.parts.foldl (fun s l =>
        let b := s.blockers l
        b.1.foldl State.stopCluster b.2) s
  | _, _ => s)

end Sys2Proof.Machine
end

