-- ==== Sys2Proof/Machine/Vacate.lean ====
section
/-! DEFINITION. Vacating a team: the drain, and the choice between a discard and a save (12 R307; 15 R381, R384). -/

namespace Sys2Proof.Machine

open Sys2Proof

/-! ### Vacating a team (15 R381; 12 R307) -/

/-- Operations that write or credit the scratchpad of the issuing team. -/
def OpKind.drains : OpKind → Bool
  | .acp _ _ => true
  | .tcp _ => true
  | .tst _ => true
  | .rput _ _ _ _ _ _ => true
  | .rget _ _ _ _ _ _ => true
  | .rsig _ _ _ _ _ => true
  | _ => false

/-- Everything of the team that a vacate waits for has ended. -/
def State.drained (s : State) (tn : Nat) : Bool :=
  let t := s.team tn
  !s.reads.any (fun kv => kv.2.live && kv.2.team == tn) && t.groups.all (fun kv => decide (kv.1 < 32)) &&
    !s.ops.any (fun kv => kv.2.team == tn && kv.2.kind.drains) &&
    !s.ioReads.any (fun kv => (s.grp kv.2.group).team == tn) && (s.boundaryHeld t.core).isEmpty

/-- Every group of the team that has not exited is in an open region, with nothing parked, nothing in trap
mode, and no outstanding operation (12 R307; 15 R384). -/
def State.inRegions (s : State) (t : Team) : Bool :=
  t.groups.all fun kv =>
    let g := s.grp kv.2
    !g.live || (g.region.isSome && g.subs.isEmpty && g.trap.isNone && g.outstanding == 0)

/-- The team is discarded rather than saved. -/
def State.discards (s : State) (tn : Nat) : Bool :=
  let t := s.team tn
  !(s.launch t.launch).r.classS && !t.halted && t.run.isNone && s.inRegions t &&
    t.groups.all fun kv => (s.grp kv.2).outstanding == 0

/-- A borrower that can be neither discarded nor saved within VC (12 R288) is killed (13 R317; 15 R384). -/
def State.unsavable (s : State) (tn : Nat) : Bool :=
  let t := s.team tn
  match t.lent with
  | none => false
  | some (st, _) => !s.discards tn &&
      decide ((s.stream st).d.vc < 1000 + ((s.launch t.launch).r.savemax + 63) / 64)

/-- One team leaves its core after its boundary. -/
def State.leaveCore (s : State) (tn : Nat) : State :=
  let t := s.team tn
  let drop := s.discards tn
  let s := s.boundary t.core
  let s := t.groups.foldl (fun s kv => s.modGrp kv.2 fun g =>
    { (g.dropLantern) with windows := [], locks := g.locks.filter fun k => k.kind != .result }) s
  -- a thermal migration is annotated as one, every other vacate as a pre-emption (16 R400)
  let s := (s.annotate tn 0 (if t.leftHot.isSome then 4 else 3) 0#57).trace tn 0xFF 2 (if drop then 0 else 1)
  let s := s.modCore t.core fun c =>
    { c with rlHolder := if c.rlHolder = some tn then none else c.rlHolder }
  s.modTeam tn fun t =>
    { t with life := if drop then .discarded else .saved, stopping := false, lent := none }

/-- The standing teams of a team's cluster. -/
def State.standingWith (s : State) (team : Nat) : List Nat := (s.clusterOf team).filter fun k => (s.team k).standing

/-- A stopping team's cluster has drained. -/
def State.mayLeave (s : State) (team : Nat) : Bool :=
  (s.team team).stopping && (s.team team).standing &&
    (s.standingWith team).all fun k => (s.team k).stopping && s.drained k

/-- Kill one cluster: its launch shows KILLED (13 R317). -/
def State.killCluster (s : State) (team : Nat) : State :=
  (s.standingWith team).foldl State.killTeam (s.modLaunch (s.team team).launch fun x => { x with killed := true })

/-- A cluster that has drained leaves its cores: each team is discarded or saved. -/
def State.vacateCluster (s : State) (team : Nat) : State :=
  let ts := s.standingWith team
  if ts.any s.unsavable then s.killCluster team else ts.foldl State.leaveCore s

/-- A stopping team whose cluster has drained is vacated with it. -/
def execTeamVacate (team : Nat) (s : State) : Out := .next (if s.mayLeave team then s.vacateCluster team else s)

end Sys2Proof.Machine
end

