-- ==== Sys2Proof/Machine/Almanac.lean ====
section
/-! DEFINITION. The Almanac (13 R308 to R321, R332, R333; 12 R287 for its borrowers): device time's servo,
streams and their admission, releases, borrowers, degradation and deadlines. -/

namespace Sys2Proof.Machine

open Sys2Proof

/-! ### Descriptors (13 Tables 13.2, 13.3) -/

/-- Read a stream descriptor; for a serving stream NS and NO count as 2. -/
def parseStream (bs : List Byte) : StreamDesc :=
  let n := fun (off k : Nat) => pkt bs off k
  let f := fun (off lo w : Nat) => field (n off 4) lo w
  let serving := f 0 0 2 == 2
  { sink := f 0 0 2, index := f 0 2 5, dbg := f 0 7 1 == 1, linit := f 0 8 3, h := f 4 0 8,
    ns := if serving then 2 else f 4 8 3 + 1, no := if serving then 2 else f 4 11 3 + 1, halo := f 4 14 3,
    margin := f 4 17 8, outw := n 8 2, outh := n 0x0A 2, rndw := n 0x0C 2, rndh := n 0x0E 2, t0 := n 0x10 8,
    pline := n 0x18 8, pframe := n 0x20 8, sfmt := n 0x28 1, ofmt := n 0x29 1, fill := BitVec.ofNat 32 (n 0x2C 4),
    breq := n 0x30 4, guard := n 0x34 4, vc := n 0x38 4, dw := n 0x3C 4, bw := n 0x40 4, tmpl := n 0x48 8,
    pslot := n 0x50 8 }

def texelFmt (x : Nat) : Bool := decide (0x10 ≤ x) && decide (x ≤ 0x17)

/-- A descriptor that is invalid (13 R311), the template's own rules apart. -/
def streamBad (bs : List Byte) : Bool :=
  let d := parseStream bs
  let n := fun (off k : Nat) => pkt bs off k
  field (n 0 4) 11 21 != 0 || field (n 4 4) 25 7 != 0 || n 0x2A 2 != 0 || n 0x44 4 != 0 || n 0x58 40 != 0 ||
    decide (4 < d.linit) || decide (d.guard < 1000) || decide (3000 < d.vc) || decide (500000 < d.dw) ||
    d.tmpl % 32 != 0 ||
    match d.sink with
    | 2 => d.index != 0 || n 4 0x24 != 0 || n 0x28 8 != 0 || d.pslot != 0
    | 3 => true
    | k =>
      (k == 0 && decide (3 < d.index)) || d.h % 8 != 0 || decide (d.h < 16) || decide (128 < d.h) ||
        decide (4 < d.halo) || d.outh == 0 || d.h * d.rndh % d.outh != 0 || decide (d.hr < max 8 (d.halo + 1)) ||
        d.outh % d.h != 0 || !texelFmt d.sfmt || !(decide (0x12 ≤ d.ofmt) && decide (d.ofmt ≤ 0x14)) ||
        d.pline == 0 || d.pframe == 0 || (d.pslot == 0) != (k == 0)

/-- Read the entries of a template with their launch records; none where one cannot be read. -/
def readTmpl (asid : Nat) (bs : List Byte) : Nat → Nat → State → Option (List TmplLaunch) × State
  | 0, _, s => (some [], s)
  | k + 1, i, s =>
    let off := 0x20 + 32 * i
    match s.deviceRead asid (pkt bs off 8) 128 with
    | (none, s) => (none, s)
    | (some r, s) =>
      let t : TmplLaunch := { lrec := pkt bs off 8, r := parseLaunch r,
                              wcet := (List.range 5).map fun l => pkt bs (off + 8 + 4 * l) 4,
                              tiles := pkt bs (off + 0x1C) 2, lant := pkt bs (off + 0x1E) 2 }
      let rest := readTmpl asid bs k (i + 1) s
      (rest.1.map fun r => t :: r, rest.2)

/-- A template whose own bytes make the create fail, whatever its launch records hold (13 R313). -/
def tmplFormBad (bs : List Byte) : Bool :=
  let n := pkt bs 0 4
  n == 0 || decide (4 < n) || pkt bs 4 28 != 0 ||
    pkt bs (0x20 + 32 * n) (160 - (0x20 + 32 * n)) != 0 ||
    (List.range n).any fun i => pkt bs (0x20 + 32 * i + 0x1C) 2 == 0 ||
      (List.range 4).any fun l =>
        decide (pkt bs (0x20 + 32 * i + 8 + 4 * l) 4 < pkt bs (0x20 + 32 * i + 12 + 4 * l) 4)

/-- A launch record that makes the create fail (13 R313). -/
def tmplBad (d : StreamDesc) (ts : List TmplLaunch) : Bool :=
  ts.any fun t => t.r.cls != 2 || (d.isStrip && t.r.logMode != 0)

/-! ### Admission (13 R316) -/

/-- C(L): the cost of one instance. -/
def costAt (ts : List TmplLaunch) (level : Nat) : Nat :=
  (ts.map fun t => t.wcet.getD level 0 + 600).foldl (· + ·) 0

/-- E, in ns. -/
def almanacE : Nat := 5000

/-- B of a stream. -/
def budgetOf (d : StreamDesc) (ts : List TmplLaunch) : Nat := max d.breq (costAt ts 4 + d.guard + almanacE)

/-- The timing step: B fits the strips that may be outstanding. -/
def timingOk (d : StreamDesc) (b : Nat) : Bool :=
  !d.isStrip || decide (b * 2 ^ 32 ≤ d.q * (if d.sink = 0 then d.h * d.pline else d.pslot))

/-- The clusters that the Q copies place: copy, launch, cluster. -/
def copyItems (d : StreamDesc) (ts : List TmplLaunch) : List (Nat × Nat × Nat) :=
  (List.range d.q).flatMap fun c => (List.range ts.length).flatMap fun i =>
    (List.range ((ts.map (·.r.grid)).getD i 0)).map fun z => (c, i, z)

/-- Place items one after another, each on any rectangle that leaves room for the rest. -/
def placeItems (p : Partition) (ts : List TmplLaunch) (need : LaunchRec → Use) (base : Nat → Use) :
    List (Nat × Nat × Nat) → List (Nat × Use) → Option (List (Nat × Spot))
  | [], _ => some []
  | (c, i, z) :: rest, used =>
    match ts[i]? with
    | none => none
    | some t =>
      firstSome (fun corner =>
        let cores := rectCores t.r corner
        if rectOk p t.r corner && cores.all fun k => (((Sp.get {} used k).add (base k)).add (need t.r)).fits then
          (placeItems p ts need base rest
            (cores.foldl (fun u k => Sp.put u k ((Sp.get {} u k).add (need t.r))) used)).map
              fun r => (c, (⟨i, z, corner⟩ : Spot)) :: r
        else none) (List.range 256)

/-- Slots alone, for the second step of admission. -/
def slotsOnly (u : Use) : Use := { slots := u.slots }

/-- What the admitted streams reserve on a core. -/
def State.reservedUse (s : State) (core : Nat) : Use :=
  sumUse (s.streamIds.map fun k => s.copiesUse k core fun _ => true)

/-- Places for the copies, counting slots alone or everything. -/
def State.placeCopies (s : State) (part : Nat) (d : StreamDesc) (ts : List TmplLaunch) (cut : Use → Use) :
    Option (List (Nat × Spot)) :=
  placeItems (s.part part) ts (fun r => cut (recUse r fun _ => true)) (fun k => cut (s.reservedUse k))
    (copyItems d ts) []

/-- Strip store of a stream in bytes: its rings and halo, whole 4 KiB units a line. -/
def storeBytesOf (d : StreamDesc) : Nat :=
  if d.isStrip then (d.ns * d.hr + d.halo) * d.lineUnit false + d.no * d.h * d.lineUnit true else 0

def State.streamsIn (s : State) (part : Nat) : List Stream :=
  (s.streams.filter fun kv => kv.2.on && kv.2.part == part).map (·.2)

/-- The lanterns that a stream's groups may hold. -/
def lanternsOf (d : StreamDesc) (ts : List TmplLaunch) : Nat := d.q * (ts.map (·.lant)).foldl (· + ·) 0

def State.lanternsReserved (s : State) : Nat := (s.parts.map fun kv => kv.2.lanterns).foldl (· + ·) 0

/-- The admission steps in order: the first that fails gives its reason; 0 with the copies' places. -/
def State.admission (s : State) (part : Nat) (d : StreamDesc) (ts : List TmplLaunch) : Nat × List (Nat × Spot) :=
  let p := s.part part
  let mine := s.streamsIn part
  let sum := fun (l : List Nat) => l.foldl (fun (a b : Nat) => a + b) 0
  if !timingOk d (budgetOf d ts) then (3, [])
  else if (s.placeCopies part d ts slotsOnly).isNone then (4, [])
  else match s.placeCopies part d ts id with
    | none => (5, [])
    | some places =>
      let all : List Stream := (s.streams.filter fun (kv : Nat × Stream) => kv.2.on).map (fun (kv : Nat × Stream) => kv.2)
      if s.fw.lanternsOn && decide (s.fw.pool < s.lanternsReserved + lanternsOf d ts) then (6, [])
      else if (match p.bwCap with
          | some c => decide (c < sum (mine.map fun (t : Stream) => t.d.bw) + d.bw)
          | none => false) then (7, [])
      else if 96 * 2 ^ 20 < sum (all.map fun (t : Stream) => storeBytesOf t.d) + storeBytesOf d ∨
          (d.isStrip ∧ p.stripShare < sum (mine.map fun (t : Stream) => storeBytesOf t.d) + storeBytesOf d) then (8, [])
      else (0, places)

/-! ### Strips to come -/

/-- The first strip whose S lies at least VL + 1 µs after the later of admission and lock (13 R315). -/
def Stream.firstStrip (st : Stream) (now : BitVec 64) : Nat :=
  let low : Int := (st.admitted.toNat + st.lead + 1000 : Nat)
  let k := st.d.strips
  let last := st.startOf now (k - 1)
  -- the frame before the first one whose last strip is late enough
  let f := if low ≤ last then 0 else ((low - last) * 2 ^ 32 / (max 1 st.d.pframe : Nat)).toNat - 1
  let gs := (List.range (4 * k + 1)).map (f * k + ·)
  (gs.find? fun g => decide (low ≤ st.startOf now g)).getD (f * k + 4 * k)

/-- A strip stream learns its first strip once time is locked; its sink begins with it. -/
def State.setFirst (s : State) (n : Nat) : State :=
  s.modStream n fun st =>
    let g := st.firstStrip s.time
    { st with nextG := g, sinkNext := g }

/-! ### STREAM packets (13 R310) -/

/-- OP of a STREAM packet. -/
def streamOp (bs : List Byte) : Nat := pkt bs 8 4 % 16
def streamId (bs : List Byte) : Nat := field (pkt bs 8 4) 4 6

/-- Write the result word and complete the packet. -/
def State.streamReply (s : State) (num budget reason : Nat) : State :=
  let p := s.packetOf num
  let q := s.queue p.queue
  (s.deviceWrite q.d.asid (pkt p.bytes 0x18 8) (toBytes 8 (streamResult budget reason))).finishPacket num

/-- Teams that stand where a stream has just reserved more than is free are its borrowers from now on. -/
def State.lendNow (s : State) (n : Nat) : State :=
  s.teams.foldl (fun s kv =>
    let t := s.team kv.1
    if t.standing && t.lent.isNone && (s.launch t.launch).inst.isNone && !(s.roomFor t.core {} none) &&
        (s.copiesUse n t.core fun _ => true) != {} then
      s.modTeam kv.1 fun t => { t with lent := some (n, List.range (s.stream n).reserved.length) }
    else s) s

/-- Enter an admitted stream. -/
def State.addStream (s : State) (n : Nat) (q : Queue) (tag : Word) (d : StreamDesc) (ts : List TmplLaunch)
    (places : List (Nat × Spot)) : State :=
  let copies := (List.range d.q).map fun c => (places.filter fun p => p.1 == c).map (·.2)
  let st : Stream :=
    { on := true, d := d, tmpl := ts, part := q.d.part, owner := q.owner, asid := q.d.asid,
      budget := budgetOf d ts, admitted := s.time, reserved := copies, tag := tag }
  let s : State := { s with streams := Sp.put s.streams n st }
  let s := if s.fw.lanternsOn then
      s.modPart q.d.part fun p => { p with lanterns := p.lanterns + lanternsOf d ts } else s
  let s := s.lendNow n
  if s.locked && d.isStrip then s.setFirst n else s

/-- STREAM create: the reasons in the order of 13 R310. -/
def execPktStreamCreate (queue : Nat) (s : State) : Out :=
  .next (s.takePacket queue 4 (fun bs => streamOp bs == 0) fun s num bs =>
    let q := s.queue queue
    let n := streamId bs
    let desc := pkt bs 0x10 8
    match s.deviceRead q.d.asid desc 128 with
    | (none, s) => (s.queueError queue 5).finishPacket num
    | (some db, s) =>
      let d := parseStream db
      if desc % 128 ≠ 0 ∨ streamBad db then s.streamReply num 0 1
      else match s.deviceRead q.d.asid d.tmpl 160 with
        | (none, s) => (s.queueError queue 5).finishPacket num
        | (some tb, s) =>
          if tmplFormBad tb then s.streamReply num 0 1
          else match readTmpl q.d.asid tb (pkt tb 0 4) 0 s with
          | (none, s) => (s.queueError queue 5).finishPacket num
          | (some ts, s) =>
            if tmplBad d ts then s.streamReply num 0 1
            else if (s.stream n).on then s.streamReply num 0 2
            else if d.isStrip && s.streams.any (fun kv => kv.2.on && kv.2.d.sink == d.sink && kv.2.d.index == d.index)
            then s.streamReply num 0 9
            else
              let a := s.admission q.d.part d ts
              if a.1 ≠ 0 then s.streamReply num 0 a.1
              else (s.addStream n q (pktTag bs) d ts a.2).streamReply num (budgetOf d ts) 0)

/-- A stream that a queue may name: it exists, in the queue's partition. -/
def State.streamNamed (s : State) (queue n : Nat) : Bool :=
  let st := s.stream n
  st.on && !st.closing && st.part == (s.queue queue).d.part

/-- STREAM alter: DBG, LINIT and FILL of the descriptor, from the next release on. -/
def execPktStreamAlter (queue : Nat) (s : State) : Out :=
  .next (s.takePacket queue 4 (fun bs => streamOp bs == 1) fun s num bs =>
    let q := s.queue queue
    let n := streamId bs
    match s.deviceRead q.d.asid (pkt bs 0x10 8) 128 with
    | (none, s) => (s.queueError queue 5).finishPacket num
    | (some db, s) =>
      let d := parseStream db
      if pkt bs 0x10 8 % 128 ≠ 0 ∨ streamBad db then s.streamReply num 0 1
      else if !s.streamNamed queue n then s.streamReply num 0 2
      else (s.modStream n fun st => { st with alter := some (d.dbg, d.linit, d.fill) }).streamReply num
        (s.stream n).budget 0)

/-- STREAM destroy: no further release; the packet completes when the last instance has. -/
def execPktStreamDestroy (queue : Nat) (s : State) : Out :=
  .next (s.takePacket queue 4 (fun bs => streamOp bs == 2) fun s num bs =>
    let n := streamId bs
    if !s.streamNamed queue n then s.streamReply num 0 2
    else
      let reply := some (num, (s.queue queue).d.asid, pkt bs 0x18 8)
      (s.modStream n fun st => { st with closing := true, destroyPkt := reply }).turnStream n)

/-! ### Releases and borrowers (13 R315, R317) -/

/-- A strip stream releases its next instance at S. -/
def execStripRelease (stream : Nat) (s : State) : Out :=
  let st := s.stream stream
  let g := st.nextG
  let start := st.startOf s.time g
  .next (if !st.on ∨ st.closing ∨ !st.d.isStrip ∨ !s.locked ∨ (s.time.toNat : Int) < start then s
  else s.unlessHeld fun s =>
    let s := s.modStream stream fun st => { st.takeAlter with nextG := g + 1 }
    let st := s.stream stream
    s.release { live := true, stream := stream, g := g, seq := st.count, copy := g % st.d.q, s := start.toNat,
                level := st.startLevel })

/-- Copies of a stream whose vacate lead has begun, with the S that each is vacated for. -/
def State.leads (s : State) (stream : Nat) : List (Nat × Int) :=
  let st := s.stream stream
  if !st.on || !s.locked then []
  else if st.d.isStrip then
    (if st.closing then [] else (List.range st.d.q).filterMap fun j =>
      let g := st.nextG + j
      if st.startOf s.time g - st.lead ≤ s.time.toNat then some (g % st.d.q, st.startOf s.time g) else none) ++
      ((s.instsOf stream).filter fun kv => (s.launch kv.2.launch).life == .placing).map fun kv =>
        (kv.2.copy, (kv.2.s : Int))
  else
    ((s.instsOf stream).filter fun kv => decide (kv.2.s ≤ s.time.toNat + st.lead)).map fun kv =>
      (kv.2.copy, (kv.2.s : Int))

/-- Borrowers on slots of a copy of a stream. -/
def State.borrowersOf (s : State) (stream copy : Nat) : List Nat :=
  (s.teams.map (·.1)).filter fun k => (s.team k).standing && (s.team k).borrows stream copy

/-- At S − VL the borrowers on the slots that an instance needs stop issuing, and drain. -/
def execBorrowerVacate (stream : Nat) (s : State) : Out :=
  .next ((s.leads stream).foldl (fun s p =>
    (s.borrowersOf stream p.1).foldl (fun s k => if (s.team k).stopping then s else s.stopCluster k) s) s)

/-- A borrower whose drain has not ended by S − VC − 1 µs is killed, and its launch shows KILLED; one that has
drained is vacated. -/
def execBorrowerKill (stream : Nat) (s : State) : Out :=
  let st := s.stream stream
  .next ((s.leads stream).foldl (fun s p =>
    if (s.time.toNat : Int) < p.2 - st.d.vc - 1000 then s
    else (s.borrowersOf stream p.1).foldl (fun s k =>
      if !(s.team k).standing then s else if s.mayLeave k then s.vacateCluster k else s.killCluster k) s) s)

/-! ### Degradation (13 R321) -/

/-- Pf(L) of the running launch, times TILES. -/
def State.predicted (s : State) (k level : Nat) : Nat :=
  let i := s.instance_ k
  let t := s.tilesOf k
  let w := fun (l : Nat) => t.wcet.getD l 0
  let later := ((s.stream i.stream).tmpl.drop (i.cur + 1)).map fun u => u.wcet.getD level 0 + 600
  t.tiles * s.time.toNat + (i.open_.map w).foldl (· + ·) 0 + (t.tiles - i.started) * w level +
    t.tiles * later.foldl (· + ·) 0

/-- An evaluation of an instance, after 16 tiles done or 5 µs without one. -/
def execAlmanacEvaluation (inst : Nat) (s : State) : Out :=
  let i := s.instance_ inst
  let st := s.stream i.stream
  let due := i.live && !i.missedAt && ((s.launch i.launch).life == .running || (s.launch i.launch).life == .placing) &&
    (decide (16 ≤ i.sinceEval) || decide (i.evalAt.toNat + 5000 ≤ s.time.toNat))
  .next (if !due then s
  else
    let f := s.instF inst
    let t : Int := (s.tilesOf inst).tiles
    let level :=
      if (s.predicted inst 4 : Int) > t * (f - st.d.guard - almanacE) then 4
      else if (s.predicted inst i.level : Int) > t * (f - st.d.guard) then min 4 (i.level + 1)
      else i.level
    s.modInst inst fun i => { i with level := level, sinceEval := 0, evalAt := s.time })

/-! ### Deadlines (13 R332, R333) -/

/-- Strip g has reached its output slot. -/
def Stream.hasReached (st : Stream) (g : Nat) : Bool :=
  let x := st.slot true (st.d.slotOf true g)
  x.used && x.g == g && (match x.life with
    | .written => true
    | .consuming => true
    | .released => true
    | .free => true
    | _ => false)

/-- A strip is missed: a slot that its instance holds becomes MISSED, else the strip is marked (13 R332). -/
def Stream.miss (st : Stream) (g inst : Nat) : Stream :=
  let k := st.d.slotOf true g
  let x := st.slot true k
  if x.life = .acquired ∧ x.inst = inst then st.setSlot true k { x with life := .missed }
  else { st with missed := st.missed ++ [g] }

/-- After a miss every resident group of the instance faults with cause 0x11 (13 R333). -/
def State.missed (s : State) (k : Nat) : State :=
  let i := s.instance_ k
  let s := s.modStream i.stream fun st => { st with missLog := st.missLog ++ [(i.g, s.time)] }
  let s := s.modInst k fun i => { i with missedAt := true, err := true, cause := firstCause i.cause 0x11#8 }
  -- an instance that no packet made has no completion record but those of its launches
  let s := if i.packet.isSome then s
    else s.modLaunch i.launch fun x => { x with err := true, cause := firstCause x.cause 0x11#8 }
  let aux := BitVec.ofNat 32 i.g
  -- groups that a debugger has halted take the cause when they are resumed (16 R397)
  let s := s.teams.foldl (fun s kv =>
    let t := s.team kv.1
    if t.launch = i.launch ∧ t.halted then s.modTeam kv.1 fun t => { t with owesMiss := some aux } else s) s
  let s := ((s.groupsOf i.launch).filter fun n => !(s.teamOf n).halted).foldl (fun s n =>
    s.strike n 0x11#8 aux true) s
  -- between two launches nothing is left that could complete
  if (s.launch i.launch).life == .finished then s.endInst k else s

/-- F of an instance arrives. -/
def execStripDeadline (inst : Nat) (s : State) : Out :=
  let i := s.instance_ inst
  let st := s.stream i.stream
  .next (if !Sp.has s.insts inst ∨ i.judged ∨ (s.time.toNat : Int) < s.instF inst then s
  else
    let s := s.modInst inst fun i => { i with judged := true }
    let hit := st.d.isStrip && st.hasReached i.g
    let s := if st.d.isStrip && !hit then s.modStream i.stream fun st => st.miss i.g inst else s
    let s := if i.live && !hit then s.missed inst
      else if !hit then s.modStream i.stream fun st => { st with missLog := st.missLog ++ [(i.g, s.time)] }
      else s
    if i.live then s else { s with insts := Sp.del s.insts inst })

/-! ### Device time's servo (13 R308) -/

/-- The rate word that the servo sets: at most ±200 ppm from one ns a cycle, so that the counter never runs
backward. -/
def slewed (rate : BitVec 96) : BitVec 96 :=
  BitVec.ofNat 96 (max (2 ^ 32 - 858993) (min rate.toNat (2 ^ 32 + 858993)))

/-- The counter is stepped once, forward, at the first lock. Streams admitted before it release nothing whose S comes
earlier (13 R315). -/
def State.firstLock (s : State) (step : Nat) : State :=
  let s : State := { s with locked := true, time := BitVec.ofNat 64 (min (2 ^ 64 - 1) (s.time.toNat + step)) }
  (s.streams.filter fun kv => kv.2.on).foldl (fun s kv =>
    let s := s.modStream kv.1 fun st => { st with admitted := s.time }
    if kv.2.d.isStrip then s.setFirst kv.1 else s) s

/-- A 1PPS edge: the offset that the servo finds, how far its time lies ahead of the counter, which counts at the
first lock only, and the rate word that it sets. Later only the rate changes. -/
def execPpsEdge (offset : Int) (servo : Servo) (s : State) : Out :=
  let near := decide (offset.natAbs ≤ 250)
  let agrees := decide ((offset - s.offset).natAbs ≤ 250) && decide ((s.ptm.toInt - offset).natAbs ≤ 250)
  .next (if !s.locked then
    let n := if near then s.ppsGood + 1 else 0
    let s : State := { s with ppsGood := n, offset := offset, rate := slewed servo.rate }
    if 8 ≤ n then s.firstLock servo.ahead.toNat else s
  else if s.holdover then
    let n := if agrees then s.ppsGood + 1 else 0
    let s : State := { s with ppsGood := n, offset := offset, offsetMax := max s.offsetMax offset.natAbs }
    if 8 ≤ n then { s with holdover := false, slewing := true, rate := slewed servo.rate } else s
  else if s.slewing then
    let s : State := { s with offset := offset, rate := slewed servo.rate, offsetMax := max s.offsetMax offset.natAbs }
    if near then { s with slewing := false, offsetBack := s.time } else s
  else if 1000000 < offset.natAbs then
    { s with holdover := true, ppsGood := 0, offset := offset, offsetMax := offset.natAbs }
  else { s with offset := offset, rate := slewed servo.rate })

/-- A PTM cross-timestamp: the host's time against the counter. -/
def execPtmTimestamp (host : BitVec 64) (s : State) : Out := .next { s with ptm := host - s.time }

end Sys2Proof.Machine
end

