-- ==== Sys2Proof/Machine/Sinks.lean ====
section
/-! DEFINITION. The sinks of strip streams: display heads and encoder sessions (13 R309, R330 to R332;
15 R389). -/

namespace Sys2Proof.Machine

open Sys2Proof

/-! ### What a sink emits -/

/-- One pixel of FILL in the output format (13 Table 13.2). -/
def Stream.fillPixel (st : Stream) : List Byte := (toBytes 4 st.d.fill.toNat).take (texelBytes st.d.ofmt)

/-- A whole strip of FILL. -/
def Stream.fillStrip (st : Stream) : List Byte :=
  (List.replicate (st.d.h * st.d.outw) st.fillPixel).flatten

/-- A pixel of an output slot; FILL where it touches a poisoned sector (15 R389). -/
def Stream.sinkPixel (st : Stream) (slot y x : Nat) : List Byte :=
  let n := texelBytes st.d.ofmt
  let at_ := st.d.ringAddr true slot y (x * n)
  if Sp.get false st.outBad (at_ / 32) || Sp.get false st.outBad ((at_ + n - 1) / 32) then st.fillPixel
  else st.ringRead true at_ n

/-- The H lines of an output slot, line after line. -/
def Stream.slotPixels (st : Stream) (slot : Nat) : List Byte :=
  (List.range st.d.h).flatMap fun y => (List.range st.d.outw).flatMap fun x => st.sinkPixel slot y x

/-- The sink takes strip g whole: its slot holds g and is WRITTEN. -/
def Stream.ready (st : Stream) (g : Nat) : Bool :=
  let x := st.slot true (st.d.slotOf true g)
  x.life == .written && x.g == g

/-- The Almanac has judged strip g: nothing that could still be missed is entered for it (13 R332). -/
def State.judgedStrip (s : State) (stream g : Nat) : Bool :=
  !s.insts.any fun kv => kv.2.stream == stream && kv.2.g == g && !kv.2.judged

/-- The sink takes the slot of g: it is CONSUMING. -/
def Stream.consumeSlot (st : Stream) (g : Nat) : Stream :=
  let i := st.d.slotOf true g
  st.setSlot true i { st.slot true i with life := .consuming }

/-- The sink has done with the slot of g, if it holds it: RELEASED, and at once FREE (13 Table 13.6). -/
def Stream.freeSlot (st : Stream) (g : Nat) : Stream :=
  let i := st.d.slotOf true g
  let x := st.slot true i
  if x.life == .consuming && x.g == g then st.setSlot true i { x with life := .free } else st

/-! ### Display heads -/

/-- Device time at which a line of a strip begins to scan, in ns, rounded down (13 R309). -/
def Stream.scanTime (st : Stream) (g line : Nat) : Nat :=
  let d := st.d
  (d.t0 * 2 ^ 32 + g / d.strips * d.pframe + (g % d.strips * d.h + line) * d.pline) / 2 ^ 32

/-- What a display head scans for a missed strip: the slot before it, if nothing has acquired that slot since
it was released, else FILL (13 R332). -/
def Stream.concealDisplay (st : Stream) (g : Nat) : SinkOut :=
  let i := (g + st.d.no - 1) % st.d.no
  let x := st.slot true i
  if x.life == .free && x.used && !st.missLog.any fun m => m.1 == x.g then
    { g := g, concealed := true, fill := false, bytes := st.slotPixels i }
  else { g := g, concealed := true, fill := true, bytes := st.fillStrip }

/-- A display stream at work. -/
def Stream.isDisplay (st : Stream) : Bool := st.on && st.d.sink == 0
def Stream.isEncoder (st : Stream) : Bool := st.on && st.d.sink == 1

/-- A display head begins the first line of its next strip. -/
def execDisplayScanStart (stream : Nat) (s : State) : Out :=
  let st := s.stream stream
  let g := st.sinkNext
  .next (if !st.isDisplay || st.scanning.isSome || !s.locked || decide (s.time.toNat < st.scanTime g 0) ||
      !s.judgedStrip stream g then s
  else
    let out := if st.ready g then
        { g := g, concealed := false, fill := false, bytes := st.slotPixels (st.d.slotOf true g) }
      else st.concealDisplay g
    s.modStream stream fun st =>
      let st := if st.ready g then st.consumeSlot g else st
      { st with scanning := some g, sinkOut := st.sinkOut ++ [out] })

/-- The last line of the strip ends, and its slot is released. -/
def execDisplayScanEnd (stream : Nat) (s : State) : Out :=
  let st := s.stream stream
  .next (match st.scanning with
  | none => s
  | some g =>
    if !st.isDisplay || decide (s.time.toNat < st.scanTime g st.d.h) then s
    else
      let s := s.modStream stream fun st => { st.freeSlot g with scanning := none, sinkNext := g + 1 }
      s.wakeRings stream)

/-! ### Encoder sessions -/

/-- A row that missed its time: a copy of the same row of the frame before, FILL where there is none (13
R332). -/
def Stream.concealRow (st : Stream) (g : Nat) : SinkOut :=
  let k := st.d.strips
  match st.sinkOut.reverse.find? fun o => decide (o.g < g) && o.g % k == g % k with
  | some o => { g := g, concealed := true, fill := false, bytes := o.bytes }
  | none => { g := g, concealed := true, fill := true, bytes := st.fillStrip }

/-- A session takes the output slot of its next tile row at its slot time, unless it is stalled. From now on no stall
moves the row's F (13 R312). -/
def execEncoderSlotTime (stream : Nat) (s : State) : Out :=
  let st := s.stream stream
  let g := st.sinkNext
  .next (if !st.isEncoder || st.stalled.isSome || !s.locked ||
      decide ((s.time.toNat : Int) < st.deadline s.time g) || !s.judgedStrip stream g then s
  else
    let f := (st.deadline s.time g).toNat
    let s : State := { s with insts := s.insts.map fun (kv : Nat × Inst) =>
      (kv.1, if kv.2.stream = stream ∧ kv.2.g = g then { kv.2 with f := f } else kv.2) }
    s.modStream stream fun st =>
      if st.ready g then
        let out : SinkOut :=
          { g := g, concealed := false, fill := false, bytes := st.slotPixels (st.d.slotOf true g) }
        { st.consumeSlot g with
          sinkOut := st.sinkOut ++ [out], coding := st.coding ++ [(g, s.time)], sinkNext := g + 1 }
      else { st with sinkOut := st.sinkOut ++ [st.concealRow g], sinkNext := g + 1 })

/-- The session has coded a row for its coding latency. -/
def State.rowCoded (s : State) (st : Stream) : Bool :=
  match st.coding with
  | [] => false
  | (_, t) :: _ => st.isEncoder && st.stalled.isNone && decide (t.toNat + Sp.get 0 s.codeNs st.d.index ≤ s.time.toNat)

/-- The oldest row that the session holds is coded, and its slot released; a stalled session codes none. -/
def execEncoderRowCoded (stream : Nat) (s : State) : Out :=
  let st := s.stream stream
  .next (match st.coding with
  | [] => s
  | (g, _) :: r =>
    if !s.rowCoded st then s
    else (s.modStream stream fun st => { st.freeSlot g with coding := r }).wakeRings stream)

/-- The bitstream buffer of a session is full: its slot times stand still from now on (13 R331). -/
def execEncoderStall (stream : Nat) (s : State) : Out :=
  let st := s.stream stream
  .next (if !st.isEncoder || st.stalled.isSome then s
  else s.modStream stream fun st => { st with stalled := some s.time })

/-- The buffer has room again: every later slot time has moved by the length of the stall, and so has the coding of
the rows in flight. -/
def execEncoderResume (stream : Nat) (s : State) : Out :=
  let st := s.stream stream
  .next (if !st.isEncoder || st.stalled.isNone then s
  else s.modStream stream fun st =>
    let d := BitVec.ofNat 64 (st.stallTime s.time - st.stallNs)
    { st with stalled := none, stallNs := st.stallTime s.time, coding := st.coding.map fun p => (p.1, p.2 + d) })

end Sys2Proof.Machine
end

