-- ==== Sys2Proof/Machine/System.lean ====
section
/-! DEFINITION. The system instructions: special registers (02 R32 to R37; 15 R376), `RAND` (05 R131 to
R133), traps (15 R377 to R379), state images (15 R380), `TLBINV` (14 R356, R357) and `FWCALL` (14 R358,
R359, R366). -/

namespace Sys2Proof.Machine

open Sys2Proof

/-! ### Special registers -/

/-- A burst register of a handler group; zero elsewhere (02 R34). -/
def Group.burstReg (g : Group) (f : BurstRegs → Word) : Nat :=
  match g.burst with
  | some b => (f b).toNat
  | none => 0

/-- The value of a special register in a lane, `%TIME` apart (02 Table 2.4). -/
def State.special (s : State) (n idx l : Nat) : Nat :=
  let g := s.grp n
  let t := s.team g.team
  match idx with
  | 0x00 => laneCount
  | 0x01 => l
  | 0x02 => g.gid
  | 0x03 => g.gid * laneCount + l
  | 0x04 => t.number
  | 0x05 => t.clx
  | 0x06 => t.cly
  | 0x07 => t.clz
  | 0x08 => t.core
  | 0x09 => (s.launch t.launch).part
  | 0x10 => field g.snap.toNat 32 32
  | 0x11 => field g.snap.toNat 64 32
  | 0x12 => field g.snap.toNat 0 32
  | 0x20 => g.flg.toNat
  | 0x21 => g.mode.toNat
  | 0x22 => g.nbv.toNat
  | 0x30 => g.burstReg (·.bx)
  | 0x31 => g.burstReg (·.by_)
  | 0x32 => g.burstReg (·.bz)
  | 0x33 => g.burstReg (·.bidx)
  | 0x34 => g.burstReg (·.bn)
  | 0x35 => g.burstReg (·.bstat)
  | 0x40 => (faultOffset t g).toNat
  | 0x41 => if g.step then 1 else 0
  | _ => 0

/-- Write a value lane by lane to the acting lanes, or once to a scalar. -/
def Iss.spreadBy (i : Iss) (dst : Opnd) (w : Nat) (v : Nat → Nat) : Iss :=
  i.mod fun g => (maskLanes (runLanes i.run dst.isS)).foldl (fun g l => g.writeDst dst w l (v l)) g

/-- A `COLL` of the group that has yet to raise its flags (11 R268). -/
def Group.flagsPending (g : Group) : Bool :=
  g.locks.any fun k => match k.kind with
    | .coll _ => true
    | _ => false

/-- `SREAD` (15 R376). -/
def execSread (x : XForm) (s : State) : Out :=
  let i := begin_ (.sread x) s
  let idx := x.imm.toNat
  if i.run = 0#32 then i.out
  else if idx = 0x20 ∧ i.g.flagsPending then .next (i.parked .flags s)
  else if idx = 0x10 then
    match i.s.deliverTime i.n 0 i.pc with
    | .ended s => .next s
    | .use p s =>
      let i := ({ i with s := s }).mod fun g => { g with snap := snapOf p }
      (i.spreadBy x.a 1 fun l => i.s.special i.n idx l).out
  else (i.spreadBy x.a 1 fun l => i.s.special i.n idx l).out

/-- `SWRITE` of a value (15 R376; 02 R35 to R37); none for a value that is illegal there. -/
def Group.setSpecial (g : Group) (idx : Nat) (v : Word) : Option Group :=
  match idx with
  | 0x20 => some { g with flg := v &&& flgMask }
  | 0x21 => if 5 ≤ bits v 4 2 then none else some { g with mode := v &&& modeMask }
  | 0x22 => if bits v 3 0 = 1 ∨ bits v 3 0 = 2 then some { g with nbv := v &&& 0xF#32 } else none
  | _ => some { g with step := v.getLsbD 0 }

/-- `SWRITE`. -/
def execSwrite (x : XForm) (s : State) : Out :=
  let i := begin_ (.swrite x) s
  if i.run = 0#32 then i.out
  else match i.uniPoison [(x.b, 1)] with
    | some f => (i.faultAll f).out
    | none =>
      match i.g.setSpecial x.imm.toNat (BitVec.ofNat 32 (uniVal i.g x x.b 1)) with
      | none => i.illegal.out
      | some g => (i.mod fun _ => g).out

/-! ### RAND -/

/-- The cause of a failed noise source (05 R132). -/
def causeNoise : Flt := { cause := 0x04#8, aux := 0xB2#32 }

/-- `RAND` (05 R131): fresh bits of the core's source, or in replay the logged ones (05 R133). With a discarded
destination it draws, logs and waits for none, which the spec does not say (log entry 80). -/
def execRand (x : XForm) (s : State) : Out :=
  let i := begin_ (.rand x) s
  let w := x.ty.regs
  let m := if x.a = .zero then 0#32 else runLanes i.run x.a.isS
  let need := 32 * w * maskCount m
  let c := i.s.core (i.s.coreOf i.n)
  let replay := (i.s.launchOf i.n).r.logMode == 2
  if i.run = 0#32 then i.out
  else if !replay && c.noiseFailed then (i.fault i.run causeNoise).out
  else if !replay && decide (c.noise < need) then .next (i.parked (.noise need) s)
  else
    let live := (List.range (maskCount m)).map fun k =>
      (Config.noiseBits (i.s.free + k)).toNat % 2 ^ (32 * w)
    let s := if replay then i.s
      else
        let s : State := { i.s with free := i.s.free + maskCount m }
        s.modCore (s.coreOf i.n) fun c => { c with noise := c.noise - need }
    match s.deliverVals i.n 1 i.pc (if x.a.isS then 0#32 else m) (4 * w) live with
    | .ended s => .next s
    | .use vals s =>
      (({ i with s := s }).mod fun g =>
        ((maskLanes m).zip vals).foldl (fun g (p : Nat × Nat) => g.writeDst x.a w p.1 p.2) g).out

/-! ### TRAP, TRET, BKPT -/

/-- `TRAP` (15 R377). -/
def execTrap (x : XForm) (s : State) : Out :=
  let i := begin_ (.trap x) s
  if i.run = 0#32 then i.out
  else match i.uniPoison [(x.b, 1)] with
    | some f => (i.faultAll f).out
    | none =>
      let code := if x.b = .zero then x.imm.toNat else uniVal i.g x x.b 1
      (i.fault i.run { cause := 0x0F#8, aux := BitVec.ofNat 32 code }).out

/-- `TRET` (15 R379): the acting lanes of trap mode return, the others go on. -/
def tretRun (ins : Instr) (skip : Bool) (s : State) : Out :=
  let i := begin_ ins s
  let m := i.run
  if !i.trap then (i.fault m { cause := 0x05#8 }).out
  else
    let i := i.take m
    let s := i.advance
    let s := s.except i.n i.op i.pc i.prio true i.flts
    let len := match (s.grp i.n).trap with
      | some u => match s.codeWord (s.launchOf i.n).asid u.frec.pc.toNat with
        | some w => codeLen w
        | none => 4
      | none => 4
    let s := if m = 0#32 then s else s.returnTrap i.n m skip len
    .next (s.settle i.n)

/-- `TRET`: retry. -/
def execTretRetry (x : XForm) (s : State) : Out := tretRun (.tretRetry x) false s
/-- `TRET.skip`. -/
def execTretSkip (x : XForm) (s : State) : Out := tretRun (.tretSkip x) true s

/-- `BKPT` (15 R377): with breakpoint halting on, the team halts instead. -/
def execBkpt (x : XForm) (s : State) : Out :=
  let i := begin_ (.bkpt x) s
  if i.run = 0#32 then i.out
  else if !i.trap && (i.s.teamOf i.n).bkptHalt && i.s.haltable i.g.team then (i.modS fun s => s.haltTeam i.g.team).out
  else (i.fault i.run { cause := 0x0E#8, aux := BitVec.ofNat 32 x.imm.toNat }).out

/-! ### State images (15 Table 15.6) -/

/-- The bytes of the image of a group. -/
def Group.image (g : Group) : List Byte :=
  toBytes 4 1 ++ toBytes 1 g.nv ++ toBytes 1 g.ns ++ toBytes 1 g.nb ++ toBytes 1 0 ++
    toBytes 4 g.flg.toNat ++ toBytes 4 g.mode.toNat ++ toBytes 4 g.nbv.toNat ++
    ((List.range 3).flatMap fun k => toBytes 4 (g.lcreg k).toNat) ++
    ((List.range 8).flatMap fun k => toBytes 2 (g.treg k).toNat) ++ toBytes 16 0 ++
    ((List.range 16).flatMap fun k => toBytes 4 (g.preg k).toNat) ++
    ((List.range 8).flatMap fun k => toBytes 4 (g.kreg k).toNat) ++
    ((List.range 48).flatMap fun k => toBytes 4 (if k < g.ns then (g.sreg k).toNat else 0)) ++
    ((List.range 32).flatMap fun k => toBytes 32 (if k < g.nb then (g.breg k).toNat else nullRec.toNat)) ++
    (List.range g.nv).flatMap fun r => lanes.flatMap fun l => toBytes 4 (g.vreg r l).toNat

/-- Bytes of the image that hold a poisoned register. -/
def Group.imageBad (g : Group) (k : Nat) : Bool :=
  if 0x560 ≤ k then g.vPoison ((k - 0x560) / 128) ((k - 0x560) % 128 / 4)
  else decide (0xA0 ≤ k) && decide (k < 0x160) && g.sPoison ((k - 0xA0) / 4)

/-- Size of the image. -/
def Group.imageSize (g : Group) : Nat := 0x560 + 128 * g.nv

/-- A number of an image. -/
def imgNum (bs : List Byte) (off n : Nat) : Nat := ofBytes ((bs.drop off).take n)

/-- What `PLOAD` demands of the image (15 R380): its RSVD bytes 7 and 0x30 to 0x3F are zero. Reserved bits inside the
words of `%FLG`, `%MODE` and `%NBV` are ignored as a register write ignores them; whether they count as RSVD fields of
the image the spec does not say (log entry 73). -/
def imageOk (g : Group) (bs : List Byte) : Bool :=
  imgNum bs 0 4 == 1 && imgNum bs 4 1 == g.nv && imgNum bs 5 1 == g.ns && imgNum bs 6 1 == g.nb &&
    imgNum bs 7 1 == 0 && imgNum bs 0x30 16 == 0 &&
    (imgNum bs 0x10 4 % 16 == 1 || imgNum bs 0x10 4 % 16 == 2) &&
    (List.range 32).all fun k => recValid (BitVec.ofNat 256 (imgNum bs (0x160 + 32 * k) 32))

/-- Load an image; `bad` says which of its bytes are poisoned. Tag counters stay. An RM of 5 to 7 in the image is
loaded, as only its `SWRITE` is forbidden (02 R36), and rounds as RNE (log entry 74). -/
def Group.loadImage (g : Group) (bs : List Byte) (bad : Nat → Bool) : Group :=
  let w := fun (off : Nat) => BitVec.ofNat 32 (imgNum bs off 4)
  let g : Group := { g with flg := w 8 &&& flgMask, mode := w 0xC &&& modeMask, nbv := w 0x10 &&& 0xF#32 }
  let g := (List.range 3).foldl (fun g k => g.setLc k (w (0x14 + 4 * k))) g
  let g := (List.range 16).foldl (fun g k => g.setP k (w (0x40 + 4 * k))) g
  let g := (List.range 8).foldl (fun g k => g.setK k (w (0x80 + 4 * k))) g
  let g := (List.range g.ns).foldl (fun g k =>
    let g := g.setS k (w (0xA0 + 4 * k))
    if bad (0xA0 + 4 * k) then g.markS k else g) g
  let g := (List.range g.nb).foldl (fun g k => g.setB k (BitVec.ofNat 256 (imgNum bs (0x160 + 32 * k) 32))) g
  (List.range g.nv).foldl (fun g r => lanes.foldl (fun g l =>
    let off := 0x560 + 128 * r + 4 * l
    let g := g.setV r l (w off)
    if bad off then g.markV r l else g) g) g

/-- Translations of the pieces of an image. -/
inductive ImgWay where
  | ok (ps : List (Nat × Nat × Leaf))
  | flt (f : Flt)

/-- Translate pieces in order. -/
def imgWays (c asid : Nat) (acc : Access) : List (Nat × Nat) → State → ImgWay × State
  | [], s => (.ok [], s)
  | (va, k) :: r, s =>
    match s.translate c asid va acc with
    | (.error f, s) => (.flt f, s)
    | (.ok (pa, lf), s) =>
      match imgWays c asid acc r s with
      | (.ok ps, s) => (.ok ((pa, k, lf) :: ps), s)
      | x => x

/-- The group runs on the firmware core, at the firmware level, which may use everything (14 R355). -/
def Iss.firmware (i : Iss) : Bool := i.s.coreOf i.n == 0

/-- `PSAVE` and `PLOAD` up to the translated pieces of the image (15 R380). -/
def imageOp (ins : Instr) (x : XForm) (save : Bool) (s : State)
    (k : Iss → List (Nat × Nat × Leaf) → Out) : Out :=
  let i := begin_ ins s
  let stat := fun (i : Iss) (c : Nat) => (i.spreadBy x.a 1 fun _ => c).out
  if i.run = 0#32 then i.out
  else if !i.trap && !i.firmware then (i.faultAll { cause := 0x0B#8 }).out
  else match i.uniPoison [(x.b, 1)] with
    | some f => (i.faultAll f).out
    | none =>
      let r := recView (i.g.breg (auxRec x))
      let o := uniVal i.g x x.b 1
      let n := i.g.imageSize
      if save && i.writeBarred then (i.fault i.run { cause := 0x02#8 }).out
      else if r.kind ≠ 0 ∨ !(if save then r.w else r.r) then stat i 2
      else if o % 128 ≠ 0 then stat i 7
      else if r.extentY = 0 ∨ r.extentX < o + n then stat i 3
      else
        let vas := pieces (r.ea o 0) n
        let q := imgWays (i.s.coreOf i.n) (i.s.launchOf i.n).asid (if save then .store else .load) vas i.s
        let i := { i with s := q.2 }
        match q.1 with
        | .ok ps => k i ps
        | .flt f => match f.page with
          | some p =>
            if i.g.noPage.contains p.2 then stat i 1
            else (i.faultAll { f with recIdx := some (BitVec.ofNat 5 (auxRec x)) }).out
          | none => stat i f.cause.toNat

/-- The stores of an image, piece by piece. -/
def imgStore (c : Nat) (bad : Nat → Bool) : List (Nat × Nat × Leaf) → Nat → List Byte → State → Got State
  | [], _, _, s => .ok s
  | (pa, n, lf) :: r, at_, bs, s =>
    match s.storeHeld c lf pa with
    | [] =>
      let poison := (List.range n).any fun j => bad (at_ + j)
      imgStore c bad r (at_ + n) (bs.drop n) (s.storeBytes c lf pa (bs.take n) poison)
    | ls => .held ls

/-- The loads of an image: bytes, and which are poisoned. -/
def imgLoad (c : Nat) : List (Nat × Nat × Leaf) → State → Got (List (Byte × Bool) × State)
  | [], s => .ok ([], s)
  | (pa, n, lf) :: r, s =>
    match s.loadHeld c lf pa with
    | [] =>
      let q := s.loadBytes c lf pa n
      match imgLoad c r q.2.2 with
      | .ok (more, s) => .ok (q.1.map (fun b => (b, q.2.1)) ++ more, s)
      | .held ls => .held ls
    | ls => .held ls

/-- `PSAVE`. -/
def execPsave (x : XForm) (s : State) : Out :=
  imageOp (.psave x) x true s fun i ps =>
    let g := i.g
    match imgStore (i.s.coreOf i.n) g.imageBad ps 0 g.image i.s with
    | .held ls => .next (i.parked (.owned ls) s)
    | .ok s => (({ i with s := s }).spreadBy x.a 1 fun _ => 0).out

/-- `PLOAD`. -/
def execPload (x : XForm) (s : State) : Out :=
  imageOp (.pload x) x false s fun i ps =>
    match imgLoad (i.s.coreOf i.n) ps i.s with
    | .held ls => .next (i.parked (.owned ls) s)
    | .ok (bb, s) =>
      let i := { i with s := s }
      let bs := bb.map (·.1)
      let ok := fun (k : Nat) => decide (0x560 ≤ k) || (decide (0xA0 ≤ k) && decide (k < 0x160))
      let bads := ((List.range bb.length).zip bb).filterMap fun p => if p.2.2 then some p.1 else none
      let stat := fun (i : Iss) (c : Nat) => (i.spreadBy x.a 1 fun _ => c).out
      if !bads.all ok then stat i 4
      else if !imageOk i.g bs then stat i 0x12
      else stat (i.mod fun g => g.loadImage bs fun k => bads.contains k) 0

/-! ### TLBINV -/

/-- Whether the translation of a key belongs to an ASID and maps some page of a range, or any page. -/
def keyIn (asid : Nat) (range : Option (Nat × Nat)) (k : Nat) : Bool :=
  let first := k % 2 ^ 40
  k / 2 ^ 40 % 2 ^ 16 == asid && (match range with
    | some (p, n) => decide (first < p + n) && decide (p < first + 2 ^ (k / 2 ^ 56 - 17))
    | none => true)

/-- Drop translations in one core, which walks these pages anew from now on, or also in the shared TLBs and
everywhere in the ASID's partitions (14 R357). -/
def State.dropTlb (s : State) (core asid : Nat) (range : Option (Nat × Nat)) (all : Bool) : State :=
  let keep := fun (kv : Nat × Leaf) => !keyIn asid range kv.1
  let s := s.modCore core fun c => { c with tlb := c.tlb.filter keep }
  if !all then
    s.modCore core fun c => { c with anew := if c.anew.contains (asid, range) then c.anew else (asid, range) :: c.anew }
  else
    let s := s.cores.foldl (fun s kv =>
      if s.coreInAsid asid kv.1 then s.modCore kv.1 fun c => { c with tlb := c.tlb.filter keep } else s) s
    { s with stlb := s.stlb.map fun (kv : Nat × Sp Leaf) => (kv.1, kv.2.filter keep) }

/-- Lines that operations own which were translated with the translations to be dropped: of the core, or of every
core. -/
def State.linesUnder (s : State) (core asid : Nat) (range : Option (Nat × Nat)) (all : Bool) : List Nat :=
  (s.owned.filter fun kv =>
    let o := s.opOf kv.2
    (s.launch o.launch).asid == asid && (all || o.core == core) && (match range with
      | some (p, n) => o.pages.any fun q => decide (p ≤ q) && decide (q < p + n)
      | none => true)).map (·.1)

/-- `TLBINV` (14 R356, R357): its own ASID, or at the firmware level, with `.asid`, another. -/
def execTlbinv (x : XForm) (s : State) : Out :=
  let i := begin_ (.tlbinv x) s
  let all := x.mod.getLsbD 7
  let other := x.mod.getLsbD 6
  if i.run = 0#32 then i.out
  else if other && !i.firmware then (i.faultAll { cause := 0x0B#8 }).out
  else match i.uniPoison ((if all then [] else [(x.b, 2), (x.c, 1)]) ++ if other then [(x.d, 1)] else []) with
    | some f => (i.faultAll f).out
    | none =>
      let va := uniVal i.g x x.b 2
      let n := uniVal i.g x x.c 1
      if !all && (va % 2 ^ 17 != 0 || n == 0 || decide (2 ^ 24 < n)) then (i.faultAll { cause := 0x07#8 }).out
      else
        let range := if all then none else some (va / 2 ^ 17, n)
        let asid := if other then uniVal i.g x x.d 1 else (i.s.launchOf i.n).asid
        let core := i.s.coreOf i.n
        let part := x.mod.getLsbD 5
        match i.s.linesUnder core asid range part with
        | [] => (i.modS fun s => s.dropTlb core asid range part).out
        | ls => .next (i.parked (.owned ls) s)

/-! ### FWCALL -/

/-- What a firmware service answers: the status, what it writes to the first argument register, and lines of engines
that it must wait for. -/
structure Served where
  status : Nat
  value : Option Word := none
  lines : List Nat := []
  s : State

/-- A page that firmware waits for enters its core's fault queue. -/
def State.queueDevice (s : State) (w : Option (Nat × Nat)) : State :=
  match w with
  | some (asid, page) => s.modCore 0 fun c => c.queuePage asid page
  | none => s

/-- A firmware call (14 R358): privilege, the duties of `FENCE.sys`, the service with its arguments, a
boundary, and the status. `need` arguments are demanded (14 R359). -/
def fwcall (ins : Instr) (x : XForm) (need : Nat) (may : Iss → Bool) (s : State)
    (serve : Iss → List Nat → Served) : Out :=
  let i := begin_ ins s
  let n := x.aux.toNat
  let regs := (List.range n).map fun k => x.b.num - 0xC0 + k
  if i.run = 0#32 then i.out
  else if !may i && !i.firmware then (i.faultAll { cause := 0x0B#8 }).out
  else match regs.find? i.g.sPoison with
    | some r => (i.faultAll { cause := 0x04#8, aux := BitVec.ofNat 32 (0x1C0 + r) }).out
    | none =>
      if i.s.ioPending i.n then .next (i.parked .io s)
      else i.withBoundary s fun i => i.mergeMine s fun i => i.commitRemote s fun i =>
        let i := i.modS fun s => { s with devWait := none }
        let q := if n < need then { status := 2, s := i.s } else serve i (regs.map fun r => (i.g.sreg r).toNat)
        match q.s.devWait with
        | some w => .next (i.parked (.device w) (s.queueDevice w))
        | none =>
          if !q.lines.isEmpty then .next (i.parked (.owned q.lines) s)
          else
            let i := { i with s := q.s.boundary (q.s.coreOf i.n) }
            let i := match q.value with
              | some v => i.mod fun g => g.setS (x.b.num - 0xC0) v
              | none => i
            (i.spreadBy x.a 1 fun _ => q.status).out

/-- Not in a launch of a strip stream (13 R324). -/
def Iss.free (i : Iss) : Bool := !i.writeBarred

/-- The answer to QUERY for a caller of group n (14 R359). -/
def serveQuery (s : State) (n : Nat) (a : List Nat) : Served :=
  let v := match a.getD 0 0 with
    | 0 => some s.fw.deviceId
    | 1 => some (field s.fw.version.toNat 0 32)
    | 2 => some (field s.fw.version.toNat 32 32)
    | 3 => some (s.part (s.launchOf n).part).owner
    | _ => none
  match v with
  | some v => { status := 0, value := some (BitVec.ofNat 32 v), s := s }
  | none => { status := 2, s := s }

/-- QUERY. -/
def execFwcallQuery (x : XForm) (s : State) : Out :=
  fwcall (.fwcallQuery x) x 1 (fun _ => true) s fun i a => serveQuery i.s i.n a

/-- Replace a bit field of a number. -/
def putField (x lo n v : Nat) : Nat := x - field x lo n * 2 ^ lo + v % 2 ^ n * 2 ^ lo

/-- The 128 KiB pages of the leaf that maps a page: the first and how many. -/
def Leaf.pagesAt (lf : Leaf) (va : Nat) : Nat × Nat :=
  (va / 2 ^ leafBits lf.level * 2 ^ (leafBits lf.level - 17), 2 ^ (leafBits lf.level - 17))

/-- Lines of engines that PIN must wait for, as a `TLBINV.part` of the page does. -/
def State.pinWaits (s : State) (core asid va : Nat) : List Nat :=
  match s.walk asid va with
  | .leaf lf => s.linesUnder core asid (some (lf.pagesAt va)) true
  | _ => []

/-- Rewrite HOME and AUX of the leaf that maps a page (14 R359): status and state. -/
def State.pinPage (s : State) (core asid va home aux : Nat) : Nat × State :=
  match s.walk asid va with
  | .leaf lf =>
    let entry := lf.entryOf va
    if 3 < home ∨ 2 ^ 57 ≤ va ∨ (home = 1 ∧ !s.coreInAsid asid aux) then (2, s)
    else
      let pins := Sp.get [] s.fw.pins aux
      if home = 1 ∧ !pins.contains entry ∧ 4 ≤ pins.length then (3, s)
      else
        let e := ofBytes (s.homeBytes entry 8)
        let e := putField (putField e 5 2 home) 52 8 (if home = 1 then aux else 0)
        let s := s.commitBytes entry (toBytes 8 e)
        let s := s.modFw fun f =>
          let p := f.pins.map fun kv => (kv.1, kv.2.filter (· != entry))
          { f with pins := if home = 1 then Sp.put p aux (Sp.get [] p aux ++ [entry]) else p }
        (0, s.dropTlb core asid (some (lf.pagesAt va)) true)
  | _ => (2, s)

/-- A 64-bit argument of two words. -/
def argPair (a : List Nat) (k : Nat) : Nat := a.getD k 0 + 2 ^ 32 * a.getD (k + 1) 0

/-- The answer to PIN. -/
def servePin (s : State) (n : Nat) (a : List Nat) : Served :=
  let asid := (s.launchOf n).asid
  let r := s.pinPage (s.coreOf n) asid (argPair a 0) (a.getD 2 0) (a.getD 3 0)
  { status := r.1, lines := if r.1 = 0 then s.pinWaits (s.coreOf n) asid (argPair a 0) else [], s := r.2 }

/-- PIN. -/
def execFwcallPin (x : XForm) (s : State) : Out :=
  fwcall (.fwcallPin x) x 4 Iss.free s fun i a => servePin i.s i.n a

/-- Queue a tier move (14 R351, R359). -/
def State.queueMove (s : State) (asid va pages tier : Nat) : Nat × State :=
  if 2 < tier ∨ pages = 0 ∨ va % 2 ^ 17 ≠ 0 ∨ 2 ^ 57 < va + 2 ^ 17 * pages then (2, s)
  else (0, s.modFw fun f => { f with moves := f.moves ++ [(asid, va / 2 ^ 17, pages, tier)] })

/-- The answer to TIER. -/
def serveTier (s : State) (n : Nat) (a : List Nat) : Served :=
  let r := s.queueMove (s.launchOf n).asid (argPair a 0) (a.getD 2 0) (a.getD 3 0)
  { status := r.1, s := r.2 }

/-- TIER. -/
def execFwcallTier (x : XForm) (s : State) : Out :=
  fwcall (.fwcallTier x) x 4 Iss.free s fun i a => serveTier i.s i.n a

/-- A device is in an owner's domain map (11 R254). -/
def State.inDomain (s : State) (owner dev : Nat) : Bool := (s.peerAsid owner 0 dev).isSome

/-- The answer to DOMAIN. -/
def serveDomain (s : State) (n : Nat) (a : List Nat) : Served :=
  { status := if s.inDomain (s.launchOf n).owner (a.getD 0 0) then 0 else 2, s := s }

/-- DOMAIN. -/
def execFwcallDomain (x : XForm) (s : State) : Out :=
  fwcall (.fwcallDomain x) x 1 (fun _ => true) s fun i a => serveDomain i.s i.n a

/-- Exactly n bytes of a list. -/
def fitBytes (n : Nat) (bs : List Byte) : List Byte := (bs ++ List.replicate n 0#8).take n

/-- A SHA-384 value as bytes, first byte first. -/
def digestBytes (x : BitVec 384) : List Byte := (toBytes 48 x.toNat).reverse

/-- An attestation report (14 Table 14.6). -/
def State.report (s : State) (part : Nat) (nonce : List Byte) : List Byte :=
  let f := s.fw
  let body := toBytes 4 1 ++ toBytes 4 (if f.staged.isSome then 1 else 0) ++ toBytes 8 f.version.toNat ++
    digestBytes f.meas ++
    (match f.staged with
      | some (_, h) => digestBytes h
      | none => toBytes 48 0) ++
    nonce ++ toBytes 8 f.serial.toNat ++ toBytes 4 (part + 16 * (s.part part).owner) ++ toBytes 20 0
  body ++ fitBytes 96 (Config.signature 0 f.attKey 0 body) ++
    fitBytes 1612 (Config.signature 1 f.attKey f.reports body) ++ toBytes 148 0

/-- Write a report through a record (14 R359): status and state. -/
def State.attest (s : State) (part asid : Nat) (r : RecView) (off nonce : Nat) : Nat × State :=
  if r.kind ≠ 0 ∨ !r.r ∨ !r.w ∨ r.extentY = 0 ∨ r.extentX < off + 2048 ∨ r.extentX < nonce + 48 then (2, s)
  else if 32768 ≤ s.fw.reports then (4, s)
  else
    match s.deviceRead asid (r.ea nonce 0) 48 with
    | (none, s) => (2, s)
    | (some bs, s) =>
      if !((List.range 2048).all fun k => (s.devicePa asid (r.ea off 0 + k) true).isSome) then (2, s)
      else
        let s' := s.deviceWrite asid (r.ea off 0) (s.report part bs)
        (0, s'.modFw fun f => { f with reports := f.reports + 1 })

/-- The answer to ATTEST. -/
def serveAttest (s : State) (n : Nat) (a : List Nat) : Served :=
  let k := a.getD 0 0
  if (s.grp n).nb ≤ k then { status := 2, s := s }
  else
    let l := s.launchOf n
    let r := s.attest l.part l.asid (recView ((s.grp n).breg k)) (a.getD 1 0) (a.getD 2 0)
    { status := r.1, s := r.2 }

/-- ATTEST. -/
def execFwcallAttest (x : XForm) (s : State) : Out :=
  fwcall (.fwcallAttest x) x 3 Iss.free s fun i a => serveAttest i.s i.n a

/-- The function of the queue that a launch came from. -/
def State.launchFn (s : State) (l : Nat) : Nat :=
  match (s.launch l).packet.bind (Sp.get? s.packets) with
  | some p => (s.queue p.queue).fn
  | none => ((s.fw.fnOwner.find? fun kv => kv.2 == (s.launch l).owner).map (·.1)).getD 0

/-- The answer to QUEUE. -/
def serveQueue (s : State) (n : Nat) (a : List Nat) : Served :=
  let l := s.launchOf n
  let r := recView ((s.grp n).breg 0)
  let off := a.getD 1 0
  if (s.grp n).nb = 0 ∨ r.kind ≠ 0 ∨ !r.r ∨ r.extentY = 0 ∨ r.extentX < off + 64 then { status := 2, s := s }
  else match s.deviceRead l.asid (r.ea off 0) 64 with
    | (none, s) => { status := 2, s := s }
    | (some bs, s) =>
      let d := queueDescOf bs
      if d.part ≠ l.part then { status := 2, s := s }
      else
        let q := s.configQueue (s.launchFn (s.teamOf n).launch) (a.getD 0 0) l.owner d
        { status := q.1, s := q.2 }

/-- QUEUE. -/
def execFwcallQueue (x : XForm) (s : State) : Out :=
  fwcall (.fwcallQueue x) x 2 (fun i => i.free && (i.s.launchOf i.n).admin) s fun i a => serveQueue i.s i.n a

/-- An unknown service (14 R359). -/
def execFwcallUnknown (x : XForm) (s : State) : Out :=
  fwcall (.fwcallUnknown x) x 0 Iss.free s fun i _ => { status := 1, s := i.s }

end Sys2Proof.Machine
end

