-- ==== Sys2Proof/Machine/Sched.lean ====
section
/-! DEFINITION. Issue selection (12 R289, R290), register chunks (12 R291, R292), instruction fetch (03
Table 3.11, R62), lanterns (12 R293), timing errors (04 R92), samples and the histogram (16 R395, R398). -/

namespace Sys2Proof.Machine

open Sys2Proof

/-! ### Schedulers and their groups -/

/-- The scheduler of a group: declared and handler groups go by number modulo 4 (02 R19). -/
def State.schedOf (s : State) (n : Nat) : Nat := 4 * s.coreOf n + (s.grp n).gid % 4

/-- Groups that stand on a scheduler and have not ended, in the order of their starts. -/
def State.groupsAt (s : State) (k : Nat) : List Nat :=
  let ns := ((s.teamsAt (k / 4) fun _ => true).flatMap fun kv => kv.2.groups.map (·.2)).filter fun n =>
    (s.grp n).gid % 4 == k % 4 && (s.grp n).live
  sortByKey (fun n => (s.grp n).started) ns

/-- Schedulers of the cores on which some team stands. -/
def State.busyScheds (s : State) : List Nat :=
  (((s.teams.filter fun kv => kv.2.standing).map fun kv => kv.2.core).eraseDups).flatMap fun c =>
    [4 * c, 4 * c + 1, 4 * c + 2, 4 * c + 3]

/-! ### Parks that can end (09 R211, R230; 05 R132; 12 R292, R293; 13 R328) -/

/-- An instruction that parked may issue again. -/
def State.parkReady (s : State) (n : Nat) : Park → Bool
  | .sectors l => l.all fun p => Sp.get 0 (s.team p.1).absent p.2 == 0
  | .reading l => l.all fun p => Sp.get 0 (s.team p.1).tstBusy p.2 == 0
  | .tagFull k => (s.grp n).treg k != 0xFFFF#16
  | .noise need => (s.core (s.coreOf n)).noiseFailed || decide (need ≤ (s.core (s.coreOf n)).noise)
  | .lantern => (s.grp n).lantern || !s.fw.lanternsOn
  | .chunks => true
  | .evicted r => !(s.grp n).evicted.contains r
  | .strip id halo =>
    match (s.launchOf n).inst with
    | some k => !(s.stream id).on || (s.stream id).readable (s.instance_ k).g halo
    | none => true
  | .owned ls => !ls.any s.isOwned
  | .io => !s.ioReads.any fun kv => kv.2.group == n
  | .device (some p) => !(s.core 0).faultQ.contains p
  | .device none => true
  | .flags => !(s.grp n).flagsPending

/-! ### Fetch (03 R40, Table 3.11, R62) -/

/-- How a fetch ends: with bytes, with a fault, or not yet, since an engine owns the line (08 R191). -/
inductive Fetched where
  | ok (bs : List Byte)
  | flt (f : Flt)
  | held (line : Nat)
  deriving DecidableEq, Repr

/-- Four bytes of code at a physical address as they stand at the home: read into the instruction cache, with the
whole line where the cache holds none of it. -/
def State.fetchHome (s : State) (core pa : Nat) : Fetched × State :=
  let line := lineOf pa
  if s.isOwned line then (.held line, s)
  else
    let s := (s.recall line).countHome line
    if s.linePoison line then (.flt { cause := 0x04#8, aux := 0x200#32, err := true }, s)
    else
      let new := s.homeBytes pa 4
      let bs := match Sp.get? (s.core core).icache line with
        | some old => old.take (pa % 128) ++ new ++ old.drop (pa % 128 + 4)
        | none => s.homeBytes (128 * line) 128
      (.ok new, s.modCore core fun c => { c with icache := Sp.put c.icache line bs })

/-- One word of an instruction for the issuing group: as the instruction cache holds it, or read anew, which a core
may do at any time (03 R62; log entry 88). -/
def State.fetchWord (s : State) (n va : Nat) : Fetched × State :=
  let core := s.coreOf n
  match s.translate core (s.launchOf n).asid va .fetch with
  | (.error f, s) => (.flt (if f.cause = 0x04#8 then { f with aux := 0x200#32 } else f), s)
  | (.ok (pa, _), s) =>
    match Sp.get? (s.core core).icache (lineOf pa) with
    | none =>
      match s.fetchHome core pa with
      | (.flt f, s) => (.flt { f with vline := vlineOf va }, s)
      | r => r
    | some old =>
      let k := s.choose 2
      if k.1 = 0 then (.ok ((old.drop (pa % 128)).take 4), k.2)
      else match k.2.fetchHome core pa with
        | (.flt f, s) => (.flt { f with vline := vlineOf va }, s)
        | r => r

/-- Words of an instruction, each at its address. -/
def fetchWords (n : Nat) : List Nat → State → Fetched × State
  | [], s => (.ok [], s)
  | va :: r, s =>
    match s.fetchWord n va with
    | (.ok b, s) =>
      match fetchWords n r s with
      | (.ok bs, s) => (.ok (b ++ bs), s)
      | q => q
    | q => q

/-- The bytes of the instruction at a PC: the first word gives the length. -/
def State.fetch (s : State) (n : Nat) (pc : VAddr) : Fetched × State :=
  match s.fetchWord n pc.toNat with
  | (.ok b, s) =>
    let rest := (List.range (codeLen (ofBytes b) / 4 - 1)).map fun k => pc.toNat + 4 * (k + 1)
    match fetchWords n rest s with
    | (.ok bs, s) => (.ok (b ++ bs), s)
    | q => q
  | q => q

/-- A fetch that fails, or bytes that are no instruction, except the issuing lanes (03 R61). -/
def State.failIssue (s : State) (n : Nat) (e : Entry) (op : BitVec 8) (f : Flt) : State :=
  (s.except n op e.pc e.prio e.trap [(e.mask, f)]).settle n

/-! ### Interlocks (03 R56) -/

/-- The instruction that a group would issue next, as its code stands. -/
def State.nextInstr (s : State) (n : Nat) : Option Instr :=
  match (s.grp n).issueEntry with
  | none => none
  | some e =>
    match (s.fetch n e.pc).1 with
    | .ok bs => (decodeBytes bs).instr?
    | _ => none

/-- Registers that an instruction names, coded as 03 R58 codes them. -/
def usesOf (i : Instr) : List Nat := ((shapeOf i.op.toNat i.fields).uses i.fields).map (·.code)

/-- The next instruction waits for no interlock. -/
def State.lockFree (s : State) (n : Nat) : Bool :=
  let g := s.grp n
  if g.locks.isEmpty then true
  else match s.nextInstr n with
    | none => true
    | some i =>
      let us := (usesOf i).map (BitVec.ofNat 16)
      !g.locks.any fun k => k.regs.any fun r => us.contains r

/-! ### Eligibility (12 R289) -/

/-- The declared groups of a team that is being vacated do not issue (15 R381); the groups of a halted team do not
(16 R396). -/
def State.mayIssue (s : State) (n : Nat) : Bool :=
  let g := s.grp n
  let t := s.teamOf n
  g.live && t.life == .resident && !t.frozen g.gid && (!t.stopping || g.isHandler)

/-- A load or store through an I/O-window record. -/
def Group.reachesIo (g : Group) : Instr → Bool
  | .ld x => (recView (g.breg (auxRec x))).kind == 1
  | .sld x => (recView (g.breg (auxRec x))).kind == 1
  | .st x => (recView (g.breg (auxRec x))).kind == 1
  | _ => false

/-- An I/O-window access in trap mode does not issue while an earlier wait holds the group outside it (08 R197). -/
def State.ioInOrder (s : State) (n : Nat) : Bool :=
  let g := s.grp n
  g.trap.isNone || !g.heldByWait || !(s.nextInstr n).any g.reachesIo

/-- The matrix family, whose instructions need a lantern (06 R139). -/
def needsLantern (i : Instr) : Bool := decide (0x70 ≤ i.op.toNat) && decide (i.op.toNat < 0x78) && i.wf

/-- The group holds what its next instruction needs of the lantern pool (06 R139; 12 R293). -/
def State.lanternOk (s : State) (n : Nat) : Bool :=
  !s.fw.lanternsOn || (s.grp n).lantern || !(s.nextInstr n).any needsLantern

def State.eligible (s : State) (n : Nat) : Bool :=
  let g := s.grp n
  s.mayIssue n && g.issueEntry.isSome && g.curWait.isNone &&
    (match g.curPark with
      | some p => s.parkReady n p
      | none => true) && s.lockFree n && s.lanternOk n && s.ioInOrder n

def IssueClass.rank : IssueClass → Nat
  | .timed => 0
  | .handler => 1
  | .background => 2

/-- The eligible groups of the highest class that has any, in the order of their starts. -/
def State.candidates (s : State) (k : Nat) : List Nat :=
  let ok := (s.groupsAt k).filter s.eligible
  let of := fun (c : IssueClass) => ok.filter fun n => (s.grp n).cls == c
  match of .timed, of .handler with
  | [], [] => of .background
  | [], l => l
  | l, _ => l

/-- The candidate that aging makes the scheduler take: passed over for 4,096 cycles, the longest-waiting
first. -/
def State.agedOf (s : State) (k : Nat) : Option Nat :=
  (s.candidates k).foldl (fun best n =>
    if (s.grp n).aging < 4096 then best
    else match best with
      | some b => if (s.grp b).aging < (s.grp n).aging then some n else best
      | none => some n) none

/-- The group that a scheduler takes. -/
def State.pick (s : State) (k : Nat) : Option Nat :=
  let cs := s.candidates k
  match (s.sched k).due with
  | some n => if cs.contains n then some n else cs.head?
  | none => cs.head?

/-- A group passed over for 4,096 cycles of its class is taken next. -/
def execIssueAging (core sched : Nat) (s : State) : Out :=
  let k := 4 * core + sched
  .next (match s.agedOf k with
  | some n => s.modSched k fun x => { x with due := some n }
  | none => s)

/-- An entry passed over for 512 issues is promoted for one issue (12 R290). -/
def execFrontierPromotion (group : Nat) (s : State) : Out :=
  let g := s.grp group
  .next (match promoted ((g.frontier.filter fun e => !e.trap).drop 1) with
  | some e => s.modGrp group fun g => { g with promote := some (e.pc, e.prio) }
  | none => s)

/-! ### Register chunks (12 R291, R292) -/

/-- Chunks of a register line, by its values. -/
def Group.lineChunks (g : Group) (r : Nat) : Nat :=
  let base := g.vreg r 0
  let d := lanes.map fun l => (g.vreg r l - base).toInt
  let within := fun (n : Int) => d.all fun x => decide (-n ≤ x) && decide (x < n)
  if within 8 then 1 else if within 128 then 2 else if within 32768 then 3 else 4

/-- Hg: chunks of the lines that a group holds in the file. -/
def Group.chunks (g : Group) : Nat :=
  ((List.range g.nv).filter fun r => !g.evicted.contains r).foldl (fun n r => n + g.lineChunks r) 0

/-- Rg: the reservation of a declared group (02 R38). -/
def State.reserve (s : State) (n : Nat) : Nat := groupChunks { (s.launchOf n).r with nv := (s.grp n).nv }

/-- Handler slots that the teams on a scheduler hold; each counts its reservation (02 R38). -/
def State.handlerSlots (s : State) (k : Nat) : Nat :=
  ((s.teamsAt (k / 4) fun _ => true).map fun kv => onSched kv.2.nhandlers (k % 4) fun _ => true).foldl (· + ·) 0

/-- U: the occupancy of a scheduler. -/
def State.occupancy (s : State) (k : Nat) : Nat :=
  ((s.groupsAt k).filter fun n => !(s.grp n).isHandler).foldl
    (fun u n => u + max (s.reserve n) (s.grp n).chunks) (128 * s.handlerSlots k)

/-- No values could fill the scheduler. -/
def State.roomy (s : State) (k : Nat) : Bool :=
  decide (((s.groupsAt k).filter fun n => !(s.grp n).isHandler).foldl (fun u n => u + 4 * (s.grp n).nv)
    (128 * s.handlerSlots k) ≤ 3072)

/-- Victims in their order: parked background groups, running ones, each the least recently issued first,
then the writing group. -/
def State.victims (s : State) (k writer : Nat) : List Nat :=
  let bg := (s.groupsAt k).filter fun n => n != writer && (s.grp n).cls == .background && !(s.grp n).isHandler
  let old := sortByKey fun n => (s.grp n).lastIssue
  let held := fun (n : Nat) => (s.grp n).wait.isSome || (s.grp n).park.isSome || (s.grp n).frontier.isEmpty
  old (bg.filter held) ++ old (bg.filter fun n => !held n) ++ [writer]

/-- The least recently read or written line of a group that is in the file. -/
def Group.oldestLine (g : Group) : Option Nat :=
  ((List.range g.nv).filter fun r => !g.evicted.contains r).foldl (fun best r =>
    match best with
    | some b => if Sp.get 0 g.lineUse r < Sp.get 0 g.lineUse b then some r else best
    | none => some r) none

/-- Evict one line from the first victim that holds more than its reservation. -/
def State.evictOne (s : State) (k writer : Nat) : Option State :=
  match (s.victims k writer).find? fun n => decide (s.reserve n < (s.grp n).chunks) with
  | none => none
  | some n => (s.grp n).oldestLine.map fun r => s.modGrp n fun g => { g with evicted := r :: g.evicted }

/-- Evict lines until the scheduler holds no more than 3,072 chunks. -/
def evictAll (k writer : Nat) : Nat → State → State
  | 0, s => s
  | fuel + 1, s =>
    if s.occupancy k ≤ 3072 then s
    else match s.evictOne k writer with
      | some s => evictAll k writer fuel s
      | none => s

/-- After a write-back of a background group. -/
def State.settleChunks (s : State) (n : Nat) : State :=
  let g := s.grp n
  let k := s.schedOf n
  if !g.live || g.cls != .background || s.roomy k then s else evictAll k n 3072 s

/-- An evicted line is fetched back, under the same rule. -/
def execEvictedLineFetch (group reg : Nat) (s : State) : Out :=
  let g := s.grp group
  .next (if !g.evicted.contains reg then s
  else (s.modGrp group fun g => { g with
      evicted := g.evicted.filter (· != reg), lineUse := Sp.put g.lineUse reg s.cycle }).settleChunks group)

/-- An evicted line that an instruction reads. -/
def State.evictedUse (s : State) (n : Nat) (i : Instr) : Option Nat :=
  let g := s.grp n
  if g.evicted.isEmpty then none
  else (usesOf i).find? fun c => decide (c < 0xC0) && g.evicted.contains c

/-! ### Lanterns (12 R293) -/

/-- Lanterns out in a partition. -/
def State.lanternsOut (s : State) (part : Nat) : Nat :=
  (s.groups.filter fun kv => kv.2.lantern && (s.launchOf kv.1).part == part).length

/-- A lantern is left for a partition: in its reserved count, else in the shared remainder. -/
def State.lanternLeft (s : State) (part : Nat) : Bool :=
  let ps := (s.parts.filter fun kv => kv.2.on)
  let reserved := ps.foldl (fun n kv => n + kv.2.lanterns) 0
  let shared := ps.foldl (fun n kv => n + (s.lanternsOut kv.1 - kv.2.lanterns)) 0
  decide (s.lanternsOut part < (s.part part).lanterns) || decide (reserved + shared < s.fw.pool)

/-- One request goes before another: class, then order of request. -/
def State.askBefore (s : State) (a b : Nat) : Bool :=
  let x := s.grp a
  let y := s.grp b
  decide (x.cls.rank < y.cls.rank) || (x.cls == y.cls && decide (x.lanternAsk < y.lanternAsk))

/-- The request served next, among those whose partition has a lantern left. -/
def State.lanternNext (s : State) : Option Nat :=
  ((s.groups.filter fun kv => kv.2.curPark == some .lantern && !kv.2.lantern && kv.2.live &&
      (s.teamOf kv.1).life == .resident && s.lanternLeft (s.launchOf kv.1).part).map (·.1)).foldl (fun best n =>
    match best with
    | some b => if s.askBefore n b then some n else best
    | none => some n) none

/-- A lantern is granted to the waiting group that is served next. -/
def execLanternGrant (group : Nat) (s : State) : Out :=
  .next (if s.fw.lanternsOn && s.lanternNext == some group then
    s.modGrp group fun g => { (g.setPark none) with lantern := true, lanternIdle := 0 }
  else s)

/-- A group returns its lantern after 256 of its scheduler's cycles without a matrix instruction. -/
def execLanternIdleReturn (group : Nat) (s : State) : Out :=
  .next (if (s.grp group).lantern && decide (256 ≤ (s.grp group).lanternIdle) then s.modGrp group Group.dropLantern
  else s)

/-- Lanterns that the timed streams of a partition may hold (13 R316). -/
def State.timedIn (s : State) (part : Nat) : Nat :=
  ((s.streams.filter fun kv => kv.2.on && kv.2.part == part).map fun kv => lanternsOf kv.2.d kv.2.tmpl).foldl (· + ·) 0

def State.timedLanterns (s : State) : Nat := (s.parts.map fun kv => s.timedIn kv.1).foldl (· + ·) 0

/-- A group whose next instruction is of the matrix family asks for a lantern and parks for it (06 R139). -/
def State.askLantern (s : State) (n : Nat) : State :=
  let g := s.grp n
  match s.mayIssue n && g.curWait.isNone && g.curPark.isNone && s.lockFree n && !s.lanternOk n, g.issueEntry,
      s.nextInstr n with
  | true, some e, some i =>
    let s := s.modGrp n fun g =>
      ({ g.setPark (some .lantern) with lanternAsk := s.serial }).waitsAt s.time e.pc i.op e.pc e.prio
    { s with serial := s.serial + 1 }
  | _, _, _ => s

/-- Every group that needs a lantern has asked for it. -/
def State.askLanterns (s : State) : State :=
  if s.fw.lanternsOn then s.groups.foldl (fun s kv => s.askLantern kv.1) s else s

/-- Firmware sets the pool, 256 to 1,020, and the reserved counts, which total no more; 0 turns lanterns
off. A smaller pool takes effect as lanterns return. A change that would take from a timed reservation is not made:
the clock of the background cores is lowered instead, and the shortfall reported (14 R367). -/
def execLanternPoolChange (pool : Nat) (reserved : List (Nat × Nat)) (s : State) : Out :=
  let sum := reserved.foldl (fun n p => n + p.2) 0
  let given := fun (part : Nat) => ((reserved.find? fun p => p.1 == part).map (·.2)).getD 0
  .next (if pool = 0 then s.modFw fun f => { f with lanternsOn := false, pool := 0, slow := false }
  else if pool < 256 ∨ 1020 < pool then s
  else if pool < s.timedLanterns ∨ s.parts.any fun kv => decide (given kv.1 < s.timedIn kv.1) then
    s.modFw fun f => { f with slow := true, shortfalls := f.shortfalls + 1 }
  else if pool < sum then s
  else
    let s := s.modFw fun f => { f with lanternsOn := true, pool := pool, slow := false }
    { s with parts := s.parts.map fun (kv : Nat × Partition) =>
        (kv.1, { kv.2 with lanterns := given kv.1 }) })

/-! ### Results and timing errors -/

/-- A long-latency instruction completes, and its interlock is released (03 R56). -/
def execLongLatencyResult (group lock : Nat) (s : State) : Out :=
  .next (s.modGrp group fun g => g.unlock fun k => k.id == lock && k.kind == .result)

/-- A detected timing error replays the instruction, whose result is that of one execution; detected twice
in a row, it puts the scheduler in guard margin until the next launch boundary of the core (04 R92). A
scheduler in guard margin, as those of a core with reserved slots are, meets none (13 R318). -/
def execTimingErrorReplay (core sched : Nat) (s : State) : Out :=
  let k := 4 * core + sched
  let x := s.sched k
  .next (if s.guarded core || x.guard || x.last.isNone then s
  else s.modSched k fun x =>
    { x with replays := x.replays + 1, guard := x.replayed, replayed := !x.replayed })

/-! ### Samples and the histogram (16 R395, R398) -/

/-- A group of a timed stream is sampled only while its stream runs in debug timing. -/
def State.sampledGroup (s : State) (n : Nat) : Bool :=
  (s.grp n).cls != .timed || (match (s.launchOf n).inst with
    | some k => (s.stream (s.instance_ k).stream).d.dbg
    | none => false)

/-- Sampling period of the partition that a core lies in. -/
def State.sampleOf (s : State) (core : Nat) : Nat :=
  match s.parts.find? fun kv => kv.2.on && rectOk kv.2 { cx := 1, cy := 1 } core with
  | some kv => kv.2.samplePeriod
  | none => 0

/-- A sample record that fell due at a scheduler: the group that issued in that cycle, or the oldest resident
group. -/
def execSampleRecord (core sched : Nat) (s : State) : Out :=
  let k := 4 * core + sched
  let x := s.sched k
  .next (if x.sampled = 0 then s
  else
    let s := s.modSched k fun x => { x with sampled := 0 }
    let who := match x.last with
      | some n => if x.lastAt + 1 = x.sampled ∧ (s.grp n).live then some n else (s.groupsAt k).head?
      | none => (s.groupsAt k).head?
    match who with
    | none => s
    | some n =>
      if !s.sampledGroup n then s
      else
        let pc := match (s.grp n).frontier.head? with
          | some e => e.pc.toNat
          | none => 0
        s.trace (s.grp n).team (s.grp n).gid 8 pc)

/-- The reason that keeps a group from issuing (16 Table 16.3): the first of the table that holds. -/
def State.stallReason (s : State) (n : Nat) : Nat :=
  let g := s.grp n
  let t := s.teamOf n
  let behind := g.trap.isSome && (g.frontier.any (fun e => !e.trap) || !g.subs.isEmpty)
  let gone := g.frontier.isEmpty
  let by_ := fun (r : Nat) (b : Bool) => if b then [r] else []
  let wait := match g.curWait with
    | some (.barrier _ _ _) => [8]
    | some (.cbar _) => [8]
    | some (.object _ _ _) => [8]
    | some (.tag _) => [8]
    | some (.ring _ _ _) => [9]
    | some (.sleep _) => [11]
    | none => []
  let park := match g.curPark with
    | some .chunks => [4]
    | some (.evicted _) => [4]
    | some .lantern => [5]
    | some (.sectors _) => [7]
    | some (.strip _ _) => [9]
    | some _ => [15]
    | none => []
  let fetching := match g.issueEntry with
    | some e => (match (s.fetch n e.pc).1 with
      | .held _ => true
      | _ => false)
    | none => false
  let all := by_ 1 t.halted ++ by_ 2 behind ++ by_ 3 fetching ++ wait ++ park ++ by_ 6 (!s.lockFree n) ++
    by_ 10 (gone && !g.conv.isEmpty) ++ by_ 12 (gone && !g.rl.isEmpty) ++ by_ 13 (gone && !g.recov.isEmpty) ++
    by_ 14 g.draining
  minOf 15 all

/-- The resident groups of a scheduler, in the order of their starts: a handler stays until its drain ends (15
R387). -/
def State.residentAt (s : State) (k : Nat) : List Nat :=
  let ns := ((s.teamsAt (k / 4) fun _ => true).flatMap fun kv => kv.2.groups.map (·.2)).filter fun n =>
    let g := s.grp n
    g.gid % 4 == k % 4 && (g.live || (g.draining && g.isHandler))
  sortByKey (fun n => (s.grp n).started) ns

/-- One cycle of a scheduler's counters (16 R398); every P cycles a sample falls due (16 R395). -/
def State.countSched (s : State) (k : Nat) : State :=
  let n := ((s.groupsAt k).filter s.eligible).length
  let r := match s.residentAt k with
    | [] => 0
    | g :: _ => s.stallReason g
  let p := s.sampleOf (k / 4)
  s.modSched k fun x => { x with
    hist := Sp.put x.hist n (Sp.get 0 x.hist n + 1)
    stalls := if n = 0 then Sp.put x.stalls r (Sp.get 0 x.stalls r + 1) else x.stalls
    sampled := if p != 0 && s.cycle % p == 0 then s.cycle else x.sampled }

end Sys2Proof.Machine
end

