-- ==== Sys2Proof/Machine/Watch.lean ====
section
/-! DEFINITION. What the device watches: device time's advance and Vigil (12 R296), reports of asynchronous
failures (15 R386), entries to trap mode (15 R373), thermal migration (12 R294) and rebinding (12 R295). -/

namespace Sys2Proof.Machine

open Sys2Proof

/-! ### Trap entry and asynchronous failures -/

/-- A waiting sub-group enters trap mode once no other is in it and it is not halted. -/
def execTrapEntry (group : Nat) (s : State) : Out :=
  let g := s.grp group
  .next (if g.live && g.trap.isNone && !g.subs.isEmpty && !(s.team g.team).frozen g.gid then
    (s.enterTrap group).settle group
  else s)

/-- AUX of an asynchronous record. -/
def AsyncFail.aux (f : AsyncFail) : Word := BitVec.ofNat 32 (f.op.toNat + 256 * (f.gid % 256))

/-- The group that a failure is reported to: the issuing group while it has live lanes, else the live group
of the team with the lowest `%GID`, else none. -/
def State.reportTo (s : State) (f : AsyncFail) : Option Nat :=
  let live := fun (n : Nat) => (s.grp n).live && (s.grp n).alive != 0#32
  if live f.group && (s.grp f.group).team == f.team then some f.group
  else ((s.team f.team).groups.find? fun kv => live kv.2).map (·.2)

/-- The group could issue now, outside trap mode: the record goes before that issue. -/
def State.reportNow (s : State) (f : AsyncFail) : Bool :=
  match s.reportTo f with
  | none => true
  | some n => (s.grp n).trap.isNone && s.eligible n

/-- Deliver one failure: a record with ASYNC over the lanes of the head entry, or the completion record. -/
def State.reportFail (s : State) (f : AsyncFail) : State :=
  match s.reportTo f with
  | none => s.modLaunch f.launch fun x =>
      { x with asyncf := true, err := true, cause := firstCause x.cause f.cause }
  | some n =>
    match (s.grp n).frontier.head? with
    | none => s
    | some e =>
      (s.takeTrap n
        { cause := f.cause, mixed := false, async := true, done := false, op := s.opAt n e.pc, mask := e.mask,
          pc := e.pc, vline := 0#64, prio := e.prio, recIdx := none, aux := f.aux } []).settle n

/-- The first failure that can be reported now is. -/
def execAsyncFailureReport (s : State) : Out :=
  .next (match s.fails.find? s.reportNow with
  | none => s
  | some f => { s with fails := s.fails.erase f }.reportFail f)

/-! ### Vigil (12 R296) -/

/-- The no-issue limit and the wait limit of a launch in ns, 0 for none: the record's, else the partition's. -/
def State.vigilLimits (s : State) (l : Nat) : Nat × Nat :=
  let x := s.launch l
  let p := s.part x.part
  (1000 * (if x.r.vigilUs = 0 then p.vigilUs else x.r.vigilUs),
    1000000 * (if x.r.vigilMs = 0 then p.vigilMs else x.r.vigilMs))

/-- A team of the launch is halted: Vigil's counts pause. -/
def State.launchHalted (s : State) (l : Nat) : Bool := s.teams.any fun kv => kv.2.launch == l && kv.2.halted

/-- The launch has a resident group that is neither in `SLEEP` nor in the drain state. -/
def State.watched (s : State) (l : Nat) : Bool :=
  (s.groupsOf l).any fun n =>
    let g := s.grp n
    g.live && (s.teamOf n).life == .resident && (match g.wait with
      | some (.sleep _) => false
      | _ => true)

/-- A launch that its groups can still run. -/
def Launch.isLive (x : Launch) : Bool := x.life == .placing || x.life == .running

/-- The no-issue limit has been reached. -/
def State.noIssueDue (s : State) (l : Nat) : Bool :=
  let lim := (s.vigilLimits l).1
  (s.launch l).isLive && lim != 0 && s.watched l && !s.launchHalted l &&
    decide ((s.launch l).lastIssue.toNat + lim ≤ s.time.toNat)

/-- Waits that Vigil counts (12 R296): their kinds. -/
def Wait.isVigil : Wait → Bool
  | .barrier _ _ _ => true
  | .cbar _ => true
  | .object _ _ _ => true
  | _ => false

/-- Times at which the waits of a group that Vigil counts began. -/
def Group.waitStarts (g : Group) : List Nat :=
  (match g.wait with
    | some w => if w.isVigil then [g.waitFrom.toNat] else []
    | none => []) ++
  (match g.park with
    | some (.sectors _) => [g.waitFrom.toNat]
    | _ => []) ++
  (g.conv.map fun c => c.since.toNat) ++ (g.rl.filter fun c => c.mask &&& ~~~g.rlIn != 0#32).map fun c => c.since.toNat

/-- A wait of the group has lasted longer than the limit. -/
def State.longWaitDue (s : State) (n : Nat) : Bool :=
  let l := (s.teamOf n).launch
  let lim := (s.vigilLimits l).2
  (s.grp n).live && (s.teamOf n).standing && lim != 0 && !s.launchHalted l &&
    (s.grp n).waitStarts.any fun t => decide (t + lim < s.time.toNat)

/-- A launch without a trap handler is killed when Vigil fires, and shows VIGIL and KILLED. -/
def State.vigilKill (s : State) (l : Nat) : State :=
  if (s.launch l).hasHandler then s else (s.modLaunch l fun x => { x with vigil := true }).killLaunch l

/-- No group of a launch has issued for the limit: every resident group faults. -/
def execVigilNoIssue (launch : Nat) (s : State) : Out :=
  .next (if !s.noIssueDue launch then s
  else
    let s := s.modLaunch launch fun x => { x with lastIssue := s.time }
    let s := (s.groupsOf launch).foldl (fun s n => s.strike n 0x0C#8 1#32 false) s
    s.vigilKill launch)

/-- The counts of a group's waits begin anew. -/
def Group.restartWaits (g : Group) (t : BitVec 64) : Group :=
  { g with
    waitFrom := t
    conv := g.conv.map fun c => { c with since := t }
    rl := g.rl.map fun c => { c with since := t } }

/-- A wait of a group has lasted longer than the limit: the group faults. -/
def execVigilLongWait (group : Nat) (s : State) : Out :=
  .next (if !s.longWaitDue group then s
  else
    let l := (s.teamOf group).launch
    let s := s.modGrp group fun g => g.restartWaits s.time
    (s.strike group 0x0C#8 2#32 false).vigilKill l)

/-! ### One cycle (13 R308) -/

/-- Vigil's counts stand still for the cycle where they pause. -/
def State.pauseVigil (s : State) (dt : BitVec 64) : State :=
  s.launches.foldl (fun s kv =>
    let l := kv.1
    if !kv.2.isLive then s
    else
      let halted := s.launchHalted l
      let s := if halted || !s.watched l then s.modLaunch l fun x => { x with lastIssue := x.lastIssue + dt } else s
      if !halted then s
      else (s.groupsOf l).foldl (fun s n => s.modGrp n fun g => { g with
        waitFrom := g.waitFrom + dt
        conv := g.conv.map fun c => { c with since := c.since + dt }
        rl := g.rl.map fun c => { c with since := c.since + dt } }) s) s

/-- Lanterns held count the cycles without a matrix instruction. -/
def State.countLanterns (s : State) : State :=
  if !s.fw.lanternsOn then s
  else { s with groups := s.groups.map fun (kv : Nat × Group) =>
    (kv.1, if kv.2.lantern then { kv.2 with lanternIdle := kv.2.lanternIdle + 1 } else kv.2) }

/-- One arithmetic-clock cycle: device time moves by the rate word, and what counts cycles counts one. -/
def State.tick (s : State) : State :=
  let t : BitVec 96 := (s.time ++ s.frac) + s.rate
  let now : BitVec 64 := t.extractLsb' 32 64
  let dt := now - s.time
  let s : State := { s with
    time := now, frac := t.extractLsb' 0 32, cycle := s.cycle + 1, up := s.up + s.rate.toNat }
  let s := (s.pauseVigil dt).countLanterns
  s.busyScheds.foldl State.countSched s

/-! ### Thermal migration (12 R294) -/

/-- A team that may be migrated: not timed, not halted, resident for 2 ms. -/
def State.mayMigrate (s : State) (tn : Nat) : Bool :=
  let t := s.team tn
  t.life == .resident && !t.halted && !t.stopping && (s.launch t.launch).r.cls != 2 &&
    decide (t.placedAt.toNat + 2000000 ≤ s.time.toNat)

/-- Thermal migration is enabled, and the team stands on a core above the threshold. -/
def State.tooHot (s : State) (tn : Nat) : Bool :=
  match s.fw.hotLimit with
  | some h => decide (h < (s.core (s.team tn).core).temp)
  | none => false

/-- The threshold and the temperatures as firmware has them. -/
def State.heated (s : State) (heat : HeatCheck) : State :=
  heat.temps.foldl (fun s p => s.modCore p.1 fun c => { c with temp := p.2 })
    (s.modFw fun f => { f with hotLimit := heat.limit })

/-- Firmware sets the threshold, or none, and reads temperatures of cores; a team that is too hot begins to be
vacated with its cluster (log entry 84). -/
def execThermalMigration (heat : HeatCheck) (s : State) : Out :=
  let s := s.heated heat
  let k := heat.team
  .next (if s.tooHot k && (s.clusterOf k).all s.mayMigrate && (s.team k).life == .resident then
    let s := (s.clusterOf k).foldl (fun s k =>
      s.modTeam k fun t => { t with leftHot := some (s.core t.core).temp }) s
    s.stopCluster k
  else s)

/-! ### Rebinding a partition (12 R295; 14 R342) -/

/-- Rectangles of the mesh that share a core. -/
def rectsMeet (r : Rect) (p : Partition) : Bool :=
  decide (r.x < p.x + p.w) && decide (p.x < r.x + r.w) && decide (r.y < p.y + p.h) && decide (p.y < r.y + r.h)

/-- A rectangle that a partition may have: inside the mesh, without core (0,0), and apart from the others. -/
def State.freeRect (s : State) (part : Nat) (r : Rect) : Bool :=
  decide (0 < r.w) && decide (0 < r.h) && decide (r.x + r.w ≤ 16) && decide (r.y + r.h ≤ 16) &&
    !(r.x == 0 && r.y == 0) && !s.parts.any fun kv => kv.1 != part && kv.2.on && rectsMeet r kv.2

/-- What firmware may load: an owner that exists, or none to unbind the partition; a legal sampling period (16 R395);
lanterns that the pool has (12 R293). -/
def State.loadOk (s : State) (part : Nat) (r : PartLoad) : Bool :=
  let others := ((s.parts.filter fun kv => kv.1 != part).map fun kv => kv.2.lanterns).foldl (· + ·) 0
  (r.owner == 0 || s.fw.owners.contains r.owner) &&
    (r.samplePeriod == 0 || (decide (4096 ≤ r.samplePeriod) && decide (r.samplePeriod ≤ 2 ^ 24))) &&
    (!s.fw.lanternsOn || decide (others + r.lanterns ≤ s.fw.pool))

/-- Launches of a partition's owner that have not completed; those still in the rank queue are not dispatched. -/
def State.launchesIn (s : State) (part : Nat) : List Nat :=
  (s.launches.filter fun kv => kv.2.part == part && kv.2.owner == (s.part part).owner && kv.2.isLive).map (·.1)

/-- A launch whose teams have all been saved or discarded, so that it can wait for its partition. -/
def State.suspended (s : State) (l : Nat) : Bool :=
  (s.launch l).r.cls != 2 && s.teams.all fun kv =>
    kv.2.launch != l || kv.2.life == .saved || kv.2.life == .discarded || kv.2.life == .ended

/-- Launches that must end before a partition changes hands: where its teams are saved, those not suspended. -/
def State.rebindLeft (s : State) (part : Nat) : List Nat :=
  let save := (s.part part).rebind.any (·.save)
  (s.launchesIn part).filter fun l => !(save && s.suspended l)

/-- At the deadline the launches of the partition that still run are killed, and its streams close. -/
def State.rebindKill (s : State) (part : Nat) : State :=
  let s : State := { s with
    streams := s.streams.map fun (kv : Nat × Stream) =>
      (kv.1, if kv.2.part = part then { kv.2 with closing := true } else kv.2)
    insts := s.insts.map fun (kv : Nat × Inst) =>
      (kv.1, if (s.stream kv.2.stream).part = part then { kv.2 with missedAt := true, killed := true } else kv.2) }
  let ls := (s.rebindLeft part).filter fun l => !(s.launch l).killed
  ls.foldl State.killLaunch s

/-- Packets of the partition's queues go unread, and those not dispatched are dropped; its gangs end. -/
def State.dropPackets (s : State) (part : Nat) : State :=
  let mine := fun (num : Nat) => (s.queue (s.packetOf num).queue).d.part == part || (s.partsOf num).contains part
  let gone := (s.packets.filter fun kv => mine kv.1).map (·.1)
  let dead := (s.gangs.filter fun kv => gone.contains kv.2.packet)
  let held := dead.flatMap fun kv => kv.2.parts
  { s with
    packets := s.packets.filter fun kv => !gone.contains kv.1
    rankQ := s.rankQ.filter fun k => !gone.contains k
    gangs := s.gangs.filter fun kv => !gone.contains kv.2.packet
    launches := (s.launches.filter fun kv => !(held.contains kv.1 && kv.2.life == .queued)).map fun kv =>
      -- a launch that is suspended goes on without the packet it came from
      (kv.1, if kv.2.part = part then { kv.2 with
        packet := kv.2.packet.filter fun p => !gone.contains p, gang := if held.contains kv.1 then none else kv.2.gang }
      else kv.2) }

/-- Queues, streams, packets and the histogram of the outgoing owner go. -/
def State.clearPart (s : State) (part : Nat) : State :=
  let s := s.dropPackets part
  let p := s.part part
  let inside := fun (core : Nat) => rectOk p { cx := 1, cy := 1 } core
  let ids := (s.streams.filter fun kv => kv.2.part == part).map (·.1)
  { s with
    queues := s.queues.filter fun kv => kv.2.d.part != part
    streams := s.streams.filter fun kv => kv.2.part != part
    insts := s.insts.filter fun kv => !ids.contains kv.2.stream
    scheds := s.scheds.map fun (kv : Nat × Sched) =>
      (kv.1, if inside (kv.1 / 4) then { kv.2 with hist := [], stalls := [] } else kv.2) }

/-- The settings that a partition takes over. -/
def Partition.take (p : Partition) (r : PartLoad) (cycle : Nat) : Partition :=
  { p with
    on := r.owner != 0, owner := r.owner, rebind := none, lanterns := r.lanterns, bwCap := r.bwCap
    stripShare := r.stripShare, vigilUs := r.vigilUs, vigilMs := r.vigilMs, samplePeriod := r.samplePeriod
    traceBase := 0, traceSize := 0, traceCount := 0, traceLost := 0, traceAsid := 0, debugger := false,
    ioRanges := [], histFrom := cycle }

/-- The domain map entries of an owner are those loaded: here only for an ASID of its own (14 R354). An owner that
holds no partition here any more keeps none that names this device. -/
def State.loadDomain (s : State) (old : Nat) (r : PartLoad) : State :=
  let gone := !s.parts.any fun kv => kv.2.on && kv.2.owner == old
  let mine := (r.domain.filter fun e => e.1 != s.fw.deviceId || s.asidOwned e.2 r.owner).map fun e => (r.owner, e.1, e.2)
  s.modFw fun f => { f with
    domain := (f.domain.filter fun e => e.1 != r.owner && !(gone && e.1 == old && e.2.1 == f.deviceId)) ++
      (if r.owner = 0 then [] else mine) }

/-- The partition changes hands: settings, domain map, key slots and queues are loaded (12 R295 step 3). -/
def State.rebound (s : State) (part : Nat) (r : PartLoad) : State :=
  let old := (s.part part).owner
  let s := (s.clearPart part).modPart part fun p => p.take r s.cycle
  let s := (s.dropKey old).loadDomain old r
  let s := if r.owner = 0 ∨ Sp.has s.fw.keys r.owner then s else s.makeKey r.owner
  r.queues.foldl (fun s q => (s.configQueue q.1 q.2.1 r.owner q.2.2).2) s

/-- The rectangle of a partition that was bound to none (14 R342). -/
def State.setRect (s : State) (part : Nat) (r : Rect) : State :=
  s.modPart part fun p => { p with x := r.x, y := r.y, w := r.w, h := r.h }

/-- Firmware gives a partition to an owner. One bound to none gets its rectangle and is bound at once; else its queues
stop reading, with a save its teams begin to be vacated, and the deadline runs. -/
def execPartitionRebind (part : Nat) (rect : Rect) (load : PartLoad) (s : State) : Out :=
  let p := s.part part
  .next (if 16 ≤ part ∨ !s.loadOk part load ∨ p.rebind.isSome then s
  else if !p.on then
    if load.owner != 0 && s.freeRect part rect then s.unlessHeld fun s => (s.setRect part rect).rebound part load
    else s
  else
    let s := s.modPart part fun p => { p with rebind := some load }
    let s : State := { s with queues := s.queues.map fun (kv : Nat × Queue) =>
        (kv.1, if kv.2.d.part = part then { kv.2 with stopped := true } else kv.2) }
    if !load.save then s
    else (s.teams.filter fun kv => kv.2.standing && (s.launch kv.2.launch).part == part &&
        (s.launch kv.2.launch).r.cls != 2).foldl (fun s kv => s.stopCluster kv.1) s)

/-- The rebind deadline has passed: what still runs is killed, and once nothing of the partition is left it
is bound to the new owner. -/
def execRebindDeadline (part : Nat) (s : State) : Out :=
  .next (match (s.part part).rebind with
  | none => s
  | some r =>
    if s.time.toNat < r.deadline.toNat then s
    else
      let s := s.rebindKill part
      if (s.rebindLeft part).isEmpty then s.unlessHeld fun s => s.rebound part r else s)

end Sys2Proof.Machine
end

