-- ==== Sys2Proof/Machine/Recover.lean ====
section
/-! DEFINITION. Recovery: the fault queue (14 R350, 15 R368), tier migration (14 R351), restoring teams (12 R307;
15 R382), poison (15 R388 to R390), the noise source's
health (05 R132), and I/O-window completions (08 R197). -/

namespace Sys2Proof.Machine

open Sys2Proof

/-! ### The fault queue -/

/-- Lanes that a service releases go back to the instruction that faulted; lanes that owe a cause take it
there (12 R420). -/
def State.retryLanes (s : State) (n : Nat) (r : Recov) : State :=
  match r.owe with
  | none => s.modGrp n fun g => g.addLanes r.pc r.prio r.mask r.trap
  | some (cause, aux) => s.takeTrap n
      { cause := cause, mixed := false, async := false, done := false, op := r.op, mask := r.mask, pc := r.pc,
        vline := 0#64, prio := r.prio, recIdx := none, aux := aux } []

/-- A page that firmware cannot supply: its lanes trap with cause 0x01; in trap mode that is a double fault. -/
def State.refuseLanes (s : State) (n : Nat) (r : Recov) : State :=
  let f : FaultRec :=
    { cause := 0x01#8, mixed := false, async := false, done := false, op := r.op, mask := r.mask, pc := r.pc,
      vline := r.vline, prio := r.prio, recIdx := r.recIdx, aux := 0#32 }
  if r.trap then s.killLanes n f else s.takeTrap n f []

/-- A `PSAVE` or `PLOAD` whose image lies on the page: it answers with a status instead (15 R380). -/
def Recov.isImage (r : Recov) : Bool := (r.op == 0xB6#8 || r.op == 0xB7#8) && r.recIdx.isSome

/-- One set of lanes whose page has been serviced. -/
def State.serviceLanes (s : State) (n page : Nat) (supplied : Bool) (r : Recov) : State :=
  let s := s.modGrp n fun g => { g with recov := g.recov.erase r }
  if supplied then (s.annotate (s.grp n).team (s.grp n).gid 1 r.pc).retryLanes n r
  else if r.isImage then (s.modGrp n fun g => { g with noPage := page :: g.noPage }).retryLanes n r
  else s.refuseLanes n r

/-- The lanes of one group. -/
def State.serviceGroup (s : State) (n asid page : Nat) (supplied : Bool) : State :=
  let mine := (s.grp n).recov.filter fun r => r.asid == asid && r.page == page && r.queued
  if mine.isEmpty then s
  else (mine.foldl (fun s r => s.serviceLanes n page supplied r) s).settle n

/-- Engines and bulk reads of a core wait no longer for a page; one that firmware cannot supply they know as such (09
R235; 10 R249). -/
def State.tellEngines (s : State) (core asid page : Nat) (supplied : Bool) : State :=
  let gone := fun (l : List Nat) => if supplied then l else page :: l
  let mine := fun (c l : Nat) => c == core && (s.launch l).asid == asid
  { s with
    ops := s.ops.map fun (kv : Nat × AsyncOp) =>
      (kv.1, if mine kv.2.core kv.2.launch then
        { kv.2 with noPage := gone kv.2.noPage, waits := kv.2.waits.filter (· != page) } else kv.2)
    reads := s.reads.map fun (kv : Nat × BulkRead) =>
      (kv.1, if mine kv.2.core kv.2.launch then
        { kv.2 with noPage := gone kv.2.noPage, waits := kv.2.waits.filter (· != page) } else kv.2) }

/-- Refinement runs of a core that wait for a page of their entries start without it (07 R154). -/
def State.forceRuns (s : State) (core asid page : Nat) : State :=
  ((s.teamsAt core fun t => (s.launch t.launch).asid == asid).map (·.1)).foldl (fun s tn =>
    if s.rlMayStart tn && (s.rlAbsent tn).contains page then s.rlStart tn (some page) else s) s

/-- What the firmware core learns about a page that the device's own reads wait for (14 R350). -/
def Firmware.noteDenied (f : Firmware) (asid page : Nat) (supplied : Bool) : Firmware :=
  { f with denied := (f.denied.filter (· != (asid, page))) ++ if supplied then [] else [(asid, page)] }

/-- Nothing that firmware could service keeps a page from being translated. -/
def State.pageThere (s : State) (asid page : Nat) : Bool :=
  match s.walk asid (page * 2 ^ 17) with
  | .leaf lf => !lf.mig
  | .notPresent => false
  | _ => true

/-- Lanes that the full queue had no room for retry their translation: on a page that is there now they go on, else
they enter the queue (14 R350). -/
def State.retryLater (s : State) (core n asid page : Nat) : State :=
  let mine := (s.grp n).recov.filter fun r => r.asid == asid && r.page == page && !r.queued
  if mine.isEmpty || !(s.teamOf n).standing || s.coreOf n != core then s
  else if s.pageThere asid page then
    let t : State := mine.foldl (fun t r => (t.modGrp n fun g => { g with recov := g.recov.erase r }).retryLanes n r) s
    t.settle n
  else
    let t := s.modGrp n fun g => { g with recov := g.recov.map fun r =>
      if r.asid == asid && r.page == page then { r with queued := true } else r }
    t.modCore core fun c => c.queuePage asid page

/-- As long as the queue has room, lanes that it had no room for retry, in the order of their first fault. -/
def State.retryWaiting (s : State) (core : Nat) : State :=
  (s.core core).faultLater.foldl (fun s p =>
    if 256 ≤ (s.core core).faultQ.length then s
    else (s.modCore core fun c => { c with faultLater := c.faultLater.erase p }).retryLater core p.1 p.2.1 p.2.2) s

/-- The ASID that an owner's accesses from peers use here (11 R254). -/
def State.asidHere (s : State) (owner : Nat) : Option Nat :=
  (s.fw.domain.find? fun e => e.1 == owner && e.2.1 == s.fw.deviceId).map fun e => e.2.2

/-- An inbound access fails: it is logged and answered so (14 R361). -/
def State.abortIn (s : State) : State :=
  s.modFw fun f => { f with drops := f.drops + 1, bar2Data := [], bar2Poison := false, bar2Abort := true }

/-- A peer's request that waits for a page. -/
def State.waitsFor (s : State) (asid page : Nat) (r : Request) : Bool :=
  let meets := fun (owner va n : Nat) => s.asidHere owner == some asid && decide (va / 2 ^ 17 ≤ page) &&
    decide (page ≤ (va + n - 1) / 2 ^ 17)
  match r with
  | .peerLoad _ o va n => meets o va n
  | .peerStore _ _ o va w => meets o va w.data.length
  | .peerAtom _ _ o va n _ _ _ _ => meets o va n
  | _ => false

/-- Peers' requests that wait for a page that cannot be supplied are refused (11 R255). -/
def State.refusePeers (s : State) (asid page : Nat) : State :=
  let gone := s.heldIn.filter (s.waitsFor asid page)
  gone.foldl (fun s _ => s.abortIn) { s with heldIn := s.heldIn.filter fun r => !s.waitsFor asid page r }

/-- Firmware services the oldest entry of a core's fault queue. -/
def execFaultService (core : Nat) (supplied : Bool) (s : State) : Out :=
  .next (match (s.core core).faultQ with
  | [] => s
  | (asid, page) :: rest =>
    let s := s.modCore core fun c => { c with faultQ := rest }
    let ns := (s.teamsAt core fun _ => true).flatMap fun kv => kv.2.groups.map (·.2)
    let s := (ns.foldl (fun s n => s.serviceGroup n asid page supplied) s).tellEngines core asid page supplied
    let s := if supplied then s else s.forceRuns core asid page
    let s := if core = 0 then
        let s := s.modFw fun f => f.noteDenied asid page supplied
        if supplied then s else s.refusePeers asid page
      else s
    s.retryWaiting core)

/-! ### Tier migration (14 R351) -/

/-- Whether a line lies in n bytes from a physical address. -/
def lineIn (pa n line : Nat) : Bool := decide (pa ≤ 128 * line) && decide (128 * line < pa + n)

/-- Copy keys of a map that lie in n units from one place to another. -/
def copyKeys {α : Type} (m : Sp α) (from_ to_ n : Nat) : Sp α :=
  (Sp.slice m from_ n).foldl (fun acc kv => Sp.put acc (to_ + (kv.1 - from_)) kv.2) (Sp.cut m to_ n)

/-- Move them. -/
def moveKeys {α : Type} (m : Sp α) (from_ to_ n : Nat) : Sp α := Sp.cut (copyKeys m from_ to_ n) from_ n

/-- Commit overlay bytes held here for a core of a peer, on the lines that a test selects (08 R195); good data over a
whole line clears its poison. -/
def State.commitOver (s : State) (k : Nat) (sel : Nat → Bool) : State :=
  let all := Sp.get [] s.peerOver k
  let o := all.filter fun kv => sel (lineOf kv.1)
  let rest := all.filter fun kv => !sel (lineOf kv.1)
  let s := o.foldl (fun s kv => (s.recall (lineOf kv.1)).commitBytes kv.1 [kv.2]) s
  let s := (overLines o).foldl (fun s ln =>
    if (Sp.slice o (128 * ln) 128).length = 128 then { s with memBad := Sp.set false s.memBad ln false } else s) s
  { s with peerOver := if rest.isEmpty then Sp.del s.peerOver k else Sp.put s.peerOver k rest }

/-- Commit and merge what cores and peers hold of a page: a core with pending bytes there, also through a remote record
that names this device, takes an implicit boundary. -/
def State.quietPage (s : State) (pa n : Nat) : State :=
  let sel := lineIn pa n
  let s := s.cores.foldl (fun s kv =>
    let c := kv.1
    let s := s.mergeCore c fun u => sel (lineOf u.addr)
    let s := if (s.core c).overlay.any fun b => sel (lineOf b.1) then s.implicitBoundary c else s
    if (Sp.get [] (s.core c).remote s.fw.deviceId).any fun b => sel (lineOf b.1) then
      (s.commitPart c s.fw.deviceId sel).countImplicit c else s) s
  s.peerOver.foldl (fun s kv => s.commitOver kv.1 sel) s

/-- Entries of a table that are not zero: address and value. -/
def State.tableEntries (s : State) (table n : Nat) : List (Nat × Nat) :=
  (((Sp.slice s.mem table (8 * n)).map fun kv => kv.1 / 8 * 8).eraseDups).map fun a => (a, ofBytes (s.homeBytes a 8))

/-- A leaf below a table, apart from the one at an address, names a frame of a range. -/
def State.namesIn (s : State) (pa n skip : Nat) : Nat → Nat → Bool
  | 0, _ => false
  | level + 1, table => (s.tableEntries table (if level = 3 then 128 else 2048)).any fun e =>
      if field e.2 0 1 = 0 then false
      else if field e.2 1 1 = 0 then s.namesIn pa n skip level (field e.2 14 38 * 2 ^ 14)
      else
        let f := field e.2 17 35 * 2 ^ 17
        e.1 != skip && decide (f < pa + n) && decide (pa < f + 2 ^ leafBits level)

/-- A leaf of some ASID, apart from the one at an address, names a frame of a range (14 R343). -/
def State.named (s : State) (pa n skip : Nat) : Bool := s.fw.asids.any fun kv => s.namesIn pa n skip 4 kv.2.1

/-- Frames of a tier: 512 GB of HBM, 1,024 GB of LPDDR, 31,744 GB behind CXL (01 Table 1.2). -/
def tierFrames (tier : Nat) : Nat :=
  match tier with
  | 0 => 3906250
  | 1 => 7812500
  | _ => 242187500

/-- Frames in use that lie in a tier. -/
def State.tierUsed (s : State) (tier : Nat) : Nat :=
  (s.fw.frames.filter fun kv => Sp.get 0 s.fw.tierOf kv.1 == tier).length

/-- The page may move: neither pinned nor an SK page of a resident launch, no engine owns a line, no other leaf names
its frames, and the tier has frames that are free and that no leaf names. -/
def State.mayMovePage (s : State) (asid : Nat) (lf : Leaf) (pa n frame : Nat) (tier : Nat) : Bool :=
  lf.home != 1#2 && lf.home != 2#2 && !(lf.sk && s.launches.any fun kv => kv.2.isLive && kv.2.asid == asid) &&
    !s.owned.any (fun kv => lineIn pa n kv.1) && frame % n == 0 && decide (frame + n ≤ 2 ^ 52) && decide (tier < 3) &&
    decide (s.tierUsed tier + n / 2 ^ 17 ≤ tierFrames tier) &&
    (Sp.slice s.fw.frames (frame / 2 ^ 17) (n / 2 ^ 17)).isEmpty && !s.named pa n lf.entry && !s.named frame n (2 ^ 64)

/-- The frames of a moved page: the new ones are the owner's and stand under its key, the old ones are free. -/
def State.moveFrames (s : State) (owner pa n frame tier : Nat) : State :=
  (List.range (n / 2 ^ 17)).foldl (fun s k =>
    let new := frame / 2 ^ 17 + k
    let s := s.giveFrame (pa / 2 ^ 17 + k) 0
    { s.modFw fun f => { f with
        frames := Sp.set 0 f.frames new owner
        tierOf := Sp.set 0 (Sp.set 0 f.tierOf (pa / 2 ^ 17 + k) 0) new tier } with
      memKey := Sp.set 0 s.memKey new (s.keyOf owner) }) s

/-- One page fewer of a move that `FWCALL` TIER has queued. -/
def pageMoved (asid page : Nat) (l : List (Nat × Nat × Nat × Nat)) : List (Nat × Nat × Nat × Nat) :=
  l.filterMap fun m => if m.1 = asid ∧ m.2.1 = page then
      (if m.2.2.1 ≤ 1 then none else some (asid, page + 1, m.2.2.1 - 1, m.2.2.2))
    else some m

/-- Firmware moves a page to a frame of another tier: pending bytes are committed, the bytes copied, the
leaf rewritten, and the page leaves every TLB. No value changes. -/
def execTierMigration (asid va frame tier : Nat) (s : State) : Out :=
  .next (match s.walk asid va with
  | .leaf lf =>
    let n := 2 ^ leafBits lf.level
    let entry := lf.entryOf va
    let pa := lf.pa va / n * n
    let lf := { lf with entry := entry }
    if !s.mayMovePage asid lf pa n frame tier then s
    else
      let s := s.quietPage pa n
      let owner := ((Sp.get? s.fw.asids asid).getD (0, 0)).2
      let e := ofBytes (s.homeBytes entry 8)
      let low := e % 2 ^ 17 - field e 8 2 * 2 ^ 8 - field e 13 1 * 2 ^ 13 + tier * 2 ^ 8
      let e' := e / 2 ^ 52 * 2 ^ 52 + frame + low
      let s : State := { s with
        mem := copyKeys s.mem pa frame n
        garble := copyKeys s.garble (pa / 2 ^ 17) (frame / 2 ^ 17) (n / 2 ^ 17)
        memBad := moveKeys s.memBad (pa / 128) (frame / 128) (n / 128)
        cores := s.cores.map fun (kv : Nat × Core) =>
          (kv.1, { kv.2 with
            l1 := moveKeys kv.2.l1 (pa / 128) (frame / 128) (n / 128)
            icache := moveKeys kv.2.icache (pa / 128) (frame / 128) (n / 128) }) }
      let s := (s.moveFrames owner pa n frame tier).commitBytes entry (toBytes 8 e')
      let s := s.modFw fun f => { f with moves := pageMoved asid (va / 2 ^ 17) f.moves }
      s.dropTlb 0 asid (some (va / n * (n / 2 ^ 17), n / 2 ^ 17)) true
  | _ => s)

/-! ### Restoring (15 R382; 12 R307) -/

/-- Signals and credits held while the team was away are applied in the order they arrived (15 R382); a signal of this
device's own is outstanding until then (11 R262). -/
def State.applyHeld (s : State) (tn : Nat) : State :=
  let held := (s.team tn).held
  let s := s.modTeam tn fun t =>
    { held.foldl (fun t h => t.credit h.off h.count.toNat h.op h.engine) t with held := [] }
  held.foldl (fun s h => match h.op with
    | some k => if h.engine then s else s.endOp k
    | none => s) s

/-- A group begins again at its `IDEMB` with the restart record's state; every other register is zero. -/
def Group.fromRegion (g : Group) (r : Region) : Group :=
  { live := true, team := g.team, gid := g.gid, started := g.started, cls := g.cls, nv := g.nv, ns := g.ns,
    nb := g.nb, v := r.v, vBad := r.vBad, s := r.s, sBad := r.sBad, p := r.p, b := r.b, lc := r.lc, k := r.k,
    flg := r.flg, mode := r.mode, nbv := r.nbv, rets := r.rets, loops := r.loops,
    rlArrived := g.rlArrived, rlOrder := g.rlOrder,
    gone := g.gone &&& ~~~r.mask, barAt := g.barAt, viaTrap := g.viaTrap, firstCause := g.firstCause,
    frontier := [⟨r.pc, r.prio, r.mask, false, 0⟩] }

/-- Lanes that were in the fault queue resume by retry. -/
def State.retryAll (s : State) (n : Nat) : State :=
  let rs := (s.grp n).recov
  if rs.isEmpty then s
  else
    let s := s.modGrp n fun g => { g with recov := [] }
    (rs.foldl (fun s r => s.retryLanes n r) s).settle n

/-- A team stands on a core again, after a phase boundary there; one that had not started waits for its START. -/
def State.standOn (s : State) (tn core : Nat) (lent : Option (Nat × List Nat)) : State :=
  let t := s.team tn
  let drop := t.life == .discarded
  let s := s.boundary core
  let s := s.modLaunch t.launch fun x => { x with started := Sp.put x.started core true }
  let s := s.modTeam tn fun t =>
    { t with
      life := if s.launchBegun (s.launch t.launch) then .resident else .placed
      core := core, lent := lent, leftHot := none, placedAt := s.time
      faultArea := if drop then [] else t.faultArea }
  let s := s.applyHeld tn
  let s := if t.run.isSome then s.modCore core fun c => { c with rlHolder := some tn } else s
  let s := if drop then t.groups.foldl (fun s kv => s.modGrp kv.2 fun g =>
      match g.live, g.region with
      | true, some r => g.fromRegion r
      | _, _ => g) s else s
  let s := s.trace tn 0xFF 3 0
  let s := t.groups.foldl (fun s kv => s.retryAll kv.2) s
  let s := t.groups.foldl (fun s kv => s.settleChunks kv.2) s
  s.wakeTeam tn

/-- The team of a number within the cluster's rectangle. -/
def State.placesFrom (s : State) (team core : Nat) : List (Nat × Nat) :=
  let t := s.team team
  let corner := core - t.clx - 16 * t.cly
  (s.clusterOf team).filterMap fun k =>
    let u := s.team k
    if u.life = .saved ∨ u.life = .discarded then some (k, corner + u.clx + 16 * u.cly) else none

/-- A core is cooler than the one that a thermal migration took a team from (12 R294). -/
def State.coolEnough (s : State) (t : Team) (core : Nat) : Bool := t.leftHot.all fun h => decide ((s.core core).temp < h)

/-- The cluster fits on a rectangle, on free slots or on lent ones: slots, reservations, no line of an engine that the
boundary would commit, a refinement controller where a team holds one, and no heat that it has left. -/
def State.clusterFits (s : State) (team core : Nat) (lent : Option (Nat × List Nat)) : Bool :=
  let t := s.team team
  let x := s.launch t.launch
  let corner := core - t.clx - 16 * t.cly
  s.holdsPart x && decide (t.clx + 16 * t.cly ≤ core) && rectOk (s.part x.part) x.r corner &&
    (s.placesFrom team core).all fun p =>
      s.roomFor p.2 (s.teamUse (s.team p.1)) lent && (s.boundaryHeld p.2).isEmpty &&
        s.coolEnough (s.team p.1) p.2 && ((s.team p.1).run.isNone || (s.core p.2).rlHolder.isNone)

/-- Slots on which a team may stand: free ones, or those that a stream of its partition lends (13 R317). -/
def State.slotsFor (s : State) (team : Nat) : List (Option (Nat × List Nat)) :=
  none :: (s.lenders (s.launch (s.team team).launch)).map some

/-- What the cluster may stand on at a place. -/
def State.restoreSlots (s : State) (team core : Nat) : Option (Option (Nat × List Nat)) :=
  (s.slotsFor team).find? fun lent => s.clusterFits team core lent

/-- The cluster of a team is created again, at one time, on cores of its partition. -/
def State.restoreCluster (s : State) (team core : Nat) : State :=
  match s.restoreSlots team core, (s.launch (s.team team).launch).isLive with
  | some lent, true => (s.placesFrom team core).foldl (fun s p => s.standOn p.1 p.2 lent) s
  | _, _ => s

/-- A saved team is created again with its cluster. -/
def execTeamRestore (team core : Nat) (s : State) : Out :=
  .next (if (s.team team).life == .saved then s.restoreCluster team core else s)

/-- A discarded team starts again with its cluster: each group at its `IDEMB`. -/
def execTeamDiscardRestart (team core : Nat) (s : State) : Out :=
  .next (if (s.team team).life == .discarded then s.restoreCluster team core else s)

/-! ### The noise source (05 R132) -/

/-- The health tests have failed for 100 µs: `RAND` on the core faults from now on, and firmware is notified. -/
def execRngHealthFailure (core : Nat) (s : State) : Out :=
  .next ((s.modCore core fun c => { c with noise := 0, noiseFailed := true }).modFw fun f =>
    { f with noiseLost := if f.noiseLost.contains core then f.noiseLost else f.noiseLost ++ [core] })

/-- The conditioner delivers 1,024 bits; it holds what two deliveries give, the most one `RAND` takes (log
entry 7). -/
def execRandBitsReady (core : Nat) (s : State) : Out :=
  .next (s.modCore core fun c => if c.noiseFailed then c else { c with noise := min 2048 (c.noise + 1024) })

/-! ### Errors and poison (15 R388 to R390) -/

/-- A corrected error is counted by the structure that found it. -/
def execEccCorrected (unit : Nat) (s : State) : Out :=
  .next (s.modFw fun f => { f with ecc := Sp.put f.ecc unit (Sp.get 0 f.ecc unit + 1) })

/-- An uncorrectable error poisons a line wherever a copy of it stands. -/
def State.poisonAll (s : State) (line : Nat) : State :=
  let s := s.poisonLine line
  { s with cores := s.cores.map fun (kv : Nat × Core) =>
      match Sp.get? kv.2.l1 line with
      | some x => (kv.1, { kv.2 with l1 := Sp.put kv.2.l1 line { x with bad := true } })
      | none => kv }

/-- An uncorrectable error poisons a line, a sector, or one lane of one register. -/
def execEccUncorrectable (hit : PoisonAt) (s : State) : Out :=
  .next (match hit with
  | .line l => s.poisonAll l
  | .sector tn k =>
    if 32 * k < (s.team tn).ssize then s.modTeam tn fun t => { t with scrBad := Sp.set false t.scrBad k true }
    else s
  | .strip id part k => s.modStream id fun st =>
      match part with
      | .source => { st with srcBad := Sp.set false st.srcBad k true }
      | .output => { st with outBad := Sp.set false st.outBad k true }
      | .halo => { st with haloBad := Sp.set false st.haloBad k true }
  | .vreg n r l => s.modGrp n fun g => if r < g.nv ∧ l < 32 then g.markV r l else g
  | .sreg n r => s.modGrp n fun g => if r < g.ns then g.markS r else g)

/-- A poison indication, an error or the loss of a CXL expander poisons the line it concerns. -/
def execCxlPoison (line : Nat) (s : State) : Out := .next (s.poisonAll line)

/-! ### I/O-window completions (08 R197) -/

/-- Write one register of a completion. -/
def Group.landIo (g : Group) (code lane v : Nat) : Group :=
  let w := BitVec.ofNat 32 v
  if code < 0xC0 then g.setV code lane w else g.setS (code - 0xC0) w

/-- Poison that a completion delivers; in replay an entry of other lanes' loads is left to them. -/
def State.deliverIo (s : State) (r : IoRead) (bad : Bool) : LoggedMarks :=
  let code := (r.regs.headD (0, 0)).1
  let m := r.regs.length
  let mine := match s.nextEntry r.group with
    | some e => (Mark.read e.payload).mask &&& r.mask != 0#32
    | none => false
  if !bad && !mine then .use [] s
  else s.deliverMarks r.group r.pc m (if bad then [⟨r.mask, code, m⟩] else [])

/-- An I/O-window load ends: its destination is written, poisoned where it failed, and its interlock
released. -/
def State.endIo (s : State) (id : Nat) (bad : Bool) (data : List Byte) : State :=
  match Sp.get? s.ioReads id with
  | none => s
  | some r =>
    let s : State := { s with ioReads := Sp.del s.ioReads id }
    match s.deliverIo r bad with
    | .ended s => s.modGrp r.group fun g => g.unlock fun k => k.kind == .io id
    | .use ms s =>
      let v := extendLoad r.code.toNat (data.take r.size)
      (s.modGrp r.group fun g =>
        let g := ((List.range r.regs.length).zip r.regs).foldl (fun g (q : Nat × Nat × Nat) =>
          g.landIo q.2.1 q.2.2 (v / 2 ^ (32 * q.1))) g
        let g := ms.foldl (fun (g : Group) (q : Mark) => g.markCodes q.code q.count q.mask) g
        g.unlock fun k => k.kind == .io id).settleChunks r.group

/-- The completion of an I/O-window load returns: good, or poisoned or failed. -/
def execIoLoadCompletion (read : Nat) (good : Bool) (data : List Byte) (s : State) : Out :=
  .next (s.endIo read (!good) data)

/-- No completion came within the endpoint's timeout. -/
def execIoCompletionTimeout (read : Nat) (s : State) : Out := .next (s.endIo read true [])

end Sys2Proof.Machine
end

