-- ==== Sys2Proof/Machine/Outside.lean ====
section
/-! DEFINITION. What comes in from outside: peers (08 R195; 11 R254 to R256), the BAR 2 window (08 R196, 14
R361), and the order in which requests that had to wait go on. -/

namespace Sys2Proof.Machine

open Sys2Proof

/-! ### Requests that wait -/

/-- Who made an inbound request, and whether it is a posted write. -/
def requester : Request → Nat × Nat × Bool
  | .bar2Read fn _ _ => (0, fn, false)
  | .bar2Write fn _ _ => (0, fn, true)
  | .peerLoad p _ _ _ => (1, p, false)
  | .peerStore p _ _ _ _ => (1, p, true)
  | .peerCommit p _ => (1, p, true)
  | .peerAtom p _ _ _ _ _ _ _ _ => (1, p, false)
  | .signal port team _ _ => (2, port * 2 ^ 32 + team, true)

/-- An earlier request of the same requester keeps a later one back: a write waits behind writes, a read
behind everything (08 R196). -/
def keepsBack (earlier later : Request) : Bool :=
  let a := requester earlier
  let b := requester later
  a.1 == b.1 && a.2.1 == b.2.1 && (a.2.2 || !b.2.2)

/-- A new request must wait its turn. -/
def State.mustQueue (s : State) (i : Request) : Bool := !s.retrying && s.heldIn.any fun e => keepsBack e i

/-! ### One inbound access -/

/-- How an inbound access of one line goes. -/
inductive Inbound where
  | ok (pa : Nat) (s : State)
  | held
  | absent (page : Nat) (s : State)
  | refused (s : State)

/-- Translate a virtual address for an inbound access, on the firmware core; `waits` says that an engine's line
holds the access up (08 R191, R196). -/
def State.inboundAt (s : State) (asid va : Nat) (a : Access) (waits : Bool) : Inbound :=
  match s.translate 0 asid va a with
  | (.error f, s) => if f.page.isSome then .absent (va / 2 ^ 17) s else .refused s
  | (.ok (pa, _), s) => if waits && s.isOwned (lineOf pa) then .held else .ok pa s

/-- Physical addresses of the pieces of an access, one for each line. -/
def inboundAll (asid : Nat) (a : Access) (waits : Bool) : List (Nat × Nat) → State → Except Inbound (List (Nat × Nat) × State)
  | [], s => .ok ([], s)
  | (va, n) :: r, s =>
    match s.inboundAt asid va a waits with
    | .ok pa s =>
      match inboundAll asid a waits r s with
      | .ok (l, s) => .ok ((pa, n) :: l, s)
      | .error e => .error e
    | e => .error e

/-- An inbound access is answered with data. -/
def State.answerIn (s : State) (bs : List Byte) (bad : Bool) : State :=
  s.modFw fun f => { f with bar2Data := bs, bar2Poison := bad, bar2Abort := false }

/-- Read committed bytes at home, update-only lines recalled (08 R188, R196). -/
def State.readHome (s : State) (ps : List (Nat × Nat)) : State :=
  let s := ps.foldl (fun s p => (s.recall (lineOf p.1)).countHome (lineOf p.1)) s
  s.answerIn (ps.flatMap fun p => s.homeBytes p.1 p.2) (ps.any fun p => s.linePoison (lineOf p.1))

/-- Write bytes at home, visible to all at once (08 R196). -/
def State.writeHome (s : State) : List (Nat × Nat) → List Byte → State
  | [], _ => s
  | (pa, n) :: r, bs => (((s.recall (lineOf pa)).countHome (lineOf pa)).commitBytes pa (bs.take n)).writeHome r (bs.drop n)

/-! ### BAR 2 (14 R361) -/

/-- The pieces of an access of the window: offset o is VA o in the ASID chosen for the function. -/
def State.windowAt (s : State) (fn off n : Nat) : Option (Nat × List (Nat × Nat)) :=
  match Sp.get? s.fw.bar2 fn with
  | some asid => if off + n ≤ 2 ^ 39 then some (asid, pieces off n) else none
  | none => none

/-- An inbound read of BAR 2 of one of the 64 functions (14 R360). -/
def execBar2Read (fn off size : Nat) (s : State) : Out :=
  .next (if 64 ≤ fn then s
  else if s.mustQueue (.bar2Read fn off size) then s.holdIn (.bar2Read fn off size)
  else match s.windowAt fn off size with
    | none => s.abortIn
    | some (asid, ps) =>
      match inboundAll asid .load true ps s with
      | .ok (l, s) => s.readHome l
      | .error .held => s.holdIn (.bar2Read fn off size)
      | .error _ => s.abortIn)

/-- An inbound write of BAR 2; one that fails is dropped. -/
def execBar2Write (fn off : Nat) (data : List Byte) (s : State) : Out :=
  .next (if 64 ≤ fn then s
  else if s.mustQueue (.bar2Write fn off data) then s.holdIn (.bar2Write fn off data)
  else match s.windowAt fn off data.length with
    | none => s.abortIn
    | some (asid, ps) =>
      match inboundAll asid .store true ps s with
      | .ok (l, s) => s.writeHome l data
      | .error .held => s.holdIn (.bar2Write fn off data)
      | .error _ => s.abortIn)

/-! ### Peers (08 R195; 11 R255) -/

/-- A peer's access: translated here under the ASID of the domain map; a page that is not present is serviced
here, and the access waits (11 R255). -/
def State.peerAccess (s : State) (i : Request) (owner va n : Nat) (a : Access)
    (k : List (Nat × Nat) → State → State) : State :=
  if s.mustQueue i then s.holdIn i
  else match s.asidHere owner with
    | none => s.abortIn
    | some asid =>
      match inboundAll asid a (a != .store) (pieces va n) s with
      | .ok (l, s) => k l (s.linkUse (requester i).2.1 n)
      | .error .held => s.holdIn i
      | .error (.absent page s) => (s.modCore 0 fun c => c.queuePage asid page).holdIn i
      | .error _ => s.abortIn

/-- A peer's load returns the value committed here. -/
def execPeerLoad (peer owner va size : Nat) (s : State) : Out :=
  .next (s.peerAccess (.peerLoad peer owner va size) owner va size .load fun l s => s.readHome l)

/-- Key of the overlays that this device holds for a core of a peer. -/
def overKey (peer core : Nat) : Nat := 4096 * peer + core

/-- Bytes of an access, by physical address. -/
def spreadOver (m : Sp Byte) : List (Nat × Nat) → List Byte → Sp Byte
  | [], _ => m
  | (pa, n) :: r, bs =>
    spreadOver (((List.range n).zip (bs.take n)).foldl (fun m p => Sp.put m (pa + p.1) p.2) m) r (bs.drop n)

/-- A peer's remote put takes its lines here: the pending bytes of the issuing core that it will overwrite are
discarded, and the engine owns the lines until it lands (08 R191, R192; 11 R259). -/
def State.takePut (s : State) (k : Nat) (l : List (Nat × Nat)) (data : List Byte) : State :=
  let bytes := spreadOver [] l data
  let ls := overLines bytes
  let rest := (Sp.get [] s.peerOver k).filter fun kv => !Sp.has bytes kv.1
  { s with
    peerOver := if rest.isEmpty then Sp.del s.peerOver k else Sp.put s.peerOver k rest
    ops := Sp.put s.ops s.serial { kind := .inPut bytes, lines := ls, at_ := s.time }
    owned := ls.foldl (fun m ln => if Sp.has m ln then m else Sp.put m ln s.serial) s.owned
    serial := s.serial + 1 }

/-- A peer's store is held here as a pending overlay of the issuing core. An engine's line takes it too: it
is committed after the release (08 R191). With `put` it is the bytes of a remote put. -/
def execPeerStore (peer core owner va : Nat) (write : PeerWrite) (s : State) : Out :=
  let i : Request := .peerStore peer core owner va write
  let k := overKey peer core
  .next (s.peerAccess i owner va write.data.length .store fun l s =>
    if write.put then s.takePut k l write.data
    else { s with peerOver := Sp.put s.peerOver k (spreadOver (Sp.get [] s.peerOver k) l write.data) })

/-- A peer commits a core's overlays here: a fence of scope domain, the end of a launch, or an implicit
remote commit. -/
def execPeerRemoteCommit (peer core : Nat) (s : State) : Out :=
  let i : Request := .peerCommit peer core
  .next (if s.mustQueue i || (Sp.get [] s.peerOver (overKey peer core)).any fun kv => s.isOwned (lineOf kv.1) then
    s.holdIn i
  else s.commitOver (overKey peer core) fun _ => true)

/-- A peer's `ATOM`: indivisible at this home, the core's own overlay on the line committed first; a poisoned line keeps
its bytes (09 R215). -/
def execPeerAtom (peer core owner va size : Nat) (op : BitVec 3) (ty : Ty) (arg swap : BitVec 64) (s : State) : Out :=
  let i : Request := .peerAtom peer core owner va size op ty arg swap
  .next (s.peerAccess i owner va size .atomic fun l s =>
    match l with
    | [(pa, n)] =>
      let line := lineOf pa
      let s := ((s.commitOver (overKey peer core) (· == line)).recall line).countHome line
      let old := s.homeBytes pa n
      let bad := s.linePoison line
      let t := s.answerIn old bad
      if bad then t else t.commitBytes pa (toBytes n (atomNew op ty (ofBytes old) arg.toNat swap.toNat))
    | _ => s.abortIn)

/-! ### Links (11 R256; 14 R354) -/

/-- Both ends of a link bring the coding table back to its initial state. -/
def Firmware.resetCoding (f : Firmware) (port : Nat) : Firmware :=
  { f with coding := Sp.put f.coding port true, codingFill := Sp.put f.codingFill port 0,
           codingStep := Sp.put f.codingStep port 0 }

def Firmware.setLinkKey (f : Firmware) (port : Nat) (key : BitVec 256) : Firmware :=
  { f with linkKeys := Sp.put f.linkKeys port key }

/-- A port trains: firmware agrees its key, the coding table starts from its initial state, and flits may
flow. A part has 18 ports (01 Table 1.1). -/
def execLinkTraining (port : Nat) (key : BitVec 256) (s : State) : Out :=
  .next (if 18 ≤ port then s
  else s.modFw fun f => (f.resetCoding port).setLinkKey port key)

/-- A flit that is in error, or that fails authentication (14 R354), is retried, and both ends bring the coding table back to its initial state. -/
def execLinkFlitError (port : Nat) (s : State) : Out :=
  .next (if !Sp.has s.fw.linkKeys port then s
  else s.modFw fun f =>
    { f.resetCoding port with flits := Sp.put f.flits port (Sp.get 0 f.flits port + 1) })

/-- Signals on their way to a peer that is gone are reported with cause 0x02 (11 R255). -/
def State.loseSignals (s : State) (peer : Nat) : State :=
  s.ops.foldl (fun s kv =>
    match kv.2.kind with
    | .rsig p _ _ _ _ =>
      if p ≠ peer then s
      else
        let o := kv.2
        let f : AsyncFail := ⟨o.group, o.team, o.launch, o.gid, o.op, 0x02#8⟩
        ({ s with fails := s.fails ++ [f] }).endOp kv.1
    | _ => s) s

/-- A peer becomes unreachable: bytes of remote copies not yet released fail with cause 0x02 as their
engines meet them (11 R260), collectives that it takes part in are lost (11 R270), and signals fail. -/
def execPeerUnreachable (peer : Nat) (s : State) : Out :=
  .next (if peer = s.fw.deviceId ∨ s.fw.lost.contains peer then s
  else
    let s := s.modFw fun f => { f with lost := f.lost ++ [peer] }
    let s := s.ops.foldl (fun s kv => s.modColl kv.1 fun c =>
      if c.roster.contains peer then { c with lost := true } else c) s
    s.loseSignals peer)

/-! ### Requests that can go on -/

/-- What a held request does when its turn comes. -/
def heldMeaning (i : Request) (s : State) : Out :=
  match i with
  | .bar2Read fn off n => execBar2Read fn off n s
  | .bar2Write fn off d => execBar2Write fn off d s
  | .peerLoad p o va n => execPeerLoad p o va n s
  | .peerStore p c o va w => execPeerStore p c o va w s
  | .peerCommit p c => execPeerRemoteCommit p c s
  | .peerAtom p c o va n op ty a w => execPeerAtom p c o va n op ty a w s
  | .signal port team off count => execRsigArrival none port team off count s

/-- Held requests whose turn it is, each with the requests before and after it. -/
def turns : List Request → List Request → List (Request × List Request)
  | _, [] => []
  | done, i :: r =>
    (if done.any fun e => keepsBack e i then [] else [(i, done ++ r)]) ++ turns (done ++ [i]) r

/-- Perform the first held request that can be performed now. -/
def State.runHeld (s : State) : Option State :=
  (turns [] s.heldIn).findSome? fun p =>
    match heldMeaning p.1 { s with heldIn := p.2, retrying := true } with
    | .next u => if u.heldIn.length < s.heldIn.length then some { u with retrying := false } else none
    | _ => none

end Sys2Proof.Machine
end

