-- ==== Sys2Proof/Machine/Mailbox.lean ====
section
/-! DEFINITION. The host mailbox (14 R359, R361, R362; 16 R394 to R398), configuration requests, boot and
hand-over of firmware (14 R364, R365). -/

namespace Sys2Proof.Machine

open Sys2Proof

/-! ### Answers (14 R361) -/

/-- A response to a function: the status of Table 14.4, then what the command returns. Its first 256 bytes stand in
the response area; what a debugging command returns beyond them stands apart (log entry 60). -/
def State.reply (s : State) (fn status : Nat) (data : List Byte) : State :=
  let bs := toBytes 4 status ++ data
  s.modFw fun f => { f with
    mailbox := Sp.put f.mailbox fn (areaBytes bs)
    served := Sp.put f.served fn (bs.drop 256) }

/-- A command of one of the 64 functions (14 R360) is served while firmware runs, for a function that is bound to an
owner. -/
def State.serve (s : State) (fn : Nat) (k : Nat → State) : Out :=
  .next (if s.fw.life != .running ∨ 64 ≤ fn then s
  else match Sp.get? s.fw.fnOwner fn with
    | some owner => k owner
    | none => s.reply fn 2 [])

/-- A service that reads memory for the driver: status 4 and nothing done where a read must wait for a page, which
firmware then services, or for an engine. -/
def State.replyOf (s : State) (fn : Nat) (f : State → Nat × State) : State :=
  let r := f { s with devWait := none }
  match r.2.devWait with
  | none => r.2.reply fn r.1 []
  | some w => (s.queueDevice w).reply fn 4 []

/-! ### Driver services (14 R361, R362) -/

/-- Configure a queue of the function. -/
def execMbxQueueConfig (fn queue : Nat) (desc : QueueDesc) (s : State) : Out :=
  s.serve fn fun owner => s.replyOf fn fun s => s.configQueue fn queue owner desc

/-- ASIDs that a new owner may hold (14 R342, R344): 1 to 4,096, none of them live already, at most 4,096 live on the
device, each with a root table of 1 KiB in the owner's frames. -/
def State.asidsFit (s : State) (asids : List (Nat × Nat)) (frames : List Nat) : Bool :=
  !asids.isEmpty && decide (s.fw.asids.length + asids.length ≤ 4096) &&
    (asids.map (·.1)).eraseDups.length == asids.length &&
    asids.all fun a => decide (a.1 < 2 ^ 16) && !Sp.has s.fw.asids a.1 && a.2 % 1024 == 0 &&
      frames.contains (a.2 / 2 ^ 17)

/-- Frames that may become a new owner's (14 R343): free ones of HBM that no leaf names, as many as it has. -/
def State.framesFit (s : State) (frames : List Nat) : Bool :=
  frames.eraseDups.length == frames.length && decide (s.tierUsed 0 + frames.length ≤ tierFrames 0) &&
    frames.all fun f => decide (f < 2 ^ 35) && Sp.get 0 s.fw.frames f == 0 && !s.named (f * 2 ^ 17) (2 ^ 17) (2 ^ 64)

/-- Create an owner with its ASIDs, its memory key and its frames (log entry 85); a function that is bound to none is
bound to it (14 R342, R343, R352, R360). -/
def execMbxOwnerCreate (fn : Nat) (load : OwnerLoad) (s : State) : Out :=
  let owner := load.owner
  .next (if s.fw.life != .running ∨ 64 ≤ fn then s
  else if owner = 0 ∨ 1023 < owner ∨ s.fw.owners.contains owner ∨ !s.asidsFit load.asids load.frames ∨
      !s.framesFit load.frames then
    s.reply fn 2 []
  else
    let s := s.modFw fun f => { f with
      owners := f.owners ++ [owner]
      asids := load.asids.foldl (fun m a => Sp.put m a.1 (a.2, owner)) f.asids
      fnOwner := if Sp.has f.fnOwner fn then f.fnOwner else Sp.put f.fnOwner fn owner }
    (load.frames.foldl (fun s f => s.giveFrame f owner) (s.makeKey owner)).reply fn 0 [])

/-- Mark a queue of the function as administrative. -/
def execMbxAdminMark (fn queue : Nat) (s : State) : Out :=
  s.serve fn fun _ =>
    match s.queueAt fn queue with
    | none => s.reply fn 2 []
    | some k => (s.modQueue k fun q => { q with admin := true }).reply fn 0 []

/-- Grant a range of I/O-window addresses to a partition: at most 64. -/
def execMbxIoWindowGrant (fn part base size : Nat) (s : State) : Out :=
  s.serve fn fun owner =>
    if !s.partOwned part owner ∨ size = 0 ∨ 2 ^ 64 < base + size then s.reply fn 2 []
    else if 64 ≤ (s.part part).ioRanges.length then s.reply fn 3 []
    else (s.modPart part fun p => { p with ioRanges := p.ioRanges ++ [(base, size)] }).reply fn 0 []

/-- Choose the ASID of the function's BAR 2 window. -/
def execMbxBar2Asid (fn asid : Nat) (s : State) : Out :=
  s.serve fn fun owner =>
    if !s.asidOwned asid owner then s.reply fn 2 []
    else (s.modFw fun f => { f with bar2 := Sp.put f.bar2 fn asid }).reply fn 0 []

/-- The partition that a driver's services act for: its owner's lowest (log entry 87). -/
def State.partFor (s : State) (owner : Nat) : Option Nat := (List.range 16).find? fun k => s.partOwned k owner

/-- The record through which a driver's services reach memory: the BAR 2 window of its function (log entry 87). -/
def windowView : RecView := { linkView 0 0x7FF with extentX := 2 ^ 39 }

/-- PIN for a driver: it is done once no engine owns a line of the page. -/
def State.drivePin (s : State) (asid : Nat) (a : List Nat) : Nat × State :=
  let r := s.pinPage 0 asid (argPair a 0) (a.getD 2 0) (a.getD 3 0)
  if r.1 = 0 ∧ !(s.pinWaits 0 asid (argPair a 0)).isEmpty then (4, s) else r

/-- QUEUE for a driver: the descriptor stands in the window. -/
def State.driveQueue (s : State) (fn owner asid : Nat) (a : List Nat) : Nat × State :=
  match s.deviceRead asid (a.getD 1 0) 64 with
  | (none, s) => (2, s)
  | (some bs, s) => s.configQueue fn (a.getD 0 0) owner (queueDescOf bs)

/-- A firmware service of Table 14.5 that a driver calls: its memory is that of its function's BAR 2 window. -/
def execMbxFwService (fn service : Nat) (args : List Word) (s : State) : Out :=
  s.serve fn fun owner =>
    let a := args.map (·.toNat)
    let few := fun (n : Nat) => decide (args.length < n)
    match service, Sp.get? s.fw.bar2 fn with
    | 1, _ =>
      match few 1, a.getD 0 0 with
      | true, _ => s.reply fn 2 []
      | false, 0 => s.reply fn 0 (toBytes 4 s.fw.deviceId)
      | false, 1 => s.reply fn 0 (toBytes 4 (field s.fw.version.toNat 0 32))
      | false, 2 => s.reply fn 0 (toBytes 4 (field s.fw.version.toNat 32 32))
      | false, 3 => s.reply fn 0 (toBytes 4 owner)
      | false, _ => s.reply fn 2 []
    | 2, some k => if few 4 then s.reply fn 2 [] else s.replyOf fn fun s => s.drivePin k a
    | 3, some k =>
      if few 4 then s.reply fn 2 []
      else s.replyOf fn fun s => s.queueMove k (argPair a 0) (a.getD 2 0) (a.getD 3 0)
    | 4, _ => s.reply fn (if !few 1 && s.inDomain owner (a.getD 0 0) then 0 else 2) []
    | 5, some k =>
      match few 3 || a.getD 0 0 != 0, s.partFor owner with
      | false, some p => s.replyOf fn fun s => s.attest p k windowView (a.getD 1 0) (a.getD 2 0)
      | _, _ => s.reply fn 2 []
    | 6, some k => if few 2 then s.reply fn 2 [] else s.replyOf fn fun s => s.driveQueue fn owner k a
    | n, _ => s.reply fn (if 1 ≤ n ∧ n ≤ 6 then 2 else 1) []

/-! ### Debugging (15 R374; 16 R394, R396, R398) -/

/-- Give a partition its trace ring: 4 KiB-aligned, 64 KiB to 1 GB of the owner's memory; a GB is 10^9 bytes (00
R4). -/
def execMbxTraceRing (fn part base size : Nat) (s : State) : Out :=
  s.serve fn fun owner =>
    match Sp.get? s.fw.bar2 fn with
    | none => s.reply fn 2 []
    | some asid =>
      if !s.partOwned part owner ∨ base % 4096 ≠ 0 ∨ size < 2 ^ 16 ∨ 10 ^ 9 < size ∨
          !(List.range ((base + size + 2 ^ 17 - 1) / 2 ^ 17 - base / 2 ^ 17)).all (fun k =>
            (s.devicePa asid (max base ((base / 2 ^ 17 + k) * 2 ^ 17)) true).isSome) then s.reply fn 2 []
      else (s.modPart part fun p =>
        { p with traceBase := base, traceSize := size, traceCount := 0, traceLost := 0, traceAsid := asid }).reply fn 0 []

/-- A team that a function's debugger may name: it is its owner's, and not of a timed stream outside debug
timing (13 R318; 16 R396). -/
def State.mayDebug (s : State) (owner team : Nat) : Bool :=
  let t := s.team team
  (s.launch t.launch).owner == owner && t.life != .none && (t.life != .ended || t.halted) && s.haltable team

/-- A debugger stops a team: it halts at instruction boundaries. -/
def execMbxStopTeam (fn team : Nat) (s : State) : Out :=
  s.serve fn fun owner =>
    if !s.mayDebug owner team then s.reply fn 2 []
    else ((s.haltTeam team).modPart (s.launch (s.team team).launch).part fun p => { p with debugger := true }).reply fn 0 []

/-- Groups of a team take the cause of a strip miss that came while it was halted (16 R397). -/
def State.takeMiss (s : State) (team : Nat) : State :=
  match (s.team team).owesMiss with
  | none => s
  | some aux =>
    (s.team team).groups.foldl (fun s kv => s.strike kv.2 0x11#8 aux true)
      (s.modTeam team fun t => { t with owesMiss := none })

/-- A debugger resumes a team that it has stopped. -/
def execMbxResumeTeam (fn team : Nat) (s : State) : Out :=
  s.serve fn fun owner =>
    if !s.mayDebug owner team ∨ !(s.team team).halted then s.reply fn 2 []
    else
      let s := (s.resumeTeam team).takeMiss team
      let s := (s.team team).groups.foldl (fun s kv => s.settle kv.2) s
      s.reply fn 0 []

/-- The records of an owner in the error log, oldest first (15 R374). -/
def Firmware.errors (f : Firmware) (owner : Nat) : List Byte :=
  (f.errLog.filter fun e => e.owner == owner).flatMap fun e => e.frec.bytes

/-- A debugger reads or writes a halted team: a group's image (15 Table 15.6), the scratchpad, a step bit. Of any team
it turns breakpoint halting on and off (15 R377), and at any time it reads the owner's error log. -/
def execMbxDebugAccess (fn team : Nat) (op : DebugOp) (s : State) : Out :=
  s.serve fn fun owner =>
    let t := s.team team
    let halted := fun (k : State) => if !s.mayDebug owner team ∨ !t.halted then s.reply fn 2 [] else k
    let group := fun (g : Nat) (k : Nat → State) => halted (match Sp.get? t.groups g with
      | some n => k n
      | none => s.reply fn 2 [])
    match op with
      | .readImage g => group g fun n => s.reply fn 0 (s.grp n).image
      | .writeImage g bs => group g fun n =>
        if bs.length = (s.grp n).imageSize ∧ imageOk (s.grp n) bs then
          (s.modGrp n fun x => x.loadImage bs fun _ => false).reply fn 0 []
        else s.reply fn 2 []
      | .readScratch off n => halted
        (if t.ssize < off + n then s.reply fn 2 [] else s.reply fn 0 (t.scrBytes off n))
      | .writeScratch off bs => halted
        (if t.ssize < off + bs.length then s.reply fn 2 []
        else (s.modTeam team fun t => t.scrWrite off bs false).reply fn 0 [])
      | .setStep g on => group g fun n => (s.modGrp n fun x => { x with step := on }).reply fn 0 []
      | .getStep g => group g fun n => s.reply fn 0 (toBytes 4 (if (s.grp n).step then 1 else 0))
      | .setBkpt on =>
        if !s.mayDebug owner team then s.reply fn 2 []
        else (s.modTeam team fun t => { t with bkptHalt := on }).reply fn 0 []
      | .readErrors => s.reply fn 0 (s.fw.errors owner)

/-- Counters of one scheduler since its partition's histogram was cleared: cycles in which it stood empty
count as H0 and EMPTY (16 R398). -/
def State.histBytes (s : State) (from_ k : Nat) : List Byte :=
  let x := s.sched k
  let seen := x.hist.foldl (fun n kv => n + kv.2) 0
  let idle := s.cycle - from_ - seen
  let h := fun (n : Nat) => Sp.get 0 x.hist n + (if n = 0 then idle else 0)
  let r := fun (n : Nat) => Sp.get 0 x.stalls n + (if n = 0 then idle else 0)
  ((List.range 17).flatMap fun n => toBytes 8 (h n)) ++ (List.range 16).flatMap fun n => toBytes 8 (r n)

/-- Read the histograms of a partition's schedulers. -/
def execMbxReadHistogram (fn part : Nat) (s : State) : Out :=
  s.serve fn fun owner =>
    if !s.partOwned part owner then s.reply fn 2 []
    else
      let p := s.part part
      let cores := (List.range 256).filter fun c => rectOk p { cx := 1, cy := 1 } c
      s.reply fn 0 (cores.flatMap fun c => (List.range 4).flatMap fun k => s.histBytes p.histFrom (4 * c + k))

/-! ### Configuration requests, boot and hand-over (14 R364, R365) -/

/-- One second, in the units of `State.up`. -/
def retryLimit : Nat := 10 ^ 9 * 2 ^ 32

/-- A PCI Express configuration request: Request Retry Status until firmware runs, for at most 1 s after reset. -/
def execConfigRequest (fn : Nat) (s : State) : Out :=
  .next (if s.fw.life == .running ∨ 64 ≤ fn ∨ retryLimit ≤ s.up then s else s.modFw fun f => { f with retries := f.retries + 1 })

/-- An image passes: both signatures verify, and its security version is not below the fuses. -/
def State.imageGood (s : State) (i : FwImage) : Bool :=
  Config.imageVerifies i.version i.security i.bytes && decide (s.fw.fuse ≤ i.security)

/-- Start an image, or stay in recovery; M is the measurement of the image. The boot's attestation keys come from the
noise source and are certified by the identity keys (14 R366). -/
def State.boot (s : State) (i : FwImage) : State :=
  if s.imageGood i then
    let m := Config.sha384 (toBytes 48 0 ++ digestBytes (Config.sha384 i.bytes))
    let bits := (List.range 4).foldl (fun a k => a * 2 ^ 64 + (Config.noiseBits (s.free + k)).toNat) 0
    let key := BitVec.ofNat 256 bits
    let s : State := { s with free := s.free + 4 }
    s.modFw fun f => { f with
      life := .running, meas := m, version := i.version, attKey := key, cert := Config.certify f.identity key }
  else s.modFw fun f => { f with life := .recovery }

/-- Fundamental reset: the state after reset, fuses apart, and the boot ROM's checks of the image in flash. -/
def execFundamentalReset (image : FwImage) (s : State) : Out :=
  let fw : Firmware := { fuse := s.fw.fuse, serial := s.fw.serial, identity := s.fw.identity }
  let t : State := { fw := fw, free := s.free, choices := s.choices, agenda := s.agenda }
  .next (t.boot image)

/-- In recovery a signed image may come through the recovery mailbox of function 0. -/
def execRecoveryImage (fn : Nat) (image : FwImage) (s : State) : Out :=
  .next (if s.fw.life != .recovery || fn != 0 then s else s.boot image)

/-- An incoming image is verified, measured and staged; one that fails changes nothing. -/
def execFwHandoverStage (image : FwImage) (s : State) : Out :=
  .next (if s.fw.life == .running && s.imageGood image then
    s.modFw fun f => { f with staged := some (image.version, Config.sha384 image.bytes) }
  else s)

/-- No procession instance has a fault in service, of a group, an engine operation or a bulk read. -/
def State.instsQuiet (s : State) : Bool :=
  !s.groups.any (fun kv => !kv.2.recov.isEmpty && (s.launchOf kv.1).inst.isSome) &&
    !s.ops.any (fun kv => !kv.2.waits.isEmpty && (s.launch kv.2.launch).inst.isSome) &&
    !s.reads.any fun kv => !kv.2.waits.isEmpty && (s.launch (s.team kv.2.team).launch).inst.isSome

/-- The staged firmware takes over at one instant, and M is extended. -/
def execFwHandoverCommit (s : State) : Out :=
  .next (match s.fw.staged with
  | none => s
  | some (v, h) =>
    if !s.instsQuiet then s
    else s.modFw fun f =>
      { f with meas := Config.sha384 (digestBytes f.meas ++ digestBytes h), version := v, staged := none })

end Sys2Proof.Machine
end

