-- ==== Sys2Proof/Machine/Next.lean ====
section
/-! DEFINITION. What happens next: events that are due (12 R278 to R296; 13 R315 to R333; 15 R386), the issue
of the next instruction (12 R289; 03 R61), and completions whose time the spec leaves open. Which of several
such completions comes first is the order of this file unless the agenda says otherwise; log entry 5. -/

namespace Sys2Proof.Machine

open Sys2Proof

/-- The state an outcome answers. -/
def Out.next? : Out → Option State
  | .next s => some s
  | _ => none

/-- An event that is due. -/
def dueIf (go : Bool) (o : Out) : Option State := if go then o.next? else none

/-- An event whose meaning changes the state. -/
def changing (s : State) (o : Out) : Option State :=
  match o with
  | .next t => if t = s then none else some t
  | _ => none

/-- The first key of a map for which an event comes out. -/
def firstIn {α : Type} (m : Sp α) (f : Nat → α → Option State) : Option State :=
  m.findSome? fun kv => f kv.1 kv.2

/-! ### Events that are due -/

/-- What a stream's times make due (13 R309, R315, R317, R330). -/
def State.streamDue (s : State) (n : Nat) (st : Stream) : Option State :=
  let now : Int := s.time.toNat
  let g := st.sinkNext
  if !st.on || !s.locked then none
  else
    dueIf ((s.leads n).any fun p => (s.borrowersOf n p.1).any fun k => !(s.team k).stopping) (execBorrowerVacate n s)
      <|> dueIf ((s.leads n).any fun p => decide (p.2 - st.d.vc - 1000 ≤ now) && !(s.borrowersOf n p.1).isEmpty)
        (execBorrowerKill n s)
      <|> dueIf (st.d.isStrip && !st.closing && decide (st.startOf s.time st.nextG ≤ now)) (execStripRelease n s)
      <|> (match st.scanning with
        | some k => dueIf (decide (st.scanTime k st.d.h ≤ s.time.toNat)) (execDisplayScanEnd n s)
        | none => none)
      <|> dueIf (st.isDisplay && st.scanning.isNone && decide (st.scanTime g 0 ≤ s.time.toNat) && s.judgedStrip n g)
        (execDisplayScanStart n s)
      <|> dueIf (st.isEncoder && st.stalled.isNone && decide (st.deadline s.time g ≤ now) && s.judgedStrip n g)
        (execEncoderSlotTime n s)

/-- What an instance's times make due (13 R313, R321, R332). -/
def State.instDue (s : State) (k : Nat) (i : Inst) : Option State :=
  dueIf (!i.judged && decide (s.instF k ≤ s.time.toNat)) (execStripDeadline k s)
    <|> dueIf (i.live && (s.launch i.launch).life == .finished && !i.missedAt) (execInstanceNextLaunch k s)
    <|> dueIf (i.live && !i.missedAt && (s.launch i.launch).isLive &&
        (decide (16 ≤ i.sinceEval) || decide (i.evalAt.toNat + 5000 ≤ s.time.toNat))) (execAlmanacEvaluation k s)

/-- What a launch makes due (12 R279, R282, R296). -/
def State.launchDue (s : State) (l : Nat) (x : Launch) : Option State :=
  if !x.isLive then none
  else
    let placed := s.teams.filter fun kv => kv.2.launch == l && kv.2.life == .placed
    dueIf (!placed.isEmpty && s.launchBegun x && placed.all fun kv => s.edgeFree kv.2.core) (execLaunchStartTime l s)
      <|> dueIf (s.launchOver l) (execLaunchComplete l s)
      <|> dueIf (s.noIssueDue l) (execVigilNoIssue l s)

/-- What a group makes due (12 R290, R293, R296, R305; 15 R373). -/
def State.groupDue (s : State) (n : Nat) (g : Group) : Option State :=
  if !g.live then none
  else
    (match g.wait with
      | some (.sleep t) => dueIf (s.reached t) (execSleepWake n s)
      | _ => none)
      <|> dueIf (g.trap.isNone && !g.subs.isEmpty && !(s.team g.team).frozen g.gid) (execTrapEntry n s)
      <|> dueIf (s.longWaitDue n) (execVigilLongWait n s)
      <|> dueIf (g.promote.isNone && g.trap.isNone && (promoted ((g.frontier.filter fun e => !e.trap).drop 1)).isSome)
        (execFrontierPromotion n s)
      <|> dueIf (g.lantern && decide (256 ≤ g.lanternIdle)) (execLanternIdleReturn n s)

/-- What a team makes due: its refinement run (07 R157, R158, R164). -/
def State.teamDue (s : State) (tn : Nat) (t : Team) : Option State :=
  if t.life != .resident then none
  else if t.run.isSome then dueIf (s.rlCanStep tn) (execRlCallEnd tn s)
  else if t.groups.all fun kv => (s.grp kv.2).rl.isEmpty && !(s.grp kv.2).rlArrived then none
  else dueIf (s.rlCanStart tn) (execRlRunStart tn s)
    <|> dueIf ((s.core t.core).rlHolder.isNone && (s.rlNext t.core).isSome) (execRlControllerGrant t.core s)

/-- What an operation's times make due (11 R266). -/
def State.opDue (s : State) (k : Nat) (o : AsyncOp) : Option State :=
  match o.kind with
  | .coll c =>
    dueIf (c.wait != 0 && !c.allJoined && decide (o.at_.toNat + 1000 * c.wait ≤ s.time.toNat) &&
        !s.collWaits o.group o.pc) (execCollWaitExpiry k s)
      <|> dueIf (!c.moved && c.mayMove s.locked s.time) (execCollStartTime k s)
  | _ => none

/-- What a scheduler makes due (12 R289; 16 R395). -/
def State.schedDue (s : State) (k : Nat) : Option State :=
  dueIf ((s.sched k).due.isNone && (s.agedOf k).isSome) (execIssueAging (k / 4) (k % 4) s)
    <|> dueIf ((s.sched k).sampled != 0) (execSampleRecord (k / 4) (k % 4) s)

/-- The first event that is due now. -/
def State.dueNow (s : State) : Option State :=
  firstIn s.insts s.instDue
    <|> (firstIn s.teams fun tn _ => dueIf (s.mayLeave tn) (execTeamVacate tn s))
    <|> firstIn s.streams s.streamDue
    <|> firstIn s.launches s.launchDue
    <|> (firstIn s.gangs fun k g =>
      dueIf (g.tg.any fun t => s.reached t && s.teams.any fun kv => kv.2.life == .placed && g.parts.contains kv.2.launch)
        (execGangStartTime k s)
        <|> dueIf (g.live && g.tg.isNone && !g.forced &&
          g.headAt.any fun t => decide (t.toNat + 1000 * g.deadlineUs ≤ s.time.toNat)) (execGangDeadline k s))
    <|> (firstIn s.parts fun k p =>
      if p.rebind.any fun r => decide (r.deadline.toNat ≤ s.time.toNat) then changing s (execRebindDeadline k s)
      else none)
    <|> (firstIn s.queues fun k q =>
      dueIf (q.wait.any fun w => w.till != 0#64 && decide (w.till.toNat ≤ s.time.toNat)) (execWaitmemTimeout k s))
    <|> firstIn s.ops s.opDue
    <|> firstIn s.groups s.groupDue
    <|> firstIn s.teams s.teamDue
    <|> dueIf (s.fails.any s.reportNow) (execAsyncFailureReport s)
    <|> (match (if s.fw.lanternsOn then s.lanternNext else none) with
      | some n => dueIf true (execLanternGrant n s)
      | none => none)
    <|> s.busyScheds.findSome? s.schedDue

/-! ### Issue -/

/-- What a step does: run an instruction in a state, or reach a state. -/
inductive Todo where
  | run (i : Instr) (s : State)
  | reach (s : State)
  | stuck (f : Fault)

/-- The scheduler that issues in this step: of those with a candidate, the one whose last issue is longest
ago. -/
def State.turnSched (s : State) : Option (Nat × Nat) :=
  (s.busyScheds.filterMap fun k => (s.pick k).map fun n => (k, n)).foldl (fun (best : Option (Nat × Nat)) p =>
    match best with
    | some b => if (s.sched p.1).lastAt < (s.sched b.1).lastAt then some p else best
    | none => some p) none

/-- Counts that an issue moves: aging of the groups passed over, times of issue (12 R289, R292, R296). -/
def State.noteIssue (s : State) (k n : Nat) : State :=
  let others := (s.candidates k).filter (· != n)
  let s := others.foldl (fun s m => s.modGrp m fun g => { g with aging := g.aging + 1 }) s
  let s := s.modGrp n fun g => { (g.setPark none) with aging := 0, lastIssue := s.cycle }
  let s := s.modLaunch (s.teamOf n).launch fun x => { x with lastIssue := s.time }
  s.modSched k fun x => { x with due := none, last := some n, lastAt := s.cycle, replayed := false }

/-- An instruction touches its register lines (12 R292). -/
def State.noteLines (s : State) (n : Nat) (i : Instr) : State :=
  if (s.grp n).cls != .background then s
  else s.modGrp n fun g => { g with
    lineUse := ((usesOf i).filter (· < 0xC0)).foldl (fun m r => Sp.put m r s.cycle) g.lineUse }

/-- A group is held before its next instruction: by a line of its code that an engine owns, or by an evicted line. -/
def State.heldBefore (s : State) (n : Nat) (e : Entry) (p : Park) (op : BitVec 8) : State :=
  s.modGrp n fun g => ((g.setPark (some p)).dropLantern).waitsAt s.time e.pc op e.pc e.prio

/-- Issue the next instruction of a group: fetch, decode, and the instruction to run; or what a fetch that fails or
must wait, bytes that are no instruction, or an evicted line come to. -/
def State.issue (s : State) (k n : Nat) : Todo :=
  match (s.grp n).issueEntry with
  | none => .stuck .noCurrentGroup
  | some e =>
    let s := s.noteIssue k n
    match s.fetch n e.pc with
    | (.flt f, s) => .reach (s.failIssue n e 0#8 f)
    | (.held line, s) => .reach (s.heldBefore n e (.owned [line]) 0#8)
    | (.ok bs, s) =>
      match (decodeBytes bs).instr? with
      | none => .reach (s.failIssue n e (bs.getD 1 0#8) { cause := 0x05#8 })
      | some i =>
        match s.evictedUse n i with
        | some r => .reach (s.heldBefore n e (.evicted r) i.op)
        | none => .run i { (s.noteLines n i) with cur := n, patience := s.patience + 1 }

/-! ### Completions -/

/-- Complete an operation, where it can end. -/
def State.opDone (s : State) (k : Nat) (o : AsyncOp) : Option State :=
  match o.kind with
  -- which sector of a copy lands first is a choice (17 R405)
  | .acp _ _ =>
    let left := o.kind.scrWrites.filter fun sec => !o.landed.contains sec
    let c := s.choose left.length
    changing c.2 (execAcpLanded ⟨k, left.getD c.1 0⟩ c.2)
  | _ => changing s (match o.kind with
  | .tcp _ => execTensorCopyDone k s
  | .tst _ => execTensorCopyDone k s
  | .rput _ _ _ _ _ _ => execRemoteCopyDone k s
  | .rget _ _ _ _ _ _ => execRemoteCopyDone k s
  | .rsig _ port team off count => execRsigArrival (some k) port team off count s
  | .coll _ => execCollDone k s
  | .copyPkt _ _ _ _ _ => execCopyPacketDone k s
  | .inPut _ => execRemoteCopyDone k s
  | _ => .next s)

/-- A burst of a core that has its place in the buffer is read. -/
def State.burstNext (s : State) (c : Core) : Option State :=
  c.burstAsked.findSome? fun p => changing s (execBurstReady p.1 p.2 s)

/-- Read the next packet of a queue by its kind. -/
def State.packetNext (s : State) (k : Nat) : Option State :=
  match (s.peekPacket k).1 with
  | .nothing => none
  | .error _ => changing s (execPktNop k s)
  | .packet bs _ =>
    changing s (match pkt bs 0 1 with
      | 0 => execPktNop k s
      | 1 => execPktLaunch k s
      | 2 => execPktGang k s
      | 3 => execPktTimed k s
      | 4 => match streamOp bs with
        | 0 => execPktStreamCreate k s
        | 1 => execPktStreamAlter k s
        | _ => execPktStreamDestroy k s
      | 5 => execPktWaitmem k s
      | 6 => execPktSignal k s
      | 7 => execPktIndirect k s
      | 8 => execPktCopy k s
      | _ => execPktFence k s)

/-- Service the fault queue of a core: a page that is present now is supplied, one under migration waits, and
one that is absent cannot be supplied unless the agenda says that it is. -/
def State.serviceNext (s : State) (k : Nat) (c : Core) : Option State :=
  match c.faultQ with
  | [] => none
  | (asid, page) :: _ =>
    match s.walk asid (page * 2 ^ 17) with
    | .leaf lf => if lf.mig then none else (execFaultService k true s).next?
    | _ => (execFaultService k false s).next?

/-- The result of a long-latency instruction that was issued first among those outstanding. -/
def State.resultNext (s : State) : Option State :=
  let all := s.groups.flatMap fun kv => (kv.2.locks.filter fun k => k.kind == .result).map fun k => (kv.1, k.id)
  match all with
  | [] => none
  | a :: r =>
    let f := r.foldl (fun (m : Nat × Nat) p => if p.2 < m.2 then p else m) a
    (execLongLatencyResult f.1 f.2 s).next?

/-- What a group that cannot issue waits for from the machine itself. -/
def State.helpGroup (s : State) (n : Nat) (g : Group) : Option State :=
  match g.curPark with
  | some (.evicted r) => changing s (execEvictedLineFetch n r s)
  | some (.noise _) => changing s (execRandBitsReady (s.coreOf n) s)
  | _ => none

/-- Restore a team that was vacated, where its partition allows it. -/
def State.moveTeam (s : State) (tn : Nat) (t : Team) : Option State :=
  if (t.life == .saved || t.life == .discarded) && !s.gangHolds (s.launch t.launch).part then
    let cs := (List.range 256).filter fun c => (s.restoreSlots tn c).isSome
    match cs with
    | [] => none
    | c0 :: _ =>
      let k := s.choose cs.length
      let core := cs.getD k.1 c0
      if t.life == .saved then changing s (execTeamRestore tn core k.2)
      else changing s (execTeamDiscardRestart tn core k.2)
  else none

/-- A list that begins at a place, so that no entry waits for ever behind another. -/
def turnTo {α : Type} (l : List α) (k : Nat) : List α := l.drop (k % l.length) ++ l.take (k % l.length)

/-- The kinds of completion, each with its first that can happen after `k` rounds of turns. -/
def State.completions (s : State) (k : Nat) : List (Unit → Option State) :=
  [fun _ => s.runHeld,
   fun _ => firstIn (turnTo s.ops k) s.opDone,
   fun _ => firstIn (turnTo s.cores k) fun _ x => s.burstNext x,
   fun _ => firstIn (turnTo s.cores k) fun c x => if x.burstBuf.isEmpty then none else changing s (execHandlerBirth c s),
   fun _ => s.resultNext,
   fun _ => firstIn (turnTo s.groups k) s.helpGroup,
   fun _ => firstIn (turnTo s.teams k) s.moveTeam,
   fun _ => firstIn s.launches fun l x => if x.life == .placing then changing s (execTeamPlace l s) else none,
   fun _ => firstIn s.gangs fun n g => if g.tg.isNone then changing s (execGangCommit n s) else none,
   fun _ => firstIn s.parts fun n _ => if s.rankQ.isEmpty then none else changing s (execLaunchDispatch n s),
   fun _ => firstIn (turnTo s.queues k) fun n q =>
     if q.wait.isSome then changing s (execWaitmemPoll n s) else s.packetNext n,
   fun _ => firstIn (turnTo s.streams k) fun n st =>
     if st.coding.isEmpty then none else changing s (execEncoderRowCoded n s),
   fun _ => firstIn (turnTo s.cores k) s.serviceNext]

/-- A completion that can happen: the kinds take turns. -/
def State.complete (s : State) : Option State :=
  let all := s.completions (s.taken / 13)
  ((turnTo all s.taken).findSome? fun f => f ()).map fun t => { t with taken := s.taken + 1, patience := 0 }

/-! ### One step -/

/-- How many instructions issue before a completion that could happen does. -/
def patienceLimit : Nat := 64

/-- Firmware runs: launches are accepted and run (14 R364). -/
def State.fwRunning (s : State) : Bool := s.fw.life == .running

/-- What the next step does: time moves by one cycle; then the event that the agenda names, an event that is
due, an issue, or a completion. -/
def State.todo (s : State) : Todo :=
  let s := s.tick
  match s.agenda with
  | i :: r => if i.form.isSome then .reach { s with agenda := r } else .run i { s with agenda := r }
  | [] =>
    if !s.fwRunning then .reach s
    else match s.dueNow with
      | some t => .reach t
      | none =>
        match (if patienceLimit ≤ s.patience then s.complete else none) with
        | some t => .reach t
        | none =>
          match s.turnSched with
          | some (k, n) => s.issue k n
          | none =>
            match s.complete with
            | some t => .reach t
            | none => .reach s

/-- The log of each team that has ended is judged once (16 R403). -/
def State.judgeLogs (s : State) : State :=
  s.teams.foldl (fun s kv => if kv.2.life == .ended && !kv.2.logDone then
    (s.modTeam kv.1 fun t => { t with logDone := true }).replayEnd kv.1 else s) s

/-- Cores with bulk reads under way. -/
def State.readCores (s : State) : List Nat := ((s.reads.filter fun kv => kv.2.live).map fun kv => kv.2.core).eraseDups

/-- What follows at once: the chunks of a write-back (12 R292), errors that end a replay and the logs of ended teams
(16 R403), requests for lanterns (12 R293), and buffer entries for bursts (10 R244). -/
def State.afterRun (s : State) : State :=
  let s := s.settleChunks s.cur
  let s := (s.groups.filter fun kv => kv.2.errAt.isSome).foldl (fun s kv => s.errorInReplay kv.1) s
  let s := s.judgeLogs.askLanterns
  s.readCores.foldl State.grantBursts s

end Sys2Proof.Machine
end

