-- ==== Sys2Proof/Machine/Texel.lean ====
section
/-! DEFINITION. `FLT`: filtered texel fetch with exact channels (13 R341, Table 13.12). -/

namespace Sys2Proof.Machine

open Sys2Proof

/-- The four channels of a texel, each an exact value and the divisor that applies to it (13 Table
13.12). -/
def texelChannels (fmt : Nat) (bs : List Byte) : List (FVal × Nat) :=
  let byte := fun (k : Nat) => (bs.getD k 0#8).toNat
  let w := ofBytes bs
  let int := fun (c d : Nat) => (FVal.fin false c 0, d)
  let none_ := int 0 1
  let one := int 1 1
  let f32 := fun (k : Nat) => (fdecode fp32 (ofBytes ((bs.drop (4 * k)).take 4)), 1)
  let srgb := fun (c : Nat) =>
    let r := srgbBits c
    (if r.1 = 0 ∧ !r.2 then FVal.fin false 0 0
      else fdecode fp32 (roundMag fp32 .rne false r.1 (-40) r.2).1, 1)
  match fmt with
  | 0x10 => [int (byte 0) 255, none_, none_, one]
  | 0x11 => [int (byte 0) 255, int (byte 1) 255, none_, one]
  | 0x12 => [int (byte 0) 255, int (byte 1) 255, int (byte 2) 255, int (byte 3) 255]
  | 0x13 => [srgb (byte 0), srgb (byte 1), srgb (byte 2), int (byte 3) 255]
  | 0x14 => [int (field w 0 10) 1023, int (field w 10 10) 1023, int (field w 20 10) 1023,
      int (field w 30 2) 3]
  | 0x15 => (List.range 4).map fun k => (fdecode fp16 (ofBytes ((bs.drop (2 * k)).take 2)), 1)
  | 0x16 => [f32 0, none_, none_, one]
  | _ => (List.range 4).map f32

/-- A term scaled by a tap's weight. -/
def weigh (w : Nat) : FVal → FVal
  | .fin n m e => .fin n (m * w) e
  | v => v

/-- The exact weighted sum over 65536 and the channel's divisor, rounded once to FP32 (04 R78, R82). -/
def filterChannel (ftz : Bool) (taps : List (Nat × FVal)) (den : Nat) : Nat × Flags :=
  let ts := taps.map fun t => weigh t.1 t.2
  if ts.any FVal.isNan ∨ ts.any FVal.isInf then sumRound fp32 .rne ts
  else
    let q := minExp ts 0
    let t := sumAt q ts
    if t = 0 then (fp32.signBit (zeroSumNeg .rne ts), 0#8)
    else
      let r := divBits t.natAbs den 80
      ftzOut fp32 ftz (roundMag fp32 .rne (decide (t < 0)) r.1 (q - 96) r.2)

/-- A coordinate as an exact number over 2^150: a NaN, and an infinity under `.wrap`, count as 0 with
INV; any other infinity lies far outside every texture. -/
def coordOf (wrap : Bool) (v : FVal) : Int × Flags :=
  match v with
  | .nan _ => (0, flagInv)
  | .inf n => if wrap then (0, flagInv) else (if n then -(2 ^ 300) else 2 ^ 300, 0#8)
  | .fin n m e =>
    let x : Int := (m * 2 ^ (e + 150).toNat : Nat)
    (if n then -x else x, 0#8)

/-- The texel before a coordinate and the weight, 0 to 256, of the one after it; without `.lin` the
texel that holds it. -/
def tapOf (lin : Bool) (u : Int) : Int × Nat :=
  let u := if lin then u - 2 ^ 149 else u
  let i := u.fdiv (2 ^ 150)
  (i, if lin then rneDiv ((u - i * 2 ^ 150).toNat * 256) (2 ^ 150) else 0)

/-- The taps of nonzero weight (13 R341). -/
def tapsOf (lin wrap : Bool) (tw th : Nat) (u v : Int) : List (Nat × Nat × Nat) :=
  let a := tapOf lin u
  let b := tapOf lin v
  let fold := fun (i : Int) (n : Nat) =>
    if wrap then (i.emod n).toNat else (min (max i 0) ((n : Int) - 1)).toNat
  let all : List (Int × Int × Nat) :=
    [(a.1, b.1, (256 - a.2) * (256 - b.2)), (a.1 + 1, b.1, a.2 * (256 - b.2)),
     (a.1, b.1 + 1, (256 - a.2) * b.2), (a.1 + 1, b.1 + 1, a.2 * b.2)]
  (all.filter fun t => t.2.2 != 0).map fun t => (fold t.1 tw, fold t.2.1 th, t.2.2)

/-- What one lane's taps come to. -/
inductive Taps where
  | ok (texels : List (Nat × List Byte)) (bad : Bool) (s : State)
  | flt (f : Flt)
  | held (lines : List Nat)

/-- Read a lane's texels; the rest of 09 R204 applies to each. -/
def readTaps (n : Nat) (r : RecView) (idx tb : Nat) : List (Nat × Nat × Nat) → State → Taps
  | [], s => .ok [] false s
  | (ti, tj, w) :: rest, s =>
    match s.laneWay n r idx .load tb (ti * tb : Nat) (tj : Nat) with
    | (.bad f, _) => .flt f
    | (way, s) =>
      match s.loadWay n r.peer way tb with
      | .held ls => .held ls
      | .ok (bs, bad, s) =>
        match readTaps n r idx tb rest s with
        | .ok ts b s => .ok ((w, bs) :: ts) (bad || b) s
        | t => t

/-- Four channels of a lane and their flags. -/
def filterLane (ftz : Bool) (fmt : Nat) (texels : List (Nat × List Byte)) : List (Nat × Flags) :=
  let cs := texels.map fun t => (t.1, texelChannels fmt t.2)
  (List.range 4).map fun k =>
    let one := fun (c : Nat × List (FVal × Nat)) => c.2.getD k (.fin false 0 0, 1)
    filterChannel ftz (cs.map fun c => (c.1, (one c).1)) (match cs with
      | [] => 1
      | c :: _ => (one c).2)

/-- The lanes of a `FLT` in turn. -/
def fltLanes (x : XForm) (r : RecView) (tw th : Nat) (g : Group) :
    List Nat → Iss → List (Nat × Nat × Bool) → Got (Iss × List (Nat × Nat × Bool))
  | [], i, acc => .ok (i, acc)
  | l :: rest, i, acc =>
    let idx := auxRec x
    let wrap := x.mod.getLsbD 6
    let ftz := modeFtz g.mode
    match firstPoison g l [(x.b, 1), (x.c, 1)] with
    | some f => fltLanes x r tw th g rest (i.fault (laneBit l) { f with recIdx := some (BitVec.ofNat 5 idx) }) acc
    | none =>
      let coord := fun (o : Opnd) => coordOf wrap (fdecode fp32 (ftzIn fp32 ftz (opVal g x.lit o 1 l)))
      let u := coord x.b
      let v := coord x.c
      let i := i.mod fun g => g.raiseFlags (u.2 ||| v.2)
      match readTaps i.n r idx (texelBytes r.format) (tapsOf (x.mod.getLsbD 5) wrap tw th u.1 v.1) i.s with
      | .held ls => .held ls
      | .flt f => fltLanes x r tw th g rest (i.fault (laneBit l) f) acc
      | .ok ts bad s' =>
        let cs := filterLane ftz r.format ts
        let i := ({ i with s := s' }).mod fun g => g.raiseFlags (cs.foldl (fun (f : Flags) (c : Nat × Flags) => f ||| c.2) 0#8)
        fltLanes x r tw th g rest i (acc ++ [(l, cs.foldr (fun c acc => c.1 + 2 ^ 32 * acc) 0, bad)])

/-- `FLT` (13 R341). A record of another kind or format is a format fault; a texture without texels
gives zeros and OOB before any other check. -/
def execFlt (x : XForm) (s : State) : Out :=
  let i := begin_ (.flt x) s
  let g := i.g
  let idx := auxRec x
  let rx := some (BitVec.ofNat 5 idx)
  let r := recView (g.breg idx)
  let fmtOk := decide (0x10 ≤ r.format) && decide (r.format ≤ 0x17)
  let tw := r.extentX / texelBytes r.format
  if i.run = 0#32 then i.out
  else if r.kind ≠ 0 ∧ r.kind ≠ 3 then (i.fault i.run { cause := 0x12#8, recIdx := rx }).out
  else if r.extentX = 0 ∨ r.extentY = 0 ∨ (fmtOk ∧ tw = 0) then
    if r.oobTrap then (i.fault i.run { cause := 0x03#8, vline := vlineOf r.base, recIdx := rx }).out
    else (i.mod fun g => g.raiseFlags flagOob).land x.a 4 false ((maskLanes i.run).map fun l => (l, 0, 0))
  else if !fmtOk then (i.fault i.run { cause := 0x12#8, recIdx := rx }).out
  else match i.s.recFault i.n r idx true false [0, 3] with
    | some f => (i.fault i.run f).out
    | none =>
      match fltLanes x r tw r.extentY g (maskLanes i.run) i [] with
      | .held ls => .next (i.parked (.owned ls) s)
      | .ok (i, vals) => i.land x.a 4 false (vals.map fun v => (v.1, v.2.1, wholePoison 4 v.2.2))

end Sys2Proof.Machine
end

