-- ==== Sys2Proof/Machine/Dispatch.lean ====
section
/-! DEFINITION. One arm per row of the opcode table. -/

namespace Sys2Proof.Machine

open Sys2Proof

def exec (i : Instr) (s : State) : Host.Outcome State Fault Refusal :=
  match i with
  | .nopBase x => Sys2Proof.Machine.execNopBase x s
  | .nop x => Sys2Proof.Machine.execNop x s
  | .braShort x => Sys2Proof.Machine.execBraShort x s
  | .bra x => Sys2Proof.Machine.execBra x s
  | .brx x => Sys2Proof.Machine.execBrx x s
  | .call x => Sys2Proof.Machine.execCall x s
  | .callx x => Sys2Proof.Machine.execCallx x s
  | .retBase x => Sys2Proof.Machine.execRetBase x s
  | .ret x => Sys2Proof.Machine.execRet x s
  | .exitBase x => Sys2Proof.Machine.execExitBase x s
  | .exit x => Sys2Proof.Machine.execExit x s
  | .cset x => Sys2Proof.Machine.execCset x s
  | .conv x => Sys2Proof.Machine.execConv x s
  | .loop x => Sys2Proof.Machine.execLoop x s
  | .lbrk x => Sys2Proof.Machine.execLbrk x s
  | .yieldBase x => Sys2Proof.Machine.execYieldBase x s
  | .yield x => Sys2Proof.Machine.execYield x s
  | .sleep x => Sys2Proof.Machine.execSleep x s
  | .sleepWake group => Sys2Proof.Machine.execSleepWake group s
  | .idemb x => Sys2Proof.Machine.execIdemb x s
  | .ideme x => Sys2Proof.Machine.execIdeme x s
  | .bar x => Sys2Proof.Machine.execBar x s
  | .bara x => Sys2Proof.Machine.execBara x s
  | .barw x => Sys2Proof.Machine.execBarw x s
  | .bari x => Sys2Proof.Machine.execBari x s
  | .cbar x => Sys2Proof.Machine.execCbar x s
  | .obji x => Sys2Proof.Machine.execObji x s
  | .obja x => Sys2Proof.Machine.execObja x s
  | .objw x => Sys2Proof.Machine.execObjw x s
  | .objt x => Sys2Proof.Machine.execObjt x s
  | .movBase x => Sys2Proof.Machine.execMovBase x s
  | .movBaseLit x lit => Sys2Proof.Machine.execMovBaseLit x lit s
  | .mov x => Sys2Proof.Machine.execMov x s
  | .moviBase x => Sys2Proof.Machine.execMoviBase x s
  | .movi x => Sys2Proof.Machine.execMovi x s
  | .sel x => Sys2Proof.Machine.execSel x s
  | .iaddBase x => Sys2Proof.Machine.execIaddBase x s
  | .iaddBaseLit x lit => Sys2Proof.Machine.execIaddBaseLit x lit s
  | .iadd x => Sys2Proof.Machine.execIadd x s
  | .isubBase x => Sys2Proof.Machine.execIsubBase x s
  | .isubBaseLit x lit => Sys2Proof.Machine.execIsubBaseLit x lit s
  | .isub x => Sys2Proof.Machine.execIsub x s
  | .iaddc x => Sys2Proof.Machine.execIaddc x s
  | .imul x => Sys2Proof.Machine.execImul x s
  | .imulh x => Sys2Proof.Machine.execImulh x s
  | .imad x => Sys2Proof.Machine.execImad x s
  | .iminBase x => Sys2Proof.Machine.execIminBase x s
  | .iminBaseLit x lit => Sys2Proof.Machine.execIminBaseLit x lit s
  | .imin x => Sys2Proof.Machine.execImin x s
  | .imaxBase x => Sys2Proof.Machine.execImaxBase x s
  | .imaxBaseLit x lit => Sys2Proof.Machine.execImaxBaseLit x lit s
  | .imax x => Sys2Proof.Machine.execImax x s
  | .iabs x => Sys2Proof.Machine.execIabs x s
  | .andBase x => Sys2Proof.Machine.execAndBase x s
  | .andBaseLit x lit => Sys2Proof.Machine.execAndBaseLit x lit s
  | .and x => Sys2Proof.Machine.execAnd x s
  | .orBase x => Sys2Proof.Machine.execOrBase x s
  | .orBaseLit x lit => Sys2Proof.Machine.execOrBaseLit x lit s
  | .or x => Sys2Proof.Machine.execOr x s
  | .xorBase x => Sys2Proof.Machine.execXorBase x s
  | .xorBaseLit x lit => Sys2Proof.Machine.execXorBaseLit x lit s
  | .xor x => Sys2Proof.Machine.execXor x s
  | .andn x => Sys2Proof.Machine.execAndn x s
  | .not x => Sys2Proof.Machine.execNot x s
  | .shlBase x => Sys2Proof.Machine.execShlBase x s
  | .shlBaseLit x lit => Sys2Proof.Machine.execShlBaseLit x lit s
  | .shl x => Sys2Proof.Machine.execShl x s
  | .shrBase x => Sys2Proof.Machine.execShrBase x s
  | .shrBaseLit x lit => Sys2Proof.Machine.execShrBaseLit x lit s
  | .shr x => Sys2Proof.Machine.execShr x s
  | .sarBase x => Sys2Proof.Machine.execSarBase x s
  | .sarBaseLit x lit => Sys2Proof.Machine.execSarBaseLit x lit s
  | .sar x => Sys2Proof.Machine.execSar x s
  | .shrr x => Sys2Proof.Machine.execShrr x s
  | .rot x => Sys2Proof.Machine.execRot x s
  | .clz x => Sys2Proof.Machine.execClz x s
  | .popc x => Sys2Proof.Machine.execPopc x s
  | .brev x => Sys2Proof.Machine.execBrev x s
  | .bfx x => Sys2Proof.Machine.execBfx x s
  | .bfi x => Sys2Proof.Machine.execBfi x s
  | .isetp x => Sys2Proof.Machine.execIsetp x s
  | .plop x => Sys2Proof.Machine.execPlop x s
  | .pmovGet x => Sys2Proof.Machine.execPmovGet x s
  | .pmovPut x => Sys2Proof.Machine.execPmovPut x s
  | .iadds x => Sys2Proof.Machine.execIadds x s
  | .isubs x => Sys2Proof.Machine.execIsubs x s
  | .idot2 x => Sys2Proof.Machine.execIdot2 x s
  | .idot4 x => Sys2Proof.Machine.execIdot4 x s
  | .ipack x => Sys2Proof.Machine.execIpack x s
  | .iunpk x => Sys2Proof.Machine.execIunpk x s
  | .icvt x => Sys2Proof.Machine.execIcvt x s
  | .faddBase x => Sys2Proof.Machine.execFaddBase x s
  | .faddBaseLit x lit => Sys2Proof.Machine.execFaddBaseLit x lit s
  | .fadd x => Sys2Proof.Machine.execFadd x s
  | .fsub x => Sys2Proof.Machine.execFsub x s
  | .fmulBase x => Sys2Proof.Machine.execFmulBase x s
  | .fmulBaseLit x lit => Sys2Proof.Machine.execFmulBaseLit x lit s
  | .fmul x => Sys2Proof.Machine.execFmul x s
  | .ffma x => Sys2Proof.Machine.execFfma x s
  | .fminBase x => Sys2Proof.Machine.execFminBase x s
  | .fminBaseLit x lit => Sys2Proof.Machine.execFminBaseLit x lit s
  | .fmin x => Sys2Proof.Machine.execFmin x s
  | .fmaxBase x => Sys2Proof.Machine.execFmaxBase x s
  | .fmaxBaseLit x lit => Sys2Proof.Machine.execFmaxBaseLit x lit s
  | .fmax x => Sys2Proof.Machine.execFmax x s
  | .fsetp x => Sys2Proof.Machine.execFsetp x s
  | .fclass x => Sys2Proof.Machine.execFclass x s
  | .frnd x => Sys2Proof.Machine.execFrnd x s
  | .fcvt x => Sys2Proof.Machine.execFcvt x s
  | .fdiv x => Sys2Proof.Machine.execFdiv x s
  | .fsqrt x => Sys2Proof.Machine.execFsqrt x s
  | .frcp x => Sys2Proof.Machine.execFrcp x s
  | .frsq x => Sys2Proof.Machine.execFrsq x s
  | .fexp2 x => Sys2Proof.Machine.execFexp2 x s
  | .flog2 x => Sys2Proof.Machine.execFlog2 x s
  | .fsinp x => Sys2Proof.Machine.execFsinp x s
  | .fcosp x => Sys2Proof.Machine.execFcosp x s
  | .ftanh x => Sys2Proof.Machine.execFtanh x s
  | .fscale x => Sys2Proof.Machine.execFscale x s
  | .xshf x => Sys2Proof.Machine.execXshf x s
  | .xsld x => Sys2Proof.Machine.execXsld x s
  | .xbfl x => Sys2Proof.Machine.execXbfl x s
  | .xbcst x => Sys2Proof.Machine.execXbcst x s
  | .xred x => Sys2Proof.Machine.execXred x s
  | .xscan x => Sys2Proof.Machine.execXscan x s
  | .xvote x => Sys2Proof.Machine.execXvote x s
  | .xffs x => Sys2Proof.Machine.execXffs x s
  | .xpld x => Sys2Proof.Machine.execXpld x s
  | .xpat x => Sys2Proof.Machine.execXpat x s
  | .mzero x => Sys2Proof.Machine.execMzero x s
  | .mma x => Sys2Proof.Machine.execMma x s
  | .mmas x => Sys2Proof.Machine.execMmas x s
  | .mmai x => Sys2Proof.Machine.execMmai x s
  | .had x => Sys2Proof.Machine.execHad x s
  | .qnt x => Sys2Proof.Machine.execQnt x s
  | .dqnt x => Sys2Proof.Machine.execDqnt x s
  | .fragt x => Sys2Proof.Machine.execFragt x s
  | .rlrun x => Sys2Proof.Machine.execRlrun x s
  | .rlRunStart team => Sys2Proof.Machine.execRlRunStart team s
  | .rlControllerGrant core => Sys2Proof.Machine.execRlControllerGrant core s
  | .rlCallEnd team => Sys2Proof.Machine.execRlCallEnd team s
  | .rlacc x => Sys2Proof.Machine.execRlacc x s
  | .rlret x => Sys2Proof.Machine.execRlret x s
  | .rlabt x => Sys2Proof.Machine.execRlabt x s
  | .ld x => Sys2Proof.Machine.execLd x s
  | .st x => Sys2Proof.Machine.execSt x s
  | .sld x => Sys2Proof.Machine.execSld x s
  | .ldl x => Sys2Proof.Machine.execLdl x s
  | .stl x => Sys2Proof.Machine.execStl x s
  | .atom x => Sys2Proof.Machine.execAtom x s
  | .atomu x => Sys2Proof.Machine.execAtomu x s
  | .atoml x => Sys2Proof.Machine.execAtoml x s
  | .flt x => Sys2Proof.Machine.execFlt x s
  | .bld x => Sys2Proof.Machine.execBld x s
  | .bnar x => Sys2Proof.Machine.execBnar x s
  | .phase x => Sys2Proof.Machine.execPhase x s
  | .fence x => Sys2Proof.Machine.execFence x s
  | .pfch x => Sys2Proof.Machine.execPfch x s
  | .acp x => Sys2Proof.Machine.execAcp x s
  | .acpLanded at_ => Sys2Proof.Machine.execAcpLanded at_ s
  | .await x => Sys2Proof.Machine.execAwait x s
  | .tcp x => Sys2Proof.Machine.execTcp x s
  | .tst x => Sys2Proof.Machine.execTst x s
  | .tcpg x => Sys2Proof.Machine.execTcpg x s
  | .tensorCopyDone op => Sys2Proof.Machine.execTensorCopyDone op s
  | .engineLineRelease op line => Sys2Proof.Machine.execEngineLineRelease op line s
  | .bread x => Sys2Proof.Machine.execBread x s
  | .burstReady read burst => Sys2Proof.Machine.execBurstReady read burst s
  | .handlerBirth core => Sys2Proof.Machine.execHandlerBirth core s
  | .rput x => Sys2Proof.Machine.execRput x s
  | .rget x => Sys2Proof.Machine.execRget x s
  | .remoteCopyDone op => Sys2Proof.Machine.execRemoteCopyDone op s
  | .rsig x => Sys2Proof.Machine.execRsig x s
  | .rsigArrival op port team off count => Sys2Proof.Machine.execRsigArrival op port team off count s
  | .rsigAck op applied => Sys2Proof.Machine.execRsigAck op applied s
  | .coll x => Sys2Proof.Machine.execColl x s
  | .collJoin op others => Sys2Proof.Machine.execCollJoin op others s
  | .collWaitExpiry op => Sys2Proof.Machine.execCollWaitExpiry op s
  | .collDone op => Sys2Proof.Machine.execCollDone op s
  | .ecov x => Sys2Proof.Machine.execEcov x s
  | .sacq x => Sys2Proof.Machine.execSacq x s
  | .sstr x => Sys2Proof.Machine.execSstr x s
  | .srdh x => Sys2Proof.Machine.execSrdh x s
  | .srelDone x => Sys2Proof.Machine.execSrelDone x s
  | .srelCons x => Sys2Proof.Machine.execSrelCons x s
  | .srelConsHalo x => Sys2Proof.Machine.execSrelConsHalo x s
  | .srate x => Sys2Proof.Machine.execSrate x s
  | .sprogStart x => Sys2Proof.Machine.execSprogStart x s
  | .sprogDone x => Sys2Proof.Machine.execSprogDone x s
  | .sread x => Sys2Proof.Machine.execSread x s
  | .swrite x => Sys2Proof.Machine.execSwrite x s
  | .rand x => Sys2Proof.Machine.execRand x s
  | .trap x => Sys2Proof.Machine.execTrap x s
  | .tretRetry x => Sys2Proof.Machine.execTretRetry x s
  | .tretSkip x => Sys2Proof.Machine.execTretSkip x s
  | .bkpt x => Sys2Proof.Machine.execBkpt x s
  | .psave x => Sys2Proof.Machine.execPsave x s
  | .pload x => Sys2Proof.Machine.execPload x s
  | .tlbinv x => Sys2Proof.Machine.execTlbinv x s
  | .fwcallQuery x => Sys2Proof.Machine.execFwcallQuery x s
  | .fwcallPin x => Sys2Proof.Machine.execFwcallPin x s
  | .fwcallTier x => Sys2Proof.Machine.execFwcallTier x s
  | .fwcallDomain x => Sys2Proof.Machine.execFwcallDomain x s
  | .fwcallAttest x => Sys2Proof.Machine.execFwcallAttest x s
  | .fwcallQueue x => Sys2Proof.Machine.execFwcallQueue x s
  | .fwcallUnknown x => Sys2Proof.Machine.execFwcallUnknown x s
  | .queueDoorbellWrite fn off w => Sys2Proof.Machine.execQueueDoorbellWrite fn off w s
  | .pktNop queue => Sys2Proof.Machine.execPktNop queue s
  | .pktLaunch queue => Sys2Proof.Machine.execPktLaunch queue s
  | .pktGang queue => Sys2Proof.Machine.execPktGang queue s
  | .gangCommit gang => Sys2Proof.Machine.execGangCommit gang s
  | .gangDeadline gang => Sys2Proof.Machine.execGangDeadline gang s
  | .pktTimed queue => Sys2Proof.Machine.execPktTimed queue s
  | .pktStreamCreate queue => Sys2Proof.Machine.execPktStreamCreate queue s
  | .pktStreamAlter queue => Sys2Proof.Machine.execPktStreamAlter queue s
  | .pktStreamDestroy queue => Sys2Proof.Machine.execPktStreamDestroy queue s
  | .pktWaitmem queue => Sys2Proof.Machine.execPktWaitmem queue s
  | .waitmemPoll queue => Sys2Proof.Machine.execWaitmemPoll queue s
  | .waitmemTimeout queue => Sys2Proof.Machine.execWaitmemTimeout queue s
  | .pktSignal queue => Sys2Proof.Machine.execPktSignal queue s
  | .pktIndirect queue => Sys2Proof.Machine.execPktIndirect queue s
  | .pktCopy queue => Sys2Proof.Machine.execPktCopy queue s
  | .copyPacketDone op => Sys2Proof.Machine.execCopyPacketDone op s
  | .pktFence queue => Sys2Proof.Machine.execPktFence queue s
  | .launchDispatch part => Sys2Proof.Machine.execLaunchDispatch part s
  | .teamPlace launch => Sys2Proof.Machine.execTeamPlace launch s
  | .launchStartTime launch => Sys2Proof.Machine.execLaunchStartTime launch s
  | .launchComplete launch => Sys2Proof.Machine.execLaunchComplete launch s
  | .issueAging core sched => Sys2Proof.Machine.execIssueAging core sched s
  | .frontierPromotion group => Sys2Proof.Machine.execFrontierPromotion group s
  | .evictedLineFetch group reg => Sys2Proof.Machine.execEvictedLineFetch group reg s
  | .lanternGrant group => Sys2Proof.Machine.execLanternGrant group s
  | .lanternIdleReturn group => Sys2Proof.Machine.execLanternIdleReturn group s
  | .lanternPoolChange pool reserved => Sys2Proof.Machine.execLanternPoolChange pool reserved s
  | .thermalMigration heat => Sys2Proof.Machine.execThermalMigration heat s
  | .partitionRebind part rect load => Sys2Proof.Machine.execPartitionRebind part rect load s
  | .rebindDeadline part => Sys2Proof.Machine.execRebindDeadline part s
  | .vigilNoIssue launch => Sys2Proof.Machine.execVigilNoIssue launch s
  | .vigilLongWait group => Sys2Proof.Machine.execVigilLongWait group s
  | .stripRelease stream => Sys2Proof.Machine.execStripRelease stream s
  | .instanceNextLaunch inst => Sys2Proof.Machine.execInstanceNextLaunch inst s
  | .borrowerVacate stream => Sys2Proof.Machine.execBorrowerVacate stream s
  | .borrowerKill stream => Sys2Proof.Machine.execBorrowerKill stream s
  | .almanacEvaluation inst => Sys2Proof.Machine.execAlmanacEvaluation inst s
  | .stripDeadline inst => Sys2Proof.Machine.execStripDeadline inst s
  | .displayScanStart stream => Sys2Proof.Machine.execDisplayScanStart stream s
  | .displayScanEnd stream => Sys2Proof.Machine.execDisplayScanEnd stream s
  | .encoderSlotTime stream => Sys2Proof.Machine.execEncoderSlotTime stream s
  | .encoderRowCoded stream => Sys2Proof.Machine.execEncoderRowCoded stream s
  | .encoderStall stream => Sys2Proof.Machine.execEncoderStall stream s
  | .encoderResume stream => Sys2Proof.Machine.execEncoderResume stream s
  | .ppsEdge offset servo => Sys2Proof.Machine.execPpsEdge offset servo s
  | .ptmTimestamp host => Sys2Proof.Machine.execPtmTimestamp host s
  | .faultService core supplied => Sys2Proof.Machine.execFaultService core supplied s
  | .tierMigration asid va frame tier => Sys2Proof.Machine.execTierMigration asid va frame tier s
  | .trapEntry group => Sys2Proof.Machine.execTrapEntry group s
  | .asyncFailureReport => Sys2Proof.Machine.execAsyncFailureReport s
  | .teamVacate team => Sys2Proof.Machine.execTeamVacate team s
  | .teamRestore team core => Sys2Proof.Machine.execTeamRestore team core s
  | .teamDiscardRestart team core => Sys2Proof.Machine.execTeamDiscardRestart team core s
  | .rngHealthFailure core => Sys2Proof.Machine.execRngHealthFailure core s
  | .randBitsReady core => Sys2Proof.Machine.execRandBitsReady core s
  | .timingErrorReplay core sched => Sys2Proof.Machine.execTimingErrorReplay core sched s
  | .eccCorrected unit => Sys2Proof.Machine.execEccCorrected unit s
  | .eccUncorrectable hit => Sys2Proof.Machine.execEccUncorrectable hit s
  | .cxlPoison line => Sys2Proof.Machine.execCxlPoison line s
  | .ioLoadCompletion read good data => Sys2Proof.Machine.execIoLoadCompletion read good data s
  | .ioCompletionTimeout read => Sys2Proof.Machine.execIoCompletionTimeout read s
  | .bar2Read fn off size => Sys2Proof.Machine.execBar2Read fn off size s
  | .bar2Write fn off data => Sys2Proof.Machine.execBar2Write fn off data s
  | .configRequest fn => Sys2Proof.Machine.execConfigRequest fn s
  | .mbxQueueConfig fn queue desc => Sys2Proof.Machine.execMbxQueueConfig fn queue desc s
  | .mbxOwnerCreate fn load => Sys2Proof.Machine.execMbxOwnerCreate fn load s
  | .mbxAdminMark fn queue => Sys2Proof.Machine.execMbxAdminMark fn queue s
  | .mbxIoWindowGrant fn part base size => Sys2Proof.Machine.execMbxIoWindowGrant fn part base size s
  | .mbxBar2Asid fn asid => Sys2Proof.Machine.execMbxBar2Asid fn asid s
  | .mbxFwService fn service args => Sys2Proof.Machine.execMbxFwService fn service args s
  | .mbxTraceRing fn part base size => Sys2Proof.Machine.execMbxTraceRing fn part base size s
  | .mbxStopTeam fn team => Sys2Proof.Machine.execMbxStopTeam fn team s
  | .mbxResumeTeam fn team => Sys2Proof.Machine.execMbxResumeTeam fn team s
  | .mbxDebugAccess fn team op => Sys2Proof.Machine.execMbxDebugAccess fn team op s
  | .mbxReadHistogram fn part => Sys2Proof.Machine.execMbxReadHistogram fn part s
  | .sampleRecord core sched => Sys2Proof.Machine.execSampleRecord core sched s
  | .recoveryImage fn image => Sys2Proof.Machine.execRecoveryImage fn image s
  | .fundamentalReset image => Sys2Proof.Machine.execFundamentalReset image s
  | .fwHandoverStage image => Sys2Proof.Machine.execFwHandoverStage image s
  | .fwHandoverCommit => Sys2Proof.Machine.execFwHandoverCommit s
  | .peerLoad peer owner va size => Sys2Proof.Machine.execPeerLoad peer owner va size s
  | .peerStore peer core owner va write => Sys2Proof.Machine.execPeerStore peer core owner va write s
  | .peerRemoteCommit peer core => Sys2Proof.Machine.execPeerRemoteCommit peer core s
  | .peerAtom peer core owner va size op ty arg swap => Sys2Proof.Machine.execPeerAtom peer core owner va size op ty arg swap s
  | .linkFlitError port => Sys2Proof.Machine.execLinkFlitError port s
  | .peerUnreachable peer => Sys2Proof.Machine.execPeerUnreachable peer s
  | .longLatencyResult group lock => Sys2Proof.Machine.execLongLatencyResult group lock s
  | .gangStartTime gang => Sys2Proof.Machine.execGangStartTime gang s
  | .collStartTime op => Sys2Proof.Machine.execCollStartTime op s
  | .linkTraining port key => Sys2Proof.Machine.execLinkTraining port key s

end Sys2Proof.Machine
end

