-- ==== Sys2Proof/Machine/Step.lean ====
section
/-! DEFINITION. One step of the machine, and the state in which the next step fetches a given instruction
(log entry 12: how a program comes to run). -/

namespace Sys2Proof.Machine

open Sys2Proof

/-- One step: what `State.todo` says, and what follows at once. -/
def step (s : State) : Host.Outcome State Fault Refusal :=
  match s.todo with
  | .run i t =>
    match exec i t with
    | .next u => .next u.afterRun
    | .fault f => .fault f
    | .refused r => .refused r
  | .reach t => .next t.afterRun
  | .stuck f => .fault f

/-- Little-endian bytes of a page-table entry. -/
def entryBytes (e : Nat) : List Byte := (List.range 8).map fun k => BitVec.ofNat 8 (e / 2 ^ (8 * k))

/-- The frames that the loaded program uses: four levels of tables in frame 1 and code in frame 2, which
page 0 of ASID 1 maps with read and execute and A set. -/
def loadImage (w : Nat) : List Host.Cell :=
  let write := fun (m : List Host.Cell) (at_ e : Nat) => Sp.write 0#8 m at_ (entryBytes e)
  let m := write [] 0x20000 (0x24000 + 1)
  let m := write m 0x24000 (0x28000 + 1)
  let m := write m 0x28000 (0x2C000 + 1)
  let m := write m 0x2C000 (0x40000 + 0x817)
  Sp.write 0#8 m 0x40000 ((List.range 20).map fun k => BitVec.ofNat 8 (w / 2 ^ (8 * k)))

/-- The group that runs the loaded program: all lanes at PC 0 with the default priority. -/
def loadGroup : Group :=
  { live := true, team := 2, gid := 0, cls := .background, nv := 192, ns := 48, nb := 32, nbv := 2#32,
    frontier := [⟨0#57, 2048#12, allLanes, false, 0⟩] }

/-- Its team: the one team of launch 1, on core 1. -/
def loadTeam : Team :=
  { life := .resident, launch := 1, core := 1, groups := [(0, 3)], ngroups := 1, ssize := 4096, nbars := 1 }

/-- Its launch. -/
def loadLaunch : Launch :=
  { life := .running
    r := { grid := 1, groups := 1, cx := 1, cy := 1, nv := 192, ns := 48, nb := 32, nbv := 2, bars := 1, scratch := 4096 }
    part := 1, owner := 1, asid := 1, placed := 1, started := [(1, true)] }

/-- Its partition. -/
def loadPart : Partition := { on := true, owner := 1, x := 1, y := 0, w := 1, h := 1 }

/-- `s` with an instruction stored where the next step fetches: firmware runs, and one group of one
launch stands on core 1 with its code in memory. -/
def State.withFetchWord (s : State) (nbits w : Nat) : State :=
  { s with
    cur := 3
    groups := [(3, loadGroup)]
    teams := [(2, loadTeam)]
    clusters := []
    launches := [(1, loadLaunch)]
    cores := []
    scheds := []
    mem := loadImage (w % 2 ^ nbits)
    memBad := []
    owned := []
    heldIn := []
    stlb := []
    garble := []
    memKey := []
    devWait := none
    ops := []
    reads := []
    ioReads := []
    fails := []
    queues := []
    packets := []
    rankQ := []
    gangs := []
    parts := [(1, loadPart)]
    streams := []
    insts := []
    fw := { s.fw with
      life := .running
      owners := [1]
      asids := [(1, (0x20000, 1))]
      frames := [(1, 1), (2, 1)]
      lanternsOn := false }
    serial := 4
    agenda := []
    patience := 0
    taken := 0 }

end Sys2Proof.Machine
end

