-- ==== Sys2Proof/Safety.lean ====
section
/-! DEFINITION. What counts as a safe run, and the words in which statements speak of one instruction: the
canonical form of memory, when an instruction issues without a fault, where its lanes go, and what it leaves
as it was. -/

namespace Sys2Proof.Machine

open Sys2Proof

/-- Memory in its one form: addresses strictly rising, and no entry equal to what an unlisted address reads as
(log entry 2: the byte 0). -/
def Memory.wf (m : List Host.Cell) : Bool := Sp.wf 0#8 m

/-- `n` steps from a state end in neither a fault nor a refusal. -/
def runsSafely : Nat → State → Bool
  | 0, _ => true
  | n + 1, s => match step s with
    | .next t => runsSafely n t
    | _ => false

/-! ### The instruction in issue -/

/-- The frontier entry that issues (02 R23; 15 R373). -/
def State.entry (s : State) : Entry := s.me.issueEntry.getD ⟨0, 0, 0, false, 0⟩

/-- The lanes that act: those of the entry that the guard lets act (03 R43). -/
def State.acting (s : State) (i : Instr) : Mask := s.entry.mask &&& guardMask s.me i.guard

/-- The next sequential PC (03 R40). -/
def State.after (s : State) (i : Instr) : VAddr := s.entry.pc + BitVec.ofNat 57 i.len

/-- The description of an instruction's fields. -/
def shapeOfInstr (i : Instr) : Shape := shapeOf i.op.toNat i.fields

/-- The group in issue may execute the instruction: it has an entry; the instruction is well formed and names
declared registers only (03 R61; 02 R30); no lookahead window is open; it is legal in trap mode if the entry is
in it (15 R374) and in a handler group if the group is one (10 R245); and no step trap follows (15 R378). -/
def State.admits (s : State) (i : Instr) : Bool :=
  s.me.issueEntry.isSome && i.wf && countsOk s.me ((shapeOfInstr i).uses i.fields) && s.me.windows.isEmpty &&
    !(s.entry.trap && illegalInTrap i.op.toNat) && !(s.me.isHandler && bannedInHandler i.op.toNat) &&
    (!s.me.step || s.entry.trap)

/-- No source of the instruction is poisoned in a lane that acts (15 R390). -/
def State.clean (s : State) (i : Instr) : Bool :=
  lanes.all fun l => !(s.acting i).getLsbD l || (badSource s.me s.entry.mask (shapeOfInstr i) i.fields l).isNone

/-! ### What an instruction leaves as it was -/

/-- Only the group in issue differs, and the number that names new things. -/
def onlyGroup (s u : State) : Prop :=
  ({ u with groups := s.groups, serial := s.serial } : State) = s ∧ ∀ n, n ≠ s.cur → u.grp n = s.grp n

/-- The state at the beginning of an issue: an instruction that closes an open idempotent region has closed it
(12 R306). -/
def State.begun (s : State) (i : Instr) : State :=
  if closesRegion i.op.toNat && s.me.region.isSome then s.modMe fun g => { g with region := none } else s

/-- `b` with what every issue moves put back as in `a`: positions, windows, interlocks and the promotion in
hand. -/
def sameIssue (a b : Group) : Group :=
  { b with frontier := a.frontier, loops := a.loops, windows := a.windows, locks := a.locks,
           promote := a.promote }

/-- The instruction runs to an end of its own: `exec` answers the next state, which is some `u` with everything
that follows at once (`State.settle`), and `P` holds of `u`. -/
def State.completes (s : State) (i : Instr) (P : State → Prop) : Prop :=
  ∃ u, exec i s = .next (u.settle s.cur) ∧ P u

/-- A lane stands at a position: in an entry of the frontier, or parked at the tail of a loop that ends there
(12 R303). -/
def Group.standsAt (g : Group) (l : Nat) (pc : VAddr) (prio : Prio) (trap : Bool) : Prop :=
  (∃ e ∈ g.frontier, e.mask.getLsbD l = true ∧ e.pc = pc ∧ e.prio = prio ∧ e.trap = trap) ∨
    ∃ c ∈ g.loops, c.stop = pc ∧ c.tail.getLsbD l = true

/-- The frontier in order (02 R23, R24; 15 R373): entries of highest priority and then of lowest PC first, no two for
one position, no lane in two of them, none empty; and the lanes that wait to trap stand in none, and wait once. -/
def Group.orderly (g : Group) : Prop :=
  g.frontier.Pairwise (fun a b => b.before a = false ∧ (a.pc, a.prio, a.trap) ≠ (b.pc, b.prio, b.trap) ∧
    a.mask &&& b.mask = 0#32) ∧
  (∀ e ∈ g.frontier, e.mask ≠ 0#32) ∧ (∀ h ∈ g.subs, h.frec.mask &&& g.frontierMask = 0#32) ∧
  g.subs.Pairwise fun a b => a.frec.mask &&& b.frec.mask = 0#32

/-- The lanes of the entries that do not issue keep their positions, and a frontier in order stays so. -/
def othersStay (s u : State) : Prop :=
  (∀ e ∈ s.me.frontier, ∀ l, l < 32 → e.mask.getLsbD l = true → s.entry.mask.getLsbD l = false →
    ∃ f ∈ u.me.frontier, f.mask.getLsbD l = true ∧ f.pc = e.pc ∧ f.prio = e.prio ∧ f.trap = e.trap) ∧
  (s.me.orderly → u.me.orderly)

/-- The lanes of a mask go on to the next sequential PC with their priority; those that did not issue stay where they
are. -/
def goesOnIn (s : State) (i : Instr) (u : State) (m : Mask) : Prop :=
  (∀ l, l < 32 → m.getLsbD l = true → u.me.standsAt l (s.after i) s.entry.prio s.entry.trap) ∧ othersStay s u

/-- Every active lane goes on. -/
def goesOn (s : State) (i : Instr) (u : State) : Prop := goesOnIn s i u s.entry.mask

/-- The instruction runs to an end of its own at which the machine is `t`, but that the group in issue is `g` but
for what every issue moves; the lanes of `m` go on, and the other active lanes have left the frontier. -/
def State.runsFor (s : State) (i : Instr) (t : State) (g : Group) (m : Mask) : Prop :=
  s.completes i fun u => onlyGroup t u ∧ sameIssue g u.me = g ∧ goesOnIn s i u m ∧
    u.me.frontierMask &&& (s.entry.mask &&& ~~~m) = 0#32

/-- The same where every active lane goes on. -/
def State.runsTo (s : State) (i : Instr) (t : State) (g : Group) : Prop := s.runsFor i t g s.entry.mask

/-- The same where nothing but the group changes. -/
def State.runs (s : State) (i : Instr) (g : Group) : Prop := s.runsTo i s g

/-! ### Destinations -/

/-- A write of `w` registers of destination `o` in the lanes of a mask covers a vector register of a lane (03
Table 3.4; 05 R94). -/
def writesV (o : Opnd) (w : Nat) (m : Mask) (r l : Nat) : Bool :=
  match o with
  | .v d => m.getLsbD l && (r == d.val || (w == 2 && r == d.val + 1))
  | _ => false

/-- It covers a scalar register, if any lane acts (05 R96). -/
def writesS (o : Opnd) (w : Nat) (m : Mask) (r : Nat) : Bool :=
  match o with
  | .s d => m != 0#32 && (r == d.val || (w == 2 && r == d.val + 1))
  | _ => false

/-- Register r of a value whose low half goes to register `d`. -/
def halfOf (d r x : Nat) : Word := BitVec.ofNat 32 (if r = d then x else x >>> 32)

/-- The registers of `u`'s group are those of `g` after such a write of `val l` in each lane l; a scalar takes the
value of the lowest lane, which stands for the group (05 R96), and what is written loses its poison mark (15
R389). -/
def regsWritten (g u : Group) (o : Opnd) (w : Nat) (m : Mask) (val : Nat → Nat) : Prop :=
  (∀ r l, l < 32 → u.vreg r l = if writesV o w m r l then halfOf o.num r (val l) else g.vreg r l) ∧
  (∀ r, u.sreg r = if writesS o w m r then halfOf (o.num - 0xC0) r (val (lowestLane m)) else g.sreg r) ∧
  (∀ r l, l < 32 → u.vPoison r l = (!writesV o w m r l && g.vPoison r l)) ∧
  ∀ r, u.sPoison r = (!writesS o w m r && g.sPoison r)

/-- `b` with its vector and scalar registers and flags as in `a`. -/
def sameRegs (a b : Group) : Group :=
  { b with v := a.v, vBad := a.vBad, s := a.s, sBad := a.sBad, flg := a.flg }

/-- Flags that results raise in some lanes. -/
def flagsOf (ls : List Nat) (f : Nat → Flags) : Flags := ls.foldl (fun a l => a ||| f l) 0#8

/-- The sticky flags after some are raised (02 R35). -/
def flagsRaised (g u : Group) (f : Flags) : Prop := u.flg.setWidth 8 = g.flg.setWidth 8 ||| f

/-- The lanes of a mask that an instruction runs for: one for a scalar destination (05 R96). -/
def ranFor (m : Mask) (o : Opnd) : List Nat := maskLanes (runLanes m o.isS)

/-- The instruction writes destination `o` of `w` registers in its acting lanes with the values of `f`, raises the
flags of `f`, and changes nothing else. -/
def State.writesDst (s : State) (i : Instr) (o : Opnd) (w : Nat) (f : Nat → LaneOut) : Prop :=
  s.completes i fun u => onlyGroup s u ∧ goesOn s i u ∧
    sameIssue (s.begun i).me (sameRegs (s.begun i).me u.me) = (s.begun i).me ∧
    regsWritten s.me u.me o w (s.acting i) (fun l => (f l).val) ∧
    flagsRaised s.me u.me (flagsOf (ranFor (s.acting i) o) fun l => (f l).flags)

/-! ### What the register instructions compute -/

/-- The sources of one lane of the instruction in issue. -/
def State.srcs (s : State) (i : Instr) (l : Nat) : Srcs := laneSrcs s.me s.entry.mask (shapeOfInstr i) i.fields l

/-- A result that raises no flag. -/
def plain (v : Nat) : LaneOut := { val := v }

/-- What an integer instruction with a register result computes in one lane from its sources (05 R97 to R110; 04
R83); none for any other instruction. A base form computes what its extended form does (03 R47). -/
def integerResult (s : State) (i : Instr) (l : Nat) (v : Srcs) : Option LaneOut :=
  let x := i.fields
  let ty := x.ty
  let n := Ty.bits ty
  match i with
  | .movBase _ | .movBaseLit _ _ | .mov _ => some (plain v.a)
  | .moviBase _ | .movi _ => some (plain (if x.mod.getLsbD 5 then x.imm.toNat else wrapNat n x.imm.toInt))
  | .sel _ => some (plain (if (s.me.preg (bits x.aux 3 0)).getLsbD l != x.aux.getLsbD 4 then v.a else v.b))
  | .iaddBase _ | .iaddBaseLit _ _ | .iadd _ => some (plain (mapElems2 ty (· + ·) v.a v.b))
  | .isubBase _ | .isubBaseLit _ _ | .isub _ => some (plain (mapElems2 ty (· - ·) v.a v.b))
  | .imul _ => some (plain (mapElems2 ty (· * ·) v.a v.b))
  | .imulh _ => some (plain (mapElems2 ty (fun a b => a * b / 2 ^ 32) v.a v.b))
  | .imad _ => some (plain (packElems ty fun e => elem ty v.a e * elem ty v.b e + elem ty v.c e))
  | .iminBase _ | .iminBaseLit _ _ | .imin _ => some (plain (mapElems2 ty min v.a v.b))
  | .imaxBase _ | .imaxBaseLit _ _ | .imax _ => some (plain (mapElems2 ty max v.a v.b))
  | .iabs _ => some (iabsOut ty (x.mod.getLsbD 4) v.a)
  | .andBase _ | .andBaseLit _ _ | .and _ => some (plain (v.a &&& v.b))
  | .orBase _ | .orBaseLit _ _ | .or _ => some (plain (v.a ||| v.b))
  | .xorBase _ | .xorBaseLit _ _ | .xor _ => some (plain (v.a ^^^ v.b))
  | .andn _ => some (plain (v.a &&& notBits n v.b))
  | .not _ => some (plain (notBits n v.a))
  | .shlBase _ | .shlBaseLit _ _ | .shl _ => some (plain (shlVal n v.a v.b))
  | .shrBase _ | .shrBaseLit _ _ | .shr _ => some (plain (shrVal n v.a v.b))
  | .sarBase _ | .sarBaseLit _ _ | .sar _ => some (plain (sarVal n v.a v.b))
  | .shrr _ => some (plain (mapElems ty (fun e => shrrVal (Ty.ebits ty) e v.b) v.a))
  | .rot _ => some (plain (rotVal n v.a v.b))
  | .clz _ => some (plain (clzVal n v.a))
  | .popc _ => some (plain (popVal n v.a))
  | .brev _ => some (plain (brevVal n v.a))
  | .bfx _ => some (plain (bfxVal (ty == .i32) v.a v.b))
  | .bfi _ => some (plain (bfiVal v.a v.b v.c))
  | .pmovGet _ => some (plain ((List.range 16).foldl (fun acc k =>
      if (s.me.preg k).getLsbD l then acc + 2 ^ k else acc) 0))
  | .iadds _ => some (satElems ty fun e => elem ty v.a e + elem ty v.b e)
  | .isubs _ => some (satElems ty fun e => elem ty v.a e - elem ty v.b e)
  | .idot2 _ | .idot4 _ => some (idotOut ty v.a v.b v.c)
  | .ipack _ => some (ipackOut ty (x.mod.getLsbD 4) (x.mod.getLsbD 5) v.a v.b)
  | .iunpk _ => some (plain (iunpkVal ty (bits x.aux 0 0) (x.mod.getLsbD 5) v.a))
  | .icvt _ => some (icvtOut ty ((dstTy x).getD .i32) (x.mod.getLsbD 4) v.a)
  | .fclass _ => some (plain (fpClass (fmtOf ty) v.a))
  | _ => none

/-- What a floating-point instruction with a register result computes in one lane (05 R111 to R117; 04 R79 to
R91); none for any other instruction. -/
def floatingResult (s : State) (i : Instr) (l : Nat) (v : Srcs) : Option LaneOut :=
  let x := i.fields
  let ty := x.ty
  let m := s.me.mode
  let rm := rmIn m x
  let z := modeFtz m
  match i with
  | .faddBase _ | .faddBaseLit _ _ | .fadd _ => some (float2 ty (fun f a b => fpAdd f rm z a b) v.a v.b)
  | .fsub _ => some (float2 ty (fun f a b => fpSub f rm z a b) v.a v.b)
  | .fmulBase _ | .fmulBaseLit _ _ | .fmul _ => some (float2 ty (fun f a b => fpMul f rm z a b) v.a v.b)
  | .ffma _ => some (floatElems ty fun e => fpFma (fmtOf ty) rm z (felem ty v.a e) (felem ty v.b e) (felem ty v.c e))
  | .fminBase _ | .fminBaseLit _ _ | .fmin _ => some (float2 ty (fun f a b => fpMinMax f false z a b) v.a v.b)
  | .fmaxBase _ | .fmaxBaseLit _ _ | .fmax _ => some (float2 ty (fun f a b => fpMinMax f true z a b) v.a v.b)
  | .frnd _ => some (float1 ty (fun f a => ftzOut f z (fpRnd f rm z a)) v.a)
  | .fcvt _ => some (fcvtOut m x (opVal s.me x.lit x.a 1 l) v)
  | .fdiv _ => some (float2 ty (fun f a b => fpDiv f rm z a b) v.a v.b)
  | .fsqrt _ => some (float1 ty (fun f a => fpSqrt f rm z a) v.a)
  | .frcp _ => some (transOut .rcp 0x54 m s.me.nbv x v.a)
  | .frsq _ => some (transOut .rsq 0x55 m s.me.nbv x v.a)
  | .fexp2 _ => some (transOut .exp2 0x56 m s.me.nbv x v.a)
  | .flog2 _ => some (transOut .log2 0x57 m s.me.nbv x v.a)
  | .fsinp _ => some (transOut .sinp 0x58 m s.me.nbv x v.a)
  | .fcosp _ => some (transOut .cosp 0x59 m s.me.nbv x v.a)
  | .ftanh _ => some (transOut .tanh 0x5A m s.me.nbv x v.a)
  | .fscale _ => some (float1 ty (fun f a => fpScale f rm z a (signed 32 v.b)) v.a)
  | _ => none

/-! ### Predicates -/

/-- The predicates of `u`'s group are those of `g` after a write, in the lanes of a mask, of those that `ns`
names. -/
def predsWritten (g u : Group) (m : Mask) (ns : Nat → Bool) (val : Nat → Nat → Bool) : Prop :=
  ∀ n l, l < 32 → (u.preg n).getLsbD l = if m.getLsbD l && ns n then val n l else (g.preg n).getLsbD l

/-- `b` with its predicates and flags as in `a`. -/
def samePreds (a b : Group) : Group := { b with p := a.p, flg := a.flg }

/-- What an instruction with a predicate result computes in one lane: the predicates it writes, the value of each,
and the flags (05 R104 to R106, R112); none for any other instruction. -/
def predResult (s : State) (i : Instr) (l : Nat) (v : Srcs) : Option ((Nat → Bool) × (Nat → Bool) × Flags) :=
  let x := i.fields
  let p := fun (n : Nat) => (s.me.preg n).getLsbD l
  let one := fun (n : Nat) => n == x.a.num
  match i with
  | .isetp _ => some (one, fun _ => combine (bits x.aux 5 4) (intCond x.fam (elem x.ty v.a 0) (elem x.ty v.b 0))
      (p (bits x.aux 3 0)), 0#8)
  | .fsetp _ =>
    let r := fpCmp (fmtOf x.ty) x.fam (modeFtz s.me.mode) v.a v.b
    some (one, fun _ => combine (bits x.aux 5 4) r.1 (p (bits x.aux 3 0)), r.2)
  | .plop _ =>
    let b := fun (o : Opnd) => if p o.num then 1 else 0
    some (one, fun _ => x.imm.getLsbD (4 * b x.b + 2 * b x.c + b x.d), 0#8)
  | .pmovPut _ => some (fun n => decide (n < 16) && x.imm.getLsbD n, fun n => v.a.testBit n, 0#8)
  | _ => none

/-! ### Cross-lane results -/

/-- No register of the group carries a poison mark. -/
def Group.unmarked (g : Group) : Prop := (∀ r l, g.vPoison r l = false) ∧ ∀ r, g.sPoison r = false

/-- What a cross-lane instruction with a register result computes in one lane (05 R118 to R126); none for any other
instruction. -/
def crossResult (s : State) (i : Instr) (l : Nat) : Option LaneOut :=
  let x := i.fields
  let g := s.me
  let act := s.entry.mask
  let w := x.ty.regs
  let rd := fun (o : Opnd) (j : Int) => xRead act x.fill x.imm w l j fun k => opVal g x.lit o w k
  let own := opVal g x.lit x.b w l
  let q := voteMask g x &&& s.acting i
  match i with
  | .xshf _ => some (plain (rd x.b (shfIndex g x l)))
  | .xsld _ => some (plain (rd x.b (xIndex x.xm (xStep g x) l)))
  | .xbfl _ =>
    let k := x.xk.toNat
    some (plain (rd (if l.testBit k then x.c else x.b) ((l ^^^ 2 ^ k : Nat) : Int)))
  | .xbcst _ => some (plain (rd x.b (bcstIndex g act x)))
  | .xred _ =>
    let j := l ^^^ stepLanes (xStep g x)
    some (if l < j then redOp g.mode x own (rd x.b j) else redOp g.mode x (rd x.b j) own)
  | .xscan _ =>
    let j := (l : Int) - stepLanes (xStep g x)
    some (if j < 0 then plain own else redOp g.mode x (rd x.b j) own)
  | .xvote _ => if x.fam = 3 then some (plain q.toNat) else none
  | .xffs _ => some (plain (match x.fam with
      | 0 => if q = 0#32 then 0xFFFFFFFF else lowestLane q
      | 1 => if q = 0#32 then 0xFFFFFFFF else highestLane q
      | 2 => maskCount (q &&& maskOf (List.range l))
      | _ => maskCount q))
  | _ => none

/-- Registers that a cross-lane result is written to. -/
def crossWidth (i : Instr) : Nat :=
  match i with
  | .xvote _ | .xffs _ => 1
  | _ => i.fields.ty.regs

/-! ### Matrix results -/

/-- The last value that a list of writes gives a register. -/
def lastWrite (ws : List (Nat × Nat)) (r : Nat) : Option Nat := (ws.reverse.find? fun w => w.1 == r).map (·.2)

/-- What a matrix instruction writes in one lane, as (register, value) pairs, and its flags (06 R142 to R151);
none for any other instruction. -/
def matrixResult (s : State) (i : Instr) (l : Nat) : Option (List (Nat × Nat) × Flags) :=
  let x := i.fields
  let g := s.me
  match i with
  | .mzero _ => some (spread x.a.num (if x.ty = .f64 then 64 else 32) 0, 0#8)
  | .mma _ => some (mulLane g x false false (mulCols g x false) l)
  | .mmas _ => some (mulLane g x true false (mulCols g x true) l)
  | .mmai _ => some (mulLane g x false true (mulCols g x false) l)
  | .had _ => some (hadLane g x l)
  | .qnt _ => some (qntLane g x l)
  | .dqnt _ => some (dqntLane g x l)
  | .fragt _ => some (fragLane g x l)
  | _ => none

/-- The lanes that act fill whole octaves (06 R138); for `FRAGT` they are all lanes (06 R151). -/
def matrixLanes (s : State) (i : Instr) : Prop :=
  match i with
  | .fragt _ => s.acting i = allLanes
  | _ => fullOctaves (s.acting i) = s.acting i

/-! ### Waits and transfers -/

/-- Group `g` held on a wait after an instruction issued in `s`, at the time of `t` (03 R57; 12 R296, R420). -/
def heldOn (s t : State) (i : Instr) (g : Group) (w : Wait) : Group :=
  (g.dropLantern.setWait (some w)).waitsAt t.time s.entry.pc i.op (s.after i) s.entry.prio

/-- The exact target of a transfer in one lane and its priority (03 R49; 12 R298, R299); none for any other
instruction. -/
def transferTo (s : State) (i : Instr) (l : Nat) : Option (Int × Prio) :=
  match i with
  | .braShort x => some (relTarget s.entry.pc x.off.toInt, s.entry.prio)
  | .bra x | .call x => some (relTarget s.entry.pc x.off.toInt, x.prio)
  | .brx x | .callx x => some ((opVal s.me x.lit x.b 2 l : Int), BitVec.ofNat 12 (bits x.imm 11 0))
  | _ => none

/-- The target of a transfer may be taken in every acting lane: it lies in the address range, and an indirect one
is a multiple of 4 in a register without poison (12 R298). -/
def transferOk (s : State) (i : Instr) (tg : Nat → Int × Prio) : Prop :=
  ∀ l ∈ maskLanes (s.acting i), transferTo s i l = some (tg l) ∧ inRange (tg l).1 = true ∧ (tg l).1 % 4 = 0 ∧
    match i with
    | .brx x | .callx x => opBad s.me x.b 2 l = false
    | _ => True

/-- The instruction runs to its own end at `t`, where it waits unless the wait is over at once (03 R57; 09 R222 to
R230); an acquire form takes its boundary as the wait ends (08 Table 8.2). -/
def State.runsToWait (s : State) (i : Instr) (t : State) (g : Group) (w : Wait) : Prop :=
  let r := t.wakeOne s.cur (some w)
  s.runsTo i r.2 (if r.1 then g else heldOn s t i g w)

/-- A form with a boundary before its effect (08 Table 8.2): the state after the boundary. -/
def State.phased (s : State) (yes : Bool) : State := if yes then s.boundary (s.coreOf s.cur) else s

/-- No engine holds a line that such a boundary must commit. -/
def State.mayPhase (s : State) (yes : Bool) : Prop := yes = true → (s.boundaryHeld (s.coreOf s.cur)).isEmpty = true

/-! ### Barriers -/

/-- The group in issue arrives at a named barrier (09 R222). -/
def State.arrived (s : State) (id : Nat) (b : Bar) : State :=
  (s.modTeam s.me.team fun t => t.setBar id { b with arrived := b.arrived ||| laneBit s.me.gid }).turnBars s.me.team

/-- The group that has arrived remembers the phase (09 R223). -/
def arrivedGroup (g : Group) (id : Nat) (b : Bar) : Group := { g with barAt := Sp.put g.barAt id (b.phase + 1) }

/-! ### Accesses through records -/

/-- Where the lanes of an access through a record lead, lane by lane, each with the state after its translation
(09 R204 steps 3 to 5); none if a lane faults. -/
def State.ways (r : RecView) (idx : Nat) (acc : Access) (size : Nat) (at_ : Nat → Int × Int) :
    List Nat → State → Option (List (Nat × Way) × State)
  | [], s => some ([], s)
  | l :: ls, s =>
    match s.laneWay s.cur r idx acc size (at_ l).1 (at_ l).2 with
    | (.bad _, _) => none
    | (w, t) => (State.ways r idx acc size at_ ls t).map fun p => ((l, w) :: p.1, p.2)

/-- The flag of an access some of whose lanes are out of bounds (09 R204 step 3). -/
def oobFlag (ws : List (Nat × Way)) : Flags := flagIf (ws.any fun w => w.2 == .oob) flagOob

/-- No operand of an access is poisoned in the lanes of a mask. -/
def cleanOps (g : Group) (m : Mask) (ops : List (Opnd × Nat)) : Prop :=
  ∀ l ∈ maskLanes m, firstPoison g l ops = none

/-- A write of `n` consecutive registers of destination `o` covers a vector register of a lane. -/
def coversV (o : Opnd) (n : Nat) (m : Mask) (r l : Nat) : Bool :=
  match o with
  | .v d => m.getLsbD l && decide (d.val ≤ r) && decide (r < d.val + n)
  | _ => false

/-- It covers a scalar register. -/
def coversS (o : Opnd) (n : Nat) (m : Mask) (r : Nat) : Bool :=
  match o with
  | .s d => m != 0#32 && decide (d.val ≤ r) && decide (r < d.val + n)
  | _ => false

/-- The registers of `u` are those of `g` after a write of `n` consecutive registers, register 0 lowest, in the lanes
of a mask (09 R207). -/
def rangeWritten (g u : Group) (o : Opnd) (n : Nat) (m : Mask) (val : Nat → Nat) : Prop :=
  (∀ r l, l < 32 → u.vreg r l =
    if coversV o n m r l then BitVec.ofNat 32 (val l >>> (32 * (r - o.num))) else g.vreg r l) ∧
  (∀ r, u.sreg r = if coversS o n m r then BitVec.ofNat 32 (val (lowestLane m) >>> (32 * (r + 0xC0 - o.num)))
    else g.sreg r) ∧
  (∀ r l, l < 32 → u.vPoison r l = (!coversV o n m r l && g.vPoison r l)) ∧
  ∀ r, u.sPoison r = (!coversS o n m r && g.sPoison r)

/-- The value of a lane in a list. -/
def valueOf {α : Type} (d : α) (vs : List (Nat × α)) (l : Nat) : α := ((vs.find? fun p => p.1 == l).map (·.2)).getD d

/-- What core `c` reads at a physical address: its L1 copy, else its own pending byte, else what has been committed
(08 R174, R177, R185), and nothing that another owner left (14 R353). -/
def State.seen (s : State) (c pa : Nat) : Byte :=
  match Sp.get? (s.core c).l1 (lineOf pa) with
  | some k => (s.l1Bytes k pa 1).headD 0#8
  | none => s.missByte c pa

/-! ### Scratchpad, records at run time, texels -/

/-- What the scratchpad of a team holds after stores of `n` bytes by some lanes in turn (09 R213). -/
def scrStores (off : Nat → Nat) (n : Nat) (data : Nat → Nat) (ls : List Nat) (t : Team) : Team :=
  ls.foldl (fun t l => t.scrWrite (off l) (toBytes n (data l)) false) t

/-- The read-modify-writes of some lanes in turn: the scratchpad after them, and the old values (09 R217). -/
def scrAtoms (off : Nat → Nat) (n : Nat) (f : Nat → Nat → Nat) : List Nat → Team → Team × List (Nat × Nat)
  | [], t => (t, [])
  | l :: ls, t =>
    let old := ofBytes (t.scrBytes (off l) n)
    let q := scrAtoms off n f ls (t.scrWrite (off l) (toBytes n (f l old)) false)
    (q.1, (l, old) :: q.2)

/-- The texels that some lanes read, each with its weight; none where a lane faults or waits, or a texel is
poisoned (13 R341). -/
def State.texels (r : RecView) (idx : Nat) (taps : Nat → List (Nat × Nat × Nat)) :
    List Nat → State → Option (List (Nat × List (Nat × List Byte)) × State)
  | [], s => some ([], s)
  | l :: ls, s =>
    match readTaps s.cur r idx (texelBytes r.format) (taps l) s with
    | .ok ts false t => (State.texels r idx taps ls t).map fun p => ((l, ts) :: p.1, p.2)
    | _ => none

/-! ### Engine operations -/

/-- An operation that the instruction in issue starts. -/
def State.opFor (s : State) (i : Instr) (k : OpKind) : AsyncOp :=
  { kind := k, group := s.cur, team := s.me.team, launch := (s.teamOf s.cur).launch, core := s.coreOf s.cur,
    gid := s.me.gid, op := i.op, at_ := s.time, pc := s.entry.pc }

/-- What each of some lanes copies at an `ACP` of `n l` bytes from byte and row `at_ l` to offset `dst l`, whether
some lane is out of bounds, and the state after the reads; none where a lane faults or waits (09 R229). -/
def State.copies (r : RecView) (ssize : Nat) (dst n : Nat → Nat) (at_ : Nat → Int × Int) :
    List Nat → State → Option (List AcpLane × Bool × State)
  | [], s => some ([], false, s)
  | l :: ls, s =>
    let zeros : AcpLane := ⟨dst l, List.replicate 32 0#8, false⟩
    if dst l % 32 ≠ 0 ∨ ssize < dst l + 32 then none
    else if n l = 0 then (State.copies r ssize dst n at_ ls s).map fun p => (zeros :: p.1, p.2)
    else if !r.inside (at_ l).1 (at_ l).2 (n l) then
      if r.oobTrap then none
      else (State.copies r ssize dst n at_ ls s).map fun p => (zeros :: p.1, true, p.2.2)
    else match loadPieces s.cur r (spanPieces r (at_ l).1.toNat (at_ l).2.toNat (n l)) s with
      | .ok bs bad t => (State.copies r ssize dst n at_ ls t).map fun p =>
          (⟨dst l, bs ++ List.replicate (32 - n l) 0#8, bad⟩ :: p.1, p.2)
      | _ => none

/-! ### Strips and firmware calls -/

/-- The launch of the group in issue belongs to an instance, and the record that AUX names is a ring of its stream
(13 R323, R334): the instance, the stream, and whether it is the output ring. -/
def State.ringOf (s : State) (x : XForm) : Option (Nat × Nat × Bool) :=
  let v := recView (s.me.breg (auxRec x))
  match s.instOf s.cur with
  | some k => if (s.ringFault s.cur v (auxRec x)).isNone then some (k, v.base % 64, v.base / 64 % 2 == 1) else none
  | none => none

/-- The place of a lane in a strip, if it lies within the line and among the lines [lo, hi) (13 R337). -/
def stripPlace (g : Group) (x : XForm) (lo hi : Int) (l : Nat) : Option (Nat × Int) :=
  let p := stripAt g x l
  if 0 ≤ p.1 ∧ p.1 + accessSize x ≤ (recView (g.breg (auxRec x))).extentX ∧ lo ≤ p.2 ∧ p.2 < hi then
    some (p.1.toNat, p.2) else none

/-- The duties of `FENCE.sys` on the core of the group in issue (08 Table 8.3). -/
def State.fenced (s : State) : State :=
  let c := s.coreOf s.cur
  ((s.boundary c).mergeCore c (((s.boundary c).core c).wroteLine s.cur)).commitPeers c

/-- Nothing keeps that fence waiting. -/
def State.mayFence (s : State) : Prop :=
  let c := s.coreOf s.cur
  let b := s.boundary c
  s.ioPending s.cur = false ∧ (s.boundaryHeld c).isEmpty = true ∧
    (∀ p ∈ (b.core c).upd, (b.core c).wroteLine s.cur p = true → b.isOwned (lineOf p.addr) = false) ∧
    ((b.mergeCore c ((b.core c).wroteLine s.cur)).peersHeld c).isEmpty = true

/-- The service of a firmware call, the arguments it demands, and whether the launch may call it (14 R358, R359; 13
R324); none for any other instruction. -/
def serviceOf (s : State) (i : Instr) : Option (Nat × Bool × (State → Nat → List Nat → Served)) :=
  let free := !s.confined (s.teamOf s.cur).launch
  match i with
  | .fwcallQuery _ => some (1, true, serveQuery)
  | .fwcallPin _ => some (4, free, servePin)
  | .fwcallTier _ => some (4, free, serveTier)
  | .fwcallDomain _ => some (1, true, serveDomain)
  | .fwcallAttest _ => some (3, free, serveAttest)
  | .fwcallQueue _ => some (2, free && (s.launchOf s.cur).admin, serveQueue)
  | .fwcallUnknown _ => some (0, free, fun t _ _ => { status := 1, s := t })
  | _ => none

/-! ### Packets -/

/-- A queue's next packet has been read under the next new number (12 R273). -/
def State.packetRead (s : State) (q : Nat) (bs : List Byte) (parent : Option Nat) : State :=
  let t := s.stepQueue q
  let p : Packet := { queue := q, index := s.indexOf q parent, bytes := bs, parent := parent }
  { t with serial := s.serial + 1, packets := Sp.put t.packets s.serial p }

/-! ### The refinement controller -/

/-- A group after its arrival at the team's next run (07 R157). -/
def arrivedAtRun (s : State) (g : Group) : Group :=
  if g.rlArrived then g else { g with rlArrived := true, rlOrder := s.serial }

/-- The lanes of a call leave it (07 R158): the group's `u` after, of `g` before. -/
def leftCall (s : State) (g u : Group) (m : Mask) : Prop :=
  u.rlIn = g.rlIn &&& ~~~m ∧
  (∀ l, l < 32 → Sp.get [] u.rets l = if m.getLsbD l then
    (Sp.get [] g.rets l).drop ((Sp.get [] g.rets l).length - Sp.get 0 g.rlDepth l) else Sp.get [] g.rets l) ∧
  u.rl = g.rl.map (fun c => if (c.mask &&& m) = 0#32 then c else { c with since := s.time }) ∧
  sameIssue g { u with rlIn := g.rlIn, rets := g.rets, rl := g.rl, lantern := g.lantern,
                       lanternIdle := g.lanternIdle } = g

/-! ### Exceptions -/

/-- The record of lanes `m` that the instruction in issue faults alike (15 Table 15.2). -/
def State.recordOf (s : State) (i : Instr) (m : Mask) (f : Flt) : FaultRec :=
  { cause := f.cause, mixed := false, async := false, done := false, op := i.op, mask := m, pc := s.entry.pc,
    vline := f.vline, prio := s.entry.prio, recIdx := f.recIdx, aux := f.aux }

/-- The registers of a group as before, flags apart. -/
def sameFile (a b : Group) : Prop :=
  b.v = a.v ∧ b.vBad = a.vBad ∧ b.s = a.s ∧ b.sBad = a.sBad ∧ b.p = a.p ∧ b.b = a.b ∧ b.lc = a.lc ∧ b.k = a.k ∧
    b.t = a.t ∧ b.mode = a.mode ∧ b.nbv = a.nbv

/-- `exec` raises an exception on lanes `m` for one reason, after flags `fl` have been raised; no register is written
and the other active lanes go on. In trap mode, or without a handler, the lanes are killed and their record goes to
the owner's error log (15 R374). Else the record is written to the group's fault area (15 R371) and the lanes wait
behind the sub-groups that wait already; the oldest enters trap mode at the handler, unless one is in it or the team
is halted (15 R373). -/
def State.excepts (s : State) (i : Instr) (m : Mask) (f : Flt) (fl : Flags) : Prop :=
  let l := (s.teamOf s.cur).launch
  let x := s.launch l
  let r := s.recordOf i m f
  ∃ u, exec i s = .next (u.settle s.cur) ∧ sameFile s.me u.me ∧ flagsRaised s.me u.me fl ∧
    goesOnIn s i u (s.entry.mask &&& ~~~m) ∧
    if s.entry.trap || !x.hasHandler then
      (∀ j ∈ maskLanes m, u.me.alive.getLsbD j = false ∧ u.me.gone.getLsbD j = true) ∧
      u.fw.errLog = s.fw.errLog ++ [⟨x.owner, r⟩] ∧ (u.launch l).faults = x.faults + 1 ∧ (u.launch l).err = true ∧
      (u.launch l).cause = firstCause x.cause f.cause
    else
      let q := s.me.subs ++ [⟨r, []⟩]
      Sp.read 0#8 (u.team s.me.team).faultArea (recordOff (s.teamOf s.cur) s.me m) 32 = r.bytes ∧
      if s.me.trap.isSome || (s.teamOf s.cur).frozen s.me.gid then u.me.trap = s.me.trap ∧ u.me.subs = q
      else u.me.subs = q.tail ∧ u.me.trap = q.head? ∧ (u.launch l).faults = x.faults + 1 ∧
        ∀ h, q.head? = some h → ∀ j, h.frec.mask.getLsbD j = true → u.me.standsAt j x.handlerPc x.handlerPrio true

/-- The group in issue has an entry of some lanes, and the instruction is one that a word encodes, that is well formed
and that names declared registers only (03 R61; 02 R30). -/
def State.legal (s : State) (i : Instr) : Bool :=
  s.me.issueEntry.isSome && i.wf && countsOk s.me ((shapeOfInstr i).uses i.fields)

/-- No step trap follows (15 R378). -/
def State.unstepped (s : State) : Prop := s.me.step = false ∨ s.entry.trap = true

/-- The lanes that a fault of an instruction with destination `a` takes: all active lanes where it is a scalar (05
R96), else those that act. -/
def State.faulters (s : State) (i : Instr) : Mask := if i.fields.a.isS then s.entry.mask else s.acting i

end Sys2Proof.Machine
end

