-- ==== Sys2Proof/Certificates/Slice0/Obligations.lean ====
section
/-! DEFINITION. The statements for the provers. -/

open Sys2Proof Sys2Proof.Machine

/-- INTEGER AND FLOATING-POINT RESULTS (05 R95 to R117; 03 R43, R47, R61; 04 R85). Every integer instruction with
a register result, in its base and extended forms, runs to its own end when the group may execute it and no source of an
acting lane is poisoned, and so does every floating-point instruction when none of the conditions that it meets in a lane
it runs for has its trap enabled: the destination takes the result in the acting lanes only (a scalar destination that of
the lowest acting lane, code 0xF0 nothing), the written registers lose their poison marks, the flags that the results
raise are set and no flag is cleared, and everything else of the machine is as before.
(The model's readings here: log entries 8 and 14.) -/
def Obligations.ArithmeticResults : Prop :=
  (∀ (s : State) (i : Instr) (f : Nat → LaneOut), s.admits i = true → s.clean i = true →
    (∀ l, integerResult s i l (s.srcs i l) = some (f l)) →
    s.writesDst i i.fields.a (dstWidth (shapeOfInstr i)) f) ∧
  (∀ (s : State) (i : Instr) (f : Nat → LaneOut), s.admits i = true → s.clean i = true →
    (∀ l, floatingResult s i l (s.srcs i l) = some (f l)) →
    (∀ l ∈ ranFor (s.acting i) i.fields.a, trapped s.me.mode (f l).flags = 0#8) →
    s.writesDst i i.fields.a (dstWidth (shapeOfInstr i)) f)

/-- PREDICATE RESULTS (05 R100, R104 to R106, R112). `ISETP`, `FSETP`, `PLOP` and `PMOV.put` write their predicates in
the acting lanes and nothing else but the flags that they raise. `IADDC` writes the low 32 bits of a + b + carry-in to its
destination and the carry-out to the predicate that IMM16[3:0] names, in the acting lanes; the carry-in of every lane is
the predicate's value before. -/
def Obligations.PredicateAndCarryResults : Prop :=
  (∀ (s : State) (i : Instr) (ns : Nat → Bool) (val : Nat → Nat → Bool) (fl : Nat → Flags),
    s.admits i = true → s.clean i = true →
    (∀ l, predResult s i l (s.srcs i l) = some (ns, fun n => val n l, fl l)) →
    (∀ l ∈ maskLanes (s.acting i), trapped s.me.mode (fl l) = 0#8) →
    s.completes i fun u => onlyGroup s u ∧ goesOn s i u ∧
      sameIssue (s.begun i).me (samePreds (s.begun i).me u.me) = (s.begun i).me ∧
      predsWritten s.me u.me (s.acting i) ns val ∧ flagsRaised s.me u.me (flagsOf (maskLanes (s.acting i)) fl)) ∧
  (∀ (s : State) (x : XForm), s.admits (.iaddc x) = true → s.clean (.iaddc x) = true →
    let sum := fun l => (s.srcs (.iaddc x) l).a + (s.srcs (.iaddc x) l).b +
      (if (s.me.preg (bits x.aux 3 0)).getLsbD l then 1 else 0)
    s.completes (.iaddc x) fun u => onlyGroup s u ∧ goesOn s (.iaddc x) u ∧
      sameIssue s.me (sameRegs s.me (samePreds s.me u.me)) = s.me ∧
      (∀ r l, l < 32 → u.me.vreg r l =
        if writesV x.a 1 (s.acting (.iaddc x)) r l then BitVec.ofNat 32 (sum l % 2 ^ 32) else s.me.vreg r l) ∧
      (∀ r l, l < 32 → u.me.vPoison r l = (!writesV x.a 1 (s.acting (.iaddc x)) r l && s.me.vPoison r l)) ∧
      (∀ r, u.me.sreg r = s.me.sreg r ∧ u.me.sPoison r = s.me.sPoison r) ∧
      predsWritten s.me u.me (s.acting (.iaddc x)) (fun n => n == bits x.imm 3 0) (fun _ l => decide (2 ^ 32 ≤ sum l)) ∧
      u.me.flg.setWidth 8 = s.me.flg.setWidth 8)

/-- CROSS-LANE RESULTS (05 R118 to R126). A cross-lane instruction with a register result, when no register carries a
poison mark, gives each acting lane the value that it reads across the lanes; `XVOTE` with a predicate result writes it in
the acting lanes, which are the voters: all of them, any of them, or all alike. Nothing else changes. -/
def Obligations.CrossLaneResults : Prop :=
  (∀ (s : State) (i : Instr) (f : Nat → LaneOut), s.admits i = true → s.me.unmarked →
    (∀ l, crossResult s i l = some (f l)) → s.writesDst i i.fields.a (crossWidth i) f) ∧
  (∀ (s : State) (x : XForm), s.admits (.xvote x) = true → x.fam ≠ 3 →
    let vs := s.acting (.xvote x)
    let q := voteMask s.me x &&& vs
    let r := if x.fam = 0 then q == vs else if x.fam = 1 then q != 0#32 else q == vs || q == 0#32
    s.completes (.xvote x) fun u => onlyGroup s u ∧ goesOn s (.xvote x) u ∧
      sameIssue s.me { u.me with p := s.me.p } = s.me ∧
      predsWritten s.me u.me vs (fun n => n == x.a.num) (fun _ _ => r))

/-- MATRIX INSTRUCTIONS (06 R138, R139, R142 to R151). A group that holds a lantern (or needs none because the device has
no lantern pool in use), with whole octaves acting and no poisoned register, runs a matrix instruction to its end: each
acting lane takes the values that the instruction computes from the registers before it, every other register, and every
register of every other lane, is as before, and the group's count of idle cycles starts again. A group without a lantern,
where lanterns are in use, parks with none of the effect, asks for one, and issues the instruction again later.
(The model's readings here: log entries 53 and 54.) -/
def Obligations.MatrixInstructions : Prop :=
  (∀ (s : State) (i : Instr) (ws : Nat → List (Nat × Nat)) (fl : Nat → Flags),
    s.admits i = true → s.me.unmarked → (s.fw.lanternsOn = true → s.me.lantern = true) → matrixLanes s i →
    (∀ l, matrixResult s i l = some (ws l, fl l)) →
    s.completes i fun u => onlyGroup s u ∧ goesOn s i u ∧
      sameIssue s.me { sameRegs s.me u.me with lanternIdle := s.me.lanternIdle } = s.me ∧ u.me.lanternIdle = 0 ∧
      (∀ r l, l < 32 → u.me.vreg r l =
        if (s.acting i).getLsbD l then ((lastWrite (ws l) r).map (BitVec.ofNat 32)).getD (s.me.vreg r l) else s.me.vreg r l) ∧
      (∀ r l, l < 32 → u.me.vPoison r l = false) ∧ (∀ r, u.me.sreg r = s.me.sreg r ∧ u.me.sPoison r = false) ∧
      flagsRaised s.me u.me (flagsOf (maskLanes (s.acting i)) fl)) ∧
  (∀ (s : State) (i : Instr) (w : List (Nat × Nat) × Flags), s.admits i = true → s.fw.lanternsOn = true →
    s.me.lantern = false → matrixResult s i 0 = some w →
    ∃ t, exec i s = .next t ∧ onlyGroup s t ∧ t.me.curPark = some .lantern ∧ t.me.lanternAsk = s.serial ∧
      t.serial = s.serial + 1 ∧ t.me.frontier = s.me.frontier ∧ t.me.v = s.me.v ∧ t.me.flg = s.me.flg)

/-- CONTROL WITHOUT A TRANSFER (03 R40; 12 R290, R305, R306). `NOP` only goes on; `YIELD` makes the group the
latest started; `IDEME` closes the idempotent region and `IDEMB` opens one, with its
restart record, where the group's one frontier entry holds every live lane and the launch is not write-confined;
`SLEEP` goes on when its target has been reached and holds the group on it otherwise. Without an acting lane each, and `CSET`, only
goes on. Nothing else changes. (The model's readings here: log entry 16.) -/
def Obligations.PlainControl : Prop :=
  ∀ (s : State) (i : Instr), s.admits i = true →
    match i with
    | .nopBase _ | .nop _ => s.runs i s.me
    | .yieldBase _ | .yield _ =>
      s.runs i (if s.acting i = 0#32 then s.me else { s.me with started := s.serial, aging := 0 })
    | .cset _ => s.acting i = 0#32 → s.runs i s.me
    | .ideme _ => s.runs i (if s.acting i = 0#32 then s.me else { s.me with region := none })
    | .idemb x => bits x.imm 7 0 ≤ s.me.nv → bits x.imm 13 8 ≤ s.me.ns →
      s.runs i (if s.acting i ≠ 0#32 ∧ s.me.frontier.length = 1 ∧ s.me.parkedMask = 0#32 ∧
          s.confined (s.teamOf s.cur).launch = false
        then { s.me with region := some (s.me.restartRecord s.entry.pc s.entry.prio s.entry.mask (bits x.imm 7 0)
          (bits x.imm 13 8)) } else s.me)
    | .sleep x => s.acting i ≠ 0#32 → opBad s.me x.b 2 0 = false →
      let v := uniVal s.me x x.b 2
      let ends := fun (t : State) (n : Nat) =>
        let till := BitVec.ofNat 64 (min n (2 ^ 64 - 1))
        s.runsTo i t (if t.reached till then t.me else heldOn s t i t.me (.sleep till))
      if x.mod.getLsbD 5 then
        ∀ p t, s.deliverTime s.cur 1 s.entry.pc = .use p t → t.cur = s.cur → ends t (v + ofBytes (p.take 8))
      else ends s v
    | _ => True

/-- BRANCHES (03 R49; 12 R298, R303). Every acting lane of `BRA` (short and extended) and `BRX` stands at its exact
target with the branch's priority, when the target may be taken and leaves no loop of the lane; the other active lanes
go on, and nothing else changes. (The model's readings here: log entries 16 and 18.) -/
def Obligations.Branches : Prop :=
  ∀ (s : State) (i : Instr) (tg : Nat → Int × Prio), s.admits i = true →
    (match i with
      | .braShort _ | .bra _ | .brx _ => True
      | _ => False) →
    transferOk s i tg →
    (∀ l ∈ maskLanes (s.acting i), (s.me.escapes s.entry.pc (laneBit l) (tg l).1) = 0#32) →
    s.completes i fun u => onlyGroup s u ∧ sameIssue s.me u.me = s.me ∧
      goesOnIn s i u (s.entry.mask &&& ~~~s.acting i) ∧
      ∀ l ∈ maskLanes (s.acting i), u.me.standsAt l (BitVec.ofInt 57 (tg l).1) (tg l).2 s.entry.trap

/-- CALLS (12 R299, R306). Every acting lane of `CALL` and `CALLX` pushes the next sequential PC with its priority and
stands at its target, when the target may be taken and its stack has fewer than 16 entries; the other active lanes go
on. A call out of an open idempotent region closes it; nothing else changes.
(The model's readings here: log entry 16.) -/
def Obligations.Calls : Prop :=
  ∀ (s : State) (i : Instr) (tg : Nat → Int × Prio), s.admits i = true →
    (match i with
      | .call _ | .callx _ => True
      | _ => False) →
    transferOk s i tg →
    (∀ l ∈ maskLanes (s.acting i), (Sp.get [] s.me.rets l).length < 16) →
    s.completes i fun u => onlyGroup s u ∧
      sameIssue s.me { u.me with rets := s.me.rets, region := s.me.region } = s.me ∧
      u.me.region = s.me.region.filter (fun r =>
        !(s.regionHas (s.launchOf s.cur).asid r s.entry.pc && !s.regionHas (s.launchOf s.cur).asid r (s.after i))) ∧
      (∀ l, l < 32 → Sp.get [] u.me.rets l = if (s.acting i).getLsbD l then
        ⟨s.after i, s.entry.prio⟩ :: Sp.get [] s.me.rets l else Sp.get [] s.me.rets l) ∧
      goesOnIn s i u (s.entry.mask &&& ~~~s.acting i) ∧
      ∀ l ∈ maskLanes (s.acting i), u.me.standsAt l (BitVec.ofInt 57 (tg l).1) (tg l).2 s.entry.trap

/-- RETURNS (12 R299). Every acting lane of `RET` whose stack is not empty takes its top entry: it stands there (parked,
where that is the end of its innermost loop) and the entry is gone. The other active lanes go on; nothing else
changes. (The model's readings here: log entry 18.) -/
def Obligations.Returns : Prop :=
  ∀ (s : State) (i : Instr) (e : Nat → RetEntry) (r : Nat → List RetEntry), s.admits i = true →
    (match i with
      | .retBase _ | .ret _ => True
      | _ => False) →
    (∀ l ∈ maskLanes (s.acting i), Sp.get [] s.me.rets l = e l :: r l) →
    s.completes i fun u => onlyGroup s u ∧ sameIssue s.me { u.me with rets := s.me.rets } = s.me ∧
      (∀ l, l < 32 → Sp.get [] u.me.rets l = if (s.acting i).getLsbD l then r l else Sp.get [] s.me.rets l) ∧
      goesOnIn s i u (s.entry.mask &&& ~~~s.acting i) ∧
      ∀ l ∈ maskLanes (s.acting i), u.me.standsAt l (e l).pc (e l).prio s.entry.trap

/-- EXIT AND CONVERGENCE (12 R300, R302; 07 R163). The acting lanes of `EXIT` leave the group for good: after it no entry
of the frontier, no park and no loop holds them, their return stacks are gone, and they count as gone; in trap mode the
refinement run they were in is marked as faulted. The acting lanes of `CONV`, all of them in the mask that it names, leave
the frontier and park there with the position and the priority at which they will go on. The other active lanes go on, and
nothing else changes. (The model's readings here: log entry 17.) -/
def Obligations.ExitAndConvergence : Prop :=
  (∀ (s : State) (i : Instr), s.admits i = true →
    (match i with
      | .exitBase _ | .exit _ => True
      | _ => False) →
    let m := s.acting i
    s.completes i fun u => onlyGroup (if s.entry.trap then s.markRun s.cur m else s) u ∧
      sameIssue (s.me.removeLanes m) u.me = s.me.removeLanes m ∧ goesOnIn s i u (s.entry.mask &&& ~~~m) ∧
      ∀ l ∈ maskLanes m, u.me.alive.getLsbD l = false ∧ u.me.gone.getLsbD l = true ∧ Sp.get [] u.me.rets l = [] ∧
        ∀ d ∈ u.me.loops, d.set.getLsbD l = false) ∧
  (∀ (s : State) (x : XForm), s.admits (.conv x) = true →
    s.acting (.conv x) &&& ~~~s.me.kreg x.aux.toNat = 0#32 →
    s.runsFor (.conv x) s
      (if s.acting (.conv x) = 0#32 then s.me else { s.me with conv := s.me.conv ++ [⟨s.acting (.conv x), 0#32,
        x.aux.toNat, s.entry.pc, s.after (.conv x), BitVec.ofNat 12 (bits x.imm 11 0), s.time⟩] })
      (s.entry.mask &&& ~~~s.acting (.conv x)))

/-- LOOPS (12 R303, R304, R306). `LOOP` with a free counter, fewer than three loops and a body of at most 256
instructions writes its counter; with a count of zero its acting lanes go to the end of the body, else the group runs a
new loop over them and they go on. The acting lanes of `LBRK`, each in a loop, leave its set and go to its end.
(The model's readings here: log entries 16 and 18.) -/
def Obligations.Loops : Prop :=
  ∀ (s : State) (i : Instr), s.admits i = true →
    match i with
    | .loop x =>
      let c := x.aux.toNat
      let stop := s.after i + BitVec.ofNat 57 (4 * x.imm.toNat)
      let n := uniVal s.me x x.b 1
      s.acting i ≠ 0#32 → s.me.loops.any (fun d => d.ctr == c) = false → s.me.loops.length < 3 →
      s.countCode (s.launchOf s.cur).asid 257 (s.after i).toNat stop.toNat ≤ 256 → opBad s.me x.b 1 0 = false →
      s.completes i fun u => onlyGroup s u ∧
        sameIssue s.me { u.me with lc := s.me.lc, region := s.me.region } = s.me ∧
        u.me.lc = Sp.set 0#32 s.me.lc c (BitVec.ofNat 32 n) ∧
        if n = 0 then goesOnIn s i u (s.entry.mask &&& ~~~s.acting i) ∧
          ∀ l ∈ maskLanes (s.acting i), u.me.standsAt l stop s.entry.prio s.entry.trap
        else goesOn s i u ∧ ∃ d ∈ u.me.loops, d.ctr = c ∧ d.top = s.after i ∧ d.stop = stop ∧ d.prio = s.entry.prio ∧
          d.set = s.acting i
    | .lbrk _ =>
      (∀ l ∈ maskLanes (s.acting i), (s.me.innermost l).isSome = true) →
      s.completes i fun u => onlyGroup s u ∧ sameIssue s.me u.me = s.me ∧
        goesOnIn s i u (s.entry.mask &&& ~~~s.acting i) ∧
        ∀ l ∈ maskLanes (s.acting i), ∃ d, s.me.innermost l = some d ∧ u.me.standsAt l d.stop d.prio s.entry.trap ∧
          ∀ e ∈ u.me.loops, e.ctr = d.ctr → e.set.getLsbD l = false
    | _ => True

/-- BARRIERS (09 R222, R223, R225; 08 Table 8.2). With its operands free of poison and a barrier that the team has,
`BARI` sets the expected count of an idle barrier, `BARA` arrives, `BAR` arrives and waits for this phase, and `BARW` waits
for the phase in which the group arrived last; a release form takes a phase boundary before the arrival, an acquire form
one after the wait. `CBAR` makes the group arrive for its team and waits for the cluster's phase to end. Nothing else
changes. (The model's readings here: log entries 16 and 19.) -/
def Obligations.TeamAndClusterBarriers : Prop :=
  (∀ (s : State) (i : Instr), s.admits i = true → s.acting i ≠ 0#32 → opBad s.me i.fields.b 1 0 = false →
    let x := i.fields
    let id := uniVal s.me x x.b 1 + x.imm.toNat
    let b := (s.teamOf s.cur).bar id
    let t := s.begun i
    let rel := x.mod.getLsbD 5
    let acq := x.mod.getLsbD 6
    id < (s.teamOf s.cur).nbars →
    match i with
    | .bari _ =>
      let n := uniVal s.me x x.c 1
      opBad s.me x.c 1 0 = false → 1 ≤ n → n ≤ 48 → b.arrived = 0#32 →
      s.runsTo i (t.modTeam s.me.team fun u => u.setBar id { b with expected := n, dflt := false }) t.me
    | .bara _ =>
      b.here s.me.gid = false → t.mayPhase rel →
      s.runsTo i ((t.phased rel).arrived id b) (arrivedGroup t.me id b)
    | .bar _ =>
      b.here s.me.gid = false → t.mayPhase rel →
      s.runsToWait i ((t.phased rel).arrived id b)
        { t.me with barAt := Sp.del (Sp.put t.me.barAt id (b.phase + 1)) id } (.barrier id b.phase acq)
    | .barw _ =>
      Sp.has s.me.barAt id = true →
      s.runsToWait i t { t.me with barAt := Sp.del t.me.barAt id } (.barrier id (Sp.get 0 s.me.barAt id - 1) acq)
    | _ => True) ∧
  (∀ (s : State) (x : XForm), s.admits (.cbar x) = true → s.acting (.cbar x) ≠ 0#32 →
    let t := s.begun (.cbar x)
    let tm := s.teamOf s.cur
    s.runsToWait (.cbar x)
      ((t.modTeam s.me.team fun u => { u with cbar := u.cbar ||| laneBit s.me.gid }).turnCluster s.me.team) t.me
      (.cbar (Sp.get {} s.clusters (clusterKey tm.launch tm.clz)).phase))

/-- COMPLETION OBJECTS (09 R227, R228; 08 Table 8.2). At an aligned offset inside the scratchpad of the team that the
selector names, with its sectors present and operands free of poison: `OBJI` initialises the object, `OBJA` announces
bytes and arrives, `OBJW` waits while PHASE has a value, and `OBJT` writes in the acting lanes whether PHASE has left
it. Nothing else changes. (The model's readings here: log entries 16 and 19.) -/
def Obligations.Objects : Prop :=
  ∀ (s : State) (i : Instr) (tn : Nat), s.admits i = true → s.acting i ≠ 0#32 →
    let x := i.fields
    let off := uniVal s.me x x.b 1 + x.imm.toNat
    let c := uniVal s.me x x.c 1
    let o := (s.team tn).obj off
    let t := s.begun i
    opBad s.me x.b 1 0 = false → opBad s.me x.c 1 0 = false → off % 16 = 0 → off + 16 ≤ (s.team tn).ssize →
    ((s.team tn).scrAbsent off 16).isEmpty = true →
    match i with
    | .obji _ => tn = s.me.team → 1 ≤ c → c ≤ 4095 →
      let v := (t.modTeam tn fun u =>
        { u.setObj off ⟨0, 0, c, c, 0, 0⟩ with engNow := Sp.set false u.engNow off false }).wakeTeam tn
      s.runsTo i v v.me
    | .obja _ => s.selLegal x.aux = true → s.scrTeam s.me.team x.aux = some tn → o.rsvd = 0 → o.left ≠ 0 →
      t.mayPhase (x.mod.getLsbD 5) →
      let v := ((t.phased (x.mod.getLsbD 5)).modTeam tn fun u => u.changeObj off (o.announce c) false).wakeTeam tn
      s.runsTo i v v.me
    | .objw _ => tn = s.me.team → o.rsvd = 0 → c < 4 →
      s.runsToWait i t t.me (.object off (BitVec.ofNat 2 c) (x.mod.getLsbD 6))
    | .objt _ => tn = s.me.team → o.rsvd = 0 → c < 4 →
      s.completes i fun u => onlyGroup t u ∧ goesOn s i u ∧ sameIssue t.me { u.me with p := t.me.p } = t.me ∧
        predsWritten s.me u.me (s.acting i) (fun n => n == x.a.num) (fun _ _ => decide (o.phase ≠ c))
    | _ => True

/-- PATTERN TABLES (05 R128, R129). `XPLD`, with an aligned block of 256 readable bytes of well-formed entries in the
scratchpad and a table that the team has, loads the table; `XPAT` writes, in every acting lane, each register of the
range with the word that its entry builds, 0 where the entry names no active lane. -/
def Obligations.PatternTables : Prop :=
  ∀ (s : State) (i : Instr), s.admits i = true → i.fields.aux.toNat < (s.teamOf s.cur).npats →
    let x := i.fields
    let tab := x.aux.toNat
    let tm := s.teamOf s.cur
    match i with
    | .xpld _ =>
      let off := uniVal s.me x x.b 1 + x.imm.toNat
      let bs := tm.scrBytes off 256
      s.acting i ≠ 0#32 → opBad s.me x.b 1 0 = false → off % 32 = 0 → off + 256 ≤ tm.ssize →
      (tm.scrAbsent off 256).isEmpty = true → tm.scrPoison off 256 = false →
      ((List.range 32).any fun l => patBad (ofBytes ((bs.drop (8 * l)).take 8))) = false →
      s.runsTo i (s.modTeam s.me.team fun t => t.loadPattern tab bs) s.me
    | .xpat _ =>
      let n := bits x.imm 3 0
      let sees := fun (e r : Nat) => !e.testBit 7 && s.entry.mask.getLsbD (patLane e r x.xk.toNat)
      s.me.unmarked →
      s.completes i fun u => onlyGroup s u ∧ goesOn s i u ∧ sameIssue s.me (sameRegs s.me u.me) = s.me ∧
        (∀ r, u.me.sreg r = s.me.sreg r ∧ u.me.sPoison r = false) ∧ u.me.flg.setWidth 8 = s.me.flg.setWidth 8 ∧
        (∀ r l, l < 32 → u.me.vPoison r l = false) ∧
        ∀ r l, l < 32 → u.me.vreg r l =
          if (s.acting i).getLsbD l && decide (x.a.num ≤ r) && decide (r < x.a.num + n) then
            let e := patEntry tm tab l
            let k := r - x.a.num
            BitVec.ofNat 32 (if e.testBit 7 then 0 else patWord e
              (if sees e k then (s.me.vreg (x.b.num + patReg e k n) (patLane e k x.xk.toNat)).toNat else 0))
          else s.me.vreg r l
    | _ => True

/-- LOADS THROUGH RECORDS (09 R203, R204, R207). `LD` (each acting lane) and `SLD` (once for the group), through a record
of the memory kinds that permits the load, with operands free of poison, every lane passing its checks, no line held by
an engine and no poison read: each lane's destination registers take the bytes at its place, extended by the size code,
and zeros out of bounds, where the OOB flag is set; nothing but translation and caches changes besides.
(The model's readings here: log entries 4, 25 and 29.) -/
def Obligations.RecordLoads : Prop :=
  ∀ (s : State) (i : Instr) (ws : List (Nat × Way)) (t v : State) (vs : List (Nat × List Byte × Bool)),
    s.admits i = true → s.acting i ≠ 0#32 →
    let x := i.fields
    let r := recView (s.me.breg (auxRec x))
    let uni := match i with
      | .sld _ => true
      | _ => false
    let m := runLanes (s.acting i) uni
    (match i with
      | .ld _ | .sld _ => True
      | _ => False) →
    r.kind ≠ 1 → (s.launchOf s.cur).r.logMode ≠ 2 →
    s.recFault s.cur r (auxRec x) true false (plainKinds (accessSize x)) = none →
    cleanOps s.me m [(x.b, 1), (x.c, 1)] →
    State.ways r (auxRec x) .load (accessSize x) (recAt s.me x (accessSize x) true) (maskLanes m) s = some (ws, t) →
    loadWays s.cur r.peer (accessSize x) ws t = .ok (vs, v) → (∀ p ∈ vs, p.2.2 = false) →
    s.completes i fun u => onlyGroup v u ∧ goesOn s i u ∧ sameIssue s.me (sameRegs s.me u.me) = s.me ∧
      flagsRaised s.me u.me (oobFlag ws) ∧
      rangeWritten s.me u.me x.a (memRegs x) m (fun l => extendLoad x.fam (valueOf ([], false) vs l).1)

/-- LOADS FROM AN I/O WINDOW (08 R197). A load of a granted range of an I/O window goes on at once: the read is
outstanding and names its destination registers, which stay as they were. (The model's readings here: log entry 30.) -/
def Obligations.IoLoads : Prop :=
  ∀ (s : State) (i : Instr) (ws : List (Nat × Way)) (t : State) (va : Nat → Nat),
    s.admits i = true → s.acting i ≠ 0#32 →
    let x := i.fields
    let r := recView (s.me.breg (auxRec x))
    let uni := match i with
      | .sld _ => true
      | _ => false
    let m := runLanes (s.acting i) uni
    (match i with
      | .ld _ | .sld _ => True
      | _ => False) →
    r.kind = 1 → (s.launchOf s.cur).r.logMode ≠ 2 →
    s.recFault s.cur r (auxRec x) true false (plainKinds (accessSize x)) = none →
    cleanOps s.me m [(x.b, 1), (x.c, 1)] →
    State.ways r (auxRec x) .load (accessSize x) (recAt s.me x (accessSize x) true) (maskLanes m) s = some (ws, t) →
    (∀ p ∈ ws, p.2 = .io (va p.1) ∧ s.ioGranted s.cur (va p.1) (accessSize x) = true) →
    s.completes i fun u => goesOn s i u ∧ u.me.v = s.me.v ∧ u.me.s = s.me.s ∧ u.mem = s.mem ∧
      ∀ p ∈ ws, ∃ kv ∈ u.ioReads, kv.2.group = s.cur ∧ kv.2.addr = va p.1 ∧ kv.2.size = accessSize x ∧
        kv.2.regs = (codesFrom x.a (memRegs x)).map fun c => (c, p.1)

/-- STORES THROUGH RECORDS (09 R207; 12 R306). `ST` through a record that permits it, outside a write-confined launch,
with operands free of poison and every lane passing its checks, stores the low bytes of the data registers at each
lane's place, of lanes that store to one place the highest lane's; out of bounds it stores nothing and sets OOB. A store
to an I/O window closes the idempotent region. (The model's readings here: log entries 25, 28 and 30.) -/
def Obligations.RecordStores : Prop :=
  ∀ (s : State) (x : XForm) (ws : List (Nat × Way)) (t v : State), s.admits (.st x) = true →
    s.acting (.st x) ≠ 0#32 →
    let r := recView (s.me.breg (auxRec x))
    let n := accessSize x
    s.confined (s.teamOf s.cur).launch = false →
    s.recFault s.cur r (auxRec x) false true (plainKinds n) = none →
    cleanOps s.me (s.acting (.st x)) [(x.b, 1), (x.c, 1), (x.a, memRegs x)] →
    State.ways r (auxRec x) .store n (recAt s.me x n true) (maskLanes (s.acting (.st x))) s = some (ws, t) →
    (∀ p ∈ ws, ∀ va, p.2 = .io va → s.ioGranted s.cur va n = true) →
    storeLanes s.cur r.peer n (fun l => toBytes n (rangeVal s.me x.lit x.a (memRegs x) l)) (topLanes ws) t = .ok v →
    s.completes (.st x) fun u => onlyGroup v u ∧ goesOn s (.st x) u ∧
      sameIssue s.me { u.me with flg := s.me.flg, region := s.me.region } = s.me ∧
      u.me.region = (if r.kind = 1 then none else s.me.region) ∧ flagsRaised s.me u.me (oobFlag ws)

/-- ATOMICS THROUGH RECORDS (09 R214 to R216; 08 R188, R190). `ATOM`, with operands free of poison and every lane in
bounds and passing its checks, performs its read-modify-writes in ascending lane order and gives each lane the old
value (a scalar destination that of one lane); `ATOMU` adds its updates.
(The model's readings here: log entries 4, 24 and 29.) -/
def Obligations.RecordAtomics : Prop :=
  ∀ (s : State) (i : Instr) (ws : List (Nat × Way)) (t v : State), s.admits i = true → s.acting i ≠ 0#32 →
    let x := i.fields
    let r := recView (s.me.breg (auxRec x))
    let w := x.ty.regs
    s.confined (s.teamOf s.cur).launch = false → (s.launchOf s.cur).r.logMode = 0 →
    State.ways r (auxRec x) .atomic (4 * w) (recAt s.me x (4 * w) false) (maskLanes (s.acting i)) (s.begun i) =
      some (ws, t) →
    match i with
    | .atom _ =>
      ∀ vals, s.recFault s.cur r (auxRec x) true true [0, 3] = none →
      cleanOps s.me (s.acting i) ([(x.b, 1), (x.c, w)] ++ if x.fam = 7 then [(x.d, w)] else []) →
      atomWays s.cur r.peer (4 * w) (fun l old => atomNew (BitVec.ofNat 3 x.fam) x.ty old (opVal s.me x.lit x.c w l)
        (opVal s.me x.lit x.d w l)) ws t = .ok (vals, v) → vals ≠ [] → (∀ p ∈ vals, p.2.2 = false) →
      ∃ f : Nat → Nat,
        (if x.a.isS then ∃ p ∈ vals, ∀ l, f l = p.2.1 else ∀ p ∈ vals, f p.1 = p.2.1) ∧
        s.completes i fun u => goesOn s i u ∧ u.mem = v.mem ∧ u.cores = v.cores ∧ u.peerMem = v.peerMem ∧
          sameIssue (s.begun i).me (sameRegs (s.begun i).me u.me) = (s.begun i).me ∧
          flagsRaised s.me u.me (oobFlag ws) ∧
          regsWritten s.me u.me x.a w (maskOf (vals.map (·.1))) f
    | .atomu _ =>
      s.recFault s.cur r (auxRec x) true true [0] = none → cleanOps s.me (s.acting i) [(x.b, 1), (x.c, w)] →
      updWays s.cur x (fun l => opVal s.me x.lit x.c w l) ws t = .ok v →
      s.completes i fun u => onlyGroup v u ∧ goesOn s i u ∧
        sameIssue (s.begun i).me { u.me with flg := s.me.flg } = (s.begun i).me ∧ flagsRaised s.me u.me (oobFlag ws)
    | _ => True

/-- SCRATCHPADS (09 R209 to R213, R217). With every acting lane's place aligned, inside the scratchpad of the team that
the selector names and present, and its operands free of poison: `LDL` gives each lane the bytes there, extended by the
size code; `STL` writes the low bytes of its data, lane after lane; `ATOML` performs its read-modify-writes lane after
lane and gives each lane the old value (a scalar destination that of one lane).
(The model's readings here: log entry 28.) -/
def Obligations.Scratchpads : Prop :=
  ∀ (s : State) (i : Instr) (tn : Nat), s.admits i = true → s.acting i ≠ 0#32 →
    let x := i.fields
    let t := s.begun i
    let w := x.ty.regs
    let n := match i with
      | .atoml _ => 4 * w
      | _ => accessSize x
    let off := fun (l : Nat) => opVal s.me x.lit x.b 1 l + x.imm.toNat
    let ls := maskLanes (s.acting i)
    s.selLegal x.aux = true → s.scrTeam s.me.team x.aux = some tn →
    (∀ l ∈ ls, off l % min n 16 = 0 ∧ off l + n ≤ (s.team tn).ssize ∧
      ((s.team tn).scrAbsent (off l) n).isEmpty = true ∧
      ∀ k ∈ sectorsOf (off l) n, Sp.get 0 (s.team tn).tstBusy k = 0) →
    match i with
    | .ldl _ => (s.launchOf s.cur).r.logMode ≠ 2 → cleanOps s.me (s.acting i) [(x.b, 1)] →
      (∀ l ∈ ls, (s.team tn).scrPoison (off l) n = false) →
      s.completes i fun u => onlyGroup s u ∧ goesOn s i u ∧ sameIssue s.me (sameRegs s.me u.me) = s.me ∧
        u.me.flg = s.me.flg ∧
        rangeWritten s.me u.me x.a (memRegs x) (s.acting i) fun l => extendLoad x.fam ((s.team tn).scrBytes (off l) n)
    | .stl _ => cleanOps s.me (s.acting i) [(x.b, 1), (x.a, memRegs x)] →
      let t' := (t.modTeam tn fun u => (scrStores off n (rangeVal s.me x.lit x.a (memRegs x)) ls u).clearCovered
        (ls.map fun l => (off l, n))).wakeTeam tn
      s.runsTo i t' t'.me
    | .atoml _ => (s.launchOf s.cur).r.logMode = 0 →
      cleanOps s.me (s.acting i) ([(x.b, 1), (x.c, w)] ++ if x.fam = 7 then [(x.d, w)] else []) →
      (∀ l ∈ ls, (s.team tn).scrPoison (off l) n = false) →
      let q := scrAtoms off n (fun l old => atomNew (BitVec.ofNat 3 x.fam) x.ty old (opVal s.me x.lit x.c w l)
        (opVal s.me x.lit x.d w l)) ls (s.team tn)
      let t' := (t.modTeam tn fun _ => q.1).wakeTeam tn
      ∃ f : Nat → Nat,
        (if x.a.isS then ∃ p ∈ q.2, ∀ l, f l = p.2 else ∀ p ∈ q.2, f p.1 = p.2) ∧
        s.completes i fun u => goesOn s i u ∧ u.teams = t'.teams ∧ u.mem = t'.mem ∧
          sameIssue t'.me (sameRegs t'.me u.me) = t'.me ∧ u.me.flg = t'.me.flg ∧
          regsWritten t'.me u.me x.a w (maskOf ls) f
    | _ => True

/-- RECORDS AT RUN TIME (09 R218, R219). `BLD` of an index below RECCNT, with its 32 bytes read and a valid record in
them, loads the record register; `BNAR` of a record that is not a strip ring's, at a place that keeps its swizzle, gives
the narrowed record. Without an acting lane neither does anything.
(The model's readings here: log entries 26 and 27.) -/
def Obligations.RunTimeRecords : Prop :=
  ∀ (s : State) (i : Instr), s.admits i = true → s.acting i ≠ 0#32 →
    let x := i.fields
    match i with
    | .bld _ =>
      let l := s.launchOf s.cur
      let k := uniVal s.me x x.b 1 + x.imm.toNat
      ∀ bs t, opBad s.me x.b 1 0 = false → k < l.r.reccnt →
        readPieces s.cur plainView false (pieces (l.r.rectab + 32 * k) 32) s = .ok bs t →
        recValid (BitVec.ofNat 256 (ofBytes bs)) = true →
        s.runsTo i t (s.me.setB (auxRec x) (BitVec.ofNat 256 (ofBytes bs)))
    | .bnar _ =>
      let src := s.me.breg (immRec x)
      let z := (recView src).swizzle
      let x0 := uniVal s.me x x.b 1
      let y0 := uniVal s.me x x.c 1
      cleanOps s.me 1#32 [(x.b, 1), (x.c, 1), (x.d, 1), (x.a, 1)] → (recView src).kind ≠ 2 →
      (z ≠ 0 → x0 % (16 * 2 ^ z) = 0 ∧ y0 % 2 ^ z = 0) →
      s.runs i (s.me.setB (auxRec x) (narrowRec src x0 y0 (uniVal s.me x x.d 1) (uniVal s.me x x.a 1)
        (x.imm.getLsbD 5) (x.imm.getLsbD 6) (x.imm.getLsbD 7)))
    | _ => True

/-- FENCES (08 R198, Table 8.3; 09 R208, R221). With no line held by an engine that it must commit:
`FENCE` of cluster scope or wider takes a phase boundary on its core, of device scope also merges the update-only
lines that the group wrote, of domain and system scope also commits the core's overlays at peers, the last with none of
the group's I/O loads in flight; of a lesser scope it does nothing. `PFCH` changes nothing of the group. -/
def Obligations.Fences : Prop :=
  ∀ (s : State) (i : Instr), s.admits i = true → s.acting i ≠ 0#32 →
    let c := s.coreOf s.cur
    match i with
    | .fence x =>
      let t := if 2 ≤ x.fam then s.boundary c else s
      let mine := (t.core c).wroteLine s.cur
      let u := if 3 ≤ x.fam then t.mergeCore c mine else t
      let v := if 4 ≤ x.fam then u.commitPeers c else u
      (2 ≤ x.fam → (s.boundaryHeld c).isEmpty = true) →
      (3 ≤ x.fam → ∀ p ∈ (t.core c).upd, mine p = true → t.isOwned (lineOf p.addr) = false) →
      (4 ≤ x.fam → (u.peersHeld c).isEmpty = true) → (x.fam = 5 → s.ioPending s.cur = false) →
      s.runsTo i v v.me
    | .pfch _ => s.completes i fun u => goesOn s i u ∧ sameIssue s.me u.me = s.me ∧ u.teams = s.teams ∧
        u.launches = s.launches
    | _ => True

/-- TEXEL FETCH (13 R341, Table 13.12). `FLT` through a memory record of a texel format gives each acting lane four
channels, each the exact weighted sum of its texels rounded once; a texture without texels gives zeros and sets OOB.
(The model's readings here: log entry 53.) -/
def Obligations.TexelFetch : Prop :=
  ∀ (s : State) (x : XForm) (ts : List (Nat × List (Nat × List Byte))) (t : State), s.admits (.flt x) = true →
    s.acting (.flt x) ≠ 0#32 →
    let m := s.acting (.flt x)
    let r := recView (s.me.breg (auxRec x))
    let tw := r.extentX / texelBytes r.format
    let wrap := x.mod.getLsbD 6
    let ftz := modeFtz s.me.mode
    let coord := fun (o : Opnd) (l : Nat) => coordOf wrap (fdecode fp32 (ftzIn fp32 ftz (opVal s.me x.lit o 1 l)))
    let taps := fun (l : Nat) =>
      tapsOf (x.mod.getLsbD 5) wrap tw r.extentY (coord x.b l).1 (coord x.c l).1
    let cs := fun (l : Nat) => filterLane ftz r.format (valueOf [] ts l)
    let gives := fun (t : State) (val : Nat → Nat) (fl : Flags) =>
      s.completes (.flt x) fun u => onlyGroup t u ∧ goesOn s (.flt x) u ∧
        sameIssue s.me (sameRegs s.me u.me) = s.me ∧ flagsRaised s.me u.me fl ∧ rangeWritten s.me u.me x.a 4 m val
    r.kind = 0 ∨ r.kind = 3 → 0x10 ≤ r.format → r.format ≤ 0x17 → (s.launchOf s.cur).r.logMode ≠ 2 →
    if tw = 0 ∨ r.extentY = 0 then r.oobTrap = false → gives s (fun _ => 0) flagOob
    else s.recFault s.cur r (auxRec x) true false [0, 3] = none → cleanOps s.me m [(x.b, 1), (x.c, 1)] →
      State.texels r (auxRec x) taps (maskLanes m) s = some (ts, t) →
      gives t (fun l => (cs l).foldr (fun c v => c.1 + 2 ^ 32 * v) 0)
        (flagsOf (maskLanes m) fun l =>
          (coord x.b l).2 ||| (coord x.c l).2 ||| (cs l).foldl (fun f c => f ||| c.2) 0#8)

/-- COPIES INTO THE SCRATCHPAD (09 R229, R230). `ACP`, with no operand poisoned, places inside the scratchpad and room in
its tag, reads its sources, makes the sectors it writes absent, counts its tag up and goes on with the copy outstanding;
`AWAIT` waits until its tag is zero; a sector that lands takes its bytes, higher lanes last, and is present, the others
stay absent; the last one ends the copy and counts its tag down. (The model's readings here: log entry 31.) -/
def Obligations.ScratchCopies : Prop :=
  (∀ (s : State) (x : XForm) (cs : List AcpLane) (oob : Bool) (t : State), s.admits (.acp x) = true →
    s.acting (.acp x) ≠ 0#32 →
    let i := Instr.acp x
    let r := recView (s.me.breg (auxRec x))
    let tag := bits x.imm 2 0
    let whole := x.mod.getLsbD 5
    s.recFault s.cur r (auxRec x) true false [0, 3] = none → s.me.treg tag ≠ 0xFFFF#16 →
    cleanOps s.me (s.acting i) ([(x.b, 1)] ++ (if whole then [] else [(x.c, 1)]) ++ [(x.d, 1), (x.a, 1)]) →
    State.copies r (s.teamOf s.cur).ssize (fun l => opVal s.me x.lit x.a 1 l)
      (fun l => if whole then 32 else min (opVal s.me x.lit x.c 1 l) 32)
      (fun l => (signed 32 (opVal s.me x.lit x.b 1 l), signed 32 (opVal s.me x.lit x.d 1 l)))
      (maskLanes (s.acting i)) (s.begun i) = some (cs, oob, t) →
    let u := (t.modTeam s.me.team fun m => m.bumpAbsent (cs.map fun c => c.dst / 32).eraseDups true).startOp
      (s.opFor i (.acp tag cs))
    s.runsTo i u ((if oob then u.me.raiseFlags flagOob else u.me).setT tag (u.me.treg tag + 1#16))) ∧
  (∀ (s : State) (x : XForm), s.admits (.await x) = true → s.acting (.await x) ≠ 0#32 →
    s.runsToWait (.await x) s s.me (.tag (bits x.imm 2 0))) ∧
  ∀ (s : State) (op sector tag : Nat) (cs : List AcpLane),
    let o := s.opOf op
    let g := s.grp o.group
    let t := s.team o.team
    let rest := o.kind.scrWrites.filter fun k => k != sector && !o.landed.contains k
    o.kind = .acp tag cs → s.scrBlocked op = false → sector ∈ o.kind.scrWrites → sector ∉ o.landed →
    (∀ kv ∈ s.ops, kv.1 ≠ op → kv.2.team ≠ o.team) →
    (∀ k ∈ o.kind.scrWrites, Sp.get 0 t.absent k = if k ∈ o.landed then 0 else 1) →
    ∃ u, exec (.acpLanded ⟨op, sector⟩) s = .next u ∧
      (u.team o.team).scratch = ((cs.filter fun c => c.dst / 32 == sector).foldl (fun t c =>
        t.landBytes o.written c.dst c.bytes c.bad) t).scratch ∧
      Sp.get 0 (u.team o.team).absent sector = 0 ∧
      (∀ k, k ≠ sector → Sp.get 0 (u.team o.team).absent k = Sp.get 0 t.absent k) ∧
      if rest = [] then Sp.get? u.ops op = none ∧ (u.grp o.group).treg tag = g.treg tag - 1#16
      else (u.opOf op).landed = o.landed ++ [sector] ∧ (u.grp o.group).treg tag = g.treg tag

/-- TENSOR COPIES (09 R232 to R235; 08 R191). `TCP`, `TST` and `TCPG` whose descriptor and tile pass every check go on
with the copy outstanding: the sectors it writes are absent, those it reads busy, and the lines it writes owned; an
element outside the record raises OOB. Once performed, with its sources and destinations within reach, the copy is no
longer outstanding. (The model's readings here: log entry 31.) -/
def Obligations.TensorCopies : Prop :=
  (∀ (s : State) (i : Instr) (j : Iss) (t : Tile), s.admits i = true → s.acting i ≠ 0#32 →
    let go := fun (store gather : Bool) =>
      (store = true → s.confined (s.teamOf s.cur).launch = false) →
      tensorChecks i.fields store gather (begin_ i s) = .go j t →
      let u := j.s.beginTensor s.cur store t (tensorOp j i.fields store gather t)
      s.runsTo i u (if t.outside store then u.me.raiseFlags flagOob else u.me)
    match i with
    | .tcp _ => go false false
    | .tst _ => go true false
    | .tcpg _ => go false true
    | _ => True) ∧
  (∀ (s : State) (op : Nat) (t : Tile), (s.opOf op).kind = .tcp t → s.scrBlocked op = false →
    let o := s.opOf op
    let r := recView t.rec_
    let q := s.readSource op o r (((t.units false).map fun u => lineOf (r.base + u.mem)).eraseDups)
    q.1.held = false → q.1.absent = [] → o.landed = [] → t.sectors ≠ [] →
    (∀ k ∈ t.sectors, Sp.get 0 (s.team o.team).absent k ≤ 1) →
    ∃ u, exec (.tensorCopyDone op) s = .next u ∧ Sp.get? u.ops op = none) ∧
  ∀ (s : State) (op line : Nat) (t : Tile), (s.opOf op).kind = .tst t → s.scrBlocked op = false →
    Sp.get? s.owned line = some op →
    exec (.engineLineRelease op line) s = .next (s.releaseEarly op line (recView t.rec_) (s.tstPuts op t))

/-- BULK READS (10 R237 to R239). `BREAD` of a declared handler, with its registers free of poison, handler slots in
the team, and a readable record and geometry that pass the checks, goes on with the read outstanding and its destination
interlocked; a burst out of bounds raises OOB. (The model's readings here: log entries 25 and 39.) -/
def Obligations.BulkReads : Prop :=
  ∀ (s : State) (x : XForm), s.admits (.bread x) = true → s.acting (.bread x) ≠ 0#32 →
    let i := Instr.bread x
    let h := bits x.imm 8 5
    let n := bits x.imm 12 9
    let v := recView (s.me.breg (immRec x))
    let tm := s.teamOf s.cur
    let reg := fun (o : Opnd) (k : Nat) => (s.me.sreg (o.num - 0xC0 + k)).toNat
    let b : BulkRead :=
      { live := true, group := s.cur, team := s.me.team, launch := tm.launch, core := s.coreOf s.cur, gid := s.me.gid,
        dst := x.a, x0 := reg x.b 0, y0 := reg x.b 1, z0 := reg x.b 2, nx := reg x.c 0, ny := reg x.c 1,
        nz := reg x.c 2, zp := reg x.c 3, rec_ := s.me.breg (immRec x), handler := h,
        args := (List.range n).map fun k => BitVec.ofNat 32 (reg x.d k), mode := s.me.mode, nbv := s.me.nbv,
        recs := s.me.b, seq := tm.breads, count := reg x.c 0 * reg x.c 1 * reg x.c 2 }
    let out := (List.range b.count).any fun k => burstOob v (b.place k)
    Sp.has (s.launchOf s.cur).handlers h = true →
    (∀ c ∈ codesFrom x.b 3 ++ codesFrom x.c 4 ++ (if n = 0 then [] else codesFrom x.d n), s.me.sPoison (c - 0xC0) = false) →
    tm.nhandlers ≠ 0 → s.recFault s.cur v (immRec x) true false [0, 3] = none →
    1 ≤ b.count → b.count ≤ 4096 → v.swizzle = 0 → v.base % 256 = 0 → v.strideY % 256 = 0 →
    (out = true → v.oobTrap = false) →
    s.completes i fun u =>
      onlyGroup ((({ s with reads := Sp.put s.reads s.serial b }).modTeam s.me.team fun t =>
        { t with breads := t.breads + 1 }).modLaunch tm.launch fun l => { l with outstanding := l.outstanding + 1 }) u ∧
      goesOn s i u ∧
      sameIssue (s.begun i).me { u.me with flg := s.me.flg, outstanding := s.me.outstanding } = (s.begun i).me ∧
      u.me.outstanding = s.me.outstanding + 1 ∧ flagsRaised s.me u.me (if out then flagOob else 0#8) ∧
      (x.a ≠ .zero → ∃ k ∈ u.me.locks, k.kind = .read s.serial ∧ k.regs = (codesFrom x.a 1).map (BitVec.ofNat 16))

/-- BURSTS (10 R241 to R244). A burst of a live read that holds an entry of its core's buffer, and whose lines are within
reach, is ready; the oldest ready burst that can be born now is born, outside recording and replay, as a group in the
lowest free slot, with the burst's data and status, and its entry is free. (The model's readings here: log entries 39 and
66.) -/
def Obligations.Bursts : Prop :=
  (∀ (s : State) (rd k : Nat),
    let r := s.readOf rd
    let v := recView r.rec_
    let q := s.readSource 0 r.asOp v (burstLines v (r.place k))
    r.live = true → (rd, k) ∈ (s.core r.core).burstAsked → q.1.held = false → q.1.absent = [] →
    ∃ u, exec (.burstReady rd k) s = .next u ∧ Sp.get? (u.readOf rd).ready k = some (burstOf v (r.place k) q.1) ∧
      (u.core r.core).burstBuf = (s.core r.core).burstBuf ++ [(rd, k)] ∧ (rd, k) ∉ (u.core r.core).burstAsked) ∧
  ∀ (s : State) (c rd k slot : Nat) (b : Burst),
    let r := s.readOf rd
    let t := s.team r.team
    ((s.core c).burstBuf.find? fun p => (s.birthOf c p).isSome) = some (rd, k) → t.canBear = true →
    (s.launch r.launch).r.logMode = 0 → t.freeSlot = some slot → Sp.get? r.ready k = some b →
    ∃ u, exec (.handlerBirth c) s = .next u ∧ u.serial = s.serial + 1 ∧
      u.grp s.serial = bornGroup r (s.launch r.launch) rd slot s.serial b k ∧
      Sp.get? (u.team r.team).groups (32 + slot) = some s.serial ∧ (rd, k) ∉ (u.core c).burstBuf ∧
      (u.readOf rd).born = r.born + 1 ∧ u.mem = s.mem

/-- REMOTE COPIES AND SIGNALS (11 R257 to R262; 08 R191). `RPUT` and `RGET` outside a write-confined launch, with operands
free of poison, records that permit them and a size and places that pass the checks, go on with the copy outstanding and
its destination lines owned; out of bounds they raise OOB. A copy whose lines are within reach ends and owns its
destination lines no longer.
`RSIG` through a peer's record, with a port and an aligned offset, goes on with the signal outstanding. A peer's answer
ends it, a refusal with a report. A signal that arrives for a team here is applied to the object it names.
(The model's readings here: log entries 32 and 33.) -/
def Obligations.RemoteTransfers : Prop :=
  ((∀ (s : State) (i : Instr), s.admits i = true → s.acting i ≠ 0#32 →
    let x := i.fields
    let dk := match i with
      | .rput _ => 3
      | _ => 0
    let dv := recView (s.me.breg (auxRec x))
    let sv := recView (s.me.breg (immRec x))
    let noobj := x.mod.getLsbD 6
    let dOff := uniVal s.me x x.a 1
    let sOff := uniVal s.me x x.b 1
    let n := uniVal s.me x x.c 1
    let obj := uniVal s.me x x.d 1
    let dExt := rowFit dv dOff n
    let sExt := rowFit sv sOff n
    let vas := (List.range dExt).map (dv.base + dOff + ·)
    let k : OpKind := if dk = 3 then .rput dv.peer (dv.base + dOff) (sv.base + sOff) n dExt sExt
      else .rget sv.peer (dv.base + dOff) (sv.base + sOff) n dExt sExt
    let o : AsyncOp := { s.opFor i k with
      obj := if noobj then none else some obj, stat := x.mod.getLsbD 5, credit := n }
    let t := ((s.begun i).startOp o).claimFor s.serial (linkView dk dv.peer) vas []
    let u := if dk = 3 then t.discardAt o dv.peer vas else t
    (match i with
      | .rput _ | .rget _ => True
      | _ => False) →
    s.confined (s.teamOf s.cur).launch = false →
    cleanOps s.me 1#32 ([(x.b, 1), (x.c, 1)] ++ (if noobj then [] else [(x.d, 1)]) ++ [(x.a, 1)]) →
    s.recFault s.cur dv (auxRec x) false true [dk] = none →
    s.recFault s.cur sv (immRec x) true false [3 - dk] = none →
    4 ≤ n → n ≤ 2 ^ 24 → n % 4 = 0 → dOff % 4 = 0 → sOff % 4 = 0 →
    (noobj = false → obj % 16 = 0 ∧ obj + (if x.mod.getLsbD 5 then 24 else 16) ≤ (s.teamOf s.cur).ssize) →
    (dExt < n → dv.oobTrap = false) → (sExt < n → sv.oobTrap = false) →
    s.runsTo i u (if dExt < n ∨ sExt < n then u.me.raiseFlags flagOob else u.me)) ∧
  ∀ (s : State) (op peer dst src n dExt sExt : Nat) (put : Bool),
    let o := s.opOf op
    let sr := if put then linkView 0 0x7FF else linkView 3 peer
    let dr := if put then linkView 3 peer else linkView 0 0x7FF
    let q := s.readSource op o sr (rangeLines src sExt)
    let src_ := if put then q.1 else q.2.overRemote o sr (rangeLines src sExt) q.1
    let ps := remotePuts src_ dst src dExt sExt
    o.kind = (if put then .rput peer dst src n dExt sExt else .rget peer dst src n dExt sExt) →
    (put = true → s.putBlocked op peer dst dExt = false) → src_.held = false → src_.absent = [] →
    q.2.absentDest o dr ps = [] → q.2.destHeld op dr ps = false →
    ∃ u, exec (.remoteCopyDone op) s = .next u ∧ Sp.get? u.ops op = none ∧
      ∀ ln ∈ o.lines, Sp.get? u.owned ln ≠ some op) ∧
  ((∀ (s : State) (x : XForm), s.admits (.rsig x) = true → s.acting (.rsig x) ≠ 0#32 →
    let i := Instr.rsig x
    let v := recView (s.me.breg (immRec x))
    let w := uniVal s.me x x.c 1
    let t := (s.begun i).startOp (s.opFor i (.rsig v.peer (field w 20 12) (uniVal s.me x x.b 1) (field w 0 20)
      (BitVec.ofNat 32 (uniVal s.me x x.d 1))))
    s.confined (s.teamOf s.cur).launch = false →
    cleanOps s.me 1#32 [(x.b, 1), (x.c, 1), (x.d, 1)] → s.recFault s.cur v (immRec x) false true [3] = none →
    field w 20 12 ≠ 0 → field w 0 20 % 16 = 0 → s.runsTo i t t.me) ∧
  (∀ (s : State) (op peer port team off : Nat) (count : Word) (applied : Bool),
    (s.opOf op).kind = .rsig peer port team off count → peer ≠ s.fw.deviceId → s.sigBlocked op peer = false →
    ∃ u, exec (.rsigAck op applied) s = .next u ∧ Sp.get? u.ops op = none) ∧
  ∀ (s : State) (port team off tn : Nat) (count : Word), s.sigFate port team off = .apply tn →
    ∃ u, exec (.rsigArrival none port team off count) s = .next u ∧
      (u.team tn).scratch = ((s.team tn).credit off count.toNat none false).scratch ∧
      (u.team tn).held = ((s.team tn).credit off count.toNat none false).held)

/-- COLLECTIVES (11 R263 to R266, R269). `COLL` outside a write-confined launch whose records, descriptor and roster pass
every check goes on with the collective outstanding, its destination lines owned and its destination register
interlocked. Other ranks join once each; START lets its data move; a wait that expires, a descriptor that differs, or the
last data moved ends it, with its status in the destination register. (The model's readings here: log entry 35.) -/
def Obligations.Collectives : Prop :=
  (∀ (s : State) (x : XForm) (bs ros : List Byte) (t u : State), s.admits (.coll x) = true →
    s.acting (.coll x) ≠ 0#32 →
    let i := Instr.coll x
    let l := s.launchOf s.cur
    let kv := recView (s.me.breg (immRec x))
    let sv := recView (s.me.breg (auxRec x))
    let dv := recView (s.me.breg (bits x.imm 9 5))
    let off := uniVal s.me x x.b 1
    let ro := ofBytes ((bs.drop 0x28).take 8)
    let p := ofBytes ((bs.drop 8).take 4)
    let c := collOf bs ros (field s.me.nbv.toNat 0 8)
    let c' : CollOp := { c with
      src := sv.base + c.src, dst := dv.base + c.dst, late := c.start != 0 && decide (c.start < s.time.toNat) }
    let o : AsyncOp := { s.opFor i (.coll c') with dst := x.a }
    let v := (u.startOp o).claimFor s.serial (linkView 0 0x7FF) ((List.range c.dstLen).map (c'.dst + ·)) []
    s.confined (s.teamOf s.cur).launch = false → cleanOps s.me 1#32 [(x.b, 1)] →
    s.recFault s.cur kv (immRec x) true false [0] = none → s.recFault s.cur sv (auxRec x) true false [0] = none →
    s.recFault s.cur dv (bits x.imm 9 5) false true [0] = none → 64 ≤ rowFit kv off 64 → off % 64 = 0 →
    readPieces s.cur kv false (pieces (kv.ea off 0) 64) (s.begun i) = .ok bs t →
    ro + 4 * p ≤ kv.extentX → ro % 4 = 0 → 1 ≤ p → p ≤ 1152 →
    readPieces s.cur kv false (pieces (kv.ea ro 0) (4 * p)) t = .ok ros u →
    collBad bs c s.fw.deviceId (fun r => (s.peerAsid l.owner l.asid r).isSome) = false →
    collClash c c'.src c'.dst = false → c.srcLen ≤ rowFit sv c.src c.srcLen → c.dstLen ≤ rowFit dv c.dst c.dstLen →
    s.collDouble c = false →
    s.completes i fun w => onlyGroup v w ∧ sameIssue v.me w.me = v.me ∧ goesOn s i w ∧
      (x.a ≠ .zero → ∃ k ∈ w.me.locks, k.kind = .coll s.serial)) ∧
  ∀ (s : State) (op : Nat) (c : CollOp),
    let o := s.opOf op
    let ends := fun (i : Instr) (c : CollOp) => ∃ u, exec i s = .next u ∧ Sp.get? u.ops op = none ∧
      ((s.launchOf o.group).r.logMode = 0 → (s.grp o.group).burst = none → ∀ d, o.dst = .s d →
        (u.grp o.group).sreg d.val = BitVec.ofNat 32 (c.statusWord false))
    o.kind = .coll c →
    (∀ others, ∃ u d, exec (.collJoin op others) s = .next u ∧ (u.opOf op).kind = .coll d ∧
      (∀ q ∈ c.others, q ∈ d.others) ∧
      ∀ r ∈ others, r.rank ≠ c.rank → r.rank < c.nranks → ∃ q ∈ d.others, q.rank = r.rank) ∧
    (c.mayMove s.locked s.time = true →
      exec (.collStartTime op) s = .next (s.modOp op fun o => { o with kind := .coll { c with moved := true } })) ∧
    (s.collWaits o.group o.pc = false →
      (c.wait ≠ 0 → c.allJoined = false → o.at_.toNat + 1000 * c.wait ≤ s.time.toNat →
        ends (.collWaitExpiry op) { c with absent := true }) ∧
      (c.allJoined = true → c.differs = true → ends (.collDone op) { c with mismatch := true }) ∧
      let q := if c.kind != 3 || c.rank == c.root then
          s.readSource op o (linkView 0 0x7FF) (rangeLines c.src c.srcLen) else (⟨[], [], [], [], false⟩, s)
      let d : RankData := fun k => if k = c.rank then ownData q.1 c.src c.srcLen
        else match c.others.find? fun r => r.rank == k with
          | some r => (r.bytes, r.bad)
          | none => ([], [])
      let ps : List Put := ((List.range (c.result d).length).zip (c.result d)).map fun p =>
        { va := c.dst + p.1, sh := 0, w := 8, val := p.2.1.toNat, bad := p.2.2, at_ := p.1 }
      c.mayMove s.locked s.time = true → c.lost = false → q.1.held = false → q.1.absent = [] →
      q.2.absentDest o (linkView 0 0x7FF) ps = [] → q.2.destHeld op (linkView 0 0x7FF) ps = false →
      ∃ u, exec (.collDone op) s = .next u ∧ Sp.get? u.ops op = none ∧ ∀ ln ∈ o.lines, Sp.get? u.owned ln ≠ some op)

/-- STRIP SLOTS (13 R326 to R329, R332, R334, R336 to R338). In a launch of an instance, through a record of its ring:
`SACQ` takes the slot of the instance's strip, or waits for it; `SSTR` stores each lane's data into the acquired slot,
and into a missed one nothing; `SRDH` loads from a written slot or the halo; the forms of `SREL` arrive at the slot.
Out of bounds a lane stores nothing, loads zeros and raises OOB. (The model's readings here: log entry 36.) -/
def Obligations.StripSlots : Prop :=
  ∀ (s : State) (i : Instr) (k id : Nat) (out : Bool), s.admits i = true → s.acting i ≠ 0#32 →
    let x := i.fields
    let m := s.acting i
    let v := recView (s.me.breg (auxRec x))
    let st := s.stream id
    let t := s.begun i
    let slot := st.slot out (st.d.slotOf out (s.instance_ k).g)
    let place := fun (lo hi : Int) => stripPlace s.me x lo hi
    let outside := fun (lo hi : Int) => flagIf ((maskLanes m).any fun l => (place lo hi l).isNone) flagOob
    let arrives := fun (form : Nat) =>
      let key := srelKey form out id
      let tm := s.teamOf s.cur
      let t' := t.modTeam s.me.team fun u =>
        { u with srel := Sp.put u.srel key (Sp.get 0#32 u.srel key ||| laneBit s.me.gid) }
      ((slot.inst == k && (if form = 0 then slot.life == .acquired || slot.life == .missed
        else !out && slot.life == .consuming)) = true) →
      (∀ f < 3, Sp.get 0#32 tm.srel (srelKey f out id) &&& laneBit s.me.gid = 0#32) → s.runsTo i t' t'.me
    s.ringOf x = some (k, id, out) →
    match i with
    | .sacq _ => (out = false → (s.instance_ k).srcDone = false) →
      match t.takeSlot k (s.teamOf s.cur).launch out with
      | some (n, t') => s.runsTo i t' (t'.me.writeDst x.a 1 0 n)
      | none => s.runsTo i t (heldOn s t i t.me (.ring id out x.a))
    | .sstr _ => v.w = true → slot.inst = k → slot.life = .acquired ∨ slot.life = .missed →
      cleanOps s.me m [(x.b, 1), (x.c, 1), (x.a, memRegs x)] →
      (∀ l ∈ maskLanes m, place 0 v.extentY l = none → v.oobTrap = false) →
      let n := st.d.slotOf out (s.instance_ k).g
      let t' := if slot.life = .missed then t else (maskLanes m).foldl (fun u l => match place 0 v.extentY l with
        | some (bx, y) => u.modStream id fun st => st.ringWrite out (st.d.ringAddr out n y.toNat bx)
            (toBytes (accessSize x) (rangeVal s.me x.lit x.a (memRegs x) l))
        | none => u) t
      s.completes i fun u => onlyGroup t' u ∧ goesOn s i u ∧ sameIssue t.me { u.me with flg := t.me.flg } = t.me ∧
        flagsRaised s.me u.me (if slot.life = .missed then 0#8 else outside 0 v.extentY)
    | .srdh _ => out = false → v.r = true → (s.launchOf s.cur).r.logMode ≠ 2 →
      cleanOps s.me m [(x.b, 1), (x.c, 1)] →
      let lo : Int := -(st.d.halo : Int)
      let g := (s.instance_ k).g
      let n := st.d.slotOf false g
      let read := fun (l : Nat) => match place lo st.d.hr l with
        | some (bx, y) => st.readLine n (g % st.d.strips) bx y (accessSize x)
        | none => ([], false)
      (∀ l ∈ maskLanes m, (place lo st.d.hr l = none → v.oobTrap = false) ∧ (read l).2 = false) →
      st.readable g (g % st.d.strips != 0 && (maskLanes m).any fun l => match place lo st.d.hr l with
        | some (_, y) => decide (y < 0)
        | none => false) = true →
      let t' := s.modStream id fun st => if (st.slot false n).life = .written then
        st.setSlot false n { st.slot false n with life := .consuming, consumer := (s.teamOf s.cur).launch } else st
      s.completes i fun u => onlyGroup t' u ∧ goesOn s i u ∧ sameIssue s.me (sameRegs s.me u.me) = s.me ∧
        flagsRaised s.me u.me (outside lo st.d.hr) ∧
        rangeWritten s.me u.me x.a (memRegs x) m fun l => extendLoad x.fam (read l).1
    | .srelDone _ => arrives 0
    | .srelCons _ => arrives 1
    | .srelConsHalo _ => arrives 2
    | _ => True

/-- STRIP CONTEXT (13 R335, R339, R340). `ECOV` gives each acting lane the coverage of its cell; `SRATE` gives a value of
the launch's instance, and remembers a level that it gives; `SPROG.start` and `SPROG.done` of a count that the tiles of
the launch allow count tiles started and finished. (The model's readings here: log entry 36.) -/
def Obligations.StripContext : Prop :=
  ∀ (s : State) (i : Instr) (k : Nat), s.admits i = true → s.acting i ≠ 0#32 →
    let x := i.fields
    let t := s.begun i
    let n := uniVal s.me x x.b 1
    let g := s.me
    match i with
    | .ecov _ =>
      let co := fun (j : Nat) => signed 32 (g.sreg (x.b.num - 0xC0 + j)).toNat
      let rate := if x.aux.getLsbD 3 then (s.instance_ k).level else bits x.aux 2 0
      (x.aux.getLsbD 3 = true → s.instOf s.cur = some k) → (∀ j < 9, g.sPoison (x.b.num - 0xC0 + j) = false) →
      cleanOps g (s.acting i) [(x.c, 1), (x.d, 1)] →
      s.writesDst i x.a 1 fun l =>
        plain (coverage rate co (signed 32 (opVal g x.lit x.c 1 l)) (signed 32 (opVal g x.lit x.d 1 l)))
    | .srate _ => s.instOf s.cur = some k →
      if bits x.aux 2 0 ≠ 0 then s.writesDst i x.a 1 fun _ => plain (s.rateValue k (bits x.aux 2 0))
      else (s.launchOf s.cur).r.logMode = 0 →
        s.completes i fun u => onlyGroup s u ∧ goesOn s i u ∧ (∃ n, u.me.lastLvl = some n ∧ n % 2 ^ 32 = (s.instance_ k).level % 2 ^ 32) ∧
          sameIssue g { sameRegs g u.me with lastLvl := g.lastLvl } = g ∧
          regsWritten g u.me x.a 1 (s.acting i) (fun _ => (s.instance_ k).level) ∧ u.me.flg = g.flg
    | .sprogStart _ => s.instOf s.cur = some k → opBad g x.b 1 0 = false → 1 ≤ n → n ≤ 65535 →
      (s.instance_ k).started + n ≤ (s.tilesOf k).tiles →
      let t' := t.modInst k fun j =>
        { j with started := j.started + n, open_ := j.open_ ++ List.replicate n (g.lastLvl.getD j.level) }
      s.runsTo i t' t'.me
    | .sprogDone _ => s.instOf s.cur = some k → opBad g x.b 1 0 = false → 1 ≤ n → n ≤ 65535 →
      (s.instance_ k).done + n ≤ (s.instance_ k).started →
      let t' := t.modInst k fun j =>
        { j with done := j.done + n, open_ := j.open_.drop n, sinceEval := j.sinceEval + n }
      s.runsTo i t' t'.me
    | _ => True

/-- SPECIAL REGISTERS (02 R32 to R37, Table 2.4; 15 R376). `SREAD` gives the value of a special register in each acting
lane (of `%FLG` once no collective of the group has flags to raise), `%TIME` with a fresh snapshot that its other halves
then show; `SWRITE` of a value that is legal there writes the register and nothing else. -/
def Obligations.SpecialRegisters : Prop :=
  ∀ (s : State) (i : Instr), s.admits i = true → s.acting i ≠ 0#32 →
    let x := i.fields
    let idx := x.imm.toNat
    match i with
    | .sread _ =>
      if idx = 0x10 then ∀ p t, s.deliverTime s.cur 0 s.entry.pc = .use p t →
        s.completes i fun u => onlyGroup t u ∧ goesOn s i u ∧ u.me.snap = snapOf p ∧
          sameIssue s.me { sameRegs s.me u.me with snap := s.me.snap } = s.me ∧ u.me.flg = s.me.flg ∧
          regsWritten s.me u.me x.a 1 (s.acting i) fun _ => field (snapOf p).toNat 32 32
      else (idx = 0x20 → s.me.flagsPending = false) → s.writesDst i x.a 1 fun l => plain (s.special s.cur idx l)
    | .swrite _ => opBad s.me x.b 1 0 = false →
      ∀ g, s.me.setSpecial idx (BitVec.ofNat 32 (uniVal s.me x x.b 1)) = some g → s.runs i g
    | _ => True

/-- RANDOM BITS (05 R131, R132; the values are free: log entry 3). `RAND`, outside recording and replay, with a working
source that holds enough bits, takes fresh bits for each lane that it writes and changes nothing else.
(The model's readings here: log entry 7.) -/
def Obligations.RandomBits : Prop :=
  ∀ (s : State) (x : XForm), s.admits (.rand x) = true → s.acting (.rand x) ≠ 0#32 →
    let w := x.ty.regs
    let n := if x.a = .zero then 0 else maskCount (runLanes (s.acting (.rand x)) x.a.isS)
    let c := s.coreOf s.cur
    (s.launchOf s.cur).r.logMode = 0 → (s.core c).noiseFailed = false → 32 * w * n ≤ (s.core c).noise →
    ∃ f : Nat → Nat, s.completes (.rand x) fun u =>
      onlyGroup (({ s with free := s.free + n }).modCore c fun k => { k with noise := k.noise - 32 * w * n }) u ∧
      goesOn s (.rand x) u ∧ sameIssue s.me (sameRegs s.me u.me) = s.me ∧ u.me.flg = s.me.flg ∧
      regsWritten s.me u.me x.a w (s.acting (.rand x)) f

/-- STATE IMAGES (15 R380, Table 15.6). In trap mode, or at the firmware level, at an aligned place inside a record of the plain kind, with every
page and line within reach: `PSAVE` stores the group's image and gives status 0; `PLOAD` of an image that fits the
group, with no poison but in registers, loads it, tag counters apart, and gives status 0.
(The model's readings here: log entry 41.) -/
def Obligations.StateImages : Prop :=
  ∀ (s : State) (i : Instr) (save : Bool) (ps : List (Nat × Nat × Leaf)) (t v : State)
    (bb : List (Byte × Bool)), s.admits i = true → s.acting i ≠ 0#32 → s.entry.trap = true ∨ s.coreOf s.cur = 0 →
    let x := i.fields
    let r := recView (s.me.breg (auxRec x))
    let o := uniVal s.me x x.b 1
    let c := s.coreOf s.cur
    let n := s.me.imageSize
    let bs := bb.map (·.1)
    let bad := fun (k : Nat) => match bb[k]? with
      | some p => p.2
      | none => false
    let status := fun (g : Group) => s.completes i fun u => onlyGroup v u ∧ goesOn s i u ∧
      sameIssue g (sameRegs g u.me) = g ∧ u.me.flg = g.flg ∧ regsWritten g u.me x.a 1 (s.acting i) fun _ => 0
    opBad s.me x.b 1 0 = false → r.kind = 0 → (if save then r.w else r.r) = true → o % 128 = 0 → r.extentY ≠ 0 →
    o + n ≤ r.extentX →
    imgWays c (s.launchOf s.cur).asid (if save then .store else .load) (pieces (r.ea o 0) n) s = (.ok ps, t) →
    match i with
    | .psave _ => save = true → s.confined (s.teamOf s.cur).launch = false →
      imgStore c s.me.imageBad ps 0 s.me.image t = .ok v → status s.me
    | .pload _ => save = false → imgLoad c ps t = .ok (bb, v) → imageOk s.me bs = true →
      (∀ k, bad k = true → 0x560 ≤ k ∨ (0xA0 ≤ k ∧ k < 0x160)) → status (s.me.loadImage bs bad)
    | _ => True

/-- TRANSLATIONS DROPPED (14 R355 to R357). `TLBINV` of an aligned range, or of everything, under which no outstanding
operation owns a line drops the translations of its ASID, or at the firmware level of the one that it names, on its core,
which walks those pages anew, or on every core of the ASID's partitions and in the shared TLBs.
(The model's readings here: log entry 40.) -/
def Obligations.TlbInvalidations : Prop :=
  ∀ (s : State) (x : XForm), s.admits (.tlbinv x) = true → s.acting (.tlbinv x) ≠ 0#32 →
    let all := x.mod.getLsbD 7
    let other := x.mod.getLsbD 6
    let va := uniVal s.me x x.b 2
    let n := uniVal s.me x x.c 1
    let range := if all then none else some (va / 2 ^ 17, n)
    let asid := if other then uniVal s.me x x.d 1 else (s.launchOf s.cur).asid
    let t := s.dropTlb (s.coreOf s.cur) asid range (x.mod.getLsbD 5)
    (other = true → s.coreOf s.cur = 0 ∧ opBad s.me x.d 1 0 = false) →
    (all = false → opBad s.me x.b 2 0 = false ∧ opBad s.me x.c 1 0 = false ∧ va % 2 ^ 17 = 0 ∧ 1 ≤ n ∧ n ≤ 2 ^ 24) →
    s.linesUnder (s.coreOf s.cur) asid range (x.mod.getLsbD 5) = [] →
    s.runsTo (.tlbinv x) t t.me ∧
      (∀ kv ∈ (t.core (s.coreOf s.cur)).tlb, keyIn asid range kv.1 = false) ∧
      if x.mod.getLsbD 5 then ∀ k kv, kv ∈ Sp.get [] t.stlb k → keyIn asid range kv.1 = false
      else (asid, range) ∈ (t.core (s.coreOf s.cur)).anew

/-- FIRMWARE CALLS (14 R355, R358, R359; 13 R324). `FWCALL` of a service that the launch may call, or at the firmware level
of any, with argument registers free of poison and nothing to wait for, does what `FENCE.sys` does, has the service performed, takes a phase boundary, and
gives the status and the value that the service answers; a call with too few arguments gives status 2.
(The model's readings here: log entries 10 and 40.) -/
def Obligations.FirmwareCalls : Prop :=
  ∀ (s : State) (i : Instr) (need : Nat) (may : Bool) (serve : State → Nat → List Nat → Served), s.admits i = true →
    s.acting i ≠ 0#32 →
    let x := i.fields
    let n := x.aux.toNat
    let regs := (List.range n).map fun k => x.b.num - 0xC0 + k
    let t : State := { s.fenced with devWait := none }
    let a : Served := if n < need then { status := 2, s := t }
      else serve t s.cur (regs.map fun r => (s.me.sreg r).toNat)
    let v := a.s.boundary (s.coreOf s.cur)
    let g := match a.value with
      | some w => v.me.setS (x.b.num - 0xC0) w
      | none => v.me
    serviceOf s i = some (need, may, serve) → may = true ∨ s.coreOf s.cur = 0 → (∀ r ∈ regs, s.me.sPoison r = false) →
    s.mayFence → a.s.devWait = none → a.lines = [] →
    s.completes i fun u => onlyGroup v u ∧ goesOn s i u ∧ sameIssue g (sameRegs g u.me) = g ∧ u.me.flg = g.flg ∧
      regsWritten g u.me x.a 1 (s.acting i) fun _ => a.status

/-- PACKETS (12 R272 to R277). A doorbell write within its queue's ring moves the write index, and one of a queue that is
not configured is only counted. The next packet of a
queue, read under a new number, has the effect of its kind: NOP completes; LAUNCH and TIMED join the rank queue with the
rank that the queue's program gives; WAITMEM and INDIRECT hold the queue; SIGNAL writes or adds at home and completes;
COPY is outstanding; FENCE completes once nothing before it is open; GANG is entered.
(The model's readings here: log entry 42.) -/
def Obligations.Packets : Prop :=
  (∀ (s : State) (fn num : Nat) (w : Word), fn < 64 → num < 4096 →
    (∀ q, s.queueAt fn num = some q → (s.queue q).err = 0 → (w - (s.queue q).wr).toNat < 2 ^ 31 →
      (w - (s.queue q).rd).toNat ≤ 2 ^ (s.queue q).d.logsz →
      exec (.queueDoorbellWrite fn (0x10000 + 8 * num) w) s = .next (s.modQueue q fun k => { k with wr := w })) ∧
    (s.queueAt fn num = none → exec (.queueDoorbellWrite fn (0x10000 + 8 * num) w) s =
      .next (s.modFw fun f => { f with drops := f.drops + 1 }))) ∧
  ∀ (s p : State) (q : Nat) (bs : List Byte) (parent : Option Nat),
    let t := p.packetRead q bs parent
    let n := p.serial
    let asid := (s.queue q).d.asid
    let addr := pkt bs 8 8
    let kind := fun (k : Nat) => ofBytes (bs.take 1) = k
    let passes := fun (i : Instr) => ∀ r v, t.rankOf (t.queue q) bs = (some r, v) →
      ∃ u, exec i s = .next u ∧ n ∈ u.rankQ ∧ (u.packetOf n).rank = r ∧
        (u.queue q).arrivals = (t.queue q).arrivals + 1
    ({ s with devWait := none } : State).peekPacket q = (.packet bs parent, p) →
    (kind 0 → ∃ u, exec (.pktNop q) s = .next u ∧ Sp.get? u.packets n = none ∧ u.queues = t.queues) ∧
    (kind 1 → passes (.pktLaunch q)) ∧ (kind 3 → passes (.pktTimed q)) ∧
    (kind 5 → addr % 8 = 0 → pkt bs 0x20 4 ≤ 3 → ∃ u, exec (.pktWaitmem q) s = .next u ∧
      (u.queue q).wait = some ⟨n, addr, BitVec.ofNat 64 (pkt bs 0x10 8), BitVec.ofNat 64 (pkt bs 0x18 8), pkt bs 0x20 4,
        if pkt bs 0x24 4 = 0 then 0#64 else t.time + BitVec.ofNat 64 (1000 * pkt bs 0x24 4)⟩) ∧
    (kind 6 → s.vaOwned asid addr = false → addr % 8 = 0 →
      let r := t.recallRange asid addr 8
      let old := match r.devicePa asid addr true with
        | some pa => ofBytes (r.homeBytes pa 8)
        | none => 0
      let v := pkt bs 0x10 8
      ∃ u, exec (.pktSignal q) s = .next u ∧ Sp.get? u.packets n = none ∧
        u.mem = (r.deviceWrite asid addr (toBytes 8 (if (pkt bs 0x18 4).testBit 0 then old + v else v))).mem) ∧
    (kind 7 → addr % 64 = 0 → 1 ≤ pkt bs 0x10 8 → pkt bs 0x10 8 ≤ 4096 → ∃ u, exec (.pktIndirect q) s = .next u ∧
      (u.queue q).ind = some (n, addr, pkt bs 0x10 8)) ∧
    (kind 8 →
      let dst := pkt bs 0x10 8
      let k := pkt bs 0x18 8
      addr % 4 = 0 → dst % 4 = 0 → k % 4 = 0 → k ≤ 2 ^ 32 → ¬(addr < dst + k ∧ dst < addr + k) →
      ∃ u, exec (.pktCopy q) s = .next u ∧
        (u.opOf (n + 2)).kind = .copyPkt q (p.indexOf q parent) addr dst k) ∧
    (kind 9 → addr = 0xFFFF → t.olderOpen q n parent = false →
      ∃ u, exec (.pktFence q) s = .next u ∧ Sp.get? u.packets n = none) ∧
    (kind 2 →
      let asid := (t.queue q).d.asid
      let h := t.deviceRead asid addr 16
      let h' := t.deviceRead asid addr (16 + 16 * min 16 (pkt (h.1.getD []) 0 4))
      ∀ ds, h.1.isSome = true → h'.1 = some ds → addr % 8 = 0 → h'.2.gangBad (t.queue q).owner ds = false →
      let rs := readParts asid (pktTag bs) (gangParts ds (min 16 (pkt (h.1.getD []) 0 4))) h'.2
      (rs.1.any fun r => r.compl.2 != 0) = false → rs.2.devWait = none →
      ((t.queue q).prog = [] ∨ (rs.2.deviceRead asid (t.queue q).d.rstate 64).1.isSome = true) →
      ∃ u g, exec (.pktGang q) s = .next u ∧ (Sp.get {} u.gangs g).live = true ∧ (Sp.get {} u.gangs g).packet = n ∧
        n ∈ u.rankQ)

/-- QUEUES AND LAUNCHES (12 R274, R275, R278, R279, R282, R286, R287; 13 R313). A WAITMEM whose word meets its condition, or
whose time is over, completes; a COPY within reach ends; a partition dispatches the LAUNCH at its head when a cluster of it
can be placed; the next launch of an instance follows the one that has completed; a gang at the head of its partitions
commits when its first wave fits, is forced by its deadline, and starts at its time. The next cluster of a dispatched
launch is placed where it fits; at its start time the placed teams of a launch start; a launch of which everything has
ended completes, and nothing of it is left. (The model's readings here: log entries 42 and 43.) -/
def Obligations.QueuesAndLaunches : Prop :=
  (∀ (s : State),
    let s₀ : State := { s with devWait := none }
    (∀ q w, (s.queue q).wait = some w →
      let asid := (s.queue q).d.asid
      (s.vaOwned asid w.addr = false → ∀ bs t, s₀.deviceRead asid w.addr 8 = (some bs, t) →
        w.met (BitVec.ofNat 64 (ofBytes bs)) = true →
        ∃ u, exec (.waitmemPoll q) s = .next u ∧ (u.queue q).wait = none ∧ Sp.get? u.packets w.packet = none) ∧
      (w.till ≠ 0#64 → w.till.toNat ≤ s.time.toNat → ∃ u, exec (.waitmemTimeout q) s = .next u ∧
        (u.queue q).wait = none ∧ (u.queue q).err = 3 ∧ Sp.get? u.packets w.packet = none)) ∧
    (∀ op q index src dst n, (s.opOf op).kind = .copyPkt q index src dst n →
      let o := s.opOf op
      let r := linkView 0 0x7FF
      let a := s.readSource op o r (rangeLines src n)
      let ps := remotePuts a.1 dst src n n
      a.1.held = false → a.1.absent = [] → a.2.absentDest o r ps = [] → a.2.destHeld op r ps = false →
      ∃ u, exec (.copyPacketDone op) s = .next u ∧ Sp.get? u.ops op = none ∧ Sp.get? u.launches o.launch = none ∧
        ∀ ln ∈ o.lines, Sp.get? u.owned ln ≠ some op) ∧
    (∀ part num x t u,
      let p := s.packetOf num
      let q := s.queue p.queue
      let overlay := pkt p.bytes 0x10 8
      s.headOf part = some num → pkt p.bytes 0 1 = 1 → s.mayPlace part = true → s.gangHolds part = false →
      s₀.readLaunch q.d.part q.d.asid (pkt p.bytes 8 8) (pktTag p.bytes) = (.ok x, t) →
      let y : Launch := { x with packet := some num, compl := if overlay = 0 then x.compl else overlay, admin := q.admin }
      ((t.addLaunch y).2.dispatched t.serial).tryPlace t.serial = some u →
      exec (.launchDispatch part) s = .next (u.leaveRank num)) ∧
    (∀ k, (s.instance_ k).live = true → (s.launch (s.instance_ k).launch).life = .finished →
      (s.instance_ k).missedAt = false →
      let t := (({ s₀ with launches := Sp.del s.launches (s.instance_ k).launch } : State).modInst k fun i =>
        { i with cur := i.cur + 1 }).instDispatch k
      t.devWait = none → exec (.instanceNextLaunch k) s = .next t) ∧
    ∀ k,
      let g := Sp.get {} s.gangs k
      g.live = true →
      (g.tg = none → s.gangAtHead g = true → (g.forced = true ∨ ∀ l ∈ g.parts, s.vacatedIn (s.launch l).part = false) →
        let a := if g.headAt.isSome then s else { s with gangs := Sp.put s.gangs k { g with headAt := some s.time } }
        let tg := BitVec.ofNat 64 (max g.start (s.time.toNat + 2000))
        ∀ w, gangWave g.parts (g.parts.foldl (fun s l => s.modLaunch l fun x =>
          { x with r := { x.r with start := max x.r.start tg.toNat } }) a) = some w →
        ∃ u, exec (.gangCommit k) s = .next u ∧ (Sp.get {} u.gangs k).tg = some tg ∧ g.packet ∉ u.rankQ) ∧
      (g.tg = none → g.forced = false → ∀ t, g.headAt = some t → t.toNat + 1000 * g.deadlineUs ≤ s.time.toNat →
        ∃ u, exec (.gangDeadline k) s = .next u ∧ (Sp.get {} u.gangs k).forced = true) ∧
      ∀ t, g.tg = some t → s.reached t = true →
        (∀ kv ∈ s.teams, kv.2.life = .placed → kv.2.launch ∈ g.parts → s.edgeFree kv.2.core = true) →
        ∃ u, exec (.gangStartTime k) s = .next u ∧
          ∀ kv ∈ s.teams, kv.2.life = .placed → kv.2.launch ∈ g.parts → (u.team kv.1).life = .resident) ∧
  (∀ (s : State) (l : Nat),
    let x := s.launch l
    (∀ u, x.life = .placing → x.placed < x.r.grid → s.holdsPart x = true →
      (x.inst = none → s.gangHolds x.part = false ∧ s.vacatedIn x.part = false) → s.tryPlace l = some u →
      exec (.teamPlace l) s = .next u) ∧
    (s.launchBegun x = true →
      (∀ kv ∈ s.teams, kv.2.life = .placed → kv.2.launch = l → s.edgeFree kv.2.core = true) →
      ∃ u, exec (.launchStartTime l) s = .next u ∧
        ∀ kv ∈ s.teams, kv.2.life = .placed → kv.2.launch = l → (u.team kv.1).life = .resident) ∧
    (s.launchOver l = true → x.inst = none → x.gang = none →
      ∃ u, exec (.launchComplete l) s = .next u ∧ Sp.get? u.launches l = none ∧ ∀ kv ∈ u.teams, kv.2.launch ≠ l))

/-- STREAMS (13 R308, R310, R315 to R317, R321, R332). A STREAM create packet that passes every check of its descriptor
and template enters the stream with its admitted budget, or answers the reason for which admission refuses it; alter
takes effect with the next release; destroy lets no further instance be released. An edge of 1PPS advances the lock,
steps time once, forward, at the eighth good one, and later moves only the rate, which lies within 200 ppm of the
counter's own; an offset beyond 1 ms begins holdover; a cross-timestamp is kept.
(The model's readings here: log entry 44.) -/
def Obligations.StreamPackets : Prop :=
  (∀ (s p : State) (q : Nat) (bs : List Byte) (parent : Option Nat),
    let t := p.packetRead q bs parent
    let asid := (t.queue q).d.asid
    let part := (t.queue q).d.part
    let n := streamId bs
    ({ s with devWait := none } : State).peekPacket q = (.packet bs parent, p) → ofBytes (bs.take 1) = 4 →
    (∀ db tb ts t₁ t₂ t₃, streamOp bs = 0 → pkt bs 0x10 8 % 128 = 0 →
      t.deviceRead asid (pkt bs 0x10 8) 128 = (some db, t₁) →
      let d := parseStream db
      let a := t₃.admission part d ts
      streamBad db = false → t₁.deviceRead asid d.tmpl 160 = (some tb, t₂) → tmplFormBad tb = false →
      readTmpl asid tb (pkt tb 0 4) 0 t₂ = (some ts, t₃) → tmplBad d ts = false → (t₃.stream n).on = false →
      (d.isStrip = true → ∀ kv ∈ t₃.streams, kv.2.on = true → kv.2.d.sink = d.sink → kv.2.d.index ≠ d.index) →
      if a.1 ≠ 0 then exec (.pktStreamCreate q) s = .next (t₃.streamReply p.serial 0 a.1)
      else ∃ v : State, exec (.pktStreamCreate q) s = .next (v.streamReply p.serial (budgetOf d ts) 0) ∧
        ({ v with streams := t₃.streams, parts := t₃.parts, teams := t₃.teams } : State) = t₃ ∧
        (∀ k, k ≠ n → v.stream k = t₃.stream k) ∧ (v.stream n).on = true ∧ (v.stream n).closing = false ∧
        (v.stream n).d = d ∧ (v.stream n).tmpl = ts ∧ (v.stream n).budget = budgetOf d ts ∧
        (v.stream n).part = part) ∧
    (∀ db u, streamOp bs = 1 → pkt bs 0x10 8 % 128 = 0 → t.deviceRead asid (pkt bs 0x10 8) 128 = (some db, u) →
      streamBad db = false → u.streamNamed q n = true →
      let d := parseStream db
      exec (.pktStreamAlter q) s = .next
        ((u.modStream n fun st => { st with alter := some (d.dbg, d.linit, d.fill) }).streamReply p.serial
          (u.stream n).budget 0)) ∧
    (streamOp bs = 2 → t.streamNamed q n = true →
      ∃ u, exec (.pktStreamDestroy q) s = .next u ∧
        if t.insts.any (fun kv => kv.2.live && kv.2.stream == n) then
          (u.stream n).closing = true ∧ Sp.get? u.packets p.serial = Sp.get? t.packets p.serial
        else (u.stream n).on = false ∧ Sp.get? u.packets p.serial = none)) ∧
  (∀ (s : State) (offset : Int) (servo : Servo), s.locked = false →
    if offset.natAbs ≤ 250 ∧ 7 ≤ s.ppsGood then
      ∃ u, exec (.ppsEdge offset servo) s = .next u ∧ u.locked = true ∧ u.rate = slewed servo.rate ∧
        u.time = BitVec.ofNat 64 (min (2 ^ 64 - 1) (s.time.toNat + servo.ahead.toNat)) ∧
        ∀ k, (s.stream k).on = true → (u.stream k).admitted = u.time
    else exec (.ppsEdge offset servo) s = .next
      { s with ppsGood := if offset.natAbs ≤ 250 then s.ppsGood + 1 else 0, offset := offset, rate := slewed servo.rate }) ∧
  (∀ (s : State) (offset : Int) (servo : Servo),
    s.locked = true → s.holdover = false → s.slewing = false →
    exec (.ppsEdge offset servo) s = .next (if offset.natAbs ≤ 1000000 then
        { s with offset := offset, rate := slewed servo.rate }
      else { s with holdover := true, ppsGood := 0, offset := offset, offsetMax := offset.natAbs })) ∧
  (∀ rate : BitVec 96, 2 ^ 32 - 858993 ≤ (slewed rate).toNat ∧ (slewed rate).toNat ≤ 2 ^ 32 + 858993 ∧
    (2 ^ 32 - 858993 ≤ rate.toNat → rate.toNat ≤ 2 ^ 32 + 858993 → slewed rate = rate)) ∧
  ∀ (s : State) (host : BitVec 64), exec (.ptmTimestamp host) s = .next { s with ptm := host - s.time }

/-- INSTANCES (13 R310, R313, R315, R317, R320, R321, R332, R333). At S a strip stream releases its next instance, which
takes the altered fields over and whose first launch is dispatched, or which ends where that launch is refused; when a
vacate lead begins the clusters of all borrowers stop issuing; of those that still stand at S - VC - 1 us one that has
drained is vacated and every other is killed; an evaluation sets the level by the predicted finish; at F a strip that has
reached its slot is judged, and another is missed: its slot is MISSED or its number kept, the miss is logged, and the
groups of its instance take cause 0x11, those of a halted team when it is resumed.
(The model's readings here: log entries 44 and 45.) -/
def Obligations.Instances : Prop :=
  (∀ (s : State) (n : Nat),
    let st := s.stream n
    let w := ({ s with devWait := none } : State).modStream n fun st => { st.takeAlter with nextG := st.nextG + 1 }
    let a := w.stream n
    let start := (st.startOf s.time st.nextG).toNat
    let x : Inst := { live := true, stream := n, g := st.nextG, seq := a.count, copy := st.nextG % a.d.q, s := start,
                      level := a.startLevel }
    let e := ({ w with serial := s.serial + 1, insts := Sp.put w.insts s.serial x } : State).modStream n fun st =>
      { st with count := st.count + 1 }
    st.on = true → st.closing = false → st.d.isStrip = true → s.locked = true →
    st.startOf s.time st.nextG ≤ s.time.toNat → ∀ tl, st.tmpl[0]? = some tl →
    (∀ y v, e.checkLaunch st.part st.asid st.tag true { tl.r with start := start } = (.ok y, v) → v.devWait = none →
      ∃ u, exec (.stripRelease n) s = .next u ∧
        (u.stream n).nextG = st.nextG + 1 ∧ (u.stream n).count = st.count + 1 ∧ (u.stream n).alter = none ∧
        (u.stream n).d = st.takeAlter.d ∧
        Sp.get? u.insts s.serial = some { x with launch := v.serial, evalAt := v.time } ∧
        (u.launch v.serial).life = .placing ∧ (u.launch v.serial).inst = some s.serial ∧
        (u.launch v.serial).owner = st.owner ∧ (u.launch v.serial).r = y.r) ∧
    (∀ c b v, e.checkLaunch st.part st.asid st.tag true { tl.r with start := start } = (.refused c b, v) →
      v.devWait = none → ∃ u, exec (.stripRelease n) s = .next u ∧
        (u.stream n).nextG = st.nextG + 1 ∧ (u.stream n).count = st.count + 1 ∧ (u.stream n).alter = none ∧
        (u.instance_ s.serial).live = false)) ∧
  (∀ (s : State) (n : Nat),
    (∃ u, exec (.borrowerVacate n) s = .next u ∧ ({ u with teams := s.teams } : State) = s ∧
      (∀ k, u.team k = { s.team k with stopping := (u.team k).stopping }) ∧
      (∀ k, (s.team k).stopping = true → (u.team k).stopping = true) ∧
      ∀ p ∈ s.leads n, ∀ k ∈ s.borrowersOf n p.1, (u.team k).stopping = true) ∧
    (∀ p k, s.leads n = [p] → s.borrowersOf n p.1 = [k] → (s.team k).stopping = false →
      exec (.borrowerVacate n) s = .next (s.stopCluster k) ∧
      ∀ j ∈ s.clusterOf k, (s.team j).standing = true → ((s.stopCluster k).team j).stopping = true) ∧
    (∃ u, exec (.borrowerKill n) s = .next u ∧
      ∀ p ∈ s.leads n, p.2 - (s.stream n).d.vc - 1000 ≤ s.time.toNat → ∀ k ∈ s.borrowersOf n p.1,
        (u.team k).standing = false ∨ (u.launch (s.team k).launch).killed = true) ∧
    ∀ p k, s.leads n = [p] → p.2 - (s.stream n).d.vc - 1000 ≤ s.time.toNat → s.borrowersOf n p.1 = [k] →
      exec (.borrowerKill n) s = .next (if s.mayLeave k then s.vacateCluster k else s.killCluster k)) ∧
  ∀ (s : State) (k : Nat),
    let i := s.instance_ k
    let st := s.stream i.stream
    let slot := st.d.slotOf true i.g
    let tiles : Int := (s.tilesOf k).tiles
    let room := s.instF k - st.d.guard
    let log := st.missLog ++ [(i.g, s.time)]
    (i.live = true → i.missedAt = false → (s.launch i.launch).isLive = true →
      (16 ≤ i.sinceEval ∨ i.evalAt.toNat + 5000 ≤ s.time.toNat) →
      exec (.almanacEvaluation k) s = .next (s.modInst k fun i => { i with
        sinceEval := 0, evalAt := s.time
        level := if tiles * (room - almanacE) < s.predicted k 4 then 4
          else if tiles * room < s.predicted k i.level then min 4 (i.level + 1) else i.level })) ∧
    (Sp.has s.insts k = true → i.judged = false → s.instF k ≤ s.time.toNat →
      let mark := fun (t : Stream) =>
        (if (st.slot true slot).life = .acquired ∧ (st.slot true slot).inst = k then
          (t.slot true slot).life = .missed ∧ t.missed = st.missed
        else t.missed = st.missed ++ [i.g])
      if st.d.isStrip && st.hasReached i.g then
        let j := s.modInst k fun i => { i with judged := true }
        exec (.stripDeadline k) s = .next (if i.live then j else { j with insts := Sp.del j.insts k })
      else if i.live then
        ∃ v : State, ({ v with streams := s.streams, insts := s.insts, launches := s.launches, teams := s.teams } : State) = s ∧
          (v.stream i.stream).missLog = log ∧ (st.d.isStrip = true → mark (v.stream i.stream)) ∧
          v.instance_ k = { i with judged := true, missedAt := true, err := true, cause := firstCause i.cause 0x11#8 } ∧
          (i.packet = none → v.launch i.launch = { s.launch i.launch with
            err := true, cause := firstCause (s.launch i.launch).cause 0x11#8 }) ∧
          (i.packet ≠ none → v.launches = s.launches) ∧
          (∀ tn, v.team tn = if (s.team tn).launch = i.launch ∧ (s.team tn).halted = true then
            { s.team tn with owesMiss := some (BitVec.ofNat 32 i.g) } else s.team tn) ∧
          let ns := (v.groupsOf i.launch).filter fun n => !(v.teamOf n).halted
          let u := ns.foldl (fun v n => v.strike n 0x11#8 (BitVec.ofNat 32 i.g) true) v
          exec (.stripDeadline k) s = .next (if (u.launch i.launch).life = .finished then u.endInst k else u)
      else ∃ u, exec (.stripDeadline k) s = .next u ∧ Sp.get? u.insts k = none ∧
        (u.stream i.stream).missLog = log ∧ (st.d.isStrip = true → mark (u.stream i.stream)))

/-- SCHEDULING (03 R56; 04 R92; 12 R289, R290, R292, R293, R305; 14 R367; 16 R395). The candidate passed over longest, for 4,096
cycles or more, is due; the entry passed over most, for 512 issues or more, is promoted; an evicted line comes back with
its values; a lantern goes to the group that is next, and returns after 256 idle cycles; the pool and its reserved counts
are set, unless that would take from a timed reservation: then the background cores are slowed and the shortfall is
reported; a long-latency result releases its interlock; a timing error changes nothing but its counts; a sample
that fell due becomes a record of the group that issued in its cycle; a `SLEEP` whose target is reached ends.
(The model's readings here: log entries 21 and 22.) -/
def Obligations.Scheduling : Prop :=
  (∀ (s : State) (core sched n : Nat),
    let k := 4 * core + sched
    n ∈ s.candidates k → 4096 ≤ (s.grp n).aging →
    (∀ m ∈ s.candidates k, m = n ∨ (s.grp m).aging < (s.grp n).aging) →
    exec (.issueAging core sched) s = .next (s.modSched k fun x => { x with due := some n })) ∧
  (∀ (s : State) (n : Nat) (e : Entry), e ∈ ((s.grp n).frontier.filter fun e => !e.trap).drop 1 → 512 ≤ e.passed →
    (∀ d ∈ ((s.grp n).frontier.filter fun e => !e.trap).drop 1, d = e ∨ d.passed < e.passed) →
    exec (.frontierPromotion n) s = .next (s.modGrp n fun g => { g with promote := some (e.pc, e.prio) })) ∧
  (∀ (s : State) (n r : Nat), r ∈ (s.grp n).evicted →
    ∃ u, exec (.evictedLineFetch n r) s = .next u ∧ ({ u with groups := s.groups } : State) = s ∧
      (∀ k, ({ u.grp k with evicted := (s.grp k).evicted, lineUse := (s.grp k).lineUse } : Group) = s.grp k) ∧
      Sp.get 0 (u.grp n).lineUse r = s.cycle ∧
      (s.roomy (s.schedOf n) = true → (u.grp n).evicted = (s.grp n).evicted.filter (· != r))) ∧
  (∀ (s : State) (n : Nat),
    (s.fw.lanternsOn = true → s.lanternNext = some n → exec (.lanternGrant n) s = .next
      (s.modGrp n fun g => { (g.setPark none) with lantern := true, lanternIdle := 0 })) ∧
    ((s.grp n).lantern = true → 256 ≤ (s.grp n).lanternIdle → exec (.lanternIdleReturn n) s = .next
      (s.modGrp n fun g => { g with lantern := false, lanternIdle := 0 })) ∧
    (∀ t, (s.grp n).wait = some (.sleep t) → s.reached t = true →
      exec (.sleepWake n) s = .next ((s.modGrp n fun g => { g with wait := none }).settle n)) ∧
    ∀ lock, exec (.longLatencyResult n lock) s = .next (s.modGrp n fun g =>
      { g with locks := g.locks.filter fun k => k.id != lock || k.kind != .result })) ∧
  (∀ (s : State) (pool : Nat) (reserved : List (Nat × Nat)),
    if pool = 0 then exec (.lanternPoolChange pool reserved) s = .next
      (s.modFw fun f => { f with lanternsOn := false, pool := 0, slow := false })
    else 256 ≤ pool → pool ≤ 1020 →
      let given := fun (k : Nat) => ((reserved.find? fun p => p.1 == k).map (·.2)).getD 0
      if pool < s.timedLanterns ∨ ∃ kv ∈ s.parts, given kv.1 < s.timedIn kv.1 then
        exec (.lanternPoolChange pool reserved) s = .next (s.modFw fun f =>
          { f with slow := true, shortfalls := f.shortfalls + 1 })
      else (reserved.map (·.2)).sum ≤ pool →
        ∃ u, exec (.lanternPoolChange pool reserved) s = .next u ∧
          ({ u with parts := s.parts } : State) = s.modFw (fun f =>
            { f with lanternsOn := true, pool := pool, slow := false }) ∧
          ∀ k, Sp.has s.parts k = true → u.part k = { s.part k with lanterns := given k }) ∧
  ∀ (s : State) (core sched : Nat),
    let k := 4 * core + sched
    let x := s.sched k
    (s.guarded core = false → x.guard = false → x.last.isSome = true → exec (.timingErrorReplay core sched) s = .next
      (s.modSched k fun x => { x with replays := x.replays + 1, guard := x.replayed, replayed := !x.replayed })) ∧
    (x.sampled ≠ 0 →
      let t := s.modSched k fun x => { x with sampled := 0 }
      (s.groupsAt k = [] → x.last = none → exec (.sampleRecord core sched) s = .next t) ∧
      ∀ n, x.last = some n → x.lastAt + 1 = x.sampled → (s.grp n).live = true → s.sampledGroup n = true →
        exec (.sampleRecord core sched) s = .next (t.trace (s.grp n).team (s.grp n).gid 8
          (match (s.grp n).frontier.head? with
            | some e => e.pc.toNat
            | none => 0)))

/-- WHAT THE DEVICE WATCHES (12 R294, R295, R296, R420; 15 R373, R386). The oldest waiting sub-group enters trap mode, and
nothing else of its group changes; an asynchronous failure becomes a record over the head entry of a group that can take
it, else shows in the completion record; Vigil strikes every resident group, or the one that waits too long, and kills a
launch without a handler; a cluster too hot for its core is vacated; a partition bound to none is bound at once, while
of one that is rebound the queues stop and, with a save, the teams begin to be vacated; at the deadline what still runs
is killed, and once nothing is left the partition is the new owner's.
(The model's readings here: log entries 46, 47, 72, 84 and 85.) -/
def Obligations.Watches : Prop :=
  (∀ (s : State) (n : Nat) (h : Sub) (rest : List Sub),
    let g := s.grp n
    let l := (s.teamOf n).launch
    g.live = true → g.trap = none → g.subs = h :: rest → (s.team g.team).frozen g.gid = false →
    ∃ t : State, exec (.trapEntry n) s = .next ((t.trace g.team g.gid 5 h.frec.pc.toNat).settle n) ∧
      ({ t with groups := s.groups, launches := s.launches, reads := s.reads } : State) = s ∧
      (∀ k, k ≠ n → t.grp k = s.grp k) ∧ (∀ k, k ≠ l → t.launch k = s.launch k) ∧ (g.burst = none → t.reads = s.reads) ∧
      t.launch l = { s.launch l with faults := (s.launch l).faults + 1 } ∧
      { t.grp n with frontier := g.frontier, subs := g.subs, trap := g.trap, tWait := g.tWait, tPark := g.tPark,
                     viaTrap := g.viaTrap, firstCause := g.firstCause, lantern := g.lantern,
                     lanternIdle := g.lanternIdle } = g ∧
      (t.grp n).trap = some h ∧ (t.grp n).subs = rest ∧ (t.grp n).viaTrap = true ∧
      (t.grp n).firstCause = firstCause g.firstCause h.frec.cause ∧
      ∀ i, h.frec.mask.getLsbD i = true →
        (t.grp n).standsAt i (s.launch l).handlerPc (s.launch l).handlerPrio true) ∧
  (∀ (s : State) (f : AsyncFail), s.fails.find? s.reportNow = some f →
    let t : State := { s with fails := s.fails.erase f }
    (s.reportTo f = none → exec .asyncFailureReport s = .next (t.modLaunch f.launch fun x =>
      { x with asyncf := true, err := true, cause := firstCause x.cause f.cause })) ∧
    ∀ n, s.reportTo f = some n → exec .asyncFailureReport s = .next (match (s.grp n).frontier with
      | e :: _ => (t.takeTrap n {
          cause := f.cause, mixed := false, async := true, done := false, op := t.opAt n e.pc,
          mask := e.mask, pc := e.pc, vline := 0#64, prio := e.prio, recIdx := none,
          aux := BitVec.ofNat 32 (f.op.toNat + 256 * (f.gid % 256)) } []).settle n
      | [] => t)) ∧
  (∀ (s : State) (l : Nat), s.noIssueDue l = true →
    let t := s.modLaunch l fun x => { x with lastIssue := s.time }
    let v := (s.groupsOf l).foldl (fun s n => s.strike n 0x0C#8 1#32 false) t
    if (s.launch l).hasHandler then exec (.vigilNoIssue l) s = .next v
    else ∃ u, u = (v.modLaunch l fun x => { x with vigil := true }).killLaunch l ∧
      exec (.vigilNoIssue l) s = .next u ∧ (u.launch l).vigil = true ∧ (u.launch l).killed = true ∧
      (u.launch l).lastIssue = s.time) ∧
  (∀ (s : State) (n : Nat), s.longWaitDue n = true →
    let l := (s.teamOf n).launch
    let v := (s.modGrp n fun g => g.restartWaits s.time).strike n 0x0C#8 2#32 false
    if (s.launchOf n).hasHandler then exec (.vigilLongWait n) s = .next v
    else ∃ u, u = (v.modLaunch l fun x => { x with vigil := true }).killLaunch l ∧
      exec (.vigilLongWait n) s = .next u ∧ (u.launch l).vigil = true ∧ (u.launch l).killed = true) ∧
  (∀ (s : State) (n : Nat) (e : Entry) (cause : BitVec 8) (aux : Word),
    let g := s.grp n
    let hit := fun (done : Bool) (op : BitVec 8) (pc : VAddr) (saved : List Entry) => ((s.setGrp n g).takeTrap n {
        cause := cause, mixed := false, async := false, done := done, op := op, mask := e.mask, pc := pc, vline := 0#64, prio := e.prio, recIdx := none, aux := aux } saved).settle n
    g.live = true → g.frontier = [e] → e.trap = false → e.mask ≠ 0#32 → g.conv = [] → g.rl = [] → g.loops = [] →
    g.recov = [] → g.park = none →
    (g.wait = none → s.strike n cause aux false = hit false (s.opAt n e.pc) e.pc []) ∧
    (g.wait.isSome = true → e.pc = g.waitNext → e.prio = g.waitPrio →
      s.strike n cause aux false = hit true g.waitOp g.waitPc [{ e with passed := 0 }])) ∧
  (∀ (s : State) (heat : HeatCheck),
    let tn := heat.team
    let t := s.heated heat
    if t.tooHot tn && (s.clusterOf tn).all s.mayMigrate && (s.team tn).life == .resident then
      ∃ u, exec (.thermalMigration heat) s = .next u ∧ ({ u with teams := t.teams } : State) = t ∧
        ∀ k, u.team k = if k ∈ s.clusterOf tn then
          { s.team k with stopping := true, leftHot := some (t.core (s.team k).core).temp } else s.team k
    else exec (.thermalMigration heat) s = .next t) ∧
  ∀ (s : State) (part : Nat),
    let p := s.part part
    let bound := fun (t : State) (r : PartLoad) => (t.part part).owner = r.owner ∧ (t.part part).rebind = none ∧
      (∀ q k, Sp.get? t.queues q = some k → k.d.part = part → k.owner = r.owner) ∧
      ∀ n st, Sp.get? t.streams n = some st → st.part ≠ part
    (∀ (rect : Rect) (r : PartLoad), part < 16 → s.loadOk part r = true → p.rebind = none →
      (p.on = true → ∃ u, exec (.partitionRebind part rect r) s = .next u ∧
        ({ u with parts := s.parts, queues := s.queues, teams := s.teams } : State) = s ∧
        (∀ k, u.part k = if k = part then { p with rebind := some r } else s.part k) ∧
        (∀ q k, Sp.get? s.queues q = some k →
          u.queue q = if k.d.part = part then { k with stopped := true } else k) ∧
        (r.save = false → u.teams = s.teams) ∧
        (∀ k, u.team k = { s.team k with stopping := (u.team k).stopping }) ∧
        (r.save = true → ∀ k x, Sp.get? s.teams k = some x → x.standing = true → (s.launch x.launch).part = part →
          (s.launch x.launch).r.cls ≠ 2 → (u.team k).stopping = true)) ∧
      (p.on = false → r.owner ≠ 0 → s.freeRect part rect = true →
        let t := (({ s with devWait := none } : State).setRect part rect).rebound part r
        t.devWait = none → exec (.partitionRebind part rect r) s = .next t ∧ bound t r ∧ (t.part part).on = true ∧
          (t.part part).x = rect.x ∧ (t.part part).y = rect.y ∧ (t.part part).w = rect.w ∧ (t.part part).h = rect.h)) ∧
    ∀ r, p.rebind = some r → r.deadline.toNat ≤ s.time.toNat →
      let v := s.rebindKill part
      if v.rebindLeft part = [] then
        let t := ({ v with devWait := none } : State).rebound part r
        t.devWait = none → exec (.rebindDeadline part) s = .next t ∧ bound t r
      else exec (.rebindDeadline part) s = .next v ∧ ∀ l ∈ s.rebindLeft part, (v.launch l).killed = true

/-- SINKS (13 R309, R330 to R332). A display head scans its next strip at its time: the WRITTEN slot, which it consumes,
or what conceals a missed strip; at the last line the slot is released. An encoder session takes its next row at its
slot time in the same way, from when no stall moves the row's F, releases the oldest row that it holds once it is coded,
and holds its slot times, and the coding of its rows, still while it is stalled. (The model's readings here: log entry 37.) -/
def Obligations.SinksAtWork : Prop :=
  ∀ (s : State) (n : Nat),
    let st := s.stream n
    let g := st.sinkNext
    let i := st.d.slotOf true g
    let only := fun (u : State) => ({ u with streams := s.streams } : State) = s ∧ ∀ k, k ≠ n → u.stream k = s.stream k
    let rowF := fun (x : Inst) => if x.stream = n ∧ x.g = g then { x with f := (st.deadline s.time g).toNat } else x
    let whole : SinkOut := { g := g, concealed := false, fill := false, bytes := st.slotPixels i }
    (st.isDisplay = true → st.scanning = none → s.locked = true → st.scanTime g 0 ≤ s.time.toNat →
      s.judgedStrip n g = true → ∃ u, exec (.displayScanStart n) s = .next u ∧ only u ∧
        (u.stream n).scanning = some g ∧ (u.stream n).sinkNext = g ∧
        if st.ready g then ((u.stream n).slot true i).life = .consuming ∧ (u.stream n).sinkOut = st.sinkOut ++ [whole]
        else (u.stream n).out = st.out ∧ (u.stream n).sinkOut = st.sinkOut ++ [st.concealDisplay g]) ∧
    (∀ h, st.isDisplay = true → st.scanning = some h → st.scanTime h st.d.h ≤ s.time.toNat →
      let x := st.slot true (st.d.slotOf true h)
      ∃ u, exec (.displayScanEnd n) s = .next u ∧ (u.stream n).scanning = none ∧ (u.stream n).sinkNext = h + 1 ∧
        (x.life = .consuming → x.g = h → ((u.stream n).slot true (st.d.slotOf true h)).life ≠ .consuming)) ∧
    (st.isEncoder = true → st.stalled = none → s.locked = true → st.deadline s.time g ≤ s.time.toNat →
      s.judgedStrip n g = true → ∃ u, exec (.encoderSlotTime n) s = .next u ∧
        only { u with insts := s.insts } ∧ (∀ k, u.instance_ k = if Sp.has s.insts k then rowF (s.instance_ k) else {}) ∧
        (u.stream n).sinkNext = g + 1 ∧
        if st.ready g then ((u.stream n).slot true i).life = .consuming ∧
          (u.stream n).coding = st.coding ++ [(g, s.time)] ∧ (u.stream n).sinkOut = st.sinkOut ++ [whole]
        else (u.stream n).out = st.out ∧ (u.stream n).sinkOut = st.sinkOut ++ [st.concealRow g]) ∧
    (∀ h since r, st.isEncoder = true → st.stalled = none → st.coding = (h, since) :: r →
      since.toNat + Sp.get 0 s.codeNs st.d.index ≤ s.time.toNat →
      let x := st.slot true (st.d.slotOf true h)
      ∃ u, exec (.encoderRowCoded n) s = .next u ∧ (u.stream n).coding = r ∧
        (x.life = .consuming → x.g = h → ((u.stream n).slot true (st.d.slotOf true h)).life ≠ .consuming)) ∧
    (st.isEncoder = true → st.stalled = none → ∃ u, exec (.encoderStall n) s = .next u ∧ only u ∧
      u.stream n = { st with stalled := some s.time }) ∧
    ∀ t, st.isEncoder = true → st.stalled = some t → ∃ u, exec (.encoderResume n) s = .next u ∧ only u ∧
      u.stream n = { st with
        stalled := none, stallNs := st.stallNs + (s.time - t).toNat
        coding := st.coding.map fun p => (p.1, p.2 + (s.time - t)) } ∧
      ∀ k, (u.stream n).deadline u.time k = st.deadline s.time k

/-- RECOVERY (12 R307, R420; 13 R317; 14 R350, R351; 15 R368, R381, R382, R384). Firmware services the oldest page of a
core's fault queue for every group of the core: lanes whose page is supplied go back to the instruction, or take the
cause they owe; lanes of a page that it cannot supply trap with cause 0x01, in trap mode are killed with it, and at an
image instruction go on without the page. A page moves to another tier with its bytes, its leaf names the new frame, and
no translation of it stays. A drained cluster is discarded or saved, or killed where it is a borrower that can be
neither; it comes back on its cores, a discarded group at its `IDEMB`.
(The model's readings here: log entries 11, 41 and 48.) -/
def Obligations.Recovery : Prop :=
  (∀ (s : State) (core asid page : Nat) (rest : List (Nat × Nat)), (s.core core).faultQ = (asid, page) :: rest →
    let ns := (s.teamsAt core fun _ => true).flatMap fun kv => kv.2.groups.map (·.2)
    let serve := fun (supplied : Bool) => (ns.foldl (fun s n => s.serviceGroup n asid page supplied)
      (s.modCore core fun c => { c with faultQ := rest })).tellEngines core asid page supplied
    let lost := (serve false).forceRuns core asid page
    let note := fun (t : State) (supplied : Bool) => t.modFw fun f => f.noteDenied asid page supplied
    exec (.faultService core true) s = .next
      ((if core = 0 then note (serve true) true else serve true).retryWaiting core) ∧
    exec (.faultService core false) s = .next
      ((if core = 0 then (note lost false).refusePeers asid page else lost).retryWaiting core)) ∧
  (∀ (s : State) (n asid page : Nat) (supplied : Bool),
    let here := (s.grp n).recov.filter fun r => r.asid == asid && r.page == page && r.queued
    (here = [] → s.serviceGroup n asid page supplied = s) ∧
    ∀ r, here = [r] →
      let t := s.modGrp n fun g => { g with recov := g.recov.erase r }
      let rec_ := fun (cause : BitVec 8) (vline : BitVec 64) (aux : Word) =>
        ({ cause := cause, mixed := false, async := false, done := false, op := r.op, mask := r.mask, pc := r.pc,
           vline := vline, prio := r.prio, recIdx := r.recIdx, aux := aux } : FaultRec)
      let again := fun (t : State) => match r.owe with
        | none => t.modGrp n fun g => g.addLanes r.pc r.prio r.mask r.trap
        | some (cause, aux) => t.takeTrap n { rec_ cause 0#64 aux with recIdx := none } []
      s.serviceGroup n asid page supplied = (
        if supplied then again (t.annotate (s.grp n).team (s.grp n).gid 1 r.pc)
        else if r.isImage then again (t.modGrp n fun g => { g with noPage := page :: g.noPage })
        else if r.trap then t.killLanes n (rec_ 0x01#8 r.vline 0#32)
        else t.takeTrap n (rec_ 0x01#8 r.vline 0#32) []).settle n) ∧
  (∀ (s : State) (asid va frame tier : Nat) (lf : Leaf), s.walk asid va = .leaf lf →
    let n := 2 ^ leafBits lf.level
    let pa := lf.pa va / n * n
    let entry := lf.entryOf va
    let range := (va / n * (n / 2 ^ 17), n / 2 ^ 17)
    let q := s.quietPage pa n
    let e := ofBytes (q.homeBytes entry 8)
    if s.mayMovePage asid { lf with entry := entry } pa n frame tier then
      Memory.wf s.mem = true → Sp.wf 0 s.garble = true →
      (entry + 8 ≤ frame ∨ frame + n ≤ entry) → (entry + 8 ≤ pa ∨ pa + n ≤ entry) →
      ∃ u, exec (.tierMigration asid va frame tier) s = .next u ∧
        (∀ k, k < n → u.homeByte (frame + k) = q.homeByte (pa + k)) ∧
        (∀ a, (a < frame ∨ frame + n ≤ a) → (a < pa ∨ pa + n ≤ a) → (a < entry ∨ entry + 8 ≤ a) →
          u.homeByte a = q.homeByte a) ∧
        (let f := ofBytes (u.homeBytes entry 8)
         field f 17 35 = frame / 2 ^ 17 ∧ field f 8 2 = tier ∧ field f 13 1 = 0 ∧ field f 0 8 = field e 0 8 ∧
            field f 10 3 = field e 10 3 ∧ field f 14 3 = field e 14 3 ∧ field f 52 12 = field e 52 12) ∧
        (∀ j k x, Sp.get? (Sp.get [] u.stlb j) k = some x → keyIn asid (some range) k = false) ∧
        ∀ c k x, s.coreInAsid asid c = true → Sp.get? (u.core c).tlb k = some x → keyIn asid (some range) k = false
    else exec (.tierMigration asid va frame tier) s = .next s) ∧
  (∀ (s : State) (tn : Nat),
    exec (.teamVacate tn) s = .next (if s.mayLeave tn then s.vacateCluster tn else s) ∧
    (s.mayLeave tn = true →
      if (s.standingWith tn).any s.unsavable then ((s.vacateCluster tn).launch (s.team tn).launch).killed = true
      else ∀ k ∈ s.standingWith tn,
        ((s.vacateCluster tn).team k).life = (if s.discards k then .discarded else .saved) ∧
        ((s.vacateCluster tn).team k).stopping = false ∧ ((s.vacateCluster tn).team k).lent = none)) ∧
  ∀ (s : State) (tn core : Nat) (lent : Option (Nat × List Nat)), s.restoreSlots tn core = some lent →
    (s.launch (s.team tn).launch).isLive = true →
    let u := (s.placesFrom tn core).foldl (fun s p => s.standOn p.1 p.2 lent) s
    ((s.team tn).life = .saved → exec (.teamRestore tn core) s = .next u) ∧
    ((s.team tn).life = .discarded → exec (.teamDiscardRestart tn core) s = .next u) ∧
    (∀ p ∈ s.placesFrom tn core, (u.team p.1).core = p.2 ∧ (u.team p.1).lent = lent ∧ (u.team p.1).leftHot = none ∧
      ((u.team p.1).life = .ended ∨ (u.team p.1).life =
        if s.launchBegun (s.launch (s.team p.1).launch) then .resident else .placed)) ∧
    ∀ p, s.placesFrom tn core = [p] → (s.team p.1).life = .discarded →
      ∀ kv ∈ (s.team p.1).groups, ∀ r, (s.grp kv.2).live = true → (s.grp kv.2).region = some r →
        (u.grp kv.2).frontier = [⟨r.pc, r.prio, r.mask, false, 0⟩] ∧ (u.grp kv.2).v = r.v ∧ (u.grp kv.2).s = r.s ∧
          (u.grp kv.2).p = r.p ∧ (u.grp kv.2).mode = r.mode

/-- ERRORS AND COMPLETIONS (05 R132; 08 R197; 15 R388, R389). The noise source fills its buffer, or fails for good,
of which firmware is notified; a corrected error is counted; an uncorrectable one poisons a line with every copy, a
sector, a sector of a strip's rings or halo, or a register lane; the completion of an I/O load writes its registers, poisoned where it failed or timed out, and releases them.
(The model's readings here: log entries 7 and 51.) -/
def Obligations.ErrorsAndCompletions : Prop :=
  (∀ (s : State) (c : Nat),
    exec (.rngHealthFailure c) s = .next ((s.modCore c fun k => { k with noise := 0, noiseFailed := true }).modFw fun f =>
      { f with noiseLost := if c ∈ f.noiseLost then f.noiseLost else f.noiseLost ++ [c] }) ∧
    ((s.core c).noiseFailed = false → exec (.randBitsReady c) s = .next
      (s.modCore c fun k => { k with noise := min 2048 (k.noise + 1024) })) ∧
    exec (.eccCorrected c) s = .next
      (s.modFw fun f => { f with ecc := Sp.put f.ecc c (Sp.get 0 f.ecc c + 1) })) ∧
  (∀ (s : State) (line : Nat),
    let lost := fun (u : State) => u.linePoison line = true ∧
      (∀ k, k ≠ line → u.linePoison k = s.linePoison k) ∧ u.mem = s.mem ∧
      ∀ c x, Sp.get? (u.core c).l1 line = some x → x.bad = true
    (∃ u, exec (.eccUncorrectable (.line line)) s = .next u ∧ lost u) ∧
    ∃ u, exec (.cxlPoison line) s = .next u ∧ lost u) ∧
  (∀ (s : State) (n k l : Nat) (part : StripPart),
    (32 * k < (s.team n).ssize → exec (.eccUncorrectable (.sector n k)) s = .next
      (s.modTeam n fun t => { t with scrBad := Sp.set false t.scrBad k true })) ∧
    exec (.eccUncorrectable (.strip n part k)) s = .next (s.modStream n fun st => match part with
      | .source => { st with srcBad := Sp.set false st.srcBad k true }
      | .output => { st with outBad := Sp.set false st.outBad k true }
      | .halo => { st with haloBad := Sp.set false st.haloBad k true }) ∧
    (k < (s.grp n).nv → l < 32 → ∃ u, exec (.eccUncorrectable (.vreg n k l)) s = .next u ∧
      (u.grp n).vPoison k l = true ∧ (u.grp n).v = (s.grp n).v) ∧
    (k < (s.grp n).ns → ∃ u, exec (.eccUncorrectable (.sreg n k)) s = .next u ∧
      (u.grp n).sPoison k = true ∧ (u.grp n).s = (s.grp n).s)) ∧
  ∀ (s : State) (id : Nat) (good : Bool) (data : List Byte) (r : IoRead), Sp.get? s.ioReads id = some r →
    (s.launchOf r.group).r.logMode = 0 → r.regs.Pairwise (· ≠ ·) →
    let ends := fun (i : Instr) (good : Bool) (data : List Byte) => ∃ u, exec i s = .next u ∧
      ({ u with groups := s.groups, ioReads := s.ioReads } : State) = s ∧
      (∀ n, n ≠ r.group → { u.grp n with evicted := (s.grp n).evicted } = s.grp n) ∧
      Sp.get? u.ioReads id = none ∧ (∀ k ∈ (u.grp r.group).locks, k.kind ≠ .io id) ∧
      let w := fun (j : Nat) => BitVec.ofNat 32 (extendLoad r.code.toNat (data.take r.size) / 2 ^ (32 * j))
      ((∀ q ∈ r.regs, q.1 < 0xC0 ∧ q.2 < 32) → ∀ j q, r.regs[j]? = some q →
        (u.grp r.group).vreg q.1 q.2 = w j ∧ (u.grp r.group).vPoison q.1 q.2 = !good) ∧
      ((∀ q ∈ r.regs, 0xC0 ≤ q.1 ∧ q.2 < 32) → r.regs.Pairwise (·.1 ≠ ·.1) → ∀ j q, r.regs[j]? = some q →
        (u.grp r.group).sreg (q.1 - 0xC0) = w j ∧ (u.grp r.group).sPoison (q.1 - 0xC0) = !good)
    ends (.ioLoadCompletion id good data) good data ∧ ends (.ioCompletionTimeout id) false []

/-- ACCESSES FROM OUTSIDE (08 R191, R195, R196; 11 R254 to R256, R260; 14 R361). A read of the BAR 2 window or a load of a
peer that need not wait answers the committed bytes, and a write of the window changes exactly its bytes; an access
outside the window is dropped and counted; a peer's load of a page that is absent waits while firmware services it. A
store of a peer is held for its core and changes no memory until the commit that makes it visible; the bytes of a peer's
remote put take their lines and discard what the core had pending there; an `ATOM` of a peer is done at home, unless the
line is poisoned. A port trains with its key; a flit in error is counted; both bring the coding table back; the signals
on their way to a peer that becomes unreachable end. (The model's readings here: log entries 33 and 34.) -/
def Obligations.AccessesFromOutside : Prop :=
  (∀ (s : State) (i : Request) (t : State) (l : List (Nat × Nat)), s.mustQueue i = false →
    let answers := fun (t : State) (e : Instr) =>
      let recalled := l.foldl (fun s p => (s.recall (lineOf p.1)).countHome (lineOf p.1)) t
      exec e s = .next (recalled.modFw fun f => { f with
        bar2Data := l.flatMap fun p => recalled.homeBytes p.1 p.2
        bar2Poison := l.any fun p => recalled.linePoison (lineOf p.1), bar2Abort := false })
    let before := fun (pa : Nat) => t.recall (lineOf pa)
    match i with
    | .bar2Read fn off n => fn < 64 →
      (∀ asid ps, s.windowAt fn off n = some (asid, ps) → inboundAll asid .load true ps s = .ok (l, t) →
        answers t (.bar2Read fn off n)) ∧
      (s.windowAt fn off n = none → ∃ u, exec (.bar2Read fn off n) s = .next u ∧ u.fw.drops = s.fw.drops + 1 ∧
        u.fw.bar2Data = [] ∧ u.fw.bar2Abort = true)
    | .bar2Write fn off d => fn < 64 →
      (∀ asid ps pa, s.windowAt fn off d.length = some (asid, ps) → l = [(pa, d.length)] →
        inboundAll asid .store true ps s = .ok (l, t) → ∃ u, exec (.bar2Write fn off d) s = .next u ∧
          ∀ a, u.homeByte a = if pa ≤ a then d.getD (a - pa) ((before pa).homeByte a) else (before pa).homeByte a) ∧
      (s.windowAt fn off d.length = none → ∃ u, exec (.bar2Write fn off d) s = .next u ∧
        ({ u with fw := s.fw } : State) = s ∧ u.fw.drops = s.fw.drops + 1)
    | .peerLoad p o va n => ∀ asid, s.asidHere o = some asid →
      (inboundAll asid .load true (pieces va n) s = .ok (l, t) → answers (t.linkUse p n) (.peerLoad p o va n)) ∧
      ∀ page, inboundAll asid .load true (pieces va n) s = .error (.absent page t) →
        exec (.peerLoad p o va n) s = .next ((t.modCore 0 fun c => c.queuePage asid page).holdIn i)
    | .peerStore p c o va w => let d := w.data
      ∀ asid pa, s.asidHere o = some asid → l = [(pa, d.length)] →
      inboundAll asid .store false (pieces va d.length) s = .ok (l, t) →
      let v := t.linkUse p d.length
      let meets := fun (k a : Nat) => k = overKey p c ∧ pa ≤ a ∧ a < pa + d.length
      ∃ u, exec (.peerStore p c o va w) s = .next u ∧
        (∀ k a, ¬ meets k a → Sp.get? (Sp.get [] u.peerOver k) a = Sp.get? (Sp.get [] v.peerOver k) a) ∧
        if w.put then
          ({ u with peerOver := v.peerOver, ops := v.ops, owned := v.owned, serial := v.serial } : State) = v ∧
          (∀ k a, meets k a → Sp.get? (Sp.get [] u.peerOver k) a = none) ∧
          (∀ k, k < d.length → ∀ b, (u.opOf v.serial).kind = .inPut b → Sp.get? b (pa + k) = d[k]?) ∧
          (∃ b, (u.opOf v.serial).kind = .inPut b) ∧
          ∀ k, k < d.length → Sp.get? v.owned (lineOf (pa + k)) = none →
            Sp.get? u.owned (lineOf (pa + k)) = some v.serial
        else ({ u with peerOver := v.peerOver } : State) = v ∧
          ∀ k a, meets k a → Sp.get? (Sp.get [] u.peerOver k) a = d[a - pa]?
    | .peerAtom p c o va n op ty arg swap => ∀ asid pa, s.asidHere o = some asid → l = [(pa, n)] →
      inboundAll asid .atomic true (pieces va n) s = .ok (l, t) →
      ((Sp.get [] t.peerOver (overKey p c)).any fun kv => lineOf kv.1 == lineOf pa) = false →
      let old := (before pa).homeBytes pa n
      let bad := (before pa).linePoison (lineOf pa)
      let new := toBytes n (atomNew op ty (ofBytes old) arg.toNat swap.toNat)
      ∃ u, exec (.peerAtom p c o va n op ty arg swap) s = .next u ∧ u.fw.bar2Data = old ∧ u.fw.bar2Poison = bad ∧
        ∀ a, u.homeByte a = if !bad && decide (pa ≤ a) then new.getD (a - pa) ((before pa).homeByte a)
          else (before pa).homeByte a
    | .peerCommit p c =>
      let o := Sp.get [] s.peerOver (overKey p c)
      (o.all fun kv => !s.isOwned (lineOf kv.1)) = true → Sp.sorted o = true → (s.cores.all fun kv => kv.2.upd.isEmpty) = true →
      ∃ u, exec (.peerRemoteCommit p c) s = .next u ∧ Sp.get? u.peerOver (overKey p c) = none ∧
        ∀ a, u.homeByte a = (Sp.get? o a).getD (s.homeByte a)
    | .signal _ _ _ _ => True) ∧
  (∀ (s : State) (port : Nat) (key : BitVec 256),
    (port < 18 → exec (.linkTraining port key) s = .next (s.modFw fun f => { f with
      linkKeys := Sp.put f.linkKeys port key, coding := Sp.put f.coding port true
      codingFill := Sp.put f.codingFill port 0, codingStep := Sp.put f.codingStep port 0 })) ∧
    (Sp.has s.fw.linkKeys port = true → exec (.linkFlitError port) s = .next (s.modFw fun f => { f with
      flits := Sp.put f.flits port (Sp.get 0 f.flits port + 1), coding := Sp.put f.coding port true
      codingFill := Sp.put f.codingFill port 0, codingStep := Sp.put f.codingStep port 0 }))) ∧
  ∀ (s : State) (peer : Nat), peer ≠ s.fw.deviceId → s.fw.lost.contains peer = false →
    ∃ u, exec (.peerUnreachable peer) s = .next u ∧ u.fw.lost = s.fw.lost ++ [peer] ∧
      ∀ k o port team off w, Sp.get? s.ops k = some o → o.kind = .rsig peer port team off w →
        Sp.get? u.ops k = none ∧ (⟨o.group, o.team, o.launch, o.gid, o.op, 0x02#8⟩ : AsyncFail) ∈ u.fails

/-- THE HOST MAILBOX (12 R272; 14 R342, R352, R359 to R362; 15 R374; 16 R394, R396, R398). For a function that is bound to
an owner, while firmware runs, each command that its conditions allow has its effect and answers status 0 in the
function's response area; of the services of Table 14.5 this is said of QUERY and DOMAIN, and a service that does not
exist answers 1.
(The model's readings here: log entries 49, 50, 60, 68 and 85.) -/
def Obligations.HostMailbox : Prop :=
  ∀ (s : State) (fn owner : Nat), s.fw.life = .running → fn < 64 →
    let does := fun (i : Instr) (t : State) (data : List Byte) => exec i s = .next (t.reply fn 0 data)
    (∀ r : OwnerLoad, let o := r.owner
      1 ≤ o → o ≤ 1023 → o ∉ s.fw.owners → s.asidsFit r.asids r.frames = true → s.framesFit r.frames = true →
      ∃ u : State, does (.mbxOwnerCreate fn r) u [] ∧ u.fw.owners = s.fw.owners ++ [o] ∧
        u.fw.fnOwner = (if Sp.has s.fw.fnOwner fn then s.fw.fnOwner else Sp.put s.fw.fnOwner fn o) ∧
        (∀ a ∈ r.asids, Sp.get? u.fw.asids a.1 = some (a.2, o)) ∧ Sp.has u.fw.keys o = true ∧
        ∀ f ∈ r.frames, Sp.get 0 u.fw.frames f = o) ∧
    (Sp.get? s.fw.fnOwner fn = some owner →
      (∀ num k d, d.rsvd = true → 4 ≤ d.logsz → d.logsz ≤ 16 → d.base % 64 = 0 → s.partOwned d.part owner = true →
        s.asidOwned d.asid owner = true → num < 4096 → d.rankprg = 0 →
        (s.queueAt fn num = some k ∨ (s.queueAt fn num = none ∧ s.freeNum fn = some num ∧ s.freeQueue = some k)) →
        does (.mbxQueueConfig fn num d) (({ s with devWait := none } : State).modQueue k fun q =>
          { on := true, fn := fn, num := num, owner := owner, d := d, prog := [], admin := q.on && q.admin }) []) ∧
      (∀ num k, s.queueAt fn num = some k →
        does (.mbxAdminMark fn num) (s.modQueue k fun q => { q with admin := true }) []) ∧
      (∀ part base size, s.partOwned part owner = true → 1 ≤ size → base + size ≤ 2 ^ 64 →
        (s.part part).ioRanges.length < 64 → does (.mbxIoWindowGrant fn part base size)
          (s.modPart part fun p => { p with ioRanges := p.ioRanges ++ [(base, size)] }) []) ∧
      (∀ asid, s.asidOwned asid owner = true →
        does (.mbxBar2Asid fn asid) (s.modFw fun f => { f with bar2 := Sp.put f.bar2 fn asid }) []) ∧
      does (.mbxFwService fn 1 [0#32]) s (toBytes 4 s.fw.deviceId) ∧
      does (.mbxFwService fn 1 [1#32]) s (toBytes 4 (field s.fw.version.toNat 0 32)) ∧
      does (.mbxFwService fn 1 [2#32]) s (toBytes 4 (field s.fw.version.toNat 32 32)) ∧
      does (.mbxFwService fn 1 [3#32]) s (toBytes 4 owner) ∧
      (∀ d : Word, s.inDomain owner d.toNat = true → does (.mbxFwService fn 4 [d]) s []) ∧
      (∀ service args, 7 ≤ service → exec (.mbxFwService fn service args) s = .next (s.reply fn 1 [])) ∧
      (∀ part base size asid, Sp.get? s.fw.bar2 fn = some asid → s.partOwned part owner = true → base % 4096 = 0 →
        2 ^ 16 ≤ size → size ≤ 10 ^ 9 → (∀ va, base ≤ va → va < base + size → (s.devicePa asid va true).isSome = true) →
        does (.mbxTraceRing fn part base size) (s.modPart part fun p =>
          { p with traceBase := base, traceSize := size, traceCount := 0, traceLost := 0, traceAsid := asid }) []) ∧
      (∀ part, s.partOwned part owner = true → ∃ data, does (.mbxReadHistogram fn part) s data) ∧
      (∀ tn, does (.mbxDebugAccess fn tn .readErrors) s
        ((s.fw.errLog.filter fun e => e.owner == owner).flatMap fun e => e.frec.bytes)) ∧
      ∀ tn, s.mayDebug owner tn = true →
        let t := s.team tn
        let acts := fun (op : DebugOp) => does (.mbxDebugAccess fn tn op)
        (∃ u : State, does (.mbxStopTeam fn tn) u [] ∧ (u.team tn).halted = true ∧
          (u.part (s.launch t.launch).part).debugger = true ∧
          (t.halted = false → ∀ kv ∈ t.groups, (u.grp kv.2).windows = [])) ∧
        (t.halted = true → ∃ u : State, does (.mbxResumeTeam fn tn) u [] ∧ (u.team tn).halted = false) ∧
        (∀ on, acts (.setBkpt on) (s.modTeam tn fun t => { t with bkptHalt := on }) []) ∧
        (t.halted = true →
          (∀ off n, off + n ≤ t.ssize → acts (.readScratch off n) s (t.scrBytes off n)) ∧
          (∀ off bs, off + bs.length ≤ t.ssize →
            acts (.writeScratch off bs) (s.modTeam tn fun t => t.scrWrite off bs false) []) ∧
          ∀ g n, Sp.get? t.groups g = some n → acts (.readImage g) s (s.grp n).image ∧
            (∀ on, acts (.setStep g on) (s.modGrp n fun x => { x with step := on }) []) ∧
            acts (.getStep g) s (toBytes 4 (if (s.grp n).step then 1 else 0)) ∧
            ∀ bs, bs.length = (s.grp n).imageSize → imageOk (s.grp n) bs = true →
              acts (.writeImage g bs) (s.modGrp n fun x => x.loadImage bs fun _ => false) []))

/-- FIRMWARE (14 R364 to R366). Until firmware runs, for at most 1 s after reset, a configuration request is answered with
Request Retry Status. Fundamental reset leaves the state after reset, fuses apart, and starts an image that verifies,
with its measurement and with attestation keys that the identity keys certify; another image, or one in recovery, leaves
the device in recovery. A running firmware stages an incoming image that verifies, and hands over to it at one instant
while no instance has a fault in service. (Whether an image verifies is free: log entry 10.)
(The model's readings here: log entry 50.) -/
def Obligations.FirmwareLife : Prop :=
  ∀ (s : State) (image : FwImage) (fn : Nat),
    let good := s.imageGood image
    let m := Config.sha384 (toBytes 48 0 ++ digestBytes (Config.sha384 image.bytes))
    let boots := fun (u : State) => if good then u.fw.life = .running ∧ u.fw.meas = m ∧ u.fw.version = image.version ∧
        u.fw.cert = Config.certify s.fw.identity u.fw.attKey
      else u.fw.life = .recovery
    (s.fw.life ≠ .running → fn < 64 → exec (.configRequest fn) s = .next (if s.up < 10 ^ 9 * 2 ^ 32 then
      s.modFw fun f => { f with retries := f.retries + 1 } else s)) ∧
    (∃ u, exec (.fundamentalReset image) s = .next u ∧ boots u ∧ u.fw.fuse = s.fw.fuse ∧ u.fw.serial = s.fw.serial ∧
      u.fw.identity = s.fw.identity ∧ u.fw.keys = [] ∧ u.fw.fnOwner = [] ∧ u.groups = [] ∧ u.teams = [] ∧
      u.launches = [] ∧ u.mem = [] ∧ u.queues = [] ∧ u.time = 0) ∧
    (s.fw.life = .recovery → ∃ u, exec (.recoveryImage 0 image) s = .next u ∧ boots u ∧
      ({ u with fw := s.fw, free := s.free } : State) = s) ∧
    (s.fw.life = .running → exec (.fwHandoverStage image) s = .next (if good then
      s.modFw fun f => { f with staged := some (image.version, Config.sha384 image.bytes) } else s)) ∧
    ∀ v h, s.fw.staged = some (v, h) → s.instsQuiet = true → exec .fwHandoverCommit s = .next
      (s.modFw fun f =>
        { f with meas := Config.sha384 (digestBytes f.meas ++ digestBytes h), version := v, staged := none })

/-- REFINEMENT INSTRUCTIONS (03 R56; 07 R157, R158, R165, R167 to R170). The acting lanes of `RLRUN`, none in a call, with an
aligned block inside the scratchpad and present, leave the frontier and park as call lanes, the group arrives, and the
destination stays interlocked until the run ends; with no acting lane the group only arrives; during a run it arrives
early for the next one. In a residual call `RLACC` adds the exact square of each acting lane. `RLRET` and the first
`RLABT`, which leaves its reason in the run and the block, end the call of their lanes, which leave the frontier.
(The model's readings here: log entry 38.) -/
def Obligations.RefinementInstructions : Prop :=
  ∀ (s : State) (i : Instr), s.admits i = true →
    let x := i.fields
    let m := s.acting i
    let tn := s.me.team
    let t := s.begun i
    match i with
    | .rlrun _ =>
      let later := (s.team tn).run.isSome
      let addr := uniVal s.me x x.b 1 + x.imm.toNat
      let p : RlPark := {
        mask := m, away := 0#32, pc := s.entry.pc, next := s.after i, prio := s.entry.prio, dst := x.a, addr := addr
        later := later, since := s.time, loops := (s.me.loops.filter fun c => (c.set &&& m) != 0#32).map (·.ctr) }
      let g := { t.me.dropLantern with
        rl := s.me.rl ++ [p]
        rlDepth := (maskLanes m).foldl (fun d l => Sp.put d l (Sp.get [] s.me.rets l).length) s.me.rlDepth }
      let g := if later then { g with rlOrder := if g.rlOrder = 0 then s.serial else g.rlOrder } else arrivedAtRun s g
      let dst := (shapeOfInstr i).writes x
      (m = 0#32 → s.runsTo i t (if later then t.me else arrivedAtRun s t.me)) ∧
      (m ≠ 0#32 → m &&& s.me.rlIn = 0#32 → opBad s.me x.b 1 0 = false → addr % 256 = 0 →
        addr + 256 ≤ (s.team tn).ssize → (s.team tn).scrAbsent addr 256 = [] →
        s.completes i fun u => onlyGroup t u ∧ sameIssue g u.me = g ∧ goesOnIn s i u (s.entry.mask &&& ~~~m) ∧
          u.me.frontierMask &&& m = 0#32 ∧
          (dst ≠ [] → ∃ k ∈ u.me.locks, k.kind = .run ∧ k.mask = m ∧ k.regs = dst.map (BitVec.ofNat 16)))
    | .rlacc _ => ∀ r, (s.team tn).run = some r → r.step = 2 → m &&& ~~~s.me.rlIn = 0#32 →
      cleanOps s.me m [(x.b, x.ty.regs)] →
      let v := fun (l : Nat) => fdecode (if x.ty == .f64 then fp64 else fp32) (opVal s.me x.lit x.b x.ty.regs l)
      s.completes i fun u =>
        onlyGroup ((maskLanes m).foldl (fun s l => s.modRun tn fun r => r.accumulate (v l)) s) u ∧ goesOn s i u ∧
        sameIssue s.me { u.me with flg := s.me.flg } = s.me ∧
        flagsRaised s.me u.me (flagsOf (maskLanes m) fun l => squareFlags (v l))
    | .rlret _ => m &&& ~~~s.me.rlIn = 0#32 →
      s.completes i fun u => onlyGroup s u ∧ goesOnIn s i u (s.entry.mask &&& ~~~m) ∧
        u.me.frontierMask &&& m = 0#32 ∧ leftCall s s.me u.me m
    | .rlabt _ => ∀ r, m ≠ 0#32 → m &&& ~~~s.me.rlIn = 0#32 → opBad s.me x.b 1 0 = false → (s.team tn).run = some r →
      let v := uniVal s.me x x.b 1
      let w := if r.abort.isSome then s
        else (s.modRun tn fun r => { r with abort := some (BitVec.ofNat 32 v) }).rlPut tn 0xDC 4 v
      s.completes i fun u => onlyGroup w u ∧ goesOnIn s i u (s.entry.mask &&& ~~~m) ∧
        u.me.frontierMask &&& m = 0#32 ∧ leftCall s s.me u.me m
    | _ => True

/-- REFINEMENT RUNS (07 R154, R156 to R158, R163, R164). A run that can start with a command block whose fields and entries
pass begins at its first level with no iteration done; a freed controller goes to the team that is next; after the solve
call comes the update call, and after it the residual call with an empty sum; a run that faulted or was aborted ends with
its exit word in the block. (The model's readings here: log entry 38.) -/
def Obligations.RefinementRuns : Prop :=
  ∀ (s : State) (tn : Nat),
    let t := s.team tn
    let l := s.launch t.launch
    (∀ p rest, s.rlCanStart tn = true → s.rlParks tn = p :: rest → (∀ c ∈ rest, c.addr = p.addr) →
      t.scrPoison p.addr 256 = false →
      let b := t.rlBlock p.addr
      let first := if blkHas b (offFactor (blkLstart b)) then 1 else 2
      blkBad b = false → (∀ o ∈ blkEntries b, s.codeAt l.asid (entryAt l.r (blkEntry b o)) = .code) →
      ∃ u, exec (.rlRunStart tn) s = .next u ∧ (u.core t.core).rlHolder = some tn ∧
        (u.team tn).run = some {
          addr := p.addr, block := b, level := blkLstart b, iter := 0, stag := 0, escs := 0, prev := none, norm := 0#64, step := first, acc := 0, accNan := false, accInf := false, abort := none,
          faulted := false }) ∧
    (∀ c, (s.core c).rlHolder = none → s.rlNext c = some tn → exec (.rlControllerGrant c) s = .next
      (s.modCore c fun k => { k with rlHolder := some tn })) ∧
    ∀ r, s.rlCanStep tn = true → t.run = some r →
      let ends := fun (code : Nat) => ∃ u, exec (.rlCallEnd tn) s = .next u ∧ (u.team tn).run = none ∧
        ofBytes ((u.team tn).scrBytes (r.addr + 0xD8) 4) = (min r.iter 0xFFFF * 2 ^ 16 + r.level * 256 + code) % 2 ^ 32
      let calls := fun (q : RlRun) => ∃ u, exec (.rlCallEnd tn) s = .next u ∧ (u.team tn).run = some q
      (r.faulted = true → ends 6) ∧ (r.faulted = false → r.abort.isSome = true → ends 5) ∧
      (r.faulted = false → r.abort = none →
        (r.step = 3 → calls { r with step := 4 }) ∧
        (r.step = 4 → calls { r with
          prev := some r.norm, step := 2, acc := 0, accNan := false, accInf := false }) ∧
        (r.step = 1 → if r.escs = 0 then calls { r with step := 2, acc := 0, accNan := false, accInf := false }
          else calls { r with step := 3 }))

/-- EXCEPTIONS (03 R61; 04 R85; 10 R245; 15 R373, R374, R377, R390). `TRAP` and `BKPT` raise their exceptions with their
codes; a `BKPT` with breakpoint halting halts the team instead. An illegal instruction faults every active lane with
cause 0x05, in trap mode one that is illegal there; what is banned in a handler faults the acting lanes with 0x09; a
poisoned source of an integer instruction in every acting lane with 0x04; conditions of a floating-point instruction
with their trap enabled in every lane with 0x08, the flags raised.
(The model's readings here: log entries 13, 25 and 52.) -/
def Obligations.Exceptions : Prop :=
  ∀ (s : State) (i : Instr),
    let x := i.fields
    let m := s.acting i
    (s.admits i = true → m ≠ 0#32 →
      match i with
      | .trap _ => opBad s.me x.b 1 0 = false → s.excepts i m
        { cause := 0x0F#8, aux := BitVec.ofNat 32 (if x.b = .zero then x.imm.toNat else uniVal s.me x x.b 1) } 0#8
      | .bkpt _ =>
        if !s.entry.trap && (s.teamOf s.cur).bkptHalt && s.haltable s.me.team then
          s.completes i fun u => (u.team s.me.team).halted = true ∧ goesOn s i u ∧ sameFile s.me u.me
        else s.excepts i m { cause := 0x0E#8, aux := BitVec.ofNat 32 x.imm.toNat } 0#8
      | _ => True) ∧
    (i.form.isSome = true → s.me.issueEntry.isSome = true → s.legal i = false → s.entry.mask ≠ 0#32 → s.unstepped →
      s.excepts i s.entry.mask { cause := 0x05#8 } 0#8) ∧
    (s.legal i = true → s.entry.mask ≠ 0#32 → s.entry.trap = true → illegalInTrap i.op.toNat = true →
      s.excepts i s.entry.mask { cause := 0x05#8 } 0#8) ∧
    (s.legal i = true → m ≠ 0#32 → s.unstepped → s.me.windows = [] → (s.entry.trap && illegalInTrap i.op.toNat) = false →
      s.me.isHandler = true → bannedInHandler i.op.toNat = true → s.excepts i m { cause := 0x09#8 } 0#8) ∧
    (∀ w o, s.admits i = true → m ≠ 0#32 → integerResult s i 0 (s.srcs i 0) = some w →
      (∀ l ∈ maskLanes m, (badSource s.me s.entry.mask (shapeOfInstr i) x l).isSome = true) →
      badSource s.me s.entry.mask (shapeOfInstr i) x (lowestLane m) = some o →
      s.excepts i (s.faulters i) (poisonFlt o) 0#8) ∧
    ∀ f : Nat → LaneOut, s.admits i = true → s.clean i = true → m ≠ 0#32 →
      (∀ l, floatingResult s i l (s.srcs i l) = some (f l)) →
      (∀ l ∈ ranFor m x.a, trapped s.me.mode (f l).flags ≠ 0#8) →
      let fl := flagsOf (ranFor m x.a) fun l => (f l).flags
      s.excepts i (s.faulters i) { cause := 0x08#8, aux := fl.setWidth 32 } fl

/-- RETURN FROM AN EXCEPTION (15 R373, R374, R379). In trap mode the acting lanes of `TRET` go back to the saved PC, those
of `TRET.skip` past the instruction there unless the record is asynchronous, and the lanes of a record with DONE to
their saved positions; when the last lane of trap mode has left it ends. Outside trap mode `TRET` is illegal.
(The model's readings here: log entry 17.) -/
def Obligations.ReturnsFromExceptions : Prop :=
  ∀ (s : State) (x : XForm) (skip : Bool),
    let i : Instr := if skip then .tretSkip x else .tretRetry x
    let m := s.acting i
    s.admits i = true → m ≠ 0#32 →
    if s.entry.trap then
      ∀ h w, s.me.trap = some h → s.codeWord (s.launchOf s.cur).asid h.frec.pc.toNat = some w →
      let back := if skip && !h.frec.async then h.frec.pc + BitVec.ofNat 57 (codeLen w) else h.frec.pc
      ∃ u, exec i s = .next (u.settle s.cur) ∧ sameFile s.me u.me ∧ goesOnIn s i u (s.entry.mask &&& ~~~m) ∧
        (h.frec.done = false → ∀ l ∈ maskLanes m, u.me.standsAt l back h.frec.prio false) ∧
        (h.frec.done = true → ∀ l ∈ maskLanes m, s.me.awayMask.getLsbD l = false →
          ∀ e, (h.saved.find? fun e => e.mask.getLsbD l) = some e → u.me.standsAt l e.pc e.prio false) ∧
        (s.me.frontier.filter (·.trap) = [s.entry] → s.me.recov.filter (·.trap) = [] →
          (∀ c ∈ s.me.loops, c.trapTail = 0#32) → m = s.entry.mask → s.me.subs = [] → u.me.trap = none)
    else s.excepts i m { cause := 0x05#8 } 0#8

/-- PRIVILEGES AND PAGES (14 R350, R355, R356, R358; 15 R368, R380). On any core but firmware's, `PSAVE` and `PLOAD` outside
trap mode, `TLBINV` of another ASID, and a firmware call that the launch may not make raise cause 0x0B on every active
lane. Lanes whose page firmware may supply leave the frontier without a record, and the page is in the core's fault queue
once; with the queue full of other pages, the lanes are parked for a retry when it has room.
(The model's readings here: log entry 41.) -/
def Obligations.PrivilegesAndPages : Prop :=
  (∀ (s : State) (i : Instr), s.admits i = true → s.acting i ≠ 0#32 → s.coreOf s.cur ≠ 0 →
    let refused := s.excepts i s.entry.mask { cause := 0x0B#8 } 0#8
    (match i with
      | .psave _ | .pload _ => s.entry.trap = false → refused
      | .tlbinv x => x.mod.getLsbD 6 = true → refused
      | _ => True) ∧
    ∀ need serve, serviceOf s i = some (need, false, serve) → refused) ∧
  ∀ (s : State) (n : Nat) (op : BitVec 8) (pc : VAddr) (prio : Prio) (trap : Bool) (m : Mask) (f : Flt)
    (asid page : Nat), f.page = some (asid, page) →
    let u := s.except n op pc prio trap [(m, f)]
    let q := (s.core (s.coreOf n)).faultQ
    let room := q.contains (asid, page) || decide (q.length < 256)
    (u.grp n).recov = (s.grp n).recov ++ [{
        mask := m, pc := pc, prio := prio, trap := trap, op := op, asid := asid, page := page, vline := f.vline
        recIdx := f.recIdx, owe := none, queued := room }] ∧
      (u.grp n).frontierMask &&& m = 0#32 ∧ (u.grp n).subs = (s.grp n).subs ∧
      (u.core (s.coreOf n)).faultQ = (if room && !q.contains (asid, page) then q ++ [(asid, page)] else q) ∧
      (room = false → (n, asid, page) ∈ (u.core (s.coreOf n)).faultLater)

/-! ### The machine as a whole -/

/-- EVERY WORD HAS ONE INSTRUCTION (03 R40 to R55, Tables 3.1 to 3.11). Bits whose first words are the encoding of a
well-formed instruction decode to it, whatever follows it; and bits that decode to an instruction hold its encoding,
and it is well formed. -/
def Obligations.EncodeThenDecode : Prop :=
  ∀ (i : Instr) (w : BitVec 160),
    (i.wf = true → (∀ k, k < 8 * i.len → w.getLsbD k = (encode i).getLsbD k) → decode w = .instr i) ∧
    (decode w = .instr i → i.wf = true ∧ ∀ k, k < 8 * i.len → w.getLsbD k = (encode i).getLsbD k)

/-- EVERY STEP KEEPS MEMORY IN ITS ONE FORM: addresses strictly rising, no entry equal to what an unlisted address reads
as (the byte 0: log entry 2). -/
def Obligations.MemoryStaysCanonical : Prop :=
  ∀ s t : State, Memory.wf s.mem = true → step s = .next t → Memory.wf t.mem = true

/-- RESET (08 R171; 13 R308; 14 R364). After reset memory is in its one form, no group, team, launch, stream or queue
exists, device time is 0 and without lock, and firmware does not run; and while it does not, a configuration request
is answered, for 1 s, with Request Retry Status and a step without groups does nothing but let time pass. (That unlisted memory reads 0 is the
model's choice: log entry 2.) (The model's readings here: log entry 1.) -/
def Obligations.StateAfterReset : Prop :=
  let r := State.reset
  (Memory.wf r.mem = true ∧ r.groups = [] ∧ r.teams = [] ∧ r.launches = [] ∧ r.streams = [] ∧ r.queues = [] ∧
    r.ops = [] ∧ r.owned = [] ∧ r.time = 0 ∧ r.locked = false ∧ r.fw.life ≠ .running) ∧
  ∀ s : State, s.fw.life ≠ .running →
    (s.agenda = [] → s.groups = [] → s.teams = [] → s.reads = [] → step s = .next s.tick) ∧
    ∀ fn, fn < 64 → s.up < 10 ^ 9 * 2 ^ 32 →
      exec (.configRequest fn) s = .next (s.modFw fun f => { f with retries := f.retries + 1 })

/-- A STEP RUNS THE DECODED INSTRUCTION (03 R61; 12 R289, R292). Firmware runs, the agenda is empty, nothing is due, no
completion has been passed over for too long, and a scheduler has a group that may issue: its bytes are fetched at the
PC of its issuing entry. If they decode to an instruction and no register line that it names has been evicted, the
step is that instruction, at the fetched state with the issue counted, followed by what follows at once (the chunks of
its write-back, requests for lanterns, entries for bursts, errors that end a replay). If they decode to none, or the
fetch fails, the issuing lanes take the fault; if an engine owns the line, or a register line has been evicted, the
group waits for it.
(The model's readings here: log entries 5, 21 and 23.) -/
def Obligations.StepRunsTheDecodedInstruction : Prop :=
  ∀ (s : State) (k n : Nat) (e : Entry),
    let t := s.tick
    t.agenda = [] → t.fwRunning = true → t.dueNow = none → t.patience < patienceLimit → t.turnSched = some (k, n) →
    (t.grp n).issueEntry = some e →
    let t := t.noteIssue k n
    let f := t.fetch n e.pc
    (∀ bs i, f.1 = .ok bs → (decodeBytes bs).instr? = some i → i.wf = true → f.2.evictedUse n i = none →
      let at_ : State := { (f.2.noteLines n i) with cur := n, patience := f.2.patience + 1 }
      (∀ u, exec i at_ = .next u → step s = .next u.afterRun) ∧
      (∀ x, exec i at_ = .fault x → step s = .fault x) ∧
      ∀ x, exec i at_ = .refused x → step s = .refused x) ∧
    (∀ bs, f.1 = .ok bs → (decodeBytes bs).instr? = none →
      step s = .next (f.2.failIssue n e (bs.getD 1 0#8) { cause := 0x05#8 }).afterRun) ∧
    (∀ x, f.1 = .flt x → step s = .next (f.2.failIssue n e 0#8 x).afterRun) ∧
    (∀ line, f.1 = .held line → step s = .next (f.2.heldBefore n e (.owned [line]) 0#8).afterRun) ∧
    ∀ bs i r, f.1 = .ok bs → (decodeBytes bs).instr? = some i → f.2.evictedUse n i = some r →
      step s = .next (f.2.heldBefore n e (.evicted r) i.op).afterRun

/-- WORDS OF THE SPEC DECODE TO WHAT THE SPEC SAYS THEY ARE: `NOP` (03 R40), `PHASE` and `FENCE.dev` (09 R220, R221), and words
of the listings of 17 to 19: `?!p3 BRA`, `?p1 OR v4, v1`, `SHL v1, 5`, `IADD.i32 v2, v1, 0x400`, `RLRUN s1, L[zero]`,
`SSTR.b32 b1[v9+1, v56], v55`; and words that are no instruction are rejected (03 Table 3.11): an unassigned opcode, GE = 0
with a guard, TY = 15, a reserved operand code, scope 6 of `FENCE` (09 R221). -/
def Obligations.DecodedWords : Prop :=
  decodeTableWord 32 0 = some (.nopBase ⟨none⟩) ∧
  decodeTableWord 96 0x00000000_00000000_00008B01 = some (.phase XForm.blank) ∧
  decodeTableWord 96 0x00000000_60000000_00008C01 = some (.fence { XForm.blank with mod := 0x60#8 }) ∧
  decodeTableWord 32 0xEFFF_019C = some (.braShort ⟨some ⟨true, 3#4⟩, 0xFFEF#16⟩) ∧
  decodeTableWord 32 0x0104_2D0C = some (.orBase ⟨some ⟨false, 1#4⟩, .v 4, .v 1⟩) ∧
  decodeTableWord 96 0x00000000_00000005_F101_3102 = some (.shlBaseLit ⟨none, .v 1, .litLo⟩ 5#64) ∧
  decodeTableWord 160 0x00000000_00000400_00000000_000000F1_0102_2303 =
    some (.iadd { XForm.blank with lit := some 0x400#64, a := .v 2, b := .v 1, c := .litLo }) ∧
  decodeTableWord 96 0x00000000_00000000_F0C1_7801 = some (.rlrun { XForm.blank with a := .s 1, b := .zero }) ∧
  decodeTableWord 96 0x0400_0001_0040_0038_0937_A201 =
    some (.sstr { XForm.blank with a := .v 55, b := .v 9, c := .v 56, ty := .b32, aux := 1#6, imm := 1#16 }) ∧
  decode 0x00000000_00000000_0000FF01#160 = .reject .opcode ∧
  decode 0x00000008#160 = .reject .guard ∧
  decode 0x00000000_00F00005_07062301#160 = .reject .type ∧
  decode 0x00000000_000000F6_07062301#160 = .reject .operand ∧
  decode 0x00000000_C0000000_00008C01#160 = .reject .fields

/-- LENGTHS (03 R40). The length of an instruction is 4, 12, 12 or 20 bytes by LEN, bits [1:0] of its first word; from a
PC that is a multiple of 4 the next sequential PC, the PC plus the length, is one too; and whatever follows it, a first
word of zeros is the base form of `NOP`, which goes on to the next sequential PC and does nothing else. -/
def Obligations.InstructionLengths : Prop :=
  (∀ (w : BitVec 160) (i : Instr), decode w = .instr i →
    i.len = (match (w.extractLsb' 0 2).toNat with
      | 0 => 4
      | 1 => 12
      | 2 => 12
      | _ => 20)) ∧
  (∀ (s : State) (i : Instr), i.wf = true → s.entry.pc.toNat % 4 = 0 →
    (s.after i).toNat = (s.entry.pc.toNat + i.len) % 2 ^ 57 ∧ (s.after i).toNat % 4 = 0) ∧
  (∀ w : BitVec 160, w.extractLsb' 0 32 = 0#32 → decode w = .instr (.nopBase ⟨none⟩)) ∧
  ∀ s : State, s.admits (.nopBase ⟨none⟩) = true → s.runs (.nopBase ⟨none⟩) s.me

/-- `PHASE` (09 R220). With no line held back by an engine, `PHASE` takes a phase boundary on its core and goes on: the
core's pending bytes are committed (what another owner left pending reads as zero, 14 R353), those of its lines that no SK page holds are dropped. With lines held back it does
not complete: the group stays at the `PHASE`, parked until an engine releases them. It has no operand, ends lookahead
windows as a wait does, and, without a guard, its one encoding is 0x0000_8B01, 0, 0. -/
def Obligations.PhaseBoundaries : Prop :=
  (∀ (s : State) (x : XForm), s.admits (.phase x) = true → s.acting (.phase x) ≠ 0#32 →
    let c := s.coreOf s.cur
    let b := s.boundary c
    (s.boundaryHeld c = [] → s.runsTo (.phase x) b b.me ∧ (b.core c).overlay = [] ∧ (∀ kv ∈ (b.core c).l1, kv.2.sk = true) ∧
      (Sp.sorted (s.core c).overlay = true → ∀ a, b.homeByte a = s.missByte c a)) ∧
    (s.boundaryHeld c ≠ [] → ∃ u, exec (.phase x) s = .next u ∧ u.me.curPark = some (.owned (s.boundaryHeld c)) ∧
      u.me.frontier = s.me.frontier ∧ u.mem = s.mem ∧ u.cores = s.cores)) ∧
  (∀ x : XForm, (Instr.phase x).wf = true → (shapeOf 0x8B x).slots = [] ∧
    (x.guard = none → x.lit = none → encode (.phase x) = 0x00008B01#160)) ∧
  endsWindows 0x8B = true

/-- CONVERGENCE MASKS (12 R301; 02 R31). `CSET` with an acting lane writes its one convergence mask, once for the group:
with `.act` the acting lanes, otherwise the low 32 bits of its uniform source; no other mask and nothing else of the
group or the machine changes. -/
def Obligations.ConvergenceMasks : Prop :=
  ∀ (s : State) (x : XForm), s.admits (.cset x) = true → s.acting (.cset x) ≠ 0#32 →
    (x.mod.getLsbD 5 = true ∨ opBad s.me x.b 1 0 = false) →
    s.completes (.cset x) fun u => onlyGroup s u ∧ goesOn s (.cset x) u ∧
      sameIssue s.me { u.me with k := s.me.k } = s.me ∧
      ∀ k l, l < 32 → (u.me.kreg k).getLsbD l =
        if k = x.aux.toNat then
          if x.mod.getLsbD 5 then (s.acting (.cset x)).getLsbD l else (uniVal s.me x x.b 1).testBit l
        else (s.me.kreg k).getLsbD l

/-- STORES AND WHO SEES THEM (08 R174, R179 to R185, R190). A core's load of bytes it has stored answers them, whatever
copy it holds. A store to a phased line that needs no implicit boundary changes nothing at the home and no other core,
until a boundary commits it there; an uncached one is at the home at once. A boundary takes every pending byte of its
core to the home that no engine's line holds back (what another owner left pending reads as zero, 14 R353) and touches
no other core. An atomic answers what is at the home and leaves its result there, unless the line is poisoned. (The model's readings here: log entry 24.) -/
def Obligations.StoresAreSeen : Prop :=
  ∀ (s : State) (c pa : Nat) (lf : Leaf) (bs : List Byte) (bad : Bool), pa % 128 + bs.length ≤ 128 → bs ≠ [] →
    let t := s.storeBytes c lf pa bs bad
    let within := fun (a : Nat) => decide (pa ≤ a) && decide (a < pa + bs.length)
    (homeUncached lf.home = false → (t.loadBytes c lf pa bs.length).1 = bs) ∧
    (homeUncached lf.home = false → s.needsBoundary c (homeOf lf (lineOf pa)) (lineOf pa) = false →
      (∀ u ∈ (s.core c).upd, lineOf u.addr ≠ lineOf pa) →
      t.mem = s.mem ∧ (∀ d, d ≠ c → t.core d = s.core d) ∧
      (Sp.sorted (s.core c).overlay = true → t.isOwned (lineOf pa) = false →
        ∀ a, within a = true → (t.boundary c).homeByte a = bs.getD (a - pa) 0#8)) ∧
    (homeUncached lf.home = true → ∀ a, t.homeByte a =
      if within a then bs.getD (a - pa) 0#8 else (s.recall (lineOf pa)).homeByte a) ∧
    (Sp.sorted (s.core c).overlay = true → ∀ a, (s.boundary c).homeByte a =
      if s.isOwned (lineOf a) then s.homeByte a else s.missByte c a) ∧
    (∀ d, d ≠ c → (s.boundary c).core d = s.core d) ∧
    ∀ f : Nat → Nat, (s.core c).pendingLines.contains (lineOf pa) = false →
      let u := s.atomAt c pa bs.length f
      let r := s.recall (lineOf pa)
      u.1 = ofBytes (r.homeBytes pa bs.length) ∧ u.2.1 = r.linePoison (lineOf pa) ∧
        u.2.2.homeBytes pa bs.length = if u.2.1 then r.homeBytes pa bs.length else toBytes bs.length (f u.1)
end

