-- ==== Sys2Proof/Laws/Device.lean ====
section
/-! SUPPORT. Reads that the device makes for an owner: a walk sees of an address only its 128 KiB page, so bytes
of one mapped page are read where the page stands. -/

namespace Sys2Proof.Machine

open Sys2Proof

theorem field_page {a b lo : Nat} (h : a / 2 ^ 17 = b / 2 ^ 17) (w : Nat) (hlo : 17 ≤ lo) : field a lo w = field b lo w := by
  have e : ∀ n : Nat, n / 2 ^ lo = n / 2 ^ 17 / 2 ^ (lo - 17) := fun n => by
    rw [Nat.div_div_eq_div_mul, ← Nat.pow_add, Nat.add_sub_cancel' hlo]
  simp only [field, Nat.shiftRight_eq_div_pow, e, h]

theorem levelIndex_page {a b : Nat} (h : a / 2 ^ 17 = b / 2 ^ 17) (l : Nat) : levelIndex a l = levelIndex b l := by
  unfold levelIndex
  split <;> exact field_page h _ (by decide)

/-- A walk depends on an address only through its page (14 R344). -/
theorem State.walkFrom_page {a b : Nat} (h : a / 2 ^ 17 = b / 2 ^ 17) (s : State) (asid o : Nat) :
    ∀ n t, s.walkFrom asid o a n t = s.walkFrom asid o b n t := by
  intro n
  induction n with
  | zero => exact fun _ => rfl
  | succ n ih =>
    intro t
    simp only [State.walkFrom, levelIndex_page h, ih]

theorem State.walk_page {a b : Nat} (h : a / 2 ^ 17 = b / 2 ^ 17) (s : State) (asid : Nat) :
    s.walk asid a = s.walk asid b := by
  unfold State.walk
  split
  · rfl
  · exact State.walkFrom_page h _ _ _ _ _

theorem leafBits_ge (l : Nat) : 17 ≤ leafBits l := by
  unfold leafBits
  split <;> decide

theorem mkLeaf_span (l e a : Nat) : (mkLeaf l e a).span = leafBits l := rfl

theorem State.groupAt_span (s : State) (asid o e : Nat) (l e' a : Nat) :
    17 ≤ ((s.groupAt asid o e).getD (mkLeaf l e' a)).span := by
  have k : ∀ lf, s.groupAt asid o e = some lf → lf.span = groupBits := by
    intro lf h
    unfold State.groupAt at h
    simp only [Option.ite_none_right_eq_some] at h
    exact (Option.some.inj h.2) ▸ rfl
  cases h : s.groupAt asid o e with
  | none => exact leafBits_ge l
  | some lf => exact (k lf h) ▸ (by decide : 17 ≤ groupBits)

/-- A leaf maps a page of at least 128 KiB (14 Table 14.1). -/
theorem State.walkFrom_span {s : State} {asid o va : Nat} {lf : Leaf} :
    ∀ {n t : Nat}, s.walkFrom asid o va n t = .leaf lf → 17 ≤ lf.span := by
  intro n
  induction n with
  | zero => exact fun h => nomatch h
  | succ n ih =>
    intro t h
    simp only [State.walkFrom] at h
    split at h
    · cases h
    split at h
    · cases h
    split at h
    · cases h
    split at h
    · split at h
      · cases h
      · exact ih h
    split at h
    · cases h
    split at h
    · split at h
      · cases h
      · exact (Walk.leaf.inj h) ▸ State.groupAt_span ..
    · exact (Walk.leaf.inj h) ▸ leafBits_ge _

theorem State.walk_span {s : State} {asid va : Nat} {lf : Leaf} (h : s.walk asid va = .leaf lf) : 17 ≤ lf.span := by
  unfold State.walk at h
  split at h
  · cases h
  · exact State.walkFrom_span h

/-- Within a page, addresses and entries of a leaf go with the page. -/
theorem mod_span {k : Nat} (hk : 17 ≤ k) (va : Nat) : va % 2 ^ k = va / 2 ^ 17 * 2 ^ 17 % 2 ^ k + va % 2 ^ 17 := by
  obtain ⟨d, rfl⟩ := Nat.exists_eq_add_of_le hk
  rw [Nat.pow_add, Nat.mod_mul, Nat.mod_mul, Nat.mul_mod_left, Nat.mul_div_cancel _ (by decide)]
  omega

theorem Leaf.pa_page {lf : Leaf} (h : 17 ≤ lf.span) (va : Nat) : lf.pa va = lf.pa (va / 2 ^ 17 * 2 ^ 17) + va % 2 ^ 17 := by
  unfold Leaf.pa
  rw [mod_span h va]
  omega

theorem Leaf.entryOf_page {lf : Leaf} (h : 17 ≤ lf.span) (va : Nat) : lf.entryOf va = lf.entryOf (va / 2 ^ 17 * 2 ^ 17) := by
  have e : va % 2 ^ lf.span / 2 ^ 17 = va / 2 ^ 17 * 2 ^ 17 % 2 ^ lf.span / 2 ^ 17 := by
    obtain ⟨d, hd⟩ := Nat.exists_eq_add_of_le h
    rw [mod_span h va, hd, Nat.pow_add, Nat.mod_mul, Nat.mul_mod_left, Nat.mul_div_cancel _ (by decide)]
    omega
  unfold Leaf.entryOf
  rw [e]

theorem State.devicePa_page {s : State} {asid p f va : Nat} {w : Bool} (h : s.devicePa asid (p * 2 ^ 17) w = some f)
    (hp : va / 2 ^ 17 = p) (hv : va < 2 ^ 57) : s.devicePa asid va w = some (f + va % 2 ^ 17) := by
  have e : s.walk asid va = s.walk asid (p * 2 ^ 17) :=
    State.walk_page (by rw [Nat.mul_div_cancel _ (by decide), hp]) s asid
  unfold State.devicePa at h ⊢
  rw [e]
  split at h
  · next lf hl =>
    cases hr : (if w = true then lf.w else lf.r) <;> simp [-Nat.reducePow, hr] at h ⊢
    exact ⟨hv, by rw [Leaf.pa_page (State.walk_span hl), hp, ← h.2]⟩
  · cases h

/-- Where the bytes of a page stand, if the device can read them at once: it is mapped for reads, not under
migration, and its bit A is set. -/
def State.pageAt (s : State) (asid p : Nat) : Option Nat :=
  match s.walk asid (p * 2 ^ 17) with
  | .leaf lf =>
    let e := ofBytes (s.homeBytes (lf.entryOf (p * 2 ^ 17)) 8)
    if lf.r && !lf.mig && decide (p * 2 ^ 17 < 2 ^ 57) && (e ||| 0x800) == e then some (lf.pa (p * 2 ^ 17)) else none
  | _ => none

theorem pagesOf_one {p va n : Nat} (hp : va / 2 ^ 17 = p) (h0 : 0 < n) (hn : va % 2 ^ 17 + n ≤ 2 ^ 17) : pagesOf va n = [p] := by
  have e : (va + n - 1) / 2 ^ 17 + 1 - va / 2 ^ 17 = 1 := by omega
  rw [pagesOf, if_neg (by omega), e, hp]
  rfl

/-- Bytes of one such page, where no core holds update-only lines, no engine owns a line and nothing is poisoned. -/
theorem State.deviceRead_page {s : State} {asid p f va n : Nat} (h : s.pageAt asid p = some f)
    (hu : s.cores = []) (hb : s.memBad = []) (ho : s.owned = []) (hp : va / 2 ^ 17 = p) (h0 : 0 < n)
    (hn : va % 2 ^ 17 + n ≤ 2 ^ 17) (hv : va + n ≤ 2 ^ 57) :
    s.deviceRead asid va n = (some ((List.range n).map fun i => s.homeByte (f + (va + i) % 2 ^ 17)), s) := by
  unfold State.pageAt at h
  split at h
  case h_2 => cases h
  next lf hl =>
  simp only [Option.ite_none_right_eq_some, Bool.and_eq_true, beq_iff_eq, decide_eq_true_eq, Bool.not_eq_true',
    Option.some.injEq] at h
  obtain ⟨⟨⟨⟨hr, hm⟩, hv'⟩, ha⟩, hf⟩ := h
  have hq : va / 2 ^ 17 = p * 2 ^ 17 / 2 ^ 17 := by rw [Nat.mul_div_cancel _ (by decide), hp]
  have hw : s.walk asid va = .leaf lf := by rw [State.walk_page hq, hl]
  have hd : s.devicePa asid (p * 2 ^ 17) false = some f := by
    simp [-Nat.reducePow, State.devicePa, hl, hr, hv', hf]
  have held : s.deviceHeld asid va n = none := by
    simp [-Nat.reducePow, State.deviceHeld, pagesOf_one hp h0 hn, hl, hm, ho]
  have e : s.recallRange asid va n = s := by simp [State.recallRange, hu]
  have mark : s.markPages asid va n false = s := by
    have hmax : max va (p * 2 ^ 17) = va := by omega
    have hdv := State.devicePa_page hd hp (by omega)
    have he := Leaf.entryOf_page (State.walk_span hl) va
    rw [hp] at he
    simp [-Nat.reducePow, State.markPages, pagesOf_one hp h0 hn, hmax, hdv, hw, State.markEntry, he, ha]
  have b : ∀ i ∈ List.range n, s.devicePa asid (va + i) false = some (f + (va + i) % 2 ^ 17) := fun i hi => by
    have hi := List.mem_range.1 hi
    refine State.devicePa_page hd ?_ (by omega)
    omega
  have g : ∀ l : List Nat, (∀ i ∈ l, s.devicePa asid (va + i) false = some (f + (va + i) % 2 ^ 17)) →
      (l.map fun i => match s.devicePa asid (va + i) false with
        | some pa => if s.linePoison (lineOf pa) then none else some (s.homeByte pa)
        | none => none).mapM id = some (l.map fun i => s.homeByte (f + (va + i) % 2 ^ 17)) := by
    intro l hl
    induction l with
    | nil => rfl
    | cons i r ih =>
      have := ih fun j hj => hl j (List.mem_cons_of_mem _ hj)
      simp_all [State.linePoison, Sp.get, Sp.get?]
  unfold State.deviceRead
  simp only [held, e, mark]
  exact Prod.ext (g _ b) rfl

end Sys2Proof.Machine
end

