-- ==== Sys2Proof/Laws/Sparse.lean ====
section
/-! SUPPORT. Sparse maps: what a read finds after a write, and the canonical form that every write keeps. -/

namespace Sys2Proof

theorem Sp.get?_put_self {α : Type} (m : Sp α) (x : Nat) (v : α) : Sp.get? (Sp.put m x v) x = some v := by
  induction m with
  | nil => simp [Sp.put, Sp.get?]
  | cons p r ih =>
    obtain ⟨k, w⟩ := p
    simp only [Sp.put]
    split
    · simp [Sp.get?]
    · split
      · simp [Sp.get?]
      · rename_i h1 h2
        have : k ≠ x := by omega
        simp [Sp.get?, this, ih]

theorem Sp.get?_put_ne {α : Type} (m : Sp α) (x y : Nat) (v : α) (h : y ≠ x) :
    Sp.get? (Sp.put m x v) y = Sp.get? m y := by
  induction m with
  | nil => simp [Sp.put, Sp.get?, Ne.symm h]
  | cons p r ih =>
    obtain ⟨k, w⟩ := p
    simp only [Sp.put]
    split
    · simp [Sp.get?, Ne.symm h]
    · split
      · rename_i h1 h2
        subst h2
        simp [Sp.get?, Ne.symm h]
      · simp only [Sp.get?]
        split
        · rfl
        · exact ih

theorem Sp.get?_put {α : Type} (m : Sp α) (x y : Nat) (v : α) :
    Sp.get? (Sp.put m x v) y = if y = x then some v else Sp.get? m y := by
  split
  · rename_i h; subst h; exact Sp.get?_put_self m y v
  · rename_i h; exact Sp.get?_put_ne m x y v h

theorem Sp.get?_del {α : Type} (m : Sp α) (x y : Nat) :
    Sp.get? (Sp.del m x) y = if y = x then none else Sp.get? m y := by
  induction m with
  | nil => simp [Sp.del, Sp.get?]
  | cons p r ih =>
    obtain ⟨k, w⟩ := p
    simp only [Sp.del]
    split
    · rename_i h
      subst h
      rw [ih]
      split
      · rfl
      · rename_i h; simp [Sp.get?, Ne.symm h]
    · rename_i h
      simp only [Sp.get?, ih]
      split
      · rename_i h2; subst h2; simp [h]
      · rfl

@[simp] theorem Sp.put_put {α : Type} (m : Sp α) (x : Nat) (v w : α) : Sp.put (Sp.put m x v) x w = Sp.put m x w := by
  induction m with
  | nil => simp [Sp.put]
  | cons p r ih =>
    obtain ⟨k, u⟩ := p
    by_cases h1 : x < k
    · simp [Sp.put, h1]
    · by_cases h2 : x = k
      · simp [Sp.put, h2]
      · simp [Sp.put, h1, h2, ih]

@[simp] theorem Sp.get_put {α : Type} (d : α) (m : Sp α) (x y : Nat) (v : α) :
    Sp.get d (Sp.put m x v) y = if y = x then v else Sp.get d m y := by
  simp only [Sp.get, Sp.get?_put]
  split <;> rfl

theorem Sp.get_put_self {α : Type} (d : α) (m : Sp α) (x : Nat) (v : α) :
    Sp.get d (Sp.put m x v) x = v := by simp

@[simp] theorem Sp.get_del {α : Type} (d : α) (m : Sp α) (x y : Nat) :
    Sp.get d (Sp.del m x) y = if y = x then d else Sp.get d m y := by
  simp only [Sp.get, Sp.get?_del]
  split <;> rfl

@[simp] theorem Sp.get_set {α : Type} [DecidableEq α] (d : α) (m : Sp α) (x y : Nat) (v : α) :
    Sp.get d (Sp.set d m x v) y = if y = x then v else Sp.get d m y := by
  simp only [Sp.set]
  split
  · rename_i h; subst h; simp
  · simp

@[simp] theorem Sp.get_nil {α : Type} (d : α) (y : Nat) : Sp.get d [] y = d := rfl

/-- A byte outside the written range reads as before. -/
theorem Sp.get_write_out {α : Type} [DecidableEq α] (d : α) (l : List α) :
    ∀ (m : Sp α) (x y : Nat), (y < x ∨ x + l.length ≤ y) → Sp.get d (Sp.write d m x l) y = Sp.get d m y := by
  induction l with
  | nil => intros; rfl
  | cons v r ih =>
    intro m x y h
    simp only [Sp.write, List.length_cons] at h ⊢
    rw [ih _ _ _ (by omega), Sp.get_set, if_neg (by omega)]

/-- A byte inside the written range reads as what was written. -/
theorem Sp.get_write_in {α : Type} [DecidableEq α] (d : α) (l : List α) :
    ∀ (m : Sp α) (x y : Nat), x ≤ y → y < x + l.length → Sp.get d (Sp.write d m x l) y = l.getD (y - x) d := by
  induction l with
  | nil => intro m x y h1 h2; simp at h2; omega
  | cons v r ih =>
    intro m x y h1 h2
    simp only [Sp.write, List.length_cons] at h2 ⊢
    by_cases h : y = x
    · subst h
      rw [Sp.get_write_out d r _ _ _ (by omega)]
      simp
    · rw [ih _ _ _ (by omega) (by omega)]
      obtain ⟨k, hk⟩ : ∃ k, y - x = k + 1 := ⟨y - x - 1, by omega⟩
      have : y - (x + 1) = k := by omega
      rw [this, hk, List.getD_cons_succ]

/-! ### The canonical form -/

/-- Every key is above `x`. -/
def Sp.above {α : Type} (x : Nat) (m : Sp α) : Prop := ∀ p ∈ m, x < p.1

theorem Sp.sorted_cons {α : Type} (k : Nat) (v : α) (m : Sp α) :
    Sp.sorted ((k, v) :: m) = true ↔ Sp.above k m ∧ Sp.sorted m = true := by
  induction m generalizing k v with
  | nil => simp [Sp.sorted, Sp.above]
  | cons p r ih =>
    obtain ⟨b, w⟩ := p
    rw [Sp.sorted, Bool.and_eq_true, decide_eq_true_iff]
    constructor
    · rintro ⟨h, hs⟩
      refine ⟨?_, hs⟩
      have := ((ih b w).1 hs).1
      intro p hp
      rcases List.mem_cons.1 hp with rfl | hp
      · exact h
      · exact Nat.lt_trans h (this p hp)
    · rintro ⟨h, hs⟩
      exact ⟨h (b, w) (List.mem_cons_self), hs⟩

theorem Sp.above_put {α : Type} {x y : Nat} {v : α} {m : Sp α} (h : Sp.above x m) (hy : x < y) :
    Sp.above x (Sp.put m y v) := by
  induction m with
  | nil => intro p hp; simp [Sp.put] at hp; subst hp; exact hy
  | cons q r ih =>
    obtain ⟨k, w⟩ := q
    have hk : x < k := h (k, w) (List.mem_cons_self)
    have hr : Sp.above x r := fun p hp => h p (List.mem_cons_of_mem _ hp)
    simp only [Sp.put]
    split
    · intro p hp
      rcases List.mem_cons.1 hp with rfl | hp
      · exact hy
      · exact h p hp
    · split
      · intro p hp
        rcases List.mem_cons.1 hp with rfl | hp
        · exact hy
        · exact hr p hp
      · intro p hp
        rcases List.mem_cons.1 hp with rfl | hp
        · exact hk
        · exact ih hr p hp

theorem Sp.sorted_put {α : Type} (m : Sp α) (y : Nat) (v : α) (h : Sp.sorted m = true) :
    Sp.sorted (Sp.put m y v) = true := by
  induction m with
  | nil => rfl
  | cons q r ih =>
    obtain ⟨k, w⟩ := q
    have hs := (Sp.sorted_cons k w r).1 h
    simp only [Sp.put]
    split
    · rename_i hlt
      refine (Sp.sorted_cons y v _).2 ⟨?_, h⟩
      intro p hp
      rcases List.mem_cons.1 hp with rfl | hp
      · exact hlt
      · exact Nat.lt_trans hlt (hs.1 p hp)
    · split
      · rename_i heq
        subst heq
        exact (Sp.sorted_cons y v r).2 hs
      · exact (Sp.sorted_cons k w _).2 ⟨Sp.above_put hs.1 (by omega), ih hs.2⟩

theorem Sp.mem_del {α : Type} {m : Sp α} {x : Nat} {p : Nat × α} (h : p ∈ Sp.del m x) : p ∈ m := by
  induction m with
  | nil => exact h
  | cons q r ih =>
    obtain ⟨k, w⟩ := q
    simp only [Sp.del] at h
    split at h
    · exact List.mem_cons_of_mem _ (ih h)
    · rcases List.mem_cons.1 h with rfl | h
      · exact List.mem_cons_self
      · exact List.mem_cons_of_mem _ (ih h)

theorem Sp.sorted_del {α : Type} (m : Sp α) (x : Nat) (h : Sp.sorted m = true) :
    Sp.sorted (Sp.del m x) = true := by
  induction m with
  | nil => rfl
  | cons q r ih =>
    obtain ⟨k, w⟩ := q
    have hs := (Sp.sorted_cons k w r).1 h
    simp only [Sp.del]
    split
    · exact ih hs.2
    · exact (Sp.sorted_cons k w _).2 ⟨fun p hp => hs.1 p (Sp.mem_del hp), ih hs.2⟩

theorem Sp.sorted_filter {α : Type} (m : Sp α) (f : Nat × α → Bool) (h : Sp.sorted m = true) :
    Sp.sorted (m.filter f) = true := by
  induction m with
  | nil => rfl
  | cons q r ih =>
    obtain ⟨k, w⟩ := q
    have hs := (Sp.sorted_cons k w r).1 h
    simp only [List.filter_cons]
    split
    · exact (Sp.sorted_cons k w _).2 ⟨fun p hp => hs.1 p (List.mem_filter.1 hp).1, ih hs.2⟩
    · exact ih hs.2

theorem Sp.wf_iff {α : Type} [DecidableEq α] (d : α) (m : Sp α) :
    Sp.wf d m = true ↔ Sp.sorted m = true ∧ ∀ p ∈ m, p.2 ≠ d := by
  simp [Sp.wf, List.all_eq_true]

theorem Sp.mem_put {α : Type} {m : Sp α} {x : Nat} {v : α} {p : Nat × α} (h : p ∈ Sp.put m x v) :
    p ∈ m ∨ p = (x, v) := by
  induction m with
  | nil => simp [Sp.put] at h; exact .inr h
  | cons q r ih =>
    obtain ⟨k, w⟩ := q
    simp only [Sp.put] at h
    split at h
    · rcases List.mem_cons.1 h with rfl | h
      · exact .inr rfl
      · exact .inl h
    · split at h
      · rcases List.mem_cons.1 h with rfl | h
        · exact .inr rfl
        · exact .inl (List.mem_cons_of_mem _ h)
      · rcases List.mem_cons.1 h with rfl | h
        · exact .inl List.mem_cons_self
        · rcases ih h with h | h
          · exact .inl (List.mem_cons_of_mem _ h)
          · exact .inr h

/-- The canonical write keeps the canonical form. -/
theorem Sp.wf_set {α : Type} [DecidableEq α] (d : α) (m : Sp α) (x : Nat) (v : α) (h : Sp.wf d m = true) :
    Sp.wf d (Sp.set d m x v) = true := by
  rw [Sp.wf_iff] at h ⊢
  simp only [Sp.set]
  split
  · exact ⟨Sp.sorted_del m x h.1, fun p hp => h.2 p (Sp.mem_del hp)⟩
  · rename_i hv
    refine ⟨Sp.sorted_put m x v h.1, fun p hp => ?_⟩
    rcases Sp.mem_put hp with hp | rfl
    · exact h.2 p hp
    · exact hv

theorem Sp.wf_write {α : Type} [DecidableEq α] (d : α) (l : List α) :
    ∀ (m : Sp α) (x : Nat), Sp.wf d m = true → Sp.wf d (Sp.write d m x l) = true := by
  induction l with
  | nil => intro m x h; exact h
  | cons v r ih => intro m x h; exact ih _ _ (Sp.wf_set d m x v h)

theorem Sp.wf_filter {α : Type} [DecidableEq α] (d : α) (m : Sp α) (f : Nat × α → Bool)
    (h : Sp.wf d m = true) : Sp.wf d (m.filter f) = true := by
  rw [Sp.wf_iff] at h ⊢
  exact ⟨Sp.sorted_filter m f h.1, fun p hp => h.2 p (List.mem_filter.1 hp).1⟩

theorem Sp.wf_setAll {α β : Type} [DecidableEq α] (d : α) (key : β → Nat) (val : β → α) (l : List β) :
    ∀ m : Sp α, Sp.wf d m = true →
      Sp.wf d (l.foldl (fun m b => Sp.set d m (key b) (val b)) m) = true := by
  induction l with
  | nil => intro m h; exact h
  | cons b r ih => intro m h; exact ih _ (Sp.wf_set d m _ _ h)

/-- In canonical form, listing an entry is reading a value that is not the default: equal readings are
equal maps. -/
theorem Sp.get?_above {α : Type} {x y : Nat} {m : Sp α} (h : Sp.above x m) (hy : y ≤ x) : Sp.get? m y = none := by
  induction m with
  | nil => rfl
  | cons q r ih =>
    obtain ⟨k, w⟩ := q
    have hk : x < k := h (k, w) (List.mem_cons_self)
    simp only [Sp.get?]
    rw [if_neg (by omega)]
    exact ih fun p hp => h p (List.mem_cons_of_mem _ hp)

end Sys2Proof
end

