-- ==== Sys2Proof/Laws/State.lean ====
section
/-! SUPPORT. Reading a field of the state, or of a group, after an update of another: one lemma per field and
update, so that no proof unfolds a record update. -/

namespace Sys2Proof.Machine

open Sys2Proof

/-! ### Updates of the state -/

@[simp] theorem State.setGrp_time (s : State) (n : Nat) (g : Group) : (s.setGrp n g).time = s.time := rfl
@[simp] theorem State.setGrp_frac (s : State) (n : Nat) (g : Group) : (s.setGrp n g).frac = s.frac := rfl
@[simp] theorem State.setGrp_rate (s : State) (n : Nat) (g : Group) : (s.setGrp n g).rate = s.rate := rfl
@[simp] theorem State.setGrp_locked (s : State) (n : Nat) (g : Group) : (s.setGrp n g).locked = s.locked := rfl
@[simp] theorem State.setGrp_ppsGood (s : State) (n : Nat) (g : Group) : (s.setGrp n g).ppsGood = s.ppsGood := rfl
@[simp] theorem State.setGrp_offset (s : State) (n : Nat) (g : Group) : (s.setGrp n g).offset = s.offset := rfl
@[simp] theorem State.setGrp_offsetMax (s : State) (n : Nat) (g : Group) : (s.setGrp n g).offsetMax = s.offsetMax := rfl
@[simp] theorem State.setGrp_slewing (s : State) (n : Nat) (g : Group) : (s.setGrp n g).slewing = s.slewing := rfl
@[simp] theorem State.setGrp_holdover (s : State) (n : Nat) (g : Group) : (s.setGrp n g).holdover = s.holdover := rfl
@[simp] theorem State.setGrp_ptm (s : State) (n : Nat) (g : Group) : (s.setGrp n g).ptm = s.ptm := rfl
@[simp] theorem State.setGrp_offsetBack (s : State) (n : Nat) (g : Group) : (s.setGrp n g).offsetBack = s.offsetBack := rfl
@[simp] theorem State.setGrp_cycle (s : State) (n : Nat) (g : Group) : (s.setGrp n g).cycle = s.cycle := rfl
@[simp] theorem State.setGrp_cur (s : State) (n : Nat) (g : Group) : (s.setGrp n g).cur = s.cur := rfl
@[simp] theorem State.setGrp_teams (s : State) (n : Nat) (g : Group) : (s.setGrp n g).teams = s.teams := rfl
@[simp] theorem State.setGrp_clusters (s : State) (n : Nat) (g : Group) : (s.setGrp n g).clusters = s.clusters := rfl
@[simp] theorem State.setGrp_launches (s : State) (n : Nat) (g : Group) : (s.setGrp n g).launches = s.launches := rfl
@[simp] theorem State.setGrp_cores (s : State) (n : Nat) (g : Group) : (s.setGrp n g).cores = s.cores := rfl
@[simp] theorem State.setGrp_scheds (s : State) (n : Nat) (g : Group) : (s.setGrp n g).scheds = s.scheds := rfl
@[simp] theorem State.setGrp_mem (s : State) (n : Nat) (g : Group) : (s.setGrp n g).mem = s.mem := rfl
@[simp] theorem State.setGrp_memBad (s : State) (n : Nat) (g : Group) : (s.setGrp n g).memBad = s.memBad := rfl
@[simp] theorem State.setGrp_owned (s : State) (n : Nat) (g : Group) : (s.setGrp n g).owned = s.owned := rfl
@[simp] theorem State.setGrp_heldIn (s : State) (n : Nat) (g : Group) : (s.setGrp n g).heldIn = s.heldIn := rfl
@[simp] theorem State.setGrp_retrying (s : State) (n : Nat) (g : Group) : (s.setGrp n g).retrying = s.retrying := rfl
@[simp] theorem State.setGrp_stlb (s : State) (n : Nat) (g : Group) : (s.setGrp n g).stlb = s.stlb := rfl
@[simp] theorem State.setGrp_accessed (s : State) (n : Nat) (g : Group) : (s.setGrp n g).accessed = s.accessed := rfl
@[simp] theorem State.setGrp_memKey (s : State) (n : Nat) (g : Group) : (s.setGrp n g).memKey = s.memKey := rfl
@[simp] theorem State.setGrp_garble (s : State) (n : Nat) (g : Group) : (s.setGrp n g).garble = s.garble := rfl
@[simp] theorem State.setGrp_up (s : State) (n : Nat) (g : Group) : (s.setGrp n g).up = s.up := rfl
@[simp] theorem State.setGrp_peerOver (s : State) (n : Nat) (g : Group) : (s.setGrp n g).peerOver = s.peerOver := rfl
@[simp] theorem State.setGrp_peerMem (s : State) (n : Nat) (g : Group) : (s.setGrp n g).peerMem = s.peerMem := rfl
@[simp] theorem State.setGrp_peerBad (s : State) (n : Nat) (g : Group) : (s.setGrp n g).peerBad = s.peerBad := rfl
@[simp] theorem State.setGrp_peerPages (s : State) (n : Nat) (g : Group) : (s.setGrp n g).peerPages = s.peerPages := rfl
@[simp] theorem State.setGrp_ops (s : State) (n : Nat) (g : Group) : (s.setGrp n g).ops = s.ops := rfl
@[simp] theorem State.setGrp_codeNs (s : State) (n : Nat) (g : Group) : (s.setGrp n g).codeNs = s.codeNs := rfl
@[simp] theorem State.setGrp_reads (s : State) (n : Nat) (g : Group) : (s.setGrp n g).reads = s.reads := rfl
@[simp] theorem State.setGrp_ioReads (s : State) (n : Nat) (g : Group) : (s.setGrp n g).ioReads = s.ioReads := rfl
@[simp] theorem State.setGrp_ioOut (s : State) (n : Nat) (g : Group) : (s.setGrp n g).ioOut = s.ioOut := rfl
@[simp] theorem State.setGrp_fails (s : State) (n : Nat) (g : Group) : (s.setGrp n g).fails = s.fails := rfl
@[simp] theorem State.setGrp_queues (s : State) (n : Nat) (g : Group) : (s.setGrp n g).queues = s.queues := rfl
@[simp] theorem State.setGrp_packets (s : State) (n : Nat) (g : Group) : (s.setGrp n g).packets = s.packets := rfl
@[simp] theorem State.setGrp_rankQ (s : State) (n : Nat) (g : Group) : (s.setGrp n g).rankQ = s.rankQ := rfl
@[simp] theorem State.setGrp_gangs (s : State) (n : Nat) (g : Group) : (s.setGrp n g).gangs = s.gangs := rfl
@[simp] theorem State.setGrp_parts (s : State) (n : Nat) (g : Group) : (s.setGrp n g).parts = s.parts := rfl
@[simp] theorem State.setGrp_streams (s : State) (n : Nat) (g : Group) : (s.setGrp n g).streams = s.streams := rfl
@[simp] theorem State.setGrp_insts (s : State) (n : Nat) (g : Group) : (s.setGrp n g).insts = s.insts := rfl
@[simp] theorem State.setGrp_fw (s : State) (n : Nat) (g : Group) : (s.setGrp n g).fw = s.fw := rfl
@[simp] theorem State.setGrp_serial (s : State) (n : Nat) (g : Group) : (s.setGrp n g).serial = s.serial := rfl
@[simp] theorem State.setGrp_free (s : State) (n : Nat) (g : Group) : (s.setGrp n g).free = s.free := rfl
@[simp] theorem State.setGrp_choices (s : State) (n : Nat) (g : Group) : (s.setGrp n g).choices = s.choices := rfl
@[simp] theorem State.setGrp_devWait (s : State) (n : Nat) (g : Group) : (s.setGrp n g).devWait = s.devWait := rfl
@[simp] theorem State.setGrp_agenda (s : State) (n : Nat) (g : Group) : (s.setGrp n g).agenda = s.agenda := rfl
@[simp] theorem State.setGrp_patience (s : State) (n : Nat) (g : Group) : (s.setGrp n g).patience = s.patience := rfl
@[simp] theorem State.setGrp_taken (s : State) (n : Nat) (g : Group) : (s.setGrp n g).taken = s.taken := rfl
@[simp] theorem State.modGrp_time (s : State) (n : Nat) (f : Group → Group) : (s.modGrp n f).time = s.time := rfl
@[simp] theorem State.modGrp_frac (s : State) (n : Nat) (f : Group → Group) : (s.modGrp n f).frac = s.frac := rfl
@[simp] theorem State.modGrp_rate (s : State) (n : Nat) (f : Group → Group) : (s.modGrp n f).rate = s.rate := rfl
@[simp] theorem State.modGrp_locked (s : State) (n : Nat) (f : Group → Group) : (s.modGrp n f).locked = s.locked := rfl
@[simp] theorem State.modGrp_ppsGood (s : State) (n : Nat) (f : Group → Group) : (s.modGrp n f).ppsGood = s.ppsGood := rfl
@[simp] theorem State.modGrp_offset (s : State) (n : Nat) (f : Group → Group) : (s.modGrp n f).offset = s.offset := rfl
@[simp] theorem State.modGrp_offsetMax (s : State) (n : Nat) (f : Group → Group) : (s.modGrp n f).offsetMax = s.offsetMax := rfl
@[simp] theorem State.modGrp_slewing (s : State) (n : Nat) (f : Group → Group) : (s.modGrp n f).slewing = s.slewing := rfl
@[simp] theorem State.modGrp_holdover (s : State) (n : Nat) (f : Group → Group) : (s.modGrp n f).holdover = s.holdover := rfl
@[simp] theorem State.modGrp_ptm (s : State) (n : Nat) (f : Group → Group) : (s.modGrp n f).ptm = s.ptm := rfl
@[simp] theorem State.modGrp_offsetBack (s : State) (n : Nat) (f : Group → Group) : (s.modGrp n f).offsetBack = s.offsetBack := rfl
@[simp] theorem State.modGrp_cycle (s : State) (n : Nat) (f : Group → Group) : (s.modGrp n f).cycle = s.cycle := rfl
@[simp] theorem State.modGrp_cur (s : State) (n : Nat) (f : Group → Group) : (s.modGrp n f).cur = s.cur := rfl
@[simp] theorem State.modGrp_teams (s : State) (n : Nat) (f : Group → Group) : (s.modGrp n f).teams = s.teams := rfl
@[simp] theorem State.modGrp_clusters (s : State) (n : Nat) (f : Group → Group) : (s.modGrp n f).clusters = s.clusters := rfl
@[simp] theorem State.modGrp_launches (s : State) (n : Nat) (f : Group → Group) : (s.modGrp n f).launches = s.launches := rfl
@[simp] theorem State.modGrp_cores (s : State) (n : Nat) (f : Group → Group) : (s.modGrp n f).cores = s.cores := rfl
@[simp] theorem State.modGrp_scheds (s : State) (n : Nat) (f : Group → Group) : (s.modGrp n f).scheds = s.scheds := rfl
@[simp] theorem State.modGrp_mem (s : State) (n : Nat) (f : Group → Group) : (s.modGrp n f).mem = s.mem := rfl
@[simp] theorem State.modGrp_memBad (s : State) (n : Nat) (f : Group → Group) : (s.modGrp n f).memBad = s.memBad := rfl
@[simp] theorem State.modGrp_owned (s : State) (n : Nat) (f : Group → Group) : (s.modGrp n f).owned = s.owned := rfl
@[simp] theorem State.modGrp_heldIn (s : State) (n : Nat) (f : Group → Group) : (s.modGrp n f).heldIn = s.heldIn := rfl
@[simp] theorem State.modGrp_retrying (s : State) (n : Nat) (f : Group → Group) : (s.modGrp n f).retrying = s.retrying := rfl
@[simp] theorem State.modGrp_stlb (s : State) (n : Nat) (f : Group → Group) : (s.modGrp n f).stlb = s.stlb := rfl
@[simp] theorem State.modGrp_accessed (s : State) (n : Nat) (f : Group → Group) : (s.modGrp n f).accessed = s.accessed := rfl
@[simp] theorem State.modGrp_memKey (s : State) (n : Nat) (f : Group → Group) : (s.modGrp n f).memKey = s.memKey := rfl
@[simp] theorem State.modGrp_garble (s : State) (n : Nat) (f : Group → Group) : (s.modGrp n f).garble = s.garble := rfl
@[simp] theorem State.modGrp_up (s : State) (n : Nat) (f : Group → Group) : (s.modGrp n f).up = s.up := rfl
@[simp] theorem State.modGrp_peerOver (s : State) (n : Nat) (f : Group → Group) : (s.modGrp n f).peerOver = s.peerOver := rfl
@[simp] theorem State.modGrp_peerMem (s : State) (n : Nat) (f : Group → Group) : (s.modGrp n f).peerMem = s.peerMem := rfl
@[simp] theorem State.modGrp_peerBad (s : State) (n : Nat) (f : Group → Group) : (s.modGrp n f).peerBad = s.peerBad := rfl
@[simp] theorem State.modGrp_peerPages (s : State) (n : Nat) (f : Group → Group) : (s.modGrp n f).peerPages = s.peerPages := rfl
@[simp] theorem State.modGrp_ops (s : State) (n : Nat) (f : Group → Group) : (s.modGrp n f).ops = s.ops := rfl
@[simp] theorem State.modGrp_codeNs (s : State) (n : Nat) (f : Group → Group) : (s.modGrp n f).codeNs = s.codeNs := rfl
@[simp] theorem State.modGrp_reads (s : State) (n : Nat) (f : Group → Group) : (s.modGrp n f).reads = s.reads := rfl
@[simp] theorem State.modGrp_ioReads (s : State) (n : Nat) (f : Group → Group) : (s.modGrp n f).ioReads = s.ioReads := rfl
@[simp] theorem State.modGrp_ioOut (s : State) (n : Nat) (f : Group → Group) : (s.modGrp n f).ioOut = s.ioOut := rfl
@[simp] theorem State.modGrp_fails (s : State) (n : Nat) (f : Group → Group) : (s.modGrp n f).fails = s.fails := rfl
@[simp] theorem State.modGrp_queues (s : State) (n : Nat) (f : Group → Group) : (s.modGrp n f).queues = s.queues := rfl
@[simp] theorem State.modGrp_packets (s : State) (n : Nat) (f : Group → Group) : (s.modGrp n f).packets = s.packets := rfl
@[simp] theorem State.modGrp_rankQ (s : State) (n : Nat) (f : Group → Group) : (s.modGrp n f).rankQ = s.rankQ := rfl
@[simp] theorem State.modGrp_gangs (s : State) (n : Nat) (f : Group → Group) : (s.modGrp n f).gangs = s.gangs := rfl
@[simp] theorem State.modGrp_parts (s : State) (n : Nat) (f : Group → Group) : (s.modGrp n f).parts = s.parts := rfl
@[simp] theorem State.modGrp_streams (s : State) (n : Nat) (f : Group → Group) : (s.modGrp n f).streams = s.streams := rfl
@[simp] theorem State.modGrp_insts (s : State) (n : Nat) (f : Group → Group) : (s.modGrp n f).insts = s.insts := rfl
@[simp] theorem State.modGrp_fw (s : State) (n : Nat) (f : Group → Group) : (s.modGrp n f).fw = s.fw := rfl
@[simp] theorem State.modGrp_serial (s : State) (n : Nat) (f : Group → Group) : (s.modGrp n f).serial = s.serial := rfl
@[simp] theorem State.modGrp_free (s : State) (n : Nat) (f : Group → Group) : (s.modGrp n f).free = s.free := rfl
@[simp] theorem State.modGrp_choices (s : State) (n : Nat) (f : Group → Group) : (s.modGrp n f).choices = s.choices := rfl
@[simp] theorem State.modGrp_devWait (s : State) (n : Nat) (f : Group → Group) : (s.modGrp n f).devWait = s.devWait := rfl
@[simp] theorem State.modGrp_agenda (s : State) (n : Nat) (f : Group → Group) : (s.modGrp n f).agenda = s.agenda := rfl
@[simp] theorem State.modGrp_patience (s : State) (n : Nat) (f : Group → Group) : (s.modGrp n f).patience = s.patience := rfl
@[simp] theorem State.modGrp_taken (s : State) (n : Nat) (f : Group → Group) : (s.modGrp n f).taken = s.taken := rfl
@[simp] theorem State.modTeam_time (s : State) (n : Nat) (f : Team → Team) : (s.modTeam n f).time = s.time := rfl
@[simp] theorem State.modTeam_frac (s : State) (n : Nat) (f : Team → Team) : (s.modTeam n f).frac = s.frac := rfl
@[simp] theorem State.modTeam_rate (s : State) (n : Nat) (f : Team → Team) : (s.modTeam n f).rate = s.rate := rfl
@[simp] theorem State.modTeam_locked (s : State) (n : Nat) (f : Team → Team) : (s.modTeam n f).locked = s.locked := rfl
@[simp] theorem State.modTeam_ppsGood (s : State) (n : Nat) (f : Team → Team) : (s.modTeam n f).ppsGood = s.ppsGood := rfl
@[simp] theorem State.modTeam_offset (s : State) (n : Nat) (f : Team → Team) : (s.modTeam n f).offset = s.offset := rfl
@[simp] theorem State.modTeam_offsetMax (s : State) (n : Nat) (f : Team → Team) : (s.modTeam n f).offsetMax = s.offsetMax := rfl
@[simp] theorem State.modTeam_slewing (s : State) (n : Nat) (f : Team → Team) : (s.modTeam n f).slewing = s.slewing := rfl
@[simp] theorem State.modTeam_holdover (s : State) (n : Nat) (f : Team → Team) : (s.modTeam n f).holdover = s.holdover := rfl
@[simp] theorem State.modTeam_ptm (s : State) (n : Nat) (f : Team → Team) : (s.modTeam n f).ptm = s.ptm := rfl
@[simp] theorem State.modTeam_offsetBack (s : State) (n : Nat) (f : Team → Team) : (s.modTeam n f).offsetBack = s.offsetBack := rfl
@[simp] theorem State.modTeam_cycle (s : State) (n : Nat) (f : Team → Team) : (s.modTeam n f).cycle = s.cycle := rfl
@[simp] theorem State.modTeam_cur (s : State) (n : Nat) (f : Team → Team) : (s.modTeam n f).cur = s.cur := rfl
@[simp] theorem State.modTeam_groups (s : State) (n : Nat) (f : Team → Team) : (s.modTeam n f).groups = s.groups := rfl
@[simp] theorem State.modTeam_clusters (s : State) (n : Nat) (f : Team → Team) : (s.modTeam n f).clusters = s.clusters := rfl
@[simp] theorem State.modTeam_launches (s : State) (n : Nat) (f : Team → Team) : (s.modTeam n f).launches = s.launches := rfl
@[simp] theorem State.modTeam_cores (s : State) (n : Nat) (f : Team → Team) : (s.modTeam n f).cores = s.cores := rfl
@[simp] theorem State.modTeam_scheds (s : State) (n : Nat) (f : Team → Team) : (s.modTeam n f).scheds = s.scheds := rfl
@[simp] theorem State.modTeam_mem (s : State) (n : Nat) (f : Team → Team) : (s.modTeam n f).mem = s.mem := rfl
@[simp] theorem State.modTeam_memBad (s : State) (n : Nat) (f : Team → Team) : (s.modTeam n f).memBad = s.memBad := rfl
@[simp] theorem State.modTeam_owned (s : State) (n : Nat) (f : Team → Team) : (s.modTeam n f).owned = s.owned := rfl
@[simp] theorem State.modTeam_heldIn (s : State) (n : Nat) (f : Team → Team) : (s.modTeam n f).heldIn = s.heldIn := rfl
@[simp] theorem State.modTeam_retrying (s : State) (n : Nat) (f : Team → Team) : (s.modTeam n f).retrying = s.retrying := rfl
@[simp] theorem State.modTeam_stlb (s : State) (n : Nat) (f : Team → Team) : (s.modTeam n f).stlb = s.stlb := rfl
@[simp] theorem State.modTeam_accessed (s : State) (n : Nat) (f : Team → Team) : (s.modTeam n f).accessed = s.accessed := rfl
@[simp] theorem State.modTeam_memKey (s : State) (n : Nat) (f : Team → Team) : (s.modTeam n f).memKey = s.memKey := rfl
@[simp] theorem State.modTeam_garble (s : State) (n : Nat) (f : Team → Team) : (s.modTeam n f).garble = s.garble := rfl
@[simp] theorem State.modTeam_up (s : State) (n : Nat) (f : Team → Team) : (s.modTeam n f).up = s.up := rfl
@[simp] theorem State.modTeam_peerOver (s : State) (n : Nat) (f : Team → Team) : (s.modTeam n f).peerOver = s.peerOver := rfl
@[simp] theorem State.modTeam_peerMem (s : State) (n : Nat) (f : Team → Team) : (s.modTeam n f).peerMem = s.peerMem := rfl
@[simp] theorem State.modTeam_peerBad (s : State) (n : Nat) (f : Team → Team) : (s.modTeam n f).peerBad = s.peerBad := rfl
@[simp] theorem State.modTeam_peerPages (s : State) (n : Nat) (f : Team → Team) : (s.modTeam n f).peerPages = s.peerPages := rfl
@[simp] theorem State.modTeam_ops (s : State) (n : Nat) (f : Team → Team) : (s.modTeam n f).ops = s.ops := rfl
@[simp] theorem State.modTeam_codeNs (s : State) (n : Nat) (f : Team → Team) : (s.modTeam n f).codeNs = s.codeNs := rfl
@[simp] theorem State.modTeam_reads (s : State) (n : Nat) (f : Team → Team) : (s.modTeam n f).reads = s.reads := rfl
@[simp] theorem State.modTeam_ioReads (s : State) (n : Nat) (f : Team → Team) : (s.modTeam n f).ioReads = s.ioReads := rfl
@[simp] theorem State.modTeam_ioOut (s : State) (n : Nat) (f : Team → Team) : (s.modTeam n f).ioOut = s.ioOut := rfl
@[simp] theorem State.modTeam_fails (s : State) (n : Nat) (f : Team → Team) : (s.modTeam n f).fails = s.fails := rfl
@[simp] theorem State.modTeam_queues (s : State) (n : Nat) (f : Team → Team) : (s.modTeam n f).queues = s.queues := rfl
@[simp] theorem State.modTeam_packets (s : State) (n : Nat) (f : Team → Team) : (s.modTeam n f).packets = s.packets := rfl
@[simp] theorem State.modTeam_rankQ (s : State) (n : Nat) (f : Team → Team) : (s.modTeam n f).rankQ = s.rankQ := rfl
@[simp] theorem State.modTeam_gangs (s : State) (n : Nat) (f : Team → Team) : (s.modTeam n f).gangs = s.gangs := rfl
@[simp] theorem State.modTeam_parts (s : State) (n : Nat) (f : Team → Team) : (s.modTeam n f).parts = s.parts := rfl
@[simp] theorem State.modTeam_streams (s : State) (n : Nat) (f : Team → Team) : (s.modTeam n f).streams = s.streams := rfl
@[simp] theorem State.modTeam_insts (s : State) (n : Nat) (f : Team → Team) : (s.modTeam n f).insts = s.insts := rfl
@[simp] theorem State.modTeam_fw (s : State) (n : Nat) (f : Team → Team) : (s.modTeam n f).fw = s.fw := rfl
@[simp] theorem State.modTeam_serial (s : State) (n : Nat) (f : Team → Team) : (s.modTeam n f).serial = s.serial := rfl
@[simp] theorem State.modTeam_free (s : State) (n : Nat) (f : Team → Team) : (s.modTeam n f).free = s.free := rfl
@[simp] theorem State.modTeam_choices (s : State) (n : Nat) (f : Team → Team) : (s.modTeam n f).choices = s.choices := rfl
@[simp] theorem State.modTeam_devWait (s : State) (n : Nat) (f : Team → Team) : (s.modTeam n f).devWait = s.devWait := rfl
@[simp] theorem State.modTeam_agenda (s : State) (n : Nat) (f : Team → Team) : (s.modTeam n f).agenda = s.agenda := rfl
@[simp] theorem State.modTeam_patience (s : State) (n : Nat) (f : Team → Team) : (s.modTeam n f).patience = s.patience := rfl
@[simp] theorem State.modTeam_taken (s : State) (n : Nat) (f : Team → Team) : (s.modTeam n f).taken = s.taken := rfl
@[simp] theorem State.modLaunch_time (s : State) (n : Nat) (f : Launch → Launch) : (s.modLaunch n f).time = s.time := rfl
@[simp] theorem State.modLaunch_frac (s : State) (n : Nat) (f : Launch → Launch) : (s.modLaunch n f).frac = s.frac := rfl
@[simp] theorem State.modLaunch_rate (s : State) (n : Nat) (f : Launch → Launch) : (s.modLaunch n f).rate = s.rate := rfl
@[simp] theorem State.modLaunch_locked (s : State) (n : Nat) (f : Launch → Launch) : (s.modLaunch n f).locked = s.locked := rfl
@[simp] theorem State.modLaunch_ppsGood (s : State) (n : Nat) (f : Launch → Launch) : (s.modLaunch n f).ppsGood = s.ppsGood := rfl
@[simp] theorem State.modLaunch_offset (s : State) (n : Nat) (f : Launch → Launch) : (s.modLaunch n f).offset = s.offset := rfl
@[simp] theorem State.modLaunch_offsetMax (s : State) (n : Nat) (f : Launch → Launch) : (s.modLaunch n f).offsetMax = s.offsetMax := rfl
@[simp] theorem State.modLaunch_slewing (s : State) (n : Nat) (f : Launch → Launch) : (s.modLaunch n f).slewing = s.slewing := rfl
@[simp] theorem State.modLaunch_holdover (s : State) (n : Nat) (f : Launch → Launch) : (s.modLaunch n f).holdover = s.holdover := rfl
@[simp] theorem State.modLaunch_ptm (s : State) (n : Nat) (f : Launch → Launch) : (s.modLaunch n f).ptm = s.ptm := rfl
@[simp] theorem State.modLaunch_offsetBack (s : State) (n : Nat) (f : Launch → Launch) : (s.modLaunch n f).offsetBack = s.offsetBack := rfl
@[simp] theorem State.modLaunch_cycle (s : State) (n : Nat) (f : Launch → Launch) : (s.modLaunch n f).cycle = s.cycle := rfl
@[simp] theorem State.modLaunch_cur (s : State) (n : Nat) (f : Launch → Launch) : (s.modLaunch n f).cur = s.cur := rfl
@[simp] theorem State.modLaunch_groups (s : State) (n : Nat) (f : Launch → Launch) : (s.modLaunch n f).groups = s.groups := rfl
@[simp] theorem State.modLaunch_teams (s : State) (n : Nat) (f : Launch → Launch) : (s.modLaunch n f).teams = s.teams := rfl
@[simp] theorem State.modLaunch_clusters (s : State) (n : Nat) (f : Launch → Launch) : (s.modLaunch n f).clusters = s.clusters := rfl
@[simp] theorem State.modLaunch_cores (s : State) (n : Nat) (f : Launch → Launch) : (s.modLaunch n f).cores = s.cores := rfl
@[simp] theorem State.modLaunch_scheds (s : State) (n : Nat) (f : Launch → Launch) : (s.modLaunch n f).scheds = s.scheds := rfl
@[simp] theorem State.modLaunch_mem (s : State) (n : Nat) (f : Launch → Launch) : (s.modLaunch n f).mem = s.mem := rfl
@[simp] theorem State.modLaunch_memBad (s : State) (n : Nat) (f : Launch → Launch) : (s.modLaunch n f).memBad = s.memBad := rfl
@[simp] theorem State.modLaunch_owned (s : State) (n : Nat) (f : Launch → Launch) : (s.modLaunch n f).owned = s.owned := rfl
@[simp] theorem State.modLaunch_heldIn (s : State) (n : Nat) (f : Launch → Launch) : (s.modLaunch n f).heldIn = s.heldIn := rfl
@[simp] theorem State.modLaunch_retrying (s : State) (n : Nat) (f : Launch → Launch) : (s.modLaunch n f).retrying = s.retrying := rfl
@[simp] theorem State.modLaunch_stlb (s : State) (n : Nat) (f : Launch → Launch) : (s.modLaunch n f).stlb = s.stlb := rfl
@[simp] theorem State.modLaunch_accessed (s : State) (n : Nat) (f : Launch → Launch) : (s.modLaunch n f).accessed = s.accessed := rfl
@[simp] theorem State.modLaunch_memKey (s : State) (n : Nat) (f : Launch → Launch) : (s.modLaunch n f).memKey = s.memKey := rfl
@[simp] theorem State.modLaunch_garble (s : State) (n : Nat) (f : Launch → Launch) : (s.modLaunch n f).garble = s.garble := rfl
@[simp] theorem State.modLaunch_up (s : State) (n : Nat) (f : Launch → Launch) : (s.modLaunch n f).up = s.up := rfl
@[simp] theorem State.modLaunch_peerOver (s : State) (n : Nat) (f : Launch → Launch) : (s.modLaunch n f).peerOver = s.peerOver := rfl
@[simp] theorem State.modLaunch_peerMem (s : State) (n : Nat) (f : Launch → Launch) : (s.modLaunch n f).peerMem = s.peerMem := rfl
@[simp] theorem State.modLaunch_peerBad (s : State) (n : Nat) (f : Launch → Launch) : (s.modLaunch n f).peerBad = s.peerBad := rfl
@[simp] theorem State.modLaunch_peerPages (s : State) (n : Nat) (f : Launch → Launch) : (s.modLaunch n f).peerPages = s.peerPages := rfl
@[simp] theorem State.modLaunch_ops (s : State) (n : Nat) (f : Launch → Launch) : (s.modLaunch n f).ops = s.ops := rfl
@[simp] theorem State.modLaunch_codeNs (s : State) (n : Nat) (f : Launch → Launch) : (s.modLaunch n f).codeNs = s.codeNs := rfl
@[simp] theorem State.modLaunch_reads (s : State) (n : Nat) (f : Launch → Launch) : (s.modLaunch n f).reads = s.reads := rfl
@[simp] theorem State.modLaunch_ioReads (s : State) (n : Nat) (f : Launch → Launch) : (s.modLaunch n f).ioReads = s.ioReads := rfl
@[simp] theorem State.modLaunch_ioOut (s : State) (n : Nat) (f : Launch → Launch) : (s.modLaunch n f).ioOut = s.ioOut := rfl
@[simp] theorem State.modLaunch_fails (s : State) (n : Nat) (f : Launch → Launch) : (s.modLaunch n f).fails = s.fails := rfl
@[simp] theorem State.modLaunch_queues (s : State) (n : Nat) (f : Launch → Launch) : (s.modLaunch n f).queues = s.queues := rfl
@[simp] theorem State.modLaunch_packets (s : State) (n : Nat) (f : Launch → Launch) : (s.modLaunch n f).packets = s.packets := rfl
@[simp] theorem State.modLaunch_rankQ (s : State) (n : Nat) (f : Launch → Launch) : (s.modLaunch n f).rankQ = s.rankQ := rfl
@[simp] theorem State.modLaunch_gangs (s : State) (n : Nat) (f : Launch → Launch) : (s.modLaunch n f).gangs = s.gangs := rfl
@[simp] theorem State.modLaunch_parts (s : State) (n : Nat) (f : Launch → Launch) : (s.modLaunch n f).parts = s.parts := rfl
@[simp] theorem State.modLaunch_streams (s : State) (n : Nat) (f : Launch → Launch) : (s.modLaunch n f).streams = s.streams := rfl
@[simp] theorem State.modLaunch_insts (s : State) (n : Nat) (f : Launch → Launch) : (s.modLaunch n f).insts = s.insts := rfl
@[simp] theorem State.modLaunch_fw (s : State) (n : Nat) (f : Launch → Launch) : (s.modLaunch n f).fw = s.fw := rfl
@[simp] theorem State.modLaunch_serial (s : State) (n : Nat) (f : Launch → Launch) : (s.modLaunch n f).serial = s.serial := rfl
@[simp] theorem State.modLaunch_free (s : State) (n : Nat) (f : Launch → Launch) : (s.modLaunch n f).free = s.free := rfl
@[simp] theorem State.modLaunch_choices (s : State) (n : Nat) (f : Launch → Launch) : (s.modLaunch n f).choices = s.choices := rfl
@[simp] theorem State.modLaunch_devWait (s : State) (n : Nat) (f : Launch → Launch) : (s.modLaunch n f).devWait = s.devWait := rfl
@[simp] theorem State.modLaunch_agenda (s : State) (n : Nat) (f : Launch → Launch) : (s.modLaunch n f).agenda = s.agenda := rfl
@[simp] theorem State.modLaunch_patience (s : State) (n : Nat) (f : Launch → Launch) : (s.modLaunch n f).patience = s.patience := rfl
@[simp] theorem State.modLaunch_taken (s : State) (n : Nat) (f : Launch → Launch) : (s.modLaunch n f).taken = s.taken := rfl
@[simp] theorem State.modCore_time (s : State) (n : Nat) (f : Core → Core) : (s.modCore n f).time = s.time := rfl
@[simp] theorem State.modCore_frac (s : State) (n : Nat) (f : Core → Core) : (s.modCore n f).frac = s.frac := rfl
@[simp] theorem State.modCore_rate (s : State) (n : Nat) (f : Core → Core) : (s.modCore n f).rate = s.rate := rfl
@[simp] theorem State.modCore_locked (s : State) (n : Nat) (f : Core → Core) : (s.modCore n f).locked = s.locked := rfl
@[simp] theorem State.modCore_ppsGood (s : State) (n : Nat) (f : Core → Core) : (s.modCore n f).ppsGood = s.ppsGood := rfl
@[simp] theorem State.modCore_offset (s : State) (n : Nat) (f : Core → Core) : (s.modCore n f).offset = s.offset := rfl
@[simp] theorem State.modCore_offsetMax (s : State) (n : Nat) (f : Core → Core) : (s.modCore n f).offsetMax = s.offsetMax := rfl
@[simp] theorem State.modCore_slewing (s : State) (n : Nat) (f : Core → Core) : (s.modCore n f).slewing = s.slewing := rfl
@[simp] theorem State.modCore_holdover (s : State) (n : Nat) (f : Core → Core) : (s.modCore n f).holdover = s.holdover := rfl
@[simp] theorem State.modCore_ptm (s : State) (n : Nat) (f : Core → Core) : (s.modCore n f).ptm = s.ptm := rfl
@[simp] theorem State.modCore_offsetBack (s : State) (n : Nat) (f : Core → Core) : (s.modCore n f).offsetBack = s.offsetBack := rfl
@[simp] theorem State.modCore_cycle (s : State) (n : Nat) (f : Core → Core) : (s.modCore n f).cycle = s.cycle := rfl
@[simp] theorem State.modCore_cur (s : State) (n : Nat) (f : Core → Core) : (s.modCore n f).cur = s.cur := rfl
@[simp] theorem State.modCore_groups (s : State) (n : Nat) (f : Core → Core) : (s.modCore n f).groups = s.groups := rfl
@[simp] theorem State.modCore_teams (s : State) (n : Nat) (f : Core → Core) : (s.modCore n f).teams = s.teams := rfl
@[simp] theorem State.modCore_clusters (s : State) (n : Nat) (f : Core → Core) : (s.modCore n f).clusters = s.clusters := rfl
@[simp] theorem State.modCore_launches (s : State) (n : Nat) (f : Core → Core) : (s.modCore n f).launches = s.launches := rfl
@[simp] theorem State.modCore_scheds (s : State) (n : Nat) (f : Core → Core) : (s.modCore n f).scheds = s.scheds := rfl
@[simp] theorem State.modCore_mem (s : State) (n : Nat) (f : Core → Core) : (s.modCore n f).mem = s.mem := rfl
@[simp] theorem State.modCore_memBad (s : State) (n : Nat) (f : Core → Core) : (s.modCore n f).memBad = s.memBad := rfl
@[simp] theorem State.modCore_owned (s : State) (n : Nat) (f : Core → Core) : (s.modCore n f).owned = s.owned := rfl
@[simp] theorem State.modCore_heldIn (s : State) (n : Nat) (f : Core → Core) : (s.modCore n f).heldIn = s.heldIn := rfl
@[simp] theorem State.modCore_retrying (s : State) (n : Nat) (f : Core → Core) : (s.modCore n f).retrying = s.retrying := rfl
@[simp] theorem State.modCore_stlb (s : State) (n : Nat) (f : Core → Core) : (s.modCore n f).stlb = s.stlb := rfl
@[simp] theorem State.modCore_accessed (s : State) (n : Nat) (f : Core → Core) : (s.modCore n f).accessed = s.accessed := rfl
@[simp] theorem State.modCore_memKey (s : State) (n : Nat) (f : Core → Core) : (s.modCore n f).memKey = s.memKey := rfl
@[simp] theorem State.modCore_garble (s : State) (n : Nat) (f : Core → Core) : (s.modCore n f).garble = s.garble := rfl
@[simp] theorem State.modCore_up (s : State) (n : Nat) (f : Core → Core) : (s.modCore n f).up = s.up := rfl
@[simp] theorem State.modCore_peerOver (s : State) (n : Nat) (f : Core → Core) : (s.modCore n f).peerOver = s.peerOver := rfl
@[simp] theorem State.modCore_peerMem (s : State) (n : Nat) (f : Core → Core) : (s.modCore n f).peerMem = s.peerMem := rfl
@[simp] theorem State.modCore_peerBad (s : State) (n : Nat) (f : Core → Core) : (s.modCore n f).peerBad = s.peerBad := rfl
@[simp] theorem State.modCore_peerPages (s : State) (n : Nat) (f : Core → Core) : (s.modCore n f).peerPages = s.peerPages := rfl
@[simp] theorem State.modCore_ops (s : State) (n : Nat) (f : Core → Core) : (s.modCore n f).ops = s.ops := rfl
@[simp] theorem State.modCore_codeNs (s : State) (n : Nat) (f : Core → Core) : (s.modCore n f).codeNs = s.codeNs := rfl
@[simp] theorem State.modCore_reads (s : State) (n : Nat) (f : Core → Core) : (s.modCore n f).reads = s.reads := rfl
@[simp] theorem State.modCore_ioReads (s : State) (n : Nat) (f : Core → Core) : (s.modCore n f).ioReads = s.ioReads := rfl
@[simp] theorem State.modCore_ioOut (s : State) (n : Nat) (f : Core → Core) : (s.modCore n f).ioOut = s.ioOut := rfl
@[simp] theorem State.modCore_fails (s : State) (n : Nat) (f : Core → Core) : (s.modCore n f).fails = s.fails := rfl
@[simp] theorem State.modCore_queues (s : State) (n : Nat) (f : Core → Core) : (s.modCore n f).queues = s.queues := rfl
@[simp] theorem State.modCore_packets (s : State) (n : Nat) (f : Core → Core) : (s.modCore n f).packets = s.packets := rfl
@[simp] theorem State.modCore_rankQ (s : State) (n : Nat) (f : Core → Core) : (s.modCore n f).rankQ = s.rankQ := rfl
@[simp] theorem State.modCore_gangs (s : State) (n : Nat) (f : Core → Core) : (s.modCore n f).gangs = s.gangs := rfl
@[simp] theorem State.modCore_parts (s : State) (n : Nat) (f : Core → Core) : (s.modCore n f).parts = s.parts := rfl
@[simp] theorem State.modCore_streams (s : State) (n : Nat) (f : Core → Core) : (s.modCore n f).streams = s.streams := rfl
@[simp] theorem State.modCore_insts (s : State) (n : Nat) (f : Core → Core) : (s.modCore n f).insts = s.insts := rfl
@[simp] theorem State.modCore_fw (s : State) (n : Nat) (f : Core → Core) : (s.modCore n f).fw = s.fw := rfl
@[simp] theorem State.modCore_serial (s : State) (n : Nat) (f : Core → Core) : (s.modCore n f).serial = s.serial := rfl
@[simp] theorem State.modCore_free (s : State) (n : Nat) (f : Core → Core) : (s.modCore n f).free = s.free := rfl
@[simp] theorem State.modCore_choices (s : State) (n : Nat) (f : Core → Core) : (s.modCore n f).choices = s.choices := rfl
@[simp] theorem State.modCore_devWait (s : State) (n : Nat) (f : Core → Core) : (s.modCore n f).devWait = s.devWait := rfl
@[simp] theorem State.modCore_agenda (s : State) (n : Nat) (f : Core → Core) : (s.modCore n f).agenda = s.agenda := rfl
@[simp] theorem State.modCore_patience (s : State) (n : Nat) (f : Core → Core) : (s.modCore n f).patience = s.patience := rfl
@[simp] theorem State.modCore_taken (s : State) (n : Nat) (f : Core → Core) : (s.modCore n f).taken = s.taken := rfl
@[simp] theorem State.modSched_time (s : State) (n : Nat) (f : Sched → Sched) : (s.modSched n f).time = s.time := rfl
@[simp] theorem State.modSched_frac (s : State) (n : Nat) (f : Sched → Sched) : (s.modSched n f).frac = s.frac := rfl
@[simp] theorem State.modSched_rate (s : State) (n : Nat) (f : Sched → Sched) : (s.modSched n f).rate = s.rate := rfl
@[simp] theorem State.modSched_locked (s : State) (n : Nat) (f : Sched → Sched) : (s.modSched n f).locked = s.locked := rfl
@[simp] theorem State.modSched_ppsGood (s : State) (n : Nat) (f : Sched → Sched) : (s.modSched n f).ppsGood = s.ppsGood := rfl
@[simp] theorem State.modSched_offset (s : State) (n : Nat) (f : Sched → Sched) : (s.modSched n f).offset = s.offset := rfl
@[simp] theorem State.modSched_offsetMax (s : State) (n : Nat) (f : Sched → Sched) : (s.modSched n f).offsetMax = s.offsetMax := rfl
@[simp] theorem State.modSched_slewing (s : State) (n : Nat) (f : Sched → Sched) : (s.modSched n f).slewing = s.slewing := rfl
@[simp] theorem State.modSched_holdover (s : State) (n : Nat) (f : Sched → Sched) : (s.modSched n f).holdover = s.holdover := rfl
@[simp] theorem State.modSched_ptm (s : State) (n : Nat) (f : Sched → Sched) : (s.modSched n f).ptm = s.ptm := rfl
@[simp] theorem State.modSched_offsetBack (s : State) (n : Nat) (f : Sched → Sched) : (s.modSched n f).offsetBack = s.offsetBack := rfl
@[simp] theorem State.modSched_cycle (s : State) (n : Nat) (f : Sched → Sched) : (s.modSched n f).cycle = s.cycle := rfl
@[simp] theorem State.modSched_cur (s : State) (n : Nat) (f : Sched → Sched) : (s.modSched n f).cur = s.cur := rfl
@[simp] theorem State.modSched_groups (s : State) (n : Nat) (f : Sched → Sched) : (s.modSched n f).groups = s.groups := rfl
@[simp] theorem State.modSched_teams (s : State) (n : Nat) (f : Sched → Sched) : (s.modSched n f).teams = s.teams := rfl
@[simp] theorem State.modSched_clusters (s : State) (n : Nat) (f : Sched → Sched) : (s.modSched n f).clusters = s.clusters := rfl
@[simp] theorem State.modSched_launches (s : State) (n : Nat) (f : Sched → Sched) : (s.modSched n f).launches = s.launches := rfl
@[simp] theorem State.modSched_cores (s : State) (n : Nat) (f : Sched → Sched) : (s.modSched n f).cores = s.cores := rfl
@[simp] theorem State.modSched_mem (s : State) (n : Nat) (f : Sched → Sched) : (s.modSched n f).mem = s.mem := rfl
@[simp] theorem State.modSched_memBad (s : State) (n : Nat) (f : Sched → Sched) : (s.modSched n f).memBad = s.memBad := rfl
@[simp] theorem State.modSched_owned (s : State) (n : Nat) (f : Sched → Sched) : (s.modSched n f).owned = s.owned := rfl
@[simp] theorem State.modSched_heldIn (s : State) (n : Nat) (f : Sched → Sched) : (s.modSched n f).heldIn = s.heldIn := rfl
@[simp] theorem State.modSched_retrying (s : State) (n : Nat) (f : Sched → Sched) : (s.modSched n f).retrying = s.retrying := rfl
@[simp] theorem State.modSched_stlb (s : State) (n : Nat) (f : Sched → Sched) : (s.modSched n f).stlb = s.stlb := rfl
@[simp] theorem State.modSched_accessed (s : State) (n : Nat) (f : Sched → Sched) : (s.modSched n f).accessed = s.accessed := rfl
@[simp] theorem State.modSched_memKey (s : State) (n : Nat) (f : Sched → Sched) : (s.modSched n f).memKey = s.memKey := rfl
@[simp] theorem State.modSched_garble (s : State) (n : Nat) (f : Sched → Sched) : (s.modSched n f).garble = s.garble := rfl
@[simp] theorem State.modSched_up (s : State) (n : Nat) (f : Sched → Sched) : (s.modSched n f).up = s.up := rfl
@[simp] theorem State.modSched_peerOver (s : State) (n : Nat) (f : Sched → Sched) : (s.modSched n f).peerOver = s.peerOver := rfl
@[simp] theorem State.modSched_peerMem (s : State) (n : Nat) (f : Sched → Sched) : (s.modSched n f).peerMem = s.peerMem := rfl
@[simp] theorem State.modSched_peerBad (s : State) (n : Nat) (f : Sched → Sched) : (s.modSched n f).peerBad = s.peerBad := rfl
@[simp] theorem State.modSched_peerPages (s : State) (n : Nat) (f : Sched → Sched) : (s.modSched n f).peerPages = s.peerPages := rfl
@[simp] theorem State.modSched_ops (s : State) (n : Nat) (f : Sched → Sched) : (s.modSched n f).ops = s.ops := rfl
@[simp] theorem State.modSched_codeNs (s : State) (n : Nat) (f : Sched → Sched) : (s.modSched n f).codeNs = s.codeNs := rfl
@[simp] theorem State.modSched_reads (s : State) (n : Nat) (f : Sched → Sched) : (s.modSched n f).reads = s.reads := rfl
@[simp] theorem State.modSched_ioReads (s : State) (n : Nat) (f : Sched → Sched) : (s.modSched n f).ioReads = s.ioReads := rfl
@[simp] theorem State.modSched_ioOut (s : State) (n : Nat) (f : Sched → Sched) : (s.modSched n f).ioOut = s.ioOut := rfl
@[simp] theorem State.modSched_fails (s : State) (n : Nat) (f : Sched → Sched) : (s.modSched n f).fails = s.fails := rfl
@[simp] theorem State.modSched_queues (s : State) (n : Nat) (f : Sched → Sched) : (s.modSched n f).queues = s.queues := rfl
@[simp] theorem State.modSched_packets (s : State) (n : Nat) (f : Sched → Sched) : (s.modSched n f).packets = s.packets := rfl
@[simp] theorem State.modSched_rankQ (s : State) (n : Nat) (f : Sched → Sched) : (s.modSched n f).rankQ = s.rankQ := rfl
@[simp] theorem State.modSched_gangs (s : State) (n : Nat) (f : Sched → Sched) : (s.modSched n f).gangs = s.gangs := rfl
@[simp] theorem State.modSched_parts (s : State) (n : Nat) (f : Sched → Sched) : (s.modSched n f).parts = s.parts := rfl
@[simp] theorem State.modSched_streams (s : State) (n : Nat) (f : Sched → Sched) : (s.modSched n f).streams = s.streams := rfl
@[simp] theorem State.modSched_insts (s : State) (n : Nat) (f : Sched → Sched) : (s.modSched n f).insts = s.insts := rfl
@[simp] theorem State.modSched_fw (s : State) (n : Nat) (f : Sched → Sched) : (s.modSched n f).fw = s.fw := rfl
@[simp] theorem State.modSched_serial (s : State) (n : Nat) (f : Sched → Sched) : (s.modSched n f).serial = s.serial := rfl
@[simp] theorem State.modSched_free (s : State) (n : Nat) (f : Sched → Sched) : (s.modSched n f).free = s.free := rfl
@[simp] theorem State.modSched_choices (s : State) (n : Nat) (f : Sched → Sched) : (s.modSched n f).choices = s.choices := rfl
@[simp] theorem State.modSched_devWait (s : State) (n : Nat) (f : Sched → Sched) : (s.modSched n f).devWait = s.devWait := rfl
@[simp] theorem State.modSched_agenda (s : State) (n : Nat) (f : Sched → Sched) : (s.modSched n f).agenda = s.agenda := rfl
@[simp] theorem State.modSched_patience (s : State) (n : Nat) (f : Sched → Sched) : (s.modSched n f).patience = s.patience := rfl
@[simp] theorem State.modSched_taken (s : State) (n : Nat) (f : Sched → Sched) : (s.modSched n f).taken = s.taken := rfl
@[simp] theorem State.modOp_time (s : State) (n : Nat) (f : AsyncOp → AsyncOp) : (s.modOp n f).time = s.time := rfl
@[simp] theorem State.modOp_frac (s : State) (n : Nat) (f : AsyncOp → AsyncOp) : (s.modOp n f).frac = s.frac := rfl
@[simp] theorem State.modOp_rate (s : State) (n : Nat) (f : AsyncOp → AsyncOp) : (s.modOp n f).rate = s.rate := rfl
@[simp] theorem State.modOp_locked (s : State) (n : Nat) (f : AsyncOp → AsyncOp) : (s.modOp n f).locked = s.locked := rfl
@[simp] theorem State.modOp_ppsGood (s : State) (n : Nat) (f : AsyncOp → AsyncOp) : (s.modOp n f).ppsGood = s.ppsGood := rfl
@[simp] theorem State.modOp_offset (s : State) (n : Nat) (f : AsyncOp → AsyncOp) : (s.modOp n f).offset = s.offset := rfl
@[simp] theorem State.modOp_offsetMax (s : State) (n : Nat) (f : AsyncOp → AsyncOp) : (s.modOp n f).offsetMax = s.offsetMax := rfl
@[simp] theorem State.modOp_slewing (s : State) (n : Nat) (f : AsyncOp → AsyncOp) : (s.modOp n f).slewing = s.slewing := rfl
@[simp] theorem State.modOp_holdover (s : State) (n : Nat) (f : AsyncOp → AsyncOp) : (s.modOp n f).holdover = s.holdover := rfl
@[simp] theorem State.modOp_ptm (s : State) (n : Nat) (f : AsyncOp → AsyncOp) : (s.modOp n f).ptm = s.ptm := rfl
@[simp] theorem State.modOp_offsetBack (s : State) (n : Nat) (f : AsyncOp → AsyncOp) : (s.modOp n f).offsetBack = s.offsetBack := rfl
@[simp] theorem State.modOp_cycle (s : State) (n : Nat) (f : AsyncOp → AsyncOp) : (s.modOp n f).cycle = s.cycle := rfl
@[simp] theorem State.modOp_cur (s : State) (n : Nat) (f : AsyncOp → AsyncOp) : (s.modOp n f).cur = s.cur := rfl
@[simp] theorem State.modOp_groups (s : State) (n : Nat) (f : AsyncOp → AsyncOp) : (s.modOp n f).groups = s.groups := rfl
@[simp] theorem State.modOp_teams (s : State) (n : Nat) (f : AsyncOp → AsyncOp) : (s.modOp n f).teams = s.teams := rfl
@[simp] theorem State.modOp_clusters (s : State) (n : Nat) (f : AsyncOp → AsyncOp) : (s.modOp n f).clusters = s.clusters := rfl
@[simp] theorem State.modOp_launches (s : State) (n : Nat) (f : AsyncOp → AsyncOp) : (s.modOp n f).launches = s.launches := rfl
@[simp] theorem State.modOp_cores (s : State) (n : Nat) (f : AsyncOp → AsyncOp) : (s.modOp n f).cores = s.cores := rfl
@[simp] theorem State.modOp_scheds (s : State) (n : Nat) (f : AsyncOp → AsyncOp) : (s.modOp n f).scheds = s.scheds := rfl
@[simp] theorem State.modOp_mem (s : State) (n : Nat) (f : AsyncOp → AsyncOp) : (s.modOp n f).mem = s.mem := rfl
@[simp] theorem State.modOp_memBad (s : State) (n : Nat) (f : AsyncOp → AsyncOp) : (s.modOp n f).memBad = s.memBad := rfl
@[simp] theorem State.modOp_owned (s : State) (n : Nat) (f : AsyncOp → AsyncOp) : (s.modOp n f).owned = s.owned := rfl
@[simp] theorem State.modOp_heldIn (s : State) (n : Nat) (f : AsyncOp → AsyncOp) : (s.modOp n f).heldIn = s.heldIn := rfl
@[simp] theorem State.modOp_retrying (s : State) (n : Nat) (f : AsyncOp → AsyncOp) : (s.modOp n f).retrying = s.retrying := rfl
@[simp] theorem State.modOp_stlb (s : State) (n : Nat) (f : AsyncOp → AsyncOp) : (s.modOp n f).stlb = s.stlb := rfl
@[simp] theorem State.modOp_accessed (s : State) (n : Nat) (f : AsyncOp → AsyncOp) : (s.modOp n f).accessed = s.accessed := rfl
@[simp] theorem State.modOp_memKey (s : State) (n : Nat) (f : AsyncOp → AsyncOp) : (s.modOp n f).memKey = s.memKey := rfl
@[simp] theorem State.modOp_garble (s : State) (n : Nat) (f : AsyncOp → AsyncOp) : (s.modOp n f).garble = s.garble := rfl
@[simp] theorem State.modOp_up (s : State) (n : Nat) (f : AsyncOp → AsyncOp) : (s.modOp n f).up = s.up := rfl
@[simp] theorem State.modOp_peerOver (s : State) (n : Nat) (f : AsyncOp → AsyncOp) : (s.modOp n f).peerOver = s.peerOver := rfl
@[simp] theorem State.modOp_peerMem (s : State) (n : Nat) (f : AsyncOp → AsyncOp) : (s.modOp n f).peerMem = s.peerMem := rfl
@[simp] theorem State.modOp_peerBad (s : State) (n : Nat) (f : AsyncOp → AsyncOp) : (s.modOp n f).peerBad = s.peerBad := rfl
@[simp] theorem State.modOp_peerPages (s : State) (n : Nat) (f : AsyncOp → AsyncOp) : (s.modOp n f).peerPages = s.peerPages := rfl
@[simp] theorem State.modOp_codeNs (s : State) (n : Nat) (f : AsyncOp → AsyncOp) : (s.modOp n f).codeNs = s.codeNs := rfl
@[simp] theorem State.modOp_reads (s : State) (n : Nat) (f : AsyncOp → AsyncOp) : (s.modOp n f).reads = s.reads := rfl
@[simp] theorem State.modOp_ioReads (s : State) (n : Nat) (f : AsyncOp → AsyncOp) : (s.modOp n f).ioReads = s.ioReads := rfl
@[simp] theorem State.modOp_ioOut (s : State) (n : Nat) (f : AsyncOp → AsyncOp) : (s.modOp n f).ioOut = s.ioOut := rfl
@[simp] theorem State.modOp_fails (s : State) (n : Nat) (f : AsyncOp → AsyncOp) : (s.modOp n f).fails = s.fails := rfl
@[simp] theorem State.modOp_queues (s : State) (n : Nat) (f : AsyncOp → AsyncOp) : (s.modOp n f).queues = s.queues := rfl
@[simp] theorem State.modOp_packets (s : State) (n : Nat) (f : AsyncOp → AsyncOp) : (s.modOp n f).packets = s.packets := rfl
@[simp] theorem State.modOp_rankQ (s : State) (n : Nat) (f : AsyncOp → AsyncOp) : (s.modOp n f).rankQ = s.rankQ := rfl
@[simp] theorem State.modOp_gangs (s : State) (n : Nat) (f : AsyncOp → AsyncOp) : (s.modOp n f).gangs = s.gangs := rfl
@[simp] theorem State.modOp_parts (s : State) (n : Nat) (f : AsyncOp → AsyncOp) : (s.modOp n f).parts = s.parts := rfl
@[simp] theorem State.modOp_streams (s : State) (n : Nat) (f : AsyncOp → AsyncOp) : (s.modOp n f).streams = s.streams := rfl
@[simp] theorem State.modOp_insts (s : State) (n : Nat) (f : AsyncOp → AsyncOp) : (s.modOp n f).insts = s.insts := rfl
@[simp] theorem State.modOp_fw (s : State) (n : Nat) (f : AsyncOp → AsyncOp) : (s.modOp n f).fw = s.fw := rfl
@[simp] theorem State.modOp_serial (s : State) (n : Nat) (f : AsyncOp → AsyncOp) : (s.modOp n f).serial = s.serial := rfl
@[simp] theorem State.modOp_free (s : State) (n : Nat) (f : AsyncOp → AsyncOp) : (s.modOp n f).free = s.free := rfl
@[simp] theorem State.modOp_choices (s : State) (n : Nat) (f : AsyncOp → AsyncOp) : (s.modOp n f).choices = s.choices := rfl
@[simp] theorem State.modOp_devWait (s : State) (n : Nat) (f : AsyncOp → AsyncOp) : (s.modOp n f).devWait = s.devWait := rfl
@[simp] theorem State.modOp_agenda (s : State) (n : Nat) (f : AsyncOp → AsyncOp) : (s.modOp n f).agenda = s.agenda := rfl
@[simp] theorem State.modOp_patience (s : State) (n : Nat) (f : AsyncOp → AsyncOp) : (s.modOp n f).patience = s.patience := rfl
@[simp] theorem State.modOp_taken (s : State) (n : Nat) (f : AsyncOp → AsyncOp) : (s.modOp n f).taken = s.taken := rfl
@[simp] theorem State.modRead_time (s : State) (n : Nat) (f : BulkRead → BulkRead) : (s.modRead n f).time = s.time := rfl
@[simp] theorem State.modRead_frac (s : State) (n : Nat) (f : BulkRead → BulkRead) : (s.modRead n f).frac = s.frac := rfl
@[simp] theorem State.modRead_rate (s : State) (n : Nat) (f : BulkRead → BulkRead) : (s.modRead n f).rate = s.rate := rfl
@[simp] theorem State.modRead_locked (s : State) (n : Nat) (f : BulkRead → BulkRead) : (s.modRead n f).locked = s.locked := rfl
@[simp] theorem State.modRead_ppsGood (s : State) (n : Nat) (f : BulkRead → BulkRead) : (s.modRead n f).ppsGood = s.ppsGood := rfl
@[simp] theorem State.modRead_offset (s : State) (n : Nat) (f : BulkRead → BulkRead) : (s.modRead n f).offset = s.offset := rfl
@[simp] theorem State.modRead_offsetMax (s : State) (n : Nat) (f : BulkRead → BulkRead) : (s.modRead n f).offsetMax = s.offsetMax := rfl
@[simp] theorem State.modRead_slewing (s : State) (n : Nat) (f : BulkRead → BulkRead) : (s.modRead n f).slewing = s.slewing := rfl
@[simp] theorem State.modRead_holdover (s : State) (n : Nat) (f : BulkRead → BulkRead) : (s.modRead n f).holdover = s.holdover := rfl
@[simp] theorem State.modRead_ptm (s : State) (n : Nat) (f : BulkRead → BulkRead) : (s.modRead n f).ptm = s.ptm := rfl
@[simp] theorem State.modRead_offsetBack (s : State) (n : Nat) (f : BulkRead → BulkRead) : (s.modRead n f).offsetBack = s.offsetBack := rfl
@[simp] theorem State.modRead_cycle (s : State) (n : Nat) (f : BulkRead → BulkRead) : (s.modRead n f).cycle = s.cycle := rfl
@[simp] theorem State.modRead_cur (s : State) (n : Nat) (f : BulkRead → BulkRead) : (s.modRead n f).cur = s.cur := rfl
@[simp] theorem State.modRead_groups (s : State) (n : Nat) (f : BulkRead → BulkRead) : (s.modRead n f).groups = s.groups := rfl
@[simp] theorem State.modRead_teams (s : State) (n : Nat) (f : BulkRead → BulkRead) : (s.modRead n f).teams = s.teams := rfl
@[simp] theorem State.modRead_clusters (s : State) (n : Nat) (f : BulkRead → BulkRead) : (s.modRead n f).clusters = s.clusters := rfl
@[simp] theorem State.modRead_launches (s : State) (n : Nat) (f : BulkRead → BulkRead) : (s.modRead n f).launches = s.launches := rfl
@[simp] theorem State.modRead_cores (s : State) (n : Nat) (f : BulkRead → BulkRead) : (s.modRead n f).cores = s.cores := rfl
@[simp] theorem State.modRead_scheds (s : State) (n : Nat) (f : BulkRead → BulkRead) : (s.modRead n f).scheds = s.scheds := rfl
@[simp] theorem State.modRead_mem (s : State) (n : Nat) (f : BulkRead → BulkRead) : (s.modRead n f).mem = s.mem := rfl
@[simp] theorem State.modRead_memBad (s : State) (n : Nat) (f : BulkRead → BulkRead) : (s.modRead n f).memBad = s.memBad := rfl
@[simp] theorem State.modRead_owned (s : State) (n : Nat) (f : BulkRead → BulkRead) : (s.modRead n f).owned = s.owned := rfl
@[simp] theorem State.modRead_heldIn (s : State) (n : Nat) (f : BulkRead → BulkRead) : (s.modRead n f).heldIn = s.heldIn := rfl
@[simp] theorem State.modRead_retrying (s : State) (n : Nat) (f : BulkRead → BulkRead) : (s.modRead n f).retrying = s.retrying := rfl
@[simp] theorem State.modRead_stlb (s : State) (n : Nat) (f : BulkRead → BulkRead) : (s.modRead n f).stlb = s.stlb := rfl
@[simp] theorem State.modRead_accessed (s : State) (n : Nat) (f : BulkRead → BulkRead) : (s.modRead n f).accessed = s.accessed := rfl
@[simp] theorem State.modRead_memKey (s : State) (n : Nat) (f : BulkRead → BulkRead) : (s.modRead n f).memKey = s.memKey := rfl
@[simp] theorem State.modRead_garble (s : State) (n : Nat) (f : BulkRead → BulkRead) : (s.modRead n f).garble = s.garble := rfl
@[simp] theorem State.modRead_up (s : State) (n : Nat) (f : BulkRead → BulkRead) : (s.modRead n f).up = s.up := rfl
@[simp] theorem State.modRead_peerOver (s : State) (n : Nat) (f : BulkRead → BulkRead) : (s.modRead n f).peerOver = s.peerOver := rfl
@[simp] theorem State.modRead_peerMem (s : State) (n : Nat) (f : BulkRead → BulkRead) : (s.modRead n f).peerMem = s.peerMem := rfl
@[simp] theorem State.modRead_peerBad (s : State) (n : Nat) (f : BulkRead → BulkRead) : (s.modRead n f).peerBad = s.peerBad := rfl
@[simp] theorem State.modRead_peerPages (s : State) (n : Nat) (f : BulkRead → BulkRead) : (s.modRead n f).peerPages = s.peerPages := rfl
@[simp] theorem State.modRead_ops (s : State) (n : Nat) (f : BulkRead → BulkRead) : (s.modRead n f).ops = s.ops := rfl
@[simp] theorem State.modRead_codeNs (s : State) (n : Nat) (f : BulkRead → BulkRead) : (s.modRead n f).codeNs = s.codeNs := rfl
@[simp] theorem State.modRead_ioReads (s : State) (n : Nat) (f : BulkRead → BulkRead) : (s.modRead n f).ioReads = s.ioReads := rfl
@[simp] theorem State.modRead_ioOut (s : State) (n : Nat) (f : BulkRead → BulkRead) : (s.modRead n f).ioOut = s.ioOut := rfl
@[simp] theorem State.modRead_fails (s : State) (n : Nat) (f : BulkRead → BulkRead) : (s.modRead n f).fails = s.fails := rfl
@[simp] theorem State.modRead_queues (s : State) (n : Nat) (f : BulkRead → BulkRead) : (s.modRead n f).queues = s.queues := rfl
@[simp] theorem State.modRead_packets (s : State) (n : Nat) (f : BulkRead → BulkRead) : (s.modRead n f).packets = s.packets := rfl
@[simp] theorem State.modRead_rankQ (s : State) (n : Nat) (f : BulkRead → BulkRead) : (s.modRead n f).rankQ = s.rankQ := rfl
@[simp] theorem State.modRead_gangs (s : State) (n : Nat) (f : BulkRead → BulkRead) : (s.modRead n f).gangs = s.gangs := rfl
@[simp] theorem State.modRead_parts (s : State) (n : Nat) (f : BulkRead → BulkRead) : (s.modRead n f).parts = s.parts := rfl
@[simp] theorem State.modRead_streams (s : State) (n : Nat) (f : BulkRead → BulkRead) : (s.modRead n f).streams = s.streams := rfl
@[simp] theorem State.modRead_insts (s : State) (n : Nat) (f : BulkRead → BulkRead) : (s.modRead n f).insts = s.insts := rfl
@[simp] theorem State.modRead_fw (s : State) (n : Nat) (f : BulkRead → BulkRead) : (s.modRead n f).fw = s.fw := rfl
@[simp] theorem State.modRead_serial (s : State) (n : Nat) (f : BulkRead → BulkRead) : (s.modRead n f).serial = s.serial := rfl
@[simp] theorem State.modRead_free (s : State) (n : Nat) (f : BulkRead → BulkRead) : (s.modRead n f).free = s.free := rfl
@[simp] theorem State.modRead_choices (s : State) (n : Nat) (f : BulkRead → BulkRead) : (s.modRead n f).choices = s.choices := rfl
@[simp] theorem State.modRead_devWait (s : State) (n : Nat) (f : BulkRead → BulkRead) : (s.modRead n f).devWait = s.devWait := rfl
@[simp] theorem State.modRead_agenda (s : State) (n : Nat) (f : BulkRead → BulkRead) : (s.modRead n f).agenda = s.agenda := rfl
@[simp] theorem State.modRead_patience (s : State) (n : Nat) (f : BulkRead → BulkRead) : (s.modRead n f).patience = s.patience := rfl
@[simp] theorem State.modRead_taken (s : State) (n : Nat) (f : BulkRead → BulkRead) : (s.modRead n f).taken = s.taken := rfl
@[simp] theorem State.modStream_time (s : State) (n : Nat) (f : Stream → Stream) : (s.modStream n f).time = s.time := rfl
@[simp] theorem State.modStream_frac (s : State) (n : Nat) (f : Stream → Stream) : (s.modStream n f).frac = s.frac := rfl
@[simp] theorem State.modStream_rate (s : State) (n : Nat) (f : Stream → Stream) : (s.modStream n f).rate = s.rate := rfl
@[simp] theorem State.modStream_locked (s : State) (n : Nat) (f : Stream → Stream) : (s.modStream n f).locked = s.locked := rfl
@[simp] theorem State.modStream_ppsGood (s : State) (n : Nat) (f : Stream → Stream) : (s.modStream n f).ppsGood = s.ppsGood := rfl
@[simp] theorem State.modStream_offset (s : State) (n : Nat) (f : Stream → Stream) : (s.modStream n f).offset = s.offset := rfl
@[simp] theorem State.modStream_offsetMax (s : State) (n : Nat) (f : Stream → Stream) : (s.modStream n f).offsetMax = s.offsetMax := rfl
@[simp] theorem State.modStream_slewing (s : State) (n : Nat) (f : Stream → Stream) : (s.modStream n f).slewing = s.slewing := rfl
@[simp] theorem State.modStream_holdover (s : State) (n : Nat) (f : Stream → Stream) : (s.modStream n f).holdover = s.holdover := rfl
@[simp] theorem State.modStream_ptm (s : State) (n : Nat) (f : Stream → Stream) : (s.modStream n f).ptm = s.ptm := rfl
@[simp] theorem State.modStream_offsetBack (s : State) (n : Nat) (f : Stream → Stream) : (s.modStream n f).offsetBack = s.offsetBack := rfl
@[simp] theorem State.modStream_cycle (s : State) (n : Nat) (f : Stream → Stream) : (s.modStream n f).cycle = s.cycle := rfl
@[simp] theorem State.modStream_cur (s : State) (n : Nat) (f : Stream → Stream) : (s.modStream n f).cur = s.cur := rfl
@[simp] theorem State.modStream_groups (s : State) (n : Nat) (f : Stream → Stream) : (s.modStream n f).groups = s.groups := rfl
@[simp] theorem State.modStream_teams (s : State) (n : Nat) (f : Stream → Stream) : (s.modStream n f).teams = s.teams := rfl
@[simp] theorem State.modStream_clusters (s : State) (n : Nat) (f : Stream → Stream) : (s.modStream n f).clusters = s.clusters := rfl
@[simp] theorem State.modStream_launches (s : State) (n : Nat) (f : Stream → Stream) : (s.modStream n f).launches = s.launches := rfl
@[simp] theorem State.modStream_cores (s : State) (n : Nat) (f : Stream → Stream) : (s.modStream n f).cores = s.cores := rfl
@[simp] theorem State.modStream_scheds (s : State) (n : Nat) (f : Stream → Stream) : (s.modStream n f).scheds = s.scheds := rfl
@[simp] theorem State.modStream_mem (s : State) (n : Nat) (f : Stream → Stream) : (s.modStream n f).mem = s.mem := rfl
@[simp] theorem State.modStream_memBad (s : State) (n : Nat) (f : Stream → Stream) : (s.modStream n f).memBad = s.memBad := rfl
@[simp] theorem State.modStream_owned (s : State) (n : Nat) (f : Stream → Stream) : (s.modStream n f).owned = s.owned := rfl
@[simp] theorem State.modStream_heldIn (s : State) (n : Nat) (f : Stream → Stream) : (s.modStream n f).heldIn = s.heldIn := rfl
@[simp] theorem State.modStream_retrying (s : State) (n : Nat) (f : Stream → Stream) : (s.modStream n f).retrying = s.retrying := rfl
@[simp] theorem State.modStream_stlb (s : State) (n : Nat) (f : Stream → Stream) : (s.modStream n f).stlb = s.stlb := rfl
@[simp] theorem State.modStream_accessed (s : State) (n : Nat) (f : Stream → Stream) : (s.modStream n f).accessed = s.accessed := rfl
@[simp] theorem State.modStream_memKey (s : State) (n : Nat) (f : Stream → Stream) : (s.modStream n f).memKey = s.memKey := rfl
@[simp] theorem State.modStream_garble (s : State) (n : Nat) (f : Stream → Stream) : (s.modStream n f).garble = s.garble := rfl
@[simp] theorem State.modStream_up (s : State) (n : Nat) (f : Stream → Stream) : (s.modStream n f).up = s.up := rfl
@[simp] theorem State.modStream_peerOver (s : State) (n : Nat) (f : Stream → Stream) : (s.modStream n f).peerOver = s.peerOver := rfl
@[simp] theorem State.modStream_peerMem (s : State) (n : Nat) (f : Stream → Stream) : (s.modStream n f).peerMem = s.peerMem := rfl
@[simp] theorem State.modStream_peerBad (s : State) (n : Nat) (f : Stream → Stream) : (s.modStream n f).peerBad = s.peerBad := rfl
@[simp] theorem State.modStream_peerPages (s : State) (n : Nat) (f : Stream → Stream) : (s.modStream n f).peerPages = s.peerPages := rfl
@[simp] theorem State.modStream_ops (s : State) (n : Nat) (f : Stream → Stream) : (s.modStream n f).ops = s.ops := rfl
@[simp] theorem State.modStream_codeNs (s : State) (n : Nat) (f : Stream → Stream) : (s.modStream n f).codeNs = s.codeNs := rfl
@[simp] theorem State.modStream_reads (s : State) (n : Nat) (f : Stream → Stream) : (s.modStream n f).reads = s.reads := rfl
@[simp] theorem State.modStream_ioReads (s : State) (n : Nat) (f : Stream → Stream) : (s.modStream n f).ioReads = s.ioReads := rfl
@[simp] theorem State.modStream_ioOut (s : State) (n : Nat) (f : Stream → Stream) : (s.modStream n f).ioOut = s.ioOut := rfl
@[simp] theorem State.modStream_fails (s : State) (n : Nat) (f : Stream → Stream) : (s.modStream n f).fails = s.fails := rfl
@[simp] theorem State.modStream_queues (s : State) (n : Nat) (f : Stream → Stream) : (s.modStream n f).queues = s.queues := rfl
@[simp] theorem State.modStream_packets (s : State) (n : Nat) (f : Stream → Stream) : (s.modStream n f).packets = s.packets := rfl
@[simp] theorem State.modStream_rankQ (s : State) (n : Nat) (f : Stream → Stream) : (s.modStream n f).rankQ = s.rankQ := rfl
@[simp] theorem State.modStream_gangs (s : State) (n : Nat) (f : Stream → Stream) : (s.modStream n f).gangs = s.gangs := rfl
@[simp] theorem State.modStream_parts (s : State) (n : Nat) (f : Stream → Stream) : (s.modStream n f).parts = s.parts := rfl
@[simp] theorem State.modStream_insts (s : State) (n : Nat) (f : Stream → Stream) : (s.modStream n f).insts = s.insts := rfl
@[simp] theorem State.modStream_fw (s : State) (n : Nat) (f : Stream → Stream) : (s.modStream n f).fw = s.fw := rfl
@[simp] theorem State.modStream_serial (s : State) (n : Nat) (f : Stream → Stream) : (s.modStream n f).serial = s.serial := rfl
@[simp] theorem State.modStream_free (s : State) (n : Nat) (f : Stream → Stream) : (s.modStream n f).free = s.free := rfl
@[simp] theorem State.modStream_choices (s : State) (n : Nat) (f : Stream → Stream) : (s.modStream n f).choices = s.choices := rfl
@[simp] theorem State.modStream_devWait (s : State) (n : Nat) (f : Stream → Stream) : (s.modStream n f).devWait = s.devWait := rfl
@[simp] theorem State.modStream_agenda (s : State) (n : Nat) (f : Stream → Stream) : (s.modStream n f).agenda = s.agenda := rfl
@[simp] theorem State.modStream_patience (s : State) (n : Nat) (f : Stream → Stream) : (s.modStream n f).patience = s.patience := rfl
@[simp] theorem State.modStream_taken (s : State) (n : Nat) (f : Stream → Stream) : (s.modStream n f).taken = s.taken := rfl
@[simp] theorem State.modInst_time (s : State) (n : Nat) (f : Inst → Inst) : (s.modInst n f).time = s.time := rfl
@[simp] theorem State.modInst_frac (s : State) (n : Nat) (f : Inst → Inst) : (s.modInst n f).frac = s.frac := rfl
@[simp] theorem State.modInst_rate (s : State) (n : Nat) (f : Inst → Inst) : (s.modInst n f).rate = s.rate := rfl
@[simp] theorem State.modInst_locked (s : State) (n : Nat) (f : Inst → Inst) : (s.modInst n f).locked = s.locked := rfl
@[simp] theorem State.modInst_ppsGood (s : State) (n : Nat) (f : Inst → Inst) : (s.modInst n f).ppsGood = s.ppsGood := rfl
@[simp] theorem State.modInst_offset (s : State) (n : Nat) (f : Inst → Inst) : (s.modInst n f).offset = s.offset := rfl
@[simp] theorem State.modInst_offsetMax (s : State) (n : Nat) (f : Inst → Inst) : (s.modInst n f).offsetMax = s.offsetMax := rfl
@[simp] theorem State.modInst_slewing (s : State) (n : Nat) (f : Inst → Inst) : (s.modInst n f).slewing = s.slewing := rfl
@[simp] theorem State.modInst_holdover (s : State) (n : Nat) (f : Inst → Inst) : (s.modInst n f).holdover = s.holdover := rfl
@[simp] theorem State.modInst_ptm (s : State) (n : Nat) (f : Inst → Inst) : (s.modInst n f).ptm = s.ptm := rfl
@[simp] theorem State.modInst_offsetBack (s : State) (n : Nat) (f : Inst → Inst) : (s.modInst n f).offsetBack = s.offsetBack := rfl
@[simp] theorem State.modInst_cycle (s : State) (n : Nat) (f : Inst → Inst) : (s.modInst n f).cycle = s.cycle := rfl
@[simp] theorem State.modInst_cur (s : State) (n : Nat) (f : Inst → Inst) : (s.modInst n f).cur = s.cur := rfl
@[simp] theorem State.modInst_groups (s : State) (n : Nat) (f : Inst → Inst) : (s.modInst n f).groups = s.groups := rfl
@[simp] theorem State.modInst_teams (s : State) (n : Nat) (f : Inst → Inst) : (s.modInst n f).teams = s.teams := rfl
@[simp] theorem State.modInst_clusters (s : State) (n : Nat) (f : Inst → Inst) : (s.modInst n f).clusters = s.clusters := rfl
@[simp] theorem State.modInst_launches (s : State) (n : Nat) (f : Inst → Inst) : (s.modInst n f).launches = s.launches := rfl
@[simp] theorem State.modInst_cores (s : State) (n : Nat) (f : Inst → Inst) : (s.modInst n f).cores = s.cores := rfl
@[simp] theorem State.modInst_scheds (s : State) (n : Nat) (f : Inst → Inst) : (s.modInst n f).scheds = s.scheds := rfl
@[simp] theorem State.modInst_mem (s : State) (n : Nat) (f : Inst → Inst) : (s.modInst n f).mem = s.mem := rfl
@[simp] theorem State.modInst_memBad (s : State) (n : Nat) (f : Inst → Inst) : (s.modInst n f).memBad = s.memBad := rfl
@[simp] theorem State.modInst_owned (s : State) (n : Nat) (f : Inst → Inst) : (s.modInst n f).owned = s.owned := rfl
@[simp] theorem State.modInst_heldIn (s : State) (n : Nat) (f : Inst → Inst) : (s.modInst n f).heldIn = s.heldIn := rfl
@[simp] theorem State.modInst_retrying (s : State) (n : Nat) (f : Inst → Inst) : (s.modInst n f).retrying = s.retrying := rfl
@[simp] theorem State.modInst_stlb (s : State) (n : Nat) (f : Inst → Inst) : (s.modInst n f).stlb = s.stlb := rfl
@[simp] theorem State.modInst_accessed (s : State) (n : Nat) (f : Inst → Inst) : (s.modInst n f).accessed = s.accessed := rfl
@[simp] theorem State.modInst_memKey (s : State) (n : Nat) (f : Inst → Inst) : (s.modInst n f).memKey = s.memKey := rfl
@[simp] theorem State.modInst_garble (s : State) (n : Nat) (f : Inst → Inst) : (s.modInst n f).garble = s.garble := rfl
@[simp] theorem State.modInst_up (s : State) (n : Nat) (f : Inst → Inst) : (s.modInst n f).up = s.up := rfl
@[simp] theorem State.modInst_peerOver (s : State) (n : Nat) (f : Inst → Inst) : (s.modInst n f).peerOver = s.peerOver := rfl
@[simp] theorem State.modInst_peerMem (s : State) (n : Nat) (f : Inst → Inst) : (s.modInst n f).peerMem = s.peerMem := rfl
@[simp] theorem State.modInst_peerBad (s : State) (n : Nat) (f : Inst → Inst) : (s.modInst n f).peerBad = s.peerBad := rfl
@[simp] theorem State.modInst_peerPages (s : State) (n : Nat) (f : Inst → Inst) : (s.modInst n f).peerPages = s.peerPages := rfl
@[simp] theorem State.modInst_ops (s : State) (n : Nat) (f : Inst → Inst) : (s.modInst n f).ops = s.ops := rfl
@[simp] theorem State.modInst_codeNs (s : State) (n : Nat) (f : Inst → Inst) : (s.modInst n f).codeNs = s.codeNs := rfl
@[simp] theorem State.modInst_reads (s : State) (n : Nat) (f : Inst → Inst) : (s.modInst n f).reads = s.reads := rfl
@[simp] theorem State.modInst_ioReads (s : State) (n : Nat) (f : Inst → Inst) : (s.modInst n f).ioReads = s.ioReads := rfl
@[simp] theorem State.modInst_ioOut (s : State) (n : Nat) (f : Inst → Inst) : (s.modInst n f).ioOut = s.ioOut := rfl
@[simp] theorem State.modInst_fails (s : State) (n : Nat) (f : Inst → Inst) : (s.modInst n f).fails = s.fails := rfl
@[simp] theorem State.modInst_queues (s : State) (n : Nat) (f : Inst → Inst) : (s.modInst n f).queues = s.queues := rfl
@[simp] theorem State.modInst_packets (s : State) (n : Nat) (f : Inst → Inst) : (s.modInst n f).packets = s.packets := rfl
@[simp] theorem State.modInst_rankQ (s : State) (n : Nat) (f : Inst → Inst) : (s.modInst n f).rankQ = s.rankQ := rfl
@[simp] theorem State.modInst_gangs (s : State) (n : Nat) (f : Inst → Inst) : (s.modInst n f).gangs = s.gangs := rfl
@[simp] theorem State.modInst_parts (s : State) (n : Nat) (f : Inst → Inst) : (s.modInst n f).parts = s.parts := rfl
@[simp] theorem State.modInst_streams (s : State) (n : Nat) (f : Inst → Inst) : (s.modInst n f).streams = s.streams := rfl
@[simp] theorem State.modInst_fw (s : State) (n : Nat) (f : Inst → Inst) : (s.modInst n f).fw = s.fw := rfl
@[simp] theorem State.modInst_serial (s : State) (n : Nat) (f : Inst → Inst) : (s.modInst n f).serial = s.serial := rfl
@[simp] theorem State.modInst_free (s : State) (n : Nat) (f : Inst → Inst) : (s.modInst n f).free = s.free := rfl
@[simp] theorem State.modInst_choices (s : State) (n : Nat) (f : Inst → Inst) : (s.modInst n f).choices = s.choices := rfl
@[simp] theorem State.modInst_devWait (s : State) (n : Nat) (f : Inst → Inst) : (s.modInst n f).devWait = s.devWait := rfl
@[simp] theorem State.modInst_agenda (s : State) (n : Nat) (f : Inst → Inst) : (s.modInst n f).agenda = s.agenda := rfl
@[simp] theorem State.modInst_patience (s : State) (n : Nat) (f : Inst → Inst) : (s.modInst n f).patience = s.patience := rfl
@[simp] theorem State.modInst_taken (s : State) (n : Nat) (f : Inst → Inst) : (s.modInst n f).taken = s.taken := rfl
@[simp] theorem State.modQueue_time (s : State) (n : Nat) (f : Queue → Queue) : (s.modQueue n f).time = s.time := rfl
@[simp] theorem State.modQueue_frac (s : State) (n : Nat) (f : Queue → Queue) : (s.modQueue n f).frac = s.frac := rfl
@[simp] theorem State.modQueue_rate (s : State) (n : Nat) (f : Queue → Queue) : (s.modQueue n f).rate = s.rate := rfl
@[simp] theorem State.modQueue_locked (s : State) (n : Nat) (f : Queue → Queue) : (s.modQueue n f).locked = s.locked := rfl
@[simp] theorem State.modQueue_ppsGood (s : State) (n : Nat) (f : Queue → Queue) : (s.modQueue n f).ppsGood = s.ppsGood := rfl
@[simp] theorem State.modQueue_offset (s : State) (n : Nat) (f : Queue → Queue) : (s.modQueue n f).offset = s.offset := rfl
@[simp] theorem State.modQueue_offsetMax (s : State) (n : Nat) (f : Queue → Queue) : (s.modQueue n f).offsetMax = s.offsetMax := rfl
@[simp] theorem State.modQueue_slewing (s : State) (n : Nat) (f : Queue → Queue) : (s.modQueue n f).slewing = s.slewing := rfl
@[simp] theorem State.modQueue_holdover (s : State) (n : Nat) (f : Queue → Queue) : (s.modQueue n f).holdover = s.holdover := rfl
@[simp] theorem State.modQueue_ptm (s : State) (n : Nat) (f : Queue → Queue) : (s.modQueue n f).ptm = s.ptm := rfl
@[simp] theorem State.modQueue_offsetBack (s : State) (n : Nat) (f : Queue → Queue) : (s.modQueue n f).offsetBack = s.offsetBack := rfl
@[simp] theorem State.modQueue_cycle (s : State) (n : Nat) (f : Queue → Queue) : (s.modQueue n f).cycle = s.cycle := rfl
@[simp] theorem State.modQueue_cur (s : State) (n : Nat) (f : Queue → Queue) : (s.modQueue n f).cur = s.cur := rfl
@[simp] theorem State.modQueue_groups (s : State) (n : Nat) (f : Queue → Queue) : (s.modQueue n f).groups = s.groups := rfl
@[simp] theorem State.modQueue_teams (s : State) (n : Nat) (f : Queue → Queue) : (s.modQueue n f).teams = s.teams := rfl
@[simp] theorem State.modQueue_clusters (s : State) (n : Nat) (f : Queue → Queue) : (s.modQueue n f).clusters = s.clusters := rfl
@[simp] theorem State.modQueue_launches (s : State) (n : Nat) (f : Queue → Queue) : (s.modQueue n f).launches = s.launches := rfl
@[simp] theorem State.modQueue_cores (s : State) (n : Nat) (f : Queue → Queue) : (s.modQueue n f).cores = s.cores := rfl
@[simp] theorem State.modQueue_scheds (s : State) (n : Nat) (f : Queue → Queue) : (s.modQueue n f).scheds = s.scheds := rfl
@[simp] theorem State.modQueue_mem (s : State) (n : Nat) (f : Queue → Queue) : (s.modQueue n f).mem = s.mem := rfl
@[simp] theorem State.modQueue_memBad (s : State) (n : Nat) (f : Queue → Queue) : (s.modQueue n f).memBad = s.memBad := rfl
@[simp] theorem State.modQueue_owned (s : State) (n : Nat) (f : Queue → Queue) : (s.modQueue n f).owned = s.owned := rfl
@[simp] theorem State.modQueue_heldIn (s : State) (n : Nat) (f : Queue → Queue) : (s.modQueue n f).heldIn = s.heldIn := rfl
@[simp] theorem State.modQueue_retrying (s : State) (n : Nat) (f : Queue → Queue) : (s.modQueue n f).retrying = s.retrying := rfl
@[simp] theorem State.modQueue_stlb (s : State) (n : Nat) (f : Queue → Queue) : (s.modQueue n f).stlb = s.stlb := rfl
@[simp] theorem State.modQueue_accessed (s : State) (n : Nat) (f : Queue → Queue) : (s.modQueue n f).accessed = s.accessed := rfl
@[simp] theorem State.modQueue_memKey (s : State) (n : Nat) (f : Queue → Queue) : (s.modQueue n f).memKey = s.memKey := rfl
@[simp] theorem State.modQueue_garble (s : State) (n : Nat) (f : Queue → Queue) : (s.modQueue n f).garble = s.garble := rfl
@[simp] theorem State.modQueue_up (s : State) (n : Nat) (f : Queue → Queue) : (s.modQueue n f).up = s.up := rfl
@[simp] theorem State.modQueue_peerOver (s : State) (n : Nat) (f : Queue → Queue) : (s.modQueue n f).peerOver = s.peerOver := rfl
@[simp] theorem State.modQueue_peerMem (s : State) (n : Nat) (f : Queue → Queue) : (s.modQueue n f).peerMem = s.peerMem := rfl
@[simp] theorem State.modQueue_peerBad (s : State) (n : Nat) (f : Queue → Queue) : (s.modQueue n f).peerBad = s.peerBad := rfl
@[simp] theorem State.modQueue_peerPages (s : State) (n : Nat) (f : Queue → Queue) : (s.modQueue n f).peerPages = s.peerPages := rfl
@[simp] theorem State.modQueue_ops (s : State) (n : Nat) (f : Queue → Queue) : (s.modQueue n f).ops = s.ops := rfl
@[simp] theorem State.modQueue_codeNs (s : State) (n : Nat) (f : Queue → Queue) : (s.modQueue n f).codeNs = s.codeNs := rfl
@[simp] theorem State.modQueue_reads (s : State) (n : Nat) (f : Queue → Queue) : (s.modQueue n f).reads = s.reads := rfl
@[simp] theorem State.modQueue_ioReads (s : State) (n : Nat) (f : Queue → Queue) : (s.modQueue n f).ioReads = s.ioReads := rfl
@[simp] theorem State.modQueue_ioOut (s : State) (n : Nat) (f : Queue → Queue) : (s.modQueue n f).ioOut = s.ioOut := rfl
@[simp] theorem State.modQueue_fails (s : State) (n : Nat) (f : Queue → Queue) : (s.modQueue n f).fails = s.fails := rfl
@[simp] theorem State.modQueue_packets (s : State) (n : Nat) (f : Queue → Queue) : (s.modQueue n f).packets = s.packets := rfl
@[simp] theorem State.modQueue_rankQ (s : State) (n : Nat) (f : Queue → Queue) : (s.modQueue n f).rankQ = s.rankQ := rfl
@[simp] theorem State.modQueue_gangs (s : State) (n : Nat) (f : Queue → Queue) : (s.modQueue n f).gangs = s.gangs := rfl
@[simp] theorem State.modQueue_parts (s : State) (n : Nat) (f : Queue → Queue) : (s.modQueue n f).parts = s.parts := rfl
@[simp] theorem State.modQueue_streams (s : State) (n : Nat) (f : Queue → Queue) : (s.modQueue n f).streams = s.streams := rfl
@[simp] theorem State.modQueue_insts (s : State) (n : Nat) (f : Queue → Queue) : (s.modQueue n f).insts = s.insts := rfl
@[simp] theorem State.modQueue_fw (s : State) (n : Nat) (f : Queue → Queue) : (s.modQueue n f).fw = s.fw := rfl
@[simp] theorem State.modQueue_serial (s : State) (n : Nat) (f : Queue → Queue) : (s.modQueue n f).serial = s.serial := rfl
@[simp] theorem State.modQueue_free (s : State) (n : Nat) (f : Queue → Queue) : (s.modQueue n f).free = s.free := rfl
@[simp] theorem State.modQueue_choices (s : State) (n : Nat) (f : Queue → Queue) : (s.modQueue n f).choices = s.choices := rfl
@[simp] theorem State.modQueue_devWait (s : State) (n : Nat) (f : Queue → Queue) : (s.modQueue n f).devWait = s.devWait := rfl
@[simp] theorem State.modQueue_agenda (s : State) (n : Nat) (f : Queue → Queue) : (s.modQueue n f).agenda = s.agenda := rfl
@[simp] theorem State.modQueue_patience (s : State) (n : Nat) (f : Queue → Queue) : (s.modQueue n f).patience = s.patience := rfl
@[simp] theorem State.modQueue_taken (s : State) (n : Nat) (f : Queue → Queue) : (s.modQueue n f).taken = s.taken := rfl
@[simp] theorem State.modPart_time (s : State) (n : Nat) (f : Partition → Partition) : (s.modPart n f).time = s.time := rfl
@[simp] theorem State.modPart_frac (s : State) (n : Nat) (f : Partition → Partition) : (s.modPart n f).frac = s.frac := rfl
@[simp] theorem State.modPart_rate (s : State) (n : Nat) (f : Partition → Partition) : (s.modPart n f).rate = s.rate := rfl
@[simp] theorem State.modPart_locked (s : State) (n : Nat) (f : Partition → Partition) : (s.modPart n f).locked = s.locked := rfl
@[simp] theorem State.modPart_ppsGood (s : State) (n : Nat) (f : Partition → Partition) : (s.modPart n f).ppsGood = s.ppsGood := rfl
@[simp] theorem State.modPart_offset (s : State) (n : Nat) (f : Partition → Partition) : (s.modPart n f).offset = s.offset := rfl
@[simp] theorem State.modPart_offsetMax (s : State) (n : Nat) (f : Partition → Partition) : (s.modPart n f).offsetMax = s.offsetMax := rfl
@[simp] theorem State.modPart_slewing (s : State) (n : Nat) (f : Partition → Partition) : (s.modPart n f).slewing = s.slewing := rfl
@[simp] theorem State.modPart_holdover (s : State) (n : Nat) (f : Partition → Partition) : (s.modPart n f).holdover = s.holdover := rfl
@[simp] theorem State.modPart_ptm (s : State) (n : Nat) (f : Partition → Partition) : (s.modPart n f).ptm = s.ptm := rfl
@[simp] theorem State.modPart_offsetBack (s : State) (n : Nat) (f : Partition → Partition) : (s.modPart n f).offsetBack = s.offsetBack := rfl
@[simp] theorem State.modPart_cycle (s : State) (n : Nat) (f : Partition → Partition) : (s.modPart n f).cycle = s.cycle := rfl
@[simp] theorem State.modPart_cur (s : State) (n : Nat) (f : Partition → Partition) : (s.modPart n f).cur = s.cur := rfl
@[simp] theorem State.modPart_groups (s : State) (n : Nat) (f : Partition → Partition) : (s.modPart n f).groups = s.groups := rfl
@[simp] theorem State.modPart_teams (s : State) (n : Nat) (f : Partition → Partition) : (s.modPart n f).teams = s.teams := rfl
@[simp] theorem State.modPart_clusters (s : State) (n : Nat) (f : Partition → Partition) : (s.modPart n f).clusters = s.clusters := rfl
@[simp] theorem State.modPart_launches (s : State) (n : Nat) (f : Partition → Partition) : (s.modPart n f).launches = s.launches := rfl
@[simp] theorem State.modPart_cores (s : State) (n : Nat) (f : Partition → Partition) : (s.modPart n f).cores = s.cores := rfl
@[simp] theorem State.modPart_scheds (s : State) (n : Nat) (f : Partition → Partition) : (s.modPart n f).scheds = s.scheds := rfl
@[simp] theorem State.modPart_mem (s : State) (n : Nat) (f : Partition → Partition) : (s.modPart n f).mem = s.mem := rfl
@[simp] theorem State.modPart_memBad (s : State) (n : Nat) (f : Partition → Partition) : (s.modPart n f).memBad = s.memBad := rfl
@[simp] theorem State.modPart_owned (s : State) (n : Nat) (f : Partition → Partition) : (s.modPart n f).owned = s.owned := rfl
@[simp] theorem State.modPart_heldIn (s : State) (n : Nat) (f : Partition → Partition) : (s.modPart n f).heldIn = s.heldIn := rfl
@[simp] theorem State.modPart_retrying (s : State) (n : Nat) (f : Partition → Partition) : (s.modPart n f).retrying = s.retrying := rfl
@[simp] theorem State.modPart_stlb (s : State) (n : Nat) (f : Partition → Partition) : (s.modPart n f).stlb = s.stlb := rfl
@[simp] theorem State.modPart_accessed (s : State) (n : Nat) (f : Partition → Partition) : (s.modPart n f).accessed = s.accessed := rfl
@[simp] theorem State.modPart_memKey (s : State) (n : Nat) (f : Partition → Partition) : (s.modPart n f).memKey = s.memKey := rfl
@[simp] theorem State.modPart_garble (s : State) (n : Nat) (f : Partition → Partition) : (s.modPart n f).garble = s.garble := rfl
@[simp] theorem State.modPart_up (s : State) (n : Nat) (f : Partition → Partition) : (s.modPart n f).up = s.up := rfl
@[simp] theorem State.modPart_peerOver (s : State) (n : Nat) (f : Partition → Partition) : (s.modPart n f).peerOver = s.peerOver := rfl
@[simp] theorem State.modPart_peerMem (s : State) (n : Nat) (f : Partition → Partition) : (s.modPart n f).peerMem = s.peerMem := rfl
@[simp] theorem State.modPart_peerBad (s : State) (n : Nat) (f : Partition → Partition) : (s.modPart n f).peerBad = s.peerBad := rfl
@[simp] theorem State.modPart_peerPages (s : State) (n : Nat) (f : Partition → Partition) : (s.modPart n f).peerPages = s.peerPages := rfl
@[simp] theorem State.modPart_ops (s : State) (n : Nat) (f : Partition → Partition) : (s.modPart n f).ops = s.ops := rfl
@[simp] theorem State.modPart_codeNs (s : State) (n : Nat) (f : Partition → Partition) : (s.modPart n f).codeNs = s.codeNs := rfl
@[simp] theorem State.modPart_reads (s : State) (n : Nat) (f : Partition → Partition) : (s.modPart n f).reads = s.reads := rfl
@[simp] theorem State.modPart_ioReads (s : State) (n : Nat) (f : Partition → Partition) : (s.modPart n f).ioReads = s.ioReads := rfl
@[simp] theorem State.modPart_ioOut (s : State) (n : Nat) (f : Partition → Partition) : (s.modPart n f).ioOut = s.ioOut := rfl
@[simp] theorem State.modPart_fails (s : State) (n : Nat) (f : Partition → Partition) : (s.modPart n f).fails = s.fails := rfl
@[simp] theorem State.modPart_queues (s : State) (n : Nat) (f : Partition → Partition) : (s.modPart n f).queues = s.queues := rfl
@[simp] theorem State.modPart_packets (s : State) (n : Nat) (f : Partition → Partition) : (s.modPart n f).packets = s.packets := rfl
@[simp] theorem State.modPart_rankQ (s : State) (n : Nat) (f : Partition → Partition) : (s.modPart n f).rankQ = s.rankQ := rfl
@[simp] theorem State.modPart_gangs (s : State) (n : Nat) (f : Partition → Partition) : (s.modPart n f).gangs = s.gangs := rfl
@[simp] theorem State.modPart_streams (s : State) (n : Nat) (f : Partition → Partition) : (s.modPart n f).streams = s.streams := rfl
@[simp] theorem State.modPart_insts (s : State) (n : Nat) (f : Partition → Partition) : (s.modPart n f).insts = s.insts := rfl
@[simp] theorem State.modPart_fw (s : State) (n : Nat) (f : Partition → Partition) : (s.modPart n f).fw = s.fw := rfl
@[simp] theorem State.modPart_serial (s : State) (n : Nat) (f : Partition → Partition) : (s.modPart n f).serial = s.serial := rfl
@[simp] theorem State.modPart_free (s : State) (n : Nat) (f : Partition → Partition) : (s.modPart n f).free = s.free := rfl
@[simp] theorem State.modPart_choices (s : State) (n : Nat) (f : Partition → Partition) : (s.modPart n f).choices = s.choices := rfl
@[simp] theorem State.modPart_devWait (s : State) (n : Nat) (f : Partition → Partition) : (s.modPart n f).devWait = s.devWait := rfl
@[simp] theorem State.modPart_agenda (s : State) (n : Nat) (f : Partition → Partition) : (s.modPart n f).agenda = s.agenda := rfl
@[simp] theorem State.modPart_patience (s : State) (n : Nat) (f : Partition → Partition) : (s.modPart n f).patience = s.patience := rfl
@[simp] theorem State.modPart_taken (s : State) (n : Nat) (f : Partition → Partition) : (s.modPart n f).taken = s.taken := rfl
@[simp] theorem State.modFw_time (s : State) (f : Firmware → Firmware) : (s.modFw f).time = s.time := rfl
@[simp] theorem State.modFw_frac (s : State) (f : Firmware → Firmware) : (s.modFw f).frac = s.frac := rfl
@[simp] theorem State.modFw_rate (s : State) (f : Firmware → Firmware) : (s.modFw f).rate = s.rate := rfl
@[simp] theorem State.modFw_locked (s : State) (f : Firmware → Firmware) : (s.modFw f).locked = s.locked := rfl
@[simp] theorem State.modFw_ppsGood (s : State) (f : Firmware → Firmware) : (s.modFw f).ppsGood = s.ppsGood := rfl
@[simp] theorem State.modFw_offset (s : State) (f : Firmware → Firmware) : (s.modFw f).offset = s.offset := rfl
@[simp] theorem State.modFw_offsetMax (s : State) (f : Firmware → Firmware) : (s.modFw f).offsetMax = s.offsetMax := rfl
@[simp] theorem State.modFw_slewing (s : State) (f : Firmware → Firmware) : (s.modFw f).slewing = s.slewing := rfl
@[simp] theorem State.modFw_holdover (s : State) (f : Firmware → Firmware) : (s.modFw f).holdover = s.holdover := rfl
@[simp] theorem State.modFw_ptm (s : State) (f : Firmware → Firmware) : (s.modFw f).ptm = s.ptm := rfl
@[simp] theorem State.modFw_offsetBack (s : State) (f : Firmware → Firmware) : (s.modFw f).offsetBack = s.offsetBack := rfl
@[simp] theorem State.modFw_cycle (s : State) (f : Firmware → Firmware) : (s.modFw f).cycle = s.cycle := rfl
@[simp] theorem State.modFw_cur (s : State) (f : Firmware → Firmware) : (s.modFw f).cur = s.cur := rfl
@[simp] theorem State.modFw_groups (s : State) (f : Firmware → Firmware) : (s.modFw f).groups = s.groups := rfl
@[simp] theorem State.modFw_teams (s : State) (f : Firmware → Firmware) : (s.modFw f).teams = s.teams := rfl
@[simp] theorem State.modFw_clusters (s : State) (f : Firmware → Firmware) : (s.modFw f).clusters = s.clusters := rfl
@[simp] theorem State.modFw_launches (s : State) (f : Firmware → Firmware) : (s.modFw f).launches = s.launches := rfl
@[simp] theorem State.modFw_cores (s : State) (f : Firmware → Firmware) : (s.modFw f).cores = s.cores := rfl
@[simp] theorem State.modFw_scheds (s : State) (f : Firmware → Firmware) : (s.modFw f).scheds = s.scheds := rfl
@[simp] theorem State.modFw_mem (s : State) (f : Firmware → Firmware) : (s.modFw f).mem = s.mem := rfl
@[simp] theorem State.modFw_memBad (s : State) (f : Firmware → Firmware) : (s.modFw f).memBad = s.memBad := rfl
@[simp] theorem State.modFw_owned (s : State) (f : Firmware → Firmware) : (s.modFw f).owned = s.owned := rfl
@[simp] theorem State.modFw_heldIn (s : State) (f : Firmware → Firmware) : (s.modFw f).heldIn = s.heldIn := rfl
@[simp] theorem State.modFw_retrying (s : State) (f : Firmware → Firmware) : (s.modFw f).retrying = s.retrying := rfl
@[simp] theorem State.modFw_stlb (s : State) (f : Firmware → Firmware) : (s.modFw f).stlb = s.stlb := rfl
@[simp] theorem State.modFw_accessed (s : State) (f : Firmware → Firmware) : (s.modFw f).accessed = s.accessed := rfl
@[simp] theorem State.modFw_memKey (s : State) (f : Firmware → Firmware) : (s.modFw f).memKey = s.memKey := rfl
@[simp] theorem State.modFw_garble (s : State) (f : Firmware → Firmware) : (s.modFw f).garble = s.garble := rfl
@[simp] theorem State.modFw_up (s : State) (f : Firmware → Firmware) : (s.modFw f).up = s.up := rfl
@[simp] theorem State.modFw_peerOver (s : State) (f : Firmware → Firmware) : (s.modFw f).peerOver = s.peerOver := rfl
@[simp] theorem State.modFw_peerMem (s : State) (f : Firmware → Firmware) : (s.modFw f).peerMem = s.peerMem := rfl
@[simp] theorem State.modFw_peerBad (s : State) (f : Firmware → Firmware) : (s.modFw f).peerBad = s.peerBad := rfl
@[simp] theorem State.modFw_peerPages (s : State) (f : Firmware → Firmware) : (s.modFw f).peerPages = s.peerPages := rfl
@[simp] theorem State.modFw_ops (s : State) (f : Firmware → Firmware) : (s.modFw f).ops = s.ops := rfl
@[simp] theorem State.modFw_codeNs (s : State) (f : Firmware → Firmware) : (s.modFw f).codeNs = s.codeNs := rfl
@[simp] theorem State.modFw_reads (s : State) (f : Firmware → Firmware) : (s.modFw f).reads = s.reads := rfl
@[simp] theorem State.modFw_ioReads (s : State) (f : Firmware → Firmware) : (s.modFw f).ioReads = s.ioReads := rfl
@[simp] theorem State.modFw_ioOut (s : State) (f : Firmware → Firmware) : (s.modFw f).ioOut = s.ioOut := rfl
@[simp] theorem State.modFw_fails (s : State) (f : Firmware → Firmware) : (s.modFw f).fails = s.fails := rfl
@[simp] theorem State.modFw_queues (s : State) (f : Firmware → Firmware) : (s.modFw f).queues = s.queues := rfl
@[simp] theorem State.modFw_packets (s : State) (f : Firmware → Firmware) : (s.modFw f).packets = s.packets := rfl
@[simp] theorem State.modFw_rankQ (s : State) (f : Firmware → Firmware) : (s.modFw f).rankQ = s.rankQ := rfl
@[simp] theorem State.modFw_gangs (s : State) (f : Firmware → Firmware) : (s.modFw f).gangs = s.gangs := rfl
@[simp] theorem State.modFw_parts (s : State) (f : Firmware → Firmware) : (s.modFw f).parts = s.parts := rfl
@[simp] theorem State.modFw_streams (s : State) (f : Firmware → Firmware) : (s.modFw f).streams = s.streams := rfl
@[simp] theorem State.modFw_insts (s : State) (f : Firmware → Firmware) : (s.modFw f).insts = s.insts := rfl
@[simp] theorem State.modFw_serial (s : State) (f : Firmware → Firmware) : (s.modFw f).serial = s.serial := rfl
@[simp] theorem State.modFw_free (s : State) (f : Firmware → Firmware) : (s.modFw f).free = s.free := rfl
@[simp] theorem State.modFw_choices (s : State) (f : Firmware → Firmware) : (s.modFw f).choices = s.choices := rfl
@[simp] theorem State.modFw_devWait (s : State) (f : Firmware → Firmware) : (s.modFw f).devWait = s.devWait := rfl
@[simp] theorem State.modFw_agenda (s : State) (f : Firmware → Firmware) : (s.modFw f).agenda = s.agenda := rfl
@[simp] theorem State.modFw_patience (s : State) (f : Firmware → Firmware) : (s.modFw f).patience = s.patience := rfl
@[simp] theorem State.modFw_taken (s : State) (f : Firmware → Firmware) : (s.modFw f).taken = s.taken := rfl

/-! ### The entry that an update changes -/

@[simp] theorem State.modGrp_grp (s : State) (n m : Nat) (f : Group → Group) :
    (s.modGrp n f).grp m = if m = n then f (s.grp n) else s.grp m := by
  simp [State.modGrp, State.grp, State.setGrp]
@[simp] theorem State.modTeam_team (s : State) (n m : Nat) (f : Team → Team) :
    (s.modTeam n f).team m = if m = n then f (s.team n) else s.team m := by
  simp [State.modTeam, State.team, State.setTeam]
@[simp] theorem State.modLaunch_launch (s : State) (n m : Nat) (f : Launch → Launch) :
    (s.modLaunch n f).launch m = if m = n then f (s.launch n) else s.launch m := by
  simp [State.modLaunch, State.launch, State.setLaunch]
@[simp] theorem State.modCore_core (s : State) (n m : Nat) (f : Core → Core) :
    (s.modCore n f).core m = if m = n then f (s.core n) else s.core m := by
  simp [State.modCore, State.core, State.setCore]
@[simp] theorem State.modSched_sched (s : State) (n m : Nat) (f : Sched → Sched) :
    (s.modSched n f).sched m = if m = n then f (s.sched n) else s.sched m := by
  simp [State.modSched, State.sched]
@[simp] theorem State.modOp_opOf (s : State) (n m : Nat) (f : AsyncOp → AsyncOp) :
    (s.modOp n f).opOf m = if m = n then f (s.opOf n) else s.opOf m := by
  simp [State.modOp, State.opOf]
@[simp] theorem State.modRead_readOf (s : State) (n m : Nat) (f : BulkRead → BulkRead) :
    (s.modRead n f).readOf m = if m = n then f (s.readOf n) else s.readOf m := by
  simp [State.modRead, State.readOf]
@[simp] theorem State.modStream_stream (s : State) (n m : Nat) (f : Stream → Stream) :
    (s.modStream n f).stream m = if m = n then f (s.stream n) else s.stream m := by
  simp [State.modStream, State.stream]
@[simp] theorem State.modInst_instance_ (s : State) (n m : Nat) (f : Inst → Inst) :
    (s.modInst n f).instance_ m = if m = n then f (s.instance_ n) else s.instance_ m := by
  simp [State.modInst, State.instance_]
@[simp] theorem State.modQueue_queue (s : State) (n m : Nat) (f : Queue → Queue) :
    (s.modQueue n f).queue m = if m = n then f (s.queue n) else s.queue m := by
  simp [State.modQueue, State.queue]
@[simp] theorem State.modPart_part (s : State) (n m : Nat) (f : Partition → Partition) :
    (s.modPart n f).part m = if m = n then f (s.part n) else s.part m := by
  simp [State.modPart, State.part]
@[simp] theorem State.setGrp_grp (s : State) (n m : Nat) (g : Group) :
    (s.setGrp n g).grp m = if m = n then g else s.grp m := by
  simp [State.setGrp, State.grp]
@[simp] theorem State.modGrp_team (s : State) (n : Nat) (f : Group → Group) (m : Nat) : (s.modGrp n f).team m = s.team m := rfl
@[simp] theorem State.modGrp_launch (s : State) (n : Nat) (f : Group → Group) (m : Nat) : (s.modGrp n f).launch m = s.launch m := rfl
@[simp] theorem State.modGrp_core (s : State) (n : Nat) (f : Group → Group) (m : Nat) : (s.modGrp n f).core m = s.core m := rfl
@[simp] theorem State.modGrp_sched (s : State) (n : Nat) (f : Group → Group) (m : Nat) : (s.modGrp n f).sched m = s.sched m := rfl
@[simp] theorem State.modGrp_stream (s : State) (n : Nat) (f : Group → Group) (m : Nat) : (s.modGrp n f).stream m = s.stream m := rfl
@[simp] theorem State.modGrp_part (s : State) (n : Nat) (f : Group → Group) (m : Nat) : (s.modGrp n f).part m = s.part m := rfl
@[simp] theorem State.modGrp_queue (s : State) (n : Nat) (f : Group → Group) (m : Nat) : (s.modGrp n f).queue m = s.queue m := rfl
@[simp] theorem State.modGrp_instance_ (s : State) (n : Nat) (f : Group → Group) (m : Nat) : (s.modGrp n f).instance_ m = s.instance_ m := rfl
@[simp] theorem State.modTeam_launch (s : State) (n : Nat) (f : Team → Team) (m : Nat) : (s.modTeam n f).launch m = s.launch m := rfl
@[simp] theorem State.modTeam_core (s : State) (n : Nat) (f : Team → Team) (m : Nat) : (s.modTeam n f).core m = s.core m := rfl
@[simp] theorem State.modTeam_sched (s : State) (n : Nat) (f : Team → Team) (m : Nat) : (s.modTeam n f).sched m = s.sched m := rfl
@[simp] theorem State.modTeam_grp (s : State) (n : Nat) (f : Team → Team) (m : Nat) : (s.modTeam n f).grp m = s.grp m := rfl
@[simp] theorem State.modTeam_stream (s : State) (n : Nat) (f : Team → Team) (m : Nat) : (s.modTeam n f).stream m = s.stream m := rfl
@[simp] theorem State.modTeam_part (s : State) (n : Nat) (f : Team → Team) (m : Nat) : (s.modTeam n f).part m = s.part m := rfl
@[simp] theorem State.modTeam_queue (s : State) (n : Nat) (f : Team → Team) (m : Nat) : (s.modTeam n f).queue m = s.queue m := rfl
@[simp] theorem State.modTeam_instance_ (s : State) (n : Nat) (f : Team → Team) (m : Nat) : (s.modTeam n f).instance_ m = s.instance_ m := rfl
@[simp] theorem State.modLaunch_team (s : State) (n : Nat) (f : Launch → Launch) (m : Nat) : (s.modLaunch n f).team m = s.team m := rfl
@[simp] theorem State.modLaunch_core (s : State) (n : Nat) (f : Launch → Launch) (m : Nat) : (s.modLaunch n f).core m = s.core m := rfl
@[simp] theorem State.modLaunch_sched (s : State) (n : Nat) (f : Launch → Launch) (m : Nat) : (s.modLaunch n f).sched m = s.sched m := rfl
@[simp] theorem State.modLaunch_grp (s : State) (n : Nat) (f : Launch → Launch) (m : Nat) : (s.modLaunch n f).grp m = s.grp m := rfl
@[simp] theorem State.modLaunch_stream (s : State) (n : Nat) (f : Launch → Launch) (m : Nat) : (s.modLaunch n f).stream m = s.stream m := rfl
@[simp] theorem State.modLaunch_part (s : State) (n : Nat) (f : Launch → Launch) (m : Nat) : (s.modLaunch n f).part m = s.part m := rfl
@[simp] theorem State.modLaunch_queue (s : State) (n : Nat) (f : Launch → Launch) (m : Nat) : (s.modLaunch n f).queue m = s.queue m := rfl
@[simp] theorem State.modLaunch_instance_ (s : State) (n : Nat) (f : Launch → Launch) (m : Nat) : (s.modLaunch n f).instance_ m = s.instance_ m := rfl
@[simp] theorem State.modCore_team (s : State) (n : Nat) (f : Core → Core) (m : Nat) : (s.modCore n f).team m = s.team m := rfl
@[simp] theorem State.modCore_launch (s : State) (n : Nat) (f : Core → Core) (m : Nat) : (s.modCore n f).launch m = s.launch m := rfl
@[simp] theorem State.modCore_sched (s : State) (n : Nat) (f : Core → Core) (m : Nat) : (s.modCore n f).sched m = s.sched m := rfl
@[simp] theorem State.modCore_grp (s : State) (n : Nat) (f : Core → Core) (m : Nat) : (s.modCore n f).grp m = s.grp m := rfl
@[simp] theorem State.modCore_stream (s : State) (n : Nat) (f : Core → Core) (m : Nat) : (s.modCore n f).stream m = s.stream m := rfl
@[simp] theorem State.modCore_part (s : State) (n : Nat) (f : Core → Core) (m : Nat) : (s.modCore n f).part m = s.part m := rfl
@[simp] theorem State.modCore_queue (s : State) (n : Nat) (f : Core → Core) (m : Nat) : (s.modCore n f).queue m = s.queue m := rfl
@[simp] theorem State.modCore_instance_ (s : State) (n : Nat) (f : Core → Core) (m : Nat) : (s.modCore n f).instance_ m = s.instance_ m := rfl
@[simp] theorem State.modSched_team (s : State) (n : Nat) (f : Sched → Sched) (m : Nat) : (s.modSched n f).team m = s.team m := rfl
@[simp] theorem State.modSched_launch (s : State) (n : Nat) (f : Sched → Sched) (m : Nat) : (s.modSched n f).launch m = s.launch m := rfl
@[simp] theorem State.modSched_core (s : State) (n : Nat) (f : Sched → Sched) (m : Nat) : (s.modSched n f).core m = s.core m := rfl
@[simp] theorem State.modSched_grp (s : State) (n : Nat) (f : Sched → Sched) (m : Nat) : (s.modSched n f).grp m = s.grp m := rfl
@[simp] theorem State.modSched_stream (s : State) (n : Nat) (f : Sched → Sched) (m : Nat) : (s.modSched n f).stream m = s.stream m := rfl
@[simp] theorem State.modSched_part (s : State) (n : Nat) (f : Sched → Sched) (m : Nat) : (s.modSched n f).part m = s.part m := rfl
@[simp] theorem State.modSched_queue (s : State) (n : Nat) (f : Sched → Sched) (m : Nat) : (s.modSched n f).queue m = s.queue m := rfl
@[simp] theorem State.modSched_instance_ (s : State) (n : Nat) (f : Sched → Sched) (m : Nat) : (s.modSched n f).instance_ m = s.instance_ m := rfl
@[simp] theorem State.modOp_team (s : State) (n : Nat) (f : AsyncOp → AsyncOp) (m : Nat) : (s.modOp n f).team m = s.team m := rfl
@[simp] theorem State.modOp_launch (s : State) (n : Nat) (f : AsyncOp → AsyncOp) (m : Nat) : (s.modOp n f).launch m = s.launch m := rfl
@[simp] theorem State.modOp_core (s : State) (n : Nat) (f : AsyncOp → AsyncOp) (m : Nat) : (s.modOp n f).core m = s.core m := rfl
@[simp] theorem State.modOp_sched (s : State) (n : Nat) (f : AsyncOp → AsyncOp) (m : Nat) : (s.modOp n f).sched m = s.sched m := rfl
@[simp] theorem State.modOp_grp (s : State) (n : Nat) (f : AsyncOp → AsyncOp) (m : Nat) : (s.modOp n f).grp m = s.grp m := rfl
@[simp] theorem State.modOp_stream (s : State) (n : Nat) (f : AsyncOp → AsyncOp) (m : Nat) : (s.modOp n f).stream m = s.stream m := rfl
@[simp] theorem State.modOp_part (s : State) (n : Nat) (f : AsyncOp → AsyncOp) (m : Nat) : (s.modOp n f).part m = s.part m := rfl
@[simp] theorem State.modOp_queue (s : State) (n : Nat) (f : AsyncOp → AsyncOp) (m : Nat) : (s.modOp n f).queue m = s.queue m := rfl
@[simp] theorem State.modOp_instance_ (s : State) (n : Nat) (f : AsyncOp → AsyncOp) (m : Nat) : (s.modOp n f).instance_ m = s.instance_ m := rfl
@[simp] theorem State.modRead_team (s : State) (n : Nat) (f : BulkRead → BulkRead) (m : Nat) : (s.modRead n f).team m = s.team m := rfl
@[simp] theorem State.modRead_launch (s : State) (n : Nat) (f : BulkRead → BulkRead) (m : Nat) : (s.modRead n f).launch m = s.launch m := rfl
@[simp] theorem State.modRead_core (s : State) (n : Nat) (f : BulkRead → BulkRead) (m : Nat) : (s.modRead n f).core m = s.core m := rfl
@[simp] theorem State.modRead_sched (s : State) (n : Nat) (f : BulkRead → BulkRead) (m : Nat) : (s.modRead n f).sched m = s.sched m := rfl
@[simp] theorem State.modRead_grp (s : State) (n : Nat) (f : BulkRead → BulkRead) (m : Nat) : (s.modRead n f).grp m = s.grp m := rfl
@[simp] theorem State.modRead_stream (s : State) (n : Nat) (f : BulkRead → BulkRead) (m : Nat) : (s.modRead n f).stream m = s.stream m := rfl
@[simp] theorem State.modRead_part (s : State) (n : Nat) (f : BulkRead → BulkRead) (m : Nat) : (s.modRead n f).part m = s.part m := rfl
@[simp] theorem State.modRead_queue (s : State) (n : Nat) (f : BulkRead → BulkRead) (m : Nat) : (s.modRead n f).queue m = s.queue m := rfl
@[simp] theorem State.modRead_instance_ (s : State) (n : Nat) (f : BulkRead → BulkRead) (m : Nat) : (s.modRead n f).instance_ m = s.instance_ m := rfl
@[simp] theorem State.modStream_team (s : State) (n : Nat) (f : Stream → Stream) (m : Nat) : (s.modStream n f).team m = s.team m := rfl
@[simp] theorem State.modStream_launch (s : State) (n : Nat) (f : Stream → Stream) (m : Nat) : (s.modStream n f).launch m = s.launch m := rfl
@[simp] theorem State.modStream_core (s : State) (n : Nat) (f : Stream → Stream) (m : Nat) : (s.modStream n f).core m = s.core m := rfl
@[simp] theorem State.modStream_sched (s : State) (n : Nat) (f : Stream → Stream) (m : Nat) : (s.modStream n f).sched m = s.sched m := rfl
@[simp] theorem State.modStream_grp (s : State) (n : Nat) (f : Stream → Stream) (m : Nat) : (s.modStream n f).grp m = s.grp m := rfl
@[simp] theorem State.modStream_part (s : State) (n : Nat) (f : Stream → Stream) (m : Nat) : (s.modStream n f).part m = s.part m := rfl
@[simp] theorem State.modStream_queue (s : State) (n : Nat) (f : Stream → Stream) (m : Nat) : (s.modStream n f).queue m = s.queue m := rfl
@[simp] theorem State.modStream_instance_ (s : State) (n : Nat) (f : Stream → Stream) (m : Nat) : (s.modStream n f).instance_ m = s.instance_ m := rfl
@[simp] theorem State.modInst_team (s : State) (n : Nat) (f : Inst → Inst) (m : Nat) : (s.modInst n f).team m = s.team m := rfl
@[simp] theorem State.modInst_launch (s : State) (n : Nat) (f : Inst → Inst) (m : Nat) : (s.modInst n f).launch m = s.launch m := rfl
@[simp] theorem State.modInst_core (s : State) (n : Nat) (f : Inst → Inst) (m : Nat) : (s.modInst n f).core m = s.core m := rfl
@[simp] theorem State.modInst_sched (s : State) (n : Nat) (f : Inst → Inst) (m : Nat) : (s.modInst n f).sched m = s.sched m := rfl
@[simp] theorem State.modInst_grp (s : State) (n : Nat) (f : Inst → Inst) (m : Nat) : (s.modInst n f).grp m = s.grp m := rfl
@[simp] theorem State.modInst_stream (s : State) (n : Nat) (f : Inst → Inst) (m : Nat) : (s.modInst n f).stream m = s.stream m := rfl
@[simp] theorem State.modInst_part (s : State) (n : Nat) (f : Inst → Inst) (m : Nat) : (s.modInst n f).part m = s.part m := rfl
@[simp] theorem State.modInst_queue (s : State) (n : Nat) (f : Inst → Inst) (m : Nat) : (s.modInst n f).queue m = s.queue m := rfl
@[simp] theorem State.modQueue_team (s : State) (n : Nat) (f : Queue → Queue) (m : Nat) : (s.modQueue n f).team m = s.team m := rfl
@[simp] theorem State.modQueue_launch (s : State) (n : Nat) (f : Queue → Queue) (m : Nat) : (s.modQueue n f).launch m = s.launch m := rfl
@[simp] theorem State.modQueue_core (s : State) (n : Nat) (f : Queue → Queue) (m : Nat) : (s.modQueue n f).core m = s.core m := rfl
@[simp] theorem State.modQueue_sched (s : State) (n : Nat) (f : Queue → Queue) (m : Nat) : (s.modQueue n f).sched m = s.sched m := rfl
@[simp] theorem State.modQueue_grp (s : State) (n : Nat) (f : Queue → Queue) (m : Nat) : (s.modQueue n f).grp m = s.grp m := rfl
@[simp] theorem State.modQueue_stream (s : State) (n : Nat) (f : Queue → Queue) (m : Nat) : (s.modQueue n f).stream m = s.stream m := rfl
@[simp] theorem State.modQueue_part (s : State) (n : Nat) (f : Queue → Queue) (m : Nat) : (s.modQueue n f).part m = s.part m := rfl
@[simp] theorem State.modQueue_instance_ (s : State) (n : Nat) (f : Queue → Queue) (m : Nat) : (s.modQueue n f).instance_ m = s.instance_ m := rfl
@[simp] theorem State.modPart_team (s : State) (n : Nat) (f : Partition → Partition) (m : Nat) : (s.modPart n f).team m = s.team m := rfl
@[simp] theorem State.modPart_launch (s : State) (n : Nat) (f : Partition → Partition) (m : Nat) : (s.modPart n f).launch m = s.launch m := rfl
@[simp] theorem State.modPart_core (s : State) (n : Nat) (f : Partition → Partition) (m : Nat) : (s.modPart n f).core m = s.core m := rfl
@[simp] theorem State.modPart_sched (s : State) (n : Nat) (f : Partition → Partition) (m : Nat) : (s.modPart n f).sched m = s.sched m := rfl
@[simp] theorem State.modPart_grp (s : State) (n : Nat) (f : Partition → Partition) (m : Nat) : (s.modPart n f).grp m = s.grp m := rfl
@[simp] theorem State.modPart_stream (s : State) (n : Nat) (f : Partition → Partition) (m : Nat) : (s.modPart n f).stream m = s.stream m := rfl
@[simp] theorem State.modPart_queue (s : State) (n : Nat) (f : Partition → Partition) (m : Nat) : (s.modPart n f).queue m = s.queue m := rfl
@[simp] theorem State.modPart_instance_ (s : State) (n : Nat) (f : Partition → Partition) (m : Nat) : (s.modPart n f).instance_ m = s.instance_ m := rfl
@[simp] theorem State.modFw_team (s : State) (f : Firmware → Firmware) (m : Nat) : (s.modFw f).team m = s.team m := rfl
@[simp] theorem State.modFw_launch (s : State) (f : Firmware → Firmware) (m : Nat) : (s.modFw f).launch m = s.launch m := rfl
@[simp] theorem State.modFw_core (s : State) (f : Firmware → Firmware) (m : Nat) : (s.modFw f).core m = s.core m := rfl
@[simp] theorem State.modFw_sched (s : State) (f : Firmware → Firmware) (m : Nat) : (s.modFw f).sched m = s.sched m := rfl
@[simp] theorem State.modFw_grp (s : State) (f : Firmware → Firmware) (m : Nat) : (s.modFw f).grp m = s.grp m := rfl
@[simp] theorem State.modFw_stream (s : State) (f : Firmware → Firmware) (m : Nat) : (s.modFw f).stream m = s.stream m := rfl
@[simp] theorem State.modFw_part (s : State) (f : Firmware → Firmware) (m : Nat) : (s.modFw f).part m = s.part m := rfl
@[simp] theorem State.modFw_queue (s : State) (f : Firmware → Firmware) (m : Nat) : (s.modFw f).queue m = s.queue m := rfl
@[simp] theorem State.modFw_instance_ (s : State) (f : Firmware → Firmware) (m : Nat) : (s.modFw f).instance_ m = s.instance_ m := rfl

/-! ### Updates of a group -/

@[simp] theorem Group.setV_live (g : Group) (r l : Nat) (x : Word) : (g.setV r l x).live = g.live := rfl
@[simp] theorem Group.setV_team (g : Group) (r l : Nat) (x : Word) : (g.setV r l x).team = g.team := rfl
@[simp] theorem Group.setV_gid (g : Group) (r l : Nat) (x : Word) : (g.setV r l x).gid = g.gid := rfl
@[simp] theorem Group.setV_started (g : Group) (r l : Nat) (x : Word) : (g.setV r l x).started = g.started := rfl
@[simp] theorem Group.setV_cls (g : Group) (r l : Nat) (x : Word) : (g.setV r l x).cls = g.cls := rfl
@[simp] theorem Group.setV_nv (g : Group) (r l : Nat) (x : Word) : (g.setV r l x).nv = g.nv := rfl
@[simp] theorem Group.setV_ns (g : Group) (r l : Nat) (x : Word) : (g.setV r l x).ns = g.ns := rfl
@[simp] theorem Group.setV_nb (g : Group) (r l : Nat) (x : Word) : (g.setV r l x).nb = g.nb := rfl
@[simp] theorem Group.setV_s (g : Group) (r l : Nat) (x : Word) : (g.setV r l x).s = g.s := rfl
@[simp] theorem Group.setV_sBad (g : Group) (r l : Nat) (x : Word) : (g.setV r l x).sBad = g.sBad := rfl
@[simp] theorem Group.setV_p (g : Group) (r l : Nat) (x : Word) : (g.setV r l x).p = g.p := rfl
@[simp] theorem Group.setV_b (g : Group) (r l : Nat) (x : Word) : (g.setV r l x).b = g.b := rfl
@[simp] theorem Group.setV_lc (g : Group) (r l : Nat) (x : Word) : (g.setV r l x).lc = g.lc := rfl
@[simp] theorem Group.setV_k (g : Group) (r l : Nat) (x : Word) : (g.setV r l x).k = g.k := rfl
@[simp] theorem Group.setV_t (g : Group) (r l : Nat) (x : Word) : (g.setV r l x).t = g.t := rfl
@[simp] theorem Group.setV_flg (g : Group) (r l : Nat) (x : Word) : (g.setV r l x).flg = g.flg := rfl
@[simp] theorem Group.setV_mode (g : Group) (r l : Nat) (x : Word) : (g.setV r l x).mode = g.mode := rfl
@[simp] theorem Group.setV_nbv (g : Group) (r l : Nat) (x : Word) : (g.setV r l x).nbv = g.nbv := rfl
@[simp] theorem Group.setV_step (g : Group) (r l : Nat) (x : Word) : (g.setV r l x).step = g.step := rfl
@[simp] theorem Group.setV_snap (g : Group) (r l : Nat) (x : Word) : (g.setV r l x).snap = g.snap := rfl
@[simp] theorem Group.setV_frontier (g : Group) (r l : Nat) (x : Word) : (g.setV r l x).frontier = g.frontier := rfl
@[simp] theorem Group.setV_rets (g : Group) (r l : Nat) (x : Word) : (g.setV r l x).rets = g.rets := rfl
@[simp] theorem Group.setV_loops (g : Group) (r l : Nat) (x : Word) : (g.setV r l x).loops = g.loops := rfl
@[simp] theorem Group.setV_conv (g : Group) (r l : Nat) (x : Word) : (g.setV r l x).conv = g.conv := rfl
@[simp] theorem Group.setV_subs (g : Group) (r l : Nat) (x : Word) : (g.setV r l x).subs = g.subs := rfl
@[simp] theorem Group.setV_trap (g : Group) (r l : Nat) (x : Word) : (g.setV r l x).trap = g.trap := rfl
@[simp] theorem Group.setV_recov (g : Group) (r l : Nat) (x : Word) : (g.setV r l x).recov = g.recov := rfl
@[simp] theorem Group.setV_wait (g : Group) (r l : Nat) (x : Word) : (g.setV r l x).wait = g.wait := rfl
@[simp] theorem Group.setV_waitPc (g : Group) (r l : Nat) (x : Word) : (g.setV r l x).waitPc = g.waitPc := rfl
@[simp] theorem Group.setV_waitOp (g : Group) (r l : Nat) (x : Word) : (g.setV r l x).waitOp = g.waitOp := rfl
@[simp] theorem Group.setV_waitNext (g : Group) (r l : Nat) (x : Word) : (g.setV r l x).waitNext = g.waitNext := rfl
@[simp] theorem Group.setV_waitPrio (g : Group) (r l : Nat) (x : Word) : (g.setV r l x).waitPrio = g.waitPrio := rfl
@[simp] theorem Group.setV_tWait (g : Group) (r l : Nat) (x : Word) : (g.setV r l x).tWait = g.tWait := rfl
@[simp] theorem Group.setV_park (g : Group) (r l : Nat) (x : Word) : (g.setV r l x).park = g.park := rfl
@[simp] theorem Group.setV_tPark (g : Group) (r l : Nat) (x : Word) : (g.setV r l x).tPark = g.tPark := rfl
@[simp] theorem Group.setV_waitFrom (g : Group) (r l : Nat) (x : Word) : (g.setV r l x).waitFrom = g.waitFrom := rfl
@[simp] theorem Group.setV_rl (g : Group) (r l : Nat) (x : Word) : (g.setV r l x).rl = g.rl := rfl
@[simp] theorem Group.setV_rlArrived (g : Group) (r l : Nat) (x : Word) : (g.setV r l x).rlArrived = g.rlArrived := rfl
@[simp] theorem Group.setV_rlOrder (g : Group) (r l : Nat) (x : Word) : (g.setV r l x).rlOrder = g.rlOrder := rfl
@[simp] theorem Group.setV_rlIn (g : Group) (r l : Nat) (x : Word) : (g.setV r l x).rlIn = g.rlIn := rfl
@[simp] theorem Group.setV_rlGone (g : Group) (r l : Nat) (x : Word) : (g.setV r l x).rlGone = g.rlGone := rfl
@[simp] theorem Group.setV_rlDepth (g : Group) (r l : Nat) (x : Word) : (g.setV r l x).rlDepth = g.rlDepth := rfl
@[simp] theorem Group.setV_barAt (g : Group) (r l : Nat) (x : Word) : (g.setV r l x).barAt = g.barAt := rfl
@[simp] theorem Group.setV_region (g : Group) (r l : Nat) (x : Word) : (g.setV r l x).region = g.region := rfl
@[simp] theorem Group.setV_windows (g : Group) (r l : Nat) (x : Word) : (g.setV r l x).windows = g.windows := rfl
@[simp] theorem Group.setV_locks (g : Group) (r l : Nat) (x : Word) : (g.setV r l x).locks = g.locks := rfl
@[simp] theorem Group.setV_gone (g : Group) (r l : Nat) (x : Word) : (g.setV r l x).gone = g.gone := rfl
@[simp] theorem Group.setV_aging (g : Group) (r l : Nat) (x : Word) : (g.setV r l x).aging = g.aging := rfl
@[simp] theorem Group.setV_outstanding (g : Group) (r l : Nat) (x : Word) : (g.setV r l x).outstanding = g.outstanding := rfl
@[simp] theorem Group.setV_draining (g : Group) (r l : Nat) (x : Word) : (g.setV r l x).draining = g.draining := rfl
@[simp] theorem Group.setV_lantern (g : Group) (r l : Nat) (x : Word) : (g.setV r l x).lantern = g.lantern := rfl
@[simp] theorem Group.setV_lanternAsk (g : Group) (r l : Nat) (x : Word) : (g.setV r l x).lanternAsk = g.lanternAsk := rfl
@[simp] theorem Group.setV_lanternIdle (g : Group) (r l : Nat) (x : Word) : (g.setV r l x).lanternIdle = g.lanternIdle := rfl
@[simp] theorem Group.setV_evicted (g : Group) (r l : Nat) (x : Word) : (g.setV r l x).evicted = g.evicted := rfl
@[simp] theorem Group.setV_lineUse (g : Group) (r l : Nat) (x : Word) : (g.setV r l x).lineUse = g.lineUse := rfl
@[simp] theorem Group.setV_lastIssue (g : Group) (r l : Nat) (x : Word) : (g.setV r l x).lastIssue = g.lastIssue := rfl
@[simp] theorem Group.setV_burst (g : Group) (r l : Nat) (x : Word) : (g.setV r l x).burst = g.burst := rfl
@[simp] theorem Group.setV_viaTrap (g : Group) (r l : Nat) (x : Word) : (g.setV r l x).viaTrap = g.viaTrap := rfl
@[simp] theorem Group.setV_firstCause (g : Group) (r l : Nat) (x : Word) : (g.setV r l x).firstCause = g.firstCause := rfl
@[simp] theorem Group.setV_noPage (g : Group) (r l : Nat) (x : Word) : (g.setV r l x).noPage = g.noPage := rfl
@[simp] theorem Group.setV_promote (g : Group) (r l : Nat) (x : Word) : (g.setV r l x).promote = g.promote := rfl
@[simp] theorem Group.setV_errAt (g : Group) (r l : Nat) (x : Word) : (g.setV r l x).errAt = g.errAt := rfl
@[simp] theorem Group.setV_lastLvl (g : Group) (r l : Nat) (x : Word) : (g.setV r l x).lastLvl = g.lastLvl := rfl
@[simp] theorem Group.markV_live (g : Group) (r l : Nat) : (g.markV r l).live = g.live := rfl
@[simp] theorem Group.markV_team (g : Group) (r l : Nat) : (g.markV r l).team = g.team := rfl
@[simp] theorem Group.markV_gid (g : Group) (r l : Nat) : (g.markV r l).gid = g.gid := rfl
@[simp] theorem Group.markV_started (g : Group) (r l : Nat) : (g.markV r l).started = g.started := rfl
@[simp] theorem Group.markV_cls (g : Group) (r l : Nat) : (g.markV r l).cls = g.cls := rfl
@[simp] theorem Group.markV_nv (g : Group) (r l : Nat) : (g.markV r l).nv = g.nv := rfl
@[simp] theorem Group.markV_ns (g : Group) (r l : Nat) : (g.markV r l).ns = g.ns := rfl
@[simp] theorem Group.markV_nb (g : Group) (r l : Nat) : (g.markV r l).nb = g.nb := rfl
@[simp] theorem Group.markV_v (g : Group) (r l : Nat) : (g.markV r l).v = g.v := rfl
@[simp] theorem Group.markV_s (g : Group) (r l : Nat) : (g.markV r l).s = g.s := rfl
@[simp] theorem Group.markV_sBad (g : Group) (r l : Nat) : (g.markV r l).sBad = g.sBad := rfl
@[simp] theorem Group.markV_p (g : Group) (r l : Nat) : (g.markV r l).p = g.p := rfl
@[simp] theorem Group.markV_b (g : Group) (r l : Nat) : (g.markV r l).b = g.b := rfl
@[simp] theorem Group.markV_lc (g : Group) (r l : Nat) : (g.markV r l).lc = g.lc := rfl
@[simp] theorem Group.markV_k (g : Group) (r l : Nat) : (g.markV r l).k = g.k := rfl
@[simp] theorem Group.markV_t (g : Group) (r l : Nat) : (g.markV r l).t = g.t := rfl
@[simp] theorem Group.markV_flg (g : Group) (r l : Nat) : (g.markV r l).flg = g.flg := rfl
@[simp] theorem Group.markV_mode (g : Group) (r l : Nat) : (g.markV r l).mode = g.mode := rfl
@[simp] theorem Group.markV_nbv (g : Group) (r l : Nat) : (g.markV r l).nbv = g.nbv := rfl
@[simp] theorem Group.markV_step (g : Group) (r l : Nat) : (g.markV r l).step = g.step := rfl
@[simp] theorem Group.markV_snap (g : Group) (r l : Nat) : (g.markV r l).snap = g.snap := rfl
@[simp] theorem Group.markV_frontier (g : Group) (r l : Nat) : (g.markV r l).frontier = g.frontier := rfl
@[simp] theorem Group.markV_rets (g : Group) (r l : Nat) : (g.markV r l).rets = g.rets := rfl
@[simp] theorem Group.markV_loops (g : Group) (r l : Nat) : (g.markV r l).loops = g.loops := rfl
@[simp] theorem Group.markV_conv (g : Group) (r l : Nat) : (g.markV r l).conv = g.conv := rfl
@[simp] theorem Group.markV_subs (g : Group) (r l : Nat) : (g.markV r l).subs = g.subs := rfl
@[simp] theorem Group.markV_trap (g : Group) (r l : Nat) : (g.markV r l).trap = g.trap := rfl
@[simp] theorem Group.markV_recov (g : Group) (r l : Nat) : (g.markV r l).recov = g.recov := rfl
@[simp] theorem Group.markV_wait (g : Group) (r l : Nat) : (g.markV r l).wait = g.wait := rfl
@[simp] theorem Group.markV_waitPc (g : Group) (r l : Nat) : (g.markV r l).waitPc = g.waitPc := rfl
@[simp] theorem Group.markV_waitOp (g : Group) (r l : Nat) : (g.markV r l).waitOp = g.waitOp := rfl
@[simp] theorem Group.markV_waitNext (g : Group) (r l : Nat) : (g.markV r l).waitNext = g.waitNext := rfl
@[simp] theorem Group.markV_waitPrio (g : Group) (r l : Nat) : (g.markV r l).waitPrio = g.waitPrio := rfl
@[simp] theorem Group.markV_tWait (g : Group) (r l : Nat) : (g.markV r l).tWait = g.tWait := rfl
@[simp] theorem Group.markV_park (g : Group) (r l : Nat) : (g.markV r l).park = g.park := rfl
@[simp] theorem Group.markV_tPark (g : Group) (r l : Nat) : (g.markV r l).tPark = g.tPark := rfl
@[simp] theorem Group.markV_waitFrom (g : Group) (r l : Nat) : (g.markV r l).waitFrom = g.waitFrom := rfl
@[simp] theorem Group.markV_rl (g : Group) (r l : Nat) : (g.markV r l).rl = g.rl := rfl
@[simp] theorem Group.markV_rlArrived (g : Group) (r l : Nat) : (g.markV r l).rlArrived = g.rlArrived := rfl
@[simp] theorem Group.markV_rlOrder (g : Group) (r l : Nat) : (g.markV r l).rlOrder = g.rlOrder := rfl
@[simp] theorem Group.markV_rlIn (g : Group) (r l : Nat) : (g.markV r l).rlIn = g.rlIn := rfl
@[simp] theorem Group.markV_rlGone (g : Group) (r l : Nat) : (g.markV r l).rlGone = g.rlGone := rfl
@[simp] theorem Group.markV_rlDepth (g : Group) (r l : Nat) : (g.markV r l).rlDepth = g.rlDepth := rfl
@[simp] theorem Group.markV_barAt (g : Group) (r l : Nat) : (g.markV r l).barAt = g.barAt := rfl
@[simp] theorem Group.markV_region (g : Group) (r l : Nat) : (g.markV r l).region = g.region := rfl
@[simp] theorem Group.markV_windows (g : Group) (r l : Nat) : (g.markV r l).windows = g.windows := rfl
@[simp] theorem Group.markV_locks (g : Group) (r l : Nat) : (g.markV r l).locks = g.locks := rfl
@[simp] theorem Group.markV_gone (g : Group) (r l : Nat) : (g.markV r l).gone = g.gone := rfl
@[simp] theorem Group.markV_aging (g : Group) (r l : Nat) : (g.markV r l).aging = g.aging := rfl
@[simp] theorem Group.markV_outstanding (g : Group) (r l : Nat) : (g.markV r l).outstanding = g.outstanding := rfl
@[simp] theorem Group.markV_draining (g : Group) (r l : Nat) : (g.markV r l).draining = g.draining := rfl
@[simp] theorem Group.markV_lantern (g : Group) (r l : Nat) : (g.markV r l).lantern = g.lantern := rfl
@[simp] theorem Group.markV_lanternAsk (g : Group) (r l : Nat) : (g.markV r l).lanternAsk = g.lanternAsk := rfl
@[simp] theorem Group.markV_lanternIdle (g : Group) (r l : Nat) : (g.markV r l).lanternIdle = g.lanternIdle := rfl
@[simp] theorem Group.markV_evicted (g : Group) (r l : Nat) : (g.markV r l).evicted = g.evicted := rfl
@[simp] theorem Group.markV_lineUse (g : Group) (r l : Nat) : (g.markV r l).lineUse = g.lineUse := rfl
@[simp] theorem Group.markV_lastIssue (g : Group) (r l : Nat) : (g.markV r l).lastIssue = g.lastIssue := rfl
@[simp] theorem Group.markV_burst (g : Group) (r l : Nat) : (g.markV r l).burst = g.burst := rfl
@[simp] theorem Group.markV_viaTrap (g : Group) (r l : Nat) : (g.markV r l).viaTrap = g.viaTrap := rfl
@[simp] theorem Group.markV_firstCause (g : Group) (r l : Nat) : (g.markV r l).firstCause = g.firstCause := rfl
@[simp] theorem Group.markV_noPage (g : Group) (r l : Nat) : (g.markV r l).noPage = g.noPage := rfl
@[simp] theorem Group.markV_promote (g : Group) (r l : Nat) : (g.markV r l).promote = g.promote := rfl
@[simp] theorem Group.markV_errAt (g : Group) (r l : Nat) : (g.markV r l).errAt = g.errAt := rfl
@[simp] theorem Group.markV_lastLvl (g : Group) (r l : Nat) : (g.markV r l).lastLvl = g.lastLvl := rfl
@[simp] theorem Group.setS_live (g : Group) (r : Nat) (x : Word) : (g.setS r x).live = g.live := rfl
@[simp] theorem Group.setS_team (g : Group) (r : Nat) (x : Word) : (g.setS r x).team = g.team := rfl
@[simp] theorem Group.setS_gid (g : Group) (r : Nat) (x : Word) : (g.setS r x).gid = g.gid := rfl
@[simp] theorem Group.setS_started (g : Group) (r : Nat) (x : Word) : (g.setS r x).started = g.started := rfl
@[simp] theorem Group.setS_cls (g : Group) (r : Nat) (x : Word) : (g.setS r x).cls = g.cls := rfl
@[simp] theorem Group.setS_nv (g : Group) (r : Nat) (x : Word) : (g.setS r x).nv = g.nv := rfl
@[simp] theorem Group.setS_ns (g : Group) (r : Nat) (x : Word) : (g.setS r x).ns = g.ns := rfl
@[simp] theorem Group.setS_nb (g : Group) (r : Nat) (x : Word) : (g.setS r x).nb = g.nb := rfl
@[simp] theorem Group.setS_v (g : Group) (r : Nat) (x : Word) : (g.setS r x).v = g.v := rfl
@[simp] theorem Group.setS_vBad (g : Group) (r : Nat) (x : Word) : (g.setS r x).vBad = g.vBad := rfl
@[simp] theorem Group.setS_p (g : Group) (r : Nat) (x : Word) : (g.setS r x).p = g.p := rfl
@[simp] theorem Group.setS_b (g : Group) (r : Nat) (x : Word) : (g.setS r x).b = g.b := rfl
@[simp] theorem Group.setS_lc (g : Group) (r : Nat) (x : Word) : (g.setS r x).lc = g.lc := rfl
@[simp] theorem Group.setS_k (g : Group) (r : Nat) (x : Word) : (g.setS r x).k = g.k := rfl
@[simp] theorem Group.setS_t (g : Group) (r : Nat) (x : Word) : (g.setS r x).t = g.t := rfl
@[simp] theorem Group.setS_flg (g : Group) (r : Nat) (x : Word) : (g.setS r x).flg = g.flg := rfl
@[simp] theorem Group.setS_mode (g : Group) (r : Nat) (x : Word) : (g.setS r x).mode = g.mode := rfl
@[simp] theorem Group.setS_nbv (g : Group) (r : Nat) (x : Word) : (g.setS r x).nbv = g.nbv := rfl
@[simp] theorem Group.setS_step (g : Group) (r : Nat) (x : Word) : (g.setS r x).step = g.step := rfl
@[simp] theorem Group.setS_snap (g : Group) (r : Nat) (x : Word) : (g.setS r x).snap = g.snap := rfl
@[simp] theorem Group.setS_frontier (g : Group) (r : Nat) (x : Word) : (g.setS r x).frontier = g.frontier := rfl
@[simp] theorem Group.setS_rets (g : Group) (r : Nat) (x : Word) : (g.setS r x).rets = g.rets := rfl
@[simp] theorem Group.setS_loops (g : Group) (r : Nat) (x : Word) : (g.setS r x).loops = g.loops := rfl
@[simp] theorem Group.setS_conv (g : Group) (r : Nat) (x : Word) : (g.setS r x).conv = g.conv := rfl
@[simp] theorem Group.setS_subs (g : Group) (r : Nat) (x : Word) : (g.setS r x).subs = g.subs := rfl
@[simp] theorem Group.setS_trap (g : Group) (r : Nat) (x : Word) : (g.setS r x).trap = g.trap := rfl
@[simp] theorem Group.setS_recov (g : Group) (r : Nat) (x : Word) : (g.setS r x).recov = g.recov := rfl
@[simp] theorem Group.setS_wait (g : Group) (r : Nat) (x : Word) : (g.setS r x).wait = g.wait := rfl
@[simp] theorem Group.setS_waitPc (g : Group) (r : Nat) (x : Word) : (g.setS r x).waitPc = g.waitPc := rfl
@[simp] theorem Group.setS_waitOp (g : Group) (r : Nat) (x : Word) : (g.setS r x).waitOp = g.waitOp := rfl
@[simp] theorem Group.setS_waitNext (g : Group) (r : Nat) (x : Word) : (g.setS r x).waitNext = g.waitNext := rfl
@[simp] theorem Group.setS_waitPrio (g : Group) (r : Nat) (x : Word) : (g.setS r x).waitPrio = g.waitPrio := rfl
@[simp] theorem Group.setS_tWait (g : Group) (r : Nat) (x : Word) : (g.setS r x).tWait = g.tWait := rfl
@[simp] theorem Group.setS_park (g : Group) (r : Nat) (x : Word) : (g.setS r x).park = g.park := rfl
@[simp] theorem Group.setS_tPark (g : Group) (r : Nat) (x : Word) : (g.setS r x).tPark = g.tPark := rfl
@[simp] theorem Group.setS_waitFrom (g : Group) (r : Nat) (x : Word) : (g.setS r x).waitFrom = g.waitFrom := rfl
@[simp] theorem Group.setS_rl (g : Group) (r : Nat) (x : Word) : (g.setS r x).rl = g.rl := rfl
@[simp] theorem Group.setS_rlArrived (g : Group) (r : Nat) (x : Word) : (g.setS r x).rlArrived = g.rlArrived := rfl
@[simp] theorem Group.setS_rlOrder (g : Group) (r : Nat) (x : Word) : (g.setS r x).rlOrder = g.rlOrder := rfl
@[simp] theorem Group.setS_rlIn (g : Group) (r : Nat) (x : Word) : (g.setS r x).rlIn = g.rlIn := rfl
@[simp] theorem Group.setS_rlGone (g : Group) (r : Nat) (x : Word) : (g.setS r x).rlGone = g.rlGone := rfl
@[simp] theorem Group.setS_rlDepth (g : Group) (r : Nat) (x : Word) : (g.setS r x).rlDepth = g.rlDepth := rfl
@[simp] theorem Group.setS_barAt (g : Group) (r : Nat) (x : Word) : (g.setS r x).barAt = g.barAt := rfl
@[simp] theorem Group.setS_region (g : Group) (r : Nat) (x : Word) : (g.setS r x).region = g.region := rfl
@[simp] theorem Group.setS_windows (g : Group) (r : Nat) (x : Word) : (g.setS r x).windows = g.windows := rfl
@[simp] theorem Group.setS_locks (g : Group) (r : Nat) (x : Word) : (g.setS r x).locks = g.locks := rfl
@[simp] theorem Group.setS_gone (g : Group) (r : Nat) (x : Word) : (g.setS r x).gone = g.gone := rfl
@[simp] theorem Group.setS_aging (g : Group) (r : Nat) (x : Word) : (g.setS r x).aging = g.aging := rfl
@[simp] theorem Group.setS_outstanding (g : Group) (r : Nat) (x : Word) : (g.setS r x).outstanding = g.outstanding := rfl
@[simp] theorem Group.setS_draining (g : Group) (r : Nat) (x : Word) : (g.setS r x).draining = g.draining := rfl
@[simp] theorem Group.setS_lantern (g : Group) (r : Nat) (x : Word) : (g.setS r x).lantern = g.lantern := rfl
@[simp] theorem Group.setS_lanternAsk (g : Group) (r : Nat) (x : Word) : (g.setS r x).lanternAsk = g.lanternAsk := rfl
@[simp] theorem Group.setS_lanternIdle (g : Group) (r : Nat) (x : Word) : (g.setS r x).lanternIdle = g.lanternIdle := rfl
@[simp] theorem Group.setS_evicted (g : Group) (r : Nat) (x : Word) : (g.setS r x).evicted = g.evicted := rfl
@[simp] theorem Group.setS_lineUse (g : Group) (r : Nat) (x : Word) : (g.setS r x).lineUse = g.lineUse := rfl
@[simp] theorem Group.setS_lastIssue (g : Group) (r : Nat) (x : Word) : (g.setS r x).lastIssue = g.lastIssue := rfl
@[simp] theorem Group.setS_burst (g : Group) (r : Nat) (x : Word) : (g.setS r x).burst = g.burst := rfl
@[simp] theorem Group.setS_viaTrap (g : Group) (r : Nat) (x : Word) : (g.setS r x).viaTrap = g.viaTrap := rfl
@[simp] theorem Group.setS_firstCause (g : Group) (r : Nat) (x : Word) : (g.setS r x).firstCause = g.firstCause := rfl
@[simp] theorem Group.setS_noPage (g : Group) (r : Nat) (x : Word) : (g.setS r x).noPage = g.noPage := rfl
@[simp] theorem Group.setS_promote (g : Group) (r : Nat) (x : Word) : (g.setS r x).promote = g.promote := rfl
@[simp] theorem Group.setS_errAt (g : Group) (r : Nat) (x : Word) : (g.setS r x).errAt = g.errAt := rfl
@[simp] theorem Group.setS_lastLvl (g : Group) (r : Nat) (x : Word) : (g.setS r x).lastLvl = g.lastLvl := rfl
@[simp] theorem Group.markS_live (g : Group) (r : Nat) : (g.markS r).live = g.live := rfl
@[simp] theorem Group.markS_team (g : Group) (r : Nat) : (g.markS r).team = g.team := rfl
@[simp] theorem Group.markS_gid (g : Group) (r : Nat) : (g.markS r).gid = g.gid := rfl
@[simp] theorem Group.markS_started (g : Group) (r : Nat) : (g.markS r).started = g.started := rfl
@[simp] theorem Group.markS_cls (g : Group) (r : Nat) : (g.markS r).cls = g.cls := rfl
@[simp] theorem Group.markS_nv (g : Group) (r : Nat) : (g.markS r).nv = g.nv := rfl
@[simp] theorem Group.markS_ns (g : Group) (r : Nat) : (g.markS r).ns = g.ns := rfl
@[simp] theorem Group.markS_nb (g : Group) (r : Nat) : (g.markS r).nb = g.nb := rfl
@[simp] theorem Group.markS_v (g : Group) (r : Nat) : (g.markS r).v = g.v := rfl
@[simp] theorem Group.markS_vBad (g : Group) (r : Nat) : (g.markS r).vBad = g.vBad := rfl
@[simp] theorem Group.markS_s (g : Group) (r : Nat) : (g.markS r).s = g.s := rfl
@[simp] theorem Group.markS_p (g : Group) (r : Nat) : (g.markS r).p = g.p := rfl
@[simp] theorem Group.markS_b (g : Group) (r : Nat) : (g.markS r).b = g.b := rfl
@[simp] theorem Group.markS_lc (g : Group) (r : Nat) : (g.markS r).lc = g.lc := rfl
@[simp] theorem Group.markS_k (g : Group) (r : Nat) : (g.markS r).k = g.k := rfl
@[simp] theorem Group.markS_t (g : Group) (r : Nat) : (g.markS r).t = g.t := rfl
@[simp] theorem Group.markS_flg (g : Group) (r : Nat) : (g.markS r).flg = g.flg := rfl
@[simp] theorem Group.markS_mode (g : Group) (r : Nat) : (g.markS r).mode = g.mode := rfl
@[simp] theorem Group.markS_nbv (g : Group) (r : Nat) : (g.markS r).nbv = g.nbv := rfl
@[simp] theorem Group.markS_step (g : Group) (r : Nat) : (g.markS r).step = g.step := rfl
@[simp] theorem Group.markS_snap (g : Group) (r : Nat) : (g.markS r).snap = g.snap := rfl
@[simp] theorem Group.markS_frontier (g : Group) (r : Nat) : (g.markS r).frontier = g.frontier := rfl
@[simp] theorem Group.markS_rets (g : Group) (r : Nat) : (g.markS r).rets = g.rets := rfl
@[simp] theorem Group.markS_loops (g : Group) (r : Nat) : (g.markS r).loops = g.loops := rfl
@[simp] theorem Group.markS_conv (g : Group) (r : Nat) : (g.markS r).conv = g.conv := rfl
@[simp] theorem Group.markS_subs (g : Group) (r : Nat) : (g.markS r).subs = g.subs := rfl
@[simp] theorem Group.markS_trap (g : Group) (r : Nat) : (g.markS r).trap = g.trap := rfl
@[simp] theorem Group.markS_recov (g : Group) (r : Nat) : (g.markS r).recov = g.recov := rfl
@[simp] theorem Group.markS_wait (g : Group) (r : Nat) : (g.markS r).wait = g.wait := rfl
@[simp] theorem Group.markS_waitPc (g : Group) (r : Nat) : (g.markS r).waitPc = g.waitPc := rfl
@[simp] theorem Group.markS_waitOp (g : Group) (r : Nat) : (g.markS r).waitOp = g.waitOp := rfl
@[simp] theorem Group.markS_waitNext (g : Group) (r : Nat) : (g.markS r).waitNext = g.waitNext := rfl
@[simp] theorem Group.markS_waitPrio (g : Group) (r : Nat) : (g.markS r).waitPrio = g.waitPrio := rfl
@[simp] theorem Group.markS_tWait (g : Group) (r : Nat) : (g.markS r).tWait = g.tWait := rfl
@[simp] theorem Group.markS_park (g : Group) (r : Nat) : (g.markS r).park = g.park := rfl
@[simp] theorem Group.markS_tPark (g : Group) (r : Nat) : (g.markS r).tPark = g.tPark := rfl
@[simp] theorem Group.markS_waitFrom (g : Group) (r : Nat) : (g.markS r).waitFrom = g.waitFrom := rfl
@[simp] theorem Group.markS_rl (g : Group) (r : Nat) : (g.markS r).rl = g.rl := rfl
@[simp] theorem Group.markS_rlArrived (g : Group) (r : Nat) : (g.markS r).rlArrived = g.rlArrived := rfl
@[simp] theorem Group.markS_rlOrder (g : Group) (r : Nat) : (g.markS r).rlOrder = g.rlOrder := rfl
@[simp] theorem Group.markS_rlIn (g : Group) (r : Nat) : (g.markS r).rlIn = g.rlIn := rfl
@[simp] theorem Group.markS_rlGone (g : Group) (r : Nat) : (g.markS r).rlGone = g.rlGone := rfl
@[simp] theorem Group.markS_rlDepth (g : Group) (r : Nat) : (g.markS r).rlDepth = g.rlDepth := rfl
@[simp] theorem Group.markS_barAt (g : Group) (r : Nat) : (g.markS r).barAt = g.barAt := rfl
@[simp] theorem Group.markS_region (g : Group) (r : Nat) : (g.markS r).region = g.region := rfl
@[simp] theorem Group.markS_windows (g : Group) (r : Nat) : (g.markS r).windows = g.windows := rfl
@[simp] theorem Group.markS_locks (g : Group) (r : Nat) : (g.markS r).locks = g.locks := rfl
@[simp] theorem Group.markS_gone (g : Group) (r : Nat) : (g.markS r).gone = g.gone := rfl
@[simp] theorem Group.markS_aging (g : Group) (r : Nat) : (g.markS r).aging = g.aging := rfl
@[simp] theorem Group.markS_outstanding (g : Group) (r : Nat) : (g.markS r).outstanding = g.outstanding := rfl
@[simp] theorem Group.markS_draining (g : Group) (r : Nat) : (g.markS r).draining = g.draining := rfl
@[simp] theorem Group.markS_lantern (g : Group) (r : Nat) : (g.markS r).lantern = g.lantern := rfl
@[simp] theorem Group.markS_lanternAsk (g : Group) (r : Nat) : (g.markS r).lanternAsk = g.lanternAsk := rfl
@[simp] theorem Group.markS_lanternIdle (g : Group) (r : Nat) : (g.markS r).lanternIdle = g.lanternIdle := rfl
@[simp] theorem Group.markS_evicted (g : Group) (r : Nat) : (g.markS r).evicted = g.evicted := rfl
@[simp] theorem Group.markS_lineUse (g : Group) (r : Nat) : (g.markS r).lineUse = g.lineUse := rfl
@[simp] theorem Group.markS_lastIssue (g : Group) (r : Nat) : (g.markS r).lastIssue = g.lastIssue := rfl
@[simp] theorem Group.markS_burst (g : Group) (r : Nat) : (g.markS r).burst = g.burst := rfl
@[simp] theorem Group.markS_viaTrap (g : Group) (r : Nat) : (g.markS r).viaTrap = g.viaTrap := rfl
@[simp] theorem Group.markS_firstCause (g : Group) (r : Nat) : (g.markS r).firstCause = g.firstCause := rfl
@[simp] theorem Group.markS_noPage (g : Group) (r : Nat) : (g.markS r).noPage = g.noPage := rfl
@[simp] theorem Group.markS_promote (g : Group) (r : Nat) : (g.markS r).promote = g.promote := rfl
@[simp] theorem Group.markS_errAt (g : Group) (r : Nat) : (g.markS r).errAt = g.errAt := rfl
@[simp] theorem Group.markS_lastLvl (g : Group) (r : Nat) : (g.markS r).lastLvl = g.lastLvl := rfl
@[simp] theorem Group.setP_live (g : Group) (n : Nat) (m : Mask) : (g.setP n m).live = g.live := rfl
@[simp] theorem Group.setP_team (g : Group) (n : Nat) (m : Mask) : (g.setP n m).team = g.team := rfl
@[simp] theorem Group.setP_gid (g : Group) (n : Nat) (m : Mask) : (g.setP n m).gid = g.gid := rfl
@[simp] theorem Group.setP_started (g : Group) (n : Nat) (m : Mask) : (g.setP n m).started = g.started := rfl
@[simp] theorem Group.setP_cls (g : Group) (n : Nat) (m : Mask) : (g.setP n m).cls = g.cls := rfl
@[simp] theorem Group.setP_nv (g : Group) (n : Nat) (m : Mask) : (g.setP n m).nv = g.nv := rfl
@[simp] theorem Group.setP_ns (g : Group) (n : Nat) (m : Mask) : (g.setP n m).ns = g.ns := rfl
@[simp] theorem Group.setP_nb (g : Group) (n : Nat) (m : Mask) : (g.setP n m).nb = g.nb := rfl
@[simp] theorem Group.setP_v (g : Group) (n : Nat) (m : Mask) : (g.setP n m).v = g.v := rfl
@[simp] theorem Group.setP_vBad (g : Group) (n : Nat) (m : Mask) : (g.setP n m).vBad = g.vBad := rfl
@[simp] theorem Group.setP_s (g : Group) (n : Nat) (m : Mask) : (g.setP n m).s = g.s := rfl
@[simp] theorem Group.setP_sBad (g : Group) (n : Nat) (m : Mask) : (g.setP n m).sBad = g.sBad := rfl
@[simp] theorem Group.setP_b (g : Group) (n : Nat) (m : Mask) : (g.setP n m).b = g.b := rfl
@[simp] theorem Group.setP_lc (g : Group) (n : Nat) (m : Mask) : (g.setP n m).lc = g.lc := rfl
@[simp] theorem Group.setP_k (g : Group) (n : Nat) (m : Mask) : (g.setP n m).k = g.k := rfl
@[simp] theorem Group.setP_t (g : Group) (n : Nat) (m : Mask) : (g.setP n m).t = g.t := rfl
@[simp] theorem Group.setP_flg (g : Group) (n : Nat) (m : Mask) : (g.setP n m).flg = g.flg := rfl
@[simp] theorem Group.setP_mode (g : Group) (n : Nat) (m : Mask) : (g.setP n m).mode = g.mode := rfl
@[simp] theorem Group.setP_nbv (g : Group) (n : Nat) (m : Mask) : (g.setP n m).nbv = g.nbv := rfl
@[simp] theorem Group.setP_step (g : Group) (n : Nat) (m : Mask) : (g.setP n m).step = g.step := rfl
@[simp] theorem Group.setP_snap (g : Group) (n : Nat) (m : Mask) : (g.setP n m).snap = g.snap := rfl
@[simp] theorem Group.setP_frontier (g : Group) (n : Nat) (m : Mask) : (g.setP n m).frontier = g.frontier := rfl
@[simp] theorem Group.setP_rets (g : Group) (n : Nat) (m : Mask) : (g.setP n m).rets = g.rets := rfl
@[simp] theorem Group.setP_loops (g : Group) (n : Nat) (m : Mask) : (g.setP n m).loops = g.loops := rfl
@[simp] theorem Group.setP_conv (g : Group) (n : Nat) (m : Mask) : (g.setP n m).conv = g.conv := rfl
@[simp] theorem Group.setP_subs (g : Group) (n : Nat) (m : Mask) : (g.setP n m).subs = g.subs := rfl
@[simp] theorem Group.setP_trap (g : Group) (n : Nat) (m : Mask) : (g.setP n m).trap = g.trap := rfl
@[simp] theorem Group.setP_recov (g : Group) (n : Nat) (m : Mask) : (g.setP n m).recov = g.recov := rfl
@[simp] theorem Group.setP_wait (g : Group) (n : Nat) (m : Mask) : (g.setP n m).wait = g.wait := rfl
@[simp] theorem Group.setP_waitPc (g : Group) (n : Nat) (m : Mask) : (g.setP n m).waitPc = g.waitPc := rfl
@[simp] theorem Group.setP_waitOp (g : Group) (n : Nat) (m : Mask) : (g.setP n m).waitOp = g.waitOp := rfl
@[simp] theorem Group.setP_waitNext (g : Group) (n : Nat) (m : Mask) : (g.setP n m).waitNext = g.waitNext := rfl
@[simp] theorem Group.setP_waitPrio (g : Group) (n : Nat) (m : Mask) : (g.setP n m).waitPrio = g.waitPrio := rfl
@[simp] theorem Group.setP_tWait (g : Group) (n : Nat) (m : Mask) : (g.setP n m).tWait = g.tWait := rfl
@[simp] theorem Group.setP_park (g : Group) (n : Nat) (m : Mask) : (g.setP n m).park = g.park := rfl
@[simp] theorem Group.setP_tPark (g : Group) (n : Nat) (m : Mask) : (g.setP n m).tPark = g.tPark := rfl
@[simp] theorem Group.setP_waitFrom (g : Group) (n : Nat) (m : Mask) : (g.setP n m).waitFrom = g.waitFrom := rfl
@[simp] theorem Group.setP_rl (g : Group) (n : Nat) (m : Mask) : (g.setP n m).rl = g.rl := rfl
@[simp] theorem Group.setP_rlArrived (g : Group) (n : Nat) (m : Mask) : (g.setP n m).rlArrived = g.rlArrived := rfl
@[simp] theorem Group.setP_rlOrder (g : Group) (n : Nat) (m : Mask) : (g.setP n m).rlOrder = g.rlOrder := rfl
@[simp] theorem Group.setP_rlIn (g : Group) (n : Nat) (m : Mask) : (g.setP n m).rlIn = g.rlIn := rfl
@[simp] theorem Group.setP_rlGone (g : Group) (n : Nat) (m : Mask) : (g.setP n m).rlGone = g.rlGone := rfl
@[simp] theorem Group.setP_rlDepth (g : Group) (n : Nat) (m : Mask) : (g.setP n m).rlDepth = g.rlDepth := rfl
@[simp] theorem Group.setP_barAt (g : Group) (n : Nat) (m : Mask) : (g.setP n m).barAt = g.barAt := rfl
@[simp] theorem Group.setP_region (g : Group) (n : Nat) (m : Mask) : (g.setP n m).region = g.region := rfl
@[simp] theorem Group.setP_windows (g : Group) (n : Nat) (m : Mask) : (g.setP n m).windows = g.windows := rfl
@[simp] theorem Group.setP_locks (g : Group) (n : Nat) (m : Mask) : (g.setP n m).locks = g.locks := rfl
@[simp] theorem Group.setP_gone (g : Group) (n : Nat) (m : Mask) : (g.setP n m).gone = g.gone := rfl
@[simp] theorem Group.setP_aging (g : Group) (n : Nat) (m : Mask) : (g.setP n m).aging = g.aging := rfl
@[simp] theorem Group.setP_outstanding (g : Group) (n : Nat) (m : Mask) : (g.setP n m).outstanding = g.outstanding := rfl
@[simp] theorem Group.setP_draining (g : Group) (n : Nat) (m : Mask) : (g.setP n m).draining = g.draining := rfl
@[simp] theorem Group.setP_lantern (g : Group) (n : Nat) (m : Mask) : (g.setP n m).lantern = g.lantern := rfl
@[simp] theorem Group.setP_lanternAsk (g : Group) (n : Nat) (m : Mask) : (g.setP n m).lanternAsk = g.lanternAsk := rfl
@[simp] theorem Group.setP_lanternIdle (g : Group) (n : Nat) (m : Mask) : (g.setP n m).lanternIdle = g.lanternIdle := rfl
@[simp] theorem Group.setP_evicted (g : Group) (n : Nat) (m : Mask) : (g.setP n m).evicted = g.evicted := rfl
@[simp] theorem Group.setP_lineUse (g : Group) (n : Nat) (m : Mask) : (g.setP n m).lineUse = g.lineUse := rfl
@[simp] theorem Group.setP_lastIssue (g : Group) (n : Nat) (m : Mask) : (g.setP n m).lastIssue = g.lastIssue := rfl
@[simp] theorem Group.setP_burst (g : Group) (n : Nat) (m : Mask) : (g.setP n m).burst = g.burst := rfl
@[simp] theorem Group.setP_viaTrap (g : Group) (n : Nat) (m : Mask) : (g.setP n m).viaTrap = g.viaTrap := rfl
@[simp] theorem Group.setP_firstCause (g : Group) (n : Nat) (m : Mask) : (g.setP n m).firstCause = g.firstCause := rfl
@[simp] theorem Group.setP_noPage (g : Group) (n : Nat) (m : Mask) : (g.setP n m).noPage = g.noPage := rfl
@[simp] theorem Group.setP_promote (g : Group) (n : Nat) (m : Mask) : (g.setP n m).promote = g.promote := rfl
@[simp] theorem Group.setP_errAt (g : Group) (n : Nat) (m : Mask) : (g.setP n m).errAt = g.errAt := rfl
@[simp] theorem Group.setP_lastLvl (g : Group) (n : Nat) (m : Mask) : (g.setP n m).lastLvl = g.lastLvl := rfl
@[simp] theorem Group.setPIn_live (g : Group) (n : Nat) (m x : Mask) : (g.setPIn n m x).live = g.live := rfl
@[simp] theorem Group.setPIn_team (g : Group) (n : Nat) (m x : Mask) : (g.setPIn n m x).team = g.team := rfl
@[simp] theorem Group.setPIn_gid (g : Group) (n : Nat) (m x : Mask) : (g.setPIn n m x).gid = g.gid := rfl
@[simp] theorem Group.setPIn_started (g : Group) (n : Nat) (m x : Mask) : (g.setPIn n m x).started = g.started := rfl
@[simp] theorem Group.setPIn_cls (g : Group) (n : Nat) (m x : Mask) : (g.setPIn n m x).cls = g.cls := rfl
@[simp] theorem Group.setPIn_nv (g : Group) (n : Nat) (m x : Mask) : (g.setPIn n m x).nv = g.nv := rfl
@[simp] theorem Group.setPIn_ns (g : Group) (n : Nat) (m x : Mask) : (g.setPIn n m x).ns = g.ns := rfl
@[simp] theorem Group.setPIn_nb (g : Group) (n : Nat) (m x : Mask) : (g.setPIn n m x).nb = g.nb := rfl
@[simp] theorem Group.setPIn_v (g : Group) (n : Nat) (m x : Mask) : (g.setPIn n m x).v = g.v := rfl
@[simp] theorem Group.setPIn_vBad (g : Group) (n : Nat) (m x : Mask) : (g.setPIn n m x).vBad = g.vBad := rfl
@[simp] theorem Group.setPIn_s (g : Group) (n : Nat) (m x : Mask) : (g.setPIn n m x).s = g.s := rfl
@[simp] theorem Group.setPIn_sBad (g : Group) (n : Nat) (m x : Mask) : (g.setPIn n m x).sBad = g.sBad := rfl
@[simp] theorem Group.setPIn_b (g : Group) (n : Nat) (m x : Mask) : (g.setPIn n m x).b = g.b := rfl
@[simp] theorem Group.setPIn_lc (g : Group) (n : Nat) (m x : Mask) : (g.setPIn n m x).lc = g.lc := rfl
@[simp] theorem Group.setPIn_k (g : Group) (n : Nat) (m x : Mask) : (g.setPIn n m x).k = g.k := rfl
@[simp] theorem Group.setPIn_t (g : Group) (n : Nat) (m x : Mask) : (g.setPIn n m x).t = g.t := rfl
@[simp] theorem Group.setPIn_flg (g : Group) (n : Nat) (m x : Mask) : (g.setPIn n m x).flg = g.flg := rfl
@[simp] theorem Group.setPIn_mode (g : Group) (n : Nat) (m x : Mask) : (g.setPIn n m x).mode = g.mode := rfl
@[simp] theorem Group.setPIn_nbv (g : Group) (n : Nat) (m x : Mask) : (g.setPIn n m x).nbv = g.nbv := rfl
@[simp] theorem Group.setPIn_step (g : Group) (n : Nat) (m x : Mask) : (g.setPIn n m x).step = g.step := rfl
@[simp] theorem Group.setPIn_snap (g : Group) (n : Nat) (m x : Mask) : (g.setPIn n m x).snap = g.snap := rfl
@[simp] theorem Group.setPIn_frontier (g : Group) (n : Nat) (m x : Mask) : (g.setPIn n m x).frontier = g.frontier := rfl
@[simp] theorem Group.setPIn_rets (g : Group) (n : Nat) (m x : Mask) : (g.setPIn n m x).rets = g.rets := rfl
@[simp] theorem Group.setPIn_loops (g : Group) (n : Nat) (m x : Mask) : (g.setPIn n m x).loops = g.loops := rfl
@[simp] theorem Group.setPIn_conv (g : Group) (n : Nat) (m x : Mask) : (g.setPIn n m x).conv = g.conv := rfl
@[simp] theorem Group.setPIn_subs (g : Group) (n : Nat) (m x : Mask) : (g.setPIn n m x).subs = g.subs := rfl
@[simp] theorem Group.setPIn_trap (g : Group) (n : Nat) (m x : Mask) : (g.setPIn n m x).trap = g.trap := rfl
@[simp] theorem Group.setPIn_recov (g : Group) (n : Nat) (m x : Mask) : (g.setPIn n m x).recov = g.recov := rfl
@[simp] theorem Group.setPIn_wait (g : Group) (n : Nat) (m x : Mask) : (g.setPIn n m x).wait = g.wait := rfl
@[simp] theorem Group.setPIn_waitPc (g : Group) (n : Nat) (m x : Mask) : (g.setPIn n m x).waitPc = g.waitPc := rfl
@[simp] theorem Group.setPIn_waitOp (g : Group) (n : Nat) (m x : Mask) : (g.setPIn n m x).waitOp = g.waitOp := rfl
@[simp] theorem Group.setPIn_waitNext (g : Group) (n : Nat) (m x : Mask) : (g.setPIn n m x).waitNext = g.waitNext := rfl
@[simp] theorem Group.setPIn_waitPrio (g : Group) (n : Nat) (m x : Mask) : (g.setPIn n m x).waitPrio = g.waitPrio := rfl
@[simp] theorem Group.setPIn_tWait (g : Group) (n : Nat) (m x : Mask) : (g.setPIn n m x).tWait = g.tWait := rfl
@[simp] theorem Group.setPIn_park (g : Group) (n : Nat) (m x : Mask) : (g.setPIn n m x).park = g.park := rfl
@[simp] theorem Group.setPIn_tPark (g : Group) (n : Nat) (m x : Mask) : (g.setPIn n m x).tPark = g.tPark := rfl
@[simp] theorem Group.setPIn_waitFrom (g : Group) (n : Nat) (m x : Mask) : (g.setPIn n m x).waitFrom = g.waitFrom := rfl
@[simp] theorem Group.setPIn_rl (g : Group) (n : Nat) (m x : Mask) : (g.setPIn n m x).rl = g.rl := rfl
@[simp] theorem Group.setPIn_rlArrived (g : Group) (n : Nat) (m x : Mask) : (g.setPIn n m x).rlArrived = g.rlArrived := rfl
@[simp] theorem Group.setPIn_rlOrder (g : Group) (n : Nat) (m x : Mask) : (g.setPIn n m x).rlOrder = g.rlOrder := rfl
@[simp] theorem Group.setPIn_rlIn (g : Group) (n : Nat) (m x : Mask) : (g.setPIn n m x).rlIn = g.rlIn := rfl
@[simp] theorem Group.setPIn_rlGone (g : Group) (n : Nat) (m x : Mask) : (g.setPIn n m x).rlGone = g.rlGone := rfl
@[simp] theorem Group.setPIn_rlDepth (g : Group) (n : Nat) (m x : Mask) : (g.setPIn n m x).rlDepth = g.rlDepth := rfl
@[simp] theorem Group.setPIn_barAt (g : Group) (n : Nat) (m x : Mask) : (g.setPIn n m x).barAt = g.barAt := rfl
@[simp] theorem Group.setPIn_region (g : Group) (n : Nat) (m x : Mask) : (g.setPIn n m x).region = g.region := rfl
@[simp] theorem Group.setPIn_windows (g : Group) (n : Nat) (m x : Mask) : (g.setPIn n m x).windows = g.windows := rfl
@[simp] theorem Group.setPIn_locks (g : Group) (n : Nat) (m x : Mask) : (g.setPIn n m x).locks = g.locks := rfl
@[simp] theorem Group.setPIn_gone (g : Group) (n : Nat) (m x : Mask) : (g.setPIn n m x).gone = g.gone := rfl
@[simp] theorem Group.setPIn_aging (g : Group) (n : Nat) (m x : Mask) : (g.setPIn n m x).aging = g.aging := rfl
@[simp] theorem Group.setPIn_outstanding (g : Group) (n : Nat) (m x : Mask) : (g.setPIn n m x).outstanding = g.outstanding := rfl
@[simp] theorem Group.setPIn_draining (g : Group) (n : Nat) (m x : Mask) : (g.setPIn n m x).draining = g.draining := rfl
@[simp] theorem Group.setPIn_lantern (g : Group) (n : Nat) (m x : Mask) : (g.setPIn n m x).lantern = g.lantern := rfl
@[simp] theorem Group.setPIn_lanternAsk (g : Group) (n : Nat) (m x : Mask) : (g.setPIn n m x).lanternAsk = g.lanternAsk := rfl
@[simp] theorem Group.setPIn_lanternIdle (g : Group) (n : Nat) (m x : Mask) : (g.setPIn n m x).lanternIdle = g.lanternIdle := rfl
@[simp] theorem Group.setPIn_evicted (g : Group) (n : Nat) (m x : Mask) : (g.setPIn n m x).evicted = g.evicted := rfl
@[simp] theorem Group.setPIn_lineUse (g : Group) (n : Nat) (m x : Mask) : (g.setPIn n m x).lineUse = g.lineUse := rfl
@[simp] theorem Group.setPIn_lastIssue (g : Group) (n : Nat) (m x : Mask) : (g.setPIn n m x).lastIssue = g.lastIssue := rfl
@[simp] theorem Group.setPIn_burst (g : Group) (n : Nat) (m x : Mask) : (g.setPIn n m x).burst = g.burst := rfl
@[simp] theorem Group.setPIn_viaTrap (g : Group) (n : Nat) (m x : Mask) : (g.setPIn n m x).viaTrap = g.viaTrap := rfl
@[simp] theorem Group.setPIn_firstCause (g : Group) (n : Nat) (m x : Mask) : (g.setPIn n m x).firstCause = g.firstCause := rfl
@[simp] theorem Group.setPIn_noPage (g : Group) (n : Nat) (m x : Mask) : (g.setPIn n m x).noPage = g.noPage := rfl
@[simp] theorem Group.setPIn_promote (g : Group) (n : Nat) (m x : Mask) : (g.setPIn n m x).promote = g.promote := rfl
@[simp] theorem Group.setPIn_errAt (g : Group) (n : Nat) (m x : Mask) : (g.setPIn n m x).errAt = g.errAt := rfl
@[simp] theorem Group.setPIn_lastLvl (g : Group) (n : Nat) (m x : Mask) : (g.setPIn n m x).lastLvl = g.lastLvl := rfl
@[simp] theorem Group.setB_live (g : Group) (n : Nat) (x : Rec) : (g.setB n x).live = g.live := rfl
@[simp] theorem Group.setB_team (g : Group) (n : Nat) (x : Rec) : (g.setB n x).team = g.team := rfl
@[simp] theorem Group.setB_gid (g : Group) (n : Nat) (x : Rec) : (g.setB n x).gid = g.gid := rfl
@[simp] theorem Group.setB_started (g : Group) (n : Nat) (x : Rec) : (g.setB n x).started = g.started := rfl
@[simp] theorem Group.setB_cls (g : Group) (n : Nat) (x : Rec) : (g.setB n x).cls = g.cls := rfl
@[simp] theorem Group.setB_nv (g : Group) (n : Nat) (x : Rec) : (g.setB n x).nv = g.nv := rfl
@[simp] theorem Group.setB_ns (g : Group) (n : Nat) (x : Rec) : (g.setB n x).ns = g.ns := rfl
@[simp] theorem Group.setB_nb (g : Group) (n : Nat) (x : Rec) : (g.setB n x).nb = g.nb := rfl
@[simp] theorem Group.setB_v (g : Group) (n : Nat) (x : Rec) : (g.setB n x).v = g.v := rfl
@[simp] theorem Group.setB_vBad (g : Group) (n : Nat) (x : Rec) : (g.setB n x).vBad = g.vBad := rfl
@[simp] theorem Group.setB_s (g : Group) (n : Nat) (x : Rec) : (g.setB n x).s = g.s := rfl
@[simp] theorem Group.setB_sBad (g : Group) (n : Nat) (x : Rec) : (g.setB n x).sBad = g.sBad := rfl
@[simp] theorem Group.setB_p (g : Group) (n : Nat) (x : Rec) : (g.setB n x).p = g.p := rfl
@[simp] theorem Group.setB_lc (g : Group) (n : Nat) (x : Rec) : (g.setB n x).lc = g.lc := rfl
@[simp] theorem Group.setB_k (g : Group) (n : Nat) (x : Rec) : (g.setB n x).k = g.k := rfl
@[simp] theorem Group.setB_t (g : Group) (n : Nat) (x : Rec) : (g.setB n x).t = g.t := rfl
@[simp] theorem Group.setB_flg (g : Group) (n : Nat) (x : Rec) : (g.setB n x).flg = g.flg := rfl
@[simp] theorem Group.setB_mode (g : Group) (n : Nat) (x : Rec) : (g.setB n x).mode = g.mode := rfl
@[simp] theorem Group.setB_nbv (g : Group) (n : Nat) (x : Rec) : (g.setB n x).nbv = g.nbv := rfl
@[simp] theorem Group.setB_step (g : Group) (n : Nat) (x : Rec) : (g.setB n x).step = g.step := rfl
@[simp] theorem Group.setB_snap (g : Group) (n : Nat) (x : Rec) : (g.setB n x).snap = g.snap := rfl
@[simp] theorem Group.setB_frontier (g : Group) (n : Nat) (x : Rec) : (g.setB n x).frontier = g.frontier := rfl
@[simp] theorem Group.setB_rets (g : Group) (n : Nat) (x : Rec) : (g.setB n x).rets = g.rets := rfl
@[simp] theorem Group.setB_loops (g : Group) (n : Nat) (x : Rec) : (g.setB n x).loops = g.loops := rfl
@[simp] theorem Group.setB_conv (g : Group) (n : Nat) (x : Rec) : (g.setB n x).conv = g.conv := rfl
@[simp] theorem Group.setB_subs (g : Group) (n : Nat) (x : Rec) : (g.setB n x).subs = g.subs := rfl
@[simp] theorem Group.setB_trap (g : Group) (n : Nat) (x : Rec) : (g.setB n x).trap = g.trap := rfl
@[simp] theorem Group.setB_recov (g : Group) (n : Nat) (x : Rec) : (g.setB n x).recov = g.recov := rfl
@[simp] theorem Group.setB_wait (g : Group) (n : Nat) (x : Rec) : (g.setB n x).wait = g.wait := rfl
@[simp] theorem Group.setB_waitPc (g : Group) (n : Nat) (x : Rec) : (g.setB n x).waitPc = g.waitPc := rfl
@[simp] theorem Group.setB_waitOp (g : Group) (n : Nat) (x : Rec) : (g.setB n x).waitOp = g.waitOp := rfl
@[simp] theorem Group.setB_waitNext (g : Group) (n : Nat) (x : Rec) : (g.setB n x).waitNext = g.waitNext := rfl
@[simp] theorem Group.setB_waitPrio (g : Group) (n : Nat) (x : Rec) : (g.setB n x).waitPrio = g.waitPrio := rfl
@[simp] theorem Group.setB_tWait (g : Group) (n : Nat) (x : Rec) : (g.setB n x).tWait = g.tWait := rfl
@[simp] theorem Group.setB_park (g : Group) (n : Nat) (x : Rec) : (g.setB n x).park = g.park := rfl
@[simp] theorem Group.setB_tPark (g : Group) (n : Nat) (x : Rec) : (g.setB n x).tPark = g.tPark := rfl
@[simp] theorem Group.setB_waitFrom (g : Group) (n : Nat) (x : Rec) : (g.setB n x).waitFrom = g.waitFrom := rfl
@[simp] theorem Group.setB_rl (g : Group) (n : Nat) (x : Rec) : (g.setB n x).rl = g.rl := rfl
@[simp] theorem Group.setB_rlArrived (g : Group) (n : Nat) (x : Rec) : (g.setB n x).rlArrived = g.rlArrived := rfl
@[simp] theorem Group.setB_rlOrder (g : Group) (n : Nat) (x : Rec) : (g.setB n x).rlOrder = g.rlOrder := rfl
@[simp] theorem Group.setB_rlIn (g : Group) (n : Nat) (x : Rec) : (g.setB n x).rlIn = g.rlIn := rfl
@[simp] theorem Group.setB_rlGone (g : Group) (n : Nat) (x : Rec) : (g.setB n x).rlGone = g.rlGone := rfl
@[simp] theorem Group.setB_rlDepth (g : Group) (n : Nat) (x : Rec) : (g.setB n x).rlDepth = g.rlDepth := rfl
@[simp] theorem Group.setB_barAt (g : Group) (n : Nat) (x : Rec) : (g.setB n x).barAt = g.barAt := rfl
@[simp] theorem Group.setB_region (g : Group) (n : Nat) (x : Rec) : (g.setB n x).region = g.region := rfl
@[simp] theorem Group.setB_windows (g : Group) (n : Nat) (x : Rec) : (g.setB n x).windows = g.windows := rfl
@[simp] theorem Group.setB_locks (g : Group) (n : Nat) (x : Rec) : (g.setB n x).locks = g.locks := rfl
@[simp] theorem Group.setB_gone (g : Group) (n : Nat) (x : Rec) : (g.setB n x).gone = g.gone := rfl
@[simp] theorem Group.setB_aging (g : Group) (n : Nat) (x : Rec) : (g.setB n x).aging = g.aging := rfl
@[simp] theorem Group.setB_outstanding (g : Group) (n : Nat) (x : Rec) : (g.setB n x).outstanding = g.outstanding := rfl
@[simp] theorem Group.setB_draining (g : Group) (n : Nat) (x : Rec) : (g.setB n x).draining = g.draining := rfl
@[simp] theorem Group.setB_lantern (g : Group) (n : Nat) (x : Rec) : (g.setB n x).lantern = g.lantern := rfl
@[simp] theorem Group.setB_lanternAsk (g : Group) (n : Nat) (x : Rec) : (g.setB n x).lanternAsk = g.lanternAsk := rfl
@[simp] theorem Group.setB_lanternIdle (g : Group) (n : Nat) (x : Rec) : (g.setB n x).lanternIdle = g.lanternIdle := rfl
@[simp] theorem Group.setB_evicted (g : Group) (n : Nat) (x : Rec) : (g.setB n x).evicted = g.evicted := rfl
@[simp] theorem Group.setB_lineUse (g : Group) (n : Nat) (x : Rec) : (g.setB n x).lineUse = g.lineUse := rfl
@[simp] theorem Group.setB_lastIssue (g : Group) (n : Nat) (x : Rec) : (g.setB n x).lastIssue = g.lastIssue := rfl
@[simp] theorem Group.setB_burst (g : Group) (n : Nat) (x : Rec) : (g.setB n x).burst = g.burst := rfl
@[simp] theorem Group.setB_viaTrap (g : Group) (n : Nat) (x : Rec) : (g.setB n x).viaTrap = g.viaTrap := rfl
@[simp] theorem Group.setB_firstCause (g : Group) (n : Nat) (x : Rec) : (g.setB n x).firstCause = g.firstCause := rfl
@[simp] theorem Group.setB_noPage (g : Group) (n : Nat) (x : Rec) : (g.setB n x).noPage = g.noPage := rfl
@[simp] theorem Group.setB_promote (g : Group) (n : Nat) (x : Rec) : (g.setB n x).promote = g.promote := rfl
@[simp] theorem Group.setB_errAt (g : Group) (n : Nat) (x : Rec) : (g.setB n x).errAt = g.errAt := rfl
@[simp] theorem Group.setB_lastLvl (g : Group) (n : Nat) (x : Rec) : (g.setB n x).lastLvl = g.lastLvl := rfl
@[simp] theorem Group.setLc_live (g : Group) (n : Nat) (x : Word) : (g.setLc n x).live = g.live := rfl
@[simp] theorem Group.setLc_team (g : Group) (n : Nat) (x : Word) : (g.setLc n x).team = g.team := rfl
@[simp] theorem Group.setLc_gid (g : Group) (n : Nat) (x : Word) : (g.setLc n x).gid = g.gid := rfl
@[simp] theorem Group.setLc_started (g : Group) (n : Nat) (x : Word) : (g.setLc n x).started = g.started := rfl
@[simp] theorem Group.setLc_cls (g : Group) (n : Nat) (x : Word) : (g.setLc n x).cls = g.cls := rfl
@[simp] theorem Group.setLc_nv (g : Group) (n : Nat) (x : Word) : (g.setLc n x).nv = g.nv := rfl
@[simp] theorem Group.setLc_ns (g : Group) (n : Nat) (x : Word) : (g.setLc n x).ns = g.ns := rfl
@[simp] theorem Group.setLc_nb (g : Group) (n : Nat) (x : Word) : (g.setLc n x).nb = g.nb := rfl
@[simp] theorem Group.setLc_v (g : Group) (n : Nat) (x : Word) : (g.setLc n x).v = g.v := rfl
@[simp] theorem Group.setLc_vBad (g : Group) (n : Nat) (x : Word) : (g.setLc n x).vBad = g.vBad := rfl
@[simp] theorem Group.setLc_s (g : Group) (n : Nat) (x : Word) : (g.setLc n x).s = g.s := rfl
@[simp] theorem Group.setLc_sBad (g : Group) (n : Nat) (x : Word) : (g.setLc n x).sBad = g.sBad := rfl
@[simp] theorem Group.setLc_p (g : Group) (n : Nat) (x : Word) : (g.setLc n x).p = g.p := rfl
@[simp] theorem Group.setLc_b (g : Group) (n : Nat) (x : Word) : (g.setLc n x).b = g.b := rfl
@[simp] theorem Group.setLc_k (g : Group) (n : Nat) (x : Word) : (g.setLc n x).k = g.k := rfl
@[simp] theorem Group.setLc_t (g : Group) (n : Nat) (x : Word) : (g.setLc n x).t = g.t := rfl
@[simp] theorem Group.setLc_flg (g : Group) (n : Nat) (x : Word) : (g.setLc n x).flg = g.flg := rfl
@[simp] theorem Group.setLc_mode (g : Group) (n : Nat) (x : Word) : (g.setLc n x).mode = g.mode := rfl
@[simp] theorem Group.setLc_nbv (g : Group) (n : Nat) (x : Word) : (g.setLc n x).nbv = g.nbv := rfl
@[simp] theorem Group.setLc_step (g : Group) (n : Nat) (x : Word) : (g.setLc n x).step = g.step := rfl
@[simp] theorem Group.setLc_snap (g : Group) (n : Nat) (x : Word) : (g.setLc n x).snap = g.snap := rfl
@[simp] theorem Group.setLc_frontier (g : Group) (n : Nat) (x : Word) : (g.setLc n x).frontier = g.frontier := rfl
@[simp] theorem Group.setLc_rets (g : Group) (n : Nat) (x : Word) : (g.setLc n x).rets = g.rets := rfl
@[simp] theorem Group.setLc_loops (g : Group) (n : Nat) (x : Word) : (g.setLc n x).loops = g.loops := rfl
@[simp] theorem Group.setLc_conv (g : Group) (n : Nat) (x : Word) : (g.setLc n x).conv = g.conv := rfl
@[simp] theorem Group.setLc_subs (g : Group) (n : Nat) (x : Word) : (g.setLc n x).subs = g.subs := rfl
@[simp] theorem Group.setLc_trap (g : Group) (n : Nat) (x : Word) : (g.setLc n x).trap = g.trap := rfl
@[simp] theorem Group.setLc_recov (g : Group) (n : Nat) (x : Word) : (g.setLc n x).recov = g.recov := rfl
@[simp] theorem Group.setLc_wait (g : Group) (n : Nat) (x : Word) : (g.setLc n x).wait = g.wait := rfl
@[simp] theorem Group.setLc_waitPc (g : Group) (n : Nat) (x : Word) : (g.setLc n x).waitPc = g.waitPc := rfl
@[simp] theorem Group.setLc_waitOp (g : Group) (n : Nat) (x : Word) : (g.setLc n x).waitOp = g.waitOp := rfl
@[simp] theorem Group.setLc_waitNext (g : Group) (n : Nat) (x : Word) : (g.setLc n x).waitNext = g.waitNext := rfl
@[simp] theorem Group.setLc_waitPrio (g : Group) (n : Nat) (x : Word) : (g.setLc n x).waitPrio = g.waitPrio := rfl
@[simp] theorem Group.setLc_tWait (g : Group) (n : Nat) (x : Word) : (g.setLc n x).tWait = g.tWait := rfl
@[simp] theorem Group.setLc_park (g : Group) (n : Nat) (x : Word) : (g.setLc n x).park = g.park := rfl
@[simp] theorem Group.setLc_tPark (g : Group) (n : Nat) (x : Word) : (g.setLc n x).tPark = g.tPark := rfl
@[simp] theorem Group.setLc_waitFrom (g : Group) (n : Nat) (x : Word) : (g.setLc n x).waitFrom = g.waitFrom := rfl
@[simp] theorem Group.setLc_rl (g : Group) (n : Nat) (x : Word) : (g.setLc n x).rl = g.rl := rfl
@[simp] theorem Group.setLc_rlArrived (g : Group) (n : Nat) (x : Word) : (g.setLc n x).rlArrived = g.rlArrived := rfl
@[simp] theorem Group.setLc_rlOrder (g : Group) (n : Nat) (x : Word) : (g.setLc n x).rlOrder = g.rlOrder := rfl
@[simp] theorem Group.setLc_rlIn (g : Group) (n : Nat) (x : Word) : (g.setLc n x).rlIn = g.rlIn := rfl
@[simp] theorem Group.setLc_rlGone (g : Group) (n : Nat) (x : Word) : (g.setLc n x).rlGone = g.rlGone := rfl
@[simp] theorem Group.setLc_rlDepth (g : Group) (n : Nat) (x : Word) : (g.setLc n x).rlDepth = g.rlDepth := rfl
@[simp] theorem Group.setLc_barAt (g : Group) (n : Nat) (x : Word) : (g.setLc n x).barAt = g.barAt := rfl
@[simp] theorem Group.setLc_region (g : Group) (n : Nat) (x : Word) : (g.setLc n x).region = g.region := rfl
@[simp] theorem Group.setLc_windows (g : Group) (n : Nat) (x : Word) : (g.setLc n x).windows = g.windows := rfl
@[simp] theorem Group.setLc_locks (g : Group) (n : Nat) (x : Word) : (g.setLc n x).locks = g.locks := rfl
@[simp] theorem Group.setLc_gone (g : Group) (n : Nat) (x : Word) : (g.setLc n x).gone = g.gone := rfl
@[simp] theorem Group.setLc_aging (g : Group) (n : Nat) (x : Word) : (g.setLc n x).aging = g.aging := rfl
@[simp] theorem Group.setLc_outstanding (g : Group) (n : Nat) (x : Word) : (g.setLc n x).outstanding = g.outstanding := rfl
@[simp] theorem Group.setLc_draining (g : Group) (n : Nat) (x : Word) : (g.setLc n x).draining = g.draining := rfl
@[simp] theorem Group.setLc_lantern (g : Group) (n : Nat) (x : Word) : (g.setLc n x).lantern = g.lantern := rfl
@[simp] theorem Group.setLc_lanternAsk (g : Group) (n : Nat) (x : Word) : (g.setLc n x).lanternAsk = g.lanternAsk := rfl
@[simp] theorem Group.setLc_lanternIdle (g : Group) (n : Nat) (x : Word) : (g.setLc n x).lanternIdle = g.lanternIdle := rfl
@[simp] theorem Group.setLc_evicted (g : Group) (n : Nat) (x : Word) : (g.setLc n x).evicted = g.evicted := rfl
@[simp] theorem Group.setLc_lineUse (g : Group) (n : Nat) (x : Word) : (g.setLc n x).lineUse = g.lineUse := rfl
@[simp] theorem Group.setLc_lastIssue (g : Group) (n : Nat) (x : Word) : (g.setLc n x).lastIssue = g.lastIssue := rfl
@[simp] theorem Group.setLc_burst (g : Group) (n : Nat) (x : Word) : (g.setLc n x).burst = g.burst := rfl
@[simp] theorem Group.setLc_viaTrap (g : Group) (n : Nat) (x : Word) : (g.setLc n x).viaTrap = g.viaTrap := rfl
@[simp] theorem Group.setLc_firstCause (g : Group) (n : Nat) (x : Word) : (g.setLc n x).firstCause = g.firstCause := rfl
@[simp] theorem Group.setLc_noPage (g : Group) (n : Nat) (x : Word) : (g.setLc n x).noPage = g.noPage := rfl
@[simp] theorem Group.setLc_promote (g : Group) (n : Nat) (x : Word) : (g.setLc n x).promote = g.promote := rfl
@[simp] theorem Group.setLc_errAt (g : Group) (n : Nat) (x : Word) : (g.setLc n x).errAt = g.errAt := rfl
@[simp] theorem Group.setLc_lastLvl (g : Group) (n : Nat) (x : Word) : (g.setLc n x).lastLvl = g.lastLvl := rfl
@[simp] theorem Group.setK_live (g : Group) (n : Nat) (x : Mask) : (g.setK n x).live = g.live := rfl
@[simp] theorem Group.setK_team (g : Group) (n : Nat) (x : Mask) : (g.setK n x).team = g.team := rfl
@[simp] theorem Group.setK_gid (g : Group) (n : Nat) (x : Mask) : (g.setK n x).gid = g.gid := rfl
@[simp] theorem Group.setK_started (g : Group) (n : Nat) (x : Mask) : (g.setK n x).started = g.started := rfl
@[simp] theorem Group.setK_cls (g : Group) (n : Nat) (x : Mask) : (g.setK n x).cls = g.cls := rfl
@[simp] theorem Group.setK_nv (g : Group) (n : Nat) (x : Mask) : (g.setK n x).nv = g.nv := rfl
@[simp] theorem Group.setK_ns (g : Group) (n : Nat) (x : Mask) : (g.setK n x).ns = g.ns := rfl
@[simp] theorem Group.setK_nb (g : Group) (n : Nat) (x : Mask) : (g.setK n x).nb = g.nb := rfl
@[simp] theorem Group.setK_v (g : Group) (n : Nat) (x : Mask) : (g.setK n x).v = g.v := rfl
@[simp] theorem Group.setK_vBad (g : Group) (n : Nat) (x : Mask) : (g.setK n x).vBad = g.vBad := rfl
@[simp] theorem Group.setK_s (g : Group) (n : Nat) (x : Mask) : (g.setK n x).s = g.s := rfl
@[simp] theorem Group.setK_sBad (g : Group) (n : Nat) (x : Mask) : (g.setK n x).sBad = g.sBad := rfl
@[simp] theorem Group.setK_p (g : Group) (n : Nat) (x : Mask) : (g.setK n x).p = g.p := rfl
@[simp] theorem Group.setK_b (g : Group) (n : Nat) (x : Mask) : (g.setK n x).b = g.b := rfl
@[simp] theorem Group.setK_lc (g : Group) (n : Nat) (x : Mask) : (g.setK n x).lc = g.lc := rfl
@[simp] theorem Group.setK_t (g : Group) (n : Nat) (x : Mask) : (g.setK n x).t = g.t := rfl
@[simp] theorem Group.setK_flg (g : Group) (n : Nat) (x : Mask) : (g.setK n x).flg = g.flg := rfl
@[simp] theorem Group.setK_mode (g : Group) (n : Nat) (x : Mask) : (g.setK n x).mode = g.mode := rfl
@[simp] theorem Group.setK_nbv (g : Group) (n : Nat) (x : Mask) : (g.setK n x).nbv = g.nbv := rfl
@[simp] theorem Group.setK_step (g : Group) (n : Nat) (x : Mask) : (g.setK n x).step = g.step := rfl
@[simp] theorem Group.setK_snap (g : Group) (n : Nat) (x : Mask) : (g.setK n x).snap = g.snap := rfl
@[simp] theorem Group.setK_frontier (g : Group) (n : Nat) (x : Mask) : (g.setK n x).frontier = g.frontier := rfl
@[simp] theorem Group.setK_rets (g : Group) (n : Nat) (x : Mask) : (g.setK n x).rets = g.rets := rfl
@[simp] theorem Group.setK_loops (g : Group) (n : Nat) (x : Mask) : (g.setK n x).loops = g.loops := rfl
@[simp] theorem Group.setK_conv (g : Group) (n : Nat) (x : Mask) : (g.setK n x).conv = g.conv := rfl
@[simp] theorem Group.setK_subs (g : Group) (n : Nat) (x : Mask) : (g.setK n x).subs = g.subs := rfl
@[simp] theorem Group.setK_trap (g : Group) (n : Nat) (x : Mask) : (g.setK n x).trap = g.trap := rfl
@[simp] theorem Group.setK_recov (g : Group) (n : Nat) (x : Mask) : (g.setK n x).recov = g.recov := rfl
@[simp] theorem Group.setK_wait (g : Group) (n : Nat) (x : Mask) : (g.setK n x).wait = g.wait := rfl
@[simp] theorem Group.setK_waitPc (g : Group) (n : Nat) (x : Mask) : (g.setK n x).waitPc = g.waitPc := rfl
@[simp] theorem Group.setK_waitOp (g : Group) (n : Nat) (x : Mask) : (g.setK n x).waitOp = g.waitOp := rfl
@[simp] theorem Group.setK_waitNext (g : Group) (n : Nat) (x : Mask) : (g.setK n x).waitNext = g.waitNext := rfl
@[simp] theorem Group.setK_waitPrio (g : Group) (n : Nat) (x : Mask) : (g.setK n x).waitPrio = g.waitPrio := rfl
@[simp] theorem Group.setK_tWait (g : Group) (n : Nat) (x : Mask) : (g.setK n x).tWait = g.tWait := rfl
@[simp] theorem Group.setK_park (g : Group) (n : Nat) (x : Mask) : (g.setK n x).park = g.park := rfl
@[simp] theorem Group.setK_tPark (g : Group) (n : Nat) (x : Mask) : (g.setK n x).tPark = g.tPark := rfl
@[simp] theorem Group.setK_waitFrom (g : Group) (n : Nat) (x : Mask) : (g.setK n x).waitFrom = g.waitFrom := rfl
@[simp] theorem Group.setK_rl (g : Group) (n : Nat) (x : Mask) : (g.setK n x).rl = g.rl := rfl
@[simp] theorem Group.setK_rlArrived (g : Group) (n : Nat) (x : Mask) : (g.setK n x).rlArrived = g.rlArrived := rfl
@[simp] theorem Group.setK_rlOrder (g : Group) (n : Nat) (x : Mask) : (g.setK n x).rlOrder = g.rlOrder := rfl
@[simp] theorem Group.setK_rlIn (g : Group) (n : Nat) (x : Mask) : (g.setK n x).rlIn = g.rlIn := rfl
@[simp] theorem Group.setK_rlGone (g : Group) (n : Nat) (x : Mask) : (g.setK n x).rlGone = g.rlGone := rfl
@[simp] theorem Group.setK_rlDepth (g : Group) (n : Nat) (x : Mask) : (g.setK n x).rlDepth = g.rlDepth := rfl
@[simp] theorem Group.setK_barAt (g : Group) (n : Nat) (x : Mask) : (g.setK n x).barAt = g.barAt := rfl
@[simp] theorem Group.setK_region (g : Group) (n : Nat) (x : Mask) : (g.setK n x).region = g.region := rfl
@[simp] theorem Group.setK_windows (g : Group) (n : Nat) (x : Mask) : (g.setK n x).windows = g.windows := rfl
@[simp] theorem Group.setK_locks (g : Group) (n : Nat) (x : Mask) : (g.setK n x).locks = g.locks := rfl
@[simp] theorem Group.setK_gone (g : Group) (n : Nat) (x : Mask) : (g.setK n x).gone = g.gone := rfl
@[simp] theorem Group.setK_aging (g : Group) (n : Nat) (x : Mask) : (g.setK n x).aging = g.aging := rfl
@[simp] theorem Group.setK_outstanding (g : Group) (n : Nat) (x : Mask) : (g.setK n x).outstanding = g.outstanding := rfl
@[simp] theorem Group.setK_draining (g : Group) (n : Nat) (x : Mask) : (g.setK n x).draining = g.draining := rfl
@[simp] theorem Group.setK_lantern (g : Group) (n : Nat) (x : Mask) : (g.setK n x).lantern = g.lantern := rfl
@[simp] theorem Group.setK_lanternAsk (g : Group) (n : Nat) (x : Mask) : (g.setK n x).lanternAsk = g.lanternAsk := rfl
@[simp] theorem Group.setK_lanternIdle (g : Group) (n : Nat) (x : Mask) : (g.setK n x).lanternIdle = g.lanternIdle := rfl
@[simp] theorem Group.setK_evicted (g : Group) (n : Nat) (x : Mask) : (g.setK n x).evicted = g.evicted := rfl
@[simp] theorem Group.setK_lineUse (g : Group) (n : Nat) (x : Mask) : (g.setK n x).lineUse = g.lineUse := rfl
@[simp] theorem Group.setK_lastIssue (g : Group) (n : Nat) (x : Mask) : (g.setK n x).lastIssue = g.lastIssue := rfl
@[simp] theorem Group.setK_burst (g : Group) (n : Nat) (x : Mask) : (g.setK n x).burst = g.burst := rfl
@[simp] theorem Group.setK_viaTrap (g : Group) (n : Nat) (x : Mask) : (g.setK n x).viaTrap = g.viaTrap := rfl
@[simp] theorem Group.setK_firstCause (g : Group) (n : Nat) (x : Mask) : (g.setK n x).firstCause = g.firstCause := rfl
@[simp] theorem Group.setK_noPage (g : Group) (n : Nat) (x : Mask) : (g.setK n x).noPage = g.noPage := rfl
@[simp] theorem Group.setK_promote (g : Group) (n : Nat) (x : Mask) : (g.setK n x).promote = g.promote := rfl
@[simp] theorem Group.setK_errAt (g : Group) (n : Nat) (x : Mask) : (g.setK n x).errAt = g.errAt := rfl
@[simp] theorem Group.setK_lastLvl (g : Group) (n : Nat) (x : Mask) : (g.setK n x).lastLvl = g.lastLvl := rfl
@[simp] theorem Group.setT_live (g : Group) (n : Nat) (x : BitVec 16) : (g.setT n x).live = g.live := rfl
@[simp] theorem Group.setT_team (g : Group) (n : Nat) (x : BitVec 16) : (g.setT n x).team = g.team := rfl
@[simp] theorem Group.setT_gid (g : Group) (n : Nat) (x : BitVec 16) : (g.setT n x).gid = g.gid := rfl
@[simp] theorem Group.setT_started (g : Group) (n : Nat) (x : BitVec 16) : (g.setT n x).started = g.started := rfl
@[simp] theorem Group.setT_cls (g : Group) (n : Nat) (x : BitVec 16) : (g.setT n x).cls = g.cls := rfl
@[simp] theorem Group.setT_nv (g : Group) (n : Nat) (x : BitVec 16) : (g.setT n x).nv = g.nv := rfl
@[simp] theorem Group.setT_ns (g : Group) (n : Nat) (x : BitVec 16) : (g.setT n x).ns = g.ns := rfl
@[simp] theorem Group.setT_nb (g : Group) (n : Nat) (x : BitVec 16) : (g.setT n x).nb = g.nb := rfl
@[simp] theorem Group.setT_v (g : Group) (n : Nat) (x : BitVec 16) : (g.setT n x).v = g.v := rfl
@[simp] theorem Group.setT_vBad (g : Group) (n : Nat) (x : BitVec 16) : (g.setT n x).vBad = g.vBad := rfl
@[simp] theorem Group.setT_s (g : Group) (n : Nat) (x : BitVec 16) : (g.setT n x).s = g.s := rfl
@[simp] theorem Group.setT_sBad (g : Group) (n : Nat) (x : BitVec 16) : (g.setT n x).sBad = g.sBad := rfl
@[simp] theorem Group.setT_p (g : Group) (n : Nat) (x : BitVec 16) : (g.setT n x).p = g.p := rfl
@[simp] theorem Group.setT_b (g : Group) (n : Nat) (x : BitVec 16) : (g.setT n x).b = g.b := rfl
@[simp] theorem Group.setT_lc (g : Group) (n : Nat) (x : BitVec 16) : (g.setT n x).lc = g.lc := rfl
@[simp] theorem Group.setT_k (g : Group) (n : Nat) (x : BitVec 16) : (g.setT n x).k = g.k := rfl
@[simp] theorem Group.setT_flg (g : Group) (n : Nat) (x : BitVec 16) : (g.setT n x).flg = g.flg := rfl
@[simp] theorem Group.setT_mode (g : Group) (n : Nat) (x : BitVec 16) : (g.setT n x).mode = g.mode := rfl
@[simp] theorem Group.setT_nbv (g : Group) (n : Nat) (x : BitVec 16) : (g.setT n x).nbv = g.nbv := rfl
@[simp] theorem Group.setT_step (g : Group) (n : Nat) (x : BitVec 16) : (g.setT n x).step = g.step := rfl
@[simp] theorem Group.setT_snap (g : Group) (n : Nat) (x : BitVec 16) : (g.setT n x).snap = g.snap := rfl
@[simp] theorem Group.setT_frontier (g : Group) (n : Nat) (x : BitVec 16) : (g.setT n x).frontier = g.frontier := rfl
@[simp] theorem Group.setT_rets (g : Group) (n : Nat) (x : BitVec 16) : (g.setT n x).rets = g.rets := rfl
@[simp] theorem Group.setT_loops (g : Group) (n : Nat) (x : BitVec 16) : (g.setT n x).loops = g.loops := rfl
@[simp] theorem Group.setT_conv (g : Group) (n : Nat) (x : BitVec 16) : (g.setT n x).conv = g.conv := rfl
@[simp] theorem Group.setT_subs (g : Group) (n : Nat) (x : BitVec 16) : (g.setT n x).subs = g.subs := rfl
@[simp] theorem Group.setT_trap (g : Group) (n : Nat) (x : BitVec 16) : (g.setT n x).trap = g.trap := rfl
@[simp] theorem Group.setT_recov (g : Group) (n : Nat) (x : BitVec 16) : (g.setT n x).recov = g.recov := rfl
@[simp] theorem Group.setT_wait (g : Group) (n : Nat) (x : BitVec 16) : (g.setT n x).wait = g.wait := rfl
@[simp] theorem Group.setT_waitPc (g : Group) (n : Nat) (x : BitVec 16) : (g.setT n x).waitPc = g.waitPc := rfl
@[simp] theorem Group.setT_waitOp (g : Group) (n : Nat) (x : BitVec 16) : (g.setT n x).waitOp = g.waitOp := rfl
@[simp] theorem Group.setT_waitNext (g : Group) (n : Nat) (x : BitVec 16) : (g.setT n x).waitNext = g.waitNext := rfl
@[simp] theorem Group.setT_waitPrio (g : Group) (n : Nat) (x : BitVec 16) : (g.setT n x).waitPrio = g.waitPrio := rfl
@[simp] theorem Group.setT_tWait (g : Group) (n : Nat) (x : BitVec 16) : (g.setT n x).tWait = g.tWait := rfl
@[simp] theorem Group.setT_park (g : Group) (n : Nat) (x : BitVec 16) : (g.setT n x).park = g.park := rfl
@[simp] theorem Group.setT_tPark (g : Group) (n : Nat) (x : BitVec 16) : (g.setT n x).tPark = g.tPark := rfl
@[simp] theorem Group.setT_waitFrom (g : Group) (n : Nat) (x : BitVec 16) : (g.setT n x).waitFrom = g.waitFrom := rfl
@[simp] theorem Group.setT_rl (g : Group) (n : Nat) (x : BitVec 16) : (g.setT n x).rl = g.rl := rfl
@[simp] theorem Group.setT_rlArrived (g : Group) (n : Nat) (x : BitVec 16) : (g.setT n x).rlArrived = g.rlArrived := rfl
@[simp] theorem Group.setT_rlOrder (g : Group) (n : Nat) (x : BitVec 16) : (g.setT n x).rlOrder = g.rlOrder := rfl
@[simp] theorem Group.setT_rlIn (g : Group) (n : Nat) (x : BitVec 16) : (g.setT n x).rlIn = g.rlIn := rfl
@[simp] theorem Group.setT_rlGone (g : Group) (n : Nat) (x : BitVec 16) : (g.setT n x).rlGone = g.rlGone := rfl
@[simp] theorem Group.setT_rlDepth (g : Group) (n : Nat) (x : BitVec 16) : (g.setT n x).rlDepth = g.rlDepth := rfl
@[simp] theorem Group.setT_barAt (g : Group) (n : Nat) (x : BitVec 16) : (g.setT n x).barAt = g.barAt := rfl
@[simp] theorem Group.setT_region (g : Group) (n : Nat) (x : BitVec 16) : (g.setT n x).region = g.region := rfl
@[simp] theorem Group.setT_windows (g : Group) (n : Nat) (x : BitVec 16) : (g.setT n x).windows = g.windows := rfl
@[simp] theorem Group.setT_locks (g : Group) (n : Nat) (x : BitVec 16) : (g.setT n x).locks = g.locks := rfl
@[simp] theorem Group.setT_gone (g : Group) (n : Nat) (x : BitVec 16) : (g.setT n x).gone = g.gone := rfl
@[simp] theorem Group.setT_aging (g : Group) (n : Nat) (x : BitVec 16) : (g.setT n x).aging = g.aging := rfl
@[simp] theorem Group.setT_outstanding (g : Group) (n : Nat) (x : BitVec 16) : (g.setT n x).outstanding = g.outstanding := rfl
@[simp] theorem Group.setT_draining (g : Group) (n : Nat) (x : BitVec 16) : (g.setT n x).draining = g.draining := rfl
@[simp] theorem Group.setT_lantern (g : Group) (n : Nat) (x : BitVec 16) : (g.setT n x).lantern = g.lantern := rfl
@[simp] theorem Group.setT_lanternAsk (g : Group) (n : Nat) (x : BitVec 16) : (g.setT n x).lanternAsk = g.lanternAsk := rfl
@[simp] theorem Group.setT_lanternIdle (g : Group) (n : Nat) (x : BitVec 16) : (g.setT n x).lanternIdle = g.lanternIdle := rfl
@[simp] theorem Group.setT_evicted (g : Group) (n : Nat) (x : BitVec 16) : (g.setT n x).evicted = g.evicted := rfl
@[simp] theorem Group.setT_lineUse (g : Group) (n : Nat) (x : BitVec 16) : (g.setT n x).lineUse = g.lineUse := rfl
@[simp] theorem Group.setT_lastIssue (g : Group) (n : Nat) (x : BitVec 16) : (g.setT n x).lastIssue = g.lastIssue := rfl
@[simp] theorem Group.setT_burst (g : Group) (n : Nat) (x : BitVec 16) : (g.setT n x).burst = g.burst := rfl
@[simp] theorem Group.setT_viaTrap (g : Group) (n : Nat) (x : BitVec 16) : (g.setT n x).viaTrap = g.viaTrap := rfl
@[simp] theorem Group.setT_firstCause (g : Group) (n : Nat) (x : BitVec 16) : (g.setT n x).firstCause = g.firstCause := rfl
@[simp] theorem Group.setT_noPage (g : Group) (n : Nat) (x : BitVec 16) : (g.setT n x).noPage = g.noPage := rfl
@[simp] theorem Group.setT_promote (g : Group) (n : Nat) (x : BitVec 16) : (g.setT n x).promote = g.promote := rfl
@[simp] theorem Group.setT_errAt (g : Group) (n : Nat) (x : BitVec 16) : (g.setT n x).errAt = g.errAt := rfl
@[simp] theorem Group.setT_lastLvl (g : Group) (n : Nat) (x : BitVec 16) : (g.setT n x).lastLvl = g.lastLvl := rfl
@[simp] theorem Group.raiseFlags_live (g : Group) (f : Flags) : (g.raiseFlags f).live = g.live := rfl
@[simp] theorem Group.raiseFlags_team (g : Group) (f : Flags) : (g.raiseFlags f).team = g.team := rfl
@[simp] theorem Group.raiseFlags_gid (g : Group) (f : Flags) : (g.raiseFlags f).gid = g.gid := rfl
@[simp] theorem Group.raiseFlags_started (g : Group) (f : Flags) : (g.raiseFlags f).started = g.started := rfl
@[simp] theorem Group.raiseFlags_cls (g : Group) (f : Flags) : (g.raiseFlags f).cls = g.cls := rfl
@[simp] theorem Group.raiseFlags_nv (g : Group) (f : Flags) : (g.raiseFlags f).nv = g.nv := rfl
@[simp] theorem Group.raiseFlags_ns (g : Group) (f : Flags) : (g.raiseFlags f).ns = g.ns := rfl
@[simp] theorem Group.raiseFlags_nb (g : Group) (f : Flags) : (g.raiseFlags f).nb = g.nb := rfl
@[simp] theorem Group.raiseFlags_v (g : Group) (f : Flags) : (g.raiseFlags f).v = g.v := rfl
@[simp] theorem Group.raiseFlags_vBad (g : Group) (f : Flags) : (g.raiseFlags f).vBad = g.vBad := rfl
@[simp] theorem Group.raiseFlags_s (g : Group) (f : Flags) : (g.raiseFlags f).s = g.s := rfl
@[simp] theorem Group.raiseFlags_sBad (g : Group) (f : Flags) : (g.raiseFlags f).sBad = g.sBad := rfl
@[simp] theorem Group.raiseFlags_p (g : Group) (f : Flags) : (g.raiseFlags f).p = g.p := rfl
@[simp] theorem Group.raiseFlags_b (g : Group) (f : Flags) : (g.raiseFlags f).b = g.b := rfl
@[simp] theorem Group.raiseFlags_lc (g : Group) (f : Flags) : (g.raiseFlags f).lc = g.lc := rfl
@[simp] theorem Group.raiseFlags_k (g : Group) (f : Flags) : (g.raiseFlags f).k = g.k := rfl
@[simp] theorem Group.raiseFlags_t (g : Group) (f : Flags) : (g.raiseFlags f).t = g.t := rfl
@[simp] theorem Group.raiseFlags_mode (g : Group) (f : Flags) : (g.raiseFlags f).mode = g.mode := rfl
@[simp] theorem Group.raiseFlags_nbv (g : Group) (f : Flags) : (g.raiseFlags f).nbv = g.nbv := rfl
@[simp] theorem Group.raiseFlags_step (g : Group) (f : Flags) : (g.raiseFlags f).step = g.step := rfl
@[simp] theorem Group.raiseFlags_snap (g : Group) (f : Flags) : (g.raiseFlags f).snap = g.snap := rfl
@[simp] theorem Group.raiseFlags_frontier (g : Group) (f : Flags) : (g.raiseFlags f).frontier = g.frontier := rfl
@[simp] theorem Group.raiseFlags_rets (g : Group) (f : Flags) : (g.raiseFlags f).rets = g.rets := rfl
@[simp] theorem Group.raiseFlags_loops (g : Group) (f : Flags) : (g.raiseFlags f).loops = g.loops := rfl
@[simp] theorem Group.raiseFlags_conv (g : Group) (f : Flags) : (g.raiseFlags f).conv = g.conv := rfl
@[simp] theorem Group.raiseFlags_subs (g : Group) (f : Flags) : (g.raiseFlags f).subs = g.subs := rfl
@[simp] theorem Group.raiseFlags_trap (g : Group) (f : Flags) : (g.raiseFlags f).trap = g.trap := rfl
@[simp] theorem Group.raiseFlags_recov (g : Group) (f : Flags) : (g.raiseFlags f).recov = g.recov := rfl
@[simp] theorem Group.raiseFlags_wait (g : Group) (f : Flags) : (g.raiseFlags f).wait = g.wait := rfl
@[simp] theorem Group.raiseFlags_waitPc (g : Group) (f : Flags) : (g.raiseFlags f).waitPc = g.waitPc := rfl
@[simp] theorem Group.raiseFlags_waitOp (g : Group) (f : Flags) : (g.raiseFlags f).waitOp = g.waitOp := rfl
@[simp] theorem Group.raiseFlags_waitNext (g : Group) (f : Flags) : (g.raiseFlags f).waitNext = g.waitNext := rfl
@[simp] theorem Group.raiseFlags_waitPrio (g : Group) (f : Flags) : (g.raiseFlags f).waitPrio = g.waitPrio := rfl
@[simp] theorem Group.raiseFlags_tWait (g : Group) (f : Flags) : (g.raiseFlags f).tWait = g.tWait := rfl
@[simp] theorem Group.raiseFlags_park (g : Group) (f : Flags) : (g.raiseFlags f).park = g.park := rfl
@[simp] theorem Group.raiseFlags_tPark (g : Group) (f : Flags) : (g.raiseFlags f).tPark = g.tPark := rfl
@[simp] theorem Group.raiseFlags_waitFrom (g : Group) (f : Flags) : (g.raiseFlags f).waitFrom = g.waitFrom := rfl
@[simp] theorem Group.raiseFlags_rl (g : Group) (f : Flags) : (g.raiseFlags f).rl = g.rl := rfl
@[simp] theorem Group.raiseFlags_rlArrived (g : Group) (f : Flags) : (g.raiseFlags f).rlArrived = g.rlArrived := rfl
@[simp] theorem Group.raiseFlags_rlOrder (g : Group) (f : Flags) : (g.raiseFlags f).rlOrder = g.rlOrder := rfl
@[simp] theorem Group.raiseFlags_rlIn (g : Group) (f : Flags) : (g.raiseFlags f).rlIn = g.rlIn := rfl
@[simp] theorem Group.raiseFlags_rlGone (g : Group) (f : Flags) : (g.raiseFlags f).rlGone = g.rlGone := rfl
@[simp] theorem Group.raiseFlags_rlDepth (g : Group) (f : Flags) : (g.raiseFlags f).rlDepth = g.rlDepth := rfl
@[simp] theorem Group.raiseFlags_barAt (g : Group) (f : Flags) : (g.raiseFlags f).barAt = g.barAt := rfl
@[simp] theorem Group.raiseFlags_region (g : Group) (f : Flags) : (g.raiseFlags f).region = g.region := rfl
@[simp] theorem Group.raiseFlags_windows (g : Group) (f : Flags) : (g.raiseFlags f).windows = g.windows := rfl
@[simp] theorem Group.raiseFlags_locks (g : Group) (f : Flags) : (g.raiseFlags f).locks = g.locks := rfl
@[simp] theorem Group.raiseFlags_gone (g : Group) (f : Flags) : (g.raiseFlags f).gone = g.gone := rfl
@[simp] theorem Group.raiseFlags_aging (g : Group) (f : Flags) : (g.raiseFlags f).aging = g.aging := rfl
@[simp] theorem Group.raiseFlags_outstanding (g : Group) (f : Flags) : (g.raiseFlags f).outstanding = g.outstanding := rfl
@[simp] theorem Group.raiseFlags_draining (g : Group) (f : Flags) : (g.raiseFlags f).draining = g.draining := rfl
@[simp] theorem Group.raiseFlags_lantern (g : Group) (f : Flags) : (g.raiseFlags f).lantern = g.lantern := rfl
@[simp] theorem Group.raiseFlags_lanternAsk (g : Group) (f : Flags) : (g.raiseFlags f).lanternAsk = g.lanternAsk := rfl
@[simp] theorem Group.raiseFlags_lanternIdle (g : Group) (f : Flags) : (g.raiseFlags f).lanternIdle = g.lanternIdle := rfl
@[simp] theorem Group.raiseFlags_evicted (g : Group) (f : Flags) : (g.raiseFlags f).evicted = g.evicted := rfl
@[simp] theorem Group.raiseFlags_lineUse (g : Group) (f : Flags) : (g.raiseFlags f).lineUse = g.lineUse := rfl
@[simp] theorem Group.raiseFlags_lastIssue (g : Group) (f : Flags) : (g.raiseFlags f).lastIssue = g.lastIssue := rfl
@[simp] theorem Group.raiseFlags_burst (g : Group) (f : Flags) : (g.raiseFlags f).burst = g.burst := rfl
@[simp] theorem Group.raiseFlags_viaTrap (g : Group) (f : Flags) : (g.raiseFlags f).viaTrap = g.viaTrap := rfl
@[simp] theorem Group.raiseFlags_firstCause (g : Group) (f : Flags) : (g.raiseFlags f).firstCause = g.firstCause := rfl
@[simp] theorem Group.raiseFlags_noPage (g : Group) (f : Flags) : (g.raiseFlags f).noPage = g.noPage := rfl
@[simp] theorem Group.raiseFlags_promote (g : Group) (f : Flags) : (g.raiseFlags f).promote = g.promote := rfl
@[simp] theorem Group.raiseFlags_errAt (g : Group) (f : Flags) : (g.raiseFlags f).errAt = g.errAt := rfl
@[simp] theorem Group.raiseFlags_lastLvl (g : Group) (f : Flags) : (g.raiseFlags f).lastLvl = g.lastLvl := rfl
@[simp] theorem Group.dropLanes_live (g : Group) (m : Mask) : (g.dropLanes m).live = g.live := rfl
@[simp] theorem Group.dropLanes_team (g : Group) (m : Mask) : (g.dropLanes m).team = g.team := rfl
@[simp] theorem Group.dropLanes_gid (g : Group) (m : Mask) : (g.dropLanes m).gid = g.gid := rfl
@[simp] theorem Group.dropLanes_started (g : Group) (m : Mask) : (g.dropLanes m).started = g.started := rfl
@[simp] theorem Group.dropLanes_cls (g : Group) (m : Mask) : (g.dropLanes m).cls = g.cls := rfl
@[simp] theorem Group.dropLanes_nv (g : Group) (m : Mask) : (g.dropLanes m).nv = g.nv := rfl
@[simp] theorem Group.dropLanes_ns (g : Group) (m : Mask) : (g.dropLanes m).ns = g.ns := rfl
@[simp] theorem Group.dropLanes_nb (g : Group) (m : Mask) : (g.dropLanes m).nb = g.nb := rfl
@[simp] theorem Group.dropLanes_v (g : Group) (m : Mask) : (g.dropLanes m).v = g.v := rfl
@[simp] theorem Group.dropLanes_vBad (g : Group) (m : Mask) : (g.dropLanes m).vBad = g.vBad := rfl
@[simp] theorem Group.dropLanes_s (g : Group) (m : Mask) : (g.dropLanes m).s = g.s := rfl
@[simp] theorem Group.dropLanes_sBad (g : Group) (m : Mask) : (g.dropLanes m).sBad = g.sBad := rfl
@[simp] theorem Group.dropLanes_p (g : Group) (m : Mask) : (g.dropLanes m).p = g.p := rfl
@[simp] theorem Group.dropLanes_b (g : Group) (m : Mask) : (g.dropLanes m).b = g.b := rfl
@[simp] theorem Group.dropLanes_lc (g : Group) (m : Mask) : (g.dropLanes m).lc = g.lc := rfl
@[simp] theorem Group.dropLanes_k (g : Group) (m : Mask) : (g.dropLanes m).k = g.k := rfl
@[simp] theorem Group.dropLanes_t (g : Group) (m : Mask) : (g.dropLanes m).t = g.t := rfl
@[simp] theorem Group.dropLanes_flg (g : Group) (m : Mask) : (g.dropLanes m).flg = g.flg := rfl
@[simp] theorem Group.dropLanes_mode (g : Group) (m : Mask) : (g.dropLanes m).mode = g.mode := rfl
@[simp] theorem Group.dropLanes_nbv (g : Group) (m : Mask) : (g.dropLanes m).nbv = g.nbv := rfl
@[simp] theorem Group.dropLanes_step (g : Group) (m : Mask) : (g.dropLanes m).step = g.step := rfl
@[simp] theorem Group.dropLanes_snap (g : Group) (m : Mask) : (g.dropLanes m).snap = g.snap := rfl
@[simp] theorem Group.dropLanes_rets (g : Group) (m : Mask) : (g.dropLanes m).rets = g.rets := rfl
@[simp] theorem Group.dropLanes_loops (g : Group) (m : Mask) : (g.dropLanes m).loops = g.loops := rfl
@[simp] theorem Group.dropLanes_conv (g : Group) (m : Mask) : (g.dropLanes m).conv = g.conv := rfl
@[simp] theorem Group.dropLanes_subs (g : Group) (m : Mask) : (g.dropLanes m).subs = g.subs := rfl
@[simp] theorem Group.dropLanes_trap (g : Group) (m : Mask) : (g.dropLanes m).trap = g.trap := rfl
@[simp] theorem Group.dropLanes_recov (g : Group) (m : Mask) : (g.dropLanes m).recov = g.recov := rfl
@[simp] theorem Group.dropLanes_wait (g : Group) (m : Mask) : (g.dropLanes m).wait = g.wait := rfl
@[simp] theorem Group.dropLanes_waitPc (g : Group) (m : Mask) : (g.dropLanes m).waitPc = g.waitPc := rfl
@[simp] theorem Group.dropLanes_waitOp (g : Group) (m : Mask) : (g.dropLanes m).waitOp = g.waitOp := rfl
@[simp] theorem Group.dropLanes_waitNext (g : Group) (m : Mask) : (g.dropLanes m).waitNext = g.waitNext := rfl
@[simp] theorem Group.dropLanes_waitPrio (g : Group) (m : Mask) : (g.dropLanes m).waitPrio = g.waitPrio := rfl
@[simp] theorem Group.dropLanes_tWait (g : Group) (m : Mask) : (g.dropLanes m).tWait = g.tWait := rfl
@[simp] theorem Group.dropLanes_park (g : Group) (m : Mask) : (g.dropLanes m).park = g.park := rfl
@[simp] theorem Group.dropLanes_tPark (g : Group) (m : Mask) : (g.dropLanes m).tPark = g.tPark := rfl
@[simp] theorem Group.dropLanes_waitFrom (g : Group) (m : Mask) : (g.dropLanes m).waitFrom = g.waitFrom := rfl
@[simp] theorem Group.dropLanes_rl (g : Group) (m : Mask) : (g.dropLanes m).rl = g.rl := rfl
@[simp] theorem Group.dropLanes_rlArrived (g : Group) (m : Mask) : (g.dropLanes m).rlArrived = g.rlArrived := rfl
@[simp] theorem Group.dropLanes_rlOrder (g : Group) (m : Mask) : (g.dropLanes m).rlOrder = g.rlOrder := rfl
@[simp] theorem Group.dropLanes_rlIn (g : Group) (m : Mask) : (g.dropLanes m).rlIn = g.rlIn := rfl
@[simp] theorem Group.dropLanes_rlGone (g : Group) (m : Mask) : (g.dropLanes m).rlGone = g.rlGone := rfl
@[simp] theorem Group.dropLanes_rlDepth (g : Group) (m : Mask) : (g.dropLanes m).rlDepth = g.rlDepth := rfl
@[simp] theorem Group.dropLanes_barAt (g : Group) (m : Mask) : (g.dropLanes m).barAt = g.barAt := rfl
@[simp] theorem Group.dropLanes_region (g : Group) (m : Mask) : (g.dropLanes m).region = g.region := rfl
@[simp] theorem Group.dropLanes_windows (g : Group) (m : Mask) : (g.dropLanes m).windows = g.windows := rfl
@[simp] theorem Group.dropLanes_locks (g : Group) (m : Mask) : (g.dropLanes m).locks = g.locks := rfl
@[simp] theorem Group.dropLanes_gone (g : Group) (m : Mask) : (g.dropLanes m).gone = g.gone := rfl
@[simp] theorem Group.dropLanes_aging (g : Group) (m : Mask) : (g.dropLanes m).aging = g.aging := rfl
@[simp] theorem Group.dropLanes_outstanding (g : Group) (m : Mask) : (g.dropLanes m).outstanding = g.outstanding := rfl
@[simp] theorem Group.dropLanes_draining (g : Group) (m : Mask) : (g.dropLanes m).draining = g.draining := rfl
@[simp] theorem Group.dropLanes_lantern (g : Group) (m : Mask) : (g.dropLanes m).lantern = g.lantern := rfl
@[simp] theorem Group.dropLanes_lanternAsk (g : Group) (m : Mask) : (g.dropLanes m).lanternAsk = g.lanternAsk := rfl
@[simp] theorem Group.dropLanes_lanternIdle (g : Group) (m : Mask) : (g.dropLanes m).lanternIdle = g.lanternIdle := rfl
@[simp] theorem Group.dropLanes_evicted (g : Group) (m : Mask) : (g.dropLanes m).evicted = g.evicted := rfl
@[simp] theorem Group.dropLanes_lineUse (g : Group) (m : Mask) : (g.dropLanes m).lineUse = g.lineUse := rfl
@[simp] theorem Group.dropLanes_lastIssue (g : Group) (m : Mask) : (g.dropLanes m).lastIssue = g.lastIssue := rfl
@[simp] theorem Group.dropLanes_burst (g : Group) (m : Mask) : (g.dropLanes m).burst = g.burst := rfl
@[simp] theorem Group.dropLanes_viaTrap (g : Group) (m : Mask) : (g.dropLanes m).viaTrap = g.viaTrap := rfl
@[simp] theorem Group.dropLanes_firstCause (g : Group) (m : Mask) : (g.dropLanes m).firstCause = g.firstCause := rfl
@[simp] theorem Group.dropLanes_noPage (g : Group) (m : Mask) : (g.dropLanes m).noPage = g.noPage := rfl
@[simp] theorem Group.dropLanes_promote (g : Group) (m : Mask) : (g.dropLanes m).promote = g.promote := rfl
@[simp] theorem Group.dropLanes_errAt (g : Group) (m : Mask) : (g.dropLanes m).errAt = g.errAt := rfl
@[simp] theorem Group.dropLanes_lastLvl (g : Group) (m : Mask) : (g.dropLanes m).lastLvl = g.lastLvl := rfl
@[simp] theorem Group.dropLantern_live (g : Group)  : (g.dropLantern ).live = g.live := rfl
@[simp] theorem Group.dropLantern_team (g : Group)  : (g.dropLantern ).team = g.team := rfl
@[simp] theorem Group.dropLantern_gid (g : Group)  : (g.dropLantern ).gid = g.gid := rfl
@[simp] theorem Group.dropLantern_started (g : Group)  : (g.dropLantern ).started = g.started := rfl
@[simp] theorem Group.dropLantern_cls (g : Group)  : (g.dropLantern ).cls = g.cls := rfl
@[simp] theorem Group.dropLantern_nv (g : Group)  : (g.dropLantern ).nv = g.nv := rfl
@[simp] theorem Group.dropLantern_ns (g : Group)  : (g.dropLantern ).ns = g.ns := rfl
@[simp] theorem Group.dropLantern_nb (g : Group)  : (g.dropLantern ).nb = g.nb := rfl
@[simp] theorem Group.dropLantern_v (g : Group)  : (g.dropLantern ).v = g.v := rfl
@[simp] theorem Group.dropLantern_vBad (g : Group)  : (g.dropLantern ).vBad = g.vBad := rfl
@[simp] theorem Group.dropLantern_s (g : Group)  : (g.dropLantern ).s = g.s := rfl
@[simp] theorem Group.dropLantern_sBad (g : Group)  : (g.dropLantern ).sBad = g.sBad := rfl
@[simp] theorem Group.dropLantern_p (g : Group)  : (g.dropLantern ).p = g.p := rfl
@[simp] theorem Group.dropLantern_b (g : Group)  : (g.dropLantern ).b = g.b := rfl
@[simp] theorem Group.dropLantern_lc (g : Group)  : (g.dropLantern ).lc = g.lc := rfl
@[simp] theorem Group.dropLantern_k (g : Group)  : (g.dropLantern ).k = g.k := rfl
@[simp] theorem Group.dropLantern_t (g : Group)  : (g.dropLantern ).t = g.t := rfl
@[simp] theorem Group.dropLantern_flg (g : Group)  : (g.dropLantern ).flg = g.flg := rfl
@[simp] theorem Group.dropLantern_mode (g : Group)  : (g.dropLantern ).mode = g.mode := rfl
@[simp] theorem Group.dropLantern_nbv (g : Group)  : (g.dropLantern ).nbv = g.nbv := rfl
@[simp] theorem Group.dropLantern_step (g : Group)  : (g.dropLantern ).step = g.step := rfl
@[simp] theorem Group.dropLantern_snap (g : Group)  : (g.dropLantern ).snap = g.snap := rfl
@[simp] theorem Group.dropLantern_frontier (g : Group)  : (g.dropLantern ).frontier = g.frontier := rfl
@[simp] theorem Group.dropLantern_rets (g : Group)  : (g.dropLantern ).rets = g.rets := rfl
@[simp] theorem Group.dropLantern_loops (g : Group)  : (g.dropLantern ).loops = g.loops := rfl
@[simp] theorem Group.dropLantern_conv (g : Group)  : (g.dropLantern ).conv = g.conv := rfl
@[simp] theorem Group.dropLantern_subs (g : Group)  : (g.dropLantern ).subs = g.subs := rfl
@[simp] theorem Group.dropLantern_trap (g : Group)  : (g.dropLantern ).trap = g.trap := rfl
@[simp] theorem Group.dropLantern_recov (g : Group)  : (g.dropLantern ).recov = g.recov := rfl
@[simp] theorem Group.dropLantern_wait (g : Group)  : (g.dropLantern ).wait = g.wait := rfl
@[simp] theorem Group.dropLantern_waitPc (g : Group)  : (g.dropLantern ).waitPc = g.waitPc := rfl
@[simp] theorem Group.dropLantern_waitOp (g : Group)  : (g.dropLantern ).waitOp = g.waitOp := rfl
@[simp] theorem Group.dropLantern_waitNext (g : Group)  : (g.dropLantern ).waitNext = g.waitNext := rfl
@[simp] theorem Group.dropLantern_waitPrio (g : Group)  : (g.dropLantern ).waitPrio = g.waitPrio := rfl
@[simp] theorem Group.dropLantern_tWait (g : Group)  : (g.dropLantern ).tWait = g.tWait := rfl
@[simp] theorem Group.dropLantern_park (g : Group)  : (g.dropLantern ).park = g.park := rfl
@[simp] theorem Group.dropLantern_tPark (g : Group)  : (g.dropLantern ).tPark = g.tPark := rfl
@[simp] theorem Group.dropLantern_waitFrom (g : Group)  : (g.dropLantern ).waitFrom = g.waitFrom := rfl
@[simp] theorem Group.dropLantern_rl (g : Group)  : (g.dropLantern ).rl = g.rl := rfl
@[simp] theorem Group.dropLantern_rlArrived (g : Group)  : (g.dropLantern ).rlArrived = g.rlArrived := rfl
@[simp] theorem Group.dropLantern_rlOrder (g : Group)  : (g.dropLantern ).rlOrder = g.rlOrder := rfl
@[simp] theorem Group.dropLantern_rlIn (g : Group)  : (g.dropLantern ).rlIn = g.rlIn := rfl
@[simp] theorem Group.dropLantern_rlGone (g : Group)  : (g.dropLantern ).rlGone = g.rlGone := rfl
@[simp] theorem Group.dropLantern_rlDepth (g : Group)  : (g.dropLantern ).rlDepth = g.rlDepth := rfl
@[simp] theorem Group.dropLantern_barAt (g : Group)  : (g.dropLantern ).barAt = g.barAt := rfl
@[simp] theorem Group.dropLantern_region (g : Group)  : (g.dropLantern ).region = g.region := rfl
@[simp] theorem Group.dropLantern_windows (g : Group)  : (g.dropLantern ).windows = g.windows := rfl
@[simp] theorem Group.dropLantern_locks (g : Group)  : (g.dropLantern ).locks = g.locks := rfl
@[simp] theorem Group.dropLantern_gone (g : Group)  : (g.dropLantern ).gone = g.gone := rfl
@[simp] theorem Group.dropLantern_aging (g : Group)  : (g.dropLantern ).aging = g.aging := rfl
@[simp] theorem Group.dropLantern_outstanding (g : Group)  : (g.dropLantern ).outstanding = g.outstanding := rfl
@[simp] theorem Group.dropLantern_draining (g : Group)  : (g.dropLantern ).draining = g.draining := rfl
@[simp] theorem Group.dropLantern_lanternAsk (g : Group)  : (g.dropLantern ).lanternAsk = g.lanternAsk := rfl
@[simp] theorem Group.dropLantern_evicted (g : Group)  : (g.dropLantern ).evicted = g.evicted := rfl
@[simp] theorem Group.dropLantern_lineUse (g : Group)  : (g.dropLantern ).lineUse = g.lineUse := rfl
@[simp] theorem Group.dropLantern_lastIssue (g : Group)  : (g.dropLantern ).lastIssue = g.lastIssue := rfl
@[simp] theorem Group.dropLantern_burst (g : Group)  : (g.dropLantern ).burst = g.burst := rfl
@[simp] theorem Group.dropLantern_viaTrap (g : Group)  : (g.dropLantern ).viaTrap = g.viaTrap := rfl
@[simp] theorem Group.dropLantern_firstCause (g : Group)  : (g.dropLantern ).firstCause = g.firstCause := rfl
@[simp] theorem Group.dropLantern_noPage (g : Group)  : (g.dropLantern ).noPage = g.noPage := rfl
@[simp] theorem Group.dropLantern_promote (g : Group)  : (g.dropLantern ).promote = g.promote := rfl
@[simp] theorem Group.dropLantern_errAt (g : Group)  : (g.dropLantern ).errAt = g.errAt := rfl
@[simp] theorem Group.dropLantern_lastLvl (g : Group)  : (g.dropLantern ).lastLvl = g.lastLvl := rfl

end Sys2Proof.Machine
end

