-- ==== Sys2Proof/Laws/Issue.lean ====
section
/-! SUPPORT. What the issue of one instruction comes to when nothing stands in its way: the checks that begin
it, the lanes it runs for, and where they go. -/

namespace Sys2Proof.Machine

open Sys2Proof

/-! ### One group written over -/

@[simp] theorem State.setGrp_setGrp (s : State) (n : Nat) (g h : Group) : (s.setGrp n g).setGrp n h = s.setGrp n h := by
  simp [State.setGrp]

theorem State.modGrp_setGrp (s : State) (n : Nat) (g : Group) (f : Group → Group) :
    (s.setGrp n g).modGrp n f = s.setGrp n (f g) := by simp [State.modGrp]

theorem State.modGrp_modGrp (s : State) (n : Nat) (f h : Group → Group) :
    (s.modGrp n f).modGrp n h = s.modGrp n (fun g => h (f g)) := by simp [State.modGrp]

theorem onlyGroup_setGrp (s : State) (g : Group) : onlyGroup s (s.setGrp s.cur g) :=
  ⟨rfl, fun n h => by simp [h]⟩

/-- An instruction in issue whose group is `g` and whose state is `s` but for that group. -/
def Iss.overlay (i : Iss) (s : State) (g : Group) : Prop :=
  i.n = s.cur ∧ i.g = g ∧ (i.s = s ∨ i.s = s.setGrp s.cur g)

theorem Iss.over_mod {i : Iss} {s : State} {g : Group} (h : i.overlay s g) (f : Group → Group) :
    (i.mod f).overlay s (f g) ∧ i.mod f = { i with s := s.setGrp s.cur (f g) } := by
  obtain ⟨hn, hg, hs⟩ := h
  have : (i.mod f).s = s.setGrp s.cur (f g) := by
    simp only [Iss.g] at hg
    rcases hs with hs | hs <;> simp only [Iss.mod, State.modGrp, hg] <;> rw [hs, hn] <;> simp
  refine ⟨⟨hn, ?_, .inr this⟩, ?_⟩
  · show (i.mod f).s.grp i.n = _
    rw [this, hn]; simp
  · rw [← this]; rfl

/-! ### Instructions that begin well -/

theorem violation_none (t : Team) (g : Group) (act : Mask) (op : Nat) (sh : Shape) (x : XForm)
    (h : g.windows = []) : (violation t g act op sh x).1 = 0#32 := by
  simp [violation, h, orMasks]

/-- The instruction in issue over a later state. -/
def issueAt (i : Instr) (s t : State) : Iss := { issueOf i s with s := t }

/-- An instruction that is admitted begins with no fault and no change but to an open region. -/
theorem begin_admits {i : Instr} {s : State} (h : s.admits i = true) : begin_ i s true = issueAt i s (s.begun i) := by
  simp only [State.admits, Bool.and_eq_true, Bool.not_eq_true', List.isEmpty_iff] at h
  obtain ⟨⟨⟨⟨⟨⟨he, hwf⟩, hc⟩, hw⟩, ht⟩, hh⟩, -⟩ := h
  have h0 : (issueOf i s).clearWindows = issueOf i s := by
    unfold Iss.clearWindows
    rw [show (issueOf i s).g.windows = [] from hw]; simp
  have h1 : (issueOf i s).clearRegion = issueAt i s (s.begun i) := by
    unfold Iss.clearRegion State.begun issueAt
    rw [show (issueOf i s).g = s.me from rfl, show (issueOf i s).op = i.op from rfl,
      show (issueOf i s).fails = false from by simp [Iss.fails, issueOf], Bool.not_false, Bool.and_true]
    split <;> rfl
  have h2 : (issueOf i s).checkWindows i.fields = issueOf i s := by
    unfold Iss.checkWindows
    rw [if_pos]
    exact violation_none _ _ _ _ _ _ hw
  have h3 : (issueOf i s).checkHandler = issueOf i s := by
    unfold Iss.checkHandler
    rw [show (issueOf i s).g = s.me from rfl, if_neg]
    rw [show (issueOf i s).op = i.op from rfl, hh]; simp
  unfold begin_
  rw [hwf, show countsOk s.me (shapeOf i.op.toNat i.fields |>.uses i.fields) = true from hc]
  simp only [Bool.not_true, Bool.or_self, Bool.false_eq_true, if_false, h0]
  rw [h2, h3, h1, if_neg]
  rw [show (issueOf i s).trap = s.entry.trap from rfl, ht]; simp

theorem begun_cur (s : State) (i : Instr) : (s.begun i).cur = s.cur := by unfold State.begun; split <;> rfl

/-- The group at the beginning of an issue. -/
theorem begun_me (s : State) (i : Instr) :
    (s.begun i).me = if closesRegion i.op.toNat && s.me.region.isSome then { s.me with region := none } else s.me := by
  have e : (s.begun i).me = (s.begun i).grp s.cur := by unfold State.me; rw [begun_cur]
  rw [e]
  unfold State.begun
  split
  · simp only [State.modMe, State.modGrp, State.setGrp_grp, if_true]; rfl
  · rfl

theorem issueAt_over (i : Instr) (s : State) : (issueAt i s (s.begun i)).overlay s (s.begun i).me := by
  refine ⟨rfl, ?_, ?_⟩
  · show (s.begun i).grp s.cur = (s.begun i).grp (s.begun i).cur
    rw [begun_cur]
  · show s.begun i = s ∨ s.begun i = s.setGrp s.cur (s.begun i).me
    rw [begun_me]
    unfold State.begun
    split
    · exact .inr rfl
    · exact .inl rfl

theorem begun_over (i : Instr) (s : State) : (issueAt i s (s.begun i)).overlay (s.begun i) (s.begun i).me :=
  ⟨(begun_cur s i).symm, by show (s.begun i).grp s.cur = _; rw [← begun_cur s i]; rfl, .inl rfl⟩

/-! ### Where lanes stand -/

theorem mem_insertEntry (e : Entry) (l : List Entry) :
    ∃ f ∈ insertEntry e l, e.mask &&& f.mask = e.mask ∧ f.pc = e.pc ∧ f.prio = e.prio ∧ f.trap = e.trap := by
  induction l with
  | nil => exact ⟨e, by simp [insertEntry], by simp⟩
  | cons f r ih =>
    unfold insertEntry
    split
    · rename_i h
      refine ⟨_, List.mem_cons_self, ?_, h.1.symm, h.2.1.symm, h.2.2.symm⟩
      ext i; simp; exact fun h => .inr h
    · split
      · exact ⟨e, List.mem_cons_self, by simp⟩
      · obtain ⟨x, hx, hp⟩ := ih
        exact ⟨x, List.mem_cons_of_mem _ hx, hp⟩

theorem insertEntry_keeps (e : Entry) (l : List Entry) (f : Entry) (h : f ∈ l) :
    ∃ f' ∈ insertEntry e l, f.mask &&& f'.mask = f.mask ∧ f'.pc = f.pc ∧ f'.prio = f.prio ∧ f'.trap = f.trap := by
  induction l with
  | nil => cases h
  | cons a r ih =>
    unfold insertEntry
    split
    · rcases List.mem_cons.1 h with rfl | h
      · refine ⟨_, List.mem_cons_self, ?_, rfl, rfl, rfl⟩
        ext i; simp; exact fun h => .inl h
      · exact ⟨f, List.mem_cons_of_mem _ h, by simp⟩
    · split
      · exact ⟨f, List.mem_cons_of_mem _ h, by simp⟩
      · rcases List.mem_cons.1 h with rfl | h
        · exact ⟨f, List.mem_cons_self, by simp⟩
        · obtain ⟨x, hx, hp⟩ := ih h
          exact ⟨x, List.mem_cons_of_mem _ hx, hp⟩

theorem bit_of_and_eq {a b : Mask} {l : Nat} (h : a &&& b = a) (ha : a.getLsbD l = true) : b.getLsbD l = true := by
  rw [← h] at ha; simp at ha; exact ha.2

/-- Lanes that join the frontier stand where they joined. -/
theorem standsAt_addLanes (g : Group) (pc : VAddr) (prio : Prio) (m : Mask) (trap : Bool) (l : Nat)
    (h : m.getLsbD l = true) : (g.addLanes pc prio m trap).standsAt l pc prio trap := by
  unfold Group.addLanes
  split
  · rename_i h0; subst h0; simp at h
  · obtain ⟨f, hf, hm, h1, h2, h3⟩ := mem_insertEntry ⟨pc, prio, m, trap, 0⟩ g.frontier
    exact .inl ⟨f, hf, bit_of_and_eq hm h, h1, h2, h3⟩

/-- Lanes that join the frontier leave the others where they stand. -/
theorem standsAt_addLanes_keeps (g : Group) (pc pc' : VAddr) (prio prio' : Prio) (m : Mask) (trap trap' : Bool) (l : Nat)
    (h : g.standsAt l pc' prio' trap') : (g.addLanes pc prio m trap).standsAt l pc' prio' trap' := by
  unfold Group.addLanes
  split
  · exact h
  · rcases h with ⟨e, he, hb, h1, h2, h3⟩ | h
    · obtain ⟨f, hf, hm, g1, g2, g3⟩ := insertEntry_keeps ⟨pc, prio, m, trap, 0⟩ g.frontier e he
      exact .inl ⟨f, hf, bit_of_and_eq hm hb, g1.trans h1, g2.trans h2, g3.trans h3⟩
    · exact .inr h

/-- The walk of `Group.arrive` over the loops. -/
def parkWalk (pc : VAddr) (trap : Bool) (from_ : VAddr) : List LoopCtx → List LoopCtx × Mask × Mask →
    List LoopCtx × Mask × Mask
  | [], acc => acc
  | c :: r, acc =>
    let mine := acc.2.1 &&& c.set
    let park := if c.stop = pc then mine else 0#32
    let inTrap := if trap then c.trapTail ||| park else c.trapTail
    parkWalk pc trap from_ r (acc.1 ++ [if park = 0#32 then c
        else { c with tail := c.tail ||| park, trapTail := inTrap, tailPc := from_ }],
      acc.2.1 &&& ~~~mine, acc.2.2 ||| park)

theorem arrive_eq (g : Group) (pc : VAddr) (prio : Prio) (m : Mask) (trap : Bool) (from_ : VAddr) :
    g.arrive pc prio m trap from_ =
      ({ g with loops := (parkWalk pc trap from_ g.loops ([], m, 0#32)).1 }).addLanes pc prio
        (m &&& ~~~(parkWalk pc trap from_ g.loops ([], m, 0#32)).2.2) trap := by
  have : ∀ (l : List LoopCtx) (acc : List LoopCtx × Mask × Mask),
      l.foldl (fun (acc : List LoopCtx × Mask × Mask) c =>
        let mine := acc.2.1 &&& c.set
        let park := if c.stop = pc then mine else 0#32
        let inTrap := if trap then c.trapTail ||| park else c.trapTail
        (acc.1 ++ [if park = 0#32 then c
            else { c with tail := c.tail ||| park, trapTail := inTrap, tailPc := from_ }],
          acc.2.1 &&& ~~~mine, acc.2.2 ||| park)) acc = parkWalk pc trap from_ l acc := by
    intro l; induction l with
    | nil => intro acc; rfl
    | cons c r ih => intro acc; rw [List.foldl_cons, ih]; rfl
  unfold Group.arrive
  simp only [this]

/-- Lanes counted as parked are at a tail of a loop that ends there. -/
def tailAt (ls : List LoopCtx) (pc : VAddr) (l : Nat) : Prop := ∃ c ∈ ls, c.stop = pc ∧ c.tail.getLsbD l = true

theorem parkWalk_tail (pc : VAddr) (trap : Bool) (from_ : VAddr) (l : Nat) (ls : List LoopCtx) :
    ∀ acc : List LoopCtx × Mask × Mask, (acc.2.2.getLsbD l = true → tailAt acc.1 pc l) →
      (parkWalk pc trap from_ ls acc).2.2.getLsbD l = true → tailAt (parkWalk pc trap from_ ls acc).1 pc l := by
  induction ls with
  | nil => intro acc h; exact h
  | cons c r ih =>
    intro acc h
    refine ih _ ?_
    intro hb
    simp only [BitVec.getLsbD_or, Bool.or_eq_true] at hb
    rcases hb with hb | hb
    · obtain ⟨d, hd, hp⟩ := h hb
      exact ⟨d, List.mem_append_left _ hd, hp⟩
    · by_cases hs : c.stop = pc
      · rw [if_pos hs] at hb
        refine ⟨_, List.mem_append_right _ (List.mem_singleton.2 rfl), ?_⟩
        rw [if_pos hs, if_neg]
        · exact ⟨hs, by simp only [BitVec.getLsbD_or, hb, Bool.or_true]⟩
        · intro h0; rw [h0] at hb; simp at hb
      · rw [if_neg hs] at hb; simp at hb

theorem parkWalk_keeps (pc : VAddr) (trap : Bool) (from_ : VAddr) (l : Nat) (q : VAddr) (ls : List LoopCtx) :
    ∀ acc : List LoopCtx × Mask × Mask, (tailAt acc.1 q l ∨ tailAt ls q l) →
      tailAt (parkWalk pc trap from_ ls acc).1 q l := by
  induction ls with
  | nil =>
    intro acc h
    rcases h with h | ⟨c, hc, -⟩
    · exact h
    · cases hc
  | cons c r ih =>
    rintro acc (⟨d, hd, h⟩ | ⟨d, hd, h⟩)
    · exact ih _ (.inl ⟨d, List.mem_append_left _ hd, h⟩)
    · rcases List.mem_cons.1 hd with rfl | hd
      · refine ih _ (.inl ⟨_, List.mem_append_right _ (List.mem_singleton.2 rfl), ?_⟩)
        by_cases h0 : (if d.stop = pc then acc.2.1 &&& d.set else 0#32) = 0#32
        · rw [if_pos h0]; exact h
        · rw [if_neg h0]
          exact ⟨h.1, by simp only [BitVec.getLsbD_or, h.2, Bool.true_or]⟩
      · exact ih _ (.inr ⟨d, hd, h⟩)

/-- Lanes that reach a position stand there. -/
theorem standsAt_arrive (g : Group) (pc : VAddr) (prio : Prio) (m : Mask) (trap : Bool) (from_ : VAddr) (l : Nat)
    (hl : l < 32) (h : m.getLsbD l = true) : (g.arrive pc prio m trap from_).standsAt l pc prio trap := by
  rw [arrive_eq]
  by_cases hp : (parkWalk pc trap from_ g.loops ([], m, 0#32)).2.2.getLsbD l = true
  · refine standsAt_addLanes_keeps _ _ _ _ _ _ _ _ _ (.inr ?_)
    exact parkWalk_tail pc trap from_ l g.loops ([], m, 0#32) (by simp) hp
  · refine standsAt_addLanes _ _ _ _ _ _ ?_
    simp only [BitVec.getLsbD_and, BitVec.getLsbD_not, h, Bool.true_and]
    simp only [hl, Bool.not_eq_true] at hp ⊢
    simp [hp]

theorem standsAt_arrive_keeps (g : Group) (pc pc' : VAddr) (prio prio' : Prio) (m : Mask) (trap trap' : Bool)
    (from_ : VAddr) (l : Nat) (h : g.standsAt l pc' prio' trap') :
    (g.arrive pc prio m trap from_).standsAt l pc' prio' trap' := by
  rw [arrive_eq]
  refine standsAt_addLanes_keeps _ _ _ _ _ _ _ _ _ ?_
  rcases h with h | h
  · exact .inl h
  · exact .inr (parkWalk_keeps pc trap from_ l pc' g.loops _ (.inr h))

/-! ### The end of an issue -/

@[simp] theorem sameIssue_self (g : Group) : sameIssue g g = g := rfl

theorem sameIssue_trans {a b c : Group} (h : sameIssue a b = a) (k : sameIssue b c = b) : sameIssue a c = a := by
  have : sameIssue a c = sameIssue a (sameIssue b c) := rfl
  rw [this, k, h]

theorem sameIssue_addLanes (g : Group) (pc : VAddr) (prio : Prio) (m : Mask) (trap : Bool) :
    sameIssue g (g.addLanes pc prio m trap) = g := by
  unfold Group.addLanes; split <;> rfl

theorem sameIssue_arrive (g : Group) (pc : VAddr) (prio : Prio) (m : Mask) (trap : Bool) (from_ : VAddr) :
    sameIssue g (g.arrive pc prio m trap from_) = g := by
  rw [arrive_eq]
  have h : sameIssue g { g with loops := (parkWalk pc trap from_ g.loops ([], m, 0#32)).1 } = g := rfl
  exact sameIssue_trans h (sameIssue_addLanes _ _ _ _ _)

theorem sameIssue_moves (ms : List Entry) : ∀ g : Group,
    sameIssue g (ms.foldl (fun g e => g.addLanes e.pc e.prio e.mask e.trap) g) = g := by
  induction ms with
  | nil => intro g; rfl
  | cons e r ih => intro g; exact sameIssue_trans (sameIssue_addLanes _ _ _ _ _) (ih _)

theorem sameIssue_lands (ms : List Entry) (pc : VAddr) : ∀ g : Group,
    sameIssue g (ms.foldl (fun g e => g.arrive e.pc e.prio e.mask e.trap pc) g) = g := by
  induction ms with
  | nil => intro g; rfl
  | cons e r ih => intro g; exact sameIssue_trans (sameIssue_arrive _ _ _ _ _ _) (ih _)

/-- The group after its instruction's lanes have gone on. -/
def Iss.gone (i : Iss) (g : Group) : Group :=
  let multi := !i.trap && decide (1 < g.frontier.length)
  let g := g.dropLanes i.act
  let g := if multi then
      { g with frontier := g.frontier.map fun e => { e with passed := e.passed + 1 } } else g
  let g := i.moves.foldl (fun g e => g.addLanes e.pc e.prio e.mask e.trap) g
  let g := i.lands.foldl (fun g e => g.arrive e.pc e.prio e.mask e.trap i.pc) g
  let g := g.arrive i.next i.prio i.stay i.trap i.pc
  { g with
    promote := if i.trap then g.promote else none
    windows := ((g.windows.map (Window.tick i.act)).filter fun w => !w.left.isEmpty) ++
      (if i.long then newWindows i.la i.run i.dests else []) }

theorem sameIssue_gone (i : Iss) (g : Group) : sameIssue g (i.gone g) = g := by
  unfold Iss.gone
  refine sameIssue_trans ?_ (sameIssue_trans (sameIssue_moves i.moves _)
    (sameIssue_trans (sameIssue_lands i.lands i.pc _) (sameIssue_trans (sameIssue_arrive _ _ _ _ _ _) rfl)))
  split <;> rfl

theorem standsAt_gone_stay (i : Iss) (g : Group) (l : Nat) (hl : l < 32) (h : i.stay.getLsbD l = true) :
    (i.gone g).standsAt l i.next i.prio i.trap := standsAt_arrive _ _ _ _ _ _ l hl h

theorem standsAt_lands_keeps (ms : List Entry) (pc pc' : VAddr) (prio : Prio) (trap : Bool) (l : Nat) : ∀ g : Group,
    g.standsAt l pc' prio trap →
      (ms.foldl (fun g e => g.arrive e.pc e.prio e.mask e.trap pc) g).standsAt l pc' prio trap := by
  induction ms with
  | nil => intro g h; exact h
  | cons e r ih => intro g h; exact ih _ (standsAt_arrive_keeps _ _ _ _ _ _ _ _ _ _ h)

theorem standsAt_lands (ms : List Entry) (pc : VAddr) (l : Nat) (hl : l < 32) (e : Entry) (he : e ∈ ms)
    (hb : e.mask.getLsbD l = true) : ∀ g : Group,
      (ms.foldl (fun g e => g.arrive e.pc e.prio e.mask e.trap pc) g).standsAt l e.pc e.prio e.trap := by
  induction ms with
  | nil => cases he
  | cons d r ih =>
    intro g
    rcases List.mem_cons.1 he with rfl | he
    · exact standsAt_lands_keeps r pc _ _ _ l _ (standsAt_arrive _ _ _ _ _ _ l hl hb)
    · exact ih he _

theorem standsAt_moves_keeps (ms : List Entry) (pc' : VAddr) (prio : Prio) (trap : Bool) (l : Nat) : ∀ g : Group,
    g.standsAt l pc' prio trap →
      (ms.foldl (fun g e => g.addLanes e.pc e.prio e.mask e.trap) g).standsAt l pc' prio trap := by
  induction ms with
  | nil => intro g h; exact h
  | cons e r ih => intro g h; exact ih _ (standsAt_addLanes_keeps _ _ _ _ _ _ _ _ _ h)

theorem standsAt_moves (ms : List Entry) (l : Nat) (e : Entry) (he : e ∈ ms)
    (hb : e.mask.getLsbD l = true) : ∀ g : Group,
      (ms.foldl (fun g e => g.addLanes e.pc e.prio e.mask e.trap) g).standsAt l e.pc e.prio e.trap := by
  induction ms with
  | nil => cases he
  | cons d r ih =>
    intro g
    rcases List.mem_cons.1 he with rfl | he
    · exact standsAt_moves_keeps r _ _ _ l _ (standsAt_addLanes _ _ _ _ _ _ hb)
    · exact ih he _

/-- A lane that an instruction sends somewhere stands there. -/
theorem standsAt_gone_move (i : Iss) (g : Group) (l : Nat) (e : Entry) (he : e ∈ i.moves)
    (hb : e.mask.getLsbD l = true) : (i.gone g).standsAt l e.pc e.prio e.trap :=
  standsAt_arrive_keeps _ _ _ _ _ _ _ _ _ l (standsAt_lands_keeps _ _ _ _ _ _ _ (standsAt_moves _ l e he hb _))

theorem standsAt_gone_land (i : Iss) (g : Group) (l : Nat) (hl : l < 32) (e : Entry) (he : e ∈ i.lands)
    (hb : e.mask.getLsbD l = true) : (i.gone g).standsAt l e.pc e.prio e.trap :=
  standsAt_arrive_keeps _ _ _ _ _ _ _ _ _ l (standsAt_lands _ _ l hl e he hb _)

theorem standsAt_locks (g : Group) (ls : List Lock) (l : Nat) (pc : VAddr) (prio : Prio) (trap : Bool)
    (h : g.standsAt l pc prio trap) : ({ g with locks := ls } : Group).standsAt l pc prio trap := h

/-- What an instruction's group comes to when it goes on: the group with its lanes moved, and the interlock of a
long-latency instruction. -/
theorem advance_over {i : Iss} {s : State} {g : Group} (h : i.overlay s g) :
    ∃ k ls, i.advance = ({ s with serial := k } : State).setGrp s.cur { i.gone g with locks := ls } := by
  obtain ⟨hn, hg, hs⟩ := h
  have e1 : i.s.modGrp i.n i.gone = s.setGrp s.cur (i.gone g) := by
    simp only [Iss.g] at hg
    simp only [State.modGrp, hg]
    rcases hs with hs | hs <;> rw [hs, hn] <;> simp
  have e0 : i.advance = if i.long && !i.dests.isEmpty && i.run != 0#32 then
      let k : Lock := ⟨(i.s.modGrp i.n i.gone).serial, i.run, i.dests.map (BitVec.ofNat 16), i.kind⟩
      ({ i.s.modGrp i.n i.gone with serial := (i.s.modGrp i.n i.gone).serial + 1 }).modGrp i.n
        fun g => { g with locks := g.locks ++ [k] }
    else i.s.modGrp i.n i.gone := rfl
  rw [e0, e1]
  split
  · rw [hn]
    refine ⟨s.serial + 1, (i.gone g).locks ++ [⟨s.serial, i.run, i.dests.map (BitVec.ofNat 16), i.kind⟩], ?_⟩
    show (({ s with serial := s.serial + 1 } : State).setGrp s.cur (i.gone g)).modGrp s.cur _ = _
    rw [State.modGrp_setGrp]
    rfl
  · exact ⟨s.serial, (i.gone g).locks, rfl⟩

theorem except_nil (s : State) (n : Nat) (op : BitVec 8) (pc : VAddr) (prio : Prio) (trap : Bool) :
    s.except n op pc prio trap [] = s := by
  simp [State.except, mergeSoft, oneRecord, Faults.mask, Faults.at, orMasks, firstSome]

/-- An instruction that faults no lane and is not followed by a step trap. -/
theorem out_over {i : Iss} {s : State} {g : Group} (h : i.overlay s g) (hf : i.flts = [])
    (hs : (i.step && !i.trap) = false) :
    ∃ k ls, i.out = .next ((({ s with serial := k } : State).setGrp s.cur { i.gone g with locks := ls }).settle s.cur) := by
  obtain ⟨k, ls, ha⟩ := advance_over h
  refine ⟨k, ls, ?_⟩
  show Host.Outcome.next i.done = _
  unfold Iss.done
  rw [ha, hf]
  simp only [except_nil]
  unfold Iss.stepTrap
  rw [hs, h.1]
  simp

end Sys2Proof.Machine
end

