-- ==== Sys2Proof/Laws/Frontier.lean ====
section
/-! SUPPORT. The order of the frontier (02 R23, R24): what keeps it when lanes leave and join. -/

namespace Sys2Proof.Machine

open Sys2Proof

theorem and_eq_zero_iff {a b : Mask} : a &&& b = 0#32 ↔ ∀ l, a.getLsbD l = true → b.getLsbD l = false := by
  constructor
  · intro h l ha
    have := congrArg (fun x => BitVec.getLsbD x l) h
    simp [ha] at this; exact this
  · intro h
    apply BitVec.eq_of_getLsbD_eq
    intro l _
    cases ha : a.getLsbD l with
    | false => simp [ha]
    | true => simp [h l ha]

theorem orMasks_bit {α : Type} (f : α → Mask) (l : List α) (k : Nat) :
    (orMasks f l).getLsbD k = l.any fun a => (f a).getLsbD k := by
  have : ∀ m : Mask, (l.foldl (fun m a => m ||| f a) m).getLsbD k = (m.getLsbD k || l.any fun a => (f a).getLsbD k) := by
    induction l with
    | nil => intro m; simp
    | cons a r ih => intro m; simp [ih, Bool.or_assoc]
  simp [orMasks, this]

/-- The order of one list of entries. -/
def inOrder (l : List Entry) : Prop :=
  l.Pairwise (fun a b => b.before a = false ∧ (a.pc, a.prio, a.trap) ≠ (b.pc, b.prio, b.trap) ∧
    a.mask &&& b.mask = 0#32) ∧ ∀ e ∈ l, e.mask ≠ 0#32

theorem before_iff (a b : Entry) : a.before b = true ↔
    b.prio.toNat < a.prio.toNat ∨ (a.prio.toNat = b.prio.toNat ∧ a.pc.toNat < b.pc.toNat) := by
  simp only [Entry.before, Bool.or_eq_true, decide_eq_true_eq, Bool.and_eq_true, beq_iff_eq, ← BitVec.toNat_inj]

theorem before_iff_false (a b : Entry) : a.before b = false ↔
    a.prio.toNat ≤ b.prio.toNat ∧ (a.prio.toNat = b.prio.toNat → b.pc.toNat ≤ a.pc.toNat) := by
  rw [← Bool.not_eq_true, before_iff]; omega

theorem mem_insertEntry_of (e : Entry) (l : List Entry) (x : Entry) (h : x ∈ insertEntry e l) :
    x = e ∨ ∃ f ∈ l, x = f ∨ (x = { f with mask := f.mask ||| e.mask } ∧ e.pc = f.pc ∧ e.prio = f.prio ∧ e.trap = f.trap) := by
  induction l with
  | nil => simp [insertEntry] at h; exact .inl h
  | cons f r ih =>
    unfold insertEntry at h
    split at h
    · rename_i hc
      rcases List.mem_cons.1 h with rfl | h
      · exact .inr ⟨f, List.mem_cons_self, .inr ⟨rfl, hc⟩⟩
      · exact .inr ⟨x, List.mem_cons_of_mem _ h, .inl rfl⟩
    · split at h
      · rcases List.mem_cons.1 h with rfl | h
        · exact .inl rfl
        · exact .inr ⟨x, h, .inl rfl⟩
      · rcases List.mem_cons.1 h with rfl | h
        · exact .inr ⟨x, List.mem_cons_self, .inl rfl⟩
        · rcases ih h with h | ⟨f', hf, h⟩
          · exact .inl h
          · exact .inr ⟨f', List.mem_cons_of_mem _ hf, h⟩

/-- A new entry whose lanes stand in no other keeps the order. -/
theorem insertEntry_inOrder (e : Entry) (l : List Entry) (h : inOrder l) (h0 : e.mask ≠ 0#32)
    (hd : ∀ f ∈ l, f.mask &&& e.mask = 0#32) : inOrder (insertEntry e l) := by
  induction l with
  | nil => simp [insertEntry, inOrder, h0]
  | cons f r ih =>
    obtain ⟨hp, hn⟩ := h
    rw [List.pairwise_cons] at hp
    unfold insertEntry
    split
    · rename_i hc
      refine ⟨List.pairwise_cons.2 ⟨fun x hx => ?_, hp.2⟩, fun x hx => ?_⟩
      · obtain ⟨h1, h2, h3⟩ := hp.1 x hx
        refine ⟨h1, h2, ?_⟩
        have h4 := hd x (List.mem_cons_of_mem _ hx)
        rw [and_eq_zero_iff] at h3 h4 ⊢
        intro l hl
        cases hx : x.mask.getLsbD l with
        | false => rfl
        | true =>
          have := h4 l hx
          simp only [BitVec.getLsbD_or, this, Bool.or_false] at hl
          rw [h3 l hl] at hx; exact hx.symm
      · rcases List.mem_cons.1 hx with rfl | hx
        · intro h
          apply h0
          apply BitVec.eq_of_getLsbD_eq
          intro i _
          have := congrArg (fun x => BitVec.getLsbD x i) h
          simp at this; simp [this.2]
        · exact hn x (List.mem_cons_of_mem _ hx)
    · rename_i hc
      split
      · rename_i hb
        rw [before_iff] at hb
        refine ⟨List.pairwise_cons.2 ⟨fun x hx => ?_, List.pairwise_cons.2 hp⟩, fun x hx => ?_⟩
        · have hxm := hd x hx
          have hk : x.before e = false ∧ (e.pc, e.prio, e.trap) ≠ (x.pc, x.prio, x.trap) := by
            rcases List.mem_cons.1 hx with rfl | hx
            · refine ⟨?_, ?_⟩
              · rw [before_iff_false]; omega
              · intro hh; injection hh with a b; injection b with b c; exact hc ⟨a, b, c⟩
            · have := (hp.1 x hx).1
              rw [before_iff_false] at this ⊢
              refine ⟨by omega, ?_⟩
              intro hh; injection hh with a b; injection b with b c
              rw [a, b] at hb; omega
          refine ⟨hk.1, hk.2, ?_⟩
          rw [BitVec.and_comm]; exact hxm
        · rcases List.mem_cons.1 hx with rfl | hx
          · exact h0
          · exact hn x hx
      · rename_i hb
        have hb' : e.before f = false := by simpa using hb
        have ih' := ih ⟨hp.2, fun x hx => hn x (List.mem_cons_of_mem _ hx)⟩ (fun x hx => hd x (List.mem_cons_of_mem _ hx))
        refine ⟨List.pairwise_cons.2 ⟨fun x hx => ?_, ih'.1⟩, fun x hx => ?_⟩
        · rcases mem_insertEntry_of e r x hx with rfl | ⟨f', hf', rfl | ⟨rfl, hk⟩⟩
          · refine ⟨hb', ?_, hd f List.mem_cons_self⟩
            intro hh; injection hh with a b; injection b with b c; exact hc ⟨a.symm, b.symm, c.symm⟩
          · exact hp.1 x hf'
          · obtain ⟨h1, h2, h3⟩ := hp.1 f' hf'
            refine ⟨h1, h2, ?_⟩
            have h4 := hd f List.mem_cons_self
            rw [and_eq_zero_iff] at h3 h4 ⊢
            intro l hl
            simp [h3 l hl, h4 l hl]
        · rcases List.mem_cons.1 hx with rfl | hx
          · exact hn x List.mem_cons_self
          · exact ih'.2 x hx

theorem insertEntry_bit (e : Entry) (l : List Entry) (k : Nat) :
    (insertEntry e l).any (fun f => f.mask.getLsbD k) = (l.any (fun f => f.mask.getLsbD k) || e.mask.getLsbD k) := by
  induction l with
  | nil => simp [insertEntry]
  | cons f r ih =>
    unfold insertEntry
    split
    · simp only [List.any_cons, BitVec.getLsbD_or, Bool.or_assoc]
      rw [Bool.or_comm (e.mask.getLsbD k)]
    · split
      · simp [Bool.or_comm]
      · simp [ih, Bool.or_assoc]

/-! ### The group -/

/-- Lanes that stand in no entry and do not wait to trap. -/
def Group.spare (g : Group) (m : Mask) : Prop :=
  m &&& g.frontierMask = 0#32 ∧ ∀ h ∈ g.subs, h.frec.mask &&& m = 0#32

theorem spare_sub {g : Group} {m n : Mask} (h : g.spare m) (hs : ∀ l, n.getLsbD l = true → m.getLsbD l = true) :
    g.spare n := by
  refine ⟨and_eq_zero_iff.2 fun l hl => and_eq_zero_iff.1 h.1 l (hs l hl), fun x hx => and_eq_zero_iff.2 fun l hl => ?_⟩
  cases hn : n.getLsbD l with
  | false => rfl
  | true =>
    have := hs l hn
    rw [and_eq_zero_iff.1 (h.2 x hx) l hl] at this; cases this

theorem addLanes_subs (g : Group) (pc : VAddr) (prio : Prio) (m : Mask) (trap : Bool) :
    (g.addLanes pc prio m trap).subs = g.subs := by
  unfold Group.addLanes; split <;> rfl

theorem addLanes_bit (g : Group) (pc : VAddr) (prio : Prio) (m : Mask) (trap : Bool) (k : Nat) :
    (g.addLanes pc prio m trap).frontierMask.getLsbD k = (g.frontierMask.getLsbD k || m.getLsbD k) := by
  unfold Group.addLanes Group.frontierMask
  split
  · rename_i h; simp [h]
  · simp only [orMasks_bit, insertEntry_bit]

/-- Spare lanes that join keep the order, and lanes apart from them stay spare. -/
theorem addLanes_orderly {g : Group} (h : g.orderly) (pc : VAddr) (prio : Prio) (m : Mask) (trap : Bool)
    (hm : g.spare m) : (g.addLanes pc prio m trap).orderly ∧
      ∀ n, g.spare n → m &&& n = 0#32 → (g.addLanes pc prio m trap).spare n := by
  refine ⟨?_, fun n hn hd => ⟨and_eq_zero_iff.2 fun l hl => ?_, fun x hx => hn.2 x (by rwa [addLanes_subs] at hx)⟩⟩
  · obtain ⟨h1, h2, h3, h4⟩ := h
    have hf : inOrder (g.addLanes pc prio m trap).frontier := by
      unfold Group.addLanes
      split
      · exact ⟨h1, h2⟩
      · rename_i h0
        refine insertEntry_inOrder _ _ ⟨h1, h2⟩ h0 fun f hf => and_eq_zero_iff.2 fun l hl => ?_
        cases hb : m.getLsbD l with
        | false => rfl
        | true =>
          have := and_eq_zero_iff.1 hm.1 l hb
          simp only [Group.frontierMask, orMasks_bit, List.any_eq_false] at this
          exact absurd hl (this f hf)
    refine ⟨hf.1, hf.2, fun x hx => ?_, by rw [addLanes_subs]; exact h4⟩
    rw [addLanes_subs] at hx
    refine and_eq_zero_iff.2 fun l hl => ?_
    rw [addLanes_bit, and_eq_zero_iff.1 (h3 x hx) l hl, and_eq_zero_iff.1 (hm.2 x hx) l hl]; rfl
  · rw [addLanes_bit, and_eq_zero_iff.1 hn.1 l hl]
    cases hb : m.getLsbD l with
    | false => rfl
    | true => rw [and_eq_zero_iff.1 hd l hb] at hl; cases hl

theorem arrive_orderly {g : Group} (h : g.orderly) (pc : VAddr) (prio : Prio) (m : Mask) (trap : Bool) (from_ : VAddr)
    (hm : g.spare m) : (g.arrive pc prio m trap from_).orderly ∧
      ∀ n, g.spare n → m &&& n = 0#32 → (g.arrive pc prio m trap from_).spare n := by
  rw [arrive_eq]
  generalize (parkWalk pc trap from_ g.loops ([], m, 0#32)) = p
  have := addLanes_orderly (g := { g with loops := p.1 }) h pc prio (m &&& ~~~p.2.2) trap
    (spare_sub (g := { g with loops := p.1 }) hm fun l hl => by simp at hl; exact hl.1)
  refine ⟨this.1, fun n hn hd => this.2 n hn (and_eq_zero_iff.2 fun l hl => and_eq_zero_iff.1 hd l ?_)⟩
  simp at hl; exact hl.1

/-- Lanes that leave the frontier keep the order, and are spare if they did not wait to trap. -/
theorem dropLanes_orderly {g : Group} (h : g.orderly) (m : Mask) : (g.dropLanes m).orderly ∧
    ((∀ l, m.getLsbD l = true → g.frontierMask.getLsbD l = true) → (g.dropLanes m).spare m) := by
  obtain ⟨h1, h2, h3, h4⟩ := h
  have hb : ∀ l, (g.dropLanes m).frontierMask.getLsbD l = true → g.frontierMask.getLsbD l = true ∧ m.getLsbD l = false := by
    intro l hl
    simp only [Group.dropLanes, Group.frontierMask, orMasks_bit, List.any_eq_true, List.mem_filter, List.mem_map] at hl ⊢
    obtain ⟨x, ⟨⟨e, he, rfl⟩, -⟩, hx⟩ := hl
    simp only [BitVec.getLsbD_and, BitVec.getLsbD_not, Bool.and_eq_true, Bool.not_eq_true'] at hx
    exact ⟨⟨e, he, hx.1⟩, hx.2.2⟩
  refine ⟨⟨?_, ?_, fun x hx => and_eq_zero_iff.2 fun l hl => ?_, h4⟩, fun hs => ⟨and_eq_zero_iff.2 fun l hl => ?_,
    fun x hx => and_eq_zero_iff.2 fun l hl => ?_⟩⟩
  · refine List.Pairwise.filter _ (List.pairwise_map.2 (h1.imp fun {a b} hab => ⟨hab.1, hab.2.1, ?_⟩))
    refine and_eq_zero_iff.2 fun l hl => ?_
    simp at hl
    simp [and_eq_zero_iff.1 hab.2.2 l hl.1]
  · intro e he
    simp only [Group.dropLanes, List.mem_filter] at he
    simpa using he.2
  · cases hf : (g.dropLanes m).frontierMask.getLsbD l with
    | false => rfl
    | true => have := hb l hf; rw [and_eq_zero_iff.1 (h3 x hx) l hl] at this; exact absurd this.1 (by simp)
  · cases hf : (g.dropLanes m).frontierMask.getLsbD l with
    | false => rfl
    | true => have := (hb l hf).2; rw [hl] at this; cases this
  · cases hf : m.getLsbD l with
    | false => rfl
    | true => have := hs l hf; rw [and_eq_zero_iff.1 (h3 x hx) l hl] at this; cases this

/-- What joins one after the other, apart from each other and spare. -/
theorem joins_orderly (join : Group → Entry → Group)
    (hj : ∀ g e, g.orderly → g.spare e.mask → (join g e).orderly ∧
      ∀ n, g.spare n → e.mask &&& n = 0#32 → (join g e).spare n) (ms : List Entry) : ∀ g : Group,
    g.orderly → (∀ e ∈ ms, g.spare e.mask) → (ms.Pairwise fun a b => a.mask &&& b.mask = 0#32) →
    (ms.foldl join g).orderly ∧
      ∀ n, g.spare n → (∀ e ∈ ms, e.mask &&& n = 0#32) → (ms.foldl join g).spare n := by
  induction ms with
  | nil => intro g h _ _; exact ⟨h, fun n hn _ => hn⟩
  | cons e r ih =>
    intro g h hs hp
    rw [List.pairwise_cons] at hp
    obtain ⟨h1, h2⟩ := hj g e h (hs e List.mem_cons_self)
    obtain ⟨h3, h4⟩ := ih (join g e) h1 (fun x hx => h2 _ (hs x (List.mem_cons_of_mem _ hx)) (hp.1 x hx)) hp.2
    exact ⟨h3, fun n hn hd => h4 n (h2 n hn (hd e List.mem_cons_self)) fun x hx => hd x (List.mem_cons_of_mem _ hx)⟩

/-- The lanes that an instruction sends on: apart from each other, and of the entry that issues. -/
structure Iss.parted (i : Iss) : Prop where
  moves : i.moves.Pairwise fun a b => a.mask &&& b.mask = 0#32
  lands : i.lands.Pairwise fun a b => a.mask &&& b.mask = 0#32
  cross : ∀ a ∈ i.moves, ∀ b ∈ i.lands, a.mask &&& b.mask = 0#32
  stay : ∀ a ∈ i.moves ++ i.lands, a.mask &&& i.stay = 0#32
  within : ∀ a ∈ i.moves ++ i.lands, ∀ l, a.mask.getLsbD l = true → i.act.getLsbD l = true
  stays : ∀ l, i.stay.getLsbD l = true → i.act.getLsbD l = true

theorem passed_orderly {g : Group} (f : Entry → Nat) (h : g.orderly) :
    ({ g with frontier := g.frontier.map fun e => { e with passed := f e } } : Group).orderly ∧
      ∀ n, g.spare n → ({ g with frontier := g.frontier.map fun e => { e with passed := f e } } : Group).spare n := by
  have hb : ({ g with frontier := g.frontier.map fun e => { e with passed := f e } } : Group).frontierMask =
      g.frontierMask := by
    apply BitVec.eq_of_getLsbD_eq
    intro l _
    simp [Group.frontierMask, orMasks_bit, List.any_map, Function.comp_def]
  obtain ⟨h1, h2, h3, h4⟩ := h
  refine ⟨⟨List.pairwise_map.2 (h1.imp fun hab => hab), fun e he => ?_, fun x hx => by rw [hb]; exact h3 x hx, h4⟩,
    fun n hn => ⟨by rw [hb]; exact hn.1, hn.2⟩⟩
  obtain ⟨d, hd, rfl⟩ := List.mem_map.1 he
  exact h2 d hd

/-- An instruction whose lanes go apart leaves the frontier in order. -/
theorem gone_orderly {i : Iss} {g : Group} (h : g.orderly) (hp : i.parted)
    (ha : ∀ l, i.act.getLsbD l = true → g.frontierMask.getLsbD l = true) : (i.gone g).orderly := by
  obtain ⟨h1, h2⟩ := dropLanes_orderly h i.act
  have hs := h2 ha
  have key : ∀ g' : Group, g'.orderly → g'.spare i.act →
      ((i.lands.foldl (fun g e => g.arrive e.pc e.prio e.mask e.trap i.pc)
        (i.moves.foldl (fun g e => g.addLanes e.pc e.prio e.mask e.trap) g')).arrive i.next i.prio i.stay i.trap i.pc).orderly := by
    intro g' hg hsp
    have sub : ∀ a ∈ i.moves ++ i.lands, g'.spare a.mask := fun a ha => spare_sub hsp (hp.within a ha)
    obtain ⟨a1, a2⟩ := joins_orderly (fun g e => g.addLanes e.pc e.prio e.mask e.trap)
      (fun g e ho hs => addLanes_orderly ho _ _ _ _ hs) i.moves g' hg
      (fun e he => sub e (List.mem_append_left _ he)) hp.moves
    obtain ⟨b1, b2⟩ := joins_orderly (fun g e => g.arrive e.pc e.prio e.mask e.trap i.pc)
      (fun g e ho hs => arrive_orderly ho _ _ _ _ _ hs) i.lands _ a1
      (fun e he => a2 _ (sub e (List.mem_append_right _ he)) fun a ha => hp.cross a ha e he) hp.lands
    refine (arrive_orderly b1 _ _ _ _ _ (b2 _ (a2 _ (spare_sub hsp hp.stays) fun a ha =>
      hp.stay a (List.mem_append_left _ ha)) fun a ha => hp.stay a (List.mem_append_right _ ha))).1
  have hgone : ∀ g' : Group, g'.orderly → ∀ p w, ({ g' with promote := p, windows := w } : Group).orderly :=
    fun g' h _ _ => h
  unfold Iss.gone
  refine hgone _ (key _ ?_ ?_) _ _
  · split
    · exact (passed_orderly _ h1).1
    · exact h1
  · split
    · exact (passed_orderly _ h1).2 _ hs
    · exact hs

/-! ### Lanes of other entries -/

/-- An entry of a frontier holds a lane at a position. -/
def Group.holds (g : Group) (l : Nat) (pc : VAddr) (prio : Prio) (trap : Bool) : Prop :=
  ∃ f ∈ g.frontier, f.mask.getLsbD l = true ∧ f.pc = pc ∧ f.prio = prio ∧ f.trap = trap

theorem holds_addLanes {g : Group} {l : Nat} {pc : VAddr} {prio : Prio} {trap : Bool} (h : g.holds l pc prio trap)
    (pc' : VAddr) (prio' : Prio) (m : Mask) (trap' : Bool) : (g.addLanes pc' prio' m trap').holds l pc prio trap := by
  unfold Group.addLanes
  split
  · exact h
  · obtain ⟨e, he, hb, h1, h2, h3⟩ := h
    obtain ⟨f, hf, hm, g1, g2, g3⟩ := insertEntry_keeps ⟨pc', prio', m, trap', 0⟩ g.frontier e he
    exact ⟨f, hf, bit_of_and_eq hm hb, g1.trans h1, g2.trans h2, g3.trans h3⟩

theorem holds_arrive {g : Group} {l : Nat} {pc : VAddr} {prio : Prio} {trap : Bool} (h : g.holds l pc prio trap)
    (pc' : VAddr) (prio' : Prio) (m : Mask) (trap' : Bool) (from_ : VAddr) :
    (g.arrive pc' prio' m trap' from_).holds l pc prio trap := by
  rw [arrive_eq]; exact holds_addLanes (by exact h) _ _ _ _

theorem holds_joins {l : Nat} {pc : VAddr} {prio : Prio} {trap : Bool} (join : Group → Entry → Group)
    (hj : ∀ g e, g.holds l pc prio trap → (join g e).holds l pc prio trap) (ms : List Entry) : ∀ g : Group,
    g.holds l pc prio trap → (ms.foldl join g).holds l pc prio trap := by
  induction ms with
  | nil => intro g h; exact h
  | cons e r ih => intro g h; exact ih _ (hj g e h)

theorem holds_dropLanes {g : Group} {l : Nat} {pc : VAddr} {prio : Prio} {trap : Bool} (hl : l < 32)
    (h : g.holds l pc prio trap) (m : Mask) (hm : m.getLsbD l = false) : (g.dropLanes m).holds l pc prio trap := by
  obtain ⟨e, he, hb, h1⟩ := h
  have hk : (e.mask &&& ~~~m).getLsbD l = true := by
    simp only [BitVec.getLsbD_and, BitVec.getLsbD_not, hb, hm, hl, decide_true, Bool.not_false, Bool.and_self]
  refine ⟨{ e with mask := e.mask &&& ~~~m }, ?_, hk, h1⟩
  simp only [Group.dropLanes, List.mem_filter, List.mem_map]
  refine ⟨⟨e, he, rfl⟩, ?_⟩
  simp only [bne_iff_ne, ne_eq]
  intro h0
  rw [h0] at hk; simp at hk

/-- An instruction leaves the lanes that did not issue where they stand. -/
theorem holds_gone {i : Iss} {g : Group} {l : Nat} {pc : VAddr} {prio : Prio} {trap : Bool} (hl : l < 32)
    (h : g.holds l pc prio trap) (hm : i.act.getLsbD l = false) : (i.gone g).holds l pc prio trap := by
  have h1 := holds_dropLanes hl h i.act hm
  have key : ∀ g' : Group, g'.holds l pc prio trap →
      ((i.lands.foldl (fun g e => g.arrive e.pc e.prio e.mask e.trap i.pc)
        (i.moves.foldl (fun g e => g.addLanes e.pc e.prio e.mask e.trap) g')).arrive i.next i.prio i.stay i.trap
          i.pc).holds l pc prio trap := fun g' hg =>
    holds_arrive (holds_joins _ (fun _ _ h => holds_arrive h _ _ _ _ _) _ _
      (holds_joins _ (fun _ _ h => holds_addLanes h _ _ _ _) _ _ hg)) _ _ _ _ _
  unfold Iss.gone
  refine key _ ?_
  split
  · obtain ⟨e, he, hb⟩ := h1
    exact ⟨_, List.mem_map.2 ⟨e, he, rfl⟩, hb⟩
  · exact h1

/-- The entry that issues is one of the frontier. -/
theorem entry_mem {s : State} (h : s.me.issueEntry.isSome = true) : s.entry ∈ s.me.frontier := by
  unfold State.entry
  obtain ⟨e, he⟩ := Option.isSome_iff_exists.1 h
  rw [he]
  show e ∈ _
  unfold Group.issueEntry at he
  split at he
  · exact (List.mem_filter.1 (List.mem_of_mem_head? he)).1
  · split at he
    · split at he
      · rename_i hf; cases he; exact List.mem_of_find?_eq_some hf
      · exact List.mem_of_mem_head? he
    · exact List.mem_of_mem_head? he

/-- Where an instruction has taken only lanes of its entry, and sends them apart, the others stay. -/
theorem gone_othersStay {i : Iss} {s u : State} {g : Group} (he : s.me.issueEntry.isSome = true)
    (ha : i.act = s.entry.mask) (hf : g.frontier = s.me.frontier) (hs : g.subs = s.me.subs) (hp : i.parted)
    (hu : u.me.frontier = (i.gone g).frontier) (hv : u.me.subs = (i.gone g).subs) : othersStay s u := by
  have eqv : ∀ {a b : Group}, a.frontier = b.frontier → a.subs = b.subs → a.orderly → b.orderly := by
    intro a b h1 h2 h
    unfold Group.orderly Group.frontierMask at *
    rw [← h1, ← h2]; exact h
  refine ⟨fun e hm l hl hb hn => ?_, fun ho => eqv hu.symm hv.symm (gone_orderly (eqv hf.symm hs.symm ho) hp ?_)⟩
  · rw [hu]
    refine holds_gone (i := i) (g := g) hl ⟨e, by rw [hf]; exact hm, hb, rfl, rfl, rfl⟩ (by rw [ha]; exact hn)
  · intro l hl
    rw [ha] at hl
    unfold Group.frontierMask
    rw [orMasks_bit, List.any_eq_true, hf]
    exact ⟨s.entry, entry_mem he, hl⟩

end Sys2Proof.Machine
end

