-- ==== Sys2Proof/Laws/Lanes.lean ====
section
/-! SUPPORT. The lane-by-lane run of an instruction whose sources are clean, and the registers it writes. -/

namespace Sys2Proof.Machine

open Sys2Proof

/-! ### Lanes of a mask -/

theorem mem_maskLanes {m : Mask} {l : Nat} : l ∈ maskLanes m ↔ l < 32 ∧ m.getLsbD l = true := by
  simp [maskLanes, lanes]

theorem nodup_maskLanes (m : Mask) : (maskLanes m).Nodup := List.Pairwise.filter _ List.nodup_range

theorem maskLanes_eq_nil {m : Mask} : maskLanes m = [] ↔ m = 0#32 := by
  constructor
  · intro h
    apply BitVec.eq_of_getLsbD_eq
    intro i hi
    cases hb : m.getLsbD i with
    | false => simp
    | true =>
      have : i ∈ maskLanes m := mem_maskLanes.2 ⟨hi, hb⟩
      rw [h] at this; cases this
  · rintro rfl; simp [maskLanes]

theorem maskLanes_one (l : Nat) (h : l < 32) : maskLanes (laneBit l) = [l] := by
  have : ∀ l < 32, maskLanes (laneBit l) = [l] := by decide
  exact this l h

theorem lowestLane_mem {m : Mask} (h : m ≠ 0#32) : lowestLane m ∈ maskLanes m := by
  unfold lowestLane
  cases hm : maskLanes m with
  | nil => exact absurd (maskLanes_eq_nil.1 hm) h
  | cons a r => simp

theorem ranFor_scalar {m : Mask} {o : Opnd} (h : o.isS = true) :
    ranFor m o = if m = 0#32 then [] else [lowestLane m] := by
  unfold ranFor runLanes
  rw [h]
  simp only [if_true]
  split
  · rfl
  · rename_i h0
    exact maskLanes_one _ (mem_maskLanes.1 (lowestLane_mem h0)).1

theorem ranFor_other {m : Mask} {o : Opnd} (h : o.isS = false) : ranFor m o = maskLanes m := by
  unfold ranFor runLanes
  rw [h]; rfl

/-! ### The run -/

/-- What a run of lanes without fault does to the group. -/
def laneFold (f : Nat → LaneOut) (put : Nat → LaneOut → Group → Group) (ls : List Nat) (g : Group) : Group :=
  ls.foldl (fun g l => put l (f l) (g.raiseFlags (f l).flags)) g

theorem laneFold_nil (f : Nat → LaneOut) (put : Nat → LaneOut → Group → Group) (g : Group) :
    laneFold f put [] g = g := rfl

theorem laneFold_cons (f : Nat → LaneOut) (put : Nat → LaneOut → Group → Group) (l : Nat) (r : List Nat) (g : Group) :
    laneFold f put (l :: r) g = laneFold f put r (put l (f l) (g.raiseFlags (f l).flags)) := rfl

/-- A run of lanes that moves none leaves the frontier and the lanes that wait to trap. -/
theorem laneFold_place (f : Nat → LaneOut) (put : Nat → LaneOut → Group → Group)
    (hf : ∀ l o g, (put l o g).frontier = g.frontier) (hs : ∀ l o g, (put l o g).subs = g.subs) (ls : List Nat) :
    ∀ g, (laneFold f put ls g).frontier = g.frontier ∧ (laneFold f put ls g).subs = g.subs := by
  induction ls with
  | nil => intro g; exact ⟨rfl, rfl⟩
  | cons l r ih => intro g; rw [laneFold_cons, (ih _).1, (ih _).2, hf, hs]; exact ⟨rfl, rfl⟩

theorem writeDst_place (g : Group) (o : Opnd) (w l x : Nat) :
    (g.writeDst o w l x).frontier = g.frontier ∧ (g.writeDst o w l x).subs = g.subs := by
  unfold Group.writeDst
  split <;> first | exact ⟨rfl, rfl⟩ | (dsimp only; split <;> exact ⟨rfl, rfl⟩)

theorem begun_place (s : State) (i : Instr) :
    (s.begun i).me.frontier = s.me.frontier ∧ (s.begun i).me.subs = s.me.subs := by
  rw [begun_me]; split <;> exact ⟨rfl, rfl⟩

theorem laneRun_over {s : State} (m : Mask) (all : Bool) (bad : Nat → Option Flt) (f : Nat → LaneOut) (traps : Bool)
    (put : Nat → LaneOut → Group → Group) (mode : Word)
    (hput : ∀ l o g, (put l o g).mode = g.mode) (hbad : ∀ l ∈ maskLanes m, bad l = none)
    (htr : traps = true → ∀ l ∈ maskLanes m, trapped mode (f l).flags = 0#8) {i : Iss} {g : Group}
    (h : i.overlay s g) (hm : g.mode = mode) :
    ∃ t, i.laneRun m all bad f traps put = { i with s := t } ∧
      (i.laneRun m all bad f traps put).overlay s (laneFold f put (maskLanes m) g) := by
  unfold Iss.laneRun
  generalize maskLanes m = ls at hbad htr
  induction ls generalizing i g with
  | nil => exact ⟨i.s, rfl, h⟩
  | cons l r ih =>
    rw [List.foldl_cons, laneFold_cons]
    have hb := hbad l List.mem_cons_self
    have ht : (if traps then trapped i.g.mode (f l).flags else 0#8) = 0#8 := by
      split
      · rw [h.2.1, hm]; exact htr ‹_› l List.mem_cons_self
      · rfl
    simp only [hb]
    rw [if_pos ht]
    obtain ⟨o1, e1⟩ := Iss.over_mod h fun g => g.raiseFlags (f l).flags
    obtain ⟨o2, e2⟩ := Iss.over_mod o1 (put l (f l))
    obtain ⟨t, et, ot⟩ := ih o2 (by rw [hput]; exact hm) (fun l hl => hbad l (List.mem_cons_of_mem _ hl))
      (fun h l hl => htr h l (List.mem_cons_of_mem _ hl))
    refine ⟨t, ?_, ot⟩
    rw [et, e2, e1]

/-! ### Registers after the run -/

theorem Group.setV_vreg (g : Group) (r l r' l' : Nat) (x : Word) (hl : l < 32) (hl' : l' < 32) :
    (g.setV r l x).vreg r' l' = if r' = r ∧ l' = l then x else g.vreg r' l' := by
  simp only [Group.setV, Group.vreg, Sp.get_set]
  congr 1
  simp only [eq_iff_iff]; omega

theorem Group.setV_vPoison (g : Group) (r l r' l' : Nat) (x : Word) (hl : l < 32) (hl' : l' < 32) :
    (g.setV r l x).vPoison r' l' = if r' = r ∧ l' = l then false else g.vPoison r' l' := by
  simp only [Group.setV, Group.vPoison, Sp.get_set]
  congr 1
  simp only [eq_iff_iff]; omega

@[simp] theorem Group.setV_sreg (g : Group) (r l r' : Nat) (x : Word) : (g.setV r l x).sreg r' = g.sreg r' := rfl
@[simp] theorem Group.setV_sPoison (g : Group) (r l r' : Nat) (x : Word) : (g.setV r l x).sPoison r' = g.sPoison r' := rfl
@[simp] theorem Group.setS_vreg (g : Group) (r r' l' : Nat) (x : Word) : (g.setS r x).vreg r' l' = g.vreg r' l' := rfl
@[simp] theorem Group.setS_vPoison (g : Group) (r r' l' : Nat) (x : Word) : (g.setS r x).vPoison r' l' = g.vPoison r' l' := rfl
theorem Group.setS_sreg (g : Group) (r r' : Nat) (x : Word) :
    (g.setS r x).sreg r' = if r' = r then x else g.sreg r' := by simp [Group.setS, Group.sreg]
theorem Group.setS_sPoison (g : Group) (r r' : Nat) (x : Word) :
    (g.setS r x).sPoison r' = if r' = r then false else g.sPoison r' := by simp [Group.setS, Group.sPoison]

@[simp] theorem Group.raiseFlags_vreg (g : Group) (f : Flags) (r l : Nat) : (g.raiseFlags f).vreg r l = g.vreg r l := rfl
@[simp] theorem Group.raiseFlags_sreg (g : Group) (f : Flags) (r : Nat) : (g.raiseFlags f).sreg r = g.sreg r := rfl
@[simp] theorem Group.raiseFlags_vPoison (g : Group) (f : Flags) (r l : Nat) :
    (g.raiseFlags f).vPoison r l = g.vPoison r l := rfl
@[simp] theorem Group.raiseFlags_sPoison (g : Group) (f : Flags) (r : Nat) :
    (g.raiseFlags f).sPoison r = g.sPoison r := rfl
@[simp] theorem Group.raiseFlags_preg (g : Group) (f : Flags) (n : Nat) : (g.raiseFlags f).preg n = g.preg n := rfl

/-- One lane of a write covers a register. -/
def oneV (o : Opnd) (w l r l' : Nat) : Bool :=
  match o with
  | .v d => l' == l && (r == d.val || (w == 2 && r == d.val + 1))
  | _ => false

def oneS (o : Opnd) (w r : Nat) : Bool :=
  match o with
  | .s d => r == d.val || (w == 2 && r == d.val + 1)
  | _ => false

theorem writeDst_vreg (g : Group) (o : Opnd) (w l x r l' : Nat) (hl : l < 32) (hl' : l' < 32) :
    (g.writeDst o w l x).vreg r l' = if oneV o w l r l' then halfOf o.num r x else g.vreg r l' := by
  cases o with
  | v d =>
    simp only [Group.writeDst, oneV, halfOf, Opnd.num]
    by_cases hw : w = 2
    · subst hw
      simp only [if_true, Group.setV_vreg _ _ _ _ _ _ hl hl']
      by_cases h1 : l' = l <;> by_cases h2 : r = d.val <;> by_cases h3 : r = d.val + 1 <;>
        simp_all
    · simp only [hw, if_false, Group.setV_vreg _ _ _ _ _ _ hl hl']
      by_cases h1 : l' = l <;> by_cases h2 : r = d.val <;> simp_all
  | s d =>
    simp only [Group.writeDst, oneV]
    split <;> simp
  | _ => simp [Group.writeDst, oneV]

theorem writeDst_vPoison (g : Group) (o : Opnd) (w l x r l' : Nat) (hl : l < 32) (hl' : l' < 32) :
    (g.writeDst o w l x).vPoison r l' = (!oneV o w l r l' && g.vPoison r l') := by
  cases o with
  | v d =>
    simp only [Group.writeDst, oneV]
    by_cases hw : w = 2
    · subst hw
      simp only [if_true, Group.setV_vPoison _ _ _ _ _ _ hl hl']
      by_cases h1 : l' = l <;> by_cases h2 : r = d.val <;> by_cases h3 : r = d.val + 1 <;>
        simp_all
    · simp only [hw, if_false, Group.setV_vPoison _ _ _ _ _ _ hl hl']
      by_cases h1 : l' = l <;> by_cases h2 : r = d.val <;> simp_all
  | s d =>
    simp only [Group.writeDst, oneV]
    split <;> simp
  | _ => simp [Group.writeDst, oneV]

theorem writeDst_sreg (g : Group) (o : Opnd) (w l x r : Nat) :
    (g.writeDst o w l x).sreg r = if oneS o w r then halfOf (o.num - 0xC0) r x else g.sreg r := by
  cases o with
  | s d =>
    simp only [Group.writeDst, oneS, halfOf, Opnd.num, Nat.add_sub_cancel_left]
    by_cases hw : w = 2
    · subst hw
      simp only [if_true, Group.setS_sreg]
      by_cases h2 : r = d.val <;> by_cases h3 : r = d.val + 1 <;> simp_all
    · simp only [hw, if_false, Group.setS_sreg]
      by_cases h2 : r = d.val <;> simp_all
  | v d =>
    simp only [Group.writeDst, oneS]
    split <;> simp
  | _ => simp [Group.writeDst, oneS]

theorem writeDst_sPoison (g : Group) (o : Opnd) (w l x r : Nat) :
    (g.writeDst o w l x).sPoison r = (!oneS o w r && g.sPoison r) := by
  cases o with
  | s d =>
    simp only [Group.writeDst, oneS]
    by_cases hw : w = 2
    · subst hw
      simp only [if_true, Group.setS_sPoison]
      by_cases h2 : r = d.val <;> by_cases h3 : r = d.val + 1 <;> simp_all
    · simp only [hw, if_false, Group.setS_sPoison]
      by_cases h2 : r = d.val <;> simp_all
  | v d =>
    simp only [Group.writeDst, oneS]
    split <;> simp
  | _ => simp [Group.writeDst, oneS]

/-- A destination write touches registers only. -/
theorem writeDst_same (g : Group) (o : Opnd) (w l x : Nat) : sameRegs g (g.writeDst o w l x) = g := by
  cases o <;> simp only [Group.writeDst] <;> try rfl
  all_goals (split <;> rfl)

@[simp] theorem writeDst_mode (g : Group) (o : Opnd) (w l x : Nat) : (g.writeDst o w l x).mode = g.mode := by
  have := congrArg Group.mode (writeDst_same g o w l x); exact this

@[simp] theorem writeDst_flg (g : Group) (o : Opnd) (w l x : Nat) : (g.writeDst o w l x).flg = g.flg := by
  cases o <;> simp only [Group.writeDst] <;> try rfl
  all_goals (split <;> rfl)

theorem raiseFlags_flg8 (g : Group) (f : Flags) : (g.raiseFlags f).flg.setWidth 8 = g.flg.setWidth 8 ||| f := by
  simp only [Group.raiseFlags, flgMask]
  ext i hi
  simp only [BitVec.getElem_setWidth, BitVec.getLsbD_and, BitVec.getLsbD_or, BitVec.getLsbD_setWidth, BitVec.getElem_or]
  have : (0xFF#32).getLsbD i = true := by
    have : ∀ i < 8, (0xFF#32).getLsbD i = true := by decide
    exact this i hi
  have h32 : i < 32 := by omega
  simp [this, h32, BitVec.getLsbD_eq_getElem hi]

theorem flagsOf_cons (f : Nat → Flags) (l : Nat) (r : List Nat) : flagsOf (l :: r) f = f l ||| flagsOf r f := by
  have : ∀ (r : List Nat) (a : Flags), r.foldl (fun a l => a ||| f l) a = a ||| r.foldl (fun a l => a ||| f l) 0#8 := by
    intro r
    induction r with
    | nil => intro a; simp
    | cons x r ih =>
      intro a
      simp only [List.foldl_cons]
      rw [ih (a ||| f x), ih (0#8 ||| f x)]
      simp [BitVec.or_assoc]
  unfold flagsOf
  rw [List.foldl_cons, this]
  simp

theorem sameRegs_trans {a b c : Group} (h : sameRegs a b = a) (k : sameRegs b c = b) : sameRegs a c = a := by
  have : sameRegs a c = sameRegs a (sameRegs b c) := rfl
  rw [this, k, h]

/-- The run of a register destination, lane by lane. -/
def dstFold (o : Opnd) (w : Nat) (f : Nat → LaneOut) : List Nat → Group → Group :=
  laneFold f fun l x g => g.writeDst o w l x.val

theorem dstFold_cons (o : Opnd) (w : Nat) (f : Nat → LaneOut) (l : Nat) (r : List Nat) (g : Group) :
    dstFold o w f (l :: r) g = dstFold o w f r ((g.raiseFlags (f l).flags).writeDst o w l (f l).val) := rfl

theorem dstFold_same (o : Opnd) (w : Nat) (f : Nat → LaneOut) (ls : List Nat) : ∀ g : Group,
    sameRegs g (dstFold o w f ls g) = g := by
  induction ls with
  | nil => intro g; rfl
  | cons l r ih =>
    intro g
    rw [dstFold_cons]
    refine sameRegs_trans ?_ (ih _)
    exact sameRegs_trans (b := g.raiseFlags (f l).flags) rfl (writeDst_same _ _ _ _ _)

theorem dstFold_flags (o : Opnd) (w : Nat) (f : Nat → LaneOut) (ls : List Nat) : ∀ g : Group,
    flagsRaised g (dstFold o w f ls g) (flagsOf ls fun l => (f l).flags) := by
  induction ls with
  | nil => intro g; simp [flagsRaised, dstFold, laneFold, flagsOf]
  | cons l r ih =>
    intro g
    rw [dstFold_cons, flagsOf_cons]
    have := ih ((g.raiseFlags (f l).flags).writeDst o w l (f l).val)
    simp only [flagsRaised, writeDst_flg, raiseFlags_flg8] at this ⊢
    rw [this, BitVec.or_assoc]

theorem dstFold_v (o : Opnd) (w : Nat) (f : Nat → LaneOut) (ls : List Nat) (hn : ls.Nodup) (h32 : ∀ l ∈ ls, l < 32) :
    ∀ (g : Group) (r l : Nat), l < 32 →
      (dstFold o w f ls g).vreg r l = (if l ∈ ls ∧ oneV o w l r l = true then halfOf o.num r (f l).val else g.vreg r l) ∧
      (dstFold o w f ls g).vPoison r l = (!(decide (l ∈ ls) && oneV o w l r l) && g.vPoison r l) := by
  induction ls with
  | nil => intro g r l _; simp [dstFold, laneFold]
  | cons a rest ih =>
    intro g r l hl
    have ha : a < 32 := h32 a List.mem_cons_self
    have hn' := (List.nodup_cons.1 hn)
    obtain ⟨i1, i2⟩ := ih hn'.2 (fun l hl => h32 l (List.mem_cons_of_mem _ hl))
      ((g.raiseFlags (f a).flags).writeDst o w a (f a).val) r l hl
    rw [dstFold_cons, i1, i2, writeDst_vreg _ _ _ _ _ _ _ ha hl, writeDst_vPoison _ _ _ _ _ _ _ ha hl]
    simp only [Group.raiseFlags_vreg, Group.raiseFlags_vPoison, List.mem_cons]
    by_cases hla : l = a
    · subst hla
      have hnot : ¬ l ∈ rest := hn'.1
      simp [hnot]
    · have hone : oneV o w a r l = false := by
        cases o <;> simp [oneV, hla]
      simp [hla, hone]

theorem dstFold_s (o : Opnd) (w : Nat) (f : Nat → LaneOut) (l : Nat) (g : Group) (r : Nat) :
    (dstFold o w f [l] g).sreg r = (if oneS o w r then halfOf (o.num - 0xC0) r (f l).val else g.sreg r) ∧
      (dstFold o w f [l] g).sPoison r = (!oneS o w r && g.sPoison r) := by
  rw [dstFold_cons]
  show ((g.raiseFlags (f l).flags).writeDst o w l (f l).val).sreg r = _ ∧
    ((g.raiseFlags (f l).flags).writeDst o w l (f l).val).sPoison r = _
  rw [writeDst_sreg, writeDst_sPoison]
  exact ⟨rfl, rfl⟩

theorem dstFold_s_other (o : Opnd) (w : Nat) (f : Nat → LaneOut) (ho : o.isS = false) (ls : List Nat) :
    ∀ (g : Group) (r : Nat), (dstFold o w f ls g).sreg r = g.sreg r ∧ (dstFold o w f ls g).sPoison r = g.sPoison r := by
  induction ls with
  | nil => intro g r; exact ⟨rfl, rfl⟩
  | cons l rest ih =>
    intro g r
    rw [dstFold_cons]
    obtain ⟨i1, i2⟩ := ih ((g.raiseFlags (f l).flags).writeDst o w l (f l).val) r
    have h0 : oneS o w r = false := by cases o <;> simp_all [oneS, Opnd.isS]
    rw [i1, i2, writeDst_sreg, writeDst_sPoison, h0]
    exact ⟨rfl, rfl⟩

/-- The registers after a run for a destination (05 R94 to R96). -/
theorem dstFold_regs (o : Opnd) (w : Nat) (m : Mask) (f : Nat → LaneOut) (g : Group) :
    regsWritten g (dstFold o w f (ranFor m o) g) o w m fun l => (f l).val := by
  cases ho : o.isS with
  | true =>
    obtain ⟨d, rfl⟩ : ∃ d, o = .s d := by cases o <;> simp_all [Opnd.isS]
    have hv : ∀ r l, l < 32 → (dstFold (.s d) w f (ranFor m (.s d)) g).vreg r l = g.vreg r l ∧
        (dstFold (.s d) w f (ranFor m (.s d)) g).vPoison r l = g.vPoison r l := by
      intro r l hl
      obtain ⟨h1, h2⟩ := dstFold_v (.s d) w f (ranFor m (.s d)) (nodup_maskLanes _)
        (fun l hl => (mem_maskLanes.1 hl).1) g r l hl
      rw [h1, h2]; simp [oneV]
    rw [ranFor_scalar ho] at *
    refine ⟨fun r l hl => by rw [(hv r l hl).1]; simp [writesV], fun r => ?_, fun r l hl => by
      rw [(hv r l hl).2]; simp [writesV], fun r => ?_⟩
    · by_cases h0 : m = 0#32
      · simp [h0, dstFold, laneFold, writesS]
      · rw [if_neg h0, (dstFold_s _ _ _ _ _ _).1]; simp [writesS, oneS, h0]
    · by_cases h0 : m = 0#32
      · simp [h0, dstFold, laneFold, writesS]
      · have hm : (m != 0#32) = true := by simp [h0]
        rw [if_neg h0, (dstFold_s _ _ _ _ _ _).2]; simp [writesS, oneS, hm]
  | false =>
    have hw : ∀ r, writesS o w m r = false := by intro r; cases o <;> simp_all [writesS, Opnd.isS]
    have hone : ∀ r l, l < 32 → writesV o w m r l = (decide (l ∈ maskLanes m) && oneV o w l r l) := by
      intro r l hl
      cases o <;> simp [writesV, oneV, mem_maskLanes, hl]
    rw [ranFor_other ho]
    refine ⟨fun r l hl => ?_, fun r => ?_, fun r l hl => ?_, fun r => ?_⟩
    · rw [(dstFold_v o w f _ (nodup_maskLanes _) (fun l hl => (mem_maskLanes.1 hl).1) g r l hl).1, hone r l hl]
      simp
    · rw [(dstFold_s_other o w f ho _ g r).1, hw]; rfl
    · rw [(dstFold_v o w f _ (nodup_maskLanes _) (fun l hl => (mem_maskLanes.1 hl).1) g r l hl).2, hone r l hl]
    · rw [(dstFold_s_other o w f ho _ g r).2, hw]; simp

/-! ### Whole instructions -/

/-- An instruction in issue whose lanes have not faulted. -/
structure Iss.fine (j : Iss) (i : Instr) (s : State) : Prop where
  flts : j.flts = []
  step : j.step = s.me.step
  trap : j.trap = s.entry.trap
  next : j.next = s.after i
  prio : j.prio = s.entry.prio

theorem issueAt_fine (i : Instr) (s t : State) : (issueAt i s t).fine i s := ⟨rfl, rfl, rfl, rfl, rfl⟩

/-- An instruction that has faulted no lane, when the state has come to `t` and the group to `g`, runs to its own
end. -/
theorem out_ends {i : Instr} {s t : State} {j : Iss} {g : Group} (ha : s.admits i = true)
    (hj : j.fine i s) (ht : t.cur = s.cur) (ho : j.overlay t g)
    (hs : ∀ u : State, u.me.frontier = (j.gone g).frontier → u.me.subs = (j.gone g).subs → othersStay s u) :
    ∃ u, j.out = .next (u.settle s.cur) ∧ onlyGroup t u ∧ sameIssue g u.me = g ∧ goesOnIn s i u j.stay ∧
      (∀ e ∈ j.moves, ∀ l, e.mask.getLsbD l = true → u.me.standsAt l e.pc e.prio e.trap) ∧
      ∀ e ∈ j.lands, ∀ l, l < 32 → e.mask.getLsbD l = true → u.me.standsAt l e.pc e.prio e.trap := by
  have hst : (j.step && !j.trap) = false := by
    simp only [State.admits, Bool.and_eq_true] at ha
    have := ha.2
    rw [hj.step, hj.trap]
    cases h1 : s.me.step <;> cases h2 : s.entry.trap <;> simp_all
  obtain ⟨k, ls, h⟩ := out_over ho hj.flts hst
  have hme : ((({ t with serial := k } : State).setGrp t.cur { j.gone g with locks := ls }) : State).me =
      { j.gone g with locks := ls } := by
    show State.grp _ t.cur = _
    rw [State.setGrp_grp, if_pos rfl]
  refine ⟨({ t with serial := k } : State).setGrp t.cur { j.gone g with locks := ls }, ?_, ⟨rfl, fun n hn => ?_⟩, ?_, ?_,
    ?_, ?_⟩
  · rw [← ht]; exact h
  · rw [State.setGrp_grp, if_neg hn]; rfl
  · rw [hme]
    exact sameIssue_gone j g
  · refine ⟨fun l hl hm => ?_, hs _ (by rw [hme]) (by rw [hme])⟩
    rw [hme]
    have := standsAt_gone_stay j g l hl hm
    rw [hj.next, hj.prio, hj.trap] at this
    exact this
  · intro e he l hm
    rw [hme]
    exact standsAt_gone_move j g l e he hm
  · intro e he l hl hm
    rw [hme]
    exact standsAt_gone_land j g l hl e he hm

/-- An instruction that has faulted no lane, and whose group has come to `g`, runs to its own end. -/
theorem out_runs {i : Instr} {s : State} {j : Iss} {t : State} {g : Group} (ha : s.admits i = true)
    (hj : j = issueAt i s t) (ho : j.overlay s g) (hf : g.frontier = s.me.frontier) (hs : g.subs = s.me.subs) :
    ∃ u, j.out = .next (u.settle s.cur) ∧ onlyGroup s u ∧ sameIssue g u.me = g ∧ goesOn s i u := by
  have he : s.me.issueEntry.isSome = true := by
    simp only [State.admits, Bool.and_eq_true] at ha
    exact ha.1.1.1.1.1.1
  have hp : j.parted := by
    subst hj
    exact ⟨List.Pairwise.nil, List.Pairwise.nil, fun a h => absurd h (by simp [issueAt, issueOf]),
      fun a h => absurd h (by simp [issueAt, issueOf]), fun a h => absurd h (by simp [issueAt, issueOf]), fun l h => h⟩
  obtain ⟨u, h1, h2, h3, h4, -⟩ := out_ends ha (hj ▸ issueAt_fine i s t) rfl ho
    fun u hu hv => gone_othersStay he (by rw [hj]; rfl) hf hs hp hu hv
  exact ⟨u, h1, h2, h3, by rw [hj] at h4; exact h4⟩

/-- A run of lanes with a register destination whose sources are clean. -/
theorem laneRun_writesDst {i : Instr} {s : State} {j : Iss} {t : State} (ha : s.admits i = true)
    (hj : j = issueAt i s t) (ho : j.overlay s (s.begun i).me) (o : Opnd) (w : Nat) (all : Bool)
    (bad : Nat → Option Flt) (f : Nat → LaneOut) (traps : Bool)
    (hbad : ∀ l ∈ ranFor (s.acting i) o, bad l = none)
    (htr : traps = true → ∀ l ∈ ranFor (s.acting i) o, trapped s.me.mode (f l).flags = 0#8)
    (he : exec i s = (j.laneRun (runLanes j.run o.isS) all bad f traps fun l x g => g.writeDst o w l x.val).out) :
    s.writesDst i o w f := by
  have hrun : j.run = s.acting i := by rw [hj]; rfl
  have hmode : (s.begun i).me.mode = s.me.mode := by rw [begun_me]; split <;> rfl
  rw [hrun] at he
  obtain ⟨t', e1, o1⟩ := laneRun_over (runLanes (s.acting i) o.isS) all bad f traps
    (fun l x g => g.writeDst o w l x.val) s.me.mode (fun l x g => writeDst_mode _ _ _ _ _) hbad htr ho hmode
  have hpl := laneFold_place f (fun l x g => g.writeDst o w l x.val) (fun l x g => (writeDst_place g o w l x.val).1)
    (fun l x g => (writeDst_place g o w l x.val).2) (maskLanes (runLanes (s.acting i) o.isS)) (s.begun i).me
  rw [(begun_place s i).1, (begun_place s i).2] at hpl
  obtain ⟨u, h1, h2, h3, h4⟩ := out_runs (i := i) (s := s) (t := t') ha (by rw [e1, hj]; rfl) o1 hpl.1 hpl.2
  rw [h1] at he
  refine ⟨u, he, h2, h4, ?_, ?_, ?_⟩
  · have hs := dstFold_same o w f (maskLanes (runLanes (s.acting i) o.isS)) (s.begun i).me
    have e : sameIssue (s.begun i).me (sameRegs (s.begun i).me u.me) =
        sameRegs (s.begun i).me (sameIssue (dstFold o w f (maskLanes (runLanes (s.acting i) o.isS)) (s.begun i).me) u.me) := by
      have h := hs
      generalize dstFold o w f (maskLanes (runLanes (s.acting i) o.isS)) (s.begun i).me = G at h ⊢
      simp only [sameIssue, sameRegs]
      have a1 := congrArg Group.frontier h; have a2 := congrArg Group.loops h
      have a3 := congrArg Group.windows h; have a4 := congrArg Group.locks h; have a5 := congrArg Group.promote h
      simp only [sameRegs] at a1 a2 a3 a4 a5
      rw [a1, a2, a3, a4, a5]
    rw [e, show sameIssue (dstFold o w f (maskLanes (runLanes (s.acting i) o.isS)) (s.begun i).me) u.me = _ from h3]
    exact hs
  · have hr := dstFold_regs o w (s.acting i) f (s.begun i).me
    have hv := congrArg Group.v h3
    change u.me.v = (dstFold o w f (ranFor (s.acting i) o) (s.begun i).me).v at hv
    have hvb := congrArg Group.vBad h3
    change u.me.vBad = (dstFold o w f (ranFor (s.acting i) o) (s.begun i).me).vBad at hvb
    have hss := congrArg Group.s h3
    change u.me.s = (dstFold o w f (ranFor (s.acting i) o) (s.begun i).me).s at hss
    have hsb := congrArg Group.sBad h3
    change u.me.sBad = (dstFold o w f (ranFor (s.acting i) o) (s.begun i).me).sBad at hsb
    have b1 : (s.begun i).me.v = s.me.v := by rw [begun_me]; split <;> rfl
    have b2 : (s.begun i).me.vBad = s.me.vBad := by rw [begun_me]; split <;> rfl
    have b3 : (s.begun i).me.s = s.me.s := by rw [begun_me]; split <;> rfl
    have b4 : (s.begun i).me.sBad = s.me.sBad := by rw [begun_me]; split <;> rfl
    simp only [regsWritten, Group.vreg, Group.sreg, Group.vPoison, Group.sPoison, b1, b2, b3, b4, ← hv, ← hvb, ← hss,
      ← hsb] at hr ⊢
    exact hr
  · have hf := dstFold_flags o w f (ranFor (s.acting i) o) (s.begun i).me
    have b1 : (s.begun i).me.flg = s.me.flg := by rw [begun_me]; split <;> rfl
    have hfl := congrArg Group.flg h3
    change u.me.flg = (dstFold o w f (ranFor (s.acting i) o) (s.begun i).me).flg at hfl
    simp only [flagsRaised, b1, ← hfl] at hf ⊢
    exact hf

theorem begun_srcs (i : Instr) (s : State) (act : Mask) (sh : Shape) (x : XForm) (l : Nat) :
    laneSrcs (s.begun i).me act sh x l = laneSrcs s.me act sh x l ∧
      badSource (s.begun i).me act sh x l = badSource s.me act sh x l := by
  rw [begun_me]; split <;> exact ⟨rfl, rfl⟩

/-- An integer or floating-point instruction with a register destination, its sources clean and no trap enabled
for what it meets. -/
theorem regOp_writesDst {i : Instr} {s : State} (ha : s.admits i = true) (hc : s.clean i = true) (traps : Bool)
    (f : Nat → Srcs → LaneOut)
    (htr : traps = true → ∀ l ∈ ranFor (s.acting i) i.fields.a,
      trapped s.me.mode (f l (laneSrcs s.me s.entry.mask (shapeOfInstr i) i.fields l)).flags = 0#8)
    (he : exec i s = regOp i i.fields traps f s) :
    s.writesDst i i.fields.a (dstWidth (shapeOfInstr i))
      (fun l => f l (laneSrcs s.me s.entry.mask (shapeOfInstr i) i.fields l)) := by
  have e0 := begin_admits ha
  have o0 := issueAt_over i s
  have hg : (issueAt i s (s.begun i)).g = (s.begun i).me := o0.2.1
  simp only [regOp, e0, Iss.arith, hg] at he
  have hsrc : (fun l => f l (laneSrcs (s.begun i).me s.entry.mask (shapeOfInstr i) i.fields l)) =
      fun l => f l (laneSrcs s.me s.entry.mask (shapeOfInstr i) i.fields l) := by
    funext l; rw [(begun_srcs i s _ _ _ l).1]
  have hb : (fun l => (badSource (s.begun i).me s.entry.mask (shapeOfInstr i) i.fields l).map poisonFlt) =
      fun l => (badSource s.me s.entry.mask (shapeOfInstr i) i.fields l).map poisonFlt := by
    funext l; rw [(begun_srcs i s _ _ _ l).2]
  refine laneRun_writesDst ha rfl o0 _ _ i.fields.a.isS
    (fun l => (badSource s.me s.entry.mask (shapeOfInstr i) i.fields l).map poisonFlt) _ traps ?_ htr ?_
  · intro l hl
    have hm : l < 32 ∧ (s.acting i).getLsbD l = true := by
      cases ho : i.fields.a.isS with
      | true =>
        rw [ranFor_scalar ho] at hl
        split at hl
        · cases hl
        · rename_i h0
          rw [List.mem_singleton] at hl; subst hl
          exact mem_maskLanes.1 (lowestLane_mem h0)
      | false => rw [ranFor_other ho] at hl; exact mem_maskLanes.1 hl
    have := List.all_eq_true.1 hc l (List.mem_range.2 hm.1)
    simp only [hm.2, Bool.not_true, Bool.false_or, Option.isNone_iff_eq_none] at this
    simp [this]
  · rw [← hsrc, ← hb]
    exact he

/-! ### Predicates -/

theorem laneBit_bit (l l' : Nat) (h : l < 32) (h' : l' < 32) : (laneBit l).getLsbD l' = decide (l' = l) := by
  have : ∀ l < 32, ∀ l' < 32, (laneBit l).getLsbD l' = decide (l' = l) := by decide
  exact this l h l' h'

theorem setPIn_preg (g : Group) (k n : Nat) (m v : Mask) (l : Nat) (hl : l < 32) :
    ((g.setPIn k m v).preg n).getLsbD l =
      if m.getLsbD l && n == k then v.getLsbD l else (g.preg n).getLsbD l := by
  unfold Group.setPIn Group.setP Group.preg
  simp only [Sp.get_set]
  by_cases h : n = k
  · subst h
    simp only [if_true, BitVec.getLsbD_or, BitVec.getLsbD_and, BitVec.getLsbD_not, hl, decide_true, Bool.true_and,
      BEq.rfl, Bool.and_true]
    cases m.getLsbD l <;> simp
  · simp [h]

theorem setPIn_one (g : Group) (k n : Nat) (b : Bool) (l l' : Nat) (hl : l < 32) (hl' : l' < 32) :
    ((g.setPIn k (laneBit l) (if b then laneBit l else 0#32)).preg n).getLsbD l' =
      if decide (l' = l) && n == k then b else (g.preg n).getLsbD l' := by
  rw [setPIn_preg _ _ _ _ _ _ hl', laneBit_bit l l' hl hl']
  split
  · rename_i h
    simp only [Bool.and_eq_true, decide_eq_true_eq] at h
    obtain ⟨rfl, -⟩ := h
    cases b <;> simp [laneBit_bit l' l' hl hl]
  · rfl

theorem laneFold_preds (f : Nat → LaneOut) (put : Nat → LaneOut → Group → Group) (ns : Nat → Bool)
    (val : Nat → Nat → Bool)
    (hput : ∀ l < 32, ∀ g n, ∀ l' < 32, ((put l (f l) g).preg n).getLsbD l' =
      if decide (l' = l) && ns n then val n l else (g.preg n).getLsbD l')
    (ls : List Nat) (h32 : ∀ l ∈ ls, l < 32) : ∀ (g : Group) (n l : Nat), l < 32 →
      ((laneFold f put ls g).preg n).getLsbD l =
        if decide (l ∈ ls) && ns n then val n l else (g.preg n).getLsbD l := by
  induction ls with
  | nil => intro g n l _; simp [laneFold]
  | cons a r ih =>
    intro g n l hl
    rw [laneFold_cons, ih (fun l hl => h32 l (List.mem_cons_of_mem _ hl)) _ n l hl,
      hput a (h32 a List.mem_cons_self) _ n l hl]
    simp only [Group.raiseFlags_preg, List.mem_cons]
    by_cases h1 : l = a <;> by_cases h2 : l ∈ r <;> simp [h1, h2]
    all_goals (cases ns n <;> simp_all)

theorem laneFold_inv (f : Nat → LaneOut) (put : Nat → LaneOut → Group → Group) (same : Group → Group → Group)
    (hrefl : ∀ g, same g g = g) (htrans : ∀ a b c, same a b = a → same b c = b → same a c = a)
    (hflags : ∀ g x, same g (g.raiseFlags x) = g) (hput : ∀ l x g, same g (put l x g) = g)
    (ls : List Nat) : ∀ g, same g (laneFold f put ls g) = g := by
  induction ls with
  | nil => intro g; exact hrefl g
  | cons a r ih =>
    intro g
    rw [laneFold_cons]
    exact htrans _ _ _ (htrans _ _ _ (hflags g _) (hput _ _ _)) (ih _)

theorem laneFold_flags (f : Nat → LaneOut) (put : Nat → LaneOut → Group → Group)
    (hput : ∀ l x g, (put l x g).flg = g.flg) (ls : List Nat) : ∀ g : Group,
    flagsRaised g (laneFold f put ls g) (flagsOf ls fun l => (f l).flags) := by
  induction ls with
  | nil => intro g; simp [flagsRaised, laneFold, flagsOf]
  | cons l r ih =>
    intro g
    rw [laneFold_cons, flagsOf_cons]
    have := ih (put l (f l) (g.raiseFlags (f l).flags))
    simp only [flagsRaised, hput, raiseFlags_flg8] at this ⊢
    rw [this, BitVec.or_assoc]

/-- Clean lanes of an instruction in issue. -/
theorem clean_lane {s : State} {i : Instr} (hc : s.clean i = true) {l : Nat} (h : l ∈ maskLanes (s.acting i)) :
    badSource s.me s.entry.mask (shapeOfInstr i) i.fields l = none := by
  obtain ⟨h1, h2⟩ := mem_maskLanes.1 h
  have := List.all_eq_true.1 hc l (List.mem_range.2 h1)
  simpa [h2] using this

/-- An integer or floating-point instruction that runs in every acting lane with any write. -/
theorem arith_runs {i : Instr} {s : State} (ha : s.admits i = true) (hc : s.clean i = true) (traps : Bool)
    (f : Nat → Srcs → LaneOut) (put : Nat → LaneOut → Group → Group) (hplace : ∀ l o g, (put l o g).frontier = g.frontier ∧ (put l o g).subs = g.subs)
    (hput : ∀ l o g, (put l o g).mode = g.mode)
    (htr : traps = true → ∀ l ∈ maskLanes (s.acting i), trapped s.me.mode (f l (s.srcs i l)).flags = 0#8)
    (he : exec i s = ((begin_ i s).arith i.fields traps f put false).out) :
    ∃ u, exec i s = .next (u.settle s.cur) ∧ onlyGroup s u ∧ goesOn s i u ∧
      sameIssue (laneFold (fun l => f l (s.srcs i l)) put (maskLanes (s.acting i)) (s.begun i).me) u.me =
        laneFold (fun l => f l (s.srcs i l)) put (maskLanes (s.acting i)) (s.begun i).me := by
  have e0 := begin_admits ha
  have o0 := issueAt_over i s
  have hg : (issueAt i s (s.begun i)).g = (s.begun i).me := o0.2.1
  have hmode : (s.begun i).me.mode = s.me.mode := by rw [begun_me]; split <;> rfl
  have hsrc : (fun l => f l (laneSrcs (s.begun i).me s.entry.mask (shapeOfInstr i) i.fields l)) =
      fun l => f l (s.srcs i l) := by
    funext l; rw [(begun_srcs i s _ _ _ l).1]; rfl
  have hb : (fun l => (badSource (s.begun i).me s.entry.mask (shapeOfInstr i) i.fields l).map poisonFlt) =
      fun l => (badSource s.me s.entry.mask (shapeOfInstr i) i.fields l).map poisonFlt := by
    funext l; rw [(begun_srcs i s _ _ _ l).2]
  simp only [e0, Iss.arith, hg] at he
  change exec i s = ((issueAt i s (s.begun i)).laneRun (s.acting i) false
    (fun l => (badSource (s.begun i).me s.entry.mask (shapeOfInstr i) i.fields l).map poisonFlt)
    (fun l => f l (laneSrcs (s.begun i).me s.entry.mask (shapeOfInstr i) i.fields l)) traps put).out at he
  rw [hsrc, hb] at he
  obtain ⟨t', e1, o1⟩ := laneRun_over (s.acting i) false
    (fun l => (badSource s.me s.entry.mask (shapeOfInstr i) i.fields l).map poisonFlt) (fun l => f l (s.srcs i l))
    traps put s.me.mode hput (fun l hl => by rw [clean_lane hc hl]; rfl) htr o0 hmode
  have hpl := laneFold_place (fun l => f l (s.srcs i l)) put (fun l o g => (hplace l o g).1)
    (fun l o g => (hplace l o g).2) (maskLanes (s.acting i)) (s.begun i).me
  rw [(begun_place s i).1, (begun_place s i).2] at hpl
  obtain ⟨u, h1, h2, h3, h4⟩ := out_runs (i := i) (s := s) (t := t') ha (by rw [e1]; rfl) o1 hpl.1 hpl.2
  exact ⟨u, he.trans h1, h2, h4, h3⟩

theorem begun_preg (s : State) (i : Instr) (n : Nat) : (s.begun i).me.preg n = s.me.preg n := by
  rw [begun_me]; split <;> rfl

theorem samePreds_trans (a b c : Group) (h : samePreds a b = a) (k : samePreds b c = b) : samePreds a c = a := by
  have : samePreds a c = samePreds a (samePreds b c) := rfl
  rw [this, k, h]

theorem setPIn_samePreds (g : Group) (n : Nat) (m v : Mask) : samePreds g (g.setPIn n m v) = g := rfl

/-- An instruction whose lanes write predicates only. -/
theorem arith_preds {i : Instr} {s : State} (ha : s.admits i = true) (hc : s.clean i = true) (traps : Bool)
    (f : Nat → Srcs → LaneOut) (put : Nat → LaneOut → Group → Group) (ns : Nat → Bool) (val : Nat → Nat → Bool)
    (hsame : ∀ l o g, samePreds g (put l o g) = g) (hflg : ∀ l o g, (put l o g).flg = g.flg)
    (hp : ∀ l < 32, ∀ g n, ∀ l' < 32, ((put l (f l (s.srcs i l)) g).preg n).getLsbD l' =
      if decide (l' = l) && ns n then val n l else (g.preg n).getLsbD l')
    (htr : traps = true → ∀ l ∈ maskLanes (s.acting i), trapped s.me.mode (f l (s.srcs i l)).flags = 0#8)
    (he : exec i s = ((begin_ i s).arith i.fields traps f put false).out) :
    s.completes i fun u => onlyGroup s u ∧ goesOn s i u ∧
      sameIssue (s.begun i).me (samePreds (s.begun i).me u.me) = (s.begun i).me ∧
      predsWritten s.me u.me (s.acting i) ns val ∧
      flagsRaised s.me u.me (flagsOf (maskLanes (s.acting i)) fun l => (f l (s.srcs i l)).flags) := by
  obtain ⟨u, h1, h2, h4, h3⟩ := arith_runs ha hc traps f put
    (fun l o g => by
      have h := hsame l o g
      exact ⟨by have := congrArg Group.frontier h; exact this, by have := congrArg Group.subs h; exact this⟩)
    (fun l o g => by have := congrArg Group.mode (hsame l o g); exact this) htr he
  have hs := laneFold_inv (fun l => f l (s.srcs i l)) put samePreds (fun _ => rfl) samePreds_trans (fun _ _ => rfl)
    hsame (maskLanes (s.acting i)) (s.begun i).me
  have hf := laneFold_flags (fun l => f l (s.srcs i l)) put hflg (maskLanes (s.acting i)) (s.begun i).me
  have hq := laneFold_preds (fun l => f l (s.srcs i l)) put ns val hp (maskLanes (s.acting i))
    (fun l hl => (mem_maskLanes.1 hl).1) (s.begun i).me
  generalize laneFold (fun l => f l (s.srcs i l)) put (maskLanes (s.acting i)) (s.begun i).me = G at h3 hs hf hq
  have c1 := congrArg Group.p h3; change u.me.p = G.p at c1
  have c2 := congrArg Group.flg h3; change u.me.flg = G.flg at c2
  refine ⟨u, h1, h2, h4, ?_, ?_, ?_⟩
  · have e : sameIssue (s.begun i).me (samePreds (s.begun i).me u.me) = samePreds (s.begun i).me (sameIssue G u.me) := by
      have a1 := congrArg Group.frontier hs; have a2 := congrArg Group.loops hs
      have a3 := congrArg Group.windows hs; have a4 := congrArg Group.locks hs; have a5 := congrArg Group.promote hs
      simp only [samePreds] at a1 a2 a3 a4 a5
      simp only [sameIssue, samePreds, a1, a2, a3, a4, a5]
    rw [e, h3]; exact hs
  · intro n l hl
    have := hq n l hl
    rw [begun_preg] at this
    simp only [Group.preg] at this ⊢
    rw [c1, this]
    simp [mem_maskLanes, hl]
  · have b1 : (s.begun i).me.flg = s.me.flg := by rw [begun_me]; split <;> rfl
    simp only [flagsRaised, c2] at hf ⊢
    rw [hf, b1]

end Sys2Proof.Machine
end

