-- ==== Sys2Proof/Laws/Memory.lean ====
section
/-! SUPPORT. Memory keeps its one form (`Memory.wf`) under every operation that writes it, and the operations
that do not write it leave it as it was. -/

namespace Sys2Proof.Machine

open Sys2Proof

/-- Memory of a state is in its one form. -/
def State.memOk (s : State) : Prop := Memory.wf s.mem = true

theorem reset_memOk : State.reset.memOk := rfl

/-- What each step of a fold keeps, the fold keeps. -/
theorem foldl_keeps {α β : Type} (P : α → Prop) (f : α → β → α) (h : ∀ a b, P a → P (f a b)) (l : List β) :
    ∀ a, P a → P (l.foldl f a) := by
  induction l with
  | nil => exact fun _ ha => ha
  | cons b r ih => exact fun a ha => ih _ (h a b ha)

/-- A fold whose steps leave memory alone leaves it alone. -/
theorem foldl_mem {β : Type} (f : State → β → State) (h : ∀ s b, (f s b).mem = s.mem) (l : List β) :
    ∀ s : State, (l.foldl f s).mem = s.mem := by
  induction l with
  | nil => exact fun _ => rfl
  | cons b r ih => exact fun s => (ih _).trans (h s b)

/-! ### Operations that leave memory alone -/

@[simp] theorem State.poisonLine_mem (s : State) (l : Nat) : (s.poisonLine l).mem = s.mem := rfl
@[simp] theorem State.dropL1_mem (s : State) (c l : Nat) : (s.dropL1 c l).mem = s.mem := rfl
@[simp] theorem State.refresh_mem (s : State) (c : Nat) (b : Bool) : (s.refresh c b).mem = s.mem := rfl
@[simp] theorem State.claim_mem (s : State) (c op : Nat) (ls : List Nat) (bs : List (Nat × Nat)) :
    (s.claim c op ls bs).mem = s.mem := rfl

@[simp] theorem State.choose_mem (s : State) (n : Nat) : (s.choose n).2.mem = s.mem := by
  unfold State.choose; split <;> rfl

@[simp] theorem State.releaseLine_mem (s : State) (op l : Nat) : (s.releaseLine op l).mem = s.mem := by
  unfold State.releaseLine
  split
  · split <;> rfl
  · rfl

@[simp] theorem State.setPeerPoison_mem (s : State) (p l : Nat) (b : Bool) : (s.setPeerPoison p l b).mem = s.mem := by
  unfold State.setPeerPoison; split <;> rfl

@[simp] theorem State.countImplicit_mem (s : State) (c : Nat) : (s.countImplicit c).mem = s.mem :=
  foldl_mem (fun (s : State) l => s.modLaunch l fun x => { x with implb := x.implb + 1 }) (fun _ _ => rfl) _ _

@[simp] theorem State.countHome_mem (s : State) (l : Nat) : (s.countHome l).mem = s.mem := rfl

@[simp] theorem State.linkUse_mem (s : State) (p n : Nat) : (s.linkUse p n).mem = s.mem := by
  unfold State.linkUse; split <;> rfl

@[simp] theorem State.clearCovered_mem (s : State) (c : Nat) (ls : List Nat) : (s.clearCovered c ls).mem = s.mem := by
  refine foldl_mem _ (fun s l => ?_) _ _
  dsimp only
  split <;> rfl

/-! ### Operations that write memory -/

theorem memOk_of_mem {s t : State} (h : s.memOk) (e : t.mem = s.mem) : t.memOk := by
  unfold State.memOk at h ⊢; rw [e]; exact h

theorem State.putBytes_memOk : ∀ (bs : List Byte) {s : State}, s.memOk → ∀ pa : Nat, (s.putBytes pa bs).memOk
  | [], _, h, _ => h
  | b :: r, s, h, pa =>
    State.putBytes_memOk r (s := { s with mem := Sp.set 0#8 s.mem pa (b ^^^ s.garbleAt pa) }) (Sp.wf_set 0#8 _ _ _ h) _

theorem State.commitBytes_memOk {s : State} (h : s.memOk) (pa : Nat) (bs : List Byte) : (s.commitBytes pa bs).memOk :=
  State.putBytes_memOk bs h pa

theorem memOk_ite {p : Prop} [Decidable p] {s t : State} (hs : s.memOk) (ht : t.memOk) : (if p then s else t).memOk := by
  split
  · exact hs
  · exact ht

theorem State.mergeOne_memOk {s : State} (h : s.memOk) (u : Upd) : (s.mergeOne u).memOk := memOk_ite h (commitBytes_memOk h _ _)

theorem State.mergeCore_memOk {s : State} (h : s.memOk) (c : Nat) (sel : Upd → Bool) : (s.mergeCore c sel).memOk :=
  foldl_keeps State.memOk _ (fun _ u h => mergeOne_memOk h u) _ _ (memOk_of_mem h rfl)

theorem State.recall_memOk {s : State} (h : s.memOk) (line : Nat) : (s.recall line).memOk := by
  unfold State.recall
  split
  · exact h
  · exact mergeCore_memOk h _ _
  · exact foldl_keeps State.memOk _ (fun _ _ h => mergeCore_memOk h _ _) _ _ (memOk_of_mem h (choose_mem _ _))

theorem State.evictL1_memOk {s : State} (h : s.memOk) (c l : Nat) : (s.evictL1 c l).memOk :=
  memOk_ite (mergeCore_memOk h _ _) (memOk_of_mem h (dropL1_mem _ _ _))

theorem State.maybeEvict_memOk {s : State} (h : s.memOk) (c l : Nat) : (s.maybeEvict c l).memOk := by
  have k : ∀ n, (s.choose n).2.memOk := fun n => memOk_of_mem h (choose_mem _ _)
  unfold State.maybeEvict
  exact memOk_ite h (memOk_ite (evictL1_memOk (k _) _ _) (memOk_ite (k _) (evictL1_memOk (k _) _ _)))

theorem State.commitCore_memOk {s : State} (h : s.memOk) (c : Nat) : (s.commitCore c).memOk := by
  unfold State.commitCore
  dsimp only
  refine memOk_of_mem (s := _) ?_ (modCore_mem _ _ _)
  refine foldl_keeps State.memOk _ (fun _ _ h => memOk_of_mem h (poisonLine_mem _ _)) _ _ ?_
  refine foldl_keeps State.memOk _ (fun t l h => ?_) _ _ h
  have k : (List.foldl (fun u kv => u.putBytes kv.1 [u.missByte c kv.1]) (t.countHome l)
      (Sp.slice ((s.core c).overlay.filter fun kv => !s.isOwned (lineOf kv.1)) (128 * l) 128)).memOk :=
    foldl_keeps State.memOk _ (fun _ _ h => putBytes_memOk _ h _) _ _ (memOk_of_mem h (countHome_mem _ _))
  exact memOk_ite k k

theorem State.boundary_memOk {s : State} (h : s.memOk) (c : Nat) : (s.boundary c).memOk :=
  memOk_of_mem (commitCore_memOk h c) (refresh_mem _ _ _)

theorem State.launchBoundary_memOk {s : State} (h : s.memOk) (c : Nat) : (s.launchBoundary c).memOk := by
  refine foldl_keeps State.memOk _ (fun s k h => ?_) _ _ (memOk_of_mem (commitCore_memOk h c) rfl)
  split
  · exact memOk_of_mem h rfl
  · exact h

theorem State.implicitBoundary_memOk {s : State} (h : s.memOk) (c : Nat) : (s.implicitBoundary c).memOk :=
  foldl_keeps State.memOk (fun (s : State) l => s.modLaunch l fun x => { x with implb := x.implb + 1 })
    (fun _ _ h => memOk_of_mem h (modLaunch_mem _ _ _)) _ _ (memOk_of_mem (boundary_memOk h c) (modCore_mem _ _ _))

/-- The home is read: update-only lines are merged and the access counted. -/
theorem State.reach_memOk {s : State} (h : s.memOk) (l : Nat) : ((s.recall l).countHome l).memOk :=
  memOk_of_mem (recall_memOk h l) (countHome_mem _ _)

theorem State.storeBytes_memOk {s : State} (h : s.memOk) (c : Nat) (lf : Leaf) (pa : Nat) (bs : List Byte) (bad : Bool) :
    (s.storeBytes c lf pa bs bad).memOk := by
  unfold State.storeBytes
  dsimp only
  split
  · have k := commitBytes_memOk (memOk_of_mem (reach_memOk h (lineOf pa)) (dropL1_mem _ c (lineOf pa))) pa bs
    exact memOk_ite (memOk_of_mem k rfl) k
  · refine memOk_of_mem (s := _) ?_ (modCore_mem _ _ _)
    have h' := memOk_ite (p := (s.core c).upd.any (fun u => lineOf u.addr == lineOf pa) = true)
      (mergeCore_memOk h c fun u => lineOf u.addr == lineOf pa) h
    exact memOk_ite (implicitBoundary_memOk h' c) h'

theorem State.loadBytes_memOk {s : State} (h : s.memOk) (c : Nat) (lf : Leaf) (pa n : Nat) :
    (s.loadBytes c lf pa n).2.2.memOk := by
  unfold State.loadBytes
  dsimp only
  split
  · exact memOk_of_mem (reach_memOk h _) (dropL1_mem _ _ _)
  · split
    · exact reach_memOk h _
    · have h' : (s.maybeEvict c (lineOf pa)).memOk := maybeEvict_memOk h _ _
      split
      · exact h'
      · exact memOk_ite (reach_memOk h' _) (memOk_of_mem (reach_memOk h' _) (modCore_mem _ _ _))

theorem State.atomAt_memOk {s : State} (h : s.memOk) (c pa n : Nat) (f : Nat → Nat) : (s.atomAt c pa n f).2.2.memOk := by
  unfold State.atomAt
  dsimp only
  have k := reach_memOk h (lineOf pa)
  have k' := memOk_ite (p := (((s.recall (lineOf pa)).countHome (lineOf pa)).core c).pendingLines.contains (lineOf pa) = true)
    (implicitBoundary_memOk k c) k
  exact memOk_of_mem (memOk_ite k' (commitBytes_memOk k' _ _)) (dropL1_mem _ _ _)

theorem State.updAt_memOk {s : State} (h : s.memOk) (c grp : Nat) (lf : Leaf) (pa n : Nat) (op : BitVec 3) (ty : Ty)
    (v : Nat) : (s.updAt c grp lf pa n op ty v).memOk := by
  have h : (s.dropL1 c (lineOf pa)).memOk := memOk_of_mem h (dropL1_mem _ _ _)
  unfold State.updAt
  dsimp only
  split
  · exact commitBytes_memOk (reach_memOk h _) _ _
  · refine memOk_of_mem (s := _) (maybeEvict_memOk ?_ _ _) (modCore_mem _ _ _)
    have h' := memOk_ite (p := ((s.dropL1 c (lineOf pa)).core c).pendingLines.contains (lineOf pa) = true)
      (implicitBoundary_memOk h c) h
    exact memOk_ite (mergeCore_memOk h' c _) h'

theorem State.engineRead_memOk {s : State} (h : s.memOk) (c pa n : Nat) : (s.engineRead c pa n).2.2.memOk :=
  reach_memOk h _

theorem State.engineWrite_memOk {s : State} (h : s.memOk) (pa : Nat) (bs : List Byte) (bad : Bool) :
    (s.engineWrite pa bs bad).memOk := by
  have k := commitBytes_memOk (memOk_of_mem h (countHome_mem s (lineOf pa))) pa bs
  exact memOk_ite (memOk_of_mem k rfl) k

theorem State.peerCommit_memOk {s : State} (h : s.memOk) (peer pa : Nat) (bs : List Byte) :
    (s.peerCommit peer pa bs).memOk :=
  memOk_ite (commitBytes_memOk h _ _) (memOk_of_mem h rfl)

theorem State.commitPart_memOk {s : State} (h : s.memOk) (c peer : Nat) (sel : Nat → Bool) :
    (s.commitPart c peer sel).memOk := by
  refine memOk_of_mem (s := _) ?_ (modCore_mem _ _ _)
  exact foldl_keeps State.memOk _ (fun _ _ h => memOk_ite (memOk_of_mem h (setPeerPoison_mem _ _ _ _)) h) _ _
    (foldl_keeps State.memOk _ (fun _ _ h => peerCommit_memOk h _ _ _) _ _ (memOk_of_mem h (linkUse_mem _ _ _)))

theorem State.commitPeer_memOk {s : State} (h : s.memOk) (c peer : Nat) : (s.commitPeer c peer).memOk :=
  commitPart_memOk h _ _ _

theorem State.commitPeers_memOk {s : State} (h : s.memOk) (c : Nat) : (s.commitPeers c).memOk :=
  foldl_keeps State.memOk _ (fun _ _ h => commitPeer_memOk h _ _) _ _ h

theorem State.peerStoreBytes_memOk {s : State} (h : s.memOk) (c peer pa : Nat) (bs : List Byte) :
    (s.peerStoreBytes c peer pa bs).memOk := by
  unfold State.peerStoreBytes
  dsimp only
  refine memOk_of_mem (s := _) ?_ (modCore_mem _ _ _)
  split
  · exact h
  · exact memOk_of_mem (commitPeer_memOk h c peer) (countImplicit_mem _ _)
  · exact memOk_of_mem (commitPeers_memOk h c) (countImplicit_mem _ _)

theorem State.peerAtomAt_memOk {s : State} (h : s.memOk) (c peer pa n : Nat) (f : Nat → Nat) :
    (s.peerAtomAt c peer pa n f).2.2.memOk := by
  unfold State.peerAtomAt
  dsimp only
  have k := memOk_ite (p := s.pendsAt c peer (lineOf pa) = true)
    (memOk_of_mem (commitPart_memOk h c peer (· == lineOf pa)) (countImplicit_mem _ c)) h
  have k := memOk_of_mem k (linkUse_mem _ peer (2 * n))
  have e := memOk_of_mem k ((dropL1_mem _ c (lineOf pa)).trans (countHome_mem _ (lineOf pa)))
  exact memOk_ite (memOk_ite e k) (peerCommit_memOk (memOk_ite e k) _ _ _)

/-! ### Translation and the device's own accesses -/

theorem State.markEntry_memOk {s : State} (h : s.memOk) (e : Nat) (d : Bool) : (s.markEntry e d).memOk := by
  exact memOk_ite h (commitBytes_memOk h _ _)

@[simp] theorem tlbPut_mem (s : State) (cap : Nat) (m : Sp Leaf) (k : Nat) (lf : Leaf) :
    (tlbPut s cap m k lf).2.mem = s.mem := by
  unfold tlbPut; dsimp only; split <;> simp

@[simp] theorem State.lookup_mem (s : State) (c asid va : Nat) : (s.lookup c asid va).2.mem = s.mem := by
  unfold State.lookup
  dsimp only
  split
  · rfl
  · split
    · split <;> simp
    · rfl

theorem State.translate_memOk {s : State} (h : s.memOk) (c asid va : Nat) (a : Access) :
    (s.translate c asid va a).2.memOk := by
  unfold State.translate
  split
  · exact h
  · have hl : (s.lookup c asid va).2.memOk := memOk_of_mem h (lookup_mem _ _ _ _)
    revert hl
    generalize s.lookup c asid va = r
    obtain ⟨w, t⟩ := r
    intro hl
    cases w <;> dsimp only
    · split
      · exact hl
      · split
        · exact hl
        · split
          · exact memOk_of_mem (markEntry_memOk hl _ _) rfl
          · exact markEntry_memOk hl _ _
    all_goals exact hl

theorem State.recallRange_memOk {s : State} (h : s.memOk) (asid va n : Nat) : (s.recallRange asid va n).memOk := by
  unfold State.recallRange
  split
  · exact h
  · refine foldl_keeps State.memOk _ (fun s l h => ?_) _ _ h
    split
    · exact recall_memOk h _
    · exact h

theorem State.markPages_memOk {s : State} (h : s.memOk) (asid va n : Nat) (w : Bool) :
    (s.markPages asid va n w).memOk := by
  refine foldl_keeps State.memOk _ (fun s p h => ?_) _ _ h
  dsimp only
  split
  · exact markEntry_memOk h _ _
  · exact h

theorem State.deviceRead_memOk {s : State} (h : s.memOk) (asid va n : Nat) : (s.deviceRead asid va n).2.memOk := by
  unfold State.deviceRead
  split
  · exact memOk_of_mem h rfl
  · exact markPages_memOk (recallRange_memOk h _ _ _) _ _ _ _

theorem State.deviceWrite_memOk {s : State} (h : s.memOk) (asid va : Nat) (bs : List Byte) :
    (s.deviceWrite asid va bs).memOk := by
  refine foldl_keeps State.memOk _ (fun s l h => ?_) _ _ (markPages_memOk (recallRange_memOk h _ _ _) _ _ _ _)
  split
  · exact commitBytes_memOk h _ _
  · exact h

theorem State.trace_memOk {s : State} (h : s.memOk) (tn gid kind data : Nat) : (s.trace tn gid kind data).memOk := by
  unfold State.trace
  dsimp only
  split
  · exact h
  · exact memOk_of_mem (deviceWrite_memOk h _ _ _) (modPart_mem _ _ _)

/-! ### Pages that move, and the loaded program -/

theorem Sp.wf_putAll {α β : Type} [DecidableEq α] (d : α) (key : β → Nat) (val : β → α) (l : List β)
    (hv : ∀ b ∈ l, val b ≠ d) : ∀ m : Sp α, Sp.wf d m = true →
      Sp.wf d (l.foldl (fun m b => Sp.put m (key b) (val b)) m) = true := by
  induction l with
  | nil => exact fun _ h => h
  | cons b r ih =>
    intro m h
    refine ih (fun b hb => hv b (List.mem_cons_of_mem _ hb)) _ ?_
    have := Sp.wf_set d m (key b) (val b) h
    rwa [Sp.set, if_neg (hv b List.mem_cons_self)] at this

theorem copyKeys_wf (m : List Host.Cell) (a b n : Nat) (h : Memory.wf m = true) :
    Memory.wf (copyKeys m a b n) = true := by
  refine Sp.wf_putAll 0#8 (fun kv : Nat × Byte => b + (kv.1 - a)) (·.2) _ (fun kv hk => ?_) _ (Sp.wf_filter 0#8 _ _ h)
  exact ((Sp.wf_iff 0#8 m).1 h).2 kv (List.mem_filter.1 hk).1

theorem moveKeys_wf (m : List Host.Cell) (a b n : Nat) (h : Memory.wf m = true) : Memory.wf (moveKeys m a b n) = true :=
  Sp.wf_filter 0#8 _ _ (copyKeys_wf m a b n h)

/-! ### Frames that change their key (14 R352) -/

theorem State.rekey_memOk {s : State} (h : s.memOk) (f : Nat) : (s.rekey f).memOk :=
  memOk_ite (memOk_of_mem h rfl) (Sp.wf_filter 0#8 _ _ h)

theorem State.giveFrame_memOk {s : State} (h : s.memOk) (f owner : Nat) : (s.giveFrame f owner).memOk := by
  have k : (State.modFw (if Sp.get 0 s.fw.frames f = 0 then s
      else { s with memKey := Sp.set 0 s.memKey f (s.keyOf (Sp.get 0 s.fw.frames f)) }) fun w =>
      { w with frames := Sp.set 0 w.frames f owner }).memOk := by
    refine memOk_of_mem h ?_
    split <;> rfl
  exact memOk_ite k (rekey_memOk k f)

theorem State.makeKey_memOk {s : State} (h : s.memOk) (owner : Nat) : (s.makeKey owner).memOk :=
  foldl_keeps State.memOk _ (fun _ _ h => rekey_memOk h _) _ _ (memOk_of_mem h rfl)

theorem loadImage_wf (w : Nat) : Memory.wf (loadImage w) = true := by
  unfold loadImage
  dsimp only
  iterate 5 refine Sp.wf_write 0#8 _ _ _ ?_
  rfl

theorem withFetchWord_memOk (s : State) (nbits w : Nat) : (s.withFetchWord nbits w).memOk := by
  unfold State.memOk State.withFetchWord
  exact loadImage_wf (w % 2 ^ nbits)

/-! ### Stores take no line from an engine and give it none -/

/-- No engine owns a line. -/
def State.noneOwned (s : State) : Prop := s.owned = []

theorem noneOwned_of {s t : State} (h : s.noneOwned) (e : t.owned = s.owned) : t.noneOwned := e.trans h

theorem noneOwned_ite {p : Prop} [Decidable p] {s t : State} (hs : s.noneOwned) (ht : t.noneOwned) :
    (if p then s else t).noneOwned := by
  split
  · exact hs
  · exact ht

theorem State.isOwned_none {s : State} (h : s.noneOwned) (l : Nat) : s.isOwned l = false := by
  unfold State.noneOwned at h
  simp [State.isOwned, h, Sp.has, Sp.get?]

theorem State.putBytes_owned : ∀ (bs : List Byte) (s : State) (pa : Nat), (s.putBytes pa bs).owned = s.owned
  | [], _, _ => rfl
  | _ :: r, _, pa => State.putBytes_owned r _ (pa + 1)

theorem State.commitBytes_owned (s : State) (pa : Nat) (bs : List Byte) : (s.commitBytes pa bs).owned = s.owned :=
  State.putBytes_owned bs s pa

theorem State.mergeOne_noneOwned {s : State} (h : s.noneOwned) (u : Upd) : (s.mergeOne u).noneOwned :=
  noneOwned_ite h (noneOwned_of h (commitBytes_owned _ _ _))
theorem State.poisonLine_noneOwned {s : State} (h : s.noneOwned) (l : Nat) : (s.poisonLine l).noneOwned := h

theorem State.mergeCore_noneOwned {s : State} (h : s.noneOwned) (c : Nat) (sel : Upd → Bool) : (s.mergeCore c sel).noneOwned :=
  foldl_keeps State.noneOwned _ (fun _ u h => mergeOne_noneOwned h u) _ _ (noneOwned_of h rfl)

theorem State.choose_owned (s : State) (n : Nat) : (s.choose n).2.owned = s.owned := by
  unfold State.choose; split <;> rfl

theorem State.recall_noneOwned {s : State} (h : s.noneOwned) (line : Nat) : (s.recall line).noneOwned := by
  unfold State.recall
  split
  · exact h
  · exact mergeCore_noneOwned h _ _
  · exact foldl_keeps State.noneOwned _ (fun _ _ h => mergeCore_noneOwned h _ _) _ _ (noneOwned_of h (choose_owned _ _))

theorem State.boundary_noneOwned {s : State} (h : s.noneOwned) (c : Nat) : (s.boundary c).noneOwned := by
  unfold State.boundary State.commitCore
  dsimp only
  refine noneOwned_of (s := _) (noneOwned_of (s := _) ?_ (modCore_owned _ _ _)) rfl
  refine foldl_keeps State.noneOwned _ (fun _ _ h => poisonLine_noneOwned h _) _ _ ?_
  refine foldl_keeps State.noneOwned _ (fun t l h => ?_) _ _ h
  have k : (List.foldl (fun u kv => u.putBytes kv.1 [u.missByte c kv.1]) (t.countHome l)
      (Sp.slice ((s.core c).overlay.filter fun kv => !s.isOwned (lineOf kv.1)) (128 * l) 128)).noneOwned :=
    foldl_keeps State.noneOwned _ (fun _ _ h => noneOwned_of h (putBytes_owned _ _ _)) _ _ (noneOwned_of h rfl)
  exact noneOwned_ite k k

theorem State.implicitBoundary_noneOwned {s : State} (h : s.noneOwned) (c : Nat) : (s.implicitBoundary c).noneOwned :=
  foldl_keeps State.noneOwned (fun (s : State) l => s.modLaunch l fun x => { x with implb := x.implb + 1 })
    (fun _ _ h => noneOwned_of h rfl) _ _ (noneOwned_of (boundary_noneOwned h c) rfl)

theorem State.storeBytes_noneOwned {s : State} (h : s.noneOwned) (c : Nat) (lf : Leaf) (pa : Nat) (bs : List Byte)
    (bad : Bool) : (s.storeBytes c lf pa bs bad).noneOwned := by
  unfold State.storeBytes
  dsimp only
  split
  · have k := noneOwned_of (s := (((s.recall (lineOf pa)).countHome (lineOf pa)).dropL1 c (lineOf pa)))
      (noneOwned_of (recall_noneOwned h (lineOf pa)) rfl) (commitBytes_owned _ pa bs)
    exact noneOwned_ite (noneOwned_of k rfl) k
  · refine noneOwned_of (s := _) ?_ rfl
    have h' := noneOwned_ite (p := (s.core c).upd.any (fun u => lineOf u.addr == lineOf pa) = true)
      (mergeCore_noneOwned h c fun u => lineOf u.addr == lineOf pa) h
    exact noneOwned_ite (implicitBoundary_noneOwned h' c) h'

theorem State.storeHeld_none {s : State} (h : s.noneOwned) (c : Nat) (lf : Leaf) (pa : Nat) : s.storeHeld c lf pa = [] := by
  have e : s.isOwned = fun _ => false := funext (isOwned_none h)
  simp [State.storeHeld, State.boundaryHeld, e]

/-- Where no engine owns a line, nothing holds the stores of an image back (15 R380; 08 R191). -/
theorem imgStore_ok (c : Nat) (bad : Nat → Bool) (ps : List (Nat × Nat × Leaf)) :
    ∀ (k : Nat) (bs : List Byte) (s : State), s.noneOwned → ∃ v, imgStore c bad ps k bs s = .ok v := by
  induction ps with
  | nil => exact fun _ _ s _ => ⟨s, rfl⟩
  | cons p r ih =>
    intro k bs s h
    obtain ⟨pa, n, lf⟩ := p
    simp only [imgStore, State.storeHeld_none h]
    exact ih _ _ _ (State.storeBytes_noneOwned h _ _ _ _ _)

end Sys2Proof.Machine
end

