-- ==== Sys2Proof/Laws/PerInstr.lean ====
section
/-! SUPPORT. What the encoding of an instruction shows at once, constructor by constructor: its opcode stands in
the OP field and LEN gives its length (03 R40, R41). -/

namespace Sys2Proof

theorem getLsbD_append {m n : Nat} (x : BitVec m) (y : BitVec n) (k : Nat) :
    (x ++ y).getLsbD k = if k < n then y.getLsbD k else x.getLsbD (k - n) := by
  exact BitVec.getLsbD_append

theorem encFirst_op (b a : BitVec 8) (op : Nat) (g : Option Guard) (len : BitVec 2) :
    (encFirst b a op g len).extractLsb' 8 8 = BitVec.ofNat 8 op := by
  apply BitVec.eq_of_getLsbD_eq
  intro k hk
  rw [BitVec.getLsbD_extractLsb', decide_eq_true hk, Bool.true_and]
  refine (getLsbD_append (b ++ a ++ BitVec.ofNat 8 op ++ encGuard g) len _).trans ?_
  rw [if_neg (by omega)]
  refine (getLsbD_append (b ++ a ++ BitVec.ofNat 8 op) (encGuard g) _).trans ?_
  rw [if_neg (by omega)]
  refine (getLsbD_append (b ++ a) (BitVec.ofNat 8 op) _).trans ?_
  rw [if_pos (by omega), show 8 + k - 2 - 6 = k by omega]

theorem encFirst_len (b a : BitVec 8) (op : Nat) (g : Option Guard) (len : BitVec 2) :
    (encFirst b a op g len).extractLsb' 0 2 = len := by
  apply BitVec.eq_of_getLsbD_eq
  intro k hk
  rw [BitVec.getLsbD_extractLsb', decide_eq_true hk, Bool.true_and]
  refine (getLsbD_append (b ++ a ++ BitVec.ofNat 8 op ++ encGuard g) len _).trans ?_
  rw [if_pos (by omega), Nat.zero_add]

theorem low_of_append {n : Nat} (x : BitVec n) (y : BitVec 32) (at_ w : Nat) (h : at_ + w ≤ 32) :
    ((x ++ y).setWidth 160).extractLsb' at_ w = y.extractLsb' at_ w := by
  apply BitVec.eq_of_getLsbD_eq
  intro k hk
  have h1 : at_ + k < 32 := by omega
  have h2 : at_ + k < 160 := by omega
  simp [BitVec.getLsbD_append, hk, h1, h2]

theorem low_of_word (y : BitVec 32) (at_ w : Nat) (h : at_ + w ≤ 32) :
    (y.setWidth 160).extractLsb' at_ w = y.extractLsb' at_ w := by
  apply BitVec.eq_of_getLsbD_eq
  intro k hk
  have h2 : at_ + k < 160 := by omega
  simp [hk, h2]

theorem low_of_full (x : BitVec 64) (z : BitVec 64) (y : BitVec 32) (at_ w : Nat) (h : at_ + w ≤ 32) :
    BitVec.extractLsb' at_ w (x ++ z ++ y) = y.extractLsb' at_ w := by
  apply BitVec.eq_of_getLsbD_eq
  intro k hk
  rw [BitVec.getLsbD_extractLsb', BitVec.getLsbD_extractLsb', decide_eq_true hk, Bool.true_and, Bool.true_and]
  refine (getLsbD_append (x ++ z) y _).trans ?_
  rw [if_pos (by omega)]

/-- The fields of the first word stand in the low 32 bits of every encoding. -/
theorem encForm_first (op : Nat) (f : Form) (at_ w : Nat) (h : at_ + w ≤ 32) :
    ∃ b a, (encForm op f).extractLsb' at_ w = (encFirst b a op f.guard (match f.len with
      | 4 => 0#2
      | 20 => 3#2
      | _ => match f with
        | .b2l _ _ => 2#2
        | _ => 1#2)).extractLsb' at_ w := by
  cases f with
  | b0 x => exact ⟨_, _, low_of_word _ at_ w h⟩
  | b2 x => exact ⟨_, _, low_of_word _ at_ w h⟩
  | b2l x l => exact ⟨_, _, low_of_append _ _ at_ w h⟩
  | bi x => exact ⟨_, _, low_of_word _ at_ w h⟩
  | sb x => exact ⟨_, _, low_of_word _ at_ w h⟩
  | xf x =>
    unfold encForm Form.len Form.guard; dsimp only
    split
    · rename_i hl; rw [hl]; exact ⟨_, _, low_of_append _ _ at_ w h⟩
    · rename_i l hl; rw [hl]; exact ⟨_, _, low_of_full _ _ _ at_ w h⟩
  | fb x =>
    unfold encForm Form.len Form.guard; dsimp only
    split
    · rename_i hl; rw [hl]; exact ⟨_, _, low_of_append _ _ at_ w h⟩
    · rename_i l hl; rw [hl]; exact ⟨_, _, low_of_full _ _ _ at_ w h⟩

theorem encForm_op (op : Nat) (f : Form) : wOp (encForm op f) = BitVec.ofNat 8 op := by
  obtain ⟨b, a, h⟩ := encForm_first op f 8 8 (by omega)
  exact h.trans (encFirst_op ..)

theorem encForm_len (op : Nat) (f : Form) : wordLen (encForm op f) = f.len := by
  obtain ⟨b, a, h⟩ := encForm_first op f 0 2 (by omega)
  unfold wordLen wLen
  rw [h, encFirst_len]
  cases f with
  | xf x => rcases x with ⟨_, _ | _⟩ <;> rfl
  | fb x => rcases x with ⟨_, _ | _⟩ <;> rfl
  | _ => rfl

/-- An instruction that has words: OP and LEN of its encoding are its own. -/
def Laws.Encodable.Statement (i : Instr) : Prop :=
  i.form.isSome = true → wOp (encode i) = i.op ∧ wordLen (encode i) = i.len

theorem encodes_own (i : Instr) : Laws.Encodable.Statement i := by
  intro h
  unfold encode Instr.op Instr.len
  obtain ⟨p, hp⟩ := Option.isSome_iff_exists.1 h
  rw [hp]
  exact ⟨encForm_op p.1 p.2, encForm_len p.1 p.2⟩

theorem Laws.Encodable.nopBase a1 : Laws.Encodable.Statement (.nopBase a1) := encodes_own _
theorem Laws.Encodable.nop a1 : Laws.Encodable.Statement (.nop a1) := encodes_own _
theorem Laws.Encodable.braShort a1 : Laws.Encodable.Statement (.braShort a1) := encodes_own _
theorem Laws.Encodable.bra a1 : Laws.Encodable.Statement (.bra a1) := encodes_own _
theorem Laws.Encodable.brx a1 : Laws.Encodable.Statement (.brx a1) := encodes_own _
theorem Laws.Encodable.call a1 : Laws.Encodable.Statement (.call a1) := encodes_own _
theorem Laws.Encodable.callx a1 : Laws.Encodable.Statement (.callx a1) := encodes_own _
theorem Laws.Encodable.retBase a1 : Laws.Encodable.Statement (.retBase a1) := encodes_own _
theorem Laws.Encodable.ret a1 : Laws.Encodable.Statement (.ret a1) := encodes_own _
theorem Laws.Encodable.exitBase a1 : Laws.Encodable.Statement (.exitBase a1) := encodes_own _
theorem Laws.Encodable.exit a1 : Laws.Encodable.Statement (.exit a1) := encodes_own _
theorem Laws.Encodable.cset a1 : Laws.Encodable.Statement (.cset a1) := encodes_own _
theorem Laws.Encodable.conv a1 : Laws.Encodable.Statement (.conv a1) := encodes_own _
theorem Laws.Encodable.loop a1 : Laws.Encodable.Statement (.loop a1) := encodes_own _
theorem Laws.Encodable.lbrk a1 : Laws.Encodable.Statement (.lbrk a1) := encodes_own _
theorem Laws.Encodable.yieldBase a1 : Laws.Encodable.Statement (.yieldBase a1) := encodes_own _
theorem Laws.Encodable.yield a1 : Laws.Encodable.Statement (.yield a1) := encodes_own _
theorem Laws.Encodable.sleep a1 : Laws.Encodable.Statement (.sleep a1) := encodes_own _
theorem Laws.Encodable.sleepWake a1 : Laws.Encodable.Statement (.sleepWake a1) := encodes_own _
theorem Laws.Encodable.idemb a1 : Laws.Encodable.Statement (.idemb a1) := encodes_own _
theorem Laws.Encodable.ideme a1 : Laws.Encodable.Statement (.ideme a1) := encodes_own _
theorem Laws.Encodable.bar a1 : Laws.Encodable.Statement (.bar a1) := encodes_own _
theorem Laws.Encodable.bara a1 : Laws.Encodable.Statement (.bara a1) := encodes_own _
theorem Laws.Encodable.barw a1 : Laws.Encodable.Statement (.barw a1) := encodes_own _
theorem Laws.Encodable.bari a1 : Laws.Encodable.Statement (.bari a1) := encodes_own _
theorem Laws.Encodable.cbar a1 : Laws.Encodable.Statement (.cbar a1) := encodes_own _
theorem Laws.Encodable.obji a1 : Laws.Encodable.Statement (.obji a1) := encodes_own _
theorem Laws.Encodable.obja a1 : Laws.Encodable.Statement (.obja a1) := encodes_own _
theorem Laws.Encodable.objw a1 : Laws.Encodable.Statement (.objw a1) := encodes_own _
theorem Laws.Encodable.objt a1 : Laws.Encodable.Statement (.objt a1) := encodes_own _
theorem Laws.Encodable.movBase a1 : Laws.Encodable.Statement (.movBase a1) := encodes_own _
theorem Laws.Encodable.movBaseLit a1 a2 : Laws.Encodable.Statement (.movBaseLit a1 a2) := encodes_own _
theorem Laws.Encodable.mov a1 : Laws.Encodable.Statement (.mov a1) := encodes_own _
theorem Laws.Encodable.moviBase a1 : Laws.Encodable.Statement (.moviBase a1) := encodes_own _
theorem Laws.Encodable.movi a1 : Laws.Encodable.Statement (.movi a1) := encodes_own _
theorem Laws.Encodable.sel a1 : Laws.Encodable.Statement (.sel a1) := encodes_own _
theorem Laws.Encodable.iaddBase a1 : Laws.Encodable.Statement (.iaddBase a1) := encodes_own _
theorem Laws.Encodable.iaddBaseLit a1 a2 : Laws.Encodable.Statement (.iaddBaseLit a1 a2) := encodes_own _
theorem Laws.Encodable.iadd a1 : Laws.Encodable.Statement (.iadd a1) := encodes_own _
theorem Laws.Encodable.isubBase a1 : Laws.Encodable.Statement (.isubBase a1) := encodes_own _
theorem Laws.Encodable.isubBaseLit a1 a2 : Laws.Encodable.Statement (.isubBaseLit a1 a2) := encodes_own _
theorem Laws.Encodable.isub a1 : Laws.Encodable.Statement (.isub a1) := encodes_own _
theorem Laws.Encodable.iaddc a1 : Laws.Encodable.Statement (.iaddc a1) := encodes_own _
theorem Laws.Encodable.imul a1 : Laws.Encodable.Statement (.imul a1) := encodes_own _
theorem Laws.Encodable.imulh a1 : Laws.Encodable.Statement (.imulh a1) := encodes_own _
theorem Laws.Encodable.imad a1 : Laws.Encodable.Statement (.imad a1) := encodes_own _
theorem Laws.Encodable.iminBase a1 : Laws.Encodable.Statement (.iminBase a1) := encodes_own _
theorem Laws.Encodable.iminBaseLit a1 a2 : Laws.Encodable.Statement (.iminBaseLit a1 a2) := encodes_own _
theorem Laws.Encodable.imin a1 : Laws.Encodable.Statement (.imin a1) := encodes_own _
theorem Laws.Encodable.imaxBase a1 : Laws.Encodable.Statement (.imaxBase a1) := encodes_own _
theorem Laws.Encodable.imaxBaseLit a1 a2 : Laws.Encodable.Statement (.imaxBaseLit a1 a2) := encodes_own _
theorem Laws.Encodable.imax a1 : Laws.Encodable.Statement (.imax a1) := encodes_own _
theorem Laws.Encodable.iabs a1 : Laws.Encodable.Statement (.iabs a1) := encodes_own _
theorem Laws.Encodable.andBase a1 : Laws.Encodable.Statement (.andBase a1) := encodes_own _
theorem Laws.Encodable.andBaseLit a1 a2 : Laws.Encodable.Statement (.andBaseLit a1 a2) := encodes_own _
theorem Laws.Encodable.and a1 : Laws.Encodable.Statement (.and a1) := encodes_own _
theorem Laws.Encodable.orBase a1 : Laws.Encodable.Statement (.orBase a1) := encodes_own _
theorem Laws.Encodable.orBaseLit a1 a2 : Laws.Encodable.Statement (.orBaseLit a1 a2) := encodes_own _
theorem Laws.Encodable.or a1 : Laws.Encodable.Statement (.or a1) := encodes_own _
theorem Laws.Encodable.xorBase a1 : Laws.Encodable.Statement (.xorBase a1) := encodes_own _
theorem Laws.Encodable.xorBaseLit a1 a2 : Laws.Encodable.Statement (.xorBaseLit a1 a2) := encodes_own _
theorem Laws.Encodable.xor a1 : Laws.Encodable.Statement (.xor a1) := encodes_own _
theorem Laws.Encodable.andn a1 : Laws.Encodable.Statement (.andn a1) := encodes_own _
theorem Laws.Encodable.not a1 : Laws.Encodable.Statement (.not a1) := encodes_own _
theorem Laws.Encodable.shlBase a1 : Laws.Encodable.Statement (.shlBase a1) := encodes_own _
theorem Laws.Encodable.shlBaseLit a1 a2 : Laws.Encodable.Statement (.shlBaseLit a1 a2) := encodes_own _
theorem Laws.Encodable.shl a1 : Laws.Encodable.Statement (.shl a1) := encodes_own _
theorem Laws.Encodable.shrBase a1 : Laws.Encodable.Statement (.shrBase a1) := encodes_own _
theorem Laws.Encodable.shrBaseLit a1 a2 : Laws.Encodable.Statement (.shrBaseLit a1 a2) := encodes_own _
theorem Laws.Encodable.shr a1 : Laws.Encodable.Statement (.shr a1) := encodes_own _
theorem Laws.Encodable.sarBase a1 : Laws.Encodable.Statement (.sarBase a1) := encodes_own _
theorem Laws.Encodable.sarBaseLit a1 a2 : Laws.Encodable.Statement (.sarBaseLit a1 a2) := encodes_own _
theorem Laws.Encodable.sar a1 : Laws.Encodable.Statement (.sar a1) := encodes_own _
theorem Laws.Encodable.shrr a1 : Laws.Encodable.Statement (.shrr a1) := encodes_own _
theorem Laws.Encodable.rot a1 : Laws.Encodable.Statement (.rot a1) := encodes_own _
theorem Laws.Encodable.clz a1 : Laws.Encodable.Statement (.clz a1) := encodes_own _
theorem Laws.Encodable.popc a1 : Laws.Encodable.Statement (.popc a1) := encodes_own _
theorem Laws.Encodable.brev a1 : Laws.Encodable.Statement (.brev a1) := encodes_own _
theorem Laws.Encodable.bfx a1 : Laws.Encodable.Statement (.bfx a1) := encodes_own _
theorem Laws.Encodable.bfi a1 : Laws.Encodable.Statement (.bfi a1) := encodes_own _
theorem Laws.Encodable.isetp a1 : Laws.Encodable.Statement (.isetp a1) := encodes_own _
theorem Laws.Encodable.plop a1 : Laws.Encodable.Statement (.plop a1) := encodes_own _
theorem Laws.Encodable.pmovGet a1 : Laws.Encodable.Statement (.pmovGet a1) := encodes_own _
theorem Laws.Encodable.pmovPut a1 : Laws.Encodable.Statement (.pmovPut a1) := encodes_own _
theorem Laws.Encodable.iadds a1 : Laws.Encodable.Statement (.iadds a1) := encodes_own _
theorem Laws.Encodable.isubs a1 : Laws.Encodable.Statement (.isubs a1) := encodes_own _
theorem Laws.Encodable.idot2 a1 : Laws.Encodable.Statement (.idot2 a1) := encodes_own _
theorem Laws.Encodable.idot4 a1 : Laws.Encodable.Statement (.idot4 a1) := encodes_own _
theorem Laws.Encodable.ipack a1 : Laws.Encodable.Statement (.ipack a1) := encodes_own _
theorem Laws.Encodable.iunpk a1 : Laws.Encodable.Statement (.iunpk a1) := encodes_own _
theorem Laws.Encodable.icvt a1 : Laws.Encodable.Statement (.icvt a1) := encodes_own _
theorem Laws.Encodable.faddBase a1 : Laws.Encodable.Statement (.faddBase a1) := encodes_own _
theorem Laws.Encodable.faddBaseLit a1 a2 : Laws.Encodable.Statement (.faddBaseLit a1 a2) := encodes_own _
theorem Laws.Encodable.fadd a1 : Laws.Encodable.Statement (.fadd a1) := encodes_own _
theorem Laws.Encodable.fsub a1 : Laws.Encodable.Statement (.fsub a1) := encodes_own _
theorem Laws.Encodable.fmulBase a1 : Laws.Encodable.Statement (.fmulBase a1) := encodes_own _
theorem Laws.Encodable.fmulBaseLit a1 a2 : Laws.Encodable.Statement (.fmulBaseLit a1 a2) := encodes_own _
theorem Laws.Encodable.fmul a1 : Laws.Encodable.Statement (.fmul a1) := encodes_own _
theorem Laws.Encodable.ffma a1 : Laws.Encodable.Statement (.ffma a1) := encodes_own _
theorem Laws.Encodable.fminBase a1 : Laws.Encodable.Statement (.fminBase a1) := encodes_own _
theorem Laws.Encodable.fminBaseLit a1 a2 : Laws.Encodable.Statement (.fminBaseLit a1 a2) := encodes_own _
theorem Laws.Encodable.fmin a1 : Laws.Encodable.Statement (.fmin a1) := encodes_own _
theorem Laws.Encodable.fmaxBase a1 : Laws.Encodable.Statement (.fmaxBase a1) := encodes_own _
theorem Laws.Encodable.fmaxBaseLit a1 a2 : Laws.Encodable.Statement (.fmaxBaseLit a1 a2) := encodes_own _
theorem Laws.Encodable.fmax a1 : Laws.Encodable.Statement (.fmax a1) := encodes_own _
theorem Laws.Encodable.fsetp a1 : Laws.Encodable.Statement (.fsetp a1) := encodes_own _
theorem Laws.Encodable.fclass a1 : Laws.Encodable.Statement (.fclass a1) := encodes_own _
theorem Laws.Encodable.frnd a1 : Laws.Encodable.Statement (.frnd a1) := encodes_own _
theorem Laws.Encodable.fcvt a1 : Laws.Encodable.Statement (.fcvt a1) := encodes_own _
theorem Laws.Encodable.fdiv a1 : Laws.Encodable.Statement (.fdiv a1) := encodes_own _
theorem Laws.Encodable.fsqrt a1 : Laws.Encodable.Statement (.fsqrt a1) := encodes_own _
theorem Laws.Encodable.frcp a1 : Laws.Encodable.Statement (.frcp a1) := encodes_own _
theorem Laws.Encodable.frsq a1 : Laws.Encodable.Statement (.frsq a1) := encodes_own _
theorem Laws.Encodable.fexp2 a1 : Laws.Encodable.Statement (.fexp2 a1) := encodes_own _
theorem Laws.Encodable.flog2 a1 : Laws.Encodable.Statement (.flog2 a1) := encodes_own _
theorem Laws.Encodable.fsinp a1 : Laws.Encodable.Statement (.fsinp a1) := encodes_own _
theorem Laws.Encodable.fcosp a1 : Laws.Encodable.Statement (.fcosp a1) := encodes_own _
theorem Laws.Encodable.ftanh a1 : Laws.Encodable.Statement (.ftanh a1) := encodes_own _
theorem Laws.Encodable.fscale a1 : Laws.Encodable.Statement (.fscale a1) := encodes_own _
theorem Laws.Encodable.xshf a1 : Laws.Encodable.Statement (.xshf a1) := encodes_own _
theorem Laws.Encodable.xsld a1 : Laws.Encodable.Statement (.xsld a1) := encodes_own _
theorem Laws.Encodable.xbfl a1 : Laws.Encodable.Statement (.xbfl a1) := encodes_own _
theorem Laws.Encodable.xbcst a1 : Laws.Encodable.Statement (.xbcst a1) := encodes_own _
theorem Laws.Encodable.xred a1 : Laws.Encodable.Statement (.xred a1) := encodes_own _
theorem Laws.Encodable.xscan a1 : Laws.Encodable.Statement (.xscan a1) := encodes_own _
theorem Laws.Encodable.xvote a1 : Laws.Encodable.Statement (.xvote a1) := encodes_own _
theorem Laws.Encodable.xffs a1 : Laws.Encodable.Statement (.xffs a1) := encodes_own _
theorem Laws.Encodable.xpld a1 : Laws.Encodable.Statement (.xpld a1) := encodes_own _
theorem Laws.Encodable.xpat a1 : Laws.Encodable.Statement (.xpat a1) := encodes_own _
theorem Laws.Encodable.mzero a1 : Laws.Encodable.Statement (.mzero a1) := encodes_own _
theorem Laws.Encodable.mma a1 : Laws.Encodable.Statement (.mma a1) := encodes_own _
theorem Laws.Encodable.mmas a1 : Laws.Encodable.Statement (.mmas a1) := encodes_own _
theorem Laws.Encodable.mmai a1 : Laws.Encodable.Statement (.mmai a1) := encodes_own _
theorem Laws.Encodable.had a1 : Laws.Encodable.Statement (.had a1) := encodes_own _
theorem Laws.Encodable.qnt a1 : Laws.Encodable.Statement (.qnt a1) := encodes_own _
theorem Laws.Encodable.dqnt a1 : Laws.Encodable.Statement (.dqnt a1) := encodes_own _
theorem Laws.Encodable.fragt a1 : Laws.Encodable.Statement (.fragt a1) := encodes_own _
theorem Laws.Encodable.rlrun a1 : Laws.Encodable.Statement (.rlrun a1) := encodes_own _
theorem Laws.Encodable.rlRunStart a1 : Laws.Encodable.Statement (.rlRunStart a1) := encodes_own _
theorem Laws.Encodable.rlControllerGrant a1 : Laws.Encodable.Statement (.rlControllerGrant a1) := encodes_own _
theorem Laws.Encodable.rlCallEnd a1 : Laws.Encodable.Statement (.rlCallEnd a1) := encodes_own _
theorem Laws.Encodable.rlacc a1 : Laws.Encodable.Statement (.rlacc a1) := encodes_own _
theorem Laws.Encodable.rlret a1 : Laws.Encodable.Statement (.rlret a1) := encodes_own _
theorem Laws.Encodable.rlabt a1 : Laws.Encodable.Statement (.rlabt a1) := encodes_own _
theorem Laws.Encodable.ld a1 : Laws.Encodable.Statement (.ld a1) := encodes_own _
theorem Laws.Encodable.st a1 : Laws.Encodable.Statement (.st a1) := encodes_own _
theorem Laws.Encodable.sld a1 : Laws.Encodable.Statement (.sld a1) := encodes_own _
theorem Laws.Encodable.ldl a1 : Laws.Encodable.Statement (.ldl a1) := encodes_own _
theorem Laws.Encodable.stl a1 : Laws.Encodable.Statement (.stl a1) := encodes_own _
theorem Laws.Encodable.atom a1 : Laws.Encodable.Statement (.atom a1) := encodes_own _
theorem Laws.Encodable.atomu a1 : Laws.Encodable.Statement (.atomu a1) := encodes_own _
theorem Laws.Encodable.atoml a1 : Laws.Encodable.Statement (.atoml a1) := encodes_own _
theorem Laws.Encodable.flt a1 : Laws.Encodable.Statement (.flt a1) := encodes_own _
theorem Laws.Encodable.bld a1 : Laws.Encodable.Statement (.bld a1) := encodes_own _
theorem Laws.Encodable.bnar a1 : Laws.Encodable.Statement (.bnar a1) := encodes_own _
theorem Laws.Encodable.phase a1 : Laws.Encodable.Statement (.phase a1) := encodes_own _
theorem Laws.Encodable.fence a1 : Laws.Encodable.Statement (.fence a1) := encodes_own _
theorem Laws.Encodable.pfch a1 : Laws.Encodable.Statement (.pfch a1) := encodes_own _
theorem Laws.Encodable.acp a1 : Laws.Encodable.Statement (.acp a1) := encodes_own _
theorem Laws.Encodable.acpLanded a1 : Laws.Encodable.Statement (.acpLanded a1) := encodes_own _
theorem Laws.Encodable.await a1 : Laws.Encodable.Statement (.await a1) := encodes_own _
theorem Laws.Encodable.tcp a1 : Laws.Encodable.Statement (.tcp a1) := encodes_own _
theorem Laws.Encodable.tst a1 : Laws.Encodable.Statement (.tst a1) := encodes_own _
theorem Laws.Encodable.tcpg a1 : Laws.Encodable.Statement (.tcpg a1) := encodes_own _
theorem Laws.Encodable.tensorCopyDone a1 : Laws.Encodable.Statement (.tensorCopyDone a1) := encodes_own _
theorem Laws.Encodable.engineLineRelease a1 a2 : Laws.Encodable.Statement (.engineLineRelease a1 a2) := encodes_own _
theorem Laws.Encodable.bread a1 : Laws.Encodable.Statement (.bread a1) := encodes_own _
theorem Laws.Encodable.burstReady a1 a2 : Laws.Encodable.Statement (.burstReady a1 a2) := encodes_own _
theorem Laws.Encodable.handlerBirth a1 : Laws.Encodable.Statement (.handlerBirth a1) := encodes_own _
theorem Laws.Encodable.rput a1 : Laws.Encodable.Statement (.rput a1) := encodes_own _
theorem Laws.Encodable.rget a1 : Laws.Encodable.Statement (.rget a1) := encodes_own _
theorem Laws.Encodable.remoteCopyDone a1 : Laws.Encodable.Statement (.remoteCopyDone a1) := encodes_own _
theorem Laws.Encodable.rsig a1 : Laws.Encodable.Statement (.rsig a1) := encodes_own _
theorem Laws.Encodable.rsigArrival a1 a2 a3 a4 a5 : Laws.Encodable.Statement (.rsigArrival a1 a2 a3 a4 a5) := encodes_own _
theorem Laws.Encodable.rsigAck a1 a2 : Laws.Encodable.Statement (.rsigAck a1 a2) := encodes_own _
theorem Laws.Encodable.coll a1 : Laws.Encodable.Statement (.coll a1) := encodes_own _
theorem Laws.Encodable.collJoin a1 a2 : Laws.Encodable.Statement (.collJoin a1 a2) := encodes_own _
theorem Laws.Encodable.collWaitExpiry a1 : Laws.Encodable.Statement (.collWaitExpiry a1) := encodes_own _
theorem Laws.Encodable.collDone a1 : Laws.Encodable.Statement (.collDone a1) := encodes_own _
theorem Laws.Encodable.ecov a1 : Laws.Encodable.Statement (.ecov a1) := encodes_own _
theorem Laws.Encodable.sacq a1 : Laws.Encodable.Statement (.sacq a1) := encodes_own _
theorem Laws.Encodable.sstr a1 : Laws.Encodable.Statement (.sstr a1) := encodes_own _
theorem Laws.Encodable.srdh a1 : Laws.Encodable.Statement (.srdh a1) := encodes_own _
theorem Laws.Encodable.srelDone a1 : Laws.Encodable.Statement (.srelDone a1) := encodes_own _
theorem Laws.Encodable.srelCons a1 : Laws.Encodable.Statement (.srelCons a1) := encodes_own _
theorem Laws.Encodable.srelConsHalo a1 : Laws.Encodable.Statement (.srelConsHalo a1) := encodes_own _
theorem Laws.Encodable.srate a1 : Laws.Encodable.Statement (.srate a1) := encodes_own _
theorem Laws.Encodable.sprogStart a1 : Laws.Encodable.Statement (.sprogStart a1) := encodes_own _
theorem Laws.Encodable.sprogDone a1 : Laws.Encodable.Statement (.sprogDone a1) := encodes_own _
theorem Laws.Encodable.sread a1 : Laws.Encodable.Statement (.sread a1) := encodes_own _
theorem Laws.Encodable.swrite a1 : Laws.Encodable.Statement (.swrite a1) := encodes_own _
theorem Laws.Encodable.rand a1 : Laws.Encodable.Statement (.rand a1) := encodes_own _
theorem Laws.Encodable.trap a1 : Laws.Encodable.Statement (.trap a1) := encodes_own _
theorem Laws.Encodable.tretRetry a1 : Laws.Encodable.Statement (.tretRetry a1) := encodes_own _
theorem Laws.Encodable.tretSkip a1 : Laws.Encodable.Statement (.tretSkip a1) := encodes_own _
theorem Laws.Encodable.bkpt a1 : Laws.Encodable.Statement (.bkpt a1) := encodes_own _
theorem Laws.Encodable.psave a1 : Laws.Encodable.Statement (.psave a1) := encodes_own _
theorem Laws.Encodable.pload a1 : Laws.Encodable.Statement (.pload a1) := encodes_own _
theorem Laws.Encodable.tlbinv a1 : Laws.Encodable.Statement (.tlbinv a1) := encodes_own _
theorem Laws.Encodable.fwcallQuery a1 : Laws.Encodable.Statement (.fwcallQuery a1) := encodes_own _
theorem Laws.Encodable.fwcallPin a1 : Laws.Encodable.Statement (.fwcallPin a1) := encodes_own _
theorem Laws.Encodable.fwcallTier a1 : Laws.Encodable.Statement (.fwcallTier a1) := encodes_own _
theorem Laws.Encodable.fwcallDomain a1 : Laws.Encodable.Statement (.fwcallDomain a1) := encodes_own _
theorem Laws.Encodable.fwcallAttest a1 : Laws.Encodable.Statement (.fwcallAttest a1) := encodes_own _
theorem Laws.Encodable.fwcallQueue a1 : Laws.Encodable.Statement (.fwcallQueue a1) := encodes_own _
theorem Laws.Encodable.fwcallUnknown a1 : Laws.Encodable.Statement (.fwcallUnknown a1) := encodes_own _
theorem Laws.Encodable.queueDoorbellWrite a1 a2 a3 : Laws.Encodable.Statement (.queueDoorbellWrite a1 a2 a3) := encodes_own _
theorem Laws.Encodable.pktNop a1 : Laws.Encodable.Statement (.pktNop a1) := encodes_own _
theorem Laws.Encodable.pktLaunch a1 : Laws.Encodable.Statement (.pktLaunch a1) := encodes_own _
theorem Laws.Encodable.pktGang a1 : Laws.Encodable.Statement (.pktGang a1) := encodes_own _
theorem Laws.Encodable.gangCommit a1 : Laws.Encodable.Statement (.gangCommit a1) := encodes_own _
theorem Laws.Encodable.gangDeadline a1 : Laws.Encodable.Statement (.gangDeadline a1) := encodes_own _
theorem Laws.Encodable.pktTimed a1 : Laws.Encodable.Statement (.pktTimed a1) := encodes_own _
theorem Laws.Encodable.pktStreamCreate a1 : Laws.Encodable.Statement (.pktStreamCreate a1) := encodes_own _
theorem Laws.Encodable.pktStreamAlter a1 : Laws.Encodable.Statement (.pktStreamAlter a1) := encodes_own _
theorem Laws.Encodable.pktStreamDestroy a1 : Laws.Encodable.Statement (.pktStreamDestroy a1) := encodes_own _
theorem Laws.Encodable.pktWaitmem a1 : Laws.Encodable.Statement (.pktWaitmem a1) := encodes_own _
theorem Laws.Encodable.waitmemPoll a1 : Laws.Encodable.Statement (.waitmemPoll a1) := encodes_own _
theorem Laws.Encodable.waitmemTimeout a1 : Laws.Encodable.Statement (.waitmemTimeout a1) := encodes_own _
theorem Laws.Encodable.pktSignal a1 : Laws.Encodable.Statement (.pktSignal a1) := encodes_own _
theorem Laws.Encodable.pktIndirect a1 : Laws.Encodable.Statement (.pktIndirect a1) := encodes_own _
theorem Laws.Encodable.pktCopy a1 : Laws.Encodable.Statement (.pktCopy a1) := encodes_own _
theorem Laws.Encodable.copyPacketDone a1 : Laws.Encodable.Statement (.copyPacketDone a1) := encodes_own _
theorem Laws.Encodable.pktFence a1 : Laws.Encodable.Statement (.pktFence a1) := encodes_own _
theorem Laws.Encodable.launchDispatch a1 : Laws.Encodable.Statement (.launchDispatch a1) := encodes_own _
theorem Laws.Encodable.teamPlace a1 : Laws.Encodable.Statement (.teamPlace a1) := encodes_own _
theorem Laws.Encodable.launchStartTime a1 : Laws.Encodable.Statement (.launchStartTime a1) := encodes_own _
theorem Laws.Encodable.launchComplete a1 : Laws.Encodable.Statement (.launchComplete a1) := encodes_own _
theorem Laws.Encodable.issueAging a1 a2 : Laws.Encodable.Statement (.issueAging a1 a2) := encodes_own _
theorem Laws.Encodable.frontierPromotion a1 : Laws.Encodable.Statement (.frontierPromotion a1) := encodes_own _
theorem Laws.Encodable.evictedLineFetch a1 a2 : Laws.Encodable.Statement (.evictedLineFetch a1 a2) := encodes_own _
theorem Laws.Encodable.lanternGrant a1 : Laws.Encodable.Statement (.lanternGrant a1) := encodes_own _
theorem Laws.Encodable.lanternIdleReturn a1 : Laws.Encodable.Statement (.lanternIdleReturn a1) := encodes_own _
theorem Laws.Encodable.lanternPoolChange a1 a2 : Laws.Encodable.Statement (.lanternPoolChange a1 a2) := encodes_own _
theorem Laws.Encodable.thermalMigration a1 : Laws.Encodable.Statement (.thermalMigration a1) := encodes_own _
theorem Laws.Encodable.partitionRebind a1 a2 a3 : Laws.Encodable.Statement (.partitionRebind a1 a2 a3) := encodes_own _
theorem Laws.Encodable.rebindDeadline a1 : Laws.Encodable.Statement (.rebindDeadline a1) := encodes_own _
theorem Laws.Encodable.vigilNoIssue a1 : Laws.Encodable.Statement (.vigilNoIssue a1) := encodes_own _
theorem Laws.Encodable.vigilLongWait a1 : Laws.Encodable.Statement (.vigilLongWait a1) := encodes_own _
theorem Laws.Encodable.stripRelease a1 : Laws.Encodable.Statement (.stripRelease a1) := encodes_own _
theorem Laws.Encodable.instanceNextLaunch a1 : Laws.Encodable.Statement (.instanceNextLaunch a1) := encodes_own _
theorem Laws.Encodable.borrowerVacate a1 : Laws.Encodable.Statement (.borrowerVacate a1) := encodes_own _
theorem Laws.Encodable.borrowerKill a1 : Laws.Encodable.Statement (.borrowerKill a1) := encodes_own _
theorem Laws.Encodable.almanacEvaluation a1 : Laws.Encodable.Statement (.almanacEvaluation a1) := encodes_own _
theorem Laws.Encodable.stripDeadline a1 : Laws.Encodable.Statement (.stripDeadline a1) := encodes_own _
theorem Laws.Encodable.displayScanStart a1 : Laws.Encodable.Statement (.displayScanStart a1) := encodes_own _
theorem Laws.Encodable.displayScanEnd a1 : Laws.Encodable.Statement (.displayScanEnd a1) := encodes_own _
theorem Laws.Encodable.encoderSlotTime a1 : Laws.Encodable.Statement (.encoderSlotTime a1) := encodes_own _
theorem Laws.Encodable.encoderRowCoded a1 : Laws.Encodable.Statement (.encoderRowCoded a1) := encodes_own _
theorem Laws.Encodable.encoderStall a1 : Laws.Encodable.Statement (.encoderStall a1) := encodes_own _
theorem Laws.Encodable.encoderResume a1 : Laws.Encodable.Statement (.encoderResume a1) := encodes_own _
theorem Laws.Encodable.ppsEdge a1 a2 : Laws.Encodable.Statement (.ppsEdge a1 a2) := encodes_own _
theorem Laws.Encodable.ptmTimestamp a1 : Laws.Encodable.Statement (.ptmTimestamp a1) := encodes_own _
theorem Laws.Encodable.faultService a1 a2 : Laws.Encodable.Statement (.faultService a1 a2) := encodes_own _
theorem Laws.Encodable.tierMigration a1 a2 a3 a4 : Laws.Encodable.Statement (.tierMigration a1 a2 a3 a4) := encodes_own _
theorem Laws.Encodable.trapEntry a1 : Laws.Encodable.Statement (.trapEntry a1) := encodes_own _
theorem Laws.Encodable.asyncFailureReport : Laws.Encodable.Statement (.asyncFailureReport) := encodes_own _
theorem Laws.Encodable.teamVacate a1 : Laws.Encodable.Statement (.teamVacate a1) := encodes_own _
theorem Laws.Encodable.teamRestore a1 a2 : Laws.Encodable.Statement (.teamRestore a1 a2) := encodes_own _
theorem Laws.Encodable.teamDiscardRestart a1 a2 : Laws.Encodable.Statement (.teamDiscardRestart a1 a2) := encodes_own _
theorem Laws.Encodable.rngHealthFailure a1 : Laws.Encodable.Statement (.rngHealthFailure a1) := encodes_own _
theorem Laws.Encodable.randBitsReady a1 : Laws.Encodable.Statement (.randBitsReady a1) := encodes_own _
theorem Laws.Encodable.timingErrorReplay a1 a2 : Laws.Encodable.Statement (.timingErrorReplay a1 a2) := encodes_own _
theorem Laws.Encodable.eccCorrected a1 : Laws.Encodable.Statement (.eccCorrected a1) := encodes_own _
theorem Laws.Encodable.eccUncorrectable a1 : Laws.Encodable.Statement (.eccUncorrectable a1) := encodes_own _
theorem Laws.Encodable.cxlPoison a1 : Laws.Encodable.Statement (.cxlPoison a1) := encodes_own _
theorem Laws.Encodable.ioLoadCompletion a1 a2 a3 : Laws.Encodable.Statement (.ioLoadCompletion a1 a2 a3) := encodes_own _
theorem Laws.Encodable.ioCompletionTimeout a1 : Laws.Encodable.Statement (.ioCompletionTimeout a1) := encodes_own _
theorem Laws.Encodable.bar2Read a1 a2 a3 : Laws.Encodable.Statement (.bar2Read a1 a2 a3) := encodes_own _
theorem Laws.Encodable.bar2Write a1 a2 a3 : Laws.Encodable.Statement (.bar2Write a1 a2 a3) := encodes_own _
theorem Laws.Encodable.configRequest a1 : Laws.Encodable.Statement (.configRequest a1) := encodes_own _
theorem Laws.Encodable.mbxQueueConfig a1 a2 a3 : Laws.Encodable.Statement (.mbxQueueConfig a1 a2 a3) := encodes_own _
theorem Laws.Encodable.mbxOwnerCreate a1 a2 : Laws.Encodable.Statement (.mbxOwnerCreate a1 a2) := encodes_own _
theorem Laws.Encodable.mbxAdminMark a1 a2 : Laws.Encodable.Statement (.mbxAdminMark a1 a2) := encodes_own _
theorem Laws.Encodable.mbxIoWindowGrant a1 a2 a3 a4 : Laws.Encodable.Statement (.mbxIoWindowGrant a1 a2 a3 a4) := encodes_own _
theorem Laws.Encodable.mbxBar2Asid a1 a2 : Laws.Encodable.Statement (.mbxBar2Asid a1 a2) := encodes_own _
theorem Laws.Encodable.mbxFwService a1 a2 a3 : Laws.Encodable.Statement (.mbxFwService a1 a2 a3) := encodes_own _
theorem Laws.Encodable.mbxTraceRing a1 a2 a3 a4 : Laws.Encodable.Statement (.mbxTraceRing a1 a2 a3 a4) := encodes_own _
theorem Laws.Encodable.mbxStopTeam a1 a2 : Laws.Encodable.Statement (.mbxStopTeam a1 a2) := encodes_own _
theorem Laws.Encodable.mbxResumeTeam a1 a2 : Laws.Encodable.Statement (.mbxResumeTeam a1 a2) := encodes_own _
theorem Laws.Encodable.mbxDebugAccess a1 a2 a3 : Laws.Encodable.Statement (.mbxDebugAccess a1 a2 a3) := encodes_own _
theorem Laws.Encodable.mbxReadHistogram a1 a2 : Laws.Encodable.Statement (.mbxReadHistogram a1 a2) := encodes_own _
theorem Laws.Encodable.sampleRecord a1 a2 : Laws.Encodable.Statement (.sampleRecord a1 a2) := encodes_own _
theorem Laws.Encodable.recoveryImage a1 a2 : Laws.Encodable.Statement (.recoveryImage a1 a2) := encodes_own _
theorem Laws.Encodable.fundamentalReset a1 : Laws.Encodable.Statement (.fundamentalReset a1) := encodes_own _
theorem Laws.Encodable.fwHandoverStage a1 : Laws.Encodable.Statement (.fwHandoverStage a1) := encodes_own _
theorem Laws.Encodable.fwHandoverCommit : Laws.Encodable.Statement (.fwHandoverCommit) := encodes_own _
theorem Laws.Encodable.peerLoad a1 a2 a3 a4 : Laws.Encodable.Statement (.peerLoad a1 a2 a3 a4) := encodes_own _
theorem Laws.Encodable.peerStore a1 a2 a3 a4 a5 : Laws.Encodable.Statement (.peerStore a1 a2 a3 a4 a5) := encodes_own _
theorem Laws.Encodable.peerRemoteCommit a1 a2 : Laws.Encodable.Statement (.peerRemoteCommit a1 a2) := encodes_own _
theorem Laws.Encodable.peerAtom a1 a2 a3 a4 a5 a6 a7 a8 a9 : Laws.Encodable.Statement (.peerAtom a1 a2 a3 a4 a5 a6 a7 a8 a9) := encodes_own _
theorem Laws.Encodable.linkFlitError a1 : Laws.Encodable.Statement (.linkFlitError a1) := encodes_own _
theorem Laws.Encodable.peerUnreachable a1 : Laws.Encodable.Statement (.peerUnreachable a1) := encodes_own _
theorem Laws.Encodable.longLatencyResult a1 a2 : Laws.Encodable.Statement (.longLatencyResult a1 a2) := encodes_own _
theorem Laws.Encodable.gangStartTime a1 : Laws.Encodable.Statement (.gangStartTime a1) := encodes_own _
theorem Laws.Encodable.collStartTime a1 : Laws.Encodable.Statement (.collStartTime a1) := encodes_own _
theorem Laws.Encodable.linkTraining a1 a2 : Laws.Encodable.Statement (.linkTraining a1 a2) := encodes_own _

end Sys2Proof
end

