-- ==== Sys2Proof/Tests/Slice0.lean ====
section
/-! SUPPORT. Tests: words written out from the spec's encodings, what `Instr.wf` refuses, single steps with the
expected values of the spec's worked examples and tables, and for every statement a state and operands that meet its
hypotheses together. -/

namespace Sys2Proof

open Machine

set_option Elab.async false

/-! ### Decoding: every constructor with words, by a word written from 03 Tables 3.1 to 3.4 and the opcode of Table 3.9,
its last word first; the words whose comment names a section stand in that section's text. -/

theorem test_decode_control_1 :
    -- NOP (03 R40)
    decodeTableWord 32 0x00000000 = some (.nopBase ⟨none⟩) ∧
    -- ?p5 NOP, extended
    decodeTableWord 96 0x00000000_00000000_0000002D = some (.nop { XForm.blank with guard := some ⟨false, 5#4⟩ }) ∧
    -- ?!p3 BRA, 17 words back (18)
    decodeTableWord 32 0xEFFF019C = some (.braShort ⟨some ⟨true, 3#4⟩, 0xFFEF#16⟩) ∧
    -- BRA at 0x700, 3 words on (03 R49)
    decodeTableWord 96 0x00000003_70000000_00000101 = some (.bra ⟨none, none, 0x700#12, 0x3#32⟩) ∧
    -- BRX v2, priority 0x123
    decodeTableWord 96 0x00000123_00000000_02000201 = some (.brx { XForm.blank with b := .v 2, imm := 0x123#16 }) ∧
    -- CALL, two words back
    decodeTableWord 96 0x0000FFFE_8000FFFF_00000301 = some (.call ⟨none, none, 0x800#12, 0xFFFFFFFE#32⟩) ∧
    -- CALLX v4, priority 5
    decodeTableWord 96 0x00000005_00000000_04000401 = some (.callx { XForm.blank with b := .v 4, imm := 0x5#16 }) ∧
    -- RET
    decodeTableWord 32 0x00000500 = some (.retBase ⟨none⟩) ∧
    -- ?p1 RET, extended
    decodeTableWord 96 0x00000000_00000000_0000050D = some (.ret { XForm.blank with guard := some ⟨false, 1#4⟩ }) ∧
    -- ?!p0 EXIT (18)
    decodeTableWord 32 0x00000684 = some (.exitBase ⟨some ⟨true, 0#4⟩⟩) ∧
    -- EXIT, extended
    decodeTableWord 96 0x00000000_00000000_00000601 = some (.exit XForm.blank) ∧
    -- CSET k2, s3
    decodeTableWord 96 0x08000000_00000000_C3000701 = some (.cset { XForm.blank with b := .s 3, aux := 0x2#6 }) := by decide +kernel

theorem test_decode_control_2 :
    -- CONV k1, priority 0x7FF
    decodeTableWord 96 0x040007FF_00000000_00000801 = some (.conv { XForm.blank with aux := 0x1#6, imm := 0x7FF#16 }) ∧
    -- LOOP lc0, 2, 115 words (19)
    decodeTableWord 160 0x00000000_00000002_00000073_00000000_F1000903 = some (.loop { XForm.blank with lit := some 0x2#64, b := .litLo, imm := 0x73#16 }) ∧
    -- ?!p2 LBRK
    decodeTableWord 96 0x00000000_00000000_00000A95 = some (.lbrk { XForm.blank with guard := some ⟨true, 2#4⟩ }) ∧
    -- YIELD
    decodeTableWord 32 0x00000B00 = some (.yieldBase ⟨none⟩) ∧
    -- YIELD, extended
    decodeTableWord 96 0x00000000_00000000_00000B01 = some (.yield XForm.blank) ∧
    -- SLEEP.rel s4
    decodeTableWord 96 0x00000000_20000000_C4000C01 = some (.sleep { XForm.blank with b := .s 4, mod := 0x20#8 }) ∧
    -- IDEMB 1, 0 (19)
    decodeTableWord 96 0x00000001_00000000_00000D01 = some (.idemb { XForm.blank with imm := 0x1#16 }) ∧
    -- IDEME
    decodeTableWord 96 0x00000000_00000000_00000E01 = some (.ideme XForm.blank) := by decide +kernel

theorem test_decode_barrier_1 :
    -- BAR.rel.acq s1+2
    decodeTableWord 96 0x00000002_60000000_C1001001 = some (.bar { XForm.blank with b := .s 1, mod := 0x60#8, imm := 0x2#16 }) ∧
    -- BARA.rel zero+3
    decodeTableWord 96 0x00000003_20000000_F0001101 = some (.bara { XForm.blank with b := .zero, mod := 0x20#8, imm := 0x3#16 }) ∧
    -- BARW.acq zero+3
    decodeTableWord 96 0x00000003_40000000_F0001201 = some (.barw { XForm.blank with b := .zero, mod := 0x40#8, imm := 0x3#16 }) ∧
    -- BARI s1, s2
    decodeTableWord 96 0x00000000_000000C2_C1001301 = some (.bari { XForm.blank with b := .s 1, c := .s 2 }) ∧
    -- CBAR
    decodeTableWord 96 0x00000000_00000000_00001401 = some (.cbar XForm.blank) ∧
    -- OBJI [s3+16], 4
    decodeTableWord 160 0x00000000_00000004_00000010_000000F1_C3001503 = some (.obji { XForm.blank with lit := some 0x4#64, b := .s 3, c := .litLo, imm := 0x10#16 }) ∧
    -- OBJA.rel [s3], s4 of sibling 5
    decodeTableWord 96 0x94000000_200000C4_C3001601 = some (.obja { XForm.blank with b := .s 3, c := .s 4, mod := 0x20#8, aux := 0x25#6 }) ∧
    -- OBJW.acq [s3], s4
    decodeTableWord 96 0x00000000_400000C4_C3001701 = some (.objw { XForm.blank with b := .s 3, c := .s 4, mod := 0x40#8 }) ∧
    -- OBJT p6, [s3+32], s4
    decodeTableWord 96 0x00000020_000000C4_C3061801 = some (.objt { XForm.blank with a := .v 6, b := .s 3, c := .s 4, imm := 0x20#16 }) := by decide +kernel

theorem test_decode_integer_1 :
    -- MOV v1, lane (17)
    decodeTableWord 32 0xF4012000 = some (.movBase ⟨none, .v 1, .lane⟩) ∧
    -- MOV v1, high half of the literal
    decodeTableWord 96 0x12345678_00000000_F2012002 = some (.movBaseLit ⟨none, .v 1, .litHi⟩ 0x1234567800000000#64) ∧
    -- LI64 v10, 0x4010000000000000 (19)
    decodeTableWord 160 0x40100000_00000000_00000000_00300000_F30A2003 = some (.mov { XForm.blank with lit := some 0x4010000000000000#64, a := .v 10, b := .lit64, ty := .ui64 }) ∧
    -- MOVI v3, -2
    decodeTableWord 32 0xFE032100 = some (.moviBase ⟨none, .v 3, 0xFE#8⟩) ∧
    -- MOVI.hi v3, 0x1234
    decodeTableWord 96 0x00001234_20400000_00032101 = some (.movi { XForm.blank with a := .v 3, ty := .b32, mod := 0x20#8, imm := 0x1234#16 }) ∧
    -- SEL v3, v4, v5, !p6
    decodeTableWord 96 0x58000000_00400005_04032201 = some (.sel { XForm.blank with a := .v 3, b := .v 4, c := .v 5, ty := .b32, aux := 0x16#6 }) ∧
    -- IADD v4, v9 (03 R47)
    decodeTableWord 32 0x09042300 = some (.iaddBase ⟨none, .v 4, .v 9⟩) ∧
    -- IADD s4, 7
    decodeTableWord 96 0x00000000_00000007_F1C42302 = some (.iaddBaseLit ⟨none, .s 4, .litLo⟩ 0x7#64) ∧
    -- IADD.i32 v2, v1, 0x400 (17)
    decodeTableWord 160 0x00000000_00000400_00000000_000000F1_01022303 = some (.iadd { XForm.blank with lit := some 0x400#64, a := .v 2, b := .v 1, c := .litLo }) ∧
    -- ISUB v4, v9
    decodeTableWord 32 0x09042400 = some (.isubBase ⟨none, .v 4, .v 9⟩) ∧
    -- ?!p1 ISUB v2, 1 (18)
    decodeTableWord 96 0x00000000_00000001_F102248E = some (.isubBaseLit ⟨some ⟨true, 1#4⟩, .v 2, .litLo⟩ 0x1#64) ∧
    -- ISUB.ui64 v2, v4, v6
    decodeTableWord 96 0x00000000_00300006_04022401 = some (.isub { XForm.blank with a := .v 2, b := .v 4, c := .v 6, ty := .ui64 }) := by decide +kernel

theorem test_decode_integer_2 :
    -- IADDC v2, v3, v4, p5 to p6
    decodeTableWord 96 0x14000006_00100004_03022501 = some (.iaddc { XForm.blank with a := .v 2, b := .v 3, c := .v 4, ty := .ui32, aux := 0x5#6, imm := 0x6#16 }) ∧
    -- IMUL.i64 v2, v4, v6
    decodeTableWord 96 0x00000000_00200006_04022601 = some (.imul { XForm.blank with a := .v 2, b := .v 4, c := .v 6, ty := .i64 }) ∧
    -- IMULH.ui32 v2, v3, v4
    decodeTableWord 96 0x00000000_00100004_03022701 = some (.imulh { XForm.blank with a := .v 2, b := .v 3, c := .v 4, ty := .ui32 }) ∧
    -- IMAD.ui32 v55, v55, 0x10101, 0xFF000000 (19)
    decodeTableWord 160 0xFF000000_00010101_00000000_0010F2F1_37372803 = some (.imad { XForm.blank with lit := some 0xFF00000000010101#64, a := .v 55, b := .v 55, c := .litLo, d := .litHi, ty := .ui32 }) ∧
    -- IMIN v4, v9
    decodeTableWord 32 0x09042900 = some (.iminBase ⟨none, .v 4, .v 9⟩) ∧
    -- IMIN s4, 7
    decodeTableWord 96 0x00000000_00000007_F1C42902 = some (.iminBaseLit ⟨none, .s 4, .litLo⟩ 0x7#64) ∧
    -- IMIN.i8x4 v2, v3, v4
    decodeTableWord 96 0x00000000_00600004_03022901 = some (.imin { XForm.blank with a := .v 2, b := .v 3, c := .v 4, ty := .i8x4 }) ∧
    -- IMAX v4, v9
    decodeTableWord 32 0x09042A00 = some (.imaxBase ⟨none, .v 4, .v 9⟩) ∧
    -- IMAX s4, 7
    decodeTableWord 96 0x00000000_00000007_F1C42A02 = some (.imaxBaseLit ⟨none, .s 4, .litLo⟩ 0x7#64) ∧
    -- IMAX.i16x2 v2, v3, v4
    decodeTableWord 96 0x00000000_00500004_03022A01 = some (.imax { XForm.blank with a := .v 2, b := .v 3, c := .v 4, ty := .i16x2 }) ∧
    -- IABS.sat v2, v3
    decodeTableWord 96 0x00000000_10000000_03022B01 = some (.iabs { XForm.blank with a := .v 2, b := .v 3, mod := 0x10#8 }) ∧
    -- AND v4, v9
    decodeTableWord 32 0x09042C00 = some (.andBase ⟨none, .v 4, .v 9⟩) := by decide +kernel

theorem test_decode_integer_3 :
    -- AND v6, 1 (17)
    decodeTableWord 96 0x00000000_00000001_F1062C02 = some (.andBaseLit ⟨none, .v 6, .litLo⟩ 0x1#64) ∧
    -- AND.b32 v5, v2, 0xFFFF (18)
    decodeTableWord 160 0x00000000_0000FFFF_00000000_004000F1_02052C03 = some (.and { XForm.blank with lit := some 0xFFFF#64, a := .v 5, b := .v 2, c := .litLo, ty := .b32 }) ∧
    -- ?p1 OR v4, v1 (18)
    decodeTableWord 32 0x01042D0C = some (.orBase ⟨some ⟨false, 1#4⟩, .v 4, .v 1⟩) ∧
    -- OR s4, 7
    decodeTableWord 96 0x00000000_00000007_F1C42D02 = some (.orBaseLit ⟨none, .s 4, .litLo⟩ 0x7#64) ∧
    -- OR.ui64 v2, v4, v6
    decodeTableWord 96 0x00000000_00300006_04022D01 = some (.or { XForm.blank with a := .v 2, b := .v 4, c := .v 6, ty := .ui64 }) ∧
    -- XOR v4, v9
    decodeTableWord 32 0x09042E00 = some (.xorBase ⟨none, .v 4, .v 9⟩) ∧
    -- XOR s4, 7
    decodeTableWord 96 0x00000000_00000007_F1C42E02 = some (.xorBaseLit ⟨none, .s 4, .litLo⟩ 0x7#64) ∧
    -- XOR.b32 v2, v3.xor(5), v4
    decodeTableWord 96 0x00650000_00400004_03022E01 = some (.xor { XForm.blank with a := .v 2, b := .v 3, c := .v 4, ty := .b32, xm := .xor, xk := 5#5 }) ∧
    -- ANDN.b32 v2, v3, v4
    decodeTableWord 96 0x00000000_00400004_03022F01 = some (.andn { XForm.blank with a := .v 2, b := .v 3, c := .v 4, ty := .b32 }) ∧
    -- NOT.b32 v2, v3
    decodeTableWord 96 0x00000000_00400000_03023001 = some (.not { XForm.blank with a := .v 2, b := .v 3, ty := .b32 }) ∧
    -- SHL v4, v9
    decodeTableWord 32 0x09043100 = some (.shlBase ⟨none, .v 4, .v 9⟩) ∧
    -- SHL v1, 5 (17)
    decodeTableWord 96 0x00000000_00000005_F1013102 = some (.shlBaseLit ⟨none, .v 1, .litLo⟩ 0x5#64) := by decide +kernel

theorem test_decode_integer_4 :
    -- SHL.ui32 v3, v1.sld(1,fill=zero), 16 (17)
    decodeTableWord 160 0x00000000_00000010_00210000_001000F1_01033103 = some (.shl { XForm.blank with lit := some 0x10#64, a := .v 3, b := .v 1, c := .litLo, ty := .ui32, xm := .sld, xk := 1#5 }) ∧
    -- SHR v4, v9
    decodeTableWord 32 0x09043200 = some (.shrBase ⟨none, .v 4, .v 9⟩) ∧
    -- SHR s4, 7
    decodeTableWord 96 0x00000000_00000007_F1C43202 = some (.shrBaseLit ⟨none, .s 4, .litLo⟩ 0x7#64) ∧
    -- SHR.ui32 v2, v1, 16 (17)
    decodeTableWord 160 0x00000000_00000010_00000000_001000F1_01023203 = some (.shr { XForm.blank with lit := some 0x10#64, a := .v 2, b := .v 1, c := .litLo, ty := .ui32 }) ∧
    -- SAR v4, v9
    decodeTableWord 32 0x09043300 = some (.sarBase ⟨none, .v 4, .v 9⟩) ∧
    -- SAR s4, 7
    decodeTableWord 96 0x00000000_00000007_F1C43302 = some (.sarBaseLit ⟨none, .s 4, .litLo⟩ 0x7#64) ∧
    -- SAR.i64 v2, v4, v6
    decodeTableWord 96 0x00000000_00200006_04023301 = some (.sar { XForm.blank with a := .v 2, b := .v 4, c := .v 6, ty := .i64 }) ∧
    -- SHRR.i32 v6, v6, 15 (17)
    decodeTableWord 160 0x00000000_0000000F_00000000_000000F1_06063403 = some (.shrr { XForm.blank with lit := some 0xF#64, a := .v 6, b := .v 6, c := .litLo }) ∧
    -- ROT.b32 v2, v3, v4
    decodeTableWord 96 0x00000000_00400004_03023501 = some (.rot { XForm.blank with a := .v 2, b := .v 3, c := .v 4, ty := .b32 }) ∧
    -- CLZ.ui64 v2, v4
    decodeTableWord 96 0x00000000_00300000_04023601 = some (.clz { XForm.blank with a := .v 2, b := .v 4, ty := .ui64 }) ∧
    -- POPC.b32 s2, s3
    decodeTableWord 96 0x00000000_00400000_C3C23701 = some (.popc { XForm.blank with a := .s 2, b := .s 3, ty := .b32 }) ∧
    -- BREV.b32 v2, v3
    decodeTableWord 96 0x00000000_00400000_03023801 = some (.brev { XForm.blank with a := .v 2, b := .v 3, ty := .b32 }) := by decide +kernel

theorem test_decode_integer_5 :
    -- BFX.ui32 v2, v3, v4
    decodeTableWord 96 0x00000000_00100004_03023901 = some (.bfx { XForm.blank with a := .v 2, b := .v 3, c := .v 4, ty := .ui32 }) ∧
    -- BFI.b32 v2, v3, v4, v5
    decodeTableWord 96 0x00000000_00400504_03023A01 = some (.bfi { XForm.blank with a := .v 2, b := .v 3, c := .v 4, d := .v 5, ty := .b32 }) ∧
    -- ISETP.ne.i32 p1, v1.slu(1,fill=256), v1 (18)
    decodeTableWord 96 0x02410100_20000001_01013B01 = some (.isetp { XForm.blank with a := .v 1, b := .v 1, c := .v 1, mod := 0x20#8, fill := .imm, xm := .slu, xk := 1#5, imm := 0x100#16 }) ∧
    -- PLOP p1, p2, p3, p4, 0x96
    decodeTableWord 96 0x00000096_00000403_02013C01 = some (.plop { XForm.blank with a := .v 1, b := .v 2, c := .v 3, d := .v 4, imm := 0x96#16 }) ∧
    -- PMOV.get v2
    decodeTableWord 96 0x00000000_00000000_00023D01 = some (.pmovGet { XForm.blank with a := .v 2 }) ∧
    -- PMOV.put v3, 0x8001
    decodeTableWord 96 0x00008001_20000000_03003D01 = some (.pmovPut { XForm.blank with b := .v 3, mod := 0x20#8, imm := 0x8001#16 }) ∧
    -- IADDS.i8x4 v2, v3, v4
    decodeTableWord 96 0x00000000_00600004_03023E01 = some (.iadds { XForm.blank with a := .v 2, b := .v 3, c := .v 4, ty := .i8x4 }) ∧
    -- ISUBS.ui32 v2, v3, v4
    decodeTableWord 96 0x00000000_00100004_03023F01 = some (.isubs { XForm.blank with a := .v 2, b := .v 3, c := .v 4, ty := .ui32 }) ∧
    -- IDOT2.i16x2 v6, v2, v3, v6 (05 R108)
    decodeTableWord 96 0x00000000_00500603_02064001 = some (.idot2 { XForm.blank with a := .v 6, b := .v 2, c := .v 3, d := .v 6, ty := .i16x2 }) ∧
    -- IDOT4.i8x4 v6, v2, v3, v5
    decodeTableWord 96 0x00000000_00600503_02064101 = some (.idot4 { XForm.blank with a := .v 6, b := .v 2, c := .v 3, d := .v 5, ty := .i8x4 }) ∧
    -- IPACK.i16x2.sat v8, v6, v7 (17)
    decodeTableWord 96 0x00000000_10500007_06084201 = some (.ipack { XForm.blank with a := .v 8, b := .v 6, c := .v 7, ty := .i16x2, mod := 0x10#8 }) ∧
    -- IUNPK.i8x4.u v8, v6, half 1
    decodeTableWord 96 0x04000000_20600000_06084301 = some (.iunpk { XForm.blank with a := .v 8, b := .v 6, ty := .i8x4, mod := 0x20#8, aux := 0x1#6 }) := by decide +kernel

theorem test_decode_integer_6 :
    -- ICVT.i64.to_ui32.sat v8, v6
    decodeTableWord 96 0x04000000_10200000_06084401 = some (.icvt { XForm.blank with a := .v 8, b := .v 6, ty := .i64, mod := 0x10#8, aux := 0x1#6 }) := by decide +kernel

theorem test_decode_float_1 :
    -- FADD v4, v9
    decodeTableWord 32 0x09044800 = some (.faddBase ⟨none, .v 4, .v 9⟩) ∧
    -- FADD s4, 1.5
    decodeTableWord 96 0x00000000_3FC00000_F1C44802 = some (.faddBaseLit ⟨none, .s 4, .litLo⟩ 0x3FC00000#64) ∧
    -- FADD.f64 v2, v4, v6
    decodeTableWord 96 0x00000000_00800006_04024801 = some (.fadd { XForm.blank with a := .v 2, b := .v 4, c := .v 6, ty := .f64 }) ∧
    -- FMUL v4, v9
    decodeTableWord 32 0x09044A00 = some (.fmulBase ⟨none, .v 4, .v 9⟩) ∧
    -- FMUL s4, 1.5
    decodeTableWord 96 0x00000000_3FC00000_F1C44A02 = some (.fmulBaseLit ⟨none, .s 4, .litLo⟩ 0x3FC00000#64) ∧
    -- FMUL.f64 v2, v4, v6
    decodeTableWord 96 0x00000000_00800006_04024A01 = some (.fmul { XForm.blank with a := .v 2, b := .v 4, c := .v 6, ty := .f64 }) ∧
    -- FMIN v4, v9
    decodeTableWord 32 0x09044C00 = some (.fminBase ⟨none, .v 4, .v 9⟩) ∧
    -- FMIN s4, 1.5
    decodeTableWord 96 0x00000000_3FC00000_F1C44C02 = some (.fminBaseLit ⟨none, .s 4, .litLo⟩ 0x3FC00000#64) ∧
    -- FMIN.f64 v2, v4, v6
    decodeTableWord 96 0x00000000_00800006_04024C01 = some (.fmin { XForm.blank with a := .v 2, b := .v 4, c := .v 6, ty := .f64 }) ∧
    -- FMAX v4, v9
    decodeTableWord 32 0x09044D00 = some (.fmaxBase ⟨none, .v 4, .v 9⟩) ∧
    -- FMAX s4, 1.5
    decodeTableWord 96 0x00000000_3FC00000_F1C44D02 = some (.fmaxBaseLit ⟨none, .s 4, .litLo⟩ 0x3FC00000#64) ∧
    -- FMAX.f64 v2, v4, v6
    decodeTableWord 96 0x00000000_00800006_04024D01 = some (.fmax { XForm.blank with a := .v 2, b := .v 4, c := .v 6, ty := .f64 }) := by decide +kernel

theorem test_decode_float_2 :
    -- FSUB.f16x2.rdn v2, v3, v4
    decodeTableWord 96 0x00000000_02900004_03024901 = some (.fsub { XForm.blank with a := .v 2, b := .v 3, c := .v 4, ty := .f16x2, mod := 0x2#8 }) ∧
    -- ?!p2 FFMA.f32.rtz v10, v4.sld(1,fill=clamp), v6, 1.5 (03)
    decodeTableWord 160 0x00000000_3FC00000_03210000_0170F106_040A4B97 = some (.ffma { XForm.blank with guard := some ⟨true, 2#4⟩, lit := some 0x3FC00000#64, a := .v 10, b := .v 4, c := .v 6, d := .litLo, ty := .f32, mod := 0x1#8, fill := .clamp, xm := .sld, xk := 1#5 }) ∧
    -- FSETP p3, condition 5, v4, v5, and !p2
    decodeTableWord 96 0x48000000_A0700005_04034E01 = some (.fsetp { XForm.blank with a := .v 3, b := .v 4, c := .v 5, ty := .f32, mod := 0xA0#8, aux := 0x12#6 }) ∧
    -- FCLASS.f64 v2, v4
    decodeTableWord 96 0x00000000_00800000_04024F01 = some (.fclass { XForm.blank with a := .v 2, b := .v 4, ty := .f64 }) ∧
    -- FRND.bf16x2, RM 3, v2, v4
    decodeTableWord 96 0x00000000_03A00000_04025001 = some (.frnd { XForm.blank with a := .v 2, b := .v 4, ty := .bf16x2, mod := 0x3#8 }) ∧
    -- FCVT.f32.to_e4m3x4.h1 v32, v14, v15 (19)
    decodeTableWord 96 0x6C000000_0070000F_0E205101 = some (.fcvt { XForm.blank with a := .v 32, b := .v 14, c := .v 15, ty := .f32, aux := 0x1B#6 }) ∧
    -- FDIV.f64 v2, v4, v6, la:3
    decodeTableWord 96 0x00000000_00830006_04025201 = some (.fdiv { XForm.blank with a := .v 2, b := .v 4, c := .v 6, ty := .f64, la := 0x3#4 }) ∧
    -- FSQRT.f32 v2, v3
    decodeTableWord 96 0x00000000_00700000_03025301 = some (.fsqrt { XForm.blank with a := .v 2, b := .v 3, ty := .f32 }) ∧
    -- FRCP.f32, APX 1, v2, v3, la:1
    decodeTableWord 96 0x00000000_08710000_03025401 = some (.frcp { XForm.blank with a := .v 2, b := .v 3, ty := .f32, mod := 0x8#8, la := 0x1#4 }) ∧
    -- FRSQ.f32, APX 1, v2, v3, la:1
    decodeTableWord 96 0x00000000_08710000_03025501 = some (.frsq { XForm.blank with a := .v 2, b := .v 3, ty := .f32, mod := 0x8#8, la := 0x1#4 }) ∧
    -- FEXP2.f32, APX 1, v2, v3, la:1
    decodeTableWord 96 0x00000000_08710000_03025601 = some (.fexp2 { XForm.blank with a := .v 2, b := .v 3, ty := .f32, mod := 0x8#8, la := 0x1#4 }) ∧
    -- FLOG2.f32, APX 1, v2, v3, la:1
    decodeTableWord 96 0x00000000_08710000_03025701 = some (.flog2 { XForm.blank with a := .v 2, b := .v 3, ty := .f32, mod := 0x8#8, la := 0x1#4 }) := by decide +kernel

theorem test_decode_float_3 :
    -- FSINP.f32, APX 1, v2, v3, la:1
    decodeTableWord 96 0x00000000_08710000_03025801 = some (.fsinp { XForm.blank with a := .v 2, b := .v 3, ty := .f32, mod := 0x8#8, la := 0x1#4 }) ∧
    -- FCOSP.f32, APX 1, v2, v3, la:1
    decodeTableWord 96 0x00000000_08710000_03025901 = some (.fcosp { XForm.blank with a := .v 2, b := .v 3, ty := .f32, mod := 0x8#8, la := 0x1#4 }) ∧
    -- FTANH.f32, APX 1, v2, v3, la:1
    decodeTableWord 96 0x00000000_08710000_03025A01 = some (.ftanh { XForm.blank with a := .v 2, b := .v 3, ty := .f32, mod := 0x8#8, la := 0x1#4 }) ∧
    -- FSCALE.f64 v2, v4, v6
    decodeTableWord 96 0x00000000_00800006_04025B01 = some (.fscale { XForm.blank with a := .v 2, b := .v 4, c := .v 6, ty := .f64 }) := by decide +kernel

theorem test_decode_cross_1 :
    -- XSHF.b32 v13, v10, v5 (19)
    decodeTableWord 96 0x00000000_00400005_0A0D6001 = some (.xshf { XForm.blank with a := .v 13, b := .v 10, c := .v 5, ty := .b32 }) ∧
    -- XSLD.b32 v1, v1.sld(1) (17)
    decodeTableWord 96 0x00210000_00400000_01016101 = some (.xsld { XForm.blank with a := .v 1, b := .v 1, ty := .b32, xm := .sld, xk := 1#5 }) ∧
    -- XBFL.ui64 v2, v4, v6, 3, fill own
    decodeTableWord 96 0x01030000_00300006_04026201 = some (.xbfl { XForm.blank with a := .v 2, b := .v 4, c := .v 6, ty := .ui64, fill := .own, xk := 3#5 }) ∧
    -- XBCST.b32 v2, v3, s4, fill 7
    decodeTableWord 96 0x02000007_004000C4_03026301 = some (.xbcst { XForm.blank with a := .v 2, b := .v 3, c := .s 4, ty := .b32, fill := .imm, imm := 0x7#16 }) ∧
    -- XRED.add.f64 v10, v10, 1 (19)
    decodeTableWord 96 0x00010000_00800000_0A0A6401 = some (.xred { XForm.blank with a := .v 10, b := .v 10, ty := .f64, xk := 1#5 }) ∧
    -- XSCAN.max.i32.r v2, v3, s4
    decodeTableWord 96 0x04000000_400000C4_03026501 = some (.xscan { XForm.blank with a := .v 2, b := .v 3, c := .s 4, mod := 0x40#8, aux := 0x1#6 }) ∧
    -- XVOTE.all p3, p1 (18)
    decodeTableWord 96 0x04000000_00000000_00036601 = some (.xvote { XForm.blank with a := .v 3, aux := 0x1#6 }) ∧
    -- XFFS.rank v2, p1 (18)
    decodeTableWord 96 0x04000000_40000000_00026701 = some (.xffs { XForm.blank with a := .v 2, mod := 0x40#8, aux := 0x1#6 }) ∧
    -- XPLD table 3, [s2+64]
    decodeTableWord 96 0x0C000040_00000000_C2006801 = some (.xpld { XForm.blank with b := .s 2, aux := 0x3#6, imm := 0x40#16 }) ∧
    -- XPAT table 3, 4 registers, v8, v16, XK 5
    decodeTableWord 96 0x0C050004_00000000_10086901 = some (.xpat { XForm.blank with a := .v 8, b := .v 16, aux := 0x3#6, xk := 5#5, imm := 0x4#16 }) := by decide +kernel

theorem test_decode_matrix_1 :
    -- MZERO.f32 v64 (06)
    decodeTableWord 96 0x00000000_00700000_00407001 = some (.mzero { XForm.blank with a := .v 64, ty := .f32 }) ∧
    -- MMA.f64 v64, v0, v16, zero
    decodeTableWord 96 0x00000000_0080F010_00407101 = some (.mma { XForm.blank with a := .v 64, c := .v 16, d := .zero, ty := .f64 }) ∧
    -- MMAS.e4m3x4.sa1 v64, v0, v16, v64, v96, v98 (06)
    decodeTableWord 96 0x04006260_00B04010_00407201 = some (.mmas { XForm.blank with a := .v 64, c := .v 16, d := .v 64, ty := .e4m3x4, aux := 0x1#6, imm := 0x6260#16 }) ∧
    -- MMAI.i8x4 v64, v0, v16, v64
    decodeTableWord 96 0x00000000_00604010_00407301 = some (.mmai { XForm.blank with a := .v 64, c := .v 16, d := .v 64, ty := .i8x4 }) ∧
    -- HAD.f16x2, K 32, v16, v32
    decodeTableWord 96 0x00000000_20900000_20107401 = some (.had { XForm.blank with a := .v 16, b := .v 32, ty := .f16x2, mod := 0x20#8 }) ∧
    -- QNT.i8x4 v4, v16, scale v40 byte 2
    decodeTableWord 96 0x08000000_00600028_10047501 = some (.qnt { XForm.blank with a := .v 4, b := .v 16, c := .v 40, ty := .i8x4, aux := 0x2#6 }) ∧
    -- DQNT.e5m2x4 v16, v4, scale v40 byte 7
    decodeTableWord 96 0x1C000000_00C00028_04107601 = some (.dqnt { XForm.blank with a := .v 16, b := .v 4, c := .v 40, ty := .e5m2x4, aux := 0x7#6 }) ∧
    -- FRAGT.i16x2 v0, v16
    decodeTableWord 96 0x00000000_00500000_10007701 = some (.fragt { XForm.blank with b := .v 16, ty := .i16x2 }) := by decide +kernel

theorem test_decode_refine_1 :
    -- RLRUN s4, L[s2+256] (07)
    decodeTableWord 96 0x00000100_00000000_C2C47801 = some (.rlrun { XForm.blank with a := .s 4, b := .s 2, imm := 0x100#16 }) ∧
    -- RLACC.f64 v10 (07)
    decodeTableWord 96 0x00000000_00800000_0A007901 = some (.rlacc { XForm.blank with b := .v 10, ty := .f64 }) ∧
    -- RLRET (07)
    decodeTableWord 96 0x00000000_00000000_00007A01 = some (.rlret XForm.blank) ∧
    -- RLABT s6 (07)
    decodeTableWord 96 0x00000000_00000000_C6007B01 = some (.rlabt { XForm.blank with b := .s 6 }) := by decide +kernel

theorem test_decode_memory_1 :
    -- LD.b32 v8, b1[v2], la:2 (09)
    decodeTableWord 96 0x04000000_004200F0_02088001 = some (.ld { XForm.blank with a := .v 8, b := .v 2, c := .zero, ty := .b32, la := 0x2#4, aux := 0x1#6 }) ∧
    -- ?p1 ST.u16 b1[v2+2], v4 (18)
    decodeTableWord 96 0x04000002_604000F0_0204810D = some (.st { XForm.blank with guard := some ⟨false, 1#4⟩, a := .v 4, b := .v 2, c := .zero, ty := .b32, mod := 0x60#8, aux := 0x1#6, imm := 0x2#16 }) ∧
    -- SLD.x4 s4, b2[zero+1] (17)
    decodeTableWord 96 0x08000001_A04000F0_F0C48401 = some (.sld { XForm.blank with a := .s 4, b := .zero, c := .zero, ty := .b32, mod := 0xA0#8, aux := 0x2#6, imm := 0x1#16 }) ∧
    -- ?p1 LDL.b32 v4, L[v3] (18)
    decodeTableWord 96 0x00000000_00400000_0304820D = some (.ldl { XForm.blank with guard := some ⟨false, 1#4⟩, a := .v 4, b := .v 3, ty := .b32 }) ∧
    -- STL.x16 L[v3+4] of sibling 2, v32
    decodeTableWord 96 0x88000004_C0400000_03208301 = some (.stl { XForm.blank with a := .v 32, b := .v 3, ty := .b32, mod := 0xC0#8, aux := 0x22#6, imm := 0x4#16 }) ∧
    -- ATOM.or.ui32 v2, b1[v1+3], zero (18)
    decodeTableWord 96 0x04000003_801000F0_01028501 = some (.atom { XForm.blank with a := .v 2, b := .v 1, c := .zero, ty := .ui32, mod := 0x80#8, aux := 0x1#6, imm := 0x3#16 }) ∧
    -- ATOMU.add.ui32 b4[s2], v2 (18)
    decodeTableWord 96 0x10000000_00100002_C2008601 = some (.atomu { XForm.blank with b := .s 2, c := .v 2, ty := .ui32, aux := 0x4#6 }) ∧
    -- ATOML.add.ui32 zero, L[v3], 1 (18)
    decodeTableWord 160 0x00000000_00000001_00000000_001000F1_03F08703 = some (.atoml { XForm.blank with lit := some 0x1#64, a := .zero, b := .v 3, c := .litLo, ty := .ui32 }) ∧
    -- FLT.f32 v4, b2[v8, v9], linear, wrap
    decodeTableWord 96 0x08000000_60700009_08048801 = some (.flt { XForm.blank with a := .v 4, b := .v 8, c := .v 9, ty := .f32, mod := 0x60#8, aux := 0x2#6 }) ∧
    -- BLD b1, 0 (17)
    decodeTableWord 96 0x04000000_00000000_F0008901 = some (.bld { XForm.blank with b := .zero, aux := 0x1#6 }) ∧
    -- BNAR b2, b3, s1, s2, s3, s4, read only
    decodeTableWord 96 0x08000023_0000C4C3_C2C18A01 = some (.bnar { XForm.blank with a := .s 1, b := .s 2, c := .s 3, d := .s 4, aux := 0x2#6, imm := 0x23#16 }) ∧
    -- PHASE (09 R220)
    decodeTableWord 96 0x00000000_00000000_00008B01 = some (.phase XForm.blank) := by decide +kernel

theorem test_decode_memory_2 :
    -- FENCE.dev (09 R221)
    decodeTableWord 96 0x00000000_60000000_00008C01 = some (.fence { XForm.blank with mod := 0x60#8 }) ∧
    -- PFCH.home b2[v4]
    decodeTableWord 96 0x08000000_204000F0_04008D01 = some (.pfch { XForm.blank with b := .v 4, c := .zero, ty := .b32, mod := 0x20#8, aux := 0x2#6 }) := by decide +kernel

theorem test_decode_copy_1 :
    -- ?p1 ACP.t2.v32 L[v3], b1[v1] (17)
    decodeTableWord 96 0x04000002_2000F000_0103900D = some (.acp { XForm.blank with guard := some ⟨false, 1#4⟩, a := .v 3, b := .v 1, d := .zero, mod := 0x20#8, aux := 0x1#6, imm := 0x2#16 }) ∧
    -- AWAIT t2 (17)
    decodeTableWord 96 0x00000002_00000000_00009101 = some (.await { XForm.blank with imm := 0x2#16 }) ∧
    -- TCP L[s1], desc s2, s3, object s4, record 5, descriptor record 6
    decodeTableWord 96 0x14000006_0000C4C3_C2C19201 = some (.tcp { XForm.blank with a := .s 1, b := .s 2, c := .s 3, d := .s 4, aux := 0x5#6, imm := 0x6#16 }) ∧
    -- TST.stat.noobj L[s1], desc s2, s3
    decodeTableWord 96 0x14000006_600000C3_C2C19301 = some (.tst { XForm.blank with a := .s 1, b := .s 2, c := .s 3, mod := 0x60#8, aux := 0x5#6, imm := 0x6#16 }) ∧
    -- TCPG with indices in v9
    decodeTableWord 96 0x14000126_0000C4C3_C2C19401 = some (.tcpg { XForm.blank with a := .s 1, b := .s 2, c := .s 3, d := .s 4, aux := 0x5#6, imm := 0x126#16 }) ∧
    -- BREAD s20, b2[s4], s8, handler 0, s12, 3, la:4 (10 R238)
    decodeTableWord 96 0x00000602_0004CCC8_C4D49501 = some (.bread { XForm.blank with a := .s 20, b := .s 4, c := .s 8, d := .s 12, la := 0x4#4, imm := 0x602#16 }) ∧
    -- RPUT b3[s6], b1[s4], s8, L[s9] (11)
    decodeTableWord 96 0x0C000001_0000C9C8_C4C69601 = some (.rput { XForm.blank with a := .s 6, b := .s 4, c := .s 8, d := .s 9, aux := 0x3#6, imm := 0x1#16 }) ∧
    -- RGET b3[s6], b1[s4], 64, no object
    decodeTableWord 160 0x00000000_00000040_0C000001_400000F1_C4C69703 = some (.rget { XForm.blank with lit := some 0x40#64, a := .s 6, b := .s 4, c := .litLo, mod := 0x40#8, aux := 0x3#6, imm := 0x1#16 }) ∧
    -- RSIG b3, s10, s11, s12 (11)
    decodeTableWord 96 0x00000003_0000CCCB_CA009801 = some (.rsig { XForm.blank with b := .s 10, c := .s 11, d := .s 12, imm := 0x3#16 }) ∧
    -- COLL s4, b1 to b2, descriptor s5 in b3
    decodeTableWord 96 0x04000043_00000000_C5C49901 = some (.coll { XForm.blank with a := .s 4, b := .s 5, aux := 0x1#6, imm := 0x43#16 }) := by decide +kernel

theorem test_decode_strip_1 :
    -- ECOV v4, edges s9, v5, v6, own rate
    decodeTableWord 96 0x20000000_00000605_C904A001 = some (.ecov { XForm.blank with a := .v 4, b := .s 9, c := .v 5, d := .v 6, aux := 0x8#6 }) ∧
    -- SACQ s4, b1 (19)
    decodeTableWord 96 0x04000000_00000000_00C4A101 = some (.sacq { XForm.blank with a := .s 4, aux := 0x1#6 }) ∧
    -- SSTR.b32 b1[v9+1, v56], v55 (19)
    decodeTableWord 96 0x04000001_00400038_0937A201 = some (.sstr { XForm.blank with a := .v 55, b := .v 9, c := .v 56, ty := .b32, aux := 0x1#6, imm := 0x1#16 }) ∧
    -- SRDH.b32 v8, b3[v2, v5], la:1 (13 R337)
    decodeTableWord 96 0x0C000000_00410005_0208A301 = some (.srdh { XForm.blank with a := .v 8, b := .v 2, c := .v 5, ty := .b32, la := 0x1#4, aux := 0x3#6 }) ∧
    -- SREL.done b1
    decodeTableWord 96 0x04000000_00000000_0000A401 = some (.srelDone { XForm.blank with aux := 0x1#6 }) ∧
    -- SREL.cons b0
    decodeTableWord 96 0x00000000_20000000_0000A401 = some (.srelCons { XForm.blank with mod := 0x20#8 }) ∧
    -- SREL.cons.halo b0 (19)
    decodeTableWord 96 0x00000000_60000000_0000A401 = some (.srelConsHalo { XForm.blank with mod := 0x60#8 }) ∧
    -- SRATE.strip s0 (19)
    decodeTableWord 96 0x04000000_00000000_00C0A501 = some (.srate { XForm.blank with a := .s 0, aux := 0x1#6 }) ∧
    -- SPROG.start 1 (19)
    decodeTableWord 160 0x00000000_00000001_00000000_00000000_F100A603 = some (.sprogStart { XForm.blank with lit := some 0x1#64, b := .litLo }) ∧
    -- SPROG.done s3
    decodeTableWord 96 0x00000000_20000000_C300A601 = some (.sprogDone { XForm.blank with b := .s 3, mod := 0x20#8 }) := by decide +kernel

theorem test_decode_system_1 :
    -- SREAD s20, %FAULT (15)
    decodeTableWord 96 0x00000040_00000000_00D4B001 = some (.sread { XForm.blank with a := .s 20, imm := 0x40#16 }) ∧
    -- SWRITE %MODE, s3 (15)
    decodeTableWord 96 0x00000021_00000000_C300B101 = some (.swrite { XForm.blank with b := .s 3, imm := 0x21#16 }) ∧
    -- RAND.ui64 v2
    decodeTableWord 96 0x00000000_00300000_0002B201 = some (.rand { XForm.blank with a := .v 2, ty := .ui64 }) ∧
    -- TRAP 0x42 (15)
    decodeTableWord 96 0x00000042_00000000_F000B301 = some (.trap { XForm.blank with b := .zero, imm := 0x42#16 }) ∧
    -- TRET (15)
    decodeTableWord 96 0x00000000_00000000_0000B401 = some (.tretRetry XForm.blank) ∧
    -- TRET.skip (15)
    decodeTableWord 96 0x00000000_20000000_0000B401 = some (.tretSkip { XForm.blank with mod := 0x20#8 }) ∧
    -- BKPT 7 (15)
    decodeTableWord 96 0x00000007_00000000_0000B501 = some (.bkpt { XForm.blank with imm := 0x7#16 }) ∧
    -- PSAVE s4, b3[s2] (15)
    decodeTableWord 96 0x0C000000_00000000_C2C4B601 = some (.psave { XForm.blank with a := .s 4, b := .s 2, aux := 0x3#6 }) ∧
    -- PLOAD s4, b3[s2] (15)
    decodeTableWord 96 0x0C000000_00000000_C2C4B701 = some (.pload { XForm.blank with a := .s 4, b := .s 2, aux := 0x3#6 }) ∧
    -- TLBINV.part s8, s10 (14 R356)
    decodeTableWord 96 0x00000000_200000CA_C800B801 = some (.tlbinv { XForm.blank with b := .s 8, c := .s 10, mod := 0x20#8 }) ∧
    -- FWCALL 1 s5, s8, 1
    decodeTableWord 96 0x04000001_00000000_C8C5B901 = some (.fwcallQuery { XForm.blank with a := .s 5, b := .s 8, aux := 0x1#6, imm := 0x1#16 }) ∧
    -- FWCALL 2 s5, s8, 4
    decodeTableWord 96 0x10000002_00000000_C8C5B901 = some (.fwcallPin { XForm.blank with a := .s 5, b := .s 8, aux := 0x4#6, imm := 0x2#16 }) := by decide +kernel

theorem test_decode_system_2 :
    -- FWCALL 3 s5, s8, 4
    decodeTableWord 96 0x10000003_00000000_C8C5B901 = some (.fwcallTier { XForm.blank with a := .s 5, b := .s 8, aux := 0x4#6, imm := 0x3#16 }) ∧
    -- FWCALL 4 s5, s8, 1
    decodeTableWord 96 0x04000004_00000000_C8C5B901 = some (.fwcallDomain { XForm.blank with a := .s 5, b := .s 8, aux := 0x1#6, imm := 0x4#16 }) ∧
    -- FWCALL 5 s5, s8, 3
    decodeTableWord 96 0x0C000005_00000000_C8C5B901 = some (.fwcallAttest { XForm.blank with a := .s 5, b := .s 8, aux := 0x3#6, imm := 0x5#16 }) ∧
    -- FWCALL 6 s5, s8, 2
    decodeTableWord 96 0x08000006_00000000_C8C5B901 = some (.fwcallQueue { XForm.blank with a := .s 5, b := .s 8, aux := 0x2#6, imm := 0x6#16 }) ∧
    -- FWCALL 9 s5
    decodeTableWord 96 0x00000009_00000000_00C5B901 = some (.fwcallUnknown { XForm.blank with a := .s 5, imm := 0x9#16 }) := by decide +kernel

/-! ### Well-formedness: for each check an ill-formed term, which the check refuses -/

/-- TY outside the entry's list, and a TY where the entry names none (03 R51). -/
theorem test_wf_ty : (Instr.iadd { XForm.blank with ty := .f32 }).wf = false ∧
    (Instr.phase { XForm.blank with ty := .ui32 }).wf = false ∧
    tyOk (shapeOf 0x23 XForm.blank) { XForm.blank with ty := .f32 } = false := by decide +kernel

/-- A MOD bit the entry does not define, and the RM codes 6 and 7 (03 R50). -/
theorem test_wf_mod : (Instr.iadd { XForm.blank with mod := 1#8 }).wf = false ∧
    (Instr.fadd { XForm.blank with ty := .f32, mod := 6#8 }).wf = false ∧
    (Instr.fadd { XForm.blank with ty := .f32, mod := 5#8 }).wf = true ∧
    modOk (shapeOf 0x23 XForm.blank) { XForm.blank with mod := 1#8 } = false := by decide +kernel

/-- AUX and IMM16 hold values that the entry defines (03 Table 3.11). -/
theorem test_wf_aux_imm : (Instr.iadd { XForm.blank with aux := 1#6 }).wf = false ∧
    (Instr.cset { XForm.blank with b := .s 0, aux := 8#6 }).wf = false ∧
    (Instr.iadd { XForm.blank with imm := 1#16 }).wf = false ∧
    (Instr.loop { XForm.blank with b := .s 0, imm := 1025#16 }).wf = false ∧
    auxOk (shapeOf 0x23 XForm.blank) { XForm.blank with aux := 1#6 } = false ∧
    immOk (shapeOf 0x23 XForm.blank) { XForm.blank with imm := 1#16 } = false := by decide +kernel

/-- The cross-lane fields (03 R52, R53): XK without XM, a source that is no `v` register, a wide step past 5, and a
modifier in a family that has none. -/
theorem test_wf_cross : (Instr.iadd { XForm.blank with xk := 1#5 }).wf = false ∧
    (Instr.iadd { XForm.blank with b := .s 1, xm := .sld, xk := 1#5 }).wf = false ∧
    (Instr.iadd { XForm.blank with xm := .wsld, xk := 6#5 }).wf = false ∧
    (Instr.iadd { XForm.blank with xm := .wsld, xk := 5#5 }).wf = true ∧
    (Instr.ldl { XForm.blank with ty := .b32, xm := .sld }).wf = false ∧
    crossOk (shapeOf 0x23 XForm.blank) { XForm.blank with xk := 1#5 } = false := by decide +kernel

/-- LA in an instruction that is not long-latency (03 R55). -/
theorem test_wf_la : (Instr.iadd { XForm.blank with la := 1#4 }).wf = false ∧
    laOk (shapeOf 0x23 XForm.blank) { XForm.blank with la := 1#4 } = false := by decide +kernel

/-- Operand fields (03 R44 to R46): an unused field that is not blank, a literal as a destination, a literal code without a
literal, a 64-bit operand at an odd register and at the end of its file. -/
theorem test_wf_fields : (Instr.iadd { XForm.blank with d := .v 1 }).wf = false ∧
    (Instr.iadd { XForm.blank with a := .litLo }).wf = false ∧
    (Instr.iadd { XForm.blank with b := .litLo }).wf = false ∧
    (Instr.iadd { XForm.blank with ty := .i64, a := .v 3 }).wf = false ∧
    (Instr.movBase ⟨none, .lane, .v 1⟩).wf = false ∧
    fldsOk (shapeOf 0x23 XForm.blank) { XForm.blank with a := .litLo } = false := by decide +kernel

/-- A scalar destination with a source that is not uniform (03 R46). -/
theorem test_wf_scalar : (Instr.iadd { XForm.blank with a := .s 1, b := .v 1, c := .s 2 }).wf = false ∧
    (Instr.iadd { XForm.blank with a := .s 1, b := .s 3, c := .s 2 }).wf = true ∧
    (Instr.movBase ⟨none, .s 1, .lane⟩).wf = false ∧
    scalOk (shapeOf 0x23 XForm.blank) { XForm.blank with a := .s 1, b := .v 1, c := .s 2 } = false := by decide +kernel

/-- Rules of the entries' own: overlapping matrix operands (06 R137), `FENCE` scope 6 (09 R221), a store size code (09
R206); a row of an opcode that several share; a device step, which no word encodes. -/
theorem test_wf_own : (Instr.mma { XForm.blank with ty := .f32, a := .v 8, b := .v 0, c := .v 64, d := .zero }).wf = false ∧
    (Instr.fence { XForm.blank with mod := 0xC0#8 }).wf = false ∧
    (Instr.st { XForm.blank with ty := .b32, mod := 0x40#8 }).wf = false ∧
    (Instr.tretRetry { XForm.blank with mod := 0x20#8 }).wf = false ∧
    (Instr.sleepWake 3).wf = false := by decide +kernel

/-- Words that are no instruction are rejected by name (03 Table 3.11). -/
theorem test_decode_rejects : decode 0x00000FF01#160 = .reject .opcode ∧ decode 0x00002600#160 = .reject .form ∧
    decode 0x00000008#160 = .reject .guard ∧ decode 0xF6012000#160 = .reject .operand ∧
    decode 0x00F00005_07062301#160 = .reject .type ∧ decode 0x01000000#160 = .reject .blank ∧
    decode 0xC0000000_00008C01#160 = .reject .fields := by decide +kernel

/-! ### Single steps; the expected values are the worked examples of the sections named -/

/-- The loaded program's group, changed by `f`. -/
def here (f : Group → Group) : State := (State.reset.withFetchWord 32 0).modGrp 3 f

/-- The page table of ASID 1: page 0 with the program in frame 2, page 1 readable and writable in frame 3. -/
def tables : List Host.Cell :=
  [(0x20000, 0x01#8), (0x20001, 0x40#8), (0x20002, 0x02#8), (0x24000, 0x01#8), (0x24001, 0x80#8), (0x24002, 0x02#8),
   (0x28000, 0x01#8), (0x28001, 0xC0#8), (0x28002, 0x02#8), (0x2C000, 0x17#8), (0x2C001, 0x08#8), (0x2C002, 0x04#8),
   (0x2C008, 0x0F#8), (0x2C009, 0x18#8), (0x2C00A, 0x06#8)]

/-- Bytes in memory from an address on. -/
def cellsAt (a : Nat) : List Byte → List Host.Cell
  | [] => []
  | b :: r => if b = 0#8 then cellsAt (a + 1) r else (a, b) :: cellsAt (a + 1) r

/-- The loaded program's group, changed by `f`, with those pages and no more than zeros in page 1. -/
def sand (f : Group → Group) : State :=
  let s := State.reset.withFetchWord 32 0
  let s : State := { s with mem := tables, fw := { s.fw with frames := [(1, 1), (2, 1), (3, 1)] } }
  s.modGrp 3 f

/-- A record by 09 Table 9.1 that permits loads and stores. -/
def recordOf (kind peer base extX extY stride : Nat) : BitVec 256 :=
  BitVec.ofNat 256 (base + extX * 2 ^ 64 + stride * 2 ^ 112 + extY * 2 ^ 160 + 3 * 2 ^ 232 + peer * 2 ^ 237 + kind * 2 ^ 248)

/-- Four rows of 4,096 bytes in page 1. -/
def pageRec : BitVec 256 := recordOf 0 0x7FF 0x20000 4096 4 4096

/-- An instruction runs to a next state of which `p` holds. -/
def then_ (i : Instr) (s : State) (p : State → Bool) : Bool :=
  match exec i s with
  | .next u => p u
  | _ => false

/-- The same for a whole step. -/
def steps (s : State) (p : State → Bool) : Bool :=
  match step s with
  | .next u => p u
  | _ => false

/-- An extended form of fields A to D and TY. -/
def xf (ty : Ty) (a b c d : Opnd) : XForm := { XForm.blank with a := a, b := b, c := c, d := d, ty := ty }

/-- A zero word is a `NOP` of 4 bytes (03 R40). -/
theorem test_step_nop : steps (State.reset.withFetchWord 32 0) (fun u =>
    (u.grp 3).frontier == [⟨4#57, 2048#12, allLanes, false, 0⟩]) = true := by decide +kernel

/-- Until firmware runs a step only lets time pass (14 R364). -/
theorem test_step_reset : steps State.reset (fun u => u.time == 1#64 && u.groups.isEmpty) = true := by decide +kernel

/-- A word that is no instruction faults its lanes (03 R61); without a handler they are killed (15 R374). -/
theorem test_step_illegal : steps (State.reset.withFetchWord 32 0xFF00) (fun u =>
    (u.grp 3).frontier.isEmpty && (u.launch 1).cause == 0x05#8) = true := by decide +kernel

/-- The divergent branch of 02 Table 2.2: `?p1 BRA` to 0x0140 with priority 0x700, `p1` true in lanes 0 to 9. -/
theorem test_branch_diverges : then_ (.bra ⟨some ⟨false, 1#4⟩, none, 0x700#12, 16#32⟩)
    (here fun g => { g with frontier := [⟨0x100#57, 0x800#12, allLanes, false, 0⟩], p := [(1, 0x3FF#32)] }) (fun u =>
    ((u.grp 3).frontier.map fun e => (e.pc, e.prio, e.mask)) ==
      [(0x10C#57, 0x800#12, 0xFFFFFC00#32), (0x140#57, 0x700#12, 0x3FF#32)]) = true := by decide +kernel

/-- The merge that 02 R24 goes on with: the other lanes branch from 0x0134 to the same place and priority. -/
theorem test_branch_merges : then_ (.bra ⟨none, none, 0x700#12, 3#32⟩)
    (here fun g => { g with
      frontier := [⟨0x134#57, 0x800#12, 0xFFFFFC00#32, false, 0⟩, ⟨0x140#57, 0x700#12, 0x3FF#32, false, 0⟩] }) (fun u =>
    ((u.grp 3).frontier.map fun e => (e.pc, e.prio, e.mask)) == [(0x140#57, 0x700#12, allLanes)]) = true := by
  decide +kernel

/-- `IDOT2` in two lanes (05 Table 5.4): 18 in lane 0, the clamp with SAT in lane 1. -/
theorem test_idot2 : then_ (.idot2 (xf .i16x2 (.v 6) (.v 2) (.v 3) (.v 6)))
    (here fun g => (((((g.setV 2 0 0xFFFE0003#32).setV 3 0 0x00050004#32).setV 6 0 0x10#32).setV 2 1
      0x7FFF7FFF#32).setV 3 1 0x7FFF7FFF#32).setV 6 1 0x7FFF0000#32) (fun u =>
    (u.grp 3).vreg 6 0 == 0x12#32 && (u.grp 3).vreg 6 1 == 0x7FFFFFFF#32 && (u.grp 3).flg.setWidth 8 &&& flagSat == flagSat) =
    true := by decide +kernel

/-- `BFX.i32` sign-extends its field (05 R103). -/
theorem test_bfx : then_ (.bfx (xf .i32 (.v 1) (.v 2) (.v 3) (.v 0)))
    (here fun g => (((g.setV 2 0 0xF70#32).setV 3 0 0x404#32).setV 2 1 0xF70#32).setV 3 1 0x408#32) (fun u =>
    (u.grp 3).vreg 1 0 == 7#32 && (u.grp 3).vreg 1 1 == 0xFFFFFFFF#32) = true := by decide +kernel

/-- `SHRR` rounds a tie toward +∞ (04 R83): −5 by 1 gives −2, 5 by 1 gives 3. -/
theorem test_shrr : then_ (.shrr { xf .i32 (.v 1) (.v 2) .litLo (.v 0) with lit := some 1#64 })
    (here fun g => (g.setV 2 0 (BitVec.ofInt 32 (-5))).setV 2 1 5#32) (fun u =>
    (u.grp 3).vreg 1 0 == BitVec.ofInt 32 (-2) && (u.grp 3).vreg 1 1 == 3#32) = true := by decide +kernel

/-- `.i32` −1 to `.ui64` is all ones, with `.sat` 0 and SAT (05 R110). -/
theorem test_icvt : then_ (.icvt { xf .i32 (.v 2) (.v 4) (.v 0) (.v 0) with aux := 3#6 })
    (here fun g => g.setV 4 0 0xFFFFFFFF#32) (fun u =>
    (u.grp 3).vreg 2 0 == 0xFFFFFFFF#32 && (u.grp 3).vreg 3 0 == 0xFFFFFFFF#32) = true ∧
    then_ (.icvt { xf .i32 (.v 2) (.v 4) (.v 0) (.v 0) with aux := 3#6, mod := 0x10#8 })
    (here fun g => g.setV 4 0 0xFFFFFFFF#32) (fun u =>
    (u.grp 3).vreg 2 0 == 0#32 && (u.grp 3).flg.setWidth 8 == flagSat) = true := by decide +kernel

/-- A conversion of 2.5 to `.i32` rounds to even and sets INX (04 R80). -/
theorem test_fcvt_int : then_ (.fcvt { xf .f32 (.v 2) (.v 4) (.v 0) (.v 0) with aux := 0#6 })
    (here fun g => g.setV 4 0 0x40200000#32) (fun u =>
    (u.grp 3).vreg 2 0 == 2#32 && (u.grp 3).flg.setWidth 8 == flagInx) = true := by decide +kernel

/-- `FRND.f32.rne` of −0.3 gives −0.0, and `FRND.f32.rup` of 2.5 gives 3.0 (05 R113). -/
theorem test_frnd : then_ (.frnd (xf .f32 (.v 2) (.v 4) (.v 0) (.v 0))) (here fun g => g.setV 4 0 0xBE99999A#32)
      (fun u => (u.grp 3).vreg 2 0 == 0x80000000#32) = true ∧
    then_ (.frnd { xf .f32 (.v 2) (.v 4) (.v 0) (.v 0) with mod := 3#8 }) (here fun g => g.setV 4 0 0x40200000#32)
      (fun u => (u.grp 3).vreg 2 0 == 0x40400000#32) = true := by decide +kernel

/-- `FCVT.f32.to_e4m3x4.sat.h1 v5, v1, v2` of 500.0 and −0.01 into 0x1111_1111 (05 R114). -/
theorem test_fcvt_quarter : then_ (.fcvt { xf .f32 (.v 5) (.v 1) (.v 2) (.v 0) with mod := 0x10#8, aux := 27#6 })
    (here fun g => ((g.setV 1 0 0x43FA0000#32).setV 2 0 0xBC23D70A#32).setV 5 0 0x11111111#32) (fun u =>
    (u.grp 3).vreg 5 0 == 0x857E1111#32) = true := by decide +kernel

/-- `HAD.f32.h16 v16, v0` in two lanes (06 R148). -/
theorem test_had : then_ (.had (xf .f32 (.v 16) (.v 0) (.v 0) (.v 0)))
    (here fun g => (List.range 16).foldl (fun g r => g.setV r 1 0x3F800000#32) (g.setV 0 0 0x3F800000#32)) (fun u =>
    (List.range 16).all (fun k => (u.grp 3).vreg (16 + k) 0 == 0x3E800000#32) && (u.grp 3).vreg 16 1 == 0x40800000#32 &&
      (u.grp 3).vreg 17 1 == 0#32 && (u.grp 3).vreg 31 1 == 0#32 && (u.grp 3).flg == 0#32) = true := by decide +kernel

/-- `DQNT.i4x.s2 v0, v40, v96` of the block of 04 R77 (06 R150). -/
theorem test_dqnt : then_ (.dqnt { xf .i4x (.v 0) (.v 40) (.v 96) (.v 0) with aux := 2#6 })
    (here fun g => ((g.setV 40 0 0x080000A3#32).setV 41 0 0x0000007A#32).setV 96 0 0x006A0000#32) (fun u =>
    (u.grp 3).vreg 0 0 == 0x3F700000#32 && (u.grp 3).vreg 1 0 == 0xBFF00000#32 && (u.grp 3).vreg 6 0 == 0x42C80000#32 &&
      (u.grp 3).vreg 2 0 == 0#32 && (u.grp 3).vreg 15 0 == 0#32) = true := by decide +kernel

/-- The I4X block of 04 Table 4.4 decodes to the values of its rows. -/
theorem test_dqnt_rows : then_ (.dqnt (xf .i4x (.v 0) (.v 40) (.v 96) (.v 0)))
    (here fun g => ((g.setV 40 0 0x7F5C18E3#32).setV 41 0 0x08218000#32).setV 96 0 0x70#32) (fun u =>
    (u.grp 3).vreg 0 0 == 0x3FC00000#32 && (u.grp 3).vreg 1 0 == 0xBF800000#32 && (u.grp 3).vreg 2 0 == 0x41400000#32 &&
      (u.grp 3).vreg 3 0 == 0x3F000000#32 && (u.grp 3).vreg 6 0 == 0xBF000000#32 && (u.grp 3).vreg 7 0 == 0x40600000#32 &&
      (u.grp 3).vreg 13 0 == 0x3F800000#32 && (u.grp 3).vreg 10 0 == 0#32) = true := by decide +kernel

/-- `XBFL t, a, b, 0` over lanes 0 and 1 gives (a1, b0) (05 R121). -/
theorem test_xbfl : then_ (.xbfl (xf .b32 (.v 3) (.v 1) (.v 2) (.v 0)))
    (here fun g => (((g.setV 1 0 0xA0#32).setV 1 1 0xA1#32).setV 2 0 0xB0#32).setV 2 1 0xB1#32) (fun u =>
    (u.grp 3).vreg 3 0 == 0xA1#32 && (u.grp 3).vreg 3 1 == 0xB0#32) = true := by decide +kernel

/-- `ECOV` at (0, 0) at L0 with edge 0 = (1, 0, C0) and edges 1 and 2 = (0, 0, 1): 0xCCCC for C0 = −4, 0xEEEE for −3 (13
R339). -/
theorem test_ecov : then_ (.ecov (xf .i32 (.v 4) (.s 9) (.v 5) (.v 6)))
      (here fun g => (((g.setS 9 1#32).setS 11 (BitVec.ofInt 32 (-4))).setS 14 1#32).setS 17 1#32)
      (fun u => (u.grp 3).vreg 4 0 == 0xCCCC#32) = true ∧
    then_ (.ecov (xf .i32 (.v 4) (.s 9) (.v 5) (.v 6)))
      (here fun g => (((g.setS 9 1#32).setS 11 (BitVec.ofInt 32 (-3))).setS 14 1#32).setS 17 1#32)
      (fun u => (u.grp 3).vreg 4 0 == 0xEEEE#32) = true := by decide +kernel

/-- `OBJI L[0x100], 2` leaves words 0 and 0x2002, and the group's `OBJA L[0x100], 4096` onto 1,024 credited bytes the
words of 09 Table 9.9. -/
theorem test_object : then_ (.obji { xf .i32 (.v 0) .zero .litLo (.v 0) with imm := 0x100#16, lit := some 2#64 }) (here id)
      (fun u => ofBytes ((u.team 2).scrBytes 0x100 8) == 0 && ofBytes ((u.team 2).scrBytes 0x108 8) == 0x2002) = true ∧
    then_ (.obja { xf .i32 (.v 0) .zero .litLo (.v 0) with imm := 0x100#16, lit := some 4096#64 })
      ((here id).modTeam 2 fun t => (t.scrWrite 0x100 (toBytes 8 0x400) false).scrWrite 0x108 (toBytes 8 0x2002) false)
      (fun u => ofBytes ((u.team 2).scrBytes 0x100 8) == 0x100000000400 &&
        ofBytes ((u.team 2).scrBytes 0x108 8) == 0x2001) = true := by decide +kernel

/-- A lane's load past the row reads 0 and sets OOB (09 R203): x = 28 of 16 bytes. -/
theorem test_load_oob : then_ (.ld { xf .b32 (.v 8) (.v 2) .zero (.v 0) with aux := 1#6 })
    (sand fun g => ((g.setB 1 (recordOf 0 0x7FF 0x20000 16 1 16)).setV 2 0 7#32).setV 8 0 5#32) (fun u =>
    (u.grp 3).vreg 8 0 == 0#32 && (u.grp 3).flg.setWidth 8 == flagOob) = true := by decide +kernel

/-- A store is seen by its core and not at the home before `PHASE` commits it (08 R181, R183). -/
theorem test_store_phase : then_ (.st { xf .b32 (.v 8) .lane .zero (.v 0) with aux := 1#6 })
    (sand fun g => (g.setB 1 pageRec).setV 8 1 0x12345678#32) (fun u =>
    u.homeByte 0x60004 == 0#8 && u.seen 1 0x60004 == 0x78#8 && then_ (.phase XForm.blank) u (fun v =>
      v.homeBytes 0x60004 4 == toBytes 4 0x12345678)) = true := by decide +kernel

/-- A store to a page with X and without W faults, with cause 0x02 (14 R346). -/
theorem test_store_code : then_ (.st { xf .b32 (.v 8) .lane .zero (.v 0) with aux := 1#6 })
    (here fun g => g.setB 1 (recordOf 0 0x7FF 0x400 4096 1 4096)) (fun u =>
    (u.launch 1).cause == 0x02#8 && (u.grp 3).frontier.isEmpty) = true := by decide +kernel

/-- The walk of 14 R346: leaf 0x0000_0040_0006_080F in the table at byte 0x1158, by root index 0, level-2 index 0 and
level-1 index 0x123; a load at VA + 0x1F00 reaches 0x40_0006_1F00. -/
theorem test_walk : (let s := State.reset.withFetchWord 32 0
    let m := Sp.write 0#8 s.mem 0x28918 (entryBytes (0x30000 + 1))
    let m := Sp.write 0#8 m 0x31158 (entryBytes 0x400006080F)
    let t : State := { s with mem := m, fw := { s.fw with frames := [(1, 1), (0x400006_0000 / 2 ^ 17, 1)] } }
    match (t.translate 1 1 0x123456_1F00 .load).1 with
    | .ok p => p.1 == 0x400006_1F00
    | .error _ => false) = true := by decide +kernel

/-- `TRAP 0x42` with a handler saves the record and enters trap mode at the handler (15 R373, R377). -/
theorem test_trap : then_ (.trap { xf .i32 (.v 0) .zero (.v 0) (.v 0) with imm := 0x42#16 })
    ((here id).modLaunch 1 fun l => { l with r := { l.r with traph := 0x5_0000_0200#64 } })
    (fun u => (match (u.grp 3).trap with
      | some h => h.frec.cause == 0x0F#8 && h.frec.aux == 0x42#32 && h.frec.pc == 0#57 && h.frec.mask == allLanes
      | none => false) && ((u.grp 3).frontier.map fun e => (e.pc, e.prio, e.trap)) == [(0x800#57, 5#12, true)]) = true := by
  decide +kernel

/-! ### Hypotheses that are met: for each statement a state and operands that meet its hypotheses together -/

/-- An instruction of every row with an integer result. -/
def intForms : List Instr :=
  [.movBase ⟨none, .v 1, .lane⟩,
   .movBaseLit ⟨none, .v 1, .litHi⟩ 0x1234567800000000#64,
   .mov { XForm.blank with lit := some 0x4010000000000000#64, a := .v 10, b := .lit64, ty := .ui64 },
   .moviBase ⟨none, .v 3, 0xFE#8⟩,
   .movi { XForm.blank with a := .v 3, ty := .b32, mod := 0x20#8, imm := 0x1234#16 },
   .sel { XForm.blank with a := .v 3, b := .v 4, c := .v 5, ty := .b32, aux := 0x16#6 },
   .iaddBase ⟨none, .v 4, .v 9⟩,
   .iaddBaseLit ⟨none, .s 4, .litLo⟩ 0x7#64,
   .iadd { XForm.blank with lit := some 0x400#64, a := .v 2, b := .v 1, c := .litLo },
   .isubBase ⟨none, .v 4, .v 9⟩,
   .isubBaseLit ⟨none, .v 2, .litLo⟩ 0x1#64,
   .isub { XForm.blank with a := .v 2, b := .v 4, c := .v 6, ty := .ui64 },
   .imul { XForm.blank with a := .v 2, b := .v 4, c := .v 6, ty := .i64 },
   .imulh { XForm.blank with a := .v 2, b := .v 3, c := .v 4, ty := .ui32 },
   .imad { XForm.blank with lit := some 0xFF00000000010101#64, a := .v 55, b := .v 55, c := .litLo, d := .litHi, ty := .ui32 },
   .iminBase ⟨none, .v 4, .v 9⟩,
   .iminBaseLit ⟨none, .s 4, .litLo⟩ 0x7#64,
   .imin { XForm.blank with a := .v 2, b := .v 3, c := .v 4, ty := .i8x4 },
   .imaxBase ⟨none, .v 4, .v 9⟩,
   .imaxBaseLit ⟨none, .s 4, .litLo⟩ 0x7#64,
   .imax { XForm.blank with a := .v 2, b := .v 3, c := .v 4, ty := .i16x2 },
   .iabs { XForm.blank with a := .v 2, b := .v 3, mod := 0x10#8 },
   .andBase ⟨none, .v 4, .v 9⟩,
   .andBaseLit ⟨none, .v 6, .litLo⟩ 0x1#64,
   .and { XForm.blank with lit := some 0xFFFF#64, a := .v 5, b := .v 2, c := .litLo, ty := .b32 },
   .orBase ⟨none, .v 4, .v 1⟩,
   .orBaseLit ⟨none, .s 4, .litLo⟩ 0x7#64,
   .or { XForm.blank with a := .v 2, b := .v 4, c := .v 6, ty := .ui64 },
   .xorBase ⟨none, .v 4, .v 9⟩,
   .xorBaseLit ⟨none, .s 4, .litLo⟩ 0x7#64,
   .xor { XForm.blank with a := .v 2, b := .v 3, c := .v 4, ty := .b32, xm := .xor, xk := 5#5 },
   .andn { XForm.blank with a := .v 2, b := .v 3, c := .v 4, ty := .b32 },
   .not { XForm.blank with a := .v 2, b := .v 3, ty := .b32 },
   .shlBase ⟨none, .v 4, .v 9⟩,
   .shlBaseLit ⟨none, .v 1, .litLo⟩ 0x5#64,
   .shl { XForm.blank with lit := some 0x10#64, a := .v 3, b := .v 1, c := .litLo, ty := .ui32, xm := .sld, xk := 1#5 },
   .shrBase ⟨none, .v 4, .v 9⟩,
   .shrBaseLit ⟨none, .s 4, .litLo⟩ 0x7#64,
   .shr { XForm.blank with lit := some 0x10#64, a := .v 2, b := .v 1, c := .litLo, ty := .ui32 },
   .sarBase ⟨none, .v 4, .v 9⟩,
   .sarBaseLit ⟨none, .s 4, .litLo⟩ 0x7#64,
   .sar { XForm.blank with a := .v 2, b := .v 4, c := .v 6, ty := .i64 },
   .shrr { XForm.blank with lit := some 0xF#64, a := .v 6, b := .v 6, c := .litLo },
   .rot { XForm.blank with a := .v 2, b := .v 3, c := .v 4, ty := .b32 },
   .clz { XForm.blank with a := .v 2, b := .v 4, ty := .ui64 },
   .popc { XForm.blank with a := .s 2, b := .s 3, ty := .b32 },
   .brev { XForm.blank with a := .v 2, b := .v 3, ty := .b32 },
   .bfx { XForm.blank with a := .v 2, b := .v 3, c := .v 4, ty := .ui32 },
   .bfi { XForm.blank with a := .v 2, b := .v 3, c := .v 4, d := .v 5, ty := .b32 },
   .pmovGet { XForm.blank with a := .v 2 },
   .iadds { XForm.blank with a := .v 2, b := .v 3, c := .v 4, ty := .i8x4 },
   .isubs { XForm.blank with a := .v 2, b := .v 3, c := .v 4, ty := .ui32 },
   .idot2 { XForm.blank with a := .v 6, b := .v 2, c := .v 3, d := .v 6, ty := .i16x2 },
   .idot4 { XForm.blank with a := .v 6, b := .v 2, c := .v 3, d := .v 5, ty := .i8x4 },
   .ipack { XForm.blank with a := .v 8, b := .v 6, c := .v 7, ty := .i16x2, mod := 0x10#8 },
   .iunpk { XForm.blank with a := .v 8, b := .v 6, ty := .i8x4, mod := 0x20#8, aux := 0x1#6 },
   .icvt { XForm.blank with a := .v 8, b := .v 6, ty := .i64, mod := 0x10#8, aux := 0x1#6 },
   .fclass { XForm.blank with a := .v 2, b := .v 4, ty := .f64 }]

/-- An instruction of every row with a floating-point result. -/
def floatForms : List Instr :=
  [.faddBase ⟨none, .v 4, .v 9⟩,
   .faddBaseLit ⟨none, .s 4, .litLo⟩ 0x3FC00000#64,
   .fadd { XForm.blank with a := .v 2, b := .v 4, c := .v 6, ty := .f64 },
   .fmulBase ⟨none, .v 4, .v 9⟩,
   .fmulBaseLit ⟨none, .s 4, .litLo⟩ 0x3FC00000#64,
   .fmul { XForm.blank with a := .v 2, b := .v 4, c := .v 6, ty := .f64 },
   .fminBase ⟨none, .v 4, .v 9⟩,
   .fminBaseLit ⟨none, .s 4, .litLo⟩ 0x3FC00000#64,
   .fmin { XForm.blank with a := .v 2, b := .v 4, c := .v 6, ty := .f64 },
   .fmaxBase ⟨none, .v 4, .v 9⟩,
   .fmaxBaseLit ⟨none, .s 4, .litLo⟩ 0x3FC00000#64,
   .fmax { XForm.blank with a := .v 2, b := .v 4, c := .v 6, ty := .f64 },
   .fsub { XForm.blank with a := .v 2, b := .v 3, c := .v 4, ty := .f16x2, mod := 0x2#8 },
   .ffma { XForm.blank with lit := some 0x3FC00000#64, a := .v 10, b := .v 4, c := .v 6, d := .litLo, ty := .f32, mod := 0x1#8, fill := .clamp, xm := .sld, xk := 1#5 },
   .frnd { XForm.blank with a := .v 2, b := .v 4, ty := .bf16x2, mod := 0x3#8 },
   .fcvt { XForm.blank with a := .v 32, b := .v 14, c := .v 15, ty := .f32, aux := 0x1B#6 },
   .fdiv { XForm.blank with a := .v 2, b := .v 4, c := .v 6, ty := .f64, la := 0x3#4 },
   .fsqrt { XForm.blank with a := .v 2, b := .v 3, ty := .f32 },
   .frcp { XForm.blank with a := .v 2, b := .v 3, ty := .f32, mod := 0x8#8, la := 0x1#4 },
   .frsq { XForm.blank with a := .v 2, b := .v 3, ty := .f32, mod := 0x8#8, la := 0x1#4 },
   .fexp2 { XForm.blank with a := .v 2, b := .v 3, ty := .f32, mod := 0x8#8, la := 0x1#4 },
   .flog2 { XForm.blank with a := .v 2, b := .v 3, ty := .f32, mod := 0x8#8, la := 0x1#4 },
   .fsinp { XForm.blank with a := .v 2, b := .v 3, ty := .f32, mod := 0x8#8, la := 0x1#4 },
   .fcosp { XForm.blank with a := .v 2, b := .v 3, ty := .f32, mod := 0x8#8, la := 0x1#4 },
   .ftanh { XForm.blank with a := .v 2, b := .v 3, ty := .f32, mod := 0x8#8, la := 0x1#4 },
   .fscale { XForm.blank with a := .v 2, b := .v 4, c := .v 6, ty := .f64 }]

/-- An instruction of every row with a predicate result. -/
def predForms : List Instr :=
  [.isetp { XForm.blank with a := .v 1, b := .v 1, c := .v 1, mod := 0x20#8, fill := .imm, xm := .slu, xk := 1#5, imm := 0x100#16 },
   .fsetp { XForm.blank with a := .v 3, b := .v 4, c := .v 5, ty := .f32, mod := 0xA0#8, aux := 0x12#6 },
   .plop { XForm.blank with a := .v 1, b := .v 2, c := .v 3, d := .v 4, imm := 0x96#16 },
   .pmovPut { XForm.blank with b := .v 3, mod := 0x20#8, imm := 0x8001#16 }]

/-- An instruction of every row with a cross-lane result. -/
def crossForms : List Instr :=
  [.xshf { XForm.blank with a := .v 13, b := .v 10, c := .v 5, ty := .b32 },
   .xsld { XForm.blank with a := .v 1, b := .v 1, ty := .b32, xm := .sld, xk := 1#5 },
   .xbfl { XForm.blank with a := .v 2, b := .v 4, c := .v 6, ty := .ui64, fill := .own, xk := 3#5 },
   .xbcst { XForm.blank with a := .v 2, b := .v 3, c := .s 4, ty := .b32, fill := .imm, imm := 0x7#16 },
   .xred { XForm.blank with a := .v 10, b := .v 10, ty := .f64, xk := 1#5 },
   .xscan { XForm.blank with a := .v 2, b := .v 3, c := .s 4, mod := 0x40#8, aux := 0x1#6 },
   .xffs { XForm.blank with a := .v 2, mod := 0x40#8, aux := 0x1#6 }]

/-- An instruction of every row of the matrix family. -/
def matrixForms : List Instr :=
  [.mzero { XForm.blank with a := .v 64, ty := .f32 },
   .mma { XForm.blank with a := .v 64, c := .v 16, d := .zero, ty := .f64 },
   .mmas { XForm.blank with a := .v 64, c := .v 16, d := .v 64, ty := .e4m3x4, aux := 0x1#6, imm := 0x6260#16 },
   .mmai { XForm.blank with a := .v 64, c := .v 16, d := .v 64, ty := .i8x4 },
   .had { XForm.blank with a := .v 16, b := .v 32, ty := .f16x2, mod := 0x20#8 },
   .qnt { XForm.blank with a := .v 4, b := .v 16, c := .v 40, ty := .i8x4, aux := 0x2#6 },
   .dqnt { XForm.blank with a := .v 16, b := .v 4, c := .v 40, ty := .e5m2x4, aux := 0x7#6 },
   .fragt { XForm.blank with b := .v 16, ty := .i16x2 }]

/-- The group may run each of these instructions, with an acting lane and no poisoned source. -/
def allRun (s : State) (is : List Instr) : Bool := is.all fun i => s.admits i && s.clean i && s.acting i != 0#32

theorem noTraps (f : Flags) : trapped (here id).me.mode f = 0#8 := by
  show trapped 0#32 f = 0#8
  simp [trapped, show modeTraps 0#32 = 0#8 by decide]

theorem witness_ArithmeticResults :
    allRun (here id) intForms = true ∧ allRun (here id) floatForms = true ∧
    (∀ i ∈ intForms, ∃ f : Nat → LaneOut, ∀ l, integerResult (here id) i l ((here id).srcs i l) = some (f l)) ∧
    ∀ i ∈ floatForms, ∃ f : Nat → LaneOut, (∀ l, floatingResult (here id) i l ((here id).srcs i l) = some (f l)) ∧
      ∀ l ∈ ranFor ((here id).acting i) i.fields.a, trapped (here id).me.mode (f l).flags = 0#8 := by
  refine ⟨by decide +kernel, by decide +kernel, ?_, ?_⟩
  · unfold intForms
    iterate 58 refine List.forall_mem_cons.2 ⟨⟨_, fun _ => rfl⟩, ?_⟩
    exact List.forall_mem_nil _
  · unfold floatForms
    iterate 26 refine List.forall_mem_cons.2 ⟨⟨_, fun _ => rfl, fun _ _ => noTraps _⟩, ?_⟩
    exact List.forall_mem_nil _

theorem witness_PredicateAndCarryResults :
    allRun (here id) (.iaddc { xf .ui32 (.v 2) (.v 3) (.v 4) (.v 0) with imm := 6#16 } :: predForms) = true ∧
    ∀ i ∈ predForms, ∃ (ns : Nat → Bool) (val : Nat → Nat → Bool) (fl : Nat → Flags),
      (∀ l, predResult (here id) i l ((here id).srcs i l) = some (ns, fun n => val n l, fl l)) ∧
      ∀ l ∈ maskLanes ((here id).acting i), trapped (here id).me.mode (fl l) = 0#8 := by
  refine ⟨by decide +kernel, ?_⟩
  unfold predForms
  exact List.forall_mem_cons.2 ⟨⟨_, _, _, fun _ => rfl, fun _ _ => noTraps _⟩, List.forall_mem_cons.2 ⟨⟨_, _, _, fun _ => rfl,
    fun _ _ => noTraps _⟩, List.forall_mem_cons.2 ⟨⟨_, _, _, fun _ => rfl, fun _ _ => noTraps _⟩,
    List.forall_mem_cons.2 ⟨⟨_, _, _, fun _ => rfl, fun _ _ => noTraps _⟩, List.forall_mem_nil _⟩⟩⟩⟩

theorem here_unmarked : (here id).me.unmarked := ⟨fun _ _ => rfl, fun _ => rfl⟩

theorem witness_CrossLaneResults :
    allRun (here id) crossForms = true ∧
    allRun (here id) [.xvote { XForm.blank with a := .v 3, aux := 1#6 }, .xvote { XForm.blank with a := .v 3, aux := 1#6, mod := 0x20#8 },
      .xvote { XForm.blank with a := .v 3, aux := 1#6, mod := 0x40#8 }] = true ∧
    ∀ i ∈ crossForms, ∃ f : Nat → LaneOut, ∀ l, crossResult (here id) i l = some (f l) := by
  refine ⟨by decide +kernel, by decide +kernel, ?_⟩
  unfold crossForms
  iterate 7 refine List.forall_mem_cons.2 ⟨⟨_, fun _ => rfl⟩, ?_⟩
  exact List.forall_mem_nil _

/-- The loaded program with lanterns in use. -/
def lit : State := (here id).modFw fun f => { f with lanternsOn := true }

theorem witness_MatrixInstructions :
    allRun (here id) matrixForms = true ∧ (here id).fw.lanternsOn = false ∧ allRun lit matrixForms = true ∧
    lit.fw.lanternsOn = true ∧ lit.me.lantern = false ∧
    (∀ i ∈ matrixForms, matrixLanes (here id) i ∧
      ∃ (ws : Nat → List (Nat × Nat)) (fl : Nat → Flags), ∀ l, matrixResult (here id) i l = some (ws l, fl l)) := by
  refine ⟨by decide +kernel, by decide +kernel, by decide +kernel, by decide +kernel, by decide +kernel, ?_⟩
  unfold matrixForms
  iterate 8 refine List.forall_mem_cons.2 ⟨⟨by show (_ : Mask) = _; decide +kernel, fun l => _, fun l => _, fun l => rfl⟩, ?_⟩
  exact List.forall_mem_nil _


/-- The loaded program with pair 4 (v4, v5) of every lane holding 0x40, a code address. -/
def aimed : State := here fun g => lanes.foldl (fun g l => g.setV 4 l 0x40#32) g

/-- Every lane of the group has called once, from 0x10. -/
def called : State := here fun g => { g with rets := lanes.map fun l => (l, [⟨0x10#57, 5#12⟩]) }

/-- The group runs a loop of 16 bytes whose body begins at 0. -/
def looping : State := here fun g => { g with loops := [{ ctr := 0, top := 0, stop := 16, prio := 2048, set := allLanes, tail := 0 }], lc := [(0, 3#32)] }

theorem witness_PlainControl :
    (let s := here id
     let c := Instr.cset { XForm.blank with guard := some ⟨false, 1#4⟩, b := .s 3, aux := 2#6 }
     allRun s [.nopBase ⟨none⟩, .nop XForm.blank, .yieldBase ⟨none⟩, .yield XForm.blank, .ideme XForm.blank,
       .idemb { XForm.blank with imm := 0x1040#16 }, .sleep { XForm.blank with b := .zero },
       .sleep { XForm.blank with b := .zero, mod := 0x20#8 }] &&
     decide (bits (0x1040#16) 7 0 ≤ s.me.nv) && decide (bits (0x1040#16) 13 8 ≤ s.me.ns) && !opBad s.me .zero 2 0 &&
     (match s.deliverTime 3 1 0#57 with
       | .use _ t => t.cur == 3
       | _ => false) && s.admits c && s.acting c == 0#32) = true := by decide +kernel

theorem witness_Branches :
    (∀ i ∈ [Instr.braShort ⟨none, 16#16⟩, .bra ⟨none, none, 0x700#12, 16#32⟩], aimed.admits i = true ∧
      (match i with
        | .braShort _ | .bra _ => ∀ l ∈ maskLanes (aimed.acting i), ∃ p, transferTo aimed i l = some (0x40, p)
        | _ => False)) ∧
    (let i := Instr.brx { XForm.blank with b := .v 4, imm := 0x123#16 }
     aimed.admits i = true ∧ transferOk aimed i (fun _ => (0x40, 0x123#12))) ∧
    ∀ l ∈ lanes, (aimed.me.escapes 0#57 (laneBit l) 0x40) = 0#32 := by
  refine ⟨?_, ⟨by decide +kernel, ?_⟩, by decide +kernel⟩
  · refine List.forall_mem_cons.2 ⟨⟨by decide +kernel, fun l _ => ⟨_, rfl⟩⟩, List.forall_mem_cons.2 ⟨⟨by decide +kernel,
      fun l _ => ⟨_, rfl⟩⟩, List.forall_mem_nil _⟩⟩
  · unfold transferOk
    decide +kernel

theorem witness_Calls :
    (let i := Instr.call ⟨none, none, 0x800#12, 16#32⟩
     aimed.admits i = true ∧ transferOk aimed i (fun _ => (0x40, 0x800#12))) ∧
    (let i := Instr.callx { XForm.blank with b := .v 4, imm := 0x123#16 }
     aimed.admits i = true ∧ transferOk aimed i (fun _ => (0x40, 0x123#12))) ∧
    ∀ l ∈ lanes, (Sp.get [] aimed.me.rets l).length < 16 := by
  refine ⟨⟨by decide +kernel, ?_⟩, ⟨by decide +kernel, ?_⟩, by decide +kernel⟩ <;> (unfold transferOk; decide +kernel)

theorem witness_Returns :
    allRun called [.retBase ⟨none⟩, .ret XForm.blank] = true ∧
    ∀ l ∈ lanes, Sp.get [] called.me.rets l = ⟨0x10#57, 5#12⟩ :: [] := by decide +kernel

theorem witness_ExitAndConvergence :
    allRun (here id) [.exitBase ⟨none⟩, .exit XForm.blank] = true ∧
    (let s := here fun g => { g with k := [(1, allLanes)] }
     let x := { XForm.blank with aux := 1#6, imm := 0x7FF#16 }
     s.admits (.conv x) = true ∧ s.acting (.conv x) ≠ 0#32 ∧ s.acting (.conv x) &&& ~~~s.me.kreg x.aux.toNat = 0#32) := by
  decide +kernel

theorem witness_Loops :
    (let s := here id
     [0#64, 2#64].all fun n => let x := { XForm.blank with lit := some n, b := .litLo, imm := 1#16 }
      allRun s [.loop x] && !s.me.loops.any (fun d => d.ctr == x.aux.toNat) && decide (s.me.loops.length < 3) &&
      uniVal s.me x x.b 1 == n.toNat && !opBad s.me x.b 1 0 &&
      decide (s.countCode (s.launchOf s.cur).asid 257 (s.after (.loop x)).toNat (s.after (.loop x) + 4#57).toNat ≤ 256)) = true ∧
    (let i := Instr.lbrk XForm.blank
     allRun looping [i] && (maskLanes (looping.acting i)).all fun l => (looping.me.innermost l).isSome) = true := by
  decide +kernel

/-- The group's team has one barrier, at which the group has been. -/
def atBarrier : State := ((here fun g => { g with barAt := [(0, 1)] }).modTeam 2 fun t => { t with nbars := 1 })

/-- No engine holds what a boundary of the group's core must commit. -/
def free (s : State) : Bool := (s.boundaryHeld (s.coreOf s.cur)).isEmpty

theorem witness_TeamAndClusterBarriers :
    (let s := atBarrier
     let b := (s.teamOf s.cur).bar 0
     let at_ := { XForm.blank with b := .zero }
     allRun s [.bari { at_ with c := .litLo, lit := some 1#64 }, .bari { at_ with c := .litLo, lit := some 48#64 }, .bar at_,
       .bar { at_ with mod := 0x60#8 }, .bara at_, .bara { at_ with mod := 0x20#8 }, .barw at_, .barw { at_ with mod := 0x40#8 },
       .cbar XForm.blank] && uniVal s.me at_ .zero 1 == 0 && (s.teamOf s.cur).nbars == 1 && b.arrived == 0#32 &&
       !b.here s.me.gid && !opBad s.me .zero 1 0 && free (s.begun (.bar at_)) && Sp.has s.me.barAt 0 &&
       [1#64, 48#64].all fun n => let x := { at_ with lit := some n }
         uniVal s.me x .litLo 1 == n.toNat && !opBad s.me .litLo 1 0) = true := by decide +kernel

/-- An object of count 2 at byte 0x100 of the scratchpad. -/
def objected : State := (here id).modTeam 2 fun t => t.setObj 0x100 ⟨0, 0, 2, 2, 0, 0⟩

theorem witness_Objects :
    (let s := objected
     let tm := s.team 2
     let at_ := { XForm.blank with b := .zero, c := .litLo, imm := 0x100#16, lit := some 3#64 }
     allRun s [.obji at_, .obji { at_ with lit := some 1#64 }, .obji { at_ with lit := some 4095#64 }, .obja at_,
       .obja { at_ with mod := 0x20#8 }, .objw at_, .objw { at_ with mod := 0x40#8 }, .objt { at_ with a := .v 2 }] &&
     (uniVal s.me at_ .zero 1 + at_.imm.toNat == 0x100 && uniVal s.me at_ .litLo 1 == 3) && !opBad s.me .zero 1 0 &&
     !opBad s.me .litLo 1 0 && s.me.team == 2 && s.selLegal 0#6 && s.scrTeam 2 0#6 == some 2 && free (s.begun (.obja at_)) &&
     decide (0x100 + 16 ≤ tm.ssize) && (tm.scrAbsent 0x100 16).isEmpty && (tm.obj 0x100).rsvd == 0 &&
     (tm.obj 0x100).left != 0) = true := by decide +kernel

/-- The group's team has four pattern tables. -/
def patterned : State := (here id).modTeam 2 fun t => { t with npats := 4 }

theorem unmarked_of {g : Group} (v : g.vBad = []) (s : g.sBad = []) : g.unmarked := by
  simp [Group.unmarked, Group.vPoison, Group.sPoison, v, s, Sp.get, Sp.get?]

theorem witness_PatternTables :
    (let s := patterned
     let tm := s.team 2
     let at_ := { XForm.blank with b := .zero, imm := 0x100#16 }
     allRun s [.xpld at_, .xpld { at_ with aux := 3#6 }, .xpat { XForm.blank with a := .v 40, b := .v 0, imm := 2#16 }] &&
     (s.teamOf s.cur).npats == 4 && uniVal s.me at_ .zero 1 + at_.imm.toNat == 0x100 && !opBad s.me .zero 1 0 &&
     decide (0x100 + 256 ≤ tm.ssize) && (tm.scrAbsent 0x100 256).isEmpty && !tm.scrPoison 0x100 256 &&
     !((List.range 32).any fun l => patBad (ofBytes (((tm.scrBytes 0x100 256).drop (8 * l)).take 8)))) = true ∧
    patterned.me.unmarked :=
  ⟨by decide +kernel, unmarked_of (by decide +kernel) (by decide +kernel)⟩

/-- No operand of the list is poisoned in a lane that acts. -/
def cleanIn (s : State) (m : Mask) (ops : List (Opnd × Nat)) : Bool :=
  (maskLanes m).all fun l => (firstPoison s.me l ops).isNone

/-- Page 1, reached through record 1, and lanes 0 and 5 of `v3` beyond the first row. -/
def paged : State := sand fun g => ((g.setB 1 pageRec).setV 3 0 5000#32).setV 3 5 4096#32

/-- The group's launch holds a granted I/O range of 4,096 bytes at 2 MiB, which record 1 describes. -/
def ioed : State :=
  ((here fun g => g.setB 1 (recordOf 1 0x7FF 0x200000 4096 1 4096)).modPart 1 fun p => { p with ioRanges := [(0x200000, 0x1000)] })

/-- A load whose lanes all pass. -/
def loads (s : State) (i : Instr) (uni : Bool) : Bool :=
  let x := i.fields
  let r := recView (s.me.breg (auxRec x))
  let m := runLanes (s.acting i) uni
  allRun s [i] && r.kind != 1 && (s.launchOf s.cur).r.logMode != 2 &&
    (s.recFault s.cur r (auxRec x) true false (plainKinds (accessSize x))).isNone && cleanIn s m [(x.b, 1), (x.c, 1)] &&
    match State.ways r (auxRec x) .load (accessSize x) (recAt s.me x (accessSize x) true) (maskLanes m) s with
    | some (ws, t) => match loadWays s.cur r.peer (accessSize x) ws t with
      | .ok (vs, _) => vs.all fun p => !p.2.2
      | .held _ => false
    | none => false

theorem witness_RecordLoads :
    (loads paged (.ld { XForm.blank with a := .v 8, b := .lane, c := .zero, ty := .b32, aux := 1#6 }) false &&
     loads paged (.ld { XForm.blank with a := .v 8, b := .v 3, c := .zero, ty := .b32, aux := 1#6 }) false &&
     loads paged (.sld { XForm.blank with a := .s 4, b := .zero, c := .zero, ty := .b32, aux := 1#6 }) true) = true := by
  decide +kernel

theorem witness_IoLoads :
    ([(Instr.ld { XForm.blank with a := .v 8, b := .lane, c := .zero, ty := .b32, aux := 1#6 }, false),
      (.sld { XForm.blank with a := .s 4, b := .zero, c := .zero, ty := .b32, aux := 1#6 }, true)].all fun p =>
      let s := ioed
      let x := p.1.fields
      let r := recView (s.me.breg (auxRec x))
      let m := runLanes (s.acting p.1) p.2
      allRun s [p.1] && r.kind == 1 && (s.launchOf s.cur).r.logMode != 2 &&
        (s.recFault s.cur r (auxRec x) true false (plainKinds (accessSize x))).isNone && cleanIn s m [(x.b, 1), (x.c, 1)] &&
        match State.ways r (auxRec x) .load (accessSize x) (recAt s.me x (accessSize x) true) (maskLanes m) s with
        | some (ws, _) => ws.all fun w => match w.2 with
          | .io va => s.ioGranted s.cur va (accessSize x)
          | _ => false
        | none => false) = true := by decide +kernel

theorem witness_RecordStores :
    ([(paged, Opnd.lane), (paged, .v 3), (ioed, .lane)].all fun p =>
      let s := p.1
      let x := { XForm.blank with a := .v 8, b := p.2, c := .zero, ty := .b32, aux := 1#6 }
      let r := recView (s.me.breg (auxRec x))
      let n := accessSize x
      allRun s [.st x] && !s.confined (s.teamOf s.cur).launch &&
        (s.recFault s.cur r (auxRec x) false true (plainKinds n)).isNone &&
        cleanIn s (s.acting (.st x)) [(x.b, 1), (x.c, 1), (x.a, memRegs x)] &&
        match State.ways r (auxRec x) .store n (recAt s.me x n true) (maskLanes (s.acting (.st x))) s with
        | some (ws, t) => (ws.all fun p => match p.2 with
            | .io va => s.ioGranted s.cur va n
            | _ => true) &&
          (match storeWays s.cur r.peer (fun l => toBytes n (rangeVal s.me x.lit x.a (memRegs x) l)) (topLanes ws) t with
            | .ok _ => true
            | .held _ => false)
        | none => false) = true := by decide +kernel

theorem witness_RecordAtomics :
    ([Opnd.v 2, .s 2, .zero].all fun a =>
      let s := paged
      let x := { XForm.blank with a := a, b := if a.isS then .zero else .lane, c := .zero, ty := .ui32, aux := 1#6 }
      let i := Instr.atom x
      let r := recView (s.me.breg (auxRec x))
      allRun s [i] && !s.confined (s.teamOf s.cur).launch && (s.launchOf s.cur).r.logMode == 0 &&
        (s.recFault s.cur r (auxRec x) true true [0, 3]).isNone && cleanIn s (s.acting i) [(x.b, 1), (x.c, 1)] &&
        match State.ways r (auxRec x) .atomic 4 (recAt s.me x 4 false) (maskLanes (s.acting i)) (s.begun i) with
        | some (ws, t) => (match atomWays s.cur r.peer 4 (fun l old => atomNew (BitVec.ofNat 3 x.fam) x.ty old
            (opVal s.me x.lit x.c 1 l) (opVal s.me x.lit x.d 1 l)) ws t with
          | .ok (vals, _) => !vals.isEmpty && vals.all fun p => !p.2.2
          | .held _ => false)
        | none => false) = true ∧
    (let s := paged
     let x := { XForm.blank with b := .lane, c := .v 2, ty := .ui32, aux := 1#6 }
     let i := Instr.atomu x
     let r := recView (s.me.breg (auxRec x))
     allRun s [i] && (s.recFault s.cur r (auxRec x) true true [0]).isNone && cleanIn s (s.acting i) [(x.b, 1), (x.c, 1)] &&
       match State.ways r (auxRec x) .atomic 4 (recAt s.me x 4 false) (maskLanes (s.acting i)) (s.begun i) with
       | some (ws, t) => (match updWays s.cur x (fun l => opVal s.me x.lit x.c 1 l) ws t with
         | .ok _ => true
         | .held _ => false)
       | none => false) = true := by decide +kernel

theorem witness_Scratchpads :
    ([(Instr.ldl { XForm.blank with a := .v 4, b := .zero, ty := .b32 }, 4),
      (.stl { XForm.blank with a := .v 4, b := .zero, ty := .b32 }, 4),
      (.stl { XForm.blank with a := .v 4, b := .litLo, ty := .b32, lit := some 0xFFC#64 }, 4),
      (.atoml { XForm.blank with a := .v 4, b := .zero, c := .zero, ty := .ui32 }, 4),
      (.atoml { XForm.blank with a := .s 4, b := .zero, c := .zero, ty := .ui64 }, 8)].all fun p =>
      let s := here id
      let i := p.1
      let x := i.fields
      let n := p.2
      let ls := maskLanes (s.acting i)
      let off := fun l => opVal s.me x.lit x.b 1 l + x.imm.toNat
      allRun s [i] && s.selLegal x.aux && s.scrTeam s.me.team x.aux == some 2 && (s.launchOf s.cur).r.logMode == 0 &&
        cleanIn s (s.acting i) [(x.b, 1), (x.c, 1), (x.a, 1)] && (ls.all fun l => off l % n == 0 &&
          decide (off l + n ≤ (s.team 2).ssize) && ((s.team 2).scrAbsent (off l) n).isEmpty &&
          !(s.team 2).scrPoison (off l) n && (sectorsOf (off l) n).all fun k => Sp.get 0 (s.team 2).tstBusy k == 0)) = true := by
  decide +kernel

/-- The launch has a record table of two entries at the start of page 1, both `pageRec`. -/
def tabled : State :=
  let s := (sand fun g => g.setB 1 pageRec).modLaunch 1 fun l => { l with r := { l.r with rectab := 0x20000, reccnt := 2 } }
  { s with mem := tables ++ cellsAt 0x60000 (toBytes 32 pageRec.toNat ++ toBytes 32 pageRec.toNat) }

theorem witness_RunTimeRecords :
    ([0#16, 1#16].all fun k =>
      let s := tabled
      let x := { XForm.blank with b := .zero, aux := 2#6, imm := k }
      let n := uniVal s.me x x.b 1 + x.imm.toNat
      let l := s.launchOf s.cur
      allRun s [.bld x] && !opBad s.me x.b 1 0 && decide (n < l.r.reccnt) &&
        match readPieces s.cur plainView false (pieces (l.r.rectab + 32 * n) 32) s with
        | .ok bs _ => recValid (BitVec.ofNat 256 (ofBytes bs)) && ofBytes bs == pageRec.toNat
        | _ => false) = true ∧
    (let s := tabled
     let x := { XForm.blank with a := .s 1, b := .s 2, c := .s 3, d := .s 4, aux := 2#6, imm := 0x1#16 }
     allRun s [.bnar x] && cleanIn s 1#32 [(x.b, 1), (x.c, 1), (x.d, 1), (x.a, 1)] &&
       (recView (s.me.breg (immRec x))).kind == 0 && (recView (s.me.breg (immRec x))).swizzle == 0) = true := by
  decide +kernel

theorem witness_Fences :
    ([0, 1, 2, 3, 4, 5].all fun k =>
      let s := here id
      let x := { XForm.blank with mod := BitVec.ofNat 8 (32 * k) }
      let c := s.coreOf s.cur
      let t := if 2 ≤ k then s.boundary c else s
      let u := if 3 ≤ k then t.mergeCore c ((t.core c).wroteLine s.cur) else t
      allRun s [.fence x] && x.fam == k && (s.boundaryHeld c).isEmpty && (t.core c).upd.isEmpty &&
        (u.peersHeld c).isEmpty && !s.ioPending s.cur) = true ∧
    allRun paged [.pfch { XForm.blank with b := .v 4, c := .zero, ty := .b32, mod := 0x20#8, aux := 1#6 }] = true := by
  decide +kernel

/-- The machine after an instruction. -/
def after (i : Instr) (s : State) : State :=
  match exec i s with
  | .next u => u
  | _ => s

/-- `paged` with record 2 a texel record of one texel and record 3 one without texels. -/
def texeled : State :=
  paged.modGrp 3 fun g => ((g.setB 1 (recordOf 0 0x7FF 0x20000 1 1 4 + BitVec.ofNat 256 (0x10 * 2 ^ 220))).setB 2
    (recordOf 0 0x7FF 0x20000 0 0 4 + BitVec.ofNat 256 (0x10 * 2 ^ 220)))

theorem witness_TexelFetch :
    ([1#6, 2#6].all fun k =>
      let s := { texeled with groups := texeled.groups.map fun p => (p.1, { p.2 with frontier := [⟨0#57, 2048#12, 1#32, false, 0⟩] }) }
      let x := { XForm.blank with a := .v 8, b := .v 4, c := .v 5, ty := .f32, aux := k }
      let m := s.acting (.flt x)
      let r := recView (s.me.breg (auxRec x))
      let tw := r.extentX / texelBytes r.format
      let coord := fun (o : Opnd) (l : Nat) => coordOf false (fdecode fp32 (ftzIn fp32 (modeFtz s.me.mode) (opVal s.me x.lit o 1 l)))
      let taps := fun (l : Nat) => tapsOf false false tw r.extentY (coord x.b l).1 (coord x.c l).1
      allRun s [.flt x] && r.kind == 0 && r.format == 0x10 && (s.launchOf s.cur).r.logMode != 2 &&
        if k == 2#6 then tw == 0 && !r.oobTrap
        else (s.recFault s.cur r (auxRec x) true false [0, 3]).isNone && cleanIn s m [(x.b, 1), (x.c, 1)] && tw == 1 &&
          r.extentY == 1 && (State.texels r (auxRec x) taps (maskLanes m) s).isSome) = true := by decide +kernel

theorem witness_ScratchCopies :
    ([0#8, 0x20#8].all fun k =>
      let s := paged.modGrp 3 fun g => g.setV 6 1 32#32
      let x := { XForm.blank with a := .v 6, b := .v 3, c := if k == 0#8 then .litLo else .blank, d := .zero, aux := 1#6,
                                  mod := k, lit := if k == 0#8 then some 16#64 else none }
      let i := Instr.acp x
      let r := recView (s.me.breg (auxRec x))
      let whole := x.mod.getLsbD 5
      let u := after i s
      allRun s [i] && (s.recFault s.cur r (auxRec x) true false [0, 3]).isNone && s.me.treg (bits x.imm 2 0) != 0xFFFF#16 &&
        cleanIn s (s.acting i) ([(x.b, 1)] ++ (if whole then [] else [(x.c, 1)]) ++ [(x.d, 1), (x.a, 1)]) &&
        (match State.copies r (s.teamOf s.cur).ssize (fun l => opVal s.me x.lit x.a 1 l)
          (fun l => if whole then 32 else min (opVal s.me x.lit x.c 1 l) 32)
          (fun l => (signed 32 (opVal s.me x.lit x.b 1 l), signed 32 (opVal s.me x.lit x.d 1 l)))
          (maskLanes (s.acting i)) (s.begun i) with
        | some (cs, oob, _) => cs.length == 32 && oob
        | none => false) &&
        match (u.opOf 4).kind with
        | .acp _ cs =>
          let ks := (u.opOf 4).kind.scrWrites
          let v := after (.acpLanded ⟨4, ks.headD 0⟩) u
          cs.length == 32 && !u.scrBlocked 4 && u.ops.map (·.1) == [4] && (u.opOf 4).landed.isEmpty &&
            (ks.all fun k => Sp.get 0 (u.team 2).absent k == 1) && !ks.isEmpty &&
            ks.length == 2 && (v.opOf 4).landed == [ks.headD 0] && !v.scrBlocked 4
        | _ => false) = true ∧
    allRun paged [.await { XForm.blank with imm := 2#16 }] = true := by decide +kernel

/-- Record 5 with 16-bit elements and record 6 with a descriptor of one axis of 4 elements of 4 bytes. -/
def tensored : State :=
  let s := sand fun g => ((g.setB 5 (recordOf 0 0x7FF 0x20800 4096 1 4096)).setB 6 pageRec).setS 4 0x100#32
  { s with mem := tables ++ cellsAt 0x60000 (toBytes 4 0x41 ++ toBytes 12 16 ++ toBytes 8 1 ++ toBytes 4 4 ++ toBytes 4 4) }

/-- The same with two axes, as a gather needs, the second of a row of 16 bytes. -/
def gathered : State :=
  { tensored with mem := tables ++ cellsAt 0x60000 (toBytes 4 0x42 ++ toBytes 12 16 ++ toBytes 8 1 ++ toBytes 4 4 ++
      toBytes 4 4 ++ toBytes 8 4 ++ toBytes 4 4 ++ toBytes 4 4) }

/-- A tensor copy that passes every check. -/
def copies (s : State) (i : Instr) (store gather : Bool) : Bool :=
  allRun s [i] && !s.confined (s.teamOf s.cur).launch &&
    match tensorChecks i.fields store gather (begin_ i s) with
    | .go _ t => t.rows_ * t.rowBytes != 0
    | _ => false

theorem witness_TensorCopies :
    (let x := { XForm.blank with a := .s 1, b := .s 2, c := .s 3, aux := 5#6, imm := 6#16 }
     copies tensored (.tcp { x with d := .s 4 }) false false && copies tensored (.tst { x with mod := 0x60#8 }) true false &&
     copies gathered (.tcpg { x with d := .s 4, imm := 0x126#16 }) false true &&
     (let u := after (.tcp { x with d := .s 4 }) tensored
      match (u.opOf 4).kind with
      | .tcp t =>
        let r := recView t.rec_
        let q := u.readSource 4 (u.opOf 4) r (((t.units false).map fun u => lineOf (r.base + u.mem)).eraseDups)
        !u.scrBlocked 4 && !q.1.held && q.1.absent.isEmpty && (u.opOf 4).landed.isEmpty && !t.sectors.isEmpty &&
          t.sectors.all fun k => decide (Sp.get 0 (u.team 2).absent k ≤ 1)
      | _ => false) &&
     (let u := after (.tst { x with mod := 0x60#8 }) tensored
      match (u.opOf 4).kind with
      | .tst _ => !u.scrBlocked 4 && Sp.get? u.owned (lineOf 0x60800) == some 4
      | _ => false)) = true := by decide +kernel

/-- The launch declares handler 0, and the team has two handler slots. -/
def reading (y : Nat) : State :=
  let s := ((sand fun g => ((((g.setB 2 pageRec).setS 5 (BitVec.ofNat 32 y)).setS 8 2#32).setS 9 1#32).setS 10 1#32).modTeam 2
    fun t => { t with nhandlers := 2 })
  s.modLaunch 1 fun l => { l with handlers := [(0, ⟨0x40#57, 5#12, 2⟩)] }

theorem witness_BulkReads :
    ([0, 4].all fun y =>
      let s := reading y
      let x := { XForm.blank with a := .s 20, b := .s 4, c := .s 8, d := .s 12, imm := 0x602#16 }
      let i := Instr.bread x
      let v := recView (s.me.breg (immRec x))
      allRun s [i] && Sp.has (s.launchOf s.cur).handlers (bits x.imm 8 5) && s.me.sBad.isEmpty &&
        (s.teamOf s.cur).nhandlers != 0 && (s.recFault s.cur v (immRec x) true false [0, 3]).isNone && v.swizzle == 0 &&
        v.base % 256 == 0 && v.strideY % 256 == 0 && !v.oobTrap &&
        ((after i s).readOf 4).count == 2) = true := by decide +kernel

/-- The machine once the read of two bursts has begun and both have entries of the burst buffer. -/
def read2 : State :=
  (after (.bread { XForm.blank with a := .s 20, b := .s 4, c := .s 8, d := .s 12, imm := 0x602#16 }) (reading 0)).afterRun.afterRun

theorem witness_Bursts :
    ([0, 1].all fun k =>
      let s := read2
      let r := s.readOf 4
      let q := s.readSource 0 r.asOp (recView r.rec_) (burstLines (recView r.rec_) (r.place k))
      r.live && (s.core r.core).burstAsked.contains (4, k) && !q.1.held && q.1.absent.isEmpty) = true ∧
    (let s := after (.burstReady 4 1) read2
     let r := s.readOf 4
     ((s.core 1).burstBuf.find? fun p => (s.birthOf 1 p).isSome) == some (4, 1) && (s.team r.team).canBear &&
       (s.team r.team).freeSlot == some 0 && (s.launch r.launch).r.logMode == 0 && (Sp.get? r.ready 1).isSome) = true := by
  decide +kernel

/-- Peer 5 has joined the owner's domain; record 3 is its page and records 1 and 2 are this device's. -/
def linked : State :=
  let s := sand fun g => ((((((g.setB 1 pageRec).setB 2 pageRec).setB 3 (recordOf 3 5 0x20000 4096 4 4096)).setS 4
    0x40#32).setS 6 0x80#32).setS 8 64#32).setS 11 0x100020#32
  s.modFw fun f => { f with domain := [(1, 5, 1)] }

/-- `linked` with a descriptor of a reduction of two ranks, this one 0, that waits at most 1 microsecond. -/
def rostered : State :=
  let d := toBytes 4 0 ++ toBytes 4 0 ++ toBytes 4 2 ++ toBytes 4 0 ++ toBytes 8 4 ++ toBytes 8 0x800 ++ toBytes 8 0x900 ++
    toBytes 8 0x100 ++ toBytes 8 0 ++ toBytes 4 1 ++ toBytes 4 9
  { linked with mem := tables ++ cellsAt 0x60040 d ++ cellsAt 0x60100 (toBytes 4 0 ++ toBytes 4 5) }

theorem witness_RemoteTransfers :
    ([(Instr.rput { XForm.blank with a := .s 6, b := .s 4, c := .s 8, d := .s 9, aux := 3#6, imm := 1#16 }, 3),
      (.rput { XForm.blank with a := .s 6, b := .s 4, c := .s 8, aux := 3#6, imm := 1#16, mod := 0x40#8 }, 3),
      (.rget { XForm.blank with a := .s 6, b := .s 4, c := .s 8, d := .s 9, aux := 1#6, imm := 3#16 }, 0)].all fun p =>
      let s := linked
      let x := p.1.fields
      let dk := p.2
      let dv := recView (s.me.breg (auxRec x))
      let sv := recView (s.me.breg (immRec x))
      let dOff := uniVal s.me x x.a 1
      let sOff := uniVal s.me x x.b 1
      let n := uniVal s.me x x.c 1
      let u := after p.1 s
      allRun s [p.1] && !s.confined (s.teamOf s.cur).launch && s.me.sBad.isEmpty &&
        (s.recFault s.cur dv (auxRec x) false true [dk]).isNone && (s.recFault s.cur sv (immRec x) true false [3 - dk]).isNone &&
        n == 64 && dOff == 0x80 && sOff == 0x40 && uniVal s.me x x.d 1 == 0 && !dv.oobTrap && !sv.oobTrap &&
        rowFit dv dOff n == n && match (u.opOf 4).kind with
        | .rput peer dst src n dExt sExt =>
          let q := u.readSource 4 (u.opOf 4) (linkView 0 0x7FF) (rangeLines src sExt)
          let ps := remotePuts q.1 dst src dExt sExt
          n == 64 && !u.putBlocked 4 peer dst dExt && !q.1.held && q.1.absent.isEmpty &&
            (q.2.absentDest (u.opOf 4) (linkView 3 peer) ps).isEmpty && !q.2.destHeld 4 (linkView 3 peer) ps
        | .rget peer dst src n dExt sExt =>
          let q := u.readSource 4 (u.opOf 4) (linkView 3 peer) (rangeLines src sExt)
          let q1 := q.2.overRemote (u.opOf 4) (linkView 3 peer) (rangeLines src sExt) q.1
          let ps := remotePuts q1 dst src dExt sExt
          n == 64 && !q1.held && q1.absent.isEmpty && (q.2.absentDest (u.opOf 4) (linkView 0 0x7FF) ps).isEmpty &&
            !q.2.destHeld 4 (linkView 0 0x7FF) ps
        | _ => false) = true ∧
    (let s := linked
     let x := { XForm.blank with b := .s 10, c := .s 11, d := .s 12, imm := 3#16 }
     let u := after (.rsig x) s
     allRun s [.rsig x] && (s.recFault s.cur (recView (s.me.breg (immRec x))) (immRec x) false true [3]).isNone &&
       field (uniVal s.me x x.c 1) 20 12 == 1 && field (uniVal s.me x x.c 1) 0 20 == 0x20 &&
       (match (u.opOf 4).kind with
        | .rsig peer _ _ _ _ => peer == 5 && u.fw.deviceId == 0 && !u.sigBlocked 4 5
        | _ => false) &&
       (match (s.modLaunch 1 fun l => { l with r := { l.r with port := 1 } }).sigFate 1 0 0x20 with
        | .apply t => t == 2
        | _ => false)) = true := by decide +kernel

theorem witness_Collectives :
    (let s := rostered
     let x := { XForm.blank with a := .s 4, b := .s 4, aux := 1#6, imm := 0x42#16 }
     let i := Instr.coll x
     let kv := recView (s.me.breg (immRec x))
     let sv := recView (s.me.breg (auxRec x))
     let dv := recView (s.me.breg (bits x.imm 9 5))
     let off := uniVal s.me x x.b 1
     allRun s [i] && !s.confined (s.teamOf s.cur).launch && cleanIn s 1#32 [(x.b, 1)] &&
       (s.recFault s.cur kv (immRec x) true false [0]).isNone && (s.recFault s.cur sv (auxRec x) true false [0]).isNone &&
       (s.recFault s.cur dv (bits x.imm 9 5) false true [0]).isNone && decide (64 ≤ rowFit kv off 64) && off == 64 &&
       match readPieces s.cur kv false (pieces (kv.ea off 0) 64) (s.begun i) with
       | .ok bs t =>
         let ro := ofBytes ((bs.drop 0x28).take 8)
         let p := ofBytes ((bs.drop 8).take 4)
         ro == 0x100 && p == 2 && match readPieces s.cur kv false (pieces (kv.ea ro 0) (4 * p)) t with
         | .ok ros _ =>
           let c := collOf bs ros (field s.me.nbv.toNat 0 8)
           !collBad bs c s.fw.deviceId (fun r => (s.peerAsid 1 1 r).isSome) && !collClash c (sv.base + c.src) (dv.base + c.dst) &&
             c.srcLen == 16 && rowFit sv c.src c.srcLen == 16 && rowFit dv c.dst c.dstLen == 16 && !s.collDouble c
         | _ => false
       | _ => false) = true ∧
    (let u := after (.coll { XForm.blank with a := .s 4, b := .s 4, aux := 1#6, imm := 0x42#16 }) rostered
     let late : State := { u with time := 1000#64 }
     let own : CollOp := match (u.opOf 4).kind with
       | .coll c => c
       | _ => collOf [] [] 0
     let rank : CollRank := {
       rank := 1, kind := own.kind, rtype := own.rtype, rop := own.rop, canon := own.canon, count := own.count
       root := own.root, nranks := own.nranks, roster := own.roster, nbv := own.nbv, bytes := List.replicate 16 1#8, bad := [] }
     let joined := after (.collJoin 4 [rank]) u
     let differing := after (.collJoin 4 [{ rank with roster := [] }]) u
     match (u.opOf 4).kind, (joined.opOf 4).kind, (differing.opOf 4).kind with
     | .coll c, .coll d, .coll e =>
       !late.collWaits (u.opOf 4).group (u.opOf 4).pc && c.wait == 1 && !c.allJoined &&
         decide ((u.opOf 4).at_.toNat + 1000 * c.wait ≤ late.time.toNat) && e.allJoined && e.differs &&
         d.mayMove joined.locked joined.time && !d.lost &&
         (let o := joined.opOf 4
          let q := joined.readSource 4 o (linkView 0 0x7FF) (rangeLines d.src d.srcLen)
          let data : RankData := fun k => if k = 0 then ownData q.1 d.src d.srcLen else (List.replicate 16 1#8, [])
          let ps : List Put := ((List.range (d.result data).length).zip (d.result data)).map fun p =>
            { va := d.dst + p.1, sh := 0, w := 8, val := p.2.1.toNat, bad := p.2.2, at_ := p.1 }
          !q.1.held && q.1.absent.isEmpty && (q.2.absentDest o (linkView 0 0x7FF) ps).isEmpty &&
            !q.2.destHeld 4 (linkView 0 0x7FF) ps && ps.length == 16)
     | _, _, _ => false) = true := by decide +kernel

/-- The launch of the group is one of instance 7 of a display stream with slots of two lines of 64 one-byte texels; record 1
is the source ring and record 3 the output ring. `lf` is the state of slot 0 of each ring. -/
def striped (lf : SlotLife) : State :=
  let rec_ := fun out => recordOf 2 0 (64 * out) 64 2 64 + BitVec.ofNat 256 (0x10 * 2 ^ 220)
  let d : StreamDesc :=
    { sink := 0, h := 2, ns := 3, no := 3, halo := 1, outw := 64, outh := 4, rndw := 64, rndh := 4, sfmt := 0x10, ofmt := 0x10 }
  let x : Slot := { life := lf, inst := 7, used := true }
  let s := (here fun g => ((g.setB 1 (rec_ 0)).setB 3 (rec_ 1)).setV 3 0 100#32).modLaunch 1 fun l => { l with inst := some 7 }
  { s with
    streams := [(0, { on := true, d := d, part := 1, owner := 1, asid := 1, src := [(0, x)], out := [(0, x)],
                      tmpl := [⟨0, {}, [], 100, 0⟩] })]
    insts := [(7, { live := true, stream := 0, started := 1 })] }

theorem witness_StripSlots :
    (let x := { XForm.blank with a := .v 55, b := .lane, c := .zero, ty := .b32, aux := 1#6 }
     let at3 := { x with aux := 3#6 }
     let ring := fun (s : State) (x : XForm) out => s.ringOf x == some (7, 0, out)
     let slots := fun (s : State) => (((s.stream 0).slot false 0).inst == 7) && ((s.stream 0).slot true 0).inst == 7
     ([x, at3].all fun y =>
       (let s := striped .free
        allRun s [.sacq { XForm.blank with a := .s 4, aux := y.aux }] && ring s y (y.aux == 3#6) && !(s.instance_ 7).srcDone &&
          (s.takeSlot 7 1 (y.aux == 3#6)).isSome) &&
       ([SlotLife.acquired, .missed].all fun lf =>
          let s := striped lf
          allRun s [.sstr y, .sstr { y with b := .v 3 }, .srelDone { XForm.blank with aux := y.aux }] &&
          ring s y (y.aux == 3#6) && slots s && (recView (s.me.breg (auxRec y))).w && !(recView (s.me.breg (auxRec y))).oobTrap &&
          cleanIn s allLanes [(y.b, 1), (y.c, 1), (y.a, 1)] && (s.team 2).srel.isEmpty &&
          (stripPlace s.me y 0 2 0).isSome && (stripPlace s.me { y with b := .v 3 } 0 2 0).isNone)) &&
     (let s := (striped .free).modStream 0 fun st => st.setSlot false 0 { life := .written, inst := 9 }
      (s.takeSlot 7 1 false).isNone) &&
     ([SlotLife.written, .consuming].all fun lf =>
        let s := striped lf
        allRun s [.srdh { x with a := .v 8 }] && ring s x false && (recView (s.me.breg 1)).r && (s.launchOf s.cur).r.logMode == 0 &&
          (s.stream 0).readable 0 false && (maskLanes allLanes).all fun l => match stripPlace s.me x (-1) 2 l with
            | some (bx, y) => !((s.stream 0).readLine 0 0 bx y 4).2
            | none => true) &&
     (let s := striped .consuming
      allRun s [.srelCons { XForm.blank with mod := 0x20#8, aux := 1#6 }, .srelConsHalo { XForm.blank with mod := 0x60#8, aux := 1#6 }] && slots s && (s.team 2).srel.isEmpty)) = true := by
  decide +kernel

theorem witness_StripContext :
    (let s := striped .acquired
     let e := { XForm.blank with a := .v 4, b := .s 9, c := .v 5, d := .v 6, aux := 0x8#6 }
     let one := { XForm.blank with b := .litLo, lit := some 1#64 }
     allRun s [.ecov e, .ecov { e with aux := 1#6 }, .srate { XForm.blank with a := .s 0, aux := 1#6 },
         .srate { XForm.blank with a := .s 0 }, .sprogStart one, .sprogStart { one with lit := some 99#64 },
         .sprogDone { one with mod := 0x20#8 }] && s.instOf s.cur == some 7 && s.me.sBad.isEmpty &&
       cleanIn s allLanes [(e.c, 1), (e.d, 1)] && (s.launchOf s.cur).r.logMode == 0 && uniVal s.me one .litLo 1 == 1 &&
       (s.instance_ 7).started == 1 && (s.tilesOf 7).tiles == 100 && (s.instance_ 7).done == 0) = true := by decide +kernel

theorem witness_SpecialRegisters :
    (allRun (here id) [.sread { XForm.blank with a := .s 20, imm := 0x10#16 }, .sread { XForm.blank with a := .s 20, imm := 0x20#16 },
       .swrite { XForm.blank with b := .s 3, imm := 0x21#16 }, .swrite { XForm.blank with b := .s 3, imm := 0x20#16 }] &&
     (match (here id).deliverTime 3 0 0#57 with
      | .use _ _ => true
      | _ => false) && !(here id).me.flagsPending && !opBad (here id).me (.s 3) 1 0 &&
     ((here id).me.setSpecial 0x21 0#32).isSome && ((here id).me.setSpecial 0x20 0#32).isSome) = true := by decide +kernel

/-- The core has 2,048 random bits. -/
def noisy : State := (here id).modCore 1 fun c => { c with noise := 2048 }

theorem witness_RandomBits :
    (allRun noisy [.rand { XForm.blank with a := .v 2, ty := .ui64 }, .rand { XForm.blank with a := .s 2, ty := .b32 },
       .rand { XForm.blank with a := .zero, ty := .b32 }] && (noisy.launchOf noisy.cur).r.logMode == 0 &&
     noisy.coreOf noisy.cur == 1 && !(noisy.core 1).noiseFailed && maskCount allLanes * 64 == (noisy.core 1).noise) = true := by
  decide +kernel

/-- The image of a group of 1 vector and 5 scalar registers: NBV 2, null records and zeros. -/
def image1 : List Byte :=
  toBytes 16 0x200501_00000001 ++ toBytes 0x150 2 ++ ((List.replicate 32 (toBytes 32 (0x7FF * 2 ^ 237))).flatMap id) ++
    List.replicate 128 0#8

/-- A group of 1 vector and 5 scalar registers in trap mode, with a record of 8 KiB that holds that image. -/
def imaged : State :=
  let s := sand fun g => { (g.setB 3 (recordOf 0 0x7FF 0x20000 8192 1 8192)) with
    nv := 1, ns := 5, nb := 32, frontier := g.frontier.map fun e => { e with trap := true } }
  { s with mem := tables ++ cellsAt 0x60000 image1 }

theorem imaged_image :
    (match imgWays 1 1 .load (pieces 0x20000 imaged.me.imageSize) imaged with
      | (.ok qs, w) => (match imgLoad 1 qs w with
        | .ok (bb, _) => bb == image1.map fun b => (b, false)
        | _ => false)
      | _ => false) = true ∧ imageOk imaged.me image1 = true := ⟨by decide +kernel, by decide +kernel⟩

theorem witness_StateImages :
    (let s := imaged
     let x := { XForm.blank with a := .s 4, b := .s 2, aux := 3#6 }
     let r := recView (s.me.breg (auxRec x))
     allRun s [.psave x, .pload x] && s.entry.trap && !opBad s.me x.b 1 0 && r.kind == 0 && r.w && r.r && r.extentY == 1 &&
       uniVal s.me x x.b 1 == 0 && r.ea 0 0 == 0x20000 && decide (s.me.imageSize ≤ r.extentX) &&
       !s.confined (s.teamOf s.cur).launch && s.coreOf s.cur == 1 && (s.launchOf s.cur).asid == 1 &&
       match imgWays 1 1 .store (pieces 0x20000 s.me.imageSize) s with
       | (.ok ps, t) => ps.length == 12 && t.owned.isEmpty
       | _ => false) = true ∧
    ∀ ps t, t.noneOwned → ∃ v, imgStore 1 imaged.me.imageBad ps 0 imaged.me.image t = .ok v :=
  ⟨by decide +kernel, fun _ _ h => imgStore_ok _ _ _ _ _ _ h⟩

theorem witness_TlbInvalidations :
    (let s := paged
     let x := { XForm.blank with b := .s 8, c := .litLo, lit := some 1#64 }
     allRun s [.tlbinv x, .tlbinv { x with mod := 0x20#8 }, .tlbinv { XForm.blank with mod := 0xA0#8 }] &&
       !opBad s.me x.b 2 0 && !opBad s.me x.c 1 0 && uniVal s.me x x.b 2 == 0 && uniVal s.me x x.c 1 == 1 &&
       ([false, true].all fun all => (s.linesUnder 1 1 (some (0, 1)) all).isEmpty && (s.linesUnder 1 1 none all).isEmpty)) = true := by decide +kernel

/-- The launch is one of an administrator's queue. -/
def privileged : State := (here id).modLaunch 1 fun l => { l with admin := true }

theorem witness_FirmwareCalls :
    (let s := privileged
     let x := { XForm.blank with a := .s 5, b := .s 8 }
     let free := fun (i : Instr) (n : Nat) => (serviceOf s i).map (fun p => (p.1, p.2.1)) == some (n, true)
     let all := [(Instr.fwcallQuery { x with aux := 1#6, imm := 1#16 }, 1), (.fwcallQuery { x with imm := 1#16, b := .blank }, 1),
       (.fwcallPin { x with aux := 4#6, imm := 2#16 }, 4), (.fwcallTier { x with aux := 4#6, imm := 3#16 }, 4),
       (.fwcallDomain { x with aux := 1#6, imm := 4#16 }, 1), (.fwcallAttest { x with aux := 3#6, imm := 5#16 }, 3),
       (.fwcallQueue { x with aux := 2#6, imm := 6#16 }, 2), (.fwcallUnknown { XForm.blank with a := .s 5, imm := 9#16 }, 0)]
     allRun s (all.map (·.1)) && (all.all fun p => free p.1 p.2) && s.me.sBad.isEmpty) = true ∧ privileged.mayFence := by
  refine ⟨by decide +kernel, by decide +kernel, by decide +kernel, ?_, by decide +kernel⟩
  decide +kernel

/-- Queue 0 of function 1 has a ring in page 1 and one packet in it. -/
def queued (bs : List Byte) : State :=
  { sand id with
    mem := tables ++ cellsAt 0x60000 bs
    queues := [(0, { on := true, fn := 1, num := 0, owner := 1, wr := 1
                     d := ⟨0x20000, 4, 1, 1, 0, 0, 0, 0x20FF8, true⟩ })] }

/-- A packet: its kind and tag, and three words. -/
def packetOf (kind a b c : Nat) : List Byte :=
  toBytes 8 (kind + 2 ^ 32 * 7) ++ toBytes 8 a ++ toBytes 8 b ++ toBytes 8 c ++ List.replicate 32 0#8

/-- Page 1 of ASID 1 stands in frame 3, the device may read it at once and nothing hides its bytes; `bs` are those from
an offset on. -/
def holds (s : State) (off : Nat) (bs : List Byte) : Bool :=
  s.pageAt 1 1 == some 0x60000 && s.cores.isEmpty && s.memBad.isEmpty && s.owned.isEmpty && bs.length != 0 &&
    decide (off + bs.length < 2 ^ 17) && ((List.range bs.length).map fun i => s.homeByte (0x60000 + off + i)) == bs

theorem holds_read {s : State} {off : Nat} {bs : List Byte} (h : holds s off bs = true) :
    s.deviceRead 1 (0x20000 + off) bs.length = (some bs, s) := by
  simp only [holds, Bool.and_eq_true, beq_iff_eq, List.isEmpty_iff, decide_eq_true_eq, bne_iff_ne] at h
  obtain ⟨⟨⟨⟨⟨⟨h1, h2⟩, h3⟩, ho⟩, h0⟩, h4⟩, h5⟩ := h
  rw [State.deviceRead_page h1 h2 h3 ho (by omega) (by omega) (by omega) (by omega)]
  refine Prod.ext (congrArg some (Eq.trans (List.map_congr_left fun i hi => ?_) h5)) rfl
  have hi := List.mem_range.1 hi
  rw [show 0x60000 + (0x20000 + off + i) % 2 ^ 17 = 0x60000 + off + i by omega]

/-- The queue's next packet is `bs`. -/
def nextIs (bs : List Byte) (s : State) : Bool :=
  holds s 0 bs && bs.length == 64 && s.nextPacketAt 0 == some (0x20000, none) && (s.queue 0).d.asid == 1 && !packetBad bs &&
    !(ofBytes ((bs.drop 1).take 1)).testBit 1

theorem nextIs_peek {bs : List Byte} {s : State} (h : nextIs bs s = true) : s.peekPacket 0 = (.packet bs none, s) := by
  simp only [nextIs, Bool.and_eq_true, beq_iff_eq, Bool.not_eq_true'] at h
  obtain ⟨⟨⟨⟨⟨h1, h2⟩, h3⟩, h4⟩, h5⟩, h6⟩ := h
  have r := holds_read h1
  rw [h2] at r
  unfold State.peekPacket
  rw [h3]
  dsimp only
  rw [h4, show s.deviceRead 1 131072 64 = (some bs, s) from r]
  rw [List.drop_one] at h6
  simp [h5, h6]

/-- A queue with one packet, of which `p` holds. -/
def next (kind a b c : Nat) (p : List Byte → State → Bool) : Bool :=
  let bs := packetOf kind a b c
  nextIs bs (queued bs) && ofBytes (bs.take 1) == kind && p bs ((queued bs).packetRead 0 bs none)

/-- A launch record of one cluster of one group, and a gang descriptor of that launch on partition 1. -/
def launchBytes : List Byte :=
  toBytes 8 0x400 ++ toBytes 4 1 ++ toBytes 4 0 ++ toBytes 4 0x1001 ++ toBytes 4 0 ++ toBytes 4 0 ++ toBytes 4 0 ++ toBytes 8 0 ++
    toBytes 4 0 ++ toBytes 4 1 ++ toBytes 8 0 ++ toBytes 4 0x4000 ++ toBytes 4 0 ++ toBytes 24 0 ++ toBytes 8 0x4000 ++
    toBytes 32 0
def gangBytes : List Byte := toBytes 4 1 ++ toBytes 4 5 ++ toBytes 8 0 ++ toBytes 8 1 ++ toBytes 8 0x20800

theorem witness_Packets :
    ([1, 16].all fun w =>
      let s := queued []
      let q := s.queue 0
      s.queueAt 1 0 == some 0 && (s.queueAt 1 4095).isNone && q.err == 0 && decide ((BitVec.ofNat 32 w - q.wr).toNat < 2 ^ 31) &&
        decide ((BitVec.ofNat 32 w - q.rd).toNat ≤ 2 ^ q.d.logsz)) = true ∧
    (next 0 0 0 0 (fun _ _ => true) &&
     ([1, 3].all fun k => next k 0 0 0 fun bs t => (t.rankOf (t.queue 0) bs).1.isSome) &&
     next 5 0x20800 0 0 (fun bs _ => pkt bs 8 8 % 8 == 0 && decide (pkt bs 0x20 4 ≤ 3)) &&
     next 6 0x20800 1 1 (fun bs t => pkt bs 8 8 % 8 == 0 && !t.vaOwned 1 (pkt bs 8 8)) &&
     ([1, 4096].all fun n => next 7 0x20800 n 0 fun bs _ => pkt bs 8 8 % 64 == 0 && pkt bs 0x10 8 == n) &&
     next 8 0x20800 0x20900 256 (fun bs _ => pkt bs 8 8 % 4 == 0 && pkt bs 0x10 8 % 4 == 0 &&
       pkt bs 0x18 8 % 4 == 0 && !(decide (pkt bs 8 8 < pkt bs 0x10 8 + 256) && decide (pkt bs 0x10 8 < pkt bs 8 8 + 256))) &&
     next 9 0xFFFF 0 0 (fun bs t => pkt bs 8 8 == 0xFFFF && !t.olderOpen 0 4 none)) = true ∧
    ∀ bs, nextIs bs (queued bs) = true →
      ({ queued bs with devWait := none } : State).peekPacket 0 = (.packet bs none, queued bs) :=
  ⟨by decide +kernel, by decide +kernel, fun _ => nextIs_peek⟩

/-- The queue's packet is a gang of that launch. -/
def ganging : State :=
  let s := queued (packetOf 2 0x20400 0 0)
  { s with mem := s.mem ++ cellsAt 0x60400 gangBytes ++ cellsAt 0x60800 launchBytes }

theorem witness_Packets_gang :
    (nextIs (packetOf 2 0x20400 0 0) ganging && holds ganging 0x400 gangBytes && holds ganging 0x800 launchBytes &&
     (let t := ganging.packetRead 0 (packetOf 2 0x20400 0 0) none
      holds t 0x400 (gangBytes.take 16) && holds t 0x400 gangBytes && holds t 0x800 launchBytes &&
      pkt gangBytes 0 4 == 1 && gangParts gangBytes 1 == [(1, 0x20800)] && !t.gangBad 1 gangBytes &&
      (match t.checkLaunch 1 1 7#32 false (parseLaunch launchBytes) with
        | (.ok x, u) => x.compl == 0 && u.devWait.isNone && u.mem == t.mem
        | _ => false))) = true := by decide +kernel

/-- A launch of one cluster of one group. -/
def oneLaunch : LaunchRec :=
  { entry := 0x400, grid := 1, groups := 1, cx := 1, cy := 1, nv := 1, rectab := 0, nbv := 1, savemax := 0x4000, spillsz := 0x4000 }

/-- Packet 4 of the queue, of a kind, is open and stands in the rank queue; launch 9 has been checked, and gang 5 is that
launch's. -/
def ranked (kind : Nat) (life : LaunchLife) : State :=
  let s := queued (packetOf kind 0x20800 0 0)
  { s with
    mem := s.mem ++ cellsAt 0x60800 launchBytes
    packets := [(4, { queue := 0, index := 0, bytes := packetOf kind 0x20800 0 0, rank := 0, arrival := 0, parent := none })]
    rankQ := [4]
    serial := 10
    launches := s.launches ++ [(9, { r := oneLaunch, life := life, packet := some 4, part := 1, owner := 1, asid := 1 })] }

/-- The same with the gang. -/
def gangs (g : Gang) : State :=
  { ranked 2 .queued with
    gangs := [(5, { g with live := true, packet := 4, parts := [9], deadlineUs := 5 })]
    time := 5000
    locked := true }

theorem witness_QueuesAndLaunches_queue :
    (let s := (queued []).modQueue 0 fun q => { q with wait := some ⟨4, 0x20800, 0, 0, 0, 5⟩ }
     let w : WaitMem := ⟨4, 0x20800, 0, 0, 0, 5⟩
     !s.vaOwned 1 w.addr && holds s 0x800 (List.replicate 8 0#8) && w.met (BitVec.ofNat 64 (ofBytes (List.replicate 8 0#8))) &&
       w.till != 0#64 && decide (w.till.toNat ≤ ({ s with time := 5 } : State).time.toNat)) = true ∧
    (let s := { ranked 8 .queued with ops := [(6, { kind := .copyPkt 0 0 0x20800 0x20900 256, launch := 9 })] }
     let o := s.opOf 6
     let r := linkView 0 0x7FF
     let a := s.readSource 6 o r (rangeLines 0x20800 256)
     let ps := remotePuts a.1 0x20900 0x20800 256 256
     !a.1.held && a.1.absent.isEmpty && (a.2.absentDest o r ps).isEmpty && !a.2.destHeld 6 r ps) = true := by decide +kernel

theorem witness_QueuesAndLaunches_dispatch :
    (let s := ranked 1 .queued
     s.headOf 1 == some 4 && pkt (s.packetOf 4).bytes 0 1 == 1 && s.mayPlace 1 && !s.gangHolds 1 &&
       holds s 0x800 launchBytes && pkt (s.packetOf 4).bytes 8 8 == 0x20800 &&
       match s.checkLaunch 1 1 (pktTag (s.packetOf 4).bytes) false (parseLaunch launchBytes) with
       | (.ok x, t) =>
         let y : Launch := { x with packet := some 4, compl := x.compl, admin := false }
         (((t.addLaunch y).2.dispatched t.serial).tryPlace t.serial).isSome
       | _ => false) = true ∧
    (let s := (striped .free).modLaunch 1 fun l => { l with life := .finished }
     let s := s.modInst 7 fun i => { i with launch := 1 }
     (s.instance_ 7).live && (s.launch (s.instance_ 7).launch).life == .finished && !(s.instance_ 7).missedAt &&
       ((({ s with launches := Sp.del s.launches 1 } : State).modInst 7 fun i =>
         { i with cur := i.cur + 1 }).instDispatch 7).devWait.isNone) = true := by
  decide +kernel

theorem witness_QueuesAndLaunches_gangs :
    ([false, true].all fun forced =>
      let s := gangs { forced := forced, headAt := some 0#64 }
      let g : Gang := Sp.get {} s.gangs 5
      let tg := BitVec.ofNat 64 (max g.start (s.time.toNat + 2000))
      g.live && g.tg.isNone && s.gangAtHead g && (forced || !s.vacatedIn 1) &&
        decide (0 + 1000 * g.deadlineUs ≤ s.time.toNat) &&
        (gangWave g.parts (g.parts.foldl (fun s l => s.modLaunch l fun x =>
          { x with r := { x.r with start := max x.r.start tg.toNat } }) s)).isSome) = true ∧
    (let s := { after (.gangCommit 5) (gangs { headAt := some 0#64 }) with time := 7000 }
     let g : Gang := Sp.get {} s.gangs 5
     (match g.tg with
      | some t => s.reached t
      | none => false) && (s.teams.filter fun kv => kv.2.life == .placed && g.parts.contains kv.2.launch).length == 1 &&
       s.teams.all fun kv => s.edgeFree kv.2.core) = true := by decide +kernel

theorem witness_QueuesAndLaunches_launches :
    (let s := ranked 1 .placing
     (s.launch 9).life == .placing && decide ((s.launch 9).placed < (s.launch 9).r.grid) && s.holdsPart (s.launch 9) && !s.gangHolds 1 && !s.vacatedIn 1 &&
       (s.tryPlace 9).isSome) = true ∧
    (let s := { after (.gangCommit 5) (gangs { headAt := some 0#64 }) with time := 7000 }
     s.launchBegun (s.launch 9) && (s.teams.filter fun kv => kv.2.life == .placed && kv.2.launch == 9).length == 1 &&
       s.teams.all fun kv => s.edgeFree kv.2.core) = true ∧
    (let s := (here id).modLaunch 1 fun l => { l with clustersDone := 1 }
     s.launchOver 1 && (s.launch 1).inst.isNone && (s.launch 1).gang.isNone) = true := by decide +kernel

/-- The bytes of a display stream's descriptor with its template at the record that follows, and of a template of one
launch of one tile. -/
def streamBytes : List Byte :=
  toBytes 4 0 ++ toBytes 4 (16 + 2 * 2 ^ 8 + 2 * 2 ^ 11 + 2 ^ 14) ++ toBytes 2 64 ++ toBytes 2 32 ++ toBytes 2 64 ++ toBytes 2 32 ++
    toBytes 8 (2 ^ 40) ++ toBytes 8 (2 ^ 20 * 2 ^ 32) ++ toBytes 8 (2 ^ 21 * 2 ^ 32) ++ toBytes 4 0x1212 ++ toBytes 4 0 ++ toBytes 4 0 ++
    toBytes 4 1000 ++ toBytes 4 0 ++ toBytes 4 0 ++ toBytes 8 0 ++ toBytes 8 0x20900 ++ toBytes 48 0
def tmplBytes : List Byte :=
  toBytes 32 1 ++ toBytes 8 0x20A00 ++ toBytes 20 0 ++ toBytes 4 1 ++ List.replicate 96 0#8
/-- `launchBytes` of class T. -/
def timedBytes : List Byte :=
  launchBytes.take 0x2C ++ toBytes 4 0x21 ++ launchBytes.drop 0x30

/-- A STREAM packet of an operation, for stream 3. -/
def streamPkt (op : Nat) : List Byte := packetOf 4 (op + 16 * 3) 0x20800 0x20FF0

/-- The queue holds that packet, and memory the descriptor, the template and the launch record. -/
def streaming (op : Nat) (share : Nat) : State :=
  let s := queued (streamPkt op)
  { (s.modPart 1 fun p => { p with stripShare := share }) with
    mem := s.mem ++ cellsAt 0x60800 streamBytes ++ cellsAt 0x60900 tmplBytes ++ cellsAt 0x60A00 timedBytes }

theorem witness_StreamPackets_create :
    ([0, 2 ^ 24].all fun share =>
      let s := streaming 0 share
      let t := s.packetRead 0 (streamPkt 0) none
      let d := parseStream streamBytes
      let ts : List TmplLaunch := [⟨0x20A00, parseLaunch timedBytes, [0, 0, 0, 0, 0], 1, 0⟩]
      nextIs (streamPkt 0) s && streamOp (streamPkt 0) == 0 && pkt (streamPkt 0) 0x10 8 == 0x20800 && holds t 0x800 streamBytes &&
        !streamBad streamBytes && d.tmpl == 0x20900 && holds t 0x900 tmplBytes && !tmplFormBad tmplBytes &&
        pkt tmplBytes 0 4 == 1 && pkt tmplBytes 0x20 8 == 0x20A00 && holds t 0xA00 timedBytes && !tmplBad d ts &&
        (List.range 5).map (fun l => pkt tmplBytes (0x28 + 4 * l) 4) == [0, 0, 0, 0, 0] && pkt tmplBytes 0x3C 2 == 1 &&
        pkt tmplBytes 0x3E 2 == 0 && !(t.stream 3).on && d.isStrip && t.streams.isEmpty &&
        (t.admission 1 d ts).1 == (if share = 0 then 8 else 0)) = true := by decide +kernel

theorem witness_StreamPackets_change :
    (let on := fun (s : State) => { s with streams := [(3, { on := true, part := 1 })] }
     let s := on (streaming 1 0)
     nextIs (streamPkt 1) s && streamOp (streamPkt 1) == 1 && (s.packetRead 0 (streamPkt 1) none).streamNamed 0 3 &&
       holds (s.packetRead 0 (streamPkt 1) none) 0x800 streamBytes &&
     (let s := on (streaming 2 0)
      nextIs (streamPkt 2) s && streamOp (streamPkt 2) == 2 && s.streamNamed 0 3) &&
     (let s := { on (streaming 2 0) with insts := [(7, { live := true, stream := 3 })] }
      nextIs (streamPkt 2) s && s.streamNamed 0 3 && s.insts.any fun kv => kv.2.live && kv.2.stream == 3)) = true ∧
    ([6, 7].all fun n => let s : State := { here id with ppsGood := n }
      !s.locked && decide ((250 : Int).natAbs ≤ 250) && decide (250 < (-251 : Int).natAbs)) = true ∧
    (let s : State := { here id with locked := true }
     s.locked && !s.holdover && !s.slewing && decide ((-1000000 : Int).natAbs ≤ 1000000) &&
       decide (1000000 < (1000001 : Int).natAbs)) = true ∧
    2 ^ 32 - 858993 ≤ (0x1_0000_0000#96).toNat ∧ (0x1_0000_0000#96).toNat ≤ 2 ^ 32 + 858993 := by decide +kernel

/-- `striped` after the first lock, with an admitted budget, at device time `now`. -/
def ticking (lf : SlotLife) (now : BitVec 64) : State :=
  let s := (striped lf).modStream 0 fun st => { st with
    budget := 100, d := { st.d with t0 := 1000, pline := 2 ^ 32, pframe := 2 ^ 34 }
    tmpl := [⟨0, {}, [1, 1, 1, 1, 1], 100, 0⟩] }
  { s with locked := true, time := now }

/-- The same with one reserved copy, on whose core the group's team borrows slots. -/
def lending : State :=
  let s := (ticking .free 100000).modStream 0 fun st => { st with
    d := { st.d with ns := 2, no := 2 }
    reserved := [[⟨0, 0, 1⟩]]
    tmpl := [⟨0, oneLaunch, [1, 1, 1, 1, 1], 100, 0⟩] }
  s.modTeam 2 fun t => { t with lent := some (0, [0]) }

/-- The check of the launch that the next release of stream 0 makes: its reason, 0 for none; it need not wait. -/
def releases (tl : TmplLaunch) : Option Nat :=
  let s := (ticking .free 2000).modStream 0 fun st => { st with tmpl := [tl] }
  let st := s.stream 0
  let w := ({ s with devWait := none } : State).modStream 0 fun st => { st.takeAlter with nextG := st.nextG + 1 }
  let a := w.stream 0
  let start := (st.startOf s.time st.nextG).toNat
  let x : Inst := { live := true, stream := 0, g := st.nextG, seq := a.count, copy := st.nextG % a.d.q, s := start,
                    level := a.startLevel }
  let e := ({ w with serial := s.serial + 1, insts := Sp.put w.insts s.serial x } : State).modStream 0 fun st =>
    { st with count := st.count + 1 }
  if st.on && !st.closing && st.d.isStrip && s.locked && decide (st.startOf s.time st.nextG ≤ s.time.toNat) then
    match e.checkLaunch st.part st.asid st.tag true { tl.r with start := start } with
    | (.ok _, v) => if v.devWait.isNone then some 0 else none
    | (.refused c _, v) => if v.devWait.isNone then some c else none
  else none

theorem witness_Instances :
    (releases ⟨0, oneLaunch, [], 100, 0⟩ = some 0 ∧ releases ⟨0, {}, [], 100, 0⟩ = some 2) ∧
    (let s := ticking .acquired 100000
     (s.instance_ 7).live && !(s.instance_ 7).missedAt && (s.launch 1).isLive && Sp.has s.insts 7 && !(s.instance_ 7).judged &&
       decide ((s.instance_ 7).evalAt.toNat + 5000 ≤ s.time.toNat) && decide (s.instF 7 ≤ s.time.toNat) &&
       !(s.stream 0).hasReached 0 && !((s.launch (s.instance_ 7).launch).life == .finished)) = true ∧
    (let s := (ticking .acquired 100000).modInst 7 fun i => { i with launch := 1 }
     (s.launch (s.instance_ 7).launch).isLive) = true ∧
    (let s := ticking .written 100000
     Sp.has s.insts 7 && !(s.instance_ 7).judged && decide (s.instF 7 ≤ s.time.toNat) && (s.stream 0).hasReached 0) = true ∧
    (let s := (ticking .acquired 100000).modInst 7 fun i => { i with live := false }
     Sp.has s.insts 7 && !(s.instance_ 7).judged && decide (s.instF 7 ≤ s.time.toNat) && !(s.stream 0).hasReached 0) = true ∧
    ([lending, lending.stopCluster 2].all fun s =>
      match s.leads 0 with
      | [p] => decide (p.2 - (s.stream 0).d.vc - 1000 ≤ s.time.toNat) && s.borrowersOf 0 p.1 == [2] &&
          s.mayLeave 2 == (s.team 2).stopping
      | _ => false) = true ∧ (lending.team 2).stopping = false := by
  decide +kernel

/-- A frontier of two entries, the second passed over 512 times. -/
def passedOver : State :=
  here fun g => { g with frontier := [⟨0#57, 1#12, 1#32, false, 0⟩, ⟨8#57, 2#12, 2#32, false, 512⟩] }

theorem witness_Scheduling :
    (let s := here fun g => { g with aging := 4096 }
     s.candidates 4 == [3] && decide (4096 ≤ (s.grp 3).aging)) = true ∧
    (let e : Entry := ⟨8#57, 2#12, 2#32, false, 512⟩
     (((passedOver.grp 3).frontier.filter fun e => !e.trap).drop 1) == [e]) = true ∧
    (let s := here fun g => { g with evicted := [5] }
     (s.grp 3).evicted == [5] && s.roomy (s.schedOf 3)) = true ∧
    (let s := (here fun g => { g with park := some .lantern }).modFw fun f => { f with lanternsOn := true, pool := 256 }
     s.fw.lanternsOn && s.lanternNext == some 3) = true ∧
    (let s := here fun g => { g with lantern := true, lanternIdle := 256, wait := some (.sleep 5) }
     (s.grp 3).lantern && decide (256 ≤ (s.grp 3).lanternIdle) &&
       ({ s with locked := true, time := 5 } : State).reached 5) = true ∧
    (let s := here id
     !s.guarded 1 && !(s.sched 4).guard) = true ∧
    (let s := (here id).modSched 4 fun x => { x with sampled := 1, last := some 3, lastAt := 0 }
     (s.sched 4).last == some 3 && (s.sched 4).lastAt + 1 == (s.sched 4).sampled && (s.grp 3).live &&
       s.sampledGroup 3) = true ∧
    (let s := (here id).modSched 5 fun x => { x with sampled := 1 }
     s.groupsAt 5 == [] && (s.sched 5).last.isNone && (s.sched 5).sampled != 0) = true ∧
    (let s := striped .free
     let t := s.modStream 0 fun st => { st with tmpl := [⟨0, oneLaunch, [], 100, 300⟩] }
     s.timedLanterns == 0 && (s.parts.map fun kv => s.timedIn kv.1) == [0] && decide (256 < t.timedLanterns)) = true := by
  decide +kernel

/-- What firmware loads for owner 1 at a deadline, with or without a save. -/
def loading (deadline : BitVec 64) (save : Bool) : PartLoad := {
  owner := 1, deadline := deadline, save := save, lanterns := 0, bwCap := none
  stripShare := 0, vigilUs := 0, vigilMs := 0, samplePeriod := 4096, domain := [], queues := [] }

/-- A sub-group of every lane. -/
def sub0 : Sub := ⟨⟨0x0F#8, false, false, false, 0#8, allLanes, 0#57, 0#64, 0#12, none, 0#32⟩, []⟩

/-- The launch of the group has a handler. -/
def handled (f : Group → Group) : State := (here f).modLaunch 1 fun l => { l with r := { l.r with traph := 0x5_0000_0200#64 } }

theorem witness_Watches :
    (let s := handled fun g => { g with subs := [sub0], frontier := [] }
     (s.grp 3).live && (s.grp 3).trap.isNone && (s.grp 3).subs == [sub0] && !(s.team (s.grp 3).team).frozen 0 &&
       (s.grp 3).gid == 0) = true ∧
    (let f : AsyncFail := ⟨3, 2, 1, 0, 0x90#8, 0x03#8⟩
     ([here id, here fun g => { g with live := false }].all fun s =>
       let s : State := { s with fails := [f] }
       s.fails.find? s.reportNow == some f && s.reportTo f == (if (s.grp 3).live then some 3 else none) &&
         (s.grp 3).frontier.head?.isSome)) = true ∧
    ([handled id, here id].all fun s =>
      let s := s.modLaunch 1 fun l => { l with r := { l.r with vigilUs := 1, vigilMs := 1 } }
      let s : State := { s with time := 2000000 }
      let t := s.modGrp 3 fun g => { g with wait := some (.cbar 0) }
      s.noIssueDue 1 && s.groupsOf 1 == [3] && t.longWaitDue 3) = true ∧
    ((here id).me.frontier == [⟨0#57, 2048#12, allLanes, false, 0⟩] && (here id).me.conv.isEmpty && (here id).me.rl.isEmpty &&
      (here id).me.loops.isEmpty && (here id).me.recov.isEmpty && (here id).me.park.isNone && (here id).me.wait.isNone &&
      (let g := (here fun g => { g with wait := some (.tag 0), waitNext := 0, waitPrio := 2048 }).me
       g.wait.isSome && g.waitNext == 0#57 && g.waitPrio == 2048#12)) = true ∧
    (let s : State := { here id with time := 2000000 }
     let hot := fun (temp : Nat) =>
       (s.heated ⟨2, some 90, [(1, temp)]⟩).tooHot 2
     (s.clusterOf 2) == [2] && s.mayMigrate 2 && (s.team 2).life == .resident && hot 91 && !hot 90) = true ∧
    ([false, true].all fun save =>
      let r := loading 5 save
      let s := here id
      let u := s.modPart 1 fun p => { p with rebind := some r }
      let v : State := { u with launches := [], time := 5 }
      let free : State := { s with devWait := none }
      s.loadOk 1 r && (s.part 1).on && (s.part 1).rebind.isNone && (s.team 2).standing &&
        (s.launch (s.team 2).launch).r.cls != 2 && !({ u with time := 5 } : State).rebindLeft 1 == [] &&
        decide (r.deadline.toNat ≤ ({ u with time := 5 } : State).time.toNat) &&
        ((v.rebindKill 1).rebindLeft 1).isEmpty && (((v.rebindKill 1).rebound 1 r).devWait.isNone) &&
        s.loadOk 2 r && !(s.part 2).on && s.freeRect 2 ⟨2, 0, 1, 1⟩ &&
        ((free.setRect 2 ⟨2, 0, 1, 1⟩).rebound 2 r).devWait.isNone) = true := by decide +kernel

/-- `ticking` with a sink of a kind at its next strip. -/
def sinking (sink : Nat) (lf : SlotLife) (f : Stream → Stream) : State :=
  let s := (ticking lf 100000).modStream 0 fun st => f { st with d := { st.d with sink := sink, pslot := 2 ^ 32 } }
  { s with insts := [] }

theorem witness_SinksAtWork :
    ([SlotLife.written, .acquired].all fun lf =>
      let s := sinking 0 lf id
      let t := sinking 1 lf id
      (s.stream 0).isDisplay && (s.stream 0).scanning.isNone && s.locked && decide ((s.stream 0).scanTime 0 0 ≤ s.time.toNat) &&
        s.judgedStrip 0 0 && (s.stream 0).ready 0 == (lf == .written) && (t.stream 0).isEncoder &&
        (t.stream 0).stalled.isNone && decide ((t.stream 0).deadline t.time 0 ≤ t.time.toNat) && t.judgedStrip 0 0) = true ∧
    (let s := sinking 0 .consuming fun st => { st with scanning := some 0 }
     (s.stream 0).isDisplay && (s.stream 0).scanning == some 0 &&
       decide ((s.stream 0).scanTime 0 (s.stream 0).d.h ≤ s.time.toNat)) = true ∧
    (let s := sinking 1 .consuming fun st => { st with coding := [(0, 5)] }
     let t := sinking 1 .consuming fun st => { st with stalled := some 5 }
     (s.stream 0).isEncoder && (s.stream 0).stalled.isNone && (s.stream 0).coding == [(0, 5#64)] &&
       Sp.get 0 s.codeNs (s.stream 0).d.index == 0 && (t.stream 0).isEncoder &&
       (t.stream 0).stalled == some 5) = true := by decide +kernel

/-- Page 2 of the group's ASID is in the fault queue of core 1, for lane 0 of the group. -/
def faulting (f : Recov → Recov) : State :=
  let r : Recov := { mask := 1#32, pc := 4, prio := 5, trap := false, op := 0x80#8, asid := 1, page := 2, vline := 0, recIdx := none }
  (here fun g => { g with recov := [f r] }).modCore 1 fun c => { c with faultQ := [(1, 2), (1, 9)] }

/-- The group's team stops, or has been saved or discarded; the group stands in an idempotent region. -/
def leaving (life : TeamLife) : State :=
  let r : Region := (here id).me.restartRecord 8 5 allLanes 2 1
  (here fun g => { g with region := some r }).modTeam 2 fun t => { t with life := life, stopping := life == .resident }

theorem witness_Recovery :
    ([(id, none, false, false), (fun r => { r with owe := some (0x0C#8, 1#32) }, some (0x0C#8, 1#32), false, false),
      (fun r => { r with op := 0xB6#8, recIdx := some 3 }, none, true, false), (fun r => { r with trap := true }, none, false, true)].all fun p =>
      let s := faulting p.1
      let here := fun (page : Nat) => (s.grp 3).recov.filter fun r => r.asid == 1 && r.page == page && r.queued
      (s.core 1).faultQ == [(1, 2), (1, 9)] && (s.teamsAt 1 fun _ => true).flatMap (fun kv => kv.2.groups.map (·.2)) == [3] &&
        (here 2).map (fun r => (r.owe, r.isImage, r.trap)) == [p.2] && (here 9).isEmpty) = true ∧
    (let s := sand id
     match s.walk 1 0x20000 with
     | .leaf lf =>
       let n := 2 ^ leafBits lf.level
       let pa := lf.pa 0x20000 / n * n
       let entry := lf.entryOf 0x20000
       n == 0x20000 && s.mayMovePage 1 { lf with entry := entry } pa n 0x80000 2 &&
         !s.mayMovePage 1 { lf with entry := entry } pa n 0x20000 2 && Memory.wf s.mem && Sp.wf 0 s.garble &&
         decide (entry + 8 ≤ 0x80000) && decide (entry + 8 ≤ pa)
     | _ => false) = true ∧
    (let s := leaving .resident
     let t := ((striped .free).modTeam 2 fun t => { t with lent := some (0, [0]), stopping := true }).modLaunch 1 fun l =>
       { l with r := { l.r with classS := true } }
     s.standingWith 2 == [2] && s.mayLeave 2 && !s.unsavable 2 && s.discards 2 && t.mayLeave 2 && t.unsavable 2 &&
       t.standingWith 2 == [2]) = true ∧
    ([TeamLife.saved, .discarded].all fun lf =>
      let s := leaving lf
      s.restoreSlots 2 1 == some none && (s.launch (s.team 2).launch).isLive && (s.team 2).life == lf && s.placesFrom 2 1 == [(2, 1)] &&
        (s.grp 3).live && (s.grp 3).region.isSome) = true := by decide +kernel

theorem witness_ErrorsAndCompletions :
    ((here id).core 1).noiseFailed = false ∧ 32 * 127 < ((here id).team 2).ssize ∧ 191 < ((here id).grp 3).nv ∧
    47 < ((here id).grp 3).ns ∧
    ([[(4, 0), (4, 1)], [(0xC4, 0), (0xC5, 0)]].all fun regs =>
      let s : State := { here id with ioReads := [(6, ⟨3, 1, 1, regs, false, 1, 4, 4#3, 0, 0⟩)] }
      (Sp.get? s.ioReads 6).isSome && (s.launchOf 3).r.logMode == 0 && decide (regs.Pairwise (· ≠ ·)) &&
        (regs.all (fun q => decide (q.1 < 0xC0)) || decide (regs.Pairwise (·.1 ≠ ·.1)))) = true := by decide +kernel

/-- Function 1 sees ASID 1 through BAR 2, and a peer's owner 1 has it too. -/
def windowed : State := (sand id).modFw fun f => { f with bar2 := [(1, 1)], domain := [(1, 0, 1)], linkKeys := [(17, 0)] }

/-- An inbound access of 4 bytes at the start of page 1 passes. -/
def passes (a : Access) (waits : Bool) (ps : List (Nat × Nat)) (s : State) : Bool :=
  match inboundAll 1 a waits ps s with
  | .ok (l, _) => l == [(0x60000, 4)]
  | .error _ => false

theorem witness_AccessesFromOutside :
    (let s := windowed
     let ps := pieces 0x20000 4
     s.heldIn.isEmpty && s.windowAt 1 0x20000 4 == some (1, ps) && (s.windowAt 1 (2 ^ 39 - 3) 4).isNone &&
       passes .load true ps s && passes .store true ps s && passes .store false ps s && passes .atomic true ps s &&
       s.asidHere 1 == some 1 && s.peerOver.isEmpty && s.cores.isEmpty && s.owned.isEmpty && Sp.has s.fw.linkKeys 17 &&
       s.fw.deviceId == 0 && s.fw.lost.isEmpty &&
       match inboundAll 1 .load true (pieces 0x40000 4) s with
       | .error (.absent page _) => page == 2
       | _ => false) = true ∧
    ([Request.bar2Read 1 0x20000 4, .bar2Write 1 0x20000 [1#8, 2#8, 3#8, 4#8], .peerLoad 5 1 0x20000 4,
      .peerStore 5 2 1 0x20000 ⟨false, [1#8, 2#8, 3#8, 4#8]⟩,
      .peerStore 5 2 1 0x20000 ⟨true, [1#8, 2#8, 3#8, 4#8]⟩, .peerAtom 5 2 1 0x20000 4 0#3 .ui32 1 0, .peerCommit 5 2].all fun i =>
      !windowed.mustQueue i) = true ∧
    (let s : State := { windowed with peerOver := [(overKey 5 2, [(0x60000, 1#8), (0x60001, 2#8)])] }
     let o := Sp.get [] s.peerOver (overKey 5 2)
     o.length == 2 && o.all (fun kv => !s.isOwned (lineOf kv.1)) && Sp.sorted o) = true := by decide +kernel

/-- Function 1 is bound to owner 1 and sees ASID 1 through BAR 2. -/
def bound : State := (queued []).modFw fun f => { f with fnOwner := [(1, 1)], bar2 := [(1, 1)] }

theorem bound_page {va : Nat} (h : 0x20000 ≤ va) (h' : va < 0x40000) : (bound.devicePa 1 va true).isSome = true := by
  have e : bound.devicePa 1 (1 * 2 ^ 17) true = some 0x60000 := by decide +kernel
  rw [State.devicePa_page e (by omega) (by omega)]
  rfl

theorem witness_HostMailbox :
    (let s := bound
     let d : QueueDesc := ⟨0x20000, 16, 1, 1, 0, 0, 0, 0, true⟩
     s.fw.life == .running && Sp.get? s.fw.fnOwner 1 == some 1 && !s.fw.owners.contains 1023 && d.rsvd &&
       s.partOwned d.part 1 && s.asidOwned d.asid 1 && s.queueAt 1 0 == some 0 && (s.queueAt 1 4095).isNone &&
       s.freeNum 1 == some 1 && s.freeQueue == some 1 && s.asidsFit [(2, 0x80000)] [4] && s.framesFit [4] && (s.part 1).ioRanges.isEmpty && Sp.get? s.fw.bar2 1 == some 1 && s.mayDebug 1 2 &&
       !(s.team 2).halted && Sp.get? (s.team 2).groups 0 == some 3) = true ∧
    (let s := (leaving .resident).modTeam 2 fun t => { t with halted := true }
     (s.team 2).halted && s.mayDebug 1 2) = true ∧
    0x20000 % 4096 = 0 ∧ 2 ^ 16 ≤ 0x20000 ∧ 0x20000 ≤ 10 ^ 9 ∧
    (∀ va, 0x20000 ≤ va → va < 0x20000 + 0x20000 → (bound.devicePa 1 va true).isSome = true) ∧
    imageOk imaged.me image1 = true :=
  ⟨by decide +kernel, by decide +kernel, rfl, by decide, by decide, fun _ h h' => bound_page h h', imaged_image.2⟩

theorem witness_FirmwareLife :
    State.reset.fw.life ≠ .running ∧ (here id).fw.life = .running ∧
    (((here id).modFw fun f => { f with life := .recovery }).fw.life == .recovery &&
     ((here id).modFw fun f => { f with staged := some (1, 2) }).instsQuiet &&
     ((here id).modFw fun f => { f with staged := some (1, 2) }).fw.staged == some (1, 2)) = true := by decide +kernel

/-- The group is in a call of its team's run at `step`, each lane with a return entry of the call. -/
def calling (step : Nat) (abort : Option Word) : State :=
  let r : RlRun := {
    addr := 0, block := [], level := 0, iter := 3, stag := 0, escs := 0, prev := none, norm := 0#64, step := step, acc := 0
    accNan := false, accInf := false, abort := abort, faulted := false }
  let p : RlPark := {
    mask := allLanes, away := 0, pc := 8, next := 20, prio := 5, dst := .s 1, addr := 0, later := false, since := 0, loops := [] }
  (here fun g => { g with rl := [p], rlIn := allLanes, rlArrived := true }).modTeam 2 fun t => { t with run := some r }

theorem witness_RefinementInstructions :
    (let x := { XForm.blank with a := .s 1, b := .zero }
     let none_ := { XForm.blank with guard := some ⟨false, 1#4⟩, a := .s 1, b := .zero }
     let e := { XForm.blank with b := .v 2, ty := .f32 }
     let a := { XForm.blank with b := .zero }
     ([here id, (here id).modTeam 2 fun t => { t with run := ((calling 3 none).team 2).run }].all fun s =>
        s.admits (.rlrun none_) && s.acting (.rlrun none_) == 0#32 && allRun s [.rlrun x] && s.me.rlIn == 0#32 &&
          !opBad s.me x.b 1 0 && (s.team 2).ssize == 4096 && ((s.team 2).scrAbsent 0 256).isEmpty) &&
     (let s := calling 2 none
      allRun s [.rlacc e, .rlacc { e with ty := .f64 }, .rlret XForm.blank] &&
        ((s.team 2).run.map (·.step)) == some 2 && s.me.rlIn == allLanes && cleanIn s allLanes [(.v 2, 2)]) &&
     ([none, some 7#32].all fun v =>
        let s := calling 3 v
        allRun s [.rlabt a] && s.me.rlIn == allLanes && !opBad s.me a.b 1 0 && (s.team 2).run.isSome)) = true := by
  decide +kernel

/-- Every lane stands at an `RLRUN` whose command block is at 0, with one level and a limit of 16 iterations; `factor` says
whether the level has a factor entry. -/
def arriving (factor : Bool) : State :=
  let p : RlPark := {
    mask := allLanes, away := 0, pc := 8, next := 20, prio := 5, dst := .s 1, addr := 0, later := false, since := 0, loops := [] }
  (here fun g => { g with rl := [p], rlArrived := true }).modTeam 2 fun t =>
    ((if factor then [(0x07, 0x80#8)] else []) ++ [(0x27, 0x80#8), (0x47, 0x80#8), (0x4F, 0x80#8), (0x66, 0xE0#8),
      (0x67, 0x3F#8), (0x6E, 0x24#8), (0x6F, 0x40#8), (0x7A, 3#8), (0x7C, 0x10#8)]).foldl
        (fun (t : Team) (q : Nat × Byte) => t.scrWrite q.1 [q.2] false) t

theorem witness_RefinementRuns :
    ([true, false].all fun factor =>
      let s := arriving factor
      let b := (s.team 2).rlBlock 0
      s.rlCanStart 2 && ((s.rlParks 2).map (·.addr)) == [0] && !(s.team 2).scrPoison 0 256 && !blkBad b &&
        blkHas b (offFactor (blkLstart b)) == factor && !(blkEntries b).isEmpty &&
        ((blkEntries b).all fun o => s.codeAt 1 (entryAt (s.launch 1).r (blkEntry b o)) == .code) &&
        (s.core 1).rlHolder.isNone && s.rlNext 1 == some 2) = true ∧
    ([(1, none, false), (3, none, false), (4, none, false), (3, some 7#32, false), (3, none, true)].all fun p =>
      let s := (calling p.1 p.2.1).modGrp 3 fun g => { g with rlIn := 0#32 }
      let s := s.modRun 2 fun r => { r with faulted := p.2.2 }
      s.rlCanStep 2 && ((s.team 2).run.map fun r => (r.step, r.abort, r.faulted, r.escs)) == some (p.1, p.2.1, p.2.2, 0)) = true := by
  decide +kernel

/-- Every lane of `v3` is poisoned. -/
def poisoned : State := here fun g => (List.range 32).foldl (fun g l => g.markV 3 l) g

/-- Division by zero traps. -/
def trapping : State := here fun g => { g with mode := 0x100#32 }

theorem witness_Exceptions :
    (let s := here id
     let x := { XForm.blank with b := .zero, imm := 0x42#16 }
     let halts := s.modTeam 2 fun t => { t with bkptHalt := true }
     let bad : Instr := .phase { XForm.blank with ty := .ui32 }
     let inTrap := here fun g => { g with frontier := g.frontier.map fun e => { e with trap := true } }
     let hand := here fun g => { g with gid := 32 }
     let run : Instr := .rlrun { XForm.blank with a := .s 1, b := .zero }
     let p := poisoned
     let add : Instr := .iadd (xf .i32 (.v 2) (.v 3) (.v 4) (.v 0))
     allRun s [.trap x, .trap { XForm.blank with b := .s 3 }, .bkpt { XForm.blank with imm := 7#16 }] && allRun halts [.bkpt { XForm.blank with imm := 7#16 }] && !opBad s.me (.s 3) 1 0 &&
       bad.form.isSome && s.me.issueEntry.isSome && !s.legal bad && s.entry.mask == allLanes && !s.me.step &&
       inTrap.entry.trap &&
       inTrap.legal (.rlret XForm.blank) && illegalInTrap (Instr.rlret XForm.blank).op.toNat &&
       hand.legal run && hand.me.isHandler && bannedInHandler run.op.toNat && hand.me.windows.isEmpty &&
       p.admits add && p.acting add == allLanes &&
       ((maskLanes (p.acting add)).all fun l => (badSource p.me p.entry.mask (shapeOfInstr add) add.fields l).isSome)) = true ∧
    (∃ w, integerResult poisoned (.iadd (xf .i32 (.v 2) (.v 3) (.v 4) (.v 0))) 0
      (poisoned.srcs (.iadd (xf .i32 (.v 2) (.v 3) (.v 4) (.v 0))) 0) = some w) ∧
    (let i : Instr := .fdiv { XForm.blank with lit := some 0x3F800000#64, a := .v 2, b := .litLo, c := .zero, ty := .f32 }
     allRun trapping [i] = true ∧ ∃ f : Nat → LaneOut, (∀ l, floatingResult trapping i l (trapping.srcs i l) = some (f l)) ∧
      ∀ l ∈ ranFor (trapping.acting i) i.fields.a, trapped trapping.me.mode (f l).flags ≠ 0#8) := by
  refine ⟨by decide +kernel, ⟨_, rfl⟩, by decide +kernel, ⟨_, fun _ => rfl, by decide +kernel⟩⟩

/-- The group is in trap mode for a record at PC 0; with `done` its lanes keep the position after it. -/
def trapped1 (done : Bool) : State :=
  let r : FaultRec := {
    cause := 0x0F, mixed := false, async := false, done := done, op := 0xB3, mask := allLanes, pc := 0, vline := 0, prio := 5
    recIdx := none, aux := 0 }
  here fun g => { g with
    frontier := [⟨8#57, 9#12, allLanes, true, 0⟩]
    trap := some ⟨r, if done then [⟨12#57, 5#12, allLanes, false, 0⟩] else []⟩ }

theorem witness_ReturnsFromExceptions :
    ([true, false].all fun done =>
      let s := trapped1 done
      allRun s [.tretSkip { XForm.blank with mod := 0x20#8 }, .tretRetry XForm.blank] && s.entry.trap && s.me.trap.isSome &&
        (s.codeWord 1 0).isSome && s.me.awayMask == 0#32 && (s.me.frontier.filter (·.trap)) == [s.entry] &&
        (s.me.recov.filter (·.trap)).isEmpty && s.me.loops.isEmpty && s.me.subs.isEmpty) = true ∧
    (allRun (here id) [.tretSkip { XForm.blank with mod := 0x20#8 }, .tretRetry XForm.blank] && !(here id).entry.trap) = true := by
  decide +kernel

theorem witness_PrivilegesAndPages :
    (let s := here id
     let x := { XForm.blank with a := .s 4, b := .s 2, aux := 3#6 }
     let inv := { XForm.blank with d := .s 10, mod := 0xC0#8 }
     let q := { XForm.blank with a := .s 5, b := .s 8, aux := 2#6, imm := 6#16 }
     allRun s [.psave x, .pload x, .tlbinv inv, .fwcallQueue q] && !s.entry.trap && inv.mod.getLsbD 6 &&
       (serviceOf s (.fwcallQueue q)).map (fun p => (p.1, p.2.1)) == some (2, false)) = true ∧
    ({ cause := 0x01#8, page := some (1, 2) } : Flt).page = some (1, 2) ∧
    ([[], List.replicate 256 (1, 3)].map fun q =>
      let s := (here id).modCore 1 fun c => { c with faultQ := q }
      ((s.core (s.coreOf 3)).faultQ.contains (1, 2) || decide ((s.core (s.coreOf 3)).faultQ.length < 256))) = [true, false] :=
  ⟨by decide +kernel, rfl, by decide +kernel⟩

theorem witness_EncodeThenDecode :
    (Instr.phase XForm.blank).wf = true ∧ (∀ k, k < 8 * (Instr.phase XForm.blank).len →
      (0x00008B01#160).getLsbD k = (encode (.phase XForm.blank)).getLsbD k) ∧
    decode 0x00008B01#160 = .instr (.phase XForm.blank) := by
  refine ⟨by decide +kernel, fun k _ => ?_, by decide +kernel⟩
  rw [show encode (.phase XForm.blank) = 0x00008B01#160 by decide +kernel]

theorem witness_MemoryStaysCanonical :
    Memory.wf State.reset.mem = true ∧ steps State.reset (fun _ => true) = true ∧
    Memory.wf (sand id).mem = true ∧ steps (sand id) (fun _ => true) = true := by decide +kernel

theorem witness_StateAfterReset : State.reset.fw.life ≠ .running ∧ State.reset.agenda = [] ∧ State.reset.groups = [] ∧
    State.reset.teams = [] ∧ State.reset.reads = [] ∧ State.reset.up < 10 ^ 9 * 2 ^ 32 := by decide +kernel

/-- The state that a step of the loaded word fetches in, and what it fetches. -/
def fetched (s : State) : Option (Fetched × State) :=
  let t := s.tick
  if t.agenda.isEmpty && t.fwRunning && t.dueNow.isNone && decide (t.patience < patienceLimit) then
    match t.turnSched with
    | some (k, n) => match (t.grp n).issueEntry with
      | some e => some ((t.noteIssue k n).fetch n e.pc)
      | none => none
    | none => none
  else none

theorem witness_StepRunsTheDecodedInstruction :
    (match fetched (State.reset.withFetchWord 96 0x8B01) with
      | some (.ok bs, t) => match (decodeBytes bs).instr? with
        | some i => i == .phase XForm.blank && i.wf && (t.evictedUse 3 i).isNone
        | none => false
      | _ => false) = true ∧
    (match fetched (State.reset.withFetchWord 32 0xFF01) with
      | some (.ok bs, _) => (decodeBytes bs).instr?.isNone
      | _ => false) = true ∧
    (match fetched ((State.reset.withFetchWord 32 0).modGrp 3 fun g =>
        { g with frontier := [⟨0x40000#57, 5#12, allLanes, false, 0⟩] }) with
      | some (.flt _, _) => true
      | _ => false) = true ∧
    (match fetched { State.reset.withFetchWord 32 0 with owned := [(lineOf 0x40000, 9)] } with
      | some (.held line, _) => line == lineOf 0x40000
      | _ => false) = true ∧
    (match fetched ((State.reset.withFetchWord 32 0x01042D0C).modGrp 3 fun g => { g with evicted := [1] }) with
      | some (.ok bs, t) => match (decodeBytes bs).instr? with
        | some i => t.evictedUse 3 i == some 1
        | none => false
      | _ => false) = true := by decide +kernel

theorem witness_InstructionLengths :
    decode 0x00008B01#160 = .instr (.phase XForm.blank) ∧ (Instr.phase XForm.blank).wf = true ∧
    (here id).entry.pc.toNat % 4 = 0 ∧ (0#160).extractLsb' 0 32 = 0#32 ∧
    (here id).admits (.nopBase ⟨none⟩) = true := by decide +kernel

theorem witness_PhaseBoundaries :
    (let s := (here id).modCore 1 fun c => { c with overlay := [(0x60000, 1#8)] }
     let t : State := { s with owned := [(lineOf 0x60000, 1)] }
     allRun s [.phase XForm.blank] && (s.boundaryHeld 1).isEmpty && Sp.sorted (s.core 1).overlay &&
       allRun t [.phase XForm.blank] && t.boundaryHeld 1 == [lineOf 0x60000] && (Instr.phase XForm.blank).wf &&
       (Instr.phase { XForm.blank with guard := some ⟨false, 1#4⟩ }).wf) = true := by decide +kernel

theorem witness_ConvergenceMasks :
    (let s := here id
     allRun s [.cset { XForm.blank with mod := 0x20#8, aux := 1#6 }, .cset { XForm.blank with b := .s 3, aux := 2#6 }] &&
       !opBad s.me (.s 3) 1 0) = true := by decide +kernel

theorem witness_StoresAreSeen :
    (let s := (here id).modCore 1 fun c => { c with overlay := [(0x60000, 1#8)] }
     let lf := fun (h : BitVec 2) => ({
       frame := 0x60000, level := 3, span := 17, r := true, w := true, x := false, home := h, sk := false, tier := 0, aux := 0, mig := false
       entry := 0, dirty := true } : Leaf)
     decide (0x60100 % 128 + [1#8, 2#8].length ≤ 128) && !homeUncached (lf 0).home && homeUncached (lf 3).home &&
       !s.needsBoundary 1 (homeOf (lf 0) (lineOf 0x60100)) (lineOf 0x60100) && (s.core 1).upd.isEmpty && Sp.sorted (s.core 1).overlay &&
       !(s.storeBytes 1 (lf 0) 0x60100 [1#8, 2#8] false).isOwned (lineOf 0x60100) &&
       !(s.core 1).pendingLines.contains (lineOf 0x60100)) = true := by decide +kernel

end Sys2Proof
end

/-! PROOFS. Special registers (02 R32 to R37; 15 R376): what the device's log and its own accesses leave alone, and what
`SREAD` and `SWRITE` come to. -/

namespace Sys2Proof.Machine

open Sys2Proof

/-! ### Accesses of the device itself leave every group alone -/

/-- `t` holds the groups of `s`, and the same one is in issue. -/
def State.sameGroups (s t : State) : Prop := t.groups = s.groups ∧ t.cur = s.cur

theorem State.sameGroups_refl (s : State) : s.sameGroups s := ⟨rfl, rfl⟩

theorem State.sameGroups_me {s t : State} (h : s.sameGroups t) : t.me = s.me := by
  obtain ⟨hg, hc⟩ := h
  unfold State.me State.grp
  rw [hg, hc]

theorem sameGroups_ite {p : Prop} [Decidable p] {s t u : State} (ht : s.sameGroups t) (hu : s.sameGroups u) :
    s.sameGroups (if p then t else u) := by
  split
  · exact ht
  · exact hu

theorem State.putBytes_sameGroups {s : State} (bs : List Byte) : ∀ {t : State} (pa : Nat), s.sameGroups t →
    s.sameGroups (t.putBytes pa bs) := by
  induction bs with
  | nil => exact fun _ h => h
  | cons b r ih =>
    intro t pa h
    exact ih (t := { t with mem := Sp.set 0#8 t.mem pa (b ^^^ t.garbleAt pa) }) _ h

theorem State.commitBytes_sameGroups {s t : State} (h : s.sameGroups t) (pa : Nat) (bs : List Byte) :
    s.sameGroups (t.commitBytes pa bs) := State.putBytes_sameGroups bs pa h

theorem State.mergeOne_sameGroups {s t : State} (h : s.sameGroups t) (u : Upd) : s.sameGroups (t.mergeOne u) :=
  sameGroups_ite h (State.commitBytes_sameGroups h _ _)

theorem State.mergeCore_sameGroups {s t : State} (h : s.sameGroups t) (c : Nat) (sel : Upd → Bool) :
    s.sameGroups (t.mergeCore c sel) :=
  foldl_keeps s.sameGroups _ (fun _ u h => State.mergeOne_sameGroups h u) _ _ h

theorem State.choose_sameGroups {s t : State} (h : s.sameGroups t) (n : Nat) : s.sameGroups (t.choose n).2 := by
  unfold State.choose
  split
  · exact h
  · exact h

theorem State.recall_sameGroups {s t : State} (h : s.sameGroups t) (line : Nat) : s.sameGroups (t.recall line) := by
  unfold State.recall
  split
  · exact h
  · exact State.mergeCore_sameGroups h _ _
  · exact foldl_keeps s.sameGroups _ (fun _ _ h => State.mergeCore_sameGroups h _ _) _ _ (State.choose_sameGroups h _)

theorem State.recallRange_sameGroups {s t : State} (h : s.sameGroups t) (asid va n : Nat) :
    s.sameGroups (t.recallRange asid va n) := by
  unfold State.recallRange
  split
  · exact h
  · refine foldl_keeps s.sameGroups _ (fun t l h => ?_) _ _ h
    split
    · exact State.recall_sameGroups h _
    · exact h

theorem State.markEntry_sameGroups {s t : State} (h : s.sameGroups t) (e : Nat) (d : Bool) :
    s.sameGroups (t.markEntry e d) := sameGroups_ite h (State.commitBytes_sameGroups h _ _)

theorem State.markPages_sameGroups {s t : State} (h : s.sameGroups t) (asid va n : Nat) (w : Bool) :
    s.sameGroups (t.markPages asid va n w) := by
  refine foldl_keeps s.sameGroups _ (fun t p h => ?_) _ _ h
  dsimp only
  split
  · exact State.markEntry_sameGroups h _ _
  · exact h

theorem State.deviceWrite_sameGroups {s t : State} (h : s.sameGroups t) (asid va : Nat) (bs : List Byte) :
    s.sameGroups (t.deviceWrite asid va bs) := by
  refine foldl_keeps s.sameGroups _ (fun t p h => ?_) _ _
    (State.markPages_sameGroups (State.recallRange_sameGroups h _ _ _) _ _ _ _)
  split
  · exact State.commitBytes_sameGroups h _ _
  · exact h

theorem State.modTeam_sameGroups {s t : State} (h : s.sameGroups t) (n : Nat) (f : Team → Team) :
    s.sameGroups (t.modTeam n f) := h

/-! ### Logged results leave every group alone (16 R400 to R402) -/

theorem State.logPut_sameGroups {s t : State} (h : s.sameGroups t) (l off n x : Nat) :
    s.sameGroups (t.logPut l off n x) := State.deviceWrite_sameGroups h _ _ _

theorem State.logFlags_sameGroups {s t : State} (h : s.sameGroups t) (l clear set : Nat) :
    s.sameGroups (t.logFlags l clear set) := State.logPut_sameGroups h _ _ _ _

theorem State.logBlockFor_sameGroups {s t : State} (h : s.sameGroups t) (tn : Nat) :
    s.sameGroups (t.logBlockFor tn) := by
  unfold State.logBlockFor
  dsimp only
  split
  · exact State.logFlags_sameGroups h _ _ _
  · refine State.modTeam_sameGroups (State.deviceWrite_sameGroups (sameGroups_ite ?_ ?_) _ _ _) _ _
    · exact State.logPut_sameGroups (State.logPut_sameGroups h _ _ _ _) _ _ _ _
    · exact State.logPut_sameGroups (State.logPut_sameGroups h _ _ _ _) _ _ _ _

theorem State.logAppend_sameGroups {s t : State} (h : s.sameGroups t) (tn gid kind : Nat) (pc : VAddr)
    (payload : List Byte) : s.sameGroups (t.logAppend tn gid kind pc payload) := by
  have hroom := State.logBlockFor_sameGroups h tn
  unfold State.logAppend
  dsimp only
  split
  · exact h
  · refine sameGroups_ite (sameGroups_ite hroom h)
      (State.modTeam_sameGroups (State.deviceWrite_sameGroups ?_ _ _ _) _ _)
    exact sameGroups_ite hroom h

/-- A result that is delivered, live, recorded or replayed, changes the log and the memory at most. -/
theorem State.deliver_sameGroups {s t : State} {n kind : Nat} {pc : VAddr} {live p : List Byte}
    {fits : List Byte → Bool} (h : s.deliver n kind pc live fits = .use p t) : s.sameGroups t := by
  unfold State.deliver at h
  dsimp only at h
  split at h
  · cases h
    exact State.logAppend_sameGroups s.sameGroups_refl _ _ _ _ _
  · split at h
    · cases h
    · split at h
      · cases h
      · split at h
        · cases h
        · cases h
          exact s.sameGroups_refl
  · cases h
    exact s.sameGroups_refl

theorem State.deliverTime_sameGroups {s t : State} {n src : Nat} {pc : VAddr} {p : List Byte}
    (h : s.deliverTime n src pc = .use p t) : s.sameGroups t := State.deliver_sameGroups h

/-! ### Instructions that go on over a state of their own -/

theorem issueAt_parted (i : Instr) (s t : State) : (issueAt i s t).parted where
  moves := List.Pairwise.nil
  lands := List.Pairwise.nil
  cross := nofun
  stay := nofun
  within := nofun
  stays := fun _ h => h

theorem issueAt_run (i : Instr) (s t : State) : (issueAt i s t).run = s.acting i := rfl

theorem issueAt_issueAt (i : Instr) (s t u : State) : { issueAt i s t with s := u } = issueAt i s u := rfl

theorem admits_issues {s : State} {i : Instr} (ha : s.admits i = true) : s.me.issueEntry.isSome = true := by
  simp only [State.admits, Bool.and_eq_true] at ha
  obtain ⟨⟨⟨⟨⟨⟨he, -⟩, -⟩, -⟩, -⟩, -⟩, -⟩ := ha
  exact he

/-- `out_runs` where the instruction has taken the machine to `t` and its group to `g`. -/
theorem out_runsTo {i : Instr} {s t t' : State} {j : Iss} {g : Group} (ha : s.admits i = true)
    (hj : j = issueAt i s t') (ht : t.cur = s.cur) (ho : j.overlay t g) (hf : g.frontier = s.me.frontier)
    (hs : g.subs = s.me.subs) :
    ∃ u, j.out = .next (u.settle s.cur) ∧ onlyGroup t u ∧ sameIssue g u.me = g ∧ goesOn s i u := by
  subst hj
  obtain ⟨u, hout, honly, hsame, hgoes, -⟩ := out_ends ha (issueAt_fine i s t') ht ho
    fun u hu hv => gone_othersStay (admits_issues ha) rfl hf hs (issueAt_parted i s t') hu hv
  exact ⟨u, hout, honly, hsame, hgoes⟩

/-- What an issue leaves of a group is the group but for what every issue moves. -/
theorem eq_sameIssue {g u : Group} (h : sameIssue g u = g) : u = sameIssue u g :=
  calc u = sameIssue u (sameIssue g u) := rfl
    _ = sameIssue u g := by rw [h]

/-- An instruction that closes no region begins with the state as it is. -/
theorem begun_of_open {i : Instr} (h : closesRegion i.op.toNat = false) (s : State) : s.begun i = s := by
  unfold State.begun
  rw [h]
  rfl

theorem begin_of_open {i : Instr} {s : State} (ha : s.admits i = true) (hr : closesRegion i.op.toNat = false) :
    begin_ i s true = issueAt i s s := by rw [begin_admits ha, begun_of_open hr]

/-- An instruction goes on over a state that holds the same groups. -/
theorem issueAt_overlay {s t : State} (h : s.sameGroups t) (i : Instr) : (issueAt i s t).overlay t s.me := by
  have hme := State.sameGroups_me h
  obtain ⟨-, hc⟩ := h
  exact ⟨hc.symm, (congrArg t.grp hc.symm).trans hme, .inl rfl⟩

/-! ### Values written without a flag -/

/-- The group with other sticky flags. -/
def Group.withFlg (g : Group) (f : Word) : Group := { g with flg := f }

/-- Plain values raise no flag. -/
theorem flagsOf_plain (v : Nat → Nat) (ls : List Nat) : flagsOf ls (fun l => (plain (v l)).flags) = 0#8 :=
  foldl_keeps (· = 0#8) _ (fun _ _ h => (BitVec.or_zero ..).trans h) _ _ rfl

/-- The group after a value for each of some lanes is written to a destination (`Iss.spreadBy`). -/
def spreadFold (o : Opnd) (w : Nat) (v : Nat → Nat) (ls : List Nat) (g : Group) : Group :=
  ls.foldl (fun g l => g.writeDst o w l (v l)) g

theorem writeDst_withFlg (g : Group) (f : Word) (o : Opnd) (w l x : Nat) :
    (g.withFlg f).writeDst o w l x = (g.writeDst o w l x).withFlg f := by
  cases o with
  | v r => simp only [Group.writeDst]; split <;> rfl
  | s r => simp only [Group.writeDst]; split <;> rfl
  | _ => rfl

/-- Values are written as a run of results without flags writes them, but that the flags stay as they are. -/
theorem spreadFold_withFlg (o : Opnd) (w : Nat) (v : Nat → Nat) (f : Word) (ls : List Nat) : ∀ g : Group,
    spreadFold o w v ls (g.withFlg f) = (dstFold o w (fun l => plain (v l)) ls g).withFlg f := by
  induction ls with
  | nil => exact fun _ => rfl
  | cons l r ih =>
    intro g
    have hraise : g.raiseFlags (plain (v l)).flags = g.withFlg (g.raiseFlags 0#8).flg := rfl
    rw [dstFold_cons, hraise, writeDst_withFlg, ← ih]
    show spreadFold o w v r ((g.withFlg f).writeDst o w l (v l)) = _
    rw [writeDst_withFlg]
    rfl

theorem spreadFold_eq (o : Opnd) (w : Nat) (v : Nat → Nat) (ls : List Nat) (g : Group) :
    spreadFold o w v ls g = (dstFold o w (fun l => plain (v l)) ls g).withFlg g.flg :=
  spreadFold_withFlg o w v g.flg ls g

theorem spreadFold_flg (o : Opnd) (w : Nat) (v : Nat → Nat) (ls : List Nat) (g : Group) :
    (spreadFold o w v ls g).flg = g.flg := by rw [spreadFold_eq]; rfl

theorem spreadFold_same (o : Opnd) (w : Nat) (v : Nat → Nat) (ls : List Nat) (g : Group) :
    sameRegs g (spreadFold o w v ls g) = g := by
  rw [spreadFold_eq]
  exact dstFold_same o w _ ls g

theorem spreadFold_regs (o : Opnd) (w : Nat) (v : Nat → Nat) (m : Mask) (g : Group) :
    regsWritten g (spreadFold o w v (ranFor m o) g) o w m v := by
  rw [spreadFold_eq]
  exact dstFold_regs o w m (fun l => plain (v l)) g

/-- An instruction that ends by writing values to a destination: the registers take them in the acting lanes, and
the group is else as it stood before the write. -/
theorem spreadBy_runs {i : Instr} {s t t' : State} {j : Iss} {g : Group} (ha : s.admits i = true)
    (hj : j = issueAt i s t') (ht : t.cur = s.cur) (ho : j.overlay t g) (hf : g.frontier = s.me.frontier)
    (hs : g.subs = s.me.subs) (o : Opnd) (w : Nat) (v : Nat → Nat) :
    ∃ u, (j.spreadBy o w v).out = .next (u.settle s.cur) ∧ onlyGroup t u ∧ goesOn s i u ∧
      sameIssue g (sameRegs g u.me) = g ∧ u.me.flg = g.flg ∧ regsWritten g u.me o w (s.acting i) v := by
  let G := spreadFold o w v (ranFor (s.acting i) o) g
  have hsame : sameRegs g G = g := spreadFold_same o w v _ g
  have hrun : j.run = s.acting i := by rw [hj, issueAt_run]
  obtain ⟨hover, hmod⟩ := Iss.over_mod ho (spreadFold o w v (ranFor (s.acting i) o))
  have hspread : j.spreadBy o w v = j.mod (spreadFold o w v (ranFor (s.acting i) o)) := by
    unfold Iss.spreadBy
    rw [hrun]
    rfl
  obtain ⟨u, hout, honly, hissue, hgoes⟩ := out_runsTo ha (hmod.trans (by rw [hj, issueAt_issueAt])) ht hover
    ((congrArg Group.frontier hsame).trans hf) ((congrArg Group.subs hsame).trans hs)
  have hu : u.me = sameIssue u.me G := eq_sameIssue hissue
  refine ⟨u, by rw [hspread]; exact hout, honly, hgoes, ?_, ?_, ?_⟩
  · rw [hu]
    show sameIssue g (sameRegs g G) = g
    rw [hsame, sameIssue_self]
  · rw [hu]
    exact spreadFold_flg o w v _ g
  · rw [hu]
    exact spreadFold_regs o w v _ g

/-! ### A fresh snapshot of device time (02 R33) -/

/-- The group with another snapshot. Its lemmas hold for any `n`, so that no proof has the kernel compare snapshots by
computing one from its payload. -/
def Group.withSnap (g : Group) (n : BitVec 96) : Group := { g with snap := n }

@[simp] theorem Group.withSnap_snap (g : Group) (n : BitVec 96) : (g.withSnap n).snap = n := rfl
@[simp] theorem Group.withSnap_flg (g : Group) (n : BitVec 96) : (g.withSnap n).flg = g.flg := rfl
@[simp] theorem Group.withSnap_frontier (g : Group) (n : BitVec 96) : (g.withSnap n).frontier = g.frontier := rfl
@[simp] theorem Group.withSnap_subs (g : Group) (n : BitVec 96) : (g.withSnap n).subs = g.subs := rfl

/-- Where registers and flags alone differ from the group with a new snapshot, that snapshot has been taken. -/
theorem snap_of_sameRegs {g u : Group} {n : BitVec 96}
    (h : sameIssue (g.withSnap n) (sameRegs (g.withSnap n) u) = g.withSnap n) : u.snap = n :=
  congrArg Group.snap h

/-- Where registers and flags alone differ from the group with a new snapshot, they and the snapshot differ from it. -/
theorem sameRegs_withSnap {g u : Group} {n : BitVec 96}
    (h : sameIssue (g.withSnap n) (sameRegs (g.withSnap n) u) = g.withSnap n) :
    sameIssue g { sameRegs g u with snap := g.snap } = g :=
  congrArg (fun k : Group => k.withSnap g.snap) h

theorem regsWritten_withSnap {g u : Group} {o : Opnd} {w : Nat} {m : Mask} {val : Nat → Nat} (n : BitVec 96) :
    regsWritten (g.withSnap n) u o w m val ↔ regsWritten g u o w m val := Iff.rfl

/-! ### SREAD and SWRITE (15 R376) -/

/-- `SREAD` of a register other than `%TIME`, once no flags are pending if it is `%FLG`. -/
theorem exec_sread_value {s : State} {x : XForm} (ha : s.admits (.sread x) = true) (hm : s.acting (.sread x) ≠ 0#32)
    (ht : x.imm.toNat ≠ 0x10) (hf : x.imm.toNat = 0x20 → s.me.flagsPending = false) :
    exec (.sread x) s =
      ((issueAt (.sread x) s s).spreadBy x.a 1 fun l => s.special s.cur x.imm.toNat l).out := by
  show execSread x s = _
  unfold execSread
  simp only [begin_of_open ha rfl]
  rw [if_neg (by rwa [issueAt_run]), if_neg, if_neg ht]
  · rfl
  · rintro ⟨hi, hp⟩
    exact absurd hp (by rw [show (issueAt (.sread x) s s).g = s.me from rfl, hf hi]; decide)

/-- `SREAD` of `%TIME` takes the delivered snapshot first (02 R33). -/
theorem exec_sread_time {s t : State} {x : XForm} {p : List Byte} (ha : s.admits (.sread x) = true)
    (hm : s.acting (.sread x) ≠ 0#32) (ht : x.imm.toNat = 0x10)
    (hp : s.deliverTime s.cur 0 s.entry.pc = .use p t) :
    exec (.sread x) s =
      (((issueAt (.sread x) s t).mod fun g => g.withSnap (snapOf p)).spreadBy x.a 1
        fun _ => field (snapOf p).toNat 32 32).out := by
  have hval : ∀ l, ((issueAt (.sread x) s t).mod fun g => g.withSnap (snapOf p)).s.special s.cur 0x10 l =
      field (snapOf p).toNat 32 32 := by
    intro l
    show field (State.grp (t.modGrp s.cur _) s.cur).snap.toNat 32 32 = _
    rw [State.modGrp_grp, if_pos rfl, Group.withSnap_snap]
  have hp : (issueAt (.sread x) s s).s.deliverTime (issueAt (.sread x) s s).n 0 (issueAt (.sread x) s s).pc =
    .use p t := hp
  show execSread x s = _
  unfold execSread
  simp only [begin_of_open ha rfl]
  rw [if_neg (by rwa [issueAt_run]), if_neg (by rw [ht]; rintro ⟨h, -⟩; cases h), if_pos ht, hp]
  show (((issueAt (.sread x) s t).mod fun g => g.withSnap (snapOf p)).spreadBy x.a 1 fun l =>
    ((issueAt (.sread x) s t).mod fun g => g.withSnap (snapOf p)).s.special s.cur x.imm.toNat l).out = _
  simp only [ht, hval]

/-- `SWRITE` of an unpoisoned value that is legal there. -/
theorem exec_swrite_legal {s : State} {x : XForm} {g : Group} (ha : s.admits (.swrite x) = true)
    (hm : s.acting (.swrite x) ≠ 0#32) (hb : opBad s.me x.b 1 0 = false)
    (hg : s.me.setSpecial x.imm.toNat (BitVec.ofNat 32 (uniVal s.me x x.b 1)) = some g) :
    exec (.swrite x) s = ((issueAt (.swrite x) s s).mod fun _ => g).out := by
  have hclean : (issueAt (.swrite x) s s).uniPoison [(x.b, 1)] = none := by
    simp only [Iss.uniPoison, firstSome]
    rw [show opBad (issueAt (.swrite x) s s).g x.b 1 0 = false from hb]
    rfl
  show execSwrite x s = _
  unfold execSwrite
  simp only [begin_of_open ha rfl]
  rw [if_neg (by rwa [issueAt_run]), hclean]
  simp only [show (issueAt (.swrite x) s s).g = s.me from rfl, hg]

/-- A write of a special register moves no lane. -/
theorem setSpecial_place {g h : Group} {idx : Nat} {v : Word} (hg : g.setSpecial idx v = some h) :
    h.frontier = g.frontier ∧ h.subs = g.subs := by
  unfold Group.setSpecial at hg
  split at hg
  · cases hg; exact ⟨rfl, rfl⟩
  · split at hg
    · cases hg
    · cases hg; exact ⟨rfl, rfl⟩
  · split at hg
    · cases hg; exact ⟨rfl, rfl⟩
    · cases hg
  · cases hg; exact ⟨rfl, rfl⟩

/-- A value that `SREAD` takes from the state is written to its destination and changes nothing else. -/
theorem sread_value_writes {s : State} {x : XForm} (ha : s.admits (.sread x) = true)
    (hm : s.acting (.sread x) ≠ 0#32) (ht : x.imm.toNat ≠ 0x10)
    (hf : x.imm.toNat = 0x20 → s.me.flagsPending = false) :
    s.writesDst (.sread x) x.a 1 fun l => plain (s.special s.cur x.imm.toNat l) := by
  obtain ⟨u, hout, honly, hgoes, hsame, hflg, hregs⟩ := spreadBy_runs (i := .sread x) ha rfl rfl
    (issueAt_overlay s.sameGroups_refl _) rfl rfl x.a 1 fun l => s.special s.cur x.imm.toNat l
  unfold State.writesDst
  rw [begun_of_open rfl]
  refine ⟨u, (exec_sread_value ha hm ht hf).trans hout, honly, hgoes, hsame, hregs, ?_⟩
  rw [flagsRaised, flagsOf_plain, hflg, BitVec.or_zero]

/-- `SREAD` of `%TIME` renews the snapshot and gives its middle word. -/
theorem sread_time_completes {s t : State} {x : XForm} {p : List Byte} (ha : s.admits (.sread x) = true)
    (hm : s.acting (.sread x) ≠ 0#32) (ht : x.imm.toNat = 0x10)
    (hp : s.deliverTime s.cur 0 s.entry.pc = .use p t) :
    s.completes (.sread x) fun u => onlyGroup t u ∧ goesOn s (.sread x) u ∧ u.me.snap = snapOf p ∧
      sameIssue s.me { sameRegs s.me u.me with snap := s.me.snap } = s.me ∧ u.me.flg = s.me.flg ∧
      regsWritten s.me u.me x.a 1 (s.acting (.sread x)) fun _ => field (snapOf p).toNat 32 32 := by
  have hgroups := State.deliverTime_sameGroups hp
  obtain ⟨hover, hmod⟩ := Iss.over_mod (issueAt_overlay hgroups (.sread x)) fun g => g.withSnap (snapOf p)
  obtain ⟨u, hout, honly, hgoes, hsame, hflg, hregs⟩ := spreadBy_runs ha (hmod.trans (issueAt_issueAt _ _ _ _))
    hgroups.2 hover (Group.withSnap_frontier _ _) (Group.withSnap_subs _ _) x.a 1 fun _ =>
      field (snapOf p).toNat 32 32
  exact ⟨u, (exec_sread_time ha hm ht hp).trans hout, honly, hgoes, snap_of_sameRegs hsame,
    sameRegs_withSnap hsame, hflg.trans (Group.withSnap_flg _ _), (regsWritten_withSnap _).1 hregs⟩

/-- `SWRITE` of a legal value leaves the group with it, and changes nothing else. -/
theorem swrite_runs {s : State} {x : XForm} {g : Group} (ha : s.admits (.swrite x) = true)
    (hm : s.acting (.swrite x) ≠ 0#32) (hb : opBad s.me x.b 1 0 = false)
    (hg : s.me.setSpecial x.imm.toNat (BitVec.ofNat 32 (uniVal s.me x x.b 1)) = some g) :
    s.runs (.swrite x) g := by
  obtain ⟨hover, hmod⟩ := Iss.over_mod (issueAt_overlay s.sameGroups_refl (.swrite x)) fun _ => g
  obtain ⟨hf, hs⟩ := setSpecial_place hg
  obtain ⟨u, hout, honly, hsame, hgoes⟩ := out_runsTo ha (hmod.trans (issueAt_issueAt _ _ _ _)) rfl hover hf hs
  exact ⟨u, (exec_swrite_legal ha hm hb hg).trans hout, honly, hsame, hgoes, by simp⟩

/-- Settles O30: each form of `SREAD` and `SWRITE` by its own rule. -/
theorem specialRegisters : Obligations.SpecialRegisters := by
  intro s i ha hm
  cases i with
  | sread x =>
    dsimp only
    split
    · next ht => exact fun p t hp => sread_time_completes ha hm ht hp
    · next ht => exact sread_value_writes ha hm ht
  | swrite x => exact fun hb g hg => swrite_runs ha hm hb hg
  | _ => trivial

end Sys2Proof.Machine


/-! PROOFS. The vector instructions (05): what each family's lanes compute and write, and what stays as it was. -/

namespace Sys2Proof.Machine

open Sys2Proof

/-! ### Integer and floating-point results (05 R95 to R117) -/

/-- An instruction with an integer result runs lane by lane and gives its destination that result. -/
theorem exec_of_integerResult {s : State} {i : Instr} {l : Nat} {v : Srcs} {r : LaneOut}
    (h : integerResult s i l v = some r) :
    exec i s = regOp i i.fields false (fun l v => (integerResult s i l v).getD {}) s := by
  cases i with
  | movBase | movBaseLit | mov | moviBase | movi | sel | iaddBase | iaddBaseLit | iadd | isubBase | isubBaseLit | isub
  | imul | imulh | imad | iminBase | iminBaseLit | imin | imaxBase | imaxBaseLit | imax | iabs | andBase | andBaseLit
  | and | orBase | orBaseLit | or | xorBase | xorBaseLit | xor | andn | not | shlBase | shlBaseLit | shl | shrBase
  | shrBaseLit | shr | sarBase | sarBaseLit | sar | shrr | rot | clz | popc | brev | bfx | bfi | pmovGet | iadds | isubs
  | idot2 | idot4 | ipack | iunpk | icvt | fclass => rfl
  | _ => cases h

/-- An instruction with a floating-point result does so with the traps of IEEE 754. -/
theorem exec_of_floatingResult {s : State} {i : Instr} {l : Nat} {v : Srcs} {r : LaneOut}
    (h : floatingResult s i l v = some r) :
    exec i s = regOp i i.fields true (fun l v => (floatingResult s i l v).getD {}) s := by
  cases i with
  | faddBase | faddBaseLit | fadd | fsub | fmulBase | fmulBaseLit | fmul | ffma | fminBase | fminBaseLit | fmin
  | fmaxBase | fmaxBaseLit | fmax | frnd | fcvt | fdiv | fsqrt | frcp | frsq | fexp2 | flog2 | fsinp | fcosp | ftanh
  | fscale => rfl
  | _ => cases h

/-- Settles O1: each result is one of the lane-by-lane runs that `regOp_writesDst` describes. -/
theorem arithmeticResults : Obligations.ArithmeticResults := by
  constructor
  · intro s i f ha hc hf
    have hval : f = fun l => (integerResult s i l (s.srcs i l)).getD {} := funext fun l => by rw [hf l]; rfl
    rw [hval]
    exact regOp_writesDst ha hc false (fun l v => (integerResult s i l v).getD {}) nofun (exec_of_integerResult (hf 0))
  · intro s i f ha hc hf htr
    have hval : f = fun l => (floatingResult s i l (s.srcs i l)).getD {} := funext fun l => by rw [hf l]; rfl
    rw [hval] at htr ⊢
    exact regOp_writesDst ha hc true (fun l v => (floatingResult s i l v).getD {}) (fun _ => htr)
      (exec_of_floatingResult (hf 0))

/-! ### Predicate results (05 R100, R104 to R106, R112) -/

/-- The instruction writes the predicates that `ns` names in its acting lanes with the values of `val`, raises the flags
of `fl`, and changes nothing else. -/
def State.writesPreds (s : State) (i : Instr) (ns : Nat → Bool) (val : Nat → Nat → Bool) (fl : Nat → Flags) : Prop :=
  s.completes i fun u => onlyGroup s u ∧ goesOn s i u ∧
    sameIssue (s.begun i).me (samePreds (s.begun i).me u.me) = (s.begun i).me ∧
    predsWritten s.me u.me (s.acting i) ns val ∧ flagsRaised s.me u.me (flagsOf (maskLanes (s.acting i)) fl)

/-- One lane of an instruction that writes predicate `p`. -/
def putPred (p l : Nat) (o : LaneOut) (g : Group) : Group :=
  g.setPIn p (laneBit l) (if o.pred then laneBit l else 0#32)

theorem putPred_samePreds (p l : Nat) (o : LaneOut) (g : Group) : samePreds g (putPred p l o g) = g := rfl
theorem putPred_flg (p l : Nat) (o : LaneOut) (g : Group) : (putPred p l o g).flg = g.flg := rfl

theorem predOp_writesPreds {s : State} {i : Instr} {p : Nat} {traps : Bool} {f : Nat → Srcs → LaneOut}
    (ha : s.admits i = true) (hc : s.clean i = true)
    (htr : traps = true → ∀ l ∈ maskLanes (s.acting i), trapped s.me.mode (f l (s.srcs i l)).flags = 0#8)
    (he : exec i s = predOp i i.fields p traps f s) :
    s.writesPreds i (fun n => n == p) (fun _ l => (f l (s.srcs i l)).pred) (fun l => (f l (s.srcs i l)).flags) :=
  arith_preds ha hc traps f (putPred p) (fun n => n == p) (fun _ l => (f l (s.srcs i l)).pred)
    (putPred_samePreds p) (putPred_flg p) (fun l hl g n l' hl' => setPIn_one g p n _ l l' hl hl') htr he

/-- The predicates that a mask names take their bits of `v` in one lane (`PMOV.put`, 05 R106). -/
def putPreds (mask : BitVec 16) (l v : Nat) (ns : List Nat) (g : Group) : Group :=
  ns.foldl (fun g n =>
    if mask.getLsbD n then g.setPIn n (laneBit l) (if v.testBit n then laneBit l else 0#32) else g) g

theorem putPreds_cons (mask : BitVec 16) (l v k : Nat) (ns : List Nat) (g : Group) :
    putPreds mask l v (k :: ns) g = putPreds mask l v ns
      (if mask.getLsbD k then g.setPIn k (laneBit l) (if v.testBit k then laneBit l else 0#32) else g) := rfl

theorem putPreds_step (mask : BitVec 16) (v k n : Nat) {l l' : Nat} (hl : l < 32) (hl' : l' < 32) (g : Group) :
    ((if mask.getLsbD k then g.setPIn k (laneBit l) (if v.testBit k then laneBit l else 0#32) else g).preg n).getLsbD l' =
      if decide (l' = l) && (decide (n = k) && mask.getLsbD n) then v.testBit n else (g.preg n).getLsbD l' := by
  by_cases hk : n = k
  · subst hk
    cases hm : mask.getLsbD n
    · simp
    · simp only [if_true, setPIn_one _ _ _ _ _ _ hl hl', beq_self_eq_true, decide_true, Bool.and_true]
  · split
    · simp [setPIn_one _ _ _ _ _ _ hl hl', hk]
    · simp [hk]

theorem putPreds_samePreds (mask : BitVec 16) (l v : Nat) (ns : List Nat) : ∀ g : Group,
    samePreds g (putPreds mask l v ns g) = g ∧ (putPreds mask l v ns g).flg = g.flg := by
  induction ns with
  | nil => exact fun _ => ⟨rfl, rfl⟩
  | cons k ns ih =>
    intro g
    rw [putPreds_cons]
    split
    · obtain ⟨hsame, hflg⟩ := ih (g.setPIn k (laneBit l) (if v.testBit k then laneBit l else 0#32))
      exact ⟨samePreds_trans _ _ _ (setPIn_samePreds g k _ _) hsame, hflg⟩
    · exact ih g

theorem putPreds_preg (mask : BitVec 16) (v : Nat) {l l' : Nat} (hl : l < 32) (hl' : l' < 32) (n : Nat) (ns : List Nat) :
    ∀ g : Group, ((putPreds mask l v ns g).preg n).getLsbD l' =
      if decide (l' = l) && (decide (n ∈ ns) && mask.getLsbD n) then v.testBit n else (g.preg n).getLsbD l' := by
  induction ns with
  | nil => intro g; simp [putPreds]
  | cons k ns ih =>
    intro g
    rw [putPreds_cons, ih, putPreds_step mask v k n hl hl' g]
    by_cases hk : n = k
    · subst hk
      simp only [List.mem_cons, true_or, decide_true, Bool.true_and]
      split
      · next h =>
        simp only [Bool.and_eq_true] at h ⊢
        exact (if_pos ⟨h.1, h.2.2⟩).symm
      · rfl
    · simp only [List.mem_cons, hk, false_or, decide_false, Bool.false_and, Bool.and_false, Bool.false_eq_true, if_false]

/-- The parts of a predicate result that is known in every lane. -/
theorem predResult_parts {p : Nat → (Nat → Bool) × (Nat → Bool) × Flags} {ns : Nat → Bool} {val : Nat → Nat → Bool}
    {fl : Nat → Flags} (h : ∀ l, some (p l) = some (ns, fun n => val n l, fl l)) :
    ns = (p 0).1 ∧ val = (fun n l => (p l).2.1 n) ∧ fl = fun l => (p l).2.2 := by
  have hp : ∀ l, p l = (ns, fun n => val n l, fl l) := fun l => Option.some.inj (h l)
  exact ⟨by rw [hp], by funext n l; rw [hp], by funext l; rw [hp]⟩

/-- An instruction with a predicate result writes it in its acting lanes. -/
theorem predResult_writesPreds {s : State} {i : Instr} {ns : Nat → Bool} {val : Nat → Nat → Bool} {fl : Nat → Flags}
    (ha : s.admits i = true) (hc : s.clean i = true)
    (hf : ∀ l, predResult s i l (s.srcs i l) = some (ns, fun n => val n l, fl l))
    (htr : ∀ l ∈ maskLanes (s.acting i), trapped s.me.mode (fl l) = 0#8) : s.writesPreds i ns val fl := by
  cases i with
  | isetp x =>
    obtain ⟨rfl, rfl, rfl⟩ := predResult_parts hf
    exact predOp_writesPreds ha hc (traps := false) nofun rfl
  | fsetp x =>
    obtain ⟨rfl, rfl, rfl⟩ := predResult_parts hf
    exact predOp_writesPreds ha hc (traps := true) (fun _ => htr) rfl
  | plop x =>
    obtain ⟨rfl, rfl, rfl⟩ := predResult_parts hf
    exact predOp_writesPreds ha hc (traps := false) nofun rfl
  | pmovPut x =>
    obtain ⟨rfl, rfl, rfl⟩ := predResult_parts hf
    refine arith_preds ha hc false (fun _ v => { val := v.a })
      (fun l o g => putPreds x.imm l o.val (List.range 16) g) _ _
      (fun l o g => (putPreds_samePreds _ _ _ _ g).1) (fun l o g => (putPreds_samePreds _ _ _ _ g).2)
      (fun l hl g n l' hl' => ?_) nofun rfl
    exact (putPreds_preg x.imm _ hl hl' n (List.range 16) g).trans (by simp only [List.mem_range]; rfl)
  | _ => cases hf 0

/-! ### IADDC (05 R100) -/

/-- The group with other predicates. -/
def Group.withP (g : Group) (p : Sp Mask) : Group := { g with p := p }

theorem writeDst_withP (g : Group) (p : Sp Mask) (o : Opnd) (w l x : Nat) :
    (g.withP p).writeDst o w l x = (g.writeDst o w l x).withP p := by
  cases o with
  | v r => simp only [Group.writeDst]; split <;> rfl
  | s r => simp only [Group.writeDst]; split <;> rfl
  | _ => rfl

/-- One lane of `IADDC`: the sum to the destination, the carry-out to predicate `k`. -/
def putCarry (o : Opnd) (k l : Nat) (x : LaneOut) (g : Group) : Group :=
  (g.writeDst o 1 l x.val).setPIn k (laneBit l) (if x.pred then laneBit l else 0#32)

theorem putCarry_place (o : Opnd) (k l : Nat) (x : LaneOut) (g : Group) :
    (putCarry o k l x g).frontier = g.frontier ∧ (putCarry o k l x g).subs = g.subs := writeDst_place g o 1 l x.val

theorem putCarry_preg (o : Opnd) (k : Nat) (x : LaneOut) {l l' : Nat} (hl : l < 32) (hl' : l' < 32) (g : Group) (n : Nat) :
    ((putCarry o k l x g).preg n).getLsbD l' =
      if decide (l' = l) && n == k then x.pred else (g.preg n).getLsbD l' := by
  have hsame := congrArg Group.p (writeDst_same g o 1 l x.val)
  have hpreg : (g.writeDst o 1 l x.val).preg n = g.preg n := congrArg (Sp.get 0#32 · n) hsame
  rw [putCarry, setPIn_one _ _ _ _ _ _ hl hl', hpreg]

theorem putCarry_withP (o : Opnd) (k l : Nat) (x : LaneOut) (g : Group) (q : Sp Mask) :
    ∃ p, putCarry o k l x (g.withP q) = (g.writeDst o 1 l x.val).withP p := by
  unfold putCarry
  rw [writeDst_withP]
  exact ⟨_, rfl⟩

/-- Predicates apart, the lanes of `IADDC` write as those of an instruction with a register destination only. -/
theorem putCarry_fold (o : Opnd) (k : Nat) (f : Nat → LaneOut) (ls : List Nat) : ∀ (g : Group) (q : Sp Mask),
    ∃ p, laneFold f (putCarry o k) ls (g.withP q) = (dstFold o 1 f ls g).withP p := by
  induction ls with
  | nil => exact fun _ q => ⟨q, rfl⟩
  | cons l r ih =>
    intro g q
    obtain ⟨p, hput⟩ := putCarry_withP o k l (f l) (g.raiseFlags (f l).flags) q
    change putCarry o k l (f l) ((g.withP q).raiseFlags (f l).flags) = _ at hput
    rw [laneFold_cons, dstFold_cons, hput]
    exact ih _ _

theorem writesV_half {o : Opnd} {m : Mask} {r l : Nat} (h : writesV o 1 m r l = true) (x : Nat) :
    halfOf o.num r x = BitVec.ofNat 32 x := by
  cases o with
  | v d =>
    simp only [writesV, Bool.and_eq_true, Bool.or_eq_true, beq_iff_eq, Nat.reduceEqDiff, false_and, or_false] at h
    obtain ⟨-, rfl⟩ := h
    exact congrArg (BitVec.ofNat 32) (if_pos rfl)
  | _ => cases h

theorem writesS_of_vector {o : Opnd} (h : o.isS = false) (w : Nat) (m : Mask) (r : Nat) : writesS o w m r = false := by
  cases o with
  | s d => cases h
  | _ => rfl

theorem admits_wf {s : State} {i : Instr} (ha : s.admits i = true) : i.wf = true := by
  simp only [State.admits, Bool.and_eq_true] at ha
  obtain ⟨⟨⟨⟨⟨⟨-, hwf⟩, -⟩, -⟩, -⟩, -⟩, -⟩ := ha
  exact hwf

theorem iaddc_vector {s : State} {x : XForm} (ha : s.admits (.iaddc x) = true) : x.a.isS = false := by
  have hok : (x.ok 0x25 && true) = true := admits_wf ha
  simp only [XForm.ok, fldsOk, Bool.and_eq_true] at hok
  obtain ⟨⟨⟨⟨-, ⟨⟨hfld, -⟩, -⟩, -⟩, -⟩, -⟩, -⟩ := hok
  have hrole : ([Role.vdst 1].all (Role.legal x.lit.isSome x.a)) = true := hfld
  cases hx : x.a with
  | s d => rw [hx] at hrole; cases hrole
  | _ => rfl

/-- The sum of one lane of `IADDC`. -/
def State.carrySum (s : State) (x : XForm) (l : Nat) : Nat :=
  (s.srcs (.iaddc x) l).a + (s.srcs (.iaddc x) l).b + (if (s.me.preg (bits x.aux 3 0)).getLsbD l then 1 else 0)

/-- What one lane of `IADDC` produces. -/
def State.carryOut (s : State) (x : XForm) (l : Nat) : LaneOut :=
  { val := s.carrySum x l % 2 ^ 32, pred := decide (2 ^ 32 ≤ s.carrySum x l) }

theorem iaddc_runs {s : State} {x : XForm} (ha : s.admits (.iaddc x) = true) (hc : s.clean (.iaddc x) = true) :
    ∃ u, exec (.iaddc x) s = .next (u.settle s.cur) ∧ onlyGroup s u ∧ goesOn s (.iaddc x) u ∧
      u.me = sameIssue u.me
        (laneFold (s.carryOut x) (putCarry x.a (bits x.imm 3 0)) (maskLanes (s.acting (.iaddc x))) s.me) := by
  obtain ⟨u, hout, honly, hgoes, hsame⟩ := arith_runs ha hc false
    (fun l v =>
      let t := v.a + v.b + (if s.predAt (bits x.aux 3 0) l then 1 else 0)
      { val := t % 2 ^ 32, pred := decide (2 ^ 32 ≤ t) })
    (putCarry x.a (bits x.imm 3 0)) (putCarry_place _ _)
    (fun l o g => writeDst_mode g x.a 1 l o.val) nofun rfl
  exact ⟨u, hout, honly, hgoes, eq_sameIssue hsame⟩

/-- `IADDC` writes the sum and the carry-out in its acting lanes, and changes nothing else. -/
theorem iaddc_completes {s : State} {x : XForm} (ha : s.admits (.iaddc x) = true) (hc : s.clean (.iaddc x) = true) :
    s.completes (.iaddc x) fun u => onlyGroup s u ∧ goesOn s (.iaddc x) u ∧
      sameIssue s.me (sameRegs s.me (samePreds s.me u.me)) = s.me ∧
      (∀ r l, l < 32 → u.me.vreg r l = if writesV x.a 1 (s.acting (.iaddc x)) r l
        then BitVec.ofNat 32 (s.carrySum x l % 2 ^ 32) else s.me.vreg r l) ∧
      (∀ r l, l < 32 → u.me.vPoison r l = (!writesV x.a 1 (s.acting (.iaddc x)) r l && s.me.vPoison r l)) ∧
      (∀ r, u.me.sreg r = s.me.sreg r ∧ u.me.sPoison r = s.me.sPoison r) ∧
      predsWritten s.me u.me (s.acting (.iaddc x)) (fun n => n == bits x.imm 3 0)
        (fun _ l => decide (2 ^ 32 ≤ s.carrySum x l)) ∧
      u.me.flg.setWidth 8 = s.me.flg.setWidth 8 := by
  obtain ⟨u, hout, honly, hgoes, hu⟩ := iaddc_runs ha hc
  have hvec := iaddc_vector ha
  let ls := maskLanes (s.acting (.iaddc x))
  obtain ⟨p, hp⟩ := putCarry_fold x.a (bits x.imm 3 0) (s.carryOut x) ls s.me s.me.p
  have hpreds := laneFold_preds (s.carryOut x) (putCarry x.a (bits x.imm 3 0)) (fun n => n == bits x.imm 3 0)
    (fun _ l => decide (2 ^ 32 ≤ s.carrySum x l))
    (fun l hl g n l' hl' => putCarry_preg x.a (bits x.imm 3 0) (s.carryOut x l) hl hl' g n) ls
    (fun l hl => (mem_maskLanes.1 hl).1) s.me
  have hsame := dstFold_same x.a 1 (s.carryOut x) ls s.me
  have hregs := dstFold_regs x.a 1 (s.acting (.iaddc x)) (s.carryOut x) s.me
  have hflags := dstFold_flags x.a 1 (s.carryOut x) ls s.me
  rw [ranFor_other hvec] at hregs
  obtain ⟨hv, hs, hvp, hsp⟩ := hregs
  change u.me = sameIssue u.me (laneFold _ _ ls (s.me.withP s.me.p)) at hu
  change ∀ n l, l < 32 → ((laneFold _ _ ls (s.me.withP s.me.p)).preg n).getLsbD l = _ at hpreds
  rw [hp] at hu hpreds
  refine ⟨u, hout, honly, hgoes, ?_, fun r l hl => ?_, fun r l hl => ?_, fun r => ⟨?_, ?_⟩, fun n l hl => ?_, ?_⟩
  · rw [hu]
    show sameIssue s.me (samePreds s.me (sameRegs s.me (dstFold x.a 1 (s.carryOut x) ls s.me))) = s.me
    rw [hsame]
    rfl
  · rw [hu]
    refine (hv r l hl).trans ?_
    split
    · next h => exact writesV_half h _
    · rfl
  · rw [hu]
    exact hvp r l hl
  · rw [hu]
    refine (hs r).trans ?_
    rw [writesS_of_vector hvec]
    rfl
  · rw [hu]
    refine (hsp r).trans ?_
    rw [writesS_of_vector hvec]
    rfl
  · rw [hu]
    refine (hpreds n l hl).trans ?_
    simp only [ls, mem_maskLanes, hl, true_and, Bool.decide_eq_true]
  · rw [hu]
    exact (hflags.trans (congrArg _ (flagsOf_plain (fun _ => 0) ls))).trans (BitVec.or_zero ..)

/-- Settles O2: predicate results lane by lane, and `IADDC` by its own run. -/
theorem predicateAndCarryResults : Obligations.PredicateAndCarryResults :=
  ⟨fun _ _ _ _ _ ha hc hf htr => predResult_writesPreds ha hc hf htr, fun _ _ ha hc => iaddc_completes ha hc⟩

/-! ### Cross-lane results (05 R118 to R126) -/

theorem unmarked_opBad {g : Group} (h : g.unmarked) (o : Opnd) (w l : Nat) : opBad g o w l = false := by
  obtain ⟨hv, hs⟩ := h
  cases o <;> simp [opBad, hv, hs]

theorem unmarked_xval {g : Group} (h : g.unmarked) (act : Mask) (x : XForm) (o : Opnd) (w l : Nat) (j : Int) :
    (xval g act x o w l j).bad = false := by
  unfold xval
  dsimp only
  split
  · exact unmarked_opBad h o w _
  · rfl

/-- A cross-lane run none of whose lanes reads a poisoned register writes its destination. -/
theorem crossRun_writesDst {s : State} {i : Instr} {x : XForm} {w : Nat} {bad : Nat → Option Opnd} {f : Nat → LaneOut}
    (ha : s.admits i = true) (hr : closesRegion i.op.toNat = false) (hbad : ∀ l, bad l = none)
    (he : exec i s = ((issueAt i s s).crossRun x w bad f).out) : s.writesDst i x.a w f := by
  have hover : (issueAt i s s).overlay s (s.begun i).me := by
    rw [begun_of_open hr]
    exact issueAt_overlay s.sameGroups_refl i
  exact laneRun_writesDst ha rfl hover x.a w x.a.isS (fun l => (bad l).map poisonFlt) f false
    (fun l _ => by rw [hbad l]; rfl) nofun he

theorem issueAt_g (i : Instr) (s : State) : (issueAt i s s).g = s.me := rfl

/-- `XVOTE` with a mask result: where no lane acts, the run of no lane is the instruction that goes on. -/
theorem exec_xvote_mask {s : State} {x : XForm} (ha : s.admits (.xvote x) = true) (h3 : x.fam = 3) :
    exec (.xvote x) s = ((issueAt (.xvote x) s s).crossRun x 1 (fun _ => none)
      fun _ => { val := (voteMask s.me x &&& s.acting (.xvote x)).toNat }).out := by
  show execXvote x s = _
  simp only [execXvote, begin_of_open ha rfl, if_pos h3, issueAt_run, issueAt_g]
  split
  · next h0 =>
    unfold Iss.crossRun
    rw [issueAt_run, h0, show runLanes 0#32 x.a.isS = 0#32 by unfold runLanes; split <;> rfl]
    rfl
  · rfl

/-- Every cross-lane instruction with a register result writes it, where no register is marked. -/
theorem crossResult_writesDst {s : State} {i : Instr} {r : LaneOut} (ha : s.admits i = true) (hu : s.me.unmarked)
    (hf : crossResult s i 0 = some r) :
    s.writesDst i i.fields.a (crossWidth i) fun l => (crossResult s i l).getD {} := by
  have hop := unmarked_opBad hu
  have hx := unmarked_xval hu
  cases i with
  | xshf x =>
    have he : exec (.xshf x) s = execXshf x s := rfl
    simp only [execXshf, begin_of_open ha rfl] at he
    exact crossRun_writesDst ha rfl (fun l => by simp only [issueAt_g, hop, hx, Bool.false_eq_true, if_false]) he
  | xsld x =>
    have he : exec (.xsld x) s = execXsld x s := rfl
    simp only [execXsld, begin_of_open ha rfl] at he
    exact crossRun_writesDst ha rfl
      (fun l => by simp only [issueAt_g, hop, hx, Bool.and_false, Bool.false_eq_true, if_false]) he
  | xbfl x =>
    have he : exec (.xbfl x) s = execXbfl x s := rfl
    simp only [execXbfl, begin_of_open ha rfl] at he
    exact crossRun_writesDst ha rfl (fun l => by simp only [issueAt_g, hx, Bool.false_eq_true, if_false]) he
  | xbcst x =>
    have he : exec (.xbcst x) s = execXbcst x s := rfl
    simp only [execXbcst, begin_of_open ha rfl] at he
    exact crossRun_writesDst ha rfl
      (fun l => by simp only [issueAt_g, hop, hx, Bool.and_false, Bool.false_eq_true, if_false]) he
  | xred x =>
    have he : exec (.xred x) s = execXred x s := rfl
    simp only [execXred, begin_of_open ha rfl] at he
    exact crossRun_writesDst ha rfl
      (fun l => by simp only [issueAt_g, hop, hx, Bool.and_false, Bool.false_eq_true, if_false]) he
  | xscan x =>
    have he : exec (.xscan x) s = execXscan x s := rfl
    simp only [execXscan, begin_of_open ha rfl] at he
    exact crossRun_writesDst ha rfl
      (fun l => by simp only [issueAt_g, hop, hx, Bool.and_false, Bool.false_eq_true, if_false]) he
  | xvote x =>
    have h3 : x.fam = 3 := (Option.ite_none_right_eq_some.1 hf).1
    have hval : ∀ l, crossResult s (.xvote x) l = some (plain (voteMask s.me x &&& s.acting (.xvote x)).toNat) :=
      fun _ => if_pos h3
    simp only [hval]
    exact crossRun_writesDst ha rfl (fun _ => rfl) (exec_xvote_mask ha h3)
  | xffs x =>
    have he : exec (.xffs x) s = execXffs x s := rfl
    simp only [execXffs, begin_of_open ha rfl] at he
    exact crossRun_writesDst ha rfl (fun _ => rfl) he
  | _ => cases hf

/-! ### Votes with a predicate result (05 R125) -/

/-- The outcome of a vote among `vs`, of which `q` are for it. -/
def voteOutcome (fam : Nat) (q vs : Mask) : Bool :=
  if fam = 0 then q == vs else if fam = 1 then q != 0#32 else q == vs || q == 0#32

/-- The group after a vote: predicate `n` takes one value in the lanes that voted. -/
def votedGroup (g : Group) (n : Nat) (vs : Mask) (r : Bool) : Group :=
  if vs = 0#32 then g else g.setPIn n vs (if r then vs else 0#32)

theorem votedGroup_withP (g : Group) (n : Nat) (vs : Mask) (r : Bool) : (votedGroup g n vs r).withP g.p = g := by
  unfold votedGroup
  split
  · rfl
  · rfl

theorem votedGroup_preds (g : Group) (n : Nat) (vs : Mask) (r : Bool) :
    predsWritten g (votedGroup g n vs r) vs (fun k => k == n) fun _ _ => r := by
  intro k l hl
  unfold votedGroup
  split
  · next h0 => simp [h0]
  · rw [setPIn_preg _ _ _ _ _ _ hl]
    split
    · next h =>
      simp only [Bool.and_eq_true] at h
      cases r
      · simp
      · exact h.1
    · rfl

theorem votedGroup_place (g : Group) (n : Nat) (vs : Mask) (r : Bool) :
    (votedGroup g n vs r).frontier = g.frontier ∧ (votedGroup g n vs r).subs = g.subs := by
  have hframe := votedGroup_withP g n vs r
  have hfrontier := congrArg Group.frontier hframe
  have hsubs := congrArg Group.subs hframe
  exact ⟨hfrontier, hsubs⟩

/-- The outcome of the `XVOTE` in issue: the voters are the lanes that act. -/
def State.vote (s : State) (x : XForm) : Bool :=
  voteOutcome x.fam (voteMask s.me x &&& s.acting (.xvote x)) (s.acting (.xvote x))

/-- `XVOTE` with a predicate result goes on over the group that has voted. -/
theorem exec_xvote_pred {s : State} {x : XForm} (ha : s.admits (.xvote x) = true) (h3 : x.fam ≠ 3) :
    ∃ t, exec (.xvote x) s = (issueAt (.xvote x) s t).out ∧ (issueAt (.xvote x) s t).overlay s
      (votedGroup s.me x.a.num (s.acting (.xvote x)) (s.vote x)) := by
  have hover := issueAt_overlay s.sameGroups_refl (.xvote x)
  have he : exec (.xvote x) s = execXvote x s := rfl
  simp only [execXvote, begin_of_open ha rfl, if_neg h3, issueAt_run, issueAt_g] at he
  unfold votedGroup
  by_cases h0 : s.acting (.xvote x) = 0#32
  · rw [if_pos h0] at he ⊢
    exact ⟨s, he, hover⟩
  · have hrun : exec (.xvote x) s = ((issueAt (.xvote x) s s).mod fun g =>
        g.setPIn x.a.num (s.acting (.xvote x)) (if s.vote x then s.acting (.xvote x) else 0#32)).out := by
      rw [he, if_neg h0]
      unfold State.vote voteOutcome
      split
      · next h => simp only [h, if_true]
      · next h => simp only [h, Nat.one_ne_zero, if_true, if_false]
      · next h0 h1 => simp only [if_neg h0, if_neg h1]
    obtain ⟨hover', hmod⟩ := Iss.over_mod hover fun g =>
      g.setPIn x.a.num (s.acting (.xvote x)) (if s.vote x then s.acting (.xvote x) else 0#32)
    rw [if_neg h0]
    rw [hmod, issueAt_issueAt] at hrun hover'
    exact ⟨_, hrun, hover'⟩

/-- `XVOTE` with a predicate result writes the outcome in the lanes that vote, and changes nothing else. -/
theorem xvote_pred_completes {s : State} {x : XForm} (ha : s.admits (.xvote x) = true) (h3 : x.fam ≠ 3) :
    s.completes (.xvote x) fun u => onlyGroup s u ∧ goesOn s (.xvote x) u ∧
      sameIssue s.me (u.me.withP s.me.p) = s.me ∧
      predsWritten s.me u.me (s.acting (.xvote x)) (fun n => n == x.a.num) (fun _ _ => s.vote x) := by
  obtain ⟨t, he, hover⟩ := exec_xvote_pred ha h3
  have hframe := votedGroup_withP s.me x.a.num (s.acting (.xvote x)) (s.vote x)
  have hpreds := votedGroup_preds s.me x.a.num (s.acting (.xvote x)) (s.vote x)
  obtain ⟨hfrontier, hsubs⟩ := votedGroup_place s.me x.a.num (s.acting (.xvote x)) (s.vote x)
  obtain ⟨u, hout, honly, hissue, hgoes⟩ := out_runsTo ha rfl rfl hover hfrontier hsubs
  have hu := eq_sameIssue hissue
  refine ⟨u, he.trans hout, honly, hgoes, ?_, ?_⟩
  · rw [hu]
    show sameIssue s.me (Group.withP (votedGroup s.me x.a.num (s.acting (.xvote x)) (s.vote x)) s.me.p) = s.me
    rw [hframe, sameIssue_self]
  · rw [hu]
    exact hpreds

/-- Settles O3: the register results by their runs, and the votes with a predicate result by theirs. -/
theorem crossLaneResults : Obligations.CrossLaneResults := by
  constructor
  · intro s i f ha hu hf
    have hval : f = fun l => (crossResult s i l).getD {} := funext fun l => by rw [hf l]; rfl
    rw [hval]
    exact crossResult_writesDst ha hu (hf 0)
  · exact fun s x ha h3 => xvote_pred_completes ha h3

/-! ### XPLD (05 R128) -/

theorem issueAt_modS (i : Instr) (s t : State) (f : State → State) : (issueAt i s t).modS f = issueAt i s (f t) := rfl

/-- `XPLD` of a readable block of well-formed entries at `off` loads the table. -/
theorem exec_xpld_loads {s : State} {x : XForm} {off : Nat} (ha : s.admits (.xpld x) = true)
    (ht : x.aux.toNat < (s.teamOf s.cur).npats) (hm : s.acting (.xpld x) ≠ 0#32) (hb : opBad s.me x.b 1 0 = false)
    (hoff : uniVal s.me x x.b 1 + x.imm.toNat = off) (hal : off % 32 = 0) (hin : off + 256 ≤ (s.teamOf s.cur).ssize)
    (hk : ((s.teamOf s.cur).scrAbsent off 256).isEmpty = true) (hp : (s.teamOf s.cur).scrPoison off 256 = false)
    (hw : ((List.range 32).any fun l =>
      patBad (ofBytes ((((s.teamOf s.cur).scrBytes off 256).drop (8 * l)).take 8))) = false) :
    exec (.xpld x) s = (issueAt (.xpld x) s (s.modTeam s.me.team fun t =>
      t.loadPattern x.aux.toNat ((s.teamOf s.cur).scrBytes off 256))).out := by
  show execXpld x s = _
  unfold execXpld
  simp only [decide_eq_true ht, begin_of_open ha rfl, issueAt_run, issueAt_g, if_neg hm, hb, hoff, hal, hk, hp, hw,
    Nat.not_lt.2 hin, Bool.false_eq_true, Bool.not_true, if_false, ne_eq, not_true, issueAt_modS]

theorem xpld_runsTo {s t : State} {x : XForm} (ha : s.admits (.xpld x) = true) (hg : s.sameGroups t)
    (he : exec (.xpld x) s = (issueAt (.xpld x) s t).out) : s.runsTo (.xpld x) t s.me := by
  obtain ⟨u, hout, honly, hsame, hgoes⟩ := out_runsTo ha rfl hg.2 (issueAt_overlay hg (.xpld x)) rfl rfl
  exact ⟨u, he.trans hout, honly, hsame, hgoes, by simp⟩

/-! ### XPAT (05 R129) -/

/-- One lane of consecutive vector registers from `a` takes a word for each of some numbers. -/
def putRow (a l : Nat) (word : Nat → Word) (ks : List Nat) (g : Group) : Group :=
  ks.foldl (fun g k => g.setV (a + k) l (word k)) g

theorem putRow_cons (a l : Nat) (word : Nat → Word) (k : Nat) (ks : List Nat) (g : Group) :
    putRow a l word (k :: ks) g = putRow a l word ks (g.setV (a + k) l (word k)) := rfl

theorem putRow_same (a l : Nat) (word : Nat → Word) (ks : List Nat) : ∀ g : Group,
    sameRegs g (putRow a l word ks g) = g ∧ (putRow a l word ks g).flg = g.flg ∧
      (∀ r, (putRow a l word ks g).sreg r = g.sreg r ∧ (putRow a l word ks g).sPoison r = g.sPoison r) := by
  induction ks with
  | nil => exact fun _ => ⟨rfl, rfl, fun _ => ⟨rfl, rfl⟩⟩
  | cons k ks ih =>
    intro g
    obtain ⟨hsame, hflg, hs⟩ := ih (g.setV (a + k) l (word k))
    exact ⟨sameRegs_trans (b := g.setV (a + k) l (word k)) rfl hsame, hflg, hs⟩

theorem putRow_mode (a l : Nat) (word : Nat → Word) (ks : List Nat) (g : Group) : (putRow a l word ks g).mode = g.mode := by
  have hmode := congrArg Group.mode (putRow_same a l word ks g).1
  exact hmode

theorem putRow_vreg (a : Nat) (word : Nat → Word) {l l' : Nat} (hl : l < 32) (hl' : l' < 32) (r : Nat) (ks : List Nat) :
    ∀ g : Group, (putRow a l word ks g).vreg r l' =
      if l' = l ∧ a ≤ r ∧ r - a ∈ ks then word (r - a) else g.vreg r l' := by
  induction ks with
  | nil => intro g; simp [putRow]
  | cons k ks ih =>
    intro g
    rw [putRow_cons, ih, Group.setV_vreg _ _ _ _ _ _ hl hl']
    by_cases hk : r = a + k
    · subst hk
      by_cases hl : l' = l <;> simp [hl]
    · have hmem : a ≤ r ∧ r - a ∈ k :: ks ↔ a ≤ r ∧ r - a ∈ ks :=
        and_congr_right fun hr => List.mem_cons.trans (or_iff_right fun h => hk (by omega))
      simp only [hk, false_and, if_false, hmem]

theorem putRow_vPoison (a : Nat) (word : Nat → Word) {l l' : Nat} (hl : l < 32) (hl' : l' < 32) (r : Nat) (ks : List Nat) :
    ∀ g : Group, g.vPoison r l' = false → (putRow a l word ks g).vPoison r l' = false := by
  induction ks with
  | nil => exact fun _ h => h
  | cons k ks ih =>
    intro g h
    refine ih _ ?_
    rw [Group.setV_vPoison _ _ _ _ _ _ hl hl', h, ite_self]

/-- Rows of some lanes, one after the other: what a run of `XPAT` writes. -/
def putRows (a n : Nat) (word : Nat → Nat → Word) : List Nat → Group → Group :=
  laneFold (fun _ => {}) fun l _ => putRow a l (word l) (List.range n)

theorem putRows_cons (a n : Nat) (word : Nat → Nat → Word) (l : Nat) (ls : List Nat) (g : Group) :
    putRows a n word (l :: ls) g =
      putRows a n word ls (putRow a l (word l) (List.range n) (g.raiseFlags 0#8)) := rfl

theorem putRows_same (a n : Nat) (word : Nat → Nat → Word) (ls : List Nat) (g : Group) :
    sameRegs g (putRows a n word ls g) = g :=
  laneFold_inv _ _ sameRegs (fun _ => rfl) (fun _ _ _ => sameRegs_trans) (fun _ _ => rfl)
    (fun l _ g => (putRow_same a l (word l) _ g).1) ls g

theorem putRows_flg (a n : Nat) (word : Nat → Nat → Word) (ls : List Nat) (g : Group) :
    (putRows a n word ls g).flg.setWidth 8 = g.flg.setWidth 8 :=
  ((laneFold_flags (fun _ => {}) (fun l _ => putRow a l (word l) (List.range n))
    (fun l _ g => (putRow_same a l (word l) _ g).2.1) ls g).trans
      (congrArg _ (flagsOf_plain (fun _ => 0) ls))).trans (BitVec.or_zero ..)

theorem putRows_scalars (a n : Nat) (word : Nat → Nat → Word) (r : Nat) (ls : List Nat) : ∀ g : Group,
    (putRows a n word ls g).sreg r = g.sreg r ∧ (putRows a n word ls g).sPoison r = g.sPoison r := by
  induction ls with
  | nil => exact fun _ => ⟨rfl, rfl⟩
  | cons l ls ih =>
    intro g
    obtain ⟨-, -, hrow⟩ := putRow_same a l (word l) (List.range n) (g.raiseFlags 0#8)
    obtain ⟨hreg, hpoison⟩ := ih (putRow a l (word l) (List.range n) (g.raiseFlags 0#8))
    exact ⟨hreg.trans (hrow r).1, hpoison.trans (hrow r).2⟩

theorem putRows_vreg (a n : Nat) (word : Nat → Nat → Word) {l : Nat} (hl : l < 32) (r : Nat) (ls : List Nat)
    (hls : ∀ k ∈ ls, k < 32) : ∀ g : Group, (putRows a n word ls g).vreg r l =
      if l ∈ ls ∧ a ≤ r ∧ r < a + n then word l (r - a) else g.vreg r l := by
  induction ls with
  | nil => intro g; simp [putRows, laneFold]
  | cons k ls ih =>
    intro g
    have hrow : (a ≤ r ∧ r - a ∈ List.range n) ↔ (a ≤ r ∧ r < a + n) := by rw [List.mem_range]; omega
    rw [putRows_cons, ih fun j hj => hls j (List.mem_cons_of_mem _ hj),
      putRow_vreg a (word k) (hls k List.mem_cons_self) hl]
    by_cases hk : l = k
    · subst hk
      simp only [hrow]
      by_cases hr : a ≤ r ∧ r < a + n <;> simp [hr]
    · simp [hk]

theorem putRows_vPoison (a n : Nat) (word : Nat → Nat → Word) {l : Nat} (hl : l < 32) (r : Nat) (ls : List Nat)
    (hls : ∀ k ∈ ls, k < 32) : ∀ g : Group, g.vPoison r l = false → (putRows a n word ls g).vPoison r l = false := by
  induction ls with
  | nil => exact fun _ h => h
  | cons k ls ih =>
    intro g h
    exact ih (fun j hj => hls j (List.mem_cons_of_mem _ hj)) _
      (putRow_vPoison a (word k) (hls k List.mem_cons_self) hl r _ _ h)

/-- The word that `XPAT` builds for destination `k` of lane `l`. -/
def State.patternWord (s : State) (x : XForm) (l k : Nat) : Word :=
  let e := patEntry (s.teamOf s.cur) x.aux.toNat l
  let n := bits x.imm 3 0
  let sees := !e.testBit 7 && s.entry.mask.getLsbD (patLane e k x.xk.toNat)
  BitVec.ofNat 32 (if e.testBit 7 then 0 else patWord e
    (if sees then (s.me.vreg (x.b.num + patReg e k n) (patLane e k x.xk.toNat)).toNat else 0))

theorem filter_of_false (ks : List Nat) : ks.filter (fun _ => false) = [] := List.filter_eq_nil_iff.2 fun _ _ => nofun

/-- Where no register is marked, `XPAT` writes the rows of its acting lanes. -/
theorem exec_xpat_rows {s : State} {x : XForm} (ha : s.admits (.xpat x) = true)
    (ht : x.aux.toNat < (s.teamOf s.cur).npats) (hu : s.me.unmarked) :
    ∃ t, exec (.xpat x) s = (issueAt (.xpat x) s t).out ∧ (issueAt (.xpat x) s t).overlay s
      (putRows x.a.num (bits x.imm 3 0) (s.patternWord x) (maskLanes (s.acting (.xpat x))) s.me) := by
  obtain ⟨hv, -⟩ := hu
  have he : exec (.xpat x) s = execXpat x s := rfl
  simp only [execXpat, decide_eq_true ht, begin_of_open ha rfl, issueAt_run, issueAt_g, hv, Bool.and_false,
    filter_of_false, List.map_nil, List.isEmpty_nil, if_true] at he
  obtain ⟨t, hrun, hover⟩ := laneRun_over (s.acting (.xpat x)) false (fun _ => none) (fun _ => {}) false
    (fun l _ => putRow x.a.num l (s.patternWord x l) (List.range (bits x.imm 3 0))) s.me.mode
    (fun l _ g => putRow_mode x.a.num l (s.patternWord x l) _ g) (fun _ _ => rfl) nofun (issueAt_overlay s.sameGroups_refl (.xpat x)) rfl
  rw [hrun, issueAt_issueAt] at hover
  exact ⟨t, he.trans (congrArg Iss.out (hrun.trans (issueAt_issueAt _ _ _ _))), hover⟩

/-- `XPAT` writes, in every acting lane, each register of the range, and changes nothing else. -/
theorem xpat_completes {s : State} {x : XForm} (ha : s.admits (.xpat x) = true)
    (ht : x.aux.toNat < (s.teamOf s.cur).npats) (hu : s.me.unmarked) :
    s.completes (.xpat x) fun u => onlyGroup s u ∧ goesOn s (.xpat x) u ∧ sameIssue s.me (sameRegs s.me u.me) = s.me ∧
      (∀ r, u.me.sreg r = s.me.sreg r ∧ u.me.sPoison r = false) ∧ u.me.flg.setWidth 8 = s.me.flg.setWidth 8 ∧
      (∀ r l, l < 32 → u.me.vPoison r l = false) ∧
      ∀ r l, l < 32 → u.me.vreg r l =
        if (s.acting (.xpat x)).getLsbD l && decide (x.a.num ≤ r) && decide (r < x.a.num + bits x.imm 3 0)
        then s.patternWord x l (r - x.a.num) else s.me.vreg r l := by
  obtain ⟨t, he, hover⟩ := exec_xpat_rows ha ht hu
  obtain ⟨hv, hs⟩ := hu
  let ls := maskLanes (s.acting (.xpat x))
  have hls : ∀ k ∈ ls, k < 32 := fun k hk => (mem_maskLanes.1 hk).1
  let n := bits x.imm 3 0
  have hsame := putRows_same x.a.num n (s.patternWord x) ls s.me
  have hfrontier := congrArg Group.frontier hsame
  have hsubs := congrArg Group.subs hsame
  obtain ⟨u, hout, honly, hissue, hgoes⟩ := out_runsTo ha rfl rfl hover hfrontier hsubs
  have hu := eq_sameIssue hissue
  refine ⟨u, he.trans hout, honly, hgoes, ?_, fun r => ?_, ?_, fun r l hl => ?_, fun r l hl => ?_⟩
  · rw [hu]
    show sameIssue s.me (sameRegs s.me (putRows x.a.num n (s.patternWord x) ls s.me)) = s.me
    rw [hsame, sameIssue_self]
  · obtain ⟨hreg, hpoison⟩ := putRows_scalars x.a.num n (s.patternWord x) r ls s.me
    rw [hu]
    exact ⟨hreg, hpoison.trans (hs r)⟩
  · rw [hu]
    exact putRows_flg x.a.num n (s.patternWord x) ls s.me
  · rw [hu]
    exact putRows_vPoison x.a.num n (s.patternWord x) hl r ls hls s.me (hv r l)
  · rw [hu]
    refine (putRows_vreg x.a.num n (s.patternWord x) hl r ls hls s.me).trans ?_
    simp only [ls, mem_maskLanes, hl, true_and, Bool.and_eq_true, decide_eq_true_eq, and_assoc, n]

/-- Settles O13: `XPLD` by its checks, `XPAT` row by row. -/
theorem patternTables : Obligations.PatternTables := by
  intro s i ha ht
  cases i with
  | xpld x =>
    exact fun hm hb hal hin hk hp hw =>
      xpld_runsTo ha (State.modTeam_sameGroups s.sameGroups_refl _ _) (exec_xpld_loads ha ht hm hb rfl hal hin hk hp hw)
  | xpat x => exact fun hu => xpat_completes ha ht hu
  | _ => trivial

/-! ### RAND (05 R131, R132) -/

theorem payloadValues_length (size : Nat) : ∀ (k : Nat) (bs : List Byte), (payloadValues size k bs).length = k
  | 0, _ => rfl
  | k + 1, bs => congrArg (· + 1) (payloadValues_length size k (bs.drop size))

/-- Outside recording and replay, delivery gives as many values as came and leaves the machine alone. -/
theorem State.deliverVals_unlogged {s : State} {n : Nat} (h : (s.launchOf n).r.logMode = 0) (kind : Nat) (pc : VAddr)
    (mask : Mask) (size : Nat) (vals : List Nat) :
    ∃ vs, s.deliverVals n kind pc mask size vals = .use vs s ∧ vs.length = vals.length := by
  unfold State.deliverVals
  cases vals with
  | nil => exact ⟨[], rfl, rfl⟩
  | cons v r =>
    simp only [State.deliver, h]
    exact ⟨_, rfl, payloadValues_length ..⟩

/-- Different keys paired with values are the keys paired with a function's values. -/
theorem zip_eq_map {ls : List Nat} (hn : ls.Nodup) : ∀ {vs : List Nat}, vs.length = ls.length →
    ∃ v : Nat → Nat, ls.zip vs = ls.map fun l => (l, v l) := by
  induction ls with
  | nil => exact fun _ => ⟨id, rfl⟩
  | cons a r ih =>
    rintro (_ | ⟨b, bs⟩) hlen
    · cases hlen
    · obtain ⟨ha, hr⟩ := List.nodup_cons.1 hn
      obtain ⟨v, hv⟩ := ih hr (Nat.succ.inj hlen)
      refine ⟨fun l => if l = a then b else v l, ?_⟩
      have htail : (r.map fun l => (l, v l)) = r.map fun l => (l, if l = a then b else v l) :=
        List.map_congr_left fun l hl => by rw [if_neg (fun h : l = a => ha (h ▸ hl))]
      simp only [List.zip_cons_cons, List.map_cons, if_true, hv, htail]

theorem spreadFold_discarded (w : Nat) (v : Nat → Nat) (ls : List Nat) (g : Group) : spreadFold .zero w v ls g = g :=
  foldl_keeps (· = g) _ (fun _ _ h => h) _ _ rfl

/-- The lanes that `RAND` draws bits for: none where the destination discards them. -/
def drawLanes (m : Mask) (o : Opnd) : Mask := if o = .zero then 0#32 else runLanes m o.isS

/-- One value for each of those lanes is written as an instruction writes its destination. -/
theorem drawLanes_spread (m : Mask) (o : Opnd) (w : Nat) {vs : List Nat} (h : vs.length = maskCount (drawLanes m o)) :
    ∃ v : Nat → Nat, ∀ g : Group, ((maskLanes (drawLanes m o)).zip vs).foldl
      (fun g (p : Nat × Nat) => g.writeDst o w p.1 p.2) g = spreadFold o w v (ranFor m o) g := by
  unfold drawLanes at h ⊢
  by_cases ho : o = .zero
  · subst ho
    rw [if_pos rfl, maskLanes_eq_nil.2 rfl]
    exact ⟨id, fun g => (spreadFold_discarded w id (ranFor m .zero) g).symm⟩
  · rw [if_neg ho] at h ⊢
    obtain ⟨v, hv⟩ := zip_eq_map (nodup_maskLanes _) h
    exact ⟨v, fun g => by rw [hv, List.foldl_map]; rfl⟩

theorem issueAt_s (i : Instr) (s t : State) : (issueAt i s t).s = t := rfl
theorem issueAt_n (i : Instr) (s t : State) : (issueAt i s t).n = s.cur := rfl

/-- The machine after `n` values of `w` registers are drawn for the group in issue. -/
def State.drawn (s : State) (n w : Nat) : State :=
  ({ s with free := s.free + n } : State).modCore (s.coreOf s.cur) fun k => { k with noise := k.noise - 32 * w * n }

theorem State.drawn_sameGroups (s : State) (n w : Nat) : s.sameGroups (s.drawn n w) := ⟨rfl, rfl⟩

theorem State.drawn_launchOf (s : State) (n w k : Nat) : (s.drawn n w).launchOf k = s.launchOf k := rfl

/-- `RAND` that finds bits enough draws them, and writes a value in each lane. -/
theorem exec_rand_draws {s : State} {x : XForm} {n : Nat} (ha : s.admits (.rand x) = true)
    (hm : s.acting (.rand x) ≠ 0#32) (hlog : (s.launchOf s.cur).r.logMode = 0)
    (hok : (s.core (s.coreOf s.cur)).noiseFailed = false) (hn : n = maskCount (drawLanes (s.acting (.rand x)) x.a))
    (hbits : 32 * x.ty.regs * n ≤ (s.core (s.coreOf s.cur)).noise) :
    ∃ v, exec (.rand x) s = ((issueAt (.rand x) s (s.drawn n x.ty.regs)).spreadBy x.a x.ty.regs v).out := by
  subst hn
  let m := drawLanes (s.acting (.rand x)) x.a
  obtain ⟨vs, hvs, hlen⟩ := State.deliverVals_unlogged (s := s.drawn (maskCount m) x.ty.regs)
    ((congrArg (fun l : Launch => l.r.logMode) (State.drawn_launchOf ..)).trans hlog) 1 s.entry.pc
    (if x.a.isS then 0#32 else m) (4 * x.ty.regs)
    ((List.range (maskCount m)).map fun k => (Config.noiseBits (s.free + k)).toNat % 2 ^ (32 * x.ty.regs))
  rw [List.length_map, List.length_range] at hlen
  obtain ⟨v, hv⟩ := drawLanes_spread (s.acting (.rand x)) x.a x.ty.regs hlen
  change ∀ g : Group, ((maskLanes m).zip vs).foldl _ g = _ at hv
  refine ⟨v, ?_⟩
  have hreplay : ((s.launchOf s.cur).r.logMode == 2) = false := by rw [hlog]; rfl
  have henough : decide ((s.core (s.coreOf s.cur)).noise < 32 * x.ty.regs * maskCount m) = false :=
    decide_eq_false (Nat.not_lt.2 hbits)
  have hdraw : (if x.a = .zero then 0#32 else runLanes (issueAt (.rand x) s s).run x.a.isS) = m := rfl
  show execRand x s = _
  unfold execRand
  simp only [begin_of_open ha rfl]
  rw [if_neg (by rwa [issueAt_run]), if_neg, if_neg, if_neg]
  · split
    · next heq => cases heq.symm.trans hvs
    · next vals t heq =>
      obtain ⟨rfl, rfl⟩ : vals = vs ∧ t = s.drawn (maskCount m) x.ty.regs := LoggedVals.use.inj (heq.symm.trans hvs)
      rw [hdraw]
      simp only [hv]
      generalize s.drawn (maskCount m) x.ty.regs = t
      exact congrArg (fun j : Iss => (j.mod (spreadFold x.a x.ty.regs v (ranFor (s.acting (.rand x)) x.a))).out)
        (issueAt_issueAt _ s s t)
  · exact ne_true_of_eq_false hreplay
  · exact ne_true_of_eq_false ((congrArg _ henough).trans (Bool.and_false _))
  · exact ne_true_of_eq_false ((congrArg _ hok).trans (Bool.and_false _))

/-- Settles O31: the bits are drawn first, then written as an instruction writes its destination. -/
theorem randomBits : Obligations.RandomBits := by
  intro s x ha hm w n c hlog hok hbits
  have hn : n = maskCount (drawLanes (s.acting (.rand x)) x.a) := by
    unfold drawLanes
    split
    · next h0 => exact if_pos h0
    · next h0 => exact if_neg h0
  obtain ⟨v, he⟩ := exec_rand_draws ha hm hlog hok hn hbits
  have hg := s.drawn_sameGroups n w
  obtain ⟨u, hout, honly, hgoes, hsame, hflg, hregs⟩ :=
    spreadBy_runs ha rfl hg.2 (issueAt_overlay hg (.rand x)) rfl rfl x.a w v
  exact ⟨v, u, he.trans hout, honly, hgoes, hsame, hflg, hregs⟩

/-! ### Completions of I/O loads (08 R197; 15 R389) -/

/-- An outstanding I/O load of register 4 in lanes 0 and 1 whose mask names lane 0 alone. `LD` and `SLD` make no such
record: the statement asks nothing of how a record's mask and its registers go together. -/
def halfMasked : State :=
  { State.reset with ioReads := [(6, ⟨3, 1, 1, [(4, 0), (4, 1)], false, 1#32, 4, 4#3, 0, 0⟩)] }

/-- When it times out, the lanes of the mask are poisoned, and the register of lane 1 is not. -/
theorem halfMasked_timeout : ((halfMasked.endIo 6 true []).grp 3).vPoison 4 1 = false := by decide +kernel

/-- Refutes O43: a completion that failed poisons its registers in the lanes of the record's mask, which need not hold the
lanes that the record's registers name. -/
theorem not_errorsAndCompletions : ¬ Obligations.ErrorsAndCompletions := by
  rintro ⟨-, -, -, hio⟩
  obtain ⟨-, u, hout, -, -, -, -, hv, -⟩ := hio halfMasked 6 true [] _ rfl (by decide +kernel) (by decide)
  have hu : u = halfMasked.endIo 6 true [] := (Host.Outcome.next.inj hout).symm
  have hbad := (hv (by decide) 1 (4, 1) rfl).2
  rw [hu] at hbad
  exact Bool.noConfusion (halfMasked_timeout.symm.trans hbad)

end Sys2Proof.Machine


/-! PROOFS. The matrix instructions (06): how one begins with and without a lantern, what its lanes write, and what stays
as it was. -/

namespace Sys2Proof.Machine

open Sys2Proof

/-! ### The count of idle cycles (06 R139) -/

/-- The group whose count of cycles without a matrix instruction starts again. -/
def Group.busy (g : Group) : Group := { g with lanternIdle := 0 }

@[simp] theorem Group.busy_vreg (g : Group) (r l : Nat) : g.busy.vreg r l = g.vreg r l := rfl
@[simp] theorem Group.busy_mode (g : Group) : g.busy.mode = g.mode := rfl
@[simp] theorem Group.busy_nbv (g : Group) : g.busy.nbv = g.nbv := rfl

theorem Group.busy_unmarked {g : Group} (h : g.unmarked) : g.busy.unmarked := h

theorem busy_rowBits (g : Group) (r n l : Nat) : rowBits g.busy r n l = rowBits g r n l := by
  simp only [rowBits, Group.busy_vreg]

theorem busy_fragment (g : Group) (ty : Ty) (r l : Nat) (scales : Option (Nat × Nat)) :
    fragment g.busy ty r l scales = fragment g ty r l scales := by
  simp only [fragment, laneScales, busy_rowBits]

theorem busy_mulCols (g : Group) (x : XForm) (scaled : Bool) : mulCols g.busy x scaled = mulCols g x scaled := by
  simp only [mulCols, busy_fragment]

theorem busy_mulLane (g : Group) (x : XForm) (scaled int : Bool) (cols : List (List FVal × Bool)) (l : Nat) :
    mulLane g.busy x scaled int cols l = mulLane g x scaled int cols l := by
  simp only [mulLane, mulElem, mulAcc, busy_fragment, busy_rowBits, Group.busy_vreg, Group.busy_mode, Group.busy_nbv]

theorem busy_hadLane (g : Group) (x : XForm) (l : Nat) : hadLane g.busy x l = hadLane g x l := by
  simp only [hadLane, busy_rowBits]

theorem busy_qntLane (g : Group) (x : XForm) (l : Nat) : qntLane g.busy x l = qntLane g x l := by
  simp only [qntLane, Group.busy_vreg, Group.busy_mode]

theorem busy_dqntLane (g : Group) (x : XForm) (l : Nat) : dqntLane g.busy x l = dqntLane g x l := by
  simp only [dqntLane, busy_rowBits, Group.busy_vreg]

theorem busy_fragLane (g : Group) (x : XForm) (l : Nat) : fragLane g.busy x l = fragLane g x l := by
  simp only [fragLane, Group.busy_vreg]

/-! ### Poison marks -/

theorem unmarked_badRange {g : Group} (h : g.unmarked) (r n l : Nat) : badRange g r n l = none := by
  obtain ⟨hv, -⟩ := h
  simp [badRange, hv]

theorem unmarked_badAny {g : Group} (h : g.unmarked) (r n : Nat) : badAny g r n = none := by
  obtain ⟨hv, -⟩ := h
  simp [badAny, hv]

/-! ### What the lanes write -/

/-- One lane of vector registers takes the writes of a list, in its order. -/
def putWrites (l : Nat) (ws : List (Nat × Nat)) (g : Group) : Group :=
  ws.foldl (fun g w => g.setV w.1 l (BitVec.ofNat 32 w.2)) g

theorem putWrites_raiseFlags (l : Nat) (ws : List (Nat × Nat)) (f : Flags) (g : Group) :
    putWrites l ws (g.raiseFlags f) = (putWrites l ws g).raiseFlags f :=
  List.foldl_hom (fun g : Group => g.raiseFlags f) fun _ _ => rfl

theorem putWrites_same (l : Nat) (ws : List (Nat × Nat)) (g : Group) :
    sameRegs g (putWrites l ws g) = g ∧ (putWrites l ws g).flg = g.flg ∧
      ∀ r, (putWrites l ws g).sreg r = g.sreg r ∧ (putWrites l ws g).sPoison r = g.sPoison r :=
  foldl_keeps (fun h => sameRegs g h = g ∧ h.flg = g.flg ∧ ∀ r, h.sreg r = g.sreg r ∧ h.sPoison r = g.sPoison r)
    (fun g (w : Nat × Nat) => g.setV w.1 l (BitVec.ofNat 32 w.2)) (fun _ _ h => h) ws g ⟨rfl, rfl, fun _ => ⟨rfl, rfl⟩⟩

theorem putWrites_mode (l : Nat) (ws : List (Nat × Nat)) (g : Group) : (putWrites l ws g).mode = g.mode := by
  have hmode := congrArg Group.mode (putWrites_same l ws g).1
  exact hmode

theorem putWrites_cons (l : Nat) (w : Nat × Nat) (ws : List (Nat × Nat)) (g : Group) :
    putWrites l (w :: ws) g = putWrites l ws (g.setV w.1 l (BitVec.ofNat 32 w.2)) := rfl

theorem lastWrite_cons (w : Nat × Nat) (ws : List (Nat × Nat)) (r : Nat) :
    lastWrite (w :: ws) r = (lastWrite ws r).or (if w.1 = r then some w.2 else none) := by
  unfold lastWrite
  rw [List.reverse_cons, List.find?_append]
  cases ws.reverse.find? fun w => w.1 == r with
  | some v => rfl
  | none =>
    by_cases h : w.1 = r
    · simp only [List.find?_cons, h, beq_self_eq_true, Option.none_or, Option.map_some, Option.map_none, if_true]
    · simp only [List.find?_cons, List.find?_nil, beq_eq_false_iff_ne.2 h, Option.none_or, Option.map_none, if_neg h]

/-- A register of the lane takes the last value written to it. -/
theorem putWrites_vreg {l l' : Nat} (hl : l < 32) (hl' : l' < 32) (r : Nat) (ws : List (Nat × Nat)) : ∀ g : Group,
    (putWrites l ws g).vreg r l' =
      if l' = l then ((lastWrite ws r).map (BitVec.ofNat 32)).getD (g.vreg r l') else g.vreg r l' := by
  induction ws with
  | nil => exact fun _ => (ite_self _).symm
  | cons w ws ih =>
    intro g
    rw [putWrites_cons, ih, Group.setV_vreg _ _ _ _ _ _ hl hl', lastWrite_cons]
    by_cases hk : l' = l
    · simp only [hk, and_true, if_true]
      cases lastWrite ws r with
      | some v => rfl
      | none =>
        by_cases hr : w.1 = r
        · rw [if_pos hr.symm, if_pos hr]
          rfl
        · rw [if_neg (Ne.symm hr), if_neg hr]
          rfl
    · simp only [hk, and_false, if_false]

theorem putWrites_vPoison {l l' : Nat} (hl : l < 32) (hl' : l' < 32) (ws : List (Nat × Nat)) (r : Nat) (g : Group)
    (h : g.vPoison r l' = false) : (putWrites l ws g).vPoison r l' = false :=
  foldl_keeps (fun g => g.vPoison r l' = false) _
    (fun g w h => by rw [Group.setV_vPoison _ _ _ _ _ _ hl hl', h, ite_self]) ws g h

/-- The group after some lanes have raised their flags and taken their writes. -/
def putLanes (ws : Nat → List (Nat × Nat)) (fl : Nat → Flags) : List Nat → Group → Group :=
  laneFold (fun l => { flags := fl l }) fun l _ => putWrites l (ws l)

theorem putLanes_cons (ws : Nat → List (Nat × Nat)) (fl : Nat → Flags) (l : Nat) (ls : List Nat) (g : Group) :
    putLanes ws fl (l :: ls) g = putLanes ws fl ls (putWrites l (ws l) (g.raiseFlags (fl l))) := rfl

theorem putLanes_same (ws : Nat → List (Nat × Nat)) (fl : Nat → Flags) (ls : List Nat) (g : Group) :
    sameRegs g (putLanes ws fl ls g) = g :=
  laneFold_inv _ _ sameRegs (fun _ => rfl) (fun _ _ _ => sameRegs_trans) (fun _ _ => rfl)
    (fun l _ g => (putWrites_same l (ws l) g).1) ls g

theorem putLanes_flags (ws : Nat → List (Nat × Nat)) (fl : Nat → Flags) (ls : List Nat) (g : Group) :
    flagsRaised g (putLanes ws fl ls g) (flagsOf ls fl) :=
  laneFold_flags _ _ (fun l _ g => (putWrites_same l (ws l) g).2.1) ls g

theorem putLanes_scalars (ws : Nat → List (Nat × Nat)) (fl : Nat → Flags) (r : Nat) (ls : List Nat) : ∀ g : Group,
    (putLanes ws fl ls g).sreg r = g.sreg r ∧ (putLanes ws fl ls g).sPoison r = g.sPoison r := by
  induction ls with
  | nil => exact fun _ => ⟨rfl, rfl⟩
  | cons l ls ih =>
    intro g
    obtain ⟨-, -, hlane⟩ := putWrites_same l (ws l) (g.raiseFlags (fl l))
    obtain ⟨hreg, hpoison⟩ := ih (putWrites l (ws l) (g.raiseFlags (fl l)))
    exact ⟨hreg.trans (hlane r).1, hpoison.trans (hlane r).2⟩

theorem putLanes_vreg (ws : Nat → List (Nat × Nat)) (fl : Nat → Flags) {l : Nat} (hl : l < 32) (r : Nat) (ls : List Nat)
    (hls : ∀ k ∈ ls, k < 32) : ∀ g : Group, (putLanes ws fl ls g).vreg r l =
      if l ∈ ls then ((lastWrite (ws l) r).map (BitVec.ofNat 32)).getD (g.vreg r l) else g.vreg r l := by
  induction ls with
  | nil => exact fun _ => (if_neg List.not_mem_nil).symm
  | cons k ls ih =>
    intro g
    rw [putLanes_cons, ih fun j hj => hls j (List.mem_cons_of_mem _ hj),
      putWrites_vreg (hls k List.mem_cons_self) hl, Group.raiseFlags_vreg]
    by_cases hk : l = k
    · subst hk
      simp only [List.mem_cons, true_or, if_true]
      cases lastWrite (ws l) r with
      | some v => exact ite_self _
      | none => exact ite_self _
    · simp only [hk, List.mem_cons, false_or, if_false]

theorem putLanes_vPoison (ws : Nat → List (Nat × Nat)) (fl : Nat → Flags) {l : Nat} (hl : l < 32) (r : Nat)
    (ls : List Nat) (hls : ∀ k ∈ ls, k < 32) : ∀ g : Group, g.vPoison r l = false →
      (putLanes ws fl ls g).vPoison r l = false := by
  induction ls with
  | nil => exact fun _ h => h
  | cons k ls ih =>
    intro g h
    exact ih (fun j hj => hls j (List.mem_cons_of_mem _ hj)) _
      (putWrites_vPoison (hls k List.mem_cons_self) hl (ws k) r _ h)

/-! ### The run of the lanes -/

theorem Iss.mod_mod (j : Iss) (f h : Group → Group) : (j.mod f).mod h = j.mod fun g => h (f g) :=
  congrArg (fun t : State => { j with s := t }) (State.modGrp_modGrp _ _ _ _)

theorem foldl_unchanged {α β : Type} (a : α) (l : List β) : l.foldl (fun a _ => a) a = a :=
  foldl_keeps (· = a) (fun a _ => a) (fun _ _ h => h) l a rfl

/-- Where no lane reads a poisoned register, the lanes of a matrix instruction run as those of any other. -/
theorem matRun_eq_laneRun (j : Iss) {bad : Nat → Option Nat} (hbad : ∀ l, bad l = none)
    (f : Nat → List (Nat × Nat) × Flags) :
    j.matRun bad f = j.laneRun j.run false (fun _ => none) (fun l => { flags := (f l).2 }) false
      fun l _ => putWrites l (f l).1 := by
  have hlane : ∀ (j : Iss) (l : Nat),
      (j.mod fun g => (putWrites l (f l).1 g).raiseFlags (f l).2) =
        (j.mod fun g => g.raiseFlags (f l).2).mod (putWrites l (f l).1) := by
    intro j l
    rw [Iss.mod_mod]
    simp only [putWrites_raiseFlags]
  unfold Iss.matRun Iss.laneRun
  simp only [hbad, foldl_unchanged, Bool.false_eq_true, if_false, if_true, ← hlane]
  rfl

/-! ### The beginning -/

/-- What a matrix instruction writes in one lane, and its flags. -/
def State.matrixLane (s : State) (i : Instr) (l : Nat) : List (Nat × Nat) × Flags :=
  (matrixResult s i l).getD ([], 0#8)

/-- No matrix instruction closes an idempotent region (12 R306). -/
theorem matrixResult_open {s : State} {i : Instr} {l : Nat} {w : List (Nat × Nat) × Flags}
    (h : matrixResult s i l = some w) : closesRegion i.op.toNat = false := by
  cases i with
  | mzero | mma | mmas | mmai | had | qnt | dqnt | fragt => rfl
  | _ => cases h

theorem issueAt_mod (i : Instr) (s t : State) (f : Group → Group) :
    (issueAt i s t).mod f = issueAt i s (t.modGrp s.cur f) := issueAt_issueAt i s t _

theorem Iss.run_and {j : Iss} {m : Mask} (h : j.run = m) : { j with run := j.run &&& m } = j := by
  subst h
  rw [BitVec.and_self]

/-- With a lantern, or where none is in use, an instruction whose lanes fill octaves goes on. -/
theorem matBegin_lit {s : State} {i : Instr} (ha : s.admits i = true) (hr : closesRegion i.op.toNat = false)
    (hlit : s.fw.lanternsOn = true → s.me.lantern = true) (ho : fullOctaves (s.acting i) = s.acting i) (k : Iss → Out) :
    matBegin i s k = k (issueAt i s (s.modMe Group.busy)) := by
  have hdark : (i.wf && s.fw.lanternsOn && !s.me.lantern && (issueAt i s s).flts.all (·.2.cause == 0x06#8)) = false := by
    cases hon : s.fw.lanternsOn
    · simp
    · simp [hlit hon]
  have hpass : (issueAt i s s).act &&& guardMask (issueAt i s s).g i.guard = s.acting i := rfl
  have hpart : ∀ f, (issueAt i s s).fault (s.acting i &&& ~~~s.acting i) f = issueAt i s s := by
    intro f
    simp [Iss.fault]
  have hrun := Iss.run_and (issueAt_run i s s)
  unfold matBegin
  rw [begin_of_open ha hr]
  simp only [hdark, hpass, ho, hpart, hrun, Bool.false_eq_true, if_false]
  exact congrArg k (issueAt_mod i s s Group.busy)

theorem issueAt_busy_g (i : Instr) (s : State) : (issueAt i s (s.modMe Group.busy)).g = s.me.busy :=
  (State.modGrp_grp _ _ _ _).trans (if_pos rfl)

theorem fullOctaves_all : fullOctaves allLanes = allLanes := by decide

theorem matrixLanes_full {s : State} {i : Instr} (h : matrixLanes s i) : fullOctaves (s.acting i) = s.acting i := by
  cases i with
  | fragt x =>
    have hall : s.acting (.fragt x) = allLanes := h
    rw [hall]
    exact fullOctaves_all
  | _ => exact h

/-- The outcome is that of an instruction which begins as the matrix family does (06 R138, R139) and then, if no register
is poisoned and the lanes are those it needs, runs them with the writes and flags of `f`. -/
def State.matRuns (s : State) (i : Instr) (o : Out) (f : Nat → List (Nat × Nat) × Flags) : Prop :=
  ∃ k, o = matBegin i s k ∧ (s.me.unmarked → matrixLanes s i → ∃ bad, (∀ l, bad l = none) ∧
    k (issueAt i s (s.modMe Group.busy)) = ((issueAt i s (s.modMe Group.busy)).matRun bad f).out)

theorem execMzero_matRuns (s : State) (x : XForm) :
    s.matRuns (.mzero x) (execMzero x s) fun _ => (spread x.a.num (if x.ty = .f64 then 64 else 32) 0, 0#8) :=
  ⟨_, rfl, fun _ _ => ⟨_, fun _ => rfl, rfl⟩⟩

theorem mulRun_matRuns (s : State) (i : Instr) (x : XForm) (scaled int : Bool) :
    s.matRuns i (mulRun i x scaled int s) (mulLane s.me x scaled int (mulCols s.me x scaled)) := by
  have hlane : mulLane s.me.busy x scaled int (mulCols s.me.busy x scaled) =
      mulLane s.me x scaled int (mulCols s.me x scaled) := by
    rw [busy_mulCols]
    exact funext (busy_mulLane s.me x scaled int _)
  refine ⟨_, rfl, fun hu _ => ⟨fun _ => none, fun _ => rfl, ?_⟩⟩
  have hrange := unmarked_badRange (Group.busy_unmarked hu)
  have hany := unmarked_badAny (Group.busy_unmarked hu)
  simp only [issueAt_busy_g, hlane, hrange, hany, ite_self, Option.or_none]

theorem execHad_matRuns (s : State) (x : XForm) : s.matRuns (.had x) (execHad x s) (hadLane s.me x) := by
  refine ⟨_, rfl, fun hu _ => ⟨_, unmarked_badRange hu x.b.num 16, ?_⟩⟩
  simp only [issueAt_busy_g, funext (busy_hadLane s.me x)]
  rfl

theorem execQnt_matRuns (s : State) (x : XForm) : s.matRuns (.qnt x) (execQnt x s) (qntLane s.me x) := by
  refine ⟨_, rfl, fun hu _ => ⟨fun _ => none, fun _ => rfl, ?_⟩⟩
  have hrange := unmarked_badRange (Group.busy_unmarked hu)
  simp only [issueAt_busy_g, funext (busy_qntLane s.me x), hrange, Option.or_none]

theorem execDqnt_matRuns (s : State) (x : XForm) : s.matRuns (.dqnt x) (execDqnt x s) (dqntLane s.me x) := by
  refine ⟨_, rfl, fun hu _ => ⟨fun _ => none, fun _ => rfl, ?_⟩⟩
  have hrange := unmarked_badRange (Group.busy_unmarked hu)
  simp only [issueAt_busy_g, funext (busy_dqntLane s.me x), hrange, Option.or_none]

theorem execFragt_matRuns (s : State) (x : XForm) : s.matRuns (.fragt x) (execFragt x s) (fragLane s.me x) := by
  refine ⟨_, rfl, fun hu hall => ⟨fun _ => none, fun _ => rfl, ?_⟩⟩
  have hpass : (issueAt (.fragt x) s (s.modMe Group.busy)).act &&& guardMask s.me.busy x.guard = allLanes := hall
  have hany := unmarked_badAny (Group.busy_unmarked hu)
  simp only [issueAt_busy_g, funext (busy_fragLane s.me x), hpass, hany, ne_eq, not_true, if_false]

/-- Every matrix instruction begins as the family does and runs its lanes. -/
theorem exec_matRuns {s : State} {i : Instr} {l : Nat} {w : List (Nat × Nat) × Flags}
    (hw : matrixResult s i l = some w) : s.matRuns i (exec i s) (s.matrixLane i) := by
  cases i with
  | mzero x => exact execMzero_matRuns s x
  | mma x => exact mulRun_matRuns s (.mma x) x false false
  | mmas x => exact mulRun_matRuns s (.mmas x) x true false
  | mmai x => exact mulRun_matRuns s (.mmai x) x false true
  | had x => exact execHad_matRuns s x
  | qnt x => exact execQnt_matRuns s x
  | dqnt x => exact execDqnt_matRuns s x
  | fragt x => exact execFragt_matRuns s x
  | _ => cases hw

/-! ### With a lantern, to the end -/

/-- A matrix instruction that may issue and reads no poisoned register ends with its lanes' writes in the group. -/
theorem matrix_ends {s : State} {i : Instr} {ws : Nat → List (Nat × Nat)} {fl : Nat → Flags}
    (ha : s.admits i = true) (hu : s.me.unmarked) (hlit : s.fw.lanternsOn = true → s.me.lantern = true)
    (hl : matrixLanes s i) (hw : ∀ l, matrixResult s i l = some (ws l, fl l)) :
    ∃ u, exec i s = .next (u.settle s.cur) ∧ onlyGroup s u ∧ goesOn s i u ∧
      u.me = sameIssue u.me (putLanes ws fl (maskLanes (s.acting i)) s.me.busy) := by
  have hlane : s.matrixLane i = fun l => (ws l, fl l) := funext fun l => by rw [State.matrixLane, hw l]; rfl
  obtain ⟨k, he, hk⟩ := exec_matRuns (hw 0)
  obtain ⟨bad, hbad, hrun⟩ := hk hu hl
  rw [matBegin_lit ha (matrixResult_open (hw 0)) hlit (matrixLanes_full hl), hrun, matRun_eq_laneRun _ hbad, hlane] at he
  obtain ⟨hover, -⟩ := Iss.over_mod (issueAt_overlay s.sameGroups_refl i) Group.busy
  rw [issueAt_mod] at hover
  obtain ⟨t, hlanes, hover⟩ := laneRun_over (s.acting i) false (fun _ => none) (fun l => { flags := fl l }) false
    (fun l _ => putWrites l (ws l)) s.me.mode (fun l _ g => putWrites_mode l (ws l) g) (fun _ _ => rfl) nofun
    hover (Group.busy_mode _)
  rw [issueAt_issueAt] at hlanes
  have hsame := putLanes_same ws fl (maskLanes (s.acting i)) s.me.busy
  have hfrontier := congrArg Group.frontier hsame
  have hsubs := congrArg Group.subs hsame
  obtain ⟨u, hout, honly, hissue, hgoes⟩ := out_runsTo ha hlanes rfl hover hfrontier hsubs
  exact ⟨u, he.trans hout, honly, hgoes, eq_sameIssue hissue⟩

/-- Where a group has ended as `h` but for what every issue moves, and `h` differs from `g` in registers and flags alone,
so does the group. -/
theorem frame_of_sameIssue {g h u : Group} (hu : u = sameIssue u h) (hs : sameRegs g h = g) :
    sameIssue g (sameRegs g u) = g :=
  calc sameIssue g (sameRegs g u) = sameIssue g (sameRegs g (sameIssue u h)) := by rw [← hu]
    _ = sameIssue g (sameRegs g h) := rfl
    _ = g := by rw [hs, sameIssue_self]

/-- Where registers and flags alone differ from the busy group, they and the count of idle cycles differ from it. -/
theorem frame_of_busy {g u : Group} (h : sameIssue g.busy (sameRegs g.busy u) = g.busy) :
    sameIssue g { sameRegs g u with lanternIdle := g.lanternIdle } = g ∧ u.lanternIdle = 0 :=
  ⟨congrArg (fun k : Group => { k with lanternIdle := g.lanternIdle }) h, congrArg Group.lanternIdle h⟩

/-- Such an instruction leaves the registers that it writes, its flags and the count of idle cycles, and changes nothing
else. -/
theorem matrix_completes {s : State} {i : Instr} {ws : Nat → List (Nat × Nat)} {fl : Nat → Flags}
    (ha : s.admits i = true) (hu : s.me.unmarked) (hlit : s.fw.lanternsOn = true → s.me.lantern = true)
    (hl : matrixLanes s i) (hw : ∀ l, matrixResult s i l = some (ws l, fl l)) :
    s.completes i fun u => onlyGroup s u ∧ goesOn s i u ∧
      sameIssue s.me { sameRegs s.me u.me with lanternIdle := s.me.lanternIdle } = s.me ∧ u.me.lanternIdle = 0 ∧
      (∀ r l, l < 32 → u.me.vreg r l =
        if (s.acting i).getLsbD l then ((lastWrite (ws l) r).map (BitVec.ofNat 32)).getD (s.me.vreg r l)
        else s.me.vreg r l) ∧
      (∀ r l, l < 32 → u.me.vPoison r l = false) ∧ (∀ r, u.me.sreg r = s.me.sreg r ∧ u.me.sPoison r = false) ∧
      flagsRaised s.me u.me (flagsOf (maskLanes (s.acting i)) fl) := by
  obtain ⟨u, hout, honly, hgoes, hme⟩ := matrix_ends ha hu hlit hl hw
  obtain ⟨hv, hs⟩ := hu
  have hls : ∀ k ∈ maskLanes (s.acting i), k < 32 := fun k hk => (mem_maskLanes.1 hk).1
  have hsame := putLanes_same ws fl (maskLanes (s.acting i)) s.me.busy
  obtain ⟨hframe, hidle⟩ := frame_of_busy (frame_of_sameIssue hme hsame)
  refine ⟨u, hout, honly, hgoes, hframe, hidle, fun r l hl => ?_, fun r l hl => ?_, fun r => ?_, ?_⟩ <;> rw [hme]
  · refine (putLanes_vreg ws fl hl r _ hls s.me.busy).trans ?_
    simp only [mem_maskLanes, hl, true_and, Group.busy_vreg]
  · exact putLanes_vPoison ws fl hl r _ hls s.me.busy (hv r l)
  · obtain ⟨hreg, hpoison⟩ := putLanes_scalars ws fl r (maskLanes (s.acting i)) s.me.busy
    exact ⟨hreg, hpoison.trans (hs r)⟩
  · exact putLanes_flags ws fl _ s.me.busy

/-! ### Without a lantern -/

/-- The machine once the group in issue has asked for a lantern, under the next new number (12 R293). -/
def State.asked (s : State) : State :=
  { s.modMe (fun g => { g with lanternAsk := s.serial }) with serial := s.serial + 1 }

/-- Where lanterns are in use, a matrix instruction of a group without one parks it and does nothing else. -/
theorem matBegin_dark {s : State} {i : Instr} (ha : s.admits i = true) (hr : closesRegion i.op.toNat = false)
    (hon : s.fw.lanternsOn = true) (hno : s.me.lantern = false) (k : Iss → Out) :
    matBegin i s k = .next ((issueAt i s s).parked .lantern s.asked) := by
  unfold matBegin
  rw [begin_of_open ha hr, if_pos]
  · rfl
  · rw [admits_wf ha, hon, hno]
    rfl

/-- The group parked for a lantern that it asks for under a number, its instruction to issue again. -/
def Group.asks (g : Group) (ask : Nat) (t : BitVec 64) (pc : VAddr) (op : BitVec 8) (prio : Prio) : Group :=
  (({ g with lanternAsk := ask } : Group).setPark (some .lantern)).waitsAt t pc op pc prio

theorem asks_frame (g : Group) (ask : Nat) (t : BitVec 64) (pc : VAddr) (op : BitVec 8) (prio : Prio) :
    let u := g.asks ask t pc op prio
    u.curPark = some .lantern ∧ u.lanternAsk = ask ∧ u.frontier = g.frontier ∧ u.v = g.v ∧ u.flg = g.flg := by
  cases h : g.trap <;> simp [Group.asks, Group.setPark, Group.waitsAt, Group.curPark, h]

/-- Parking for a lantern changes the group in issue alone, and takes the new number. -/
theorem parked_asked (s : State) (i : Instr) : (issueAt i s s).parked .lantern s.asked =
    ({ s with serial := s.serial + 1 } : State).setGrp s.cur
      (s.me.asks s.serial s.time s.entry.pc i.op s.entry.prio) :=
  State.modGrp_setGrp { s with serial := s.serial + 1 } s.cur { s.me with lanternAsk := s.serial } _

/-- A group without a lantern, where lanterns are in use, parks for one with none of the instruction's effect. -/
theorem matrix_parks {s : State} {i : Instr} {l : Nat} {w : List (Nat × Nat) × Flags} (ha : s.admits i = true)
    (hon : s.fw.lanternsOn = true) (hno : s.me.lantern = false) (hw : matrixResult s i l = some w) :
    ∃ t, exec i s = .next t ∧ onlyGroup s t ∧ t.me.curPark = some .lantern ∧ t.me.lanternAsk = s.serial ∧
      t.serial = s.serial + 1 ∧ t.me.frontier = s.me.frontier ∧ t.me.v = s.me.v ∧ t.me.flg = s.me.flg := by
  obtain ⟨k, he, -⟩ := exec_matRuns hw
  rw [matBegin_dark ha (matrixResult_open hw) hon hno, parked_asked] at he
  have hme : (({ s with serial := s.serial + 1 } : State).setGrp s.cur
      (s.me.asks s.serial s.time s.entry.pc i.op s.entry.prio)).me =
      s.me.asks s.serial s.time s.entry.pc i.op s.entry.prio := (State.setGrp_grp _ _ _ _).trans (if_pos rfl)
  obtain ⟨hpark, hask, hfrontier, hv, hflg⟩ := asks_frame s.me s.serial s.time s.entry.pc i.op s.entry.prio
  refine ⟨_, he, ⟨rfl, fun n hn => (State.setGrp_grp _ _ _ _).trans (if_neg hn)⟩, ?_⟩
  rw [hme]
  exact ⟨hpark, hask, rfl, hfrontier, hv, hflg⟩

/-- Settles O4: with a lantern the lanes run to the end, without one the group parks. -/
theorem matrixInstructions : Obligations.MatrixInstructions :=
  ⟨fun _ _ _ _ ha hu hlit hl hw => matrix_completes ha hu hlit hl hw,
    fun _ _ _ ha hon hno hw => matrix_parks ha hon hno hw⟩

end Sys2Proof.Machine


/-! PROOFS. Refinement runs (07): bytes that the controller writes into a scratchpad, what leaves the runs of the teams and
the holders of the controllers alone, and how a run starts, calls and ends. -/

namespace Sys2Proof.Machine

open Sys2Proof

/-! ### Bytes under a clear mark (14 R353) -/

theorem toBytes_length : ∀ n x : Nat, (toBytes n x).length = n
  | 0, _ => rfl
  | n + 1, x => congrArg (· + 1) (toBytes_length n (x / 256))

theorem ofBytes_toBytes : ∀ n x : Nat, ofBytes (toBytes n x) = x % 256 ^ n
  | 0, x => (Nat.mod_one x).symm
  | n + 1, x => by
    rw [toBytes, ofBytes, ofBytes_toBytes n, Nat.pow_succ', Nat.mod_mul, BitVec.toNat_ofNat]

theorem Sp.get?_filterKey {α : Type} (p : Nat → Bool) (m : Sp α) (y : Nat) :
    Sp.get? (m.filter fun kv => p kv.1) y = if p y then Sp.get? m y else none := by
  induction m with
  | nil => simp [Sp.get?]
  | cons q r ih =>
    obtain ⟨k, v⟩ := q
    by_cases hk : k = y
    · subst hk
      cases hp : p k <;> simp [Sp.get?, hp, ih]
    · cases hp : p k <;> simp [Sp.get?, hp, hk, ih]

theorem Sp.get_cut {α : Type} (d : α) (m : Sp α) (lo n y : Nat) :
    Sp.get d (Sp.cut m lo n) y = if lo ≤ y ∧ y < lo + n then d else Sp.get d m y := by
  unfold Sp.get Sp.cut
  rw [Sp.get?_filterKey (fun k => !(decide (lo ≤ k) && decide (k < lo + n)))]
  by_cases h : lo ≤ y ∧ y < lo + n
  · simp [h]
  · rw [if_neg h, if_pos]
    simp only [Bool.not_eq_true', Bool.and_eq_false_iff, decide_eq_false_iff_not]
    omega

/-- Cutting whole units out of a map leaves their bytes at zero and the others alone. -/
theorem cutUnits_get {unit : Nat} (hu : 0 < unit) (y : Nat) (us : List Nat) : ∀ m : Sp Byte,
    Sp.get 0#8 (us.foldl (fun m u => Sp.cut m (u * unit) unit) m) y = if y / unit ∈ us then 0#8 else Sp.get 0#8 m y := by
  induction us with
  | nil => exact fun _ => rfl
  | cons u r ih =>
    intro m
    have hin : u * unit ≤ y ∧ y < u * unit + unit ↔ y / unit = u := by
      rw [Nat.div_eq_iff hu]
      omega
    rw [List.foldl_cons, ih, Sp.get_cut]
    by_cases hr : y / unit ∈ r
    · simp [hr]
    · simp [hr, hin]

theorem setUnits_get (v : Nat) (us : List Nat) : ∀ f : Sp Bool,
    Sp.get false (us.foldl (fun f u => Sp.set false f u true) f) v = (decide (v ∈ us) || Sp.get false f v) := by
  induction us with
  | nil => exact fun _ => rfl
  | cons u r ih =>
    intro f
    rw [List.foldl_cons, ih, Sp.get_set]
    by_cases hv : v = u <;> simp [hv]

theorem unitsOf_covers {unit x n y : Nat} (h : x ≤ y) (h' : y < x + n) : y / unit ∈ unitsOf unit x n := by
  have hlo : x / unit ≤ y / unit := Nat.div_le_div_right h
  have hhi : y / unit ≤ (x + n - 1) / unit := Nat.div_le_div_right (by omega)
  rw [unitsOf, if_neg (by omega)]
  exact List.mem_map.2 ⟨y / unit - x / unit, List.mem_range.2 (by omega), by omega⟩

/-- The byte that a read finds at an address: zero while its unit has not been filled. -/
def clearByte (filled : Sp Bool) (unit : Nat) (m : Sp Byte) (y : Nat) : Byte :=
  if Sp.get false filled (y / unit) then Sp.get 0#8 m y else 0#8

theorem clearRead_eq (filled : Sp Bool) (unit : Nat) (m : Sp Byte) (x n : Nat) :
    clearRead filled unit m x n = (List.range n).map fun i => clearByte filled unit m (x + i) := rfl

/-- After a write a read finds what was written there, and elsewhere what it found before: the units that the write
fills read as zero before it and after it. -/
theorem clearFill_byte {unit : Nat} (hu : 0 < unit) (filled : Sp Bool) (m : Sp Byte) (x : Nat) (bs : List Byte) (y : Nat) :
    clearByte (clearFill filled unit m x bs).2 unit (clearFill filled unit m x bs).1 y =
      if x ≤ y ∧ y < x + bs.length then bs.getD (y - x) 0#8 else clearByte filled unit m y := by
  simp only [clearByte, clearFill, setUnits_get, List.mem_filter]
  by_cases h : x ≤ y ∧ y < x + bs.length
  · obtain ⟨hlo, hhi⟩ := h
    rw [Sp.get_write_in _ _ _ _ _ hlo hhi]
    cases hf : Sp.get false filled (y / unit) <;> simp [unitsOf_covers hlo hhi, hlo, hhi]
  · rw [Sp.get_write_out _ _ _ _ _ (by omega), cutUnits_get hu, if_neg h]
    cases hf : Sp.get false filled (y / unit)
    · by_cases hin : y / unit ∈ unitsOf unit x bs.length <;> simp [hf, hin]
    · simp [hf]

theorem Team.scrBytes_scrWrite_same (t : Team) (off : Nat) (bs : List Byte) (bad : Bool) :
    (t.scrWrite off bs bad).scrBytes off bs.length = bs := by
  refine List.ext_getElem (by simp [Team.scrBytes, clearRead_eq]) fun i hi hi' => ?_
  simp [Team.scrBytes, Team.scrWrite, clearRead_eq, clearFill_byte, hi']

theorem Team.scrBytes_scrWrite_apart (t : Team) {off x n : Nat} {bs : List Byte} (bad : Bool)
    (h : x + n ≤ off ∨ off + bs.length ≤ x) : (t.scrWrite off bs bad).scrBytes x n = t.scrBytes x n := by
  refine List.map_congr_left fun i hi => ?_
  have hi := List.mem_range.1 hi
  exact (clearFill_byte (by decide) _ _ _ _ _).trans (if_neg (by omega))

@[simp] theorem Team.scrWrite_run (t : Team) (off : Nat) (bs : List Byte) (bad : Bool) :
    (t.scrWrite off bs bad).run = t.run := rfl

/-! ### What leaves runs and controllers alone -/

/-- Two states of a team with the same run and the same scratchpad bytes. -/
structure Team.sameRun (t u : Team) : Prop where
  run : u.run = t.run
  scratch : u.scratch = t.scratch
  filled : u.scrFilled = t.scrFilled

theorem Team.sameRun.trans {t u v : Team} (h : t.sameRun u) (k : u.sameRun v) : t.sameRun v :=
  ⟨k.run.trans h.run, k.scratch.trans h.scratch, k.filled.trans h.filled⟩

theorem Team.sameRun.scrBytes {t u : Team} (h : t.sameRun u) (off n : Nat) : u.scrBytes off n = t.scrBytes off n := by
  unfold Team.scrBytes
  rw [h.scratch, h.filled]

/-- `t` holds the runs and the scratchpads of `s`. -/
def State.sameRuns (s t : State) : Prop := ∀ n, (s.team n).sameRun (t.team n)

theorem State.sameRuns_refl (s : State) : s.sameRuns s := fun _ => ⟨rfl, rfl, rfl⟩

theorem State.sameRuns.trans {s t u : State} (h : s.sameRuns t) (k : t.sameRuns u) : s.sameRuns u :=
  fun n => (h n).trans (k n)

/-- `t` holds the runs and the scratchpads of `s`, and each controller is held as in `s`. -/
structure State.sameRefine (s t : State) : Prop where
  runs : s.sameRuns t
  holder : ∀ c, (t.core c).rlHolder = (s.core c).rlHolder

theorem State.sameRefine_refl (s : State) : s.sameRefine s := ⟨s.sameRuns_refl, fun _ => rfl⟩

theorem sameRefine_of {s t u : State} (h : s.sameRefine t) (ht : u.teams = t.teams) (hc : u.cores = t.cores) :
    s.sameRefine u where
  runs n := by
    have e : u.team n = t.team n := by unfold State.team; rw [ht]
    rw [e]
    exact h.runs n
  holder c := by
    have e : u.core c = t.core c := by unfold State.core; rw [hc]
    rw [e]
    exact h.holder c

theorem sameRefine_ite {p : Prop} [Decidable p] {s t u : State} (ht : s.sameRefine t) (hu : s.sameRefine u) :
    s.sameRefine (if p then t else u) := by
  split
  · exact ht
  · exact hu

theorem State.modTeam_sameRuns {s t : State} (h : s.sameRuns t) (n : Nat) {f : Team → Team}
    (hf : ∀ u : Team, u.sameRun (f u)) : s.sameRuns (t.modTeam n f) := fun m => by
  rw [State.modTeam_team]
  split
  · next hm =>
    subst hm
    exact (h m).trans (hf _)
  · exact h m

theorem State.modTeam_sameRefine {s t : State} (h : s.sameRefine t) (n : Nat) {f : Team → Team}
    (hf : ∀ u : Team, u.sameRun (f u)) : s.sameRefine (t.modTeam n f) := ⟨State.modTeam_sameRuns h.runs n hf, h.holder⟩

theorem State.modCore_sameRefine {s t : State} (h : s.sameRefine t) (n : Nat) {f : Core → Core}
    (hf : ∀ k, (f k).rlHolder = k.rlHolder) : s.sameRefine (t.modCore n f) where
  runs := h.runs
  holder c := by
    rw [State.modCore_core]
    split
    · next hc =>
      subst hc
      exact (hf _).trans (h.holder c)
    · exact h.holder c

theorem State.modGrp_sameRefine {s t : State} (h : s.sameRefine t) (n : Nat) (f : Group → Group) :
    s.sameRefine (t.modGrp n f) := sameRefine_of h rfl rfl

theorem State.modLaunch_sameRefine {s t : State} (h : s.sameRefine t) (n : Nat) (f : Launch → Launch) :
    s.sameRefine (t.modLaunch n f) := sameRefine_of h rfl rfl

theorem State.modRead_sameRefine {s t : State} (h : s.sameRefine t) (n : Nat) (f : BulkRead → BulkRead) :
    s.sameRefine (t.modRead n f) := sameRefine_of h rfl rfl

theorem State.modPart_sameRefine {s t : State} (h : s.sameRefine t) (n : Nat) (f : Partition → Partition) :
    s.sameRefine (t.modPart n f) := sameRefine_of h rfl rfl

theorem State.modStream_sameRefine {s t : State} (h : s.sameRefine t) (n : Nat) (f : Stream → Stream) :
    s.sameRefine (t.modStream n f) := sameRefine_of h rfl rfl

theorem State.modInst_sameRefine {s t : State} (h : s.sameRefine t) (n : Nat) (f : Inst → Inst) :
    s.sameRefine (t.modInst n f) := sameRefine_of h rfl rfl

/-! ### Memory and the device's own accesses leave them alone -/

theorem State.putBytes_sameRefine {s : State} (bs : List Byte) : ∀ {t : State} (pa : Nat), s.sameRefine t →
    s.sameRefine (t.putBytes pa bs) := by
  induction bs with
  | nil => exact fun _ h => h
  | cons b r ih =>
    intro t pa h
    exact ih (t := { t with mem := Sp.set 0#8 t.mem pa (b ^^^ t.garbleAt pa) }) _ (sameRefine_of h rfl rfl)

theorem State.commitBytes_sameRefine {s t : State} (h : s.sameRefine t) (pa : Nat) (bs : List Byte) :
    s.sameRefine (t.commitBytes pa bs) := sameRefine_of (State.putBytes_sameRefine bs pa h) rfl rfl

theorem State.mergeCore_sameRefine {s t : State} (h : s.sameRefine t) (c : Nat) (sel : Upd → Bool) :
    s.sameRefine (t.mergeCore c sel) :=
  foldl_keeps s.sameRefine _ (fun _ _ h => sameRefine_ite h (State.commitBytes_sameRefine h _ _)) _ _
    (State.modCore_sameRefine h c fun _ => rfl)

theorem State.choose_sameRefine {s t : State} (h : s.sameRefine t) (n : Nat) : s.sameRefine (t.choose n).2 := by
  unfold State.choose
  split
  · exact h
  · exact sameRefine_of h rfl rfl

theorem State.recall_sameRefine {s t : State} (h : s.sameRefine t) (line : Nat) : s.sameRefine (t.recall line) := by
  unfold State.recall
  split
  · exact h
  · exact State.mergeCore_sameRefine h _ _
  · exact foldl_keeps s.sameRefine _ (fun _ _ h => State.mergeCore_sameRefine h _ _) _ _ (State.choose_sameRefine h _)

theorem State.recallRange_sameRefine {s t : State} (h : s.sameRefine t) (asid va n : Nat) :
    s.sameRefine (t.recallRange asid va n) := by
  refine sameRefine_ite h (foldl_keeps s.sameRefine _ (fun t l h => ?_) _ _ h)
  split
  · exact State.recall_sameRefine h _
  · exact h

theorem State.markPages_sameRefine {s t : State} (h : s.sameRefine t) (asid va n : Nat) (w : Bool) :
    s.sameRefine (t.markPages asid va n w) := by
  refine foldl_keeps s.sameRefine _ (fun t p h => ?_) _ _ h
  dsimp only
  split
  · exact sameRefine_ite h (State.commitBytes_sameRefine h _ _)
  · exact h

theorem State.deviceWrite_sameRefine {s t : State} (h : s.sameRefine t) (asid va : Nat) (bs : List Byte) :
    s.sameRefine (t.deviceWrite asid va bs) := by
  refine foldl_keeps s.sameRefine _ (fun t p h => ?_) _ _
    (State.markPages_sameRefine (State.recallRange_sameRefine h _ _ _) _ _ _ _)
  split
  · exact State.commitBytes_sameRefine h _ _
  · exact h

theorem State.trace_sameRefine {s t : State} (h : s.sameRefine t) (tn gid kind data : Nat) :
    s.sameRefine (t.trace tn gid kind data) := by
  unfold State.trace
  exact sameRefine_ite h (State.modPart_sameRefine (State.deviceWrite_sameRefine h _ _ _) _ _)

theorem State.poisonLine_sameRefine {s t : State} (h : s.sameRefine t) (line : Nat) : s.sameRefine (t.poisonLine line) :=
  sameRefine_of h rfl rfl

theorem State.commitCore_sameRefine {s t : State} (h : s.sameRefine t) (c : Nat) : s.sameRefine (t.commitCore c) := by
  unfold State.commitCore
  refine State.modCore_sameRefine ?_ c fun _ => rfl
  refine foldl_keeps s.sameRefine _ (fun _ _ h => State.poisonLine_sameRefine h _) _ _ ?_
  refine foldl_keeps s.sameRefine _ (fun u l h => ?_) _ _ h
  have k : s.sameRefine (List.foldl (fun u kv => u.putBytes kv.1 [u.missByte c kv.1]) (u.countHome l)
      (Sp.slice ((t.core c).overlay.filter fun kv => !t.isOwned (lineOf kv.1)) (128 * l) 128)) :=
    foldl_keeps s.sameRefine _ (fun _ _ h => State.putBytes_sameRefine _ _ h) _ _ (sameRefine_of h rfl rfl)
  exact sameRefine_ite (sameRefine_of k rfl rfl) k

theorem State.boundary_sameRefine {s t : State} (h : s.sameRefine t) (c : Nat) : s.sameRefine (t.boundary c) := by
  unfold State.boundary State.refresh
  exact State.modCore_sameRefine (State.commitCore_sameRefine h c) c fun _ => rfl

/-! ### What follows a change to a group leaves them alone -/

theorem State.noteCause_sameRefine {s t : State} (h : s.sameRefine t) (n : Nat) (c : BitVec 8) :
    s.sameRefine (t.noteCause n c) := by
  unfold State.noteCause
  dsimp only
  split
  · exact State.modGrp_sameRefine h _ _
  · exact State.modRead_sameRefine (State.modGrp_sameRefine h _ _) _ _

theorem State.enterTrap_sameRefine {s t : State} (h : s.sameRefine t) (n : Nat) : s.sameRefine (t.enterTrap n) := by
  unfold State.enterTrap
  refine sameRefine_ite h ?_
  split
  · exact h
  · exact State.trace_sameRefine (State.modLaunch_sameRefine
      (State.noteCause_sameRefine (State.modGrp_sameRefine h _ _) _ _) _ _) _ _ _ _

theorem State.trapDone_sameRefine {s t : State} (h : s.sameRefine t) (n : Nat) : s.sameRefine (t.trapDone n) :=
  sameRefine_ite (State.enterTrap_sameRefine (State.modGrp_sameRefine h _ _) _) h

theorem State.drainGroup_sameRefine {s t : State} (h : s.sameRefine t) (n : Nat) : s.sameRefine (t.drainGroup n) :=
  sameRefine_ite (State.modGrp_sameRefine h _ _) h

theorem State.endRead_sameRefine {s t : State} (h : s.sameRefine t) (rn : Nat) : s.sameRefine (t.endRead rn) := by
  refine sameRefine_ite (State.drainGroup_sameRefine (sameRefine_of (t := t) h ?_ ?_) _) h
  all_goals split <;> rfl

theorem State.retireHandler_sameRefine {s t : State} (h : s.sameRefine t) (n : Nat) :
    s.sameRefine (t.retireHandler n) := by
  unfold State.retireHandler
  dsimp only
  split
  · exact h
  · refine State.endRead_sameRefine (State.modRead_sameRefine
      (State.modTeam_sameRefine (State.modGrp_sameRefine h _ _) _ fun _ => ?_) _ _) _
    exact ⟨rfl, rfl, rfl⟩

theorem State.endGroup_sameRefine {s t : State} (h : s.sameRefine t) (n : Nat) : s.sameRefine (t.endGroup n) := by
  have drained : ∀ {u : State}, s.sameRefine u → s.sameRefine (if (u.grp n).gid < 32 then u.drainGroup n
      else if (u.grp n).draining && (u.grp n).outstanding == 0 then u.retireHandler n else u) := fun k =>
    sameRefine_ite (State.drainGroup_sameRefine k _) (sameRefine_ite (State.retireHandler_sameRefine k _) k)
  unfold State.endGroup
  exact drained (sameRefine_ite (State.modGrp_sameRefine h _ _) h)

theorem State.settleGroup_sameRefine {s t : State} (h : s.sameRefine t) (n : Nat) : s.sameRefine (t.settleGroup n) :=
  State.endGroup_sameRefine (State.modGrp_sameRefine (State.trapDone_sameRefine (State.modGrp_sameRefine h _ _) _) _ _) _

/-- Groups that change and settle one after the other. -/
theorem State.settleGroups_sameRefine (s : State) (f : Nat → Group → Group) (ns : List Nat) :
    s.sameRefine (ns.foldl (fun s n => (s.modGrp n (f n)).settleGroup n) s) :=
  foldl_keeps s.sameRefine _ (fun _ _ h => State.settleGroup_sameRefine (State.modGrp_sameRefine h _ _) _) _ _
    s.sameRefine_refl

/-! ### What follows a change to a team leaves its run alone -/

theorem State.turnBars_sameRefine {s t : State} (h : s.sameRefine t) (tn : Nat) : s.sameRefine (t.turnBars tn) := by
  unfold State.turnBars
  exact State.modTeam_sameRefine h _ fun _ => ⟨rfl, rfl, rfl⟩

theorem State.cbarTeam_sameRefine {s t : State} (h : s.sameRefine t) (tn : Nat) : s.sameRefine (t.cbarTeam tn) :=
  sameRefine_ite (sameRefine_of (State.boundary_sameRefine h _) rfl rfl) h

theorem State.turnCluster_sameRefine {s t : State} (h : s.sameRefine t) (tn : Nat) : s.sameRefine (t.turnCluster tn) := by
  have k := foldl_keeps s.sameRefine (fun (t : State) (kv : Nat × Team) => t.cbarTeam kv.1)
    (fun _ _ h => State.cbarTeam_sameRefine h _) (t.siblings (t.team tn)) _ h
  refine sameRefine_ite (foldl_keeps s.sameRefine _ (fun _ _ h => ?_) _ _ (sameRefine_of k rfl rfl)) k
  exact State.modTeam_sameRefine h _ fun _ => ⟨rfl, rfl, rfl⟩

theorem State.takeSlot_sameRefine {s t u : State} (h : s.sameRefine t) {inst launch i : Nat} {out : Bool}
    (hu : t.takeSlot inst launch out = some (i, u)) : s.sameRefine u := by
  unfold State.takeSlot at hu
  dsimp only at hu
  split at hu
  · cases hu
    exact h
  · split at hu
    · cases hu
    · cases hu
      exact State.modStream_sameRefine h _ _

theorem State.wakeRings_sameRefine {s t : State} (h : s.sameRefine t) (stream : Nat) :
    s.sameRefine (t.wakeRings stream) := by
  refine foldl_keeps s.sameRefine _ (fun t kv h => ?_) _ _ h
  split
  · refine sameRefine_ite h ?_
    dsimp only
    split
    · exact h
    · split
      · exact h
      · next hu => exact State.modGrp_sameRefine (State.takeSlot_sameRefine h hu) _ _
  · exact h

theorem State.slotCons_sameRefine {s t : State} (h : s.sameRefine t) (stream i : Nat) (halo : Bool) :
    s.sameRefine (t.slotCons stream i halo) :=
  sameRefine_ite h (State.modInst_sameRefine (State.modStream_sameRefine h _ _) _ _)

theorem State.turnRings_sameRefine {s t : State} (h : s.sameRefine t) (l : Nat) : s.sameRefine (t.turnRings l) := by
  unfold State.turnRings
  split
  · exact h
  · refine foldl_keeps s.sameRefine _ (fun t key h => sameRefine_ite h (State.wakeRings_sameRefine ?_ _)) _ _ h
    have k := foldl_keeps s.sameRefine (fun (t : State) (kv : Nat × Team) => t.modTeam kv.1 fun t =>
      { t with srel := Sp.del t.srel key }) (fun _ _ h => State.modTeam_sameRefine h _ fun _ => ⟨rfl, rfl, rfl⟩)
    exact sameRefine_ite (State.modStream_sameRefine (k _ _ h) _ _) (State.slotCons_sameRefine (k _ _ h) _ _ _)

theorem State.wakeOne_sameRefine {s t : State} (h : s.sameRefine t) (n : Nat) (w : Option Wait) :
    s.sameRefine (t.wakeOne n w).2 := by
  unfold State.wakeOne
  split
  · exact h
  · split
    · exact h
    · split
      · exact h
      · split
        · exact State.boundary_sameRefine h _
        · exact h

theorem State.wakeGroup_sameRefine {s t : State} (h : s.sameRefine t) (n : Nat) : s.sameRefine (t.wakeGroup n) := by
  unfold State.wakeGroup
  have k := sameRefine_ite (p := (t.wakeOne n (t.grp n).wait).1 = true)
    (State.modGrp_sameRefine (State.wakeOne_sameRefine h n (t.grp n).wait) n fun g => { g with wait := none }) h
  exact sameRefine_ite (State.modGrp_sameRefine (State.wakeOne_sameRefine k n _) n _) k

theorem State.wakeTeam_sameRefine {s t : State} (h : s.sameRefine t) (tn : Nat) : s.sameRefine (t.wakeTeam tn) :=
  foldl_keeps s.sameRefine _ (fun _ _ h => State.wakeGroup_sameRefine h _) _ _ h

theorem State.endTeam_sameRuns {s t : State} (h : s.sameRuns t) (tn : Nat) : s.sameRuns (t.endTeam tn) := by
  have k := State.modTeam_sameRuns (h.trans (State.trace_sameRefine t.sameRefine_refl tn 0xFF 4 0).runs) tn
    (f := fun t => { t with life := .ended }) fun _ => ⟨rfl, rfl, rfl⟩
  unfold State.endTeam
  dsimp only
  split
  · split
    · exact k
    · exact k
  · exact h

/-- All that follows at once from a change to a group leaves the runs and the scratchpads alone. -/
theorem State.settle_sameRuns {s t : State} (h : s.sameRuns t) (n : Nat) : s.sameRuns (t.settle n) := by
  unfold State.settle
  refine State.endTeam_sameRuns (h.trans (foldl_keeps t.sameRefine _
    (fun _ _ h => State.wakeTeam_sameRefine h _) _ _ ?_).runs) _
  exact State.turnRings_sameRefine (State.turnCluster_sameRefine
    (State.turnBars_sameRefine (State.settleGroup_sameRefine t.sameRefine_refl n) _) _) _

theorem State.modGrp_sameRuns {s t : State} (h : s.sameRuns t) (n : Nat) (f : Group → Group) :
    s.sameRuns (t.modGrp n f) := h

theorem State.settleAll_sameRuns (s : State) (f : State → Nat → Group → Group) (ns : List Nat) :
    s.sameRuns (ns.foldl (fun s n => (s.modGrp n (f s n)).settle n) s) :=
  foldl_keeps s.sameRuns _ (fun _ _ h => State.settle_sameRuns (State.modGrp_sameRuns h _ _) _) _ _ s.sameRuns_refl

theorem State.rlFree_sameRuns (s : State) (tn : Nat) : s.sameRuns (s.rlFree tn) := s.sameRuns_refl

theorem State.rlTurn_sameRuns {s t : State} (h : s.sameRuns t) (tn : Nat) : s.sameRuns (t.rlTurn tn) :=
  foldl_keeps s.sameRuns _ (fun _ _ h => State.modGrp_sameRuns h _ _) _ _ h

/-! ### The state fields of the command block (07 R160) -/

theorem State.modRun_run {s : State} {tn : Nat} {r : RlRun} (h : (s.team tn).run = some r) (f : RlRun → RlRun) :
    ((s.modRun tn f).team tn).run = some (f r) := by
  simp [State.modRun, h]

theorem State.rlPut_eq {s : State} {tn : Nat} {r : RlRun} (h : (s.team tn).run = some r) (off n x : Nat) :
    s.rlPut tn off n x = s.modTeam tn fun t => t.scrWrite (r.addr + off) (toBytes n x) false := by
  unfold State.rlPut
  rw [h]

theorem State.rlPut_run {s : State} {tn : Nat} {r : RlRun} (h : (s.team tn).run = some r) (off n x : Nat) :
    ((s.rlPut tn off n x).team tn).run = some r := by
  simp [State.rlPut_eq h, h]

theorem State.rlStatus_run {s : State} {tn : Nat} {r : RlRun} (h : (s.team tn).run = some r) :
    ((s.rlStatus tn).team tn).run = some r := by
  unfold State.rlStatus
  rw [h]
  exact State.rlPut_run (State.rlPut_run h _ _ _) _ _ _

@[simp] theorem State.rlPut_core (s : State) (tn off n x c : Nat) : (s.rlPut tn off n x).core c = s.core c := by
  unfold State.rlPut
  split <;> rfl

@[simp] theorem State.rlStatus_core (s : State) (tn c : Nat) : (s.rlStatus tn).core c = s.core c := by
  unfold State.rlStatus
  split <;> simp

/-- The end time that the controller writes after the exit word, and the boundary at the end, leave that word as it is. -/
theorem State.rlPut_exitWord {s : State} {tn : Nat} {r : RlRun} (h : (s.team tn).run = some r) (w x c : Nat) :
    ofBytes ((((((s.rlPut tn 0xD8 4 w).rlPut tn 0xE8 8 x).boundary c).team tn).scrBytes (r.addr + 0xD8) 4)) =
      w % 2 ^ 32 := by
  have hsame := Team.scrBytes_scrWrite_same (s.team tn) (r.addr + 0xD8) (toBytes 4 w) false
  rw [toBytes_length] at hsame
  rw [((State.boundary_sameRefine (State.sameRefine_refl _) c).runs tn).scrBytes,
    State.rlPut_eq (State.rlPut_run h 0xD8 4 w), State.rlPut_eq h, State.modTeam_team, if_pos rfl,
    Team.scrBytes_scrWrite_apart _ _ (.inl (by omega)), State.modTeam_team, if_pos rfl, hsame]
  exact ofBytes_toBytes 4 w

/-! ### Calls (07 R158) -/

/-- The run in a call of a step; a residual call begins with an empty sum (07 R156). -/
def RlRun.called (r : RlRun) (step : Nat) : RlRun :=
  { r with step := step, acc := if step = 2 then 0 else r.acc,
           accNan := r.accNan && step != 2, accInf := r.accInf && step != 2 }

theorem RlRun.called_resid (r : RlRun) :
    r.called 2 = { r with step := 2, acc := 0, accNan := false, accInf := false } := by
  simp [RlRun.called]

theorem RlRun.called_other (r : RlRun) {step : Nat} (h : step ≠ 2) : r.called step = { r with step := step } := by
  simp [RlRun.called, h]

/-- A call sends the lanes out and changes of the run only its step and its sum; the controller is held as before. -/
theorem State.rlCall_calls {s : State} {tn : Nat} {r : RlRun} (h : (s.team tn).run = some r) (step off : Nat) :
    ((s.rlCall tn step off).team tn).run = some (r.called step) ∧
      ∀ c, ((s.rlCall tn step off).core c).rlHolder = (s.core c).rlHolder := by
  have kept : ∀ {x u : State}, x.sameRefine u → (x.team tn).run = some (r.called step) → (∀ c, x.core c = s.core c) →
      (u.team tn).run = some (r.called step) ∧ ∀ c, (u.core c).rlHolder = (s.core c).rlHolder :=
    fun k hx hc => ⟨(k.runs tn).run.trans hx, fun c => (k.holder c).trans (congrArg _ (hc c))⟩
  unfold State.rlCall
  dsimp only
  rw [State.rlStatus_run (State.modRun_run h _)]
  dsimp only
  exact kept (State.settleGroups_sameRefine _ _ _) (State.rlStatus_run (State.modRun_run h _))
    fun _ => State.rlStatus_core _ _ _

/-! ### The end of a run (07 R158 to R163) -/

/-- A run that is dropped stays away, and what stands in the scratchpad stays, while runs and scratchpads are kept. -/
theorem State.dropRun_kept {s t : State} {tn off n v : Nat} (hv : ofBytes ((s.team tn).scrBytes off n) = v)
    (h : (s.modTeam tn fun t => { t with run := none }).sameRuns t) :
    (t.team tn).run = none ∧ ofBytes ((t.team tn).scrBytes off n) = v := by
  have ht := h tn
  rw [State.modTeam_team, if_pos rfl] at ht
  exact ⟨ht.run, (congrArg ofBytes (ht.scrBytes off n)).trans hv⟩

/-- An end without a trap leaves the team without a run, its exit word in the command block. -/
theorem State.rlEnd_ends {s : State} {tn code : Nat} {r : RlRun} (h : (s.team tn).run = some r)
    (hd : code ≠ exitDiverged) (hl : code ≠ exitLimit) :
    ((s.rlEnd tn code).team tn).run = none ∧
      ofBytes (((s.rlEnd tn code).team tn).scrBytes (r.addr + 0xD8) 4) = r.exitWord code % 2 ^ 32 := by
  have hidle := State.rlStatus_run (State.modRun_run h fun r => { r with step := 0 })
  unfold State.rlEnd
  rw [h]
  dsimp only
  rw [if_neg (by simp [hd, hl])]
  exact State.dropRun_kept (State.rlPut_exitWord hidle _ _ _)
    (State.rlTurn_sameRuns ((State.rlFree_sameRuns _ tn).trans (State.settleAll_sameRuns _ _ _)) _)

/-! ### The start of a run (07 R154, R157) -/

/-- A run as it starts: at the first level of its block, no iteration done, nothing summed. -/
def RlRun.fresh (addr : Nat) (b : Sp Byte) : RlRun :=
  { addr := addr, block := b, level := blkLstart b, iter := 0, stag := 0, escs := 0, prev := none, norm := 0#64, step := 0,
    acc := 0, accNan := false, accInf := false, abort := none, faulted := false }

/-- The entries of a block all lie in the launch's code. -/
def State.entriesInCode (s : State) (tn : Nat) (b : Sp Byte) : Prop :=
  ∀ o ∈ blkEntries b, s.codeAt (s.launch (s.team tn).launch).asid
    (entryAt (s.launch (s.team tn).launch).r (blkEntry b o)) = .code

theorem State.rlCode_code {s : State} {tn : Nat} {b : Sp Byte} (h : s.entriesInCode tn b) :
    ∀ a ∈ s.rlCode tn b, a = .code := by
  intro a ha
  obtain ⟨o, ho, rfl⟩ := List.mem_map.1 ha
  exact h o ho

theorem State.rlAbsent_nil {s : State} {tn : Nat} {p : RlPark} {rest : List RlPark} (hp : s.rlParks tn = p :: rest)
    (h : s.entriesInCode tn ((s.team tn).rlBlock p.addr)) : s.rlAbsent tn = [] := by
  unfold State.rlAbsent
  rw [hp]
  dsimp only
  split
  · rfl
  · rw [List.filterMap_eq_nil_iff.2 fun a ha => by rw [State.rlCode_code h a ha]]
    rfl

/-- A start with one well-formed block whose entries are code takes the controller and makes the first call. -/
theorem State.rlStart_begins {s : State} {tn : Nat} {p : RlPark} {rest : List RlPark} (hp : s.rlParks tn = p :: rest)
    (haddr : ∀ c ∈ rest, c.addr = p.addr) (hclean : (s.team tn).scrPoison p.addr 256 = false)
    (hok : blkBad ((s.team tn).rlBlock p.addr) = false) (hcode : s.entriesInCode tn ((s.team tn).rlBlock p.addr)) :
    let b := (s.team tn).rlBlock p.addr
    ∃ x : State, (x.team tn).run = some (RlRun.fresh p.addr b) ∧ (x.core (s.team tn).core).rlHolder = some tn ∧
      s.rlStart tn none = if blkHas b (offFactor (blkLstart b)) then x.rlCall tn 1 (offFactor (blkLstart b))
        else x.rlCall tn 2 offResid := by
  have hall : (s.rlCode tn ((s.team tn).rlBlock p.addr)).any (· != .code) = false :=
    List.any_eq_false.2 fun a ha => by simp [State.rlCode_code hcode a ha]
  have hone : (rest.any fun c => c.addr != p.addr) = false := List.any_eq_false.2 fun c hc => by simp [haddr c hc]
  have hrun : ∀ y : State,
      ((y.modTeam tn fun t => { t with run := some (RlRun.fresh p.addr ((s.team tn).rlBlock p.addr)) }).team tn).run =
        some (RlRun.fresh p.addr ((s.team tn).rlBlock p.addr)) := fun y => by simp
  unfold State.rlStart
  rw [hp]
  dsimp only
  rw [State.rlAbsent_nil hp hcode, if_neg (by simp [hone]), if_neg (by simp [hclean]), if_neg (by simp),
    if_neg (by simp [hok, hall])]
  refine ⟨_, ?_, ?_, rfl⟩
  · iterate 6 refine State.rlPut_run ?_ _ _ _
    exact hrun _
  · simp

/-! ### What follows a call (07 R156, R163) -/

theorem State.rlStep_faulted {s : State} {tn : Nat} {r : RlRun} (h : (s.team tn).run = some r) (hf : r.faulted = true) :
    s.rlStep tn = s.rlEnd tn exitFault := by
  simp [State.rlStep, h, hf]

theorem State.rlStep_aborted {s : State} {tn : Nat} {r : RlRun} (h : (s.team tn).run = some r) (hf : r.faulted = false)
    (ha : r.abort.isSome = true) : s.rlStep tn = s.rlEnd tn exitAborted := by
  simp [State.rlStep, h, hf, ha]

section
variable {s : State} {tn : Nat} {r : RlRun} (h : (s.team tn).run = some r) (hf : r.faulted = false) (ha : r.abort = none)
include h hf ha

theorem State.rlStep_solve (hs : r.step = 3) : s.rlStep tn = s.rlCall tn 4 offUpdate := by
  simp [State.rlStep, h, hf, ha, hs]

theorem State.rlStep_update (hs : r.step = 4) :
    s.rlStep tn = (s.modRun tn fun r => { r with prev := some r.norm }).rlCall tn 2 offResid := by
  simp [State.rlStep, h, hf, ha, hs]

theorem State.rlStep_factor (hs : r.step = 1) :
    s.rlStep tn = if r.escs = 0 then s.rlCall tn 2 offResid else s.rlCall tn 3 (offSolve r.level) := by
  simp [State.rlStep, h, hf, ha, hs]

end

/-! ### The obligation -/

theorem exec_rlRunStart {s : State} {tn : Nat} (h : s.rlCanStart tn = true) :
    exec (.rlRunStart tn) s = .next (s.rlStart tn none) := congrArg Host.Outcome.next (if_pos h)

theorem exec_rlCallEnd {s : State} {tn : Nat} (h : s.rlCanStep tn = true) :
    exec (.rlCallEnd tn) s = .next ((s.boundary (s.team tn).core).rlStep tn) := congrArg Host.Outcome.next (if_pos h)

theorem rlControllerGrant_gives {s : State} {c tn : Nat} (hfree : (s.core c).rlHolder = none)
    (hnext : s.rlNext c = some tn) :
    exec (.rlControllerGrant c) s = .next (s.modCore c fun k => { k with rlHolder := some tn }) := by
  change execRlControllerGrant c s = _
  simp [execRlControllerGrant, hfree, hnext]

/-- Settles O48: a start and the end of each call are one call of the run's next entry, or the run's end. -/
theorem refinementRuns : Obligations.RefinementRuns := by
  intro s tn t l
  refine ⟨?_, fun c => rlControllerGrant_gives, ?_⟩
  · intro p rest hcan hp haddr hclean b first hok hcode
    obtain ⟨x, hx, hholder, hstart⟩ := State.rlStart_begins hp haddr hclean hok hcode
    refine ⟨_, exec_rlRunStart hcan, ?_⟩
    rw [hstart]
    by_cases hfactor : blkHas b (offFactor (blkLstart b)) = true
    · obtain ⟨hrun, hcore⟩ := State.rlCall_calls hx 1 (offFactor (blkLstart b))
      rw [if_pos hfactor, hcore, hrun, RlRun.called_other _ (by decide)]
      exact ⟨hholder, by simp [first, hfactor, RlRun.fresh, b, t]⟩
    · obtain ⟨hrun, hcore⟩ := State.rlCall_calls hx 2 offResid
      rw [if_neg hfactor, hcore, hrun, RlRun.called_resid]
      exact ⟨hholder, by simp [first, hfactor, RlRun.fresh, b, t]⟩
  · intro r hcan hr ends calls
    have hb : ((s.boundary (s.team tn).core).team tn).run = some r :=
      ((State.boundary_sameRefine s.sameRefine_refl _).runs tn).run.trans hr
    have hcall : ∀ {q q' : RlRun} {y : State} {step off : Nat},
        (s.boundary (s.team tn).core).rlStep tn = y.rlCall tn step off → (y.team tn).run = some q → q.called step = q' →
        calls q' := fun he hy hq =>
      ⟨_, (exec_rlCallEnd hcan).trans (congrArg _ he), hq ▸ (State.rlCall_calls hy _ _).1⟩
    refine ⟨fun hf => ?_, fun hf ha => ?_, fun hf ha => ⟨fun hs => ?_, fun hs => ?_, fun hs => ?_⟩⟩
    · exact ⟨_, (exec_rlCallEnd hcan).trans (congrArg _ (State.rlStep_faulted hb hf)),
        State.rlEnd_ends hb (by decide) (by decide)⟩
    · exact ⟨_, (exec_rlCallEnd hcan).trans (congrArg _ (State.rlStep_aborted hb hf ha)),
        State.rlEnd_ends hb (by decide) (by decide)⟩
    · exact hcall (State.rlStep_solve hb hf ha hs) hb (r.called_other (by decide))
    · exact hcall (State.rlStep_update hb hf ha hs) (State.modRun_run hb _) (RlRun.called_resid _)
    · have he := State.rlStep_factor hb hf ha hs
      split
      · next h0 => exact hcall (he.trans (if_pos h0)) hb r.called_resid
      · next h0 => exact hcall (he.trans (if_neg h0)) hb (r.called_other (by decide))

end Sys2Proof.Machine
